-- ==== Sys2Proof/Word.lean ====
section
/-! DEFINITION. The word types of the V9A4: R4 numbers bits from the least significant end. -/
namespace Sys2Proof

/-- A byte of a register, a packet, a ring entry or a memory. -/
abbrev Byte := BitVec 8

/-- A BAR0 register (R323: 32 bits wide). -/
abbrev Dword := BitVec 32

/-- A 64-bit value such as the time base or a ring address. -/
abbrev Qword := BitVec 64

/-- An IEEE 754 binary32 value by its bits (R51, R71). -/
abbrev F32 := BitVec 32

/-- A binary16 value by its bits (R51). -/
abbrev F16 := BitVec 16

end Sys2Proof
end

