-- ==== Sys2Proof/Syntax.lean ====
section
/-! DEFINITION. The commands of the block: one constructor of `Instr` per row of spec/opcode_table.json, and the operand
types they carry. A packet command (NOP to SELFTEST) names the queue whose next fetched entry it examines; a completion or
an internal event names the unit or the command concerned; a physical event carries what the physical world supplies; an event
that moves the data of a command carries the parity error that a check of R222 finds in it, if any. -/
namespace Sys2Proof

/-- The queues of R166 (one admin queue, a context queue and a bow queue per context), and `fwd c`: the stream of
commands of context c that CMD messages bring to a group member (R267). `fwd` is no ring. -/
inductive QueueId where
  | admin
  | ctx (c : Fin 16)
  | bow (c : Fin 16)
  | fwd (c : Fin 16)
deriving DecidableEq, Repr

/-- A command in flight: its queue and its TAG, which R180 keeps unique among the outstanding commands of the queue. -/
structure CmdRef where
  q   : QueueId
  tag : BitVec 16
deriving DecidableEq, Repr

/-- The shared-infrastructure faults of R244 that row SHARED_FAULT_DETECTED stands for. -/
inductive SharedFault where
  | lockstepA
  | lockstepB
  | sharedParity
  | hbmFault
  | securityIsland
  | comparatorHalves
deriving DecidableEq, Repr

/-- What a detected parity error names (R223, R356): the hop code and the failing word address. -/
structure ParityErr where
  hop  : BitVec 16
  addr : BitVec 64
deriving DecidableEq, Repr

/-- An event that moves the data of `unit`, with the parity error that a check of R222 finds in it, if any. -/
structure Checked (α : Type) where
  unit : α
  err  : Option ParityErr
deriving DecidableEq, Repr

/-- A flit as received (R252): its bytes; the codewords that the FEC decoder corrected, and found uncorrectable, with it (a codeword
that two flits touch is counted with the first of them, R277); and whether it overlaps an uncorrectable codeword (R254). -/
structure Flit where
  hdr     : List Byte
  payload : List Byte
  corr    : Nat
  uncorr  : Nat
  hit     : Bool
deriving DecidableEq, Repr

/-- What BIST stage 3 reads of one plane of an array (R310): the eight lantern cells through the verify path (1/64 microsiemens),
the eight lantern codes and the data codes of a test stroke. -/
structure ArrayTest where
  crew  : Fin 256
  slot  : Fin 17
  plane : Bool
  cells : List Nat
  lan   : List Nat
  data  : List Nat
deriving DecidableEq, Repr

/-- What BIST stage 4 finds of one ADC (R311; ADC 8 is the lantern ADC): the deviations of its codes from the ideal ones in the
65,536 test strokes of its pass. -/
structure AdcTest where
  crew : Fin 256
  slot : Fin 17
  adc  : Fin 9
  dev  : List Int
deriving DecidableEq, Repr

/-- What BIST stage 5 counts on one port (R310). -/
structure PortTest where
  port   : Fin 4
  corr   : Nat
  uncorr : Nat
deriving DecidableEq, Repr

/-- The readings of the self-test stages (R310): whether every signature matched (stage 1), whether no bit failed and training
completed (stage 2), and of arrays, ADCs and ports those that did not read within their limits; a unit not listed did. -/
structure BistReading where
  logic   : Bool
  memory  : Bool
  trained : Bool
  arrays  : List ArrayTest
  adcs    : List AdcTest
  ports   : List PortTest
deriving DecidableEq, Repr

/-- Instructions of the test access port (R347). -/
inductive JtagOp where
  | idcode
  | bypass
  | extest
  | extestPulse
  | extestTrain
  | sample
  | preload
deriving DecidableEq, Repr

/-- An instruction shifted into the test access port, with the level of TRST_N: low, as on an unconnected port, it holds the port in
reset (R347). -/
structure JtagEvent where
  op   : JtagOp
  trst : Bool
deriving DecidableEq, Repr

/-- A rail outside its tolerance (R244), in the order of R334: above it, or below it and off, as when VDD_WR is removed (R352). -/
structure RailFault where
  rail : Fin 6
  above : Bool
deriving DecidableEq, Repr

/-- One telemetry transaction (R300): the reading (mV, 10 mA), or none where the transaction failed. -/
abbrev RailReading := Option (BitVec 16 × BitVec 16)

inductive Instr where
  -- packet commands, 07_commands_queues_states R190
  | nop (q : QueueId)
  | identify (q : QueueId)
  | setEnvironment (q : QueueId)
  | setEnvelope (q : QueueId)
  | ctxOpen (q : QueueId)
  | ctxClose (q : QueueId)
  | ctxCloseComplete (c : Fin 16)
  | pitchBegin (q : QueueId)
  | pitchShard (q : QueueId)
  | pitchShardComplete (c : Checked (Fin 16))
  | packConversion (c : Checked (Fin 16)) (entry : Nat)
  | pitchCommit (q : QueueId)
  | pitchCommitComplete (c : Fin 16)
  | pitchAbort (q : QueueId)
  | pitchTimeout (c : Fin 16)
  | swing (q : QueueId)
  | arraySwing (crew : Fin 256) (slot : Fin 17)
  | run (q : QueueId)
  | runDispatch (r : CmdRef)
  | runComplete (r : Checked CmdRef)
  | runBow (q : QueueId)
  | runBowComplete (r : Checked CmdRef)
  | collective (q : QueueId)
  | collectiveComplete (r : Checked CmdRef)
  | fence (q : QueueId)
  | fenceComplete (q : QueueId)
  | trimLoad (q : QueueId)
  -- the measured means (FP16 bits) of the lantern cells that differ from the factory value, by index a*16 + plane*8 + k
  | lanternPassComplete (means : List (Nat × F16))
  | trimRead (q : QueueId)
  | trackCtl (q : QueueId)
  | refresh (q : QueueId)
  | census (q : QueueId)
  | retrimStep (q : QueueId)
  | retrimTrainingStep (r : Checked CmdRef)
  | retrimApply (q : QueueId)
  | statsRead (q : QueueId)
  | signatureDrain (q : QueueId)
  | groupConfig (q : QueueId)
  | groupStatus (q : QueueId)
  | fwStage (q : QueueId)
  | fwActivate (q : QueueId)
  | selftest (q : QueueId)
  | selftestComplete (rd : BistReading)
  -- queues
  | sqDoorbell (q : QueueId) (v : Dword)
  | cqDoorbell (q : QueueId) (v : Dword)
  | queueEnable (q : QueueId) (v : Dword)
  | queueDisable (q : QueueId) (v : Dword)
  | sqEntryFetch (q : Checked QueueId)
  | ringReadError (q : QueueId)
  -- keys and registers
  | secKeyInstall (slot : Fin 8)
  | secKeyRevoke (slot : Fin 8)
  | secKeyOpComplete
  | trackingReset (v : Dword)
  | sineRowModeEnable (crew : Fin 256) (v : Dword)
  | mgtSineEnable (v : Dword)
  | timeLatchRead (off : Nat) (len : Nat)
  | trngRead
  | registerWrite (fn : Fin 17) (bar4 : Bool) (off : Nat) (ws : List (Dword × BitVec 4))
  | pitchWindowWrite (fn : Fin 17) (off : Nat) (data : List Byte)
  -- resets, boot, safe state
  | resetRelease (role : BitVec 2) (sb : BitVec 3)
  | perstAssert (ns : Nat)
  | devRstAssert (ns : Nat)
  | pfFlr
  | vfFlr (n : Fin 16)
  | pcieDlDown
  | powerLoss
  | pllLock
  | bistStageComplete (rd : BistReading)
  | bootImageSelect
  | sharedFaultDetected (f : SharedFault) (endpoint : Bool)
  | pllUnlock
  | refclkLossTimeout
  | railToleranceTimeout (rail : RailFault)
  | overtempTimeout
  | nocCreditWatchdog
  -- telemetry and governor
  | tempSample (ts : List (BitVec 16))
  | governorBudgetUpdate
  | governorEpoch
  | railTelemetryAvs (rs : List RailReading)
  | railTelemetryPmbus (rs : List RailReading)
  -- strokes; `dev` holds the deviation of each ADC code from the ideal transfer of R21
  | stroke (crew : Fin 256) (slot : Fin 17)
  | strokeScanEnd (crew : Fin 256) (slot : Fin 17) (dev : List Int) (dup : Option Nat)
  | checkReplay (crew : Fin 256) (slot : Fin 17)
  | foldReplay (crew : Fin 256) (slot : Fin 17)
  | keepWarmStroke (crew : Fin 256) (slot : Fin 17)
  | sineTestStroke (crew : Fin 256) (dev : List Int)
  -- write path and maintenance; readings in 1/64 microsiemens, 512 data cells then L0 to L7
  | pitchSlot (crew : Fin 256) (slot : Fin 17) (reads : List Nat)
  | refreshStart (crew : Fin 256) (slot : Fin 17)
  | censusStart (crew : Fin 256) (slot : Fin 17)
  | scheduledCensusDue
  | maintenanceSlot (crew : Fin 256) (slot : Fin 17) (reads : List Nat)
  | refreshComplete (crew : Fin 256) (slot : Fin 17)
  | censusComplete (crew : Fin 256) (slot : Fin 17)
  | kappaUpdate (crew : Fin 256) (slot : Fin 17)
  | columnTrackFit (crew : Fin 256) (slot : Fin 17) (col : Fin 512)
  -- dataflow
  | tileArrival (r : CmdRef) (crew : Fin 256) (err : Option ParityErr)
  | claimFetchAdd (r : CmdRef) (rep : Fin 16)
  | claimResultsArrival (r : Checked CmdRef) (tag : Dword)
  | claimRecovery (r : CmdRef)
  | partialArrival (r : CmdRef) (second : Bool) (vec split slice : Nat) (err : Option ParityErr)
  | veFetchStart (v : Checked (Fin 32))
  | veDescriptorExecute (v : Fin 32) (err : Option ParityErr)
  | veDescriptorComplete (v : Fin 32)
  | twinBlockArrival (r : Checked CmdRef) (second : Bool)
  | twinRoleExchange (crew : Fin 256) (l : Fin 16)
  | claimWatchdogExpiry (r : CmdRef) (rep : Fin 16)
  | twinAbsentTimeout (r : CmdRef)
  | sequencerStallTimeout (crew : Fin 256)
  -- links and groups
  | portTrainingComplete (p : Fin 4) (peer : Nat) (sysId : Qword)
  | portTrainingRetry (p : Fin 4)
  | portLinkLoss (p : Fin 4)
  | linkIdleFlit (p : Fin 4) (f : Flit)
  | linkCmdMessage (p : Fin 4) (fs : List Flit)
  | linkStatusMessage (p : Fin 4) (fs : List Flit)
  | linkDataMessage (p : Fin 4) (fs : List Flit)
  | linkPartMessage (p : Fin 4) (fs : List Flit)
  | linkAck (p : Fin 4) (f : Flit)
  | linkResend (p : Fin 4) (f : Flit)
  | linkSigMessage (p : Fin 4) (fs : List Flit)
  | linkCtrlMessage (p : Fin 4) (fs : List Flit)
  | messageTimeout (c : Fin 16) (tag : BitVec 16) (src : Nat) (step : Nat)
  | groupPoll
  | groupPollTimeout (mgr : Nat)
  | smbMirrorReadFirst
  | smbMirrorReadSecond
  | jtagInstruction (op : JtagEvent)
  | flashProgrammingComplete
  | aeHbmWriteComplete (v : Checked (Fin 32))
  | groupStatusAnswerTimeout (r : CmdRef) (addr : Nat)
  | virtualFunctionEnable (n : Fin 16) (en msix : Bool)
deriving DecidableEq, Repr

end Sys2Proof
end

