-- ==== Sys2Proof/Config.lean ====
section
/-! DEFINITION. What one part fixes and what the manual leaves open: opaque constants, with no value any proof can use.
Each is named in the assumption log. -/
namespace Sys2Proof

/-- The 64-bit serial number, per device (R3). Log entry 4. -/
opaque Config.serial : BitVec 64

/-- The factory key in the security island's ROM (R355), 97 bytes; its value is not given. Log entry 13. -/
opaque Config.factoryKey : List Byte

/-- The firmware key in the security island's ROM (R355), 97 bytes; its value is not given. Log entry 13. -/
opaque Config.firmwareKey : List Byte

/-- The conductance (1/64 microsiemens) of a cell that nothing has programmed (R161, R248): array, plane, cell, draw.
Log entry 10. -/
opaque Config.freeCell : Nat → Nat → Nat → Nat → Nat

/-- Random bits: SEC_TRNG_DATA (R334), by the model's free-value counter. Log entry 14. -/
opaque Config.freeRandom : Nat → BitVec 32

/-- How many of the granules of an allocation lie on HBM1 (R154 leaves it open), before limiting to what fits.
Log entry 15. -/
opaque Config.freeGranuleSplit : Nat → Nat

/-- The mean (FP16 bits) that the lantern measurement of a re-powered die reads (R357): array, plane * 8 + column, draw.
Log entry 16. -/
opaque Config.freeLantern : Nat → Nat → Nat → BitVec 16

/-- The working-space offset or bivouac address, within the range read, of a dword in which an HBM read found an error (R223): stack,
byte address in it. The addresses of granules on a stack are not given. Log entry 112. -/
opaque Config.hbmOwner : Nat → Nat → Nat

/-- Where an operand of a VE dot product stands: blocks of a tensor in the layer's HBM space, or of one in the input, from a byte
offset and a block number on; or FP32 numbers that the layer has made. -/
inductive VeSource where
  | weights (ofs first : Nat)
  | input (ofs first : Nat)
  | made (i : Nat)
deriving DecidableEq, Repr, Inhabited

/-- A dot product of a layer plan: its two operands and its reduction length. -/
structure VeDot where
  a : VeSource
  b : VeSource
  n : Nat
deriving DecidableEq, Repr, Inhabited

/-- The attention of a layer plan (R131): where the query rows, the keys and the columns of the values begin, the length of a query
and of a key, the number of keys, the 32-key blocks of a key block, and the scale of the scores. -/
structure AttnPlan where
  q : VeSource
  k : VeSource
  v : VeSource
  d : Nat
  n : Nat
  step : Nat
  scale : F32
deriving DecidableEq, Repr, Inhabited

/-- What the package's layer plan says of a bivouac-tier layer for one shape: the bytes of its input, its dot products in their order
or its attention, the rows and columns of its output, and the quantiser's mode (R74) with the exponent and zero point of its
descriptor. -/
structure LayerPlan where
  inBytes : Nat
  dots : List VeDot
  attn : Option AttnPlan
  rows : Nat
  cols : Nat
  static : Bool
  e : Int
  z : Int
deriving DecidableEq, Repr, Inhabited

/-- The layer plan of a bivouac-tier layer, by its record and the dimensions: the spec gives the arithmetic of a VE (R73, R74) and
not what a layer computes with it. Log entry 17. -/
opaque Config.layerPlan : List Byte → List Nat → LayerPlan

/-- The FP32 operand `made i` of a layer: record, dimensions, weights, input, i, the dot products so far. Log entry 17. -/
opaque Config.veMade : List Byte → List Nat → List (Nat × Byte) → List Byte → Nat → List F32 → List F32

/-- The FP32 outputs of a layer, before the quantiser: record, dimensions, weights, input, its dot products. Log entry 17. -/
opaque Config.layerReal : List Byte → List Nat → List (Nat × Byte) → List Byte → List F32 → List F32

/-- The codebook of a page of an output in a codebook format, which no rule gives: record, page. Log entry 17. -/
opaque Config.codebook : List Byte → Nat → List Byte

/-- The exponential of R131 in FP32, whose rounding no rule gives. Log entry 17. -/
opaque Config.veExp : F32 → F32

/-- The correction of an adapter whose input lies on several members: matrices, input (R278). Log entry 19. -/
opaque Config.partDelta : List Byte → List Byte → List F32

/-- A draw of the stochastic rounding generator (R72): R286 leaves open which VE a block is drawn on, so the draw is a
function of the VE's LFSR state and a free VE choice. Log entry 18. -/
opaque Config.freeVe : Nat → Nat

/-- An unstated result: index of the case, operand. Log entry 19. -/
opaque Config.freeResult : Nat → Nat → Nat

/-- Bytes of an output range that a failed command leaves unspecified (R231), by address and draw. Log entry 20. -/
opaque Config.freeByte : Nat → Nat → BitVec 8

/-- In a group, which other members hold a part of a layer, and the output slices that each combines, ascending (R271): generation,
layer, device address. A device holds its own manifest only. Log entry 70. -/
opaque Config.memberHolds : Nat → Nat → Nat → Bool
opaque Config.memberSlices : Nat → Nat → Nat → List Nat

/-- The splits of an output slice that each crew of a member holds (R129): generation, layer, device address, replica, slice.
Log entry 70. -/
opaque Config.memberCrews : Nat → Nat → Nat → Nat → Nat → List (List Nat)

/-- The address of the top manager of a system of three or four levels, whether a device manages a ring of level 2 in a system of
four, and the next devices clockwise and counterclockwise of a device in a pair-B ring of level 2 or 3 (R258): a member's own
POSITION does not tell. Log entry 70. -/
opaque Config.topAddress : Nat
opaque Config.managesRing : Nat → Bool
opaque Config.nextOnB : Nat → Nat
opaque Config.prevOnB : Nat → Nat

/-- PCI_LINK: the negotiated width and speed of the link that comes up after a reset (R334), by draw. Log entry 81. -/
opaque Config.pciLink : Nat → BitVec 10

/-- Whether the health tests of the random source pass when the device boots (R334), by draw. Log entry 14. -/
opaque Config.trngOk : Nat → Bool

/-- Corrected errors that a stack reports of an HBM transfer (R333), by stack and transfer. Log entry 88. -/
opaque Config.freeEcc : Nat → Nat → Nat

/-- The format codes of the tensors that the layer plan's VE descriptors name, of weights, input and output, by the layer record: for a
bivouac-tier layer no record field gives them (R50, R142). Log entry 17. -/
opaque Config.veFormats : List Byte → List Nat

/-- CTRL messages (R253, R266, R274): no rule lays out their payload. What a payload says: its kind (0 discovery, 2 poll,
3 poll answer, 4 request of a record, 5 record, 6 the ring is DEGRADED; others say nothing to the group state), the devices that a
discovery has found, the ring state of an answer, the record it carries; and the payload of a message of a kind. Log entry 76. -/
opaque Config.ctrlMembers : List Byte → List Nat
opaque Config.ctrlKind : List Byte → Nat
opaque Config.ctrlState : List Byte → Nat
opaque Config.ctrlRecord : List Byte → List Byte
opaque Config.ctrlPayload : Nat → List Byte → List Byte

end Sys2Proof
end

