-- ==== Sys2Proof/Machine/Bits.lean ====
section
/-! DEFINITION. Bit fields, sign extension and byte order (R4: little-endian, bit 0 least significant). -/
namespace Sys2Proof.Machine

/-- The number that little-endian bytes spell (R4). -/
def leNat : List Byte → Nat
  | [] => 0
  | b :: bs => b.toNat + 256 * leNat bs

/-- The number that big-endian bytes spell (the signature integers of R80, R141; the key coordinates of R148). -/
def beNat (bs : List Byte) : Nat := leNat bs.reverse

/-- The low `n` bytes of a number, little-endian. -/
def leBytes : Nat → Nat → List Byte
  | 0, _ => []
  | n + 1, v => BitVec.ofNat 8 v :: leBytes n (v / 256)

/-- The low `n` bytes of a number, big-endian. -/
def beBytes (n v : Nat) : List Byte := (leBytes n v).reverse

/-- The `size`-byte little-endian field at byte offset `off`. -/
def field (bs : List Byte) (off size : Nat) : Nat := leNat ((bs.drop off).take size)

/-- The bytes at offset `off`. -/
def slice (bs : List Byte) (off size : Nat) : List Byte := (bs.drop off).take size

/-- Every byte of the range is 0 (reserved bytes, R5). -/
def zeroAt (bs : List Byte) (off size : Nat) : Bool := (slice bs off size).all (· == 0)

/-- Bits lo to lo + len - 1 of a number. -/
def bitsOf (v lo len : Nat) : Nat := v / 2 ^ lo % 2 ^ len

/-- Bit `i` of a number. -/
def bitOf (v i : Nat) : Bool := v / 2 ^ i % 2 == 1

/-- Two's complement reading of the low `n` bits of a number. -/
def signedOf (n v : Nat) : Int :=
  let u := v % 2 ^ n
  if 2 * u < 2 ^ n then (u : Int) else (u : Int) - (2 ^ n : Nat)

/-- The low `n` bits of an integer in two's complement. -/
def toTwos (n : Nat) (i : Int) : Nat := (i % (2 ^ n : Nat)).toNat

/-- A Bool as one bit at position `i`. -/
def bitAt (b : Bool) (i : Nat) : Nat := if b then 2 ^ i else 0

/-- A counter of `n` bits that stops at its largest value. -/
def satAdd (n v k : Nat) : Nat := min (2 ^ n - 1) (v + k)

/-- Quotient rounded up. -/
def ceilDiv (a b : Nat) : Nat := (a + b - 1) / b

/-- Limit an integer to a range. -/
def clampInt (lo hi x : Int) : Int := max lo (min hi x)

/-- The largest power of two p with p ≤ fuel-bounded limit for which `ok p`, trying 2^k downwards; 0 if none. -/
def largestPow2 (ok : Nat → Bool) : Nat → Nat
  | 0 => if ok 1 then 1 else 0
  | k + 1 => if ok (2 ^ (k + 1)) then 2 ^ (k + 1) else largestPow2 ok k

/-- The smallest power of two (at most 2^(k + n)) for which `ok`, trying upwards from 2^k. -/
def smallestPow2 (ok : Nat → Bool) : Nat → Nat → Nat
  | k, 0 => 2 ^ k
  | k, n + 1 => if ok (2 ^ k) then 2 ^ k else smallestPow2 ok (k + 1) n

/-- Replace the element at position `i`; a position past the end changes nothing. -/
def setAt {α : Type} : List α → Nat → α → List α
  | [], _, _ => []
  | _ :: t, 0, x => x :: t
  | h :: t, i + 1, x => h :: setAt t i x

/-- Add two lists of integers element by element. -/
def addLists : List Int → List Int → List Int
  | a :: as, b :: bs => (a + b) :: addLists as bs
  | as, [] => as
  | [], bs => bs

/-- Sum of a list of integers. -/
def sumInt (l : List Int) : Int := l.foldl (· + ·) 0
def sumQ (l : List Rat) : Rat := l.foldl (· + ·) 0

/-- Sum of a list of naturals. -/
def sumNat (l : List Nat) : Nat := l.foldl (· + ·) 0

/-- Exclusive or of bytes. -/
def xorBytes (l : List Byte) : Byte := l.foldl (· ^^^ ·) 0

/-- Parity of the ones of a byte: true when their number is odd. -/
def oddOnes (b : Byte) : Bool := (List.range 8).foldl (fun a i => xor a (b.getLsbD i)) false

/-- The odd-parity bit that accompanies a byte (R221): the byte and its bit together hold an odd number of ones. -/
def parityBit (b : Byte) : Bool := !oddOnes b

end Sys2Proof.Machine
end

