-- ==== Sys2Proof/Machine/Crypto.lean ====
section
/-! DEFINITION. The digests and signatures that the manual names: SHA-384, ECDSA over P-384 (R80, R141, R148) and CRC-32C
(R236). PRESUMED from the standards the manual cites or names (FIPS 180-4, FIPS 186-4, RFC 3720); log entry 22. -/
namespace Sys2Proof.Machine

/-! ## SHA-384 -/

def shaK0 : List Nat :=
  [0x428A2F98D728AE22, 0x7137449123EF65CD, 0xB5C0FBCFEC4D3B2F, 0xE9B5DBA58189DBBC,
   0x3956C25BF348B538, 0x59F111F1B605D019, 0x923F82A4AF194F9B, 0xAB1C5ED5DA6D8118,
   0xD807AA98A3030242, 0x12835B0145706FBE, 0x243185BE4EE4B28C, 0x550C7DC3D5FFB4E2,
   0x72BE5D74F27B896F, 0x80DEB1FE3B1696B1, 0x9BDC06A725C71235, 0xC19BF174CF692694,
   0xE49B69C19EF14AD2, 0xEFBE4786384F25E3, 0x0FC19DC68B8CD5B5, 0x240CA1CC77AC9C65]

def shaK1 : List Nat :=
  [0x2DE92C6F592B0275, 0x4A7484AA6EA6E483, 0x5CB0A9DCBD41FBD4, 0x76F988DA831153B5,
   0x983E5152EE66DFAB, 0xA831C66D2DB43210, 0xB00327C898FB213F, 0xBF597FC7BEEF0EE4,
   0xC6E00BF33DA88FC2, 0xD5A79147930AA725, 0x06CA6351E003826F, 0x142929670A0E6E70,
   0x27B70A8546D22FFC, 0x2E1B21385C26C926, 0x4D2C6DFC5AC42AED, 0x53380D139D95B3DF,
   0x650A73548BAF63DE, 0x766A0ABB3C77B2A8, 0x81C2C92E47EDAEE6, 0x92722C851482353B]

def shaK2 : List Nat :=
  [0xA2BFE8A14CF10364, 0xA81A664BBC423001, 0xC24B8B70D0F89791, 0xC76C51A30654BE30,
   0xD192E819D6EF5218, 0xD69906245565A910, 0xF40E35855771202A, 0x106AA07032BBD1B8,
   0x19A4C116B8D2D0C8, 0x1E376C085141AB53, 0x2748774CDF8EEB99, 0x34B0BCB5E19B48A8,
   0x391C0CB3C5C95A63, 0x4ED8AA4AE3418ACB, 0x5B9CCA4F7763E373, 0x682E6FF3D6B2B8A3,
   0x748F82EE5DEFB2FC, 0x78A5636F43172F60, 0x84C87814A1F0AB72, 0x8CC702081A6439EC]

def shaK3 : List Nat :=
  [0x90BEFFFA23631E28, 0xA4506CEBDE82BDE9, 0xBEF9A3F7B2C67915, 0xC67178F2E372532B,
   0xCA273ECEEA26619C, 0xD186B8C721C0C207, 0xEADA7DD6CDE0EB1E, 0xF57D4F7FEE6ED178,
   0x06F067AA72176FBA, 0x0A637DC5A2C898A6, 0x113F9804BEF90DAE, 0x1B710B35131C471B,
   0x28DB77F523047D84, 0x32CAAB7B40C72493, 0x3C9EBE0A15C9BEBC, 0x431D67C49C100D4C,
   0x4CC5D4BECB3E42B6, 0x597F299CFC657E2A, 0x5FCB6FAB3AD6FAEC, 0x6C44198C4A475817]

/-- The 80 round constants. -/
def shaK : List Nat := shaK0 ++ shaK1 ++ shaK2 ++ shaK3

/-- The initial hash value. -/
def sha384Init : List (BitVec 64) :=
  [0xCBBB9D5DC1059ED8, 0x629A292A367CD507, 0x9159015A3070DD17, 0x152FECD8F70E5939,
   0x67332667FFC00B31, 0x8EB44A8768581511, 0xDB0C2E0D64F98FA7, 0x47B5481DBEFA4FA4]

def rotr (x : BitVec 64) (n : Nat) : BitVec 64 := x.rotateRight n

/-- Extend the message schedule: newest word first. -/
def shaSchedule : Nat → List (BitVec 64) → List (BitVec 64)
  | 0, w => w
  | k + 1, w =>
    let w2 := w.getD 1 0
    let w15 := w.getD 14 0
    let s0 := rotr w15 1 ^^^ rotr w15 8 ^^^ (w15 >>> 7)
    let s1 := rotr w2 19 ^^^ rotr w2 61 ^^^ (w2 >>> 6)
    shaSchedule k ((s1 + w.getD 6 0 + s0 + w.getD 15 0) :: w)

def shaRounds : List (BitVec 64 × Nat) → List (BitVec 64) → List (BitVec 64)
  | (w, k) :: t, [a, b, c, d, e, f, g, h] =>
    let t1 := h + (rotr e 14 ^^^ rotr e 18 ^^^ rotr e 41) + ((e &&& f) ^^^ (~~~e &&& g)) + BitVec.ofNat 64 k + w
    let t2 := (rotr a 28 ^^^ rotr a 34 ^^^ rotr a 39) + ((a &&& b) ^^^ (a &&& c) ^^^ (b &&& c))
    shaRounds t [t1 + t2, a, b, c, d + t1, e, f, g]
  | _, v => v

def shaBlock (h : List (BitVec 64)) (blk : List Byte) : List (BitVec 64) :=
  let w0 := (List.range 16).map (fun i => BitVec.ofNat 64 (beNat (slice blk (8 * i) 8)))
  let w := (shaSchedule 64 w0.reverse).reverse
  List.zipWith (· + ·) h (shaRounds (w.zip shaK) h)

def shaBlocks : Nat → List (BitVec 64) → List Byte → List (BitVec 64)
  | 0, h, _ => h
  | k + 1, h, bs => shaBlocks k (shaBlock h (bs.take 128)) (bs.drop 128)

/-- SHA-384 of a byte run: 48 bytes. -/
def sha384 (msg : List Byte) : List Byte :=
  let padLen := (239 - msg.length % 128) % 128
  let padded := msg ++ (0x80 : Byte) :: List.replicate padLen 0 ++ beBytes 16 (8 * msg.length)
  ((shaBlocks (padded.length / 128) sha384Init padded).take 6).flatMap (fun w => beBytes 8 w.toNat)

/-! ## P-384 -/

def p384p : Nat := 39402006196394479212279040100143613805079739270465446667948293404245721771496870329047266088258938001861606973112319
def p384b : Nat := 0xB3312FA7E23EE7E4988E056BE3F82D19181D9C6EFE8141120314088F5013875AC656398D8A2ED19D2A85C8EDD3EC2AEF
def p384n : Nat := 0xFFFFFFFFFFFFFFFFFFFFFFFFFFFFFFFFFFFFFFFFFFFFFFFFC7634D81F4372DDF581A0DB248B0A77AECEC196ACCC52973

/-- An affine point; none is the point at infinity. -/
abbrev Point := Option (Nat × Nat)

def p384g : Point := some (0xAA87CA22BE8B05378EB1C71EF320AD746E1D3B628BA79B9859F741E082542A385502F25DBF55296C3A545E3872760AB7, 0x3617DE4A96262C6F5D9E98BF9292DC29F8F41DBD289A147CE9DA3113B5F0B8C00A60B1CE1D7E819D7A431D7C90EA0E5F)

/-- Power modulo m, `k` bits of the exponent from the least significant. -/
def powMod (m : Nat) : Nat → Nat → Nat → Nat
  | 0, _, _ => 1 % m
  | k + 1, b, e => (if e % 2 = 1 then b * powMod m k (b * b % m) (e / 2) else powMod m k (b * b % m) (e / 2)) % m

/-- Inverse modulo a 384-bit prime. -/
def invMod (m a : Nat) : Nat := powMod m 384 (a % m) (m - 2)

/-- Curve addition (a = -3). -/
def ptAdd : Point → Point → Point
  | none, q => q
  | p, none => p
  | some (x1, y1), some (x2, y2) =>
    if x1 = x2 ∧ (y1 + y2) % p384p = 0 then none
    else
      let l := if x1 = x2 then (3 * x1 * x1 + p384p - 3) * invMod p384p (2 * y1) % p384p
               else (y2 + p384p - y1) * invMod p384p (x2 + p384p - x1) % p384p
      let x3 := (l * l + 2 * p384p - x1 - x2) % p384p
      some (x3, (l * (x1 + p384p - x3) + p384p - y1) % p384p)

def ptMul : Nat → Nat → Point → Point
  | 0, _, _ => none
  | k + 1, e, p => if e % 2 = 1 then ptAdd p (ptMul k (e / 2) (ptAdd p p)) else ptMul k (e / 2) (ptAdd p p)

/-- A 97-byte uncompressed point is valid (R148): leading 0x04, coordinates in the field, on the curve. The encoding cannot
name the point at infinity. -/
def pointOf (bs : List Byte) : Point :=
  let x := beNat (slice bs 1 48)
  let y := beNat (slice bs 49 48)
  if bs.headD 0 = 4 ∧ bs.length = 97 ∧ x < p384p ∧ y < p384p ∧ y * y % p384p = (x * x * x + 3 * (p384p - x) + p384b) % p384p
  then some (x, y) else none

/-- ECDSA verification of r then s, 48 bytes each, big-endian, over a SHA-384 digest. -/
def ecdsaVerify (key digest sig : List Byte) : Bool :=
  match pointOf key with
  | none => false
  | some q =>
    let r := beNat (slice sig 0 48)
    let s := beNat (slice sig 48 48)
    if r = 0 ∨ s = 0 ∨ p384n ≤ r ∨ p384n ≤ s ∨ sig.length ≠ 96 then false
    else
      let w := invMod p384n s
      let u1 := beNat digest * w % p384n
      let u2 := r * w % p384n
      match ptAdd (ptMul 384 u1 p384g) (ptMul 384 u2 (some q)) with
      | none => false
      | some (x, _) => x % p384n = r

/-- The signature over all but the last 96 bytes of a signed record verifies (R80, R141, R315). -/
def signedOk (key rec : List Byte) : Bool :=
  ecdsaVerify key (sha384 (rec.take (rec.length - 96))) (rec.drop (rec.length - 96))

/-- KEY_ID: the first 8 bytes of the SHA-384 digest of the 97 key bytes (R148). -/
def keyIdOf (key : List Byte) : List Byte := (sha384 key).take 8

/-! ## CRC-32C (R236: polynomial 0x1EDC_6F41, reflected form 0x82F6_3B78) -/

def crcBit (c : BitVec 32) : BitVec 32 := if c.getLsbD 0 then (c >>> 1) ^^^ 0x82F63B78#32 else c >>> 1

def crcByte (c : BitVec 32) (b : Byte) : BitVec 32 :=
  (List.range 8).foldl (fun x _ => crcBit x) (c ^^^ b.setWidth 32)

def crc32c (bs : List Byte) : BitVec 32 := ~~~ (bs.foldl crcByte 0xFFFFFFFF#32)

end Sys2Proof.Machine
end

