-- ==== Sys2Proof/Machine/Numerics.lean ====
section
/-! DEFINITION. The number formats of R50 to R57, IEEE arithmetic by exact rationals and one rounding (R70, R71), the
conversions of R68 and R71, and the blocks of R54. -/
namespace Sys2Proof.Machine

/-- 2 to an integer power. -/
def pow2 (e : Int) : Rat := if 0 ≤ e then ((2 ^ e.toNat : Nat) : Rat) else 1 / ((2 ^ (-e).toNat : Nat) : Rat)

/-- Round to the nearest integer, ties to even (R70). -/
def roundEven (q : Rat) : Int :=
  let f := q.floor
  let r := q - f
  if r < 1 / 2 then f else if 1 / 2 < r then f + 1 else if f % 2 = 0 then f else f + 1

/-- Integer square root, one bit at a time. -/
def isqrtGo : Nat → Nat → Nat → Nat
  | 0, _, r => r
  | b + 1, n, r => isqrtGo b n (if (r + 2 ^ b) * (r + 2 ^ b) ≤ n then r + 2 ^ b else r)

def isqrt (n : Nat) : Nat := isqrtGo (n.log2 / 2 + 1) n 0

/-- Absolute value of a rational. -/
def absQ (q : Rat) : Rat := if q < 0 then -q else q

/-- The larger of two rationals. -/
def maxQ (a b : Rat) : Rat := if a < b then b else a

/-- The smaller of two rationals. -/
def minQ (a b : Rat) : Rat := if a < b then a else b

/-- Limit a rational to a range. -/
def clampQ (lo hi q : Rat) : Rat := maxQ lo (minQ hi q)

/-- The value of a floating-point word: NaN, an infinity, or a signed number (the sign is kept for zero). -/
inductive FV where
  | nan
  | inf (neg : Bool)
  | fin (neg : Bool) (v : Rat)
deriving DecidableEq, Repr

/-- A floating-point layout of R51: exponent bits, mantissa bits, bias, and whether the top exponent carries infinities. -/
structure FFmt where
  eb : Nat
  mb : Nat
  bias : Nat
  infs : Bool
deriving DecidableEq, Repr

def fmtE4M3 : FFmt := ⟨4, 3, 7, false⟩
def fmtE5M2 : FFmt := ⟨5, 2, 15, true⟩
def fmtBF16 : FFmt := ⟨8, 7, 127, true⟩
def fmtFP16 : FFmt := ⟨5, 10, 15, true⟩
def fmtFP32 : FFmt := ⟨8, 23, 127, true⟩

/-- The largest finite value of a layout (R51: in E4M3 the top exponent is finite except for mantissa 111). -/
def FFmt.maxFinite (f : FFmt) : Rat :=
  if f.infs then ((2 ^ (f.mb + 1) - 1 : Nat) : Rat) * pow2 (2 ^ f.eb - 2 - f.bias - f.mb)
  else ((2 ^ (f.mb + 1) - 2 : Nat) : Rat) * pow2 (2 ^ f.eb - 1 - f.bias - f.mb)

/-- The value of a word (R51); subnormals are read, never flushed (R52). -/
def FFmt.decode (f : FFmt) (x : Nat) : FV :=
  let neg := bitOf x (f.eb + f.mb)
  let e := bitsOf x f.mb f.eb
  let m := bitsOf x 0 f.mb
  let sgn : Rat := if neg then -1 else 1
  if e = 2 ^ f.eb - 1 ∧ f.infs then (if m = 0 then .inf neg else .nan)
  else if e = 2 ^ f.eb - 1 ∧ m = 2 ^ f.mb - 1 then .nan
  else if e = 0 then .fin neg (sgn * (m : Rat) * pow2 (1 - f.bias - f.mb))
  else .fin neg (sgn * ((2 ^ f.mb + m : Nat) : Rat) * pow2 (e - f.bias - f.mb))

/-- floor(log2 a) of a positive rational. -/
def log2Q (a : Rat) : Int :=
  let e : Int := (a.num.toNat.log2 : Int) - (a.den.log2 : Int)
  if a < pow2 e then e - 1 else e

/-- The NaN word the device writes (R52). -/
def FFmt.nanWord (f : FFmt) : Nat :=
  if f.eb = 4 ∨ (f.eb = 5 ∧ f.mb = 2) then 0x7F
  else (2 ^ f.eb - 1) * 2 ^ f.mb + 2 ^ (f.mb - 1)

/-- The word of an infinity; E4M3 has none and takes its largest finite value (R71). -/
def FFmt.infWord (f : FFmt) (neg : Bool) : Nat :=
  bitAt neg (f.eb + f.mb) + (if f.infs then (2 ^ f.eb - 1) * 2 ^ f.mb else 2 ^ (f.eb + f.mb) - 2)

/-- Round a number to a layout, to nearest even; true when its magnitude after rounding exceeds the largest finite value. -/
def FFmt.round (f : FFmt) (neg : Bool) (v : Rat) : Nat × Bool :=
  let a := absQ v
  let s := bitAt neg (f.eb + f.mb)
  if a = 0 then (s, false)
  else
    let q : Int := max (log2Q a) (1 - f.bias) - f.mb
    let n := (roundEven (a / pow2 q)).toNat
    if f.maxFinite < (n : Rat) * pow2 q then (f.infWord neg, true)
    else if n = 0 then (s, false)
    else (s + ((q + f.mb + f.bias).toNat * 2 ^ f.mb + n - 2 ^ f.mb), false)

/-- Encode a value (R71): IEEE results for the 16- and 32-bit formats. -/
def FFmt.encode (f : FFmt) : FV → Nat
  | .nan => f.nanWord
  | .inf neg => f.infWord neg
  | .fin neg v => (f.round neg v).1

/-- Conversion into the 8-bit formats (R71): a finite value above the largest finite goes to the largest finite; an
infinity stays one in E5M2. The flag tells that the value was clamped. -/
def FFmt.convert8 (f : FFmt) : FV → Nat × Bool
  | .nan => (f.nanWord, false)
  | .inf neg => (f.infWord neg, !f.infs)
  | .fin neg v =>
    match f.round neg v with
    | (w, false) => (w, false)
    | (_, true) => (bitAt neg (f.eb + f.mb) + (if f.infs then (2 ^ f.eb - 1) * 2 ^ f.mb - 1 else 2 ^ (f.eb + f.mb) - 2), true)

/-! ## FP32 operations (R71): each is one exact result and one rounding -/

def f32Val (x : F32) : FV := fmtFP32.decode x.toNat
def f32Of (v : FV) : F32 := BitVec.ofNat 32 (fmtFP32.encode v)
/-- A rational rounded to FP32. -/
def f32Rat (q : Rat) : F32 := f32Of (.fin (q < 0) q)
def f32Int (i : Int) : F32 := f32Rat (i : Rat)

/-- The number of a finite FP32 word; 0 for an infinity or NaN. -/
def f32Q (x : F32) : Rat := match f32Val x with | .fin _ v => v | _ => 0

def f32Finite (x : F32) : Bool := match f32Val x with | .fin _ _ => true | _ => false
def f32IsNan (x : F32) : Bool := match f32Val x with | .nan => true | _ => false

def FV.isNeg : FV → Bool | .nan => false | .inf n => n | .fin n _ => n

/-- A value times 2^e, exactly: a power of two moves the exponent and rounds nothing. -/
def FV.scale (e : Int) : FV → FV
  | .fin n v => .fin n (v * pow2 e)
  | w => w

def f32Neg (x : F32) : F32 := x ^^^ 0x80000000#32
def f32Abs (x : F32) : F32 := x &&& 0x7FFFFFFF#32

def f32Add (a b : F32) : F32 :=
  match f32Val a, f32Val b with
  | .nan, _ => f32Of .nan
  | _, .nan => f32Of .nan
  | .inf n, .inf m => if n = m then f32Of (.inf n) else f32Of .nan
  | .inf n, _ => f32Of (.inf n)
  | _, .inf m => f32Of (.inf m)
  | .fin n x, .fin m y =>
    let z := x + y
    f32Of (.fin (if z = 0 then n && m else z < 0) z)

def f32Sub (a b : F32) : F32 := if f32IsNan b then f32Of .nan else f32Add a (f32Neg b)

def f32Mul (a b : F32) : F32 :=
  match f32Val a, f32Val b with
  | .nan, _ => f32Of .nan
  | _, .nan => f32Of .nan
  | .inf n, .inf m => f32Of (.inf (xor n m))
  | .inf n, .fin m y => if y = 0 then f32Of .nan else f32Of (.inf (xor n m))
  | .fin n x, .inf m => if x = 0 then f32Of .nan else f32Of (.inf (xor n m))
  | .fin n x, .fin m y => f32Of (.fin (xor n m) (x * y))

def f32Div (a b : F32) : F32 :=
  match f32Val a, f32Val b with
  | .nan, _ => f32Of .nan
  | _, .nan => f32Of .nan
  | .inf _, .inf _ => f32Of .nan
  | .inf n, .fin m _ => f32Of (.inf (xor n m))
  | .fin n _, .inf m => f32Of (.fin (xor n m) 0)
  | .fin n x, .fin m y =>
    if y = 0 then (if x = 0 then f32Of .nan else f32Of (.inf (xor n m))) else f32Of (.fin (xor n m) (x / y))

/-- A rational close enough to the square root to round as it does: exact, or strictly between two neighbours far below
the rounding unit. -/
def sqrtQ (v : Rat) : Rat :=
  let k : Nat := (max 0 (64 - log2Q v)).toNat
  let scaled : Rat := v * ((4 ^ k : Nat) : Rat)
  let n := scaled.floor.toNat
  let r := isqrt n
  if ((r * r : Nat) : Rat) = scaled then (r : Rat) / ((2 ^ k : Nat) : Rat)
  else ((2 * r + 1 : Nat) : Rat) / ((2 ^ (k + 1) : Nat) : Rat)

/-- The correctly rounded FP32 square root (R211). -/
def f32Sqrt (a : F32) : F32 :=
  match f32Val a with
  | .nan => f32Of .nan
  | .inf neg => if neg then f32Of .nan else a
  | .fin neg v => if v = 0 then a else if neg then f32Of .nan else f32Rat (sqrtQ v)

/-- a < b and a ≤ b on FP32; false when either is NaN. -/
def f32Le (a b : F32) : Bool :=
  match f32Val a, f32Val b with
  | .nan, _ => false
  | _, .nan => false
  | .inf true, _ => true
  | _, .inf false => true
  | .inf false, _ => false
  | _, .inf true => false
  | .fin _ x, .fin _ y => x ≤ y

def f32Lt (a b : F32) : Bool := f32Le a b && !f32Le b a

def f32Max (a b : F32) : F32 := if f32Lt a b then b else a

/-- FP16 and BF16 words as FP32 (exact). -/
def f32OfF16 (x : F16) : F32 := f32Of (fmtFP16.decode x.toNat)
def f32OfBF16 (x : BitVec 16) : F32 := f32Of (fmtBF16.decode x.toNat)
def f16Q (x : F16) : Rat := match fmtFP16.decode x.toNat with | .fin _ v => v | _ => 0
def f16Finite (x : F16) : Bool := match fmtFP16.decode x.toNat with | .fin _ _ => true | _ => false

/-! ## Format codes (R50) -/

/-- Width in bits of a stored element. -/
def fmtBits (c : Nat) : Nat :=
  if c = 0 ∨ c = 1 ∨ c = 9 then 4 else if c = 6 ∨ c = 7 then 16 else if c = 8 then 32 else 8

/-- Integer formats, and the element range. -/
def fmtInt (c : Nat) : Bool := c ≤ 3
def fmtLo (c : Nat) : Int := if c = 0 then -8 else if c = 2 then -128 else 0
def fmtHi (c : Nat) : Int := if c = 0 then 7 else if c = 1 then 15 else if c = 2 then 127 else 255

/-- Formats stored in blocks with a header (R54). -/
def fmtBlocked (c : Nat) : Bool := !(c = 6 || c = 7 || c = 8)

/-- Bytes of one block (R54): two header bytes and 32 elements. -/
def blockBytes (c : Nat) : Nat := if fmtBits c = 4 then 18 else 34

/-- Bytes of `n` consecutive elements: blocks (R54) or plain elements. -/
def tensorBytes (c n : Nat) : Nat := if fmtBlocked c then ceilDiv n 32 * blockBytes c else n * (fmtBits c / 8)

/-- A stored element code as a signed or unsigned integer. -/
def elemInt (c code : Nat) : Int := if c = 0 then signedOf 4 code else if c = 2 then signedOf 8 code else (code : Int)

/-- The elements of a byte run, 4-bit elements low nibble first (R53). -/
def unpackElems (c : Nat) (bs : List Byte) : List Nat :=
  if fmtBits c = 4 then bs.flatMap (fun b => [b.toNat % 16, b.toNat / 16])
  else bs.map (fun b => b.toNat)

/-- Pair up 4-bit elements into bytes. -/
def packNibbles : List Nat → List Byte
  | [] => []
  | [a] => [BitVec.ofNat 8 (a % 16)]
  | a :: b :: t => BitVec.ofNat 8 (a % 16 + 16 * (b % 16)) :: packNibbles t

/-- The bytes of elements. -/
def packElems (c : Nat) (l : List Nat) : List Byte :=
  if fmtBits c = 4 then packNibbles l
  else if fmtBits c = 8 then l.map (fun x => BitVec.ofNat 8 x)
  else l.flatMap (fun x => leBytes 2 x)

/-- One block (R54): exponent, zero point, 32 elements, the missing ones 0 (R56). -/
def packBlock (c : Nat) (e z : Nat) (l : List Nat) : List Byte :=
  BitVec.ofNat 8 e :: BitVec.ofNat 8 z :: packElems c ((l ++ List.replicate 32 0).take 32)

/-- Consecutive blocks of `n` elements in all. -/
def packBlocks (c e z : Nat) : Nat → List Nat → List Byte
  | 0, _ => []
  | k + 1, l => if l.isEmpty then [] else packBlock c e z (l.take 32) ++ packBlocks c e z k (l.drop 32)

/-- Cut a byte run into `k` blocks: header exponent, header zero point, elements. -/
def cutBlocks (c : Nat) : Nat → List Byte → List (Nat × Nat × List Nat)
  | 0, _ => []
  | k + 1, bs =>
    (field bs 0 1, field bs 1 1, unpackElems c (slice bs 2 (blockBytes c - 2))) ::
      cutBlocks c k (bs.drop (blockBytes c))

/-- The real value of a stored code in a block (R55), for the formats without a codebook. -/
def elemVal (c : Nat) (e : Int) (z : Int) (code : Nat) : FV :=
  if fmtInt c then .fin (elemInt c code < z) ((elemInt c code - z : Int) * pow2 e)
  else
    let f := if c = 4 then fmtE4M3 else if c = 5 then fmtE5M2 else if c = 6 then fmtBF16 else fmtFP16
    FV.scale (if c = 4 ∨ c = 5 then e else 0) (f.decode code)

/-- Zero point of a block header byte (R54): signed for INT4 and INT8. -/
def zpVal (c zp : Nat) : Int := if c = 0 ∨ c = 2 then signedOf 8 zp else if c = 1 ∨ c = 3 then (zp : Int) else 0

/-- Convert an FP32 value into a stored code of format `c` with exponent `e` and zero point `z` (R68, R71); the flag tells
that the value was clamped (R75). The scaling by 2^(-e) is exact: for the legal exponent -128 the factor itself is no FP32 number
(log entry 91). -/
def quantise (c : Nat) (e z : Int) (y : F32) : Nat × Bool :=
  if c = 6 then (fmtBF16.encode (f32Val y), false)
  else if c = 7 then (fmtFP16.encode (f32Val y), false)
  else
    let s := FV.scale (-e) (f32Val y)
    if fmtInt c then
      match s with
      | .nan => (toTwos (fmtBits c) z, false)
      | .inf neg => (toTwos (fmtBits c) (if neg then fmtLo c else fmtHi c), true)
      | .fin _ v =>
        let q := roundEven v + z
        (toTwos (fmtBits c) (clampInt (fmtLo c) (fmtHi c) q), decide (q < fmtLo c ∨ fmtHi c < q))
    else (if c = 4 then fmtE4M3 else fmtE5M2).convert8 s

/-- The squared error of a conversion in FP32 (R112): real value before, minus the real value of the stored code. -/
def convErrSq (c : Nat) (e z : Int) (y : F32) (code : Nat) : F32 :=
  let d := f32Sub y (f32Of (elemVal c e z code))
  f32Mul d d

/-- An FP32 number times 2^e, rounded once; for an exponent outside FP32's range the factor itself is no FP32 number (log entry 91). -/
def f32Scale (e : Int) (x : F32) : F32 := f32Of (FV.scale e (f32Val x))

/-- The fixed pairwise tree of R73; a missing operand passes the other on (R127). -/
def pairUp : List F32 → List F32
  | a :: b :: t => f32Add a b :: pairUp t
  | l => l

def pairTree : Nat → List F32 → F32
  | 0, l => l.headD 0
  | k + 1, l => pairTree k (pairUp l)

/-- A block of integer operands (R73): the sum exact in INT32, as FP32, times the block scales 2^e. -/
def veBlockInt (as bs : List Int) (e : Int) : F32 := f32Scale e (f32Int (sumInt (List.zipWith (· * ·) as bs)))

/-- A block of floating-point or codebook operands (R73): products in FP32, the pairwise tree of five levels, times the block
scales 2^e. -/
def veBlockReal (as bs : List F32) (e : Int) : F32 := f32Scale e (pairTree 5 (List.zipWith f32Mul as bs))

/-- One block of an operand of a VE: its exponent (0 for a plain array), for an integer format the elements less their zero point, and
the elements as FP32 without the exponent. -/
structure VeBlock where
  exp : Int
  ints : Option (List Int)
  vals : List F32
deriving DecidableEq, Repr

/-- A block of FP32 numbers. -/
def VeBlock.real (xs : List F32) : VeBlock := ⟨0, none, xs⟩

/-- The dot product of two blocks (R73). An integer block that meets another kind takes part as FP32 (log entry 17). -/
def VeBlock.dot (a b : VeBlock) : F32 :=
  match a.ints, b.ints with
  | some x, some y => veBlockInt x y (a.exp + b.exp)
  | _, _ => veBlockReal a.vals b.vals (a.exp + b.exp)

/-- A dot product (R73, R139): blocks in ascending order, each added to the FP32 accumulator. -/
def veSum (as bs : List VeBlock) : F32 := (List.zipWith VeBlock.dot as bs).foldl f32Add 0

/-- The elements of block `i`. -/
def slice32 {α : Type} (xs : List α) (i : Nat) : List α := (xs.drop (32 * i)).take 32

/-- FP32 numbers in blocks of 32, whose block scale is 2^e. -/
def realBlocks (e : Int) (xs : List F32) : List VeBlock :=
  (List.range (ceilDiv xs.length 32)).map (fun i => ⟨e, none, slice32 xs i⟩)

/-- The dot product of FP32 operands whose block scales multiply to 2^e; plain arrays such as BF16 have none (e = 0). -/
def veDot (e : Int) (as bs : List F32) : F32 := veSum (realBlocks e as) (realBlocks 0 bs)

/-- No conversion with exponent `e` clamps the value (R74). For E4M3 the rule is the magnitude's: at most 448 times 2^e; so it is
for E5M2 under stochastic rounding (R72, `sr`), where the exponent stands before the draws (log entry 92). -/
def fits (c : Nat) (sr : Bool) (e z : Int) (y : F32) : Bool :=
  match c, f32Val y with
  | 4, .fin _ v => decide (absQ v ≤ 448 * pow2 e)
  | 5, .fin _ v => if sr then decide (absQ v ≤ fmtE5M2.maxFinite * pow2 e) else !(quantise 5 e z y).2
  | _, _ => !(quantise c e z y).2

/-- The smallest exponent, from `e` upwards, for which no element of a block is clamped (R74, dynamic mode). -/
def dynExpGo (c : Nat) (sr : Bool) (z : Int) (ys : List F32) : Nat → Int → Int
  | 0, e => e
  | k + 1, e => if ys.all (fits c sr e z) then e else dynExpGo c sr z ys k (e + 1)

def dynExp (c : Nat) (sr : Bool) (z : Int) (ys : List F32) : Int := dynExpGo c sr z ys 255 (-128)

/-! ## Codebook pages (R57) -/

/-- Bytes of the codebook at the head of a CB4 (0x9) or CB8 (0xA) page, and the blocks that follow it. -/
def cbHead (c : Nat) : Nat := if c = 9 then 32 else 512
def cbBlocks (c : Nat) : Nat := if c = 9 then 225 else 105

/-- The offset, in a tensor, of the page that holds block `b`, and of the block itself. -/
def cbPage (c b : Nat) : Nat := 4096 * (b / cbBlocks c)
def cbBlock (c b : Nat) : Nat := cbPage c b + cbHead c + blockBytes c * (b % cbBlocks c)

/-- The elements of a tensor of `n` that block `b` holds: the last block of a row is padded (R56). -/
def blockElems (n b : Nat) : Nat := min 32 (n - 32 * b)

/-- An entry of a page's codebook: the exact FP16 value, infinities and NaN included. -/
def cbEntry (codebook : List Byte) (i : Nat) : FV := fmtFP16.decode (field codebook (2 * i) 2)

/-- The real values of the first `n` elements of a block under its page's codebook (R55, R56). -/
def cbVals (c n : Nat) (codebook block : List Byte) : List FV :=
  ((unpackElems c (slice block 2 (blockBytes c - 2))).take n).map (fun q =>
    FV.scale (signedOf 8 (field block 0 1)) (cbEntry codebook q))

/-- A run of bytes read at an offset. -/
abbrev Bytes := Nat → Nat → List Byte

/-- Block `b` of `n` elements of a tensor of format `c` that begins at `t` (R54 to R57). -/
def veBlock (c : Nat) (rd : Bytes) (t b n : Nat) : VeBlock :=
  if c = 9 ∨ c = 10 then
    let blk := rd (t + cbBlock c b) (blockBytes c)
    ⟨signedOf 8 (field blk 0 1), none,
      ((unpackElems c (slice blk 2 (blockBytes c - 2))).take n).map (fun q => f32Of (cbEntry (rd (t + cbPage c b) (cbHead c)) q))⟩
  else if c = 6 ∨ c = 7 then
    let bs := rd (t + 64 * b) (2 * n)
    .real ((List.range n).map (fun i => (if c = 6 then f32OfBF16 else f32OfF16) (BitVec.ofNat 16 (field bs (2 * i) 2))))
  else
    let blk := rd (t + blockBytes c * b) (blockBytes c)
    let qs := (unpackElems c (slice blk 2 (blockBytes c - 2))).take n
    let e := signedOf 8 (field blk 0 1)
    if fmtInt c then
      let is := qs.map (fun q => elemInt c q - zpVal c (field blk 1 1))
      ⟨e, some is, is.map f32Int⟩
    else ⟨e, none, qs.map (fun q => f32Of ((if c = 4 then fmtE4M3 else fmtE5M2).decode q))⟩

/-- The quantiser of a VE on one block (R74): the exponent of its descriptor, or the block's own in dynamic mode; the zero point is
the descriptor's. The codes, each with its clamp mark. -/
def veQuant (c : Nat) (static : Bool) (e z : Int) (ys : List F32) : Int × List (Nat × Bool) :=
  let k := if static then e else dynExp c false z ys
  (k, ys.map (quantise c k z))

/-! ## Conversion to a codebook format (R55, R285) -/

/-- A codebook format. -/
def fmtBook (c : Nat) : Bool := c == 9 || c == 10

/-- Entries of a CB4 or CB8 codebook. -/
def cbCount (c : Nat) : Nat := if c = 9 then 16 else 256

/-- Distance of a number from a codebook entry; none for an infinity or NaN, which is nearest to no number. -/
def entryDist (codebook : List Byte) (q : Rat) (k : Nat) : Option Rat :=
  match cbEntry codebook k with
  | .fin _ v => some (absQ (v - q))
  | _ => none

/-- Index of the nearest of the `n` entries from `k` on, by their distances (R145, R285); a tie goes to the even index. -/
def nearestEntry (dist : Nat → Option Rat) : Nat → Nat → Nat → Nat
  | 0, _, best => best
  | n + 1, k, best =>
    let closer : Bool := match dist k, dist best with
      | some d, some b => decide (d < b) || (decide (d = b) && k % 2 == 0 && best % 2 == 1)
      | some _, none => true
      | none, _ => false
    nearestEntry dist n (k + 1) (if closer then k else best)

/-- The largest magnitude of a codebook's entries; none where one is infinite. A NaN has none (log entry 93). -/
def cbLimit (c : Nat) (codebook : List Byte) : Option Rat :=
  (List.range (cbCount c)).foldl (fun m i => match m, cbEntry codebook i with
    | none, _ => none
    | _, .inf _ => none
    | some m, .fin _ v => some (maxQ m (absQ v))
    | some m, .nan => some m) (some 0)

/-- The smallest exponent, from `e` on, with max |value| at most `lim` times 2^e (R74, R285); none where no exponent has it. -/
def cbExpGo (lim m : Rat) : Nat → Int → Option Int
  | 0, _ => none
  | k + 1, e => if m ≤ lim * pow2 e then some e else cbExpGo lim m k (e + 1)

/-- The dynamic exponent of a block; a free one where no exponent holds the block (log entry 19). -/
def cbExp (c : Nat) (codebook : List Byte) (ys : List F32) : Int :=
  match cbLimit c codebook with
  | none => -128
  | some lim =>
    (cbExpGo lim (ys.foldl (fun m v => maxQ m (absQ (f32Q v))) 0) 256 (-128)).getD
      (signedOf 8 (Config.freeResult 12 (ys.foldl (fun h v => 31 * h + v.toNat) 0)))

/-- The index of a value under exponent `e`; a free one for a value that is not finite, for which no rule states an entry (log entry
19). -/
def cbIndex (c : Nat) (codebook : List Byte) (e : Int) (y : F32) : Nat :=
  if f32Finite y then nearestEntry (entryDist codebook (f32Q y * pow2 (-e))) (cbCount c) 0 0 else Config.freeResult 9 y.toNat % cbCount c

/-- A value lies outside what the entries hold under exponent `e` (R75). -/
def cbClamped (c : Nat) (codebook : List Byte) (e : Int) (y : F32) : Bool :=
  match cbLimit c codebook, f32Val y with
  | some lim, .fin _ v => decide (lim * pow2 e < absQ v)
  | some _, .inf _ => true
  | _, _ => false

/-- The quantiser of a VE on one block of a codebook format (R74), whose conversion R68 does not give: each element takes the nearest
entry, as R285 says of the moments, under the exponent of the descriptor or the block's own (log entry 17). -/
def cbQuant (c : Nat) (codebook : List Byte) (static : Bool) (e : Int) (ys : List F32) : Int × List (Nat × Bool) :=
  let k := if static then e else cbExp c codebook ys
  (k, ys.map (fun y => (cbIndex c codebook k y, cbClamped c codebook k y)))

/-- The squared error of such a conversion in FP32 (R55, R112). -/
def cbErrSq (codebook : List Byte) (e : Int) (y : F32) (code : Nat) : F32 :=
  let d := f32Sub y (f32Of (FV.scale e (cbEntry codebook code)))
  f32Mul d d

/-- The bytes of one block of codes; the 16-bit formats are plain arrays. -/
def quantBytes (c : Nat) (e z : Int) (codes : List Nat) : List Byte :=
  if fmtBlocked c then packBlock c (toTwos 8 e) (if fmtInt c then toTwos 8 z else 0) codes else packElems c codes

/-- The bytes of a tensor of `rows` rows of `cols` elements: of a codebook format whole pages (R57). -/
def tensorLen (c rows cols : Nat) : Nat :=
  if fmtBook c then 4096 * ceilDiv (rows * ceilDiv cols 32) (cbBlocks c) else rows * tensorBytes c cols

/-- A page of a codebook format: its codebook, its blocks, and 0 bits to the end (R57). -/
def cbPageBytes (codebook : List Byte) (blocks : List (List Byte)) : List Byte :=
  (codebook ++ blocks.flatten ++ List.replicate 4096 0).take 4096

/-- Powers of an FP32 number: the exact power rounded once (R285's pow; log entry 21). -/
def f32Pow (b : F32) (t : Nat) : F32 := f32Rat (f32Q b ^ t)

end Sys2Proof.Machine
end

