-- ==== Sys2Proof/Machine/Tbl.lean ====
section
/-! DEFINITION. Sparse tables: the form in which the model holds every indexed part of the device (crews, arrays, cells,
memories). Keys rise strictly and no entry equals what an unlisted key reads as, so equal tables are equal lists. -/
namespace Sys2Proof.Machine

/-- A sparse table: key and value pairs, keys rising. -/
abbrev Tbl (α : Type) := List (Nat × α)

variable {α : Type}

/-- The entry of key `k`, if one is listed. -/
def Tbl.find? : Tbl α → Nat → Option α
  | [], _ => none
  | (k', v) :: t, k => if k' = k then some v else Tbl.find? t k

/-- The value at key `k`; an unlisted key reads as `d k`. -/
def Tbl.get (d : Nat → α) (t : Tbl α) (k : Nat) : α := (Tbl.find? t k).getD (d k)

/-- List the value `v` at key `k`, at its place in the order. -/
def Tbl.put : Tbl α → Nat → α → Tbl α
  | [], k, v => [(k, v)]
  | (k', v') :: t, k, v =>
    if k < k' then (k, v) :: (k', v') :: t
    else if k = k' then (k, v) :: t
    else (k', v') :: Tbl.put t k v

/-- Drop whatever is listed at key `k`. -/
def Tbl.del (t : Tbl α) (k : Nat) : Tbl α := t.filter (fun e => e.1 ≠ k)

/-- Write `v` at key `k`, keeping the canonical form. -/
def Tbl.set [DecidableEq α] (d : Nat → α) (t : Tbl α) (k : Nat) (v : α) : Tbl α :=
  if v = d k then t.del k else Tbl.put t k v

/-- The canonical form: keys rise strictly, and no entry equals what an unlisted key reads as. -/
abbrev Tbl.wf [DecidableEq α] (d : Nat → α) (t : Tbl α) : Prop :=
  t.Pairwise (fun a b => a.1 < b.1) ∧ ∀ e ∈ t, e.2 ≠ d e.1

/-- A byte memory: a canonical list of (address, byte) pairs; an unlisted address reads 0 (log entry 11). -/
abbrev Memory := List Host.Cell

/-- What an unlisted address of a memory reads as. -/
def Memory.blank (_ : Nat) : BitVec 8 := 0

/-- The memory's form holds. -/
abbrev Memory.wf (m : Memory) : Prop := Tbl.wf Memory.blank m

/-- Read one byte. -/
def Memory.read (m : Memory) (a : Nat) : BitVec 8 := Tbl.get Memory.blank m a

/-- Write one byte. -/
def Memory.write (m : Memory) (a : Nat) (b : BitVec 8) : Memory := Tbl.set Memory.blank m a b

/-- The bytes of a canonical list from address `a`, in one pass. -/
def Memory.scan : List Host.Cell → Nat → Nat → List (BitVec 8)
  | _, _, 0 => []
  | [], a, n + 1 => 0 :: Memory.scan [] (a + 1) n
  | (k, v) :: t, a, n + 1 =>
    if k = a then v :: Memory.scan t (a + 1) n else 0 :: Memory.scan ((k, v) :: t) (a + 1) n

/-- Read `n` bytes from address `a` on. -/
def Memory.readBytes (m : Memory) (a n : Nat) : List (BitVec 8) :=
  Memory.scan (m.dropWhile (fun c => c.1 < a)) a n

/-- The cells that a run of bytes from address `a` on lists: its non-zero bytes. -/
def Memory.cells : Nat → List (BitVec 8) → List Host.Cell
  | _, [] => []
  | a, b :: bs => if b = 0 then Memory.cells (a + 1) bs else (a, b) :: Memory.cells (a + 1) bs

/-- Write a run of bytes from address `a` on. -/
def Memory.writeBytes (m : Memory) (a : Nat) (bs : List (BitVec 8)) : Memory :=
  m.filter (fun c => c.1 < a) ++ (Memory.cells a bs ++ m.filter (fun c => a + bs.length ≤ c.1))

end Sys2Proof.Machine
end

