-- ==== Sys2Proof/Machine/State.lean ====
section
/-! DEFINITION. The state of the V9A4 as plain data: every register, buffer, counter, mode and pin of spec/, and the queue
of waiting commands. Fields not marked MODEL are the spec's own (INVENTORY.md, State, gives rule and reset value of each). -/
namespace Sys2Proof.Machine

/-! ## Small types -/

/-- The device states of R182. -/
inductive DevState where
  | off | resetHold | ready | active | boathouse | safe
deriving DecidableEq, Repr

/-- The context states of R184, in the order of their codes. -/
inductive CtxState where
  | closed | opened | pitching | committing | committed | draining | live | closing
deriving DecidableEq, Repr

/-- The status codes of R175. -/
inductive Status where
  | ok | okEmpty | okReplayed
  | badOpcode | badParam | state | shapeOver | noFit | sigBad | shardBad | shardMissing | ctxDenied
  | checkFail | digestBad | parity | timeout | fault
deriving DecidableEq, Repr

/-- A command packet (R172): its 64 bytes, the bytes of its extension entries (RUN_BOW, R195), and the parity error that the buffers
of its hop found in its words (R222, R223). -/
structure Packet where
  bytes : List Byte
  ext   : List Byte
  err   : Option ParityErr
deriving DecidableEq, Repr

/-- A layer record of a manifest, by its 256 bytes (R142). -/
structure Layer where
  raw : List Byte
deriving DecidableEq, Repr

/-- A manifest (R141, R143): header bytes, layer records, placement entries (8 bytes each), shard entries (64 bytes each). -/
structure Manifest where
  hdr    : List Byte
  layers : List Layer
  places : List (List Byte)
  shards : List (List Byte)
deriving DecidableEq, Repr

/-- Where admission put one placement entry (R154, R207): entry index, layer index, crew, logical array, plane, the
twin it belongs to (second crew of a pair), its standby role at admission, and its pool pages (R115). -/
structure Assign where
  entry : Nat
  layer : Nat
  crew : Nat
  l : Nat
  plane : Bool
  second : Bool
  standby : Bool
  sumsPage : Nat
  rowsPage : Nat
deriving DecidableEq, Repr

/-- What a context holds for one bank generation (R151, R154): the manifest, the placement, the die-buffer granules
(die, count) and the HBM granules on each stack, the bivouac-tier bytes (layer * 2^40 + offset, R165), the claim-bitmap
page of each replicated layer in its home crew (layer, page; R134), the retrim regions (layer, base, end; R280), and the bivouac
bytes whose dword has an error in HBM (R223). -/
structure Generation where
  gen : Nat
  man : Manifest
  assigns : List Assign
  dbuf : List (Nat × Nat)
  h0 : Nat
  h1 : Nat
  biv : Memory
  maps : List (Nat × Nat)
  regions : List (Nat × Nat × Nat)
  bad : List (Nat × ParityErr)
deriving DecidableEq, Repr

/-- A pitch in progress (06): the generation, the accepted shards (index; 64-byte header and decoded payload), the staging
slots (count, bytes by slot * 2^24 + offset, granules), the working granules that this pitch added, the timer of R160, whether its
PITCH_BEGIN has completed (until then it has not taken hold, R177), the PITCH_SHARD in execution with its slot and shard, the
entries whose pack conversion is done (R145), and the PITCH_COMMIT that waits. -/
structure Pitch where
  g : Generation
  accepted : List (Nat × List Byte)
  nstage : Nat
  stage : Memory
  s0 : Nat
  s1 : Nat
  a0 : Nat
  a1 : Nat
  timeoutMs : Nat
  timerOn : Bool
  begun : Bool
  busySlot : Option Nat
  exec : Option CmdRef
  packed : List Nat
  commit : Option CmdRef
deriving DecidableEq, Repr

/-- A quantiser statistics slot (R112). -/
structure Slot where
  sumsq : F32
  count : Dword
  clamp : Dword
  maxsq : F32
deriving DecidableEq, Repr

def Slot.reset : Slot := ⟨0, 0, 0, 0⟩

/-! ## Contexts -/

/-- A context (R184): its state, generations and pitch, batch, working granules on each stack and their bytes, the offsets in
working space whose dword has an error in HBM (R223), statistics slots, pairs, and the CTX_CLOSE and SWING in execution. -/
structure Ctx where
  st : CtxState
  live : Nat
  aborted : Nat
  adm : Nat
  abortMark : Bool
  batch : Option (BitVec 16 × Nat)
  pitch : Option Pitch
  gens : List Generation
  w0 : Nat
  w1 : Nat
  work : Memory
  bad : List (Nat × ParityErr)
  slots : Tbl Slot
  pairs : List (Nat × Nat)
  closeCmd : Option CmdRef
  swingCmd : Option CmdRef
deriving DecidableEq, Repr

def Ctx.reset : Ctx :=
  { st := .closed, live := 0, aborted := 0, adm := 0, abortMark := false, batch := none, pitch := none, gens := [],
    w0 := 0, w1 := 0, work := [], bad := [], slots := [], pairs := [], closeCmd := none, swingCmd := none }

/-! ## Commands in flight -/

/-- A tile still to be sent (R119, R122): crew, split, first vector, number of vectors, replica, claim number. -/
structure TileId where
  crew : Nat
  split : Nat
  first : Nat
  count : Nat
  rep : Nat
  claim : Nat
  second : Bool
deriving DecidableEq, Repr

/-- An output block, or a slice of one vector's outputs, on its way (R69): vector, slice, replica, byte offset, bytes. -/
structure OutBlock where
  vec : Nat
  slice : Nat
  rep : Nat
  off : Nat
  bytes : List Byte
deriving DecidableEq, Repr

/-- A partial result on its way to a combiner, or held there until its turn (R129): command, twin, vector, split, slice,
replica, the words (R67), the combining crew, and the other splits that the words stand for (R129). -/
structure Part where
  ref : CmdRef
  second : Bool
  vec : Nat
  split : Nat
  slice : Nat
  rep : Nat
  words : List Nat
  crew : Nat
  more : List Nat
deriving DecidableEq, Repr

/-- A training step of RETRIM_STEP (R284, R287, R288): steps done, the y_j of its samples (sample, slice, values), the samples
in which a column saturated, the PITCH_BEGIN that waits for the step's end, and the step's VE descriptors still due. -/
structure TrimWork where
  done : Nat
  ys : List (Nat × Nat × List F32)
  left : List Nat
  stop : Option CmdRef
  ves : Nat
deriving DecidableEq, Repr

/-- The work of a command on VEs, as the Cox has cut it (R119, R131, R137): the VEs, the bytes of the operand that they divide, with its
offset, the bytes of the operand that they share, and how often it is done (once for each vector of an adapter's RUN). -/
structure VeShape where
  ves : List Nat
  ownOfs : Nat
  ownLen : Nat
  inpLen : Nat
  rounds : Nat
deriving DecidableEq, Repr

def VeShape.none : VeShape := ⟨[], 0, 0, 0, 0⟩

/-- The progress of a RUN or RUN_BOW: layer index and record, real vectors, the bucket of each dynamic dimension, whether it has been dispatched, the plan
(B3, B2, G, LIMIT), the work-counter slot (home crew, slot) if one is taken, tiles to send, outputs still due (slices of
vectors, or VE descriptors), outputs held until their claim is accepted, claims given out (replica, number) and not yet
accepted, claims accepted (number, replica), replicas that have stopped, whether an adapter is applied (R278), the work of the
VEs and the rows of descriptors written of it, the progress counter of the command and the counter and threshold that its
descriptors wait for (R138), the parts that VEs have ended (vector, part), the corrections (vector, delta) and the combined slices that wait
for theirs (R279), inputs received from another device (R271) and whether they come from there, the vectors of its T3 tiles, in the
array-side staging of the home die (R119, R120), the vectors and twins
whose one replay is spent (R37, R230), the tiles (first vector, split) whose block headers no crew has compared and the outputs
that wait for that (R66), messages taken (sender, STEP), partials that wait for the other splits of their crew (R129) or go to
another device's combiner; for RUN_BOW the window W at dispatch, the blocks of each twin in flight and arrived, and the
blocks found equal; for RETRIM_STEP, whose samples are its vectors, the training step. -/
structure RunWork where
  idx : Nat
  layer : Layer
  n : Nat
  buckets : List Nat
  dispatched : Bool
  b3 : Nat
  b2 : Nat
  g : Nat
  limit : Nat
  slot : Option (Nat × Nat)
  toSend : List TileId
  due : Nat
  held : List OutBlock
  claims : List (Nat × Nat)
  taken : List (Nat × Nat)
  stopped : List Nat
  adapter : Bool
  shape : VeShape
  veNext : Nat
  counter : Option Nat
  waitFor : Option (Nat × Nat)
  veParts : List (Nat × Nat)
  deltas : List (Nat × List F32)
  convWait : List Part
  inputs : List (Nat × List Byte)
  remote : Bool
  t3 : List (Nat × List Byte)
  spent : List (Nat × Bool)
  unchecked : List (Nat × Nat)
  outWait : List OutBlock
  arrived : List (Nat × Nat)
  crewParts : List Part
  outParts : List Part
  winW : F32
  fly0 : List OutBlock
  fly1 : List OutBlock
  arr0 : List OutBlock
  arr1 : List OutBlock
  agreed : List OutBlock
  trim : Option TrimWork
deriving DecidableEq, Repr

/-- What an admitted command still has to do. -/
inductive Work where
  | plain
  | fence
  | close
  | shard (index : Nat)
  | commit
  | swing
  | run (w : RunWork)
  | arrays (left : List Nat) (treated : Nat)
  | coll (got : List (Nat × List Byte)) (sent : Bool)
  | trim (record : List Byte) (appendix : List Byte)
  | flash (bytes : List Byte)
  | selftest
  | groupStatus (answers : List (Nat × List Byte)) (missing : List Nat)
deriving DecidableEq, Repr

/-- A command admitted and not completed: where it came from, its packet, its place in the acceptance order (R178),
whether its queue waits for it (R177: accepted at completion), its generation stamp (R162), the outcome so far (R176),
the modifiers and the replay count, the bytes written, its failed end, its work, and for a forwarded command
(R267) the members whose part is not complete, the statuses of the parts and the local part's end. -/
structure Cmd where
  ref : CmdRef
  pkt : Packet
  seq : Nat
  blocks : Bool
  gen : Nat
  outcome : Status
  sat : Bool
  folded : Bool
  patched : Bool
  replays : Nat
  written : Nat
  ended : Bool
  work : Work
  parts : List Nat
  merged : List (Nat × List Byte)
  localEnd : Option (Status × Nat × Nat)
deriving DecidableEq, Repr

/-! ## Queues -/

structure Queue where
  sqBase : Qword
  cqBase : Qword
  enable : Bool
  size : BitVec 4
  sqTail : BitVec 12
  cqHead : BitVec 12
  sqHead : BitVec 12
  cqTail : BitVec 12
  phase : Bool
  dbErr : Bool
  ringErr : Bool
  unread : Nat
  evt0 : Bool
  evt1 : Bool
  fetched : List Packet
deriving DecidableEq, Repr

def Queue.reset : Queue :=
  { sqBase := 0, cqBase := 0, enable := false, size := 6, sqTail := 0, cqHead := 0, sqHead := 0, cqTail := 0,
    phase := true, dbErr := false, ringErr := false, unread := 0, evt0 := false, evt1 := false, fetched := [] }

/-! ## Arrays -/

/-- A stroke of one nibble or row group that a vector still needs (R28, R36): high nibble or low, row group, fold, and
whether it is a fold replay or a check replay. -/
structure Req where
  high : Bool
  grp : Nat
  fold : Nat
  isFold : Bool
  isCheck : Bool
deriving DecidableEq, Repr

/-- The sum of the corrected codes of one nibble of a vector over its row groups (R31), per data column, and how many
row groups are still missing; and the patch terms of its strokes (R105: output column, x * Delta). -/
structure NibAcc where
  fold : Nat
  left : Nat
  sums : List Int
  terms : List (Nat × Rat)
deriving DecidableEq, Repr

/-- One vector's work on one array: the command, vector, split and slice, replica, twin; class and stamp; the requests not
started; the two nibbles' sums; the patch lists of its array and of the standby array that replays it in force when its first
stroke starts (R106). -/
structure Job where
  ref : CmdRef
  vec : Nat
  split : Nat
  slice : Nat
  rep : Nat
  second : Bool
  stern : Bool
  gen : Nat
  eight : Bool
  todo : List Req
  hi : NibAcc
  lo : NibAcc
  started : Bool
  patches : List (List Byte)
  patches2 : List (List Byte)
deriving DecidableEq, Repr

/-- A stroke in flight between its slot and the end of its scan (R30): the owner array of its job (R207: replays of a
bow entry run on the standby array), the job's key, the request, the plane, whether it is a keep-warm stroke, the
row codes, the kappa_eff and check factor in force in its slot (R86, R228), for a check replay M, P and W of the failed
check, and the factory and tracking coefficients of its slot where new ones have replaced them since (R82, R92). -/
structure Shot where
  home : Nat
  ref : CmdRef
  vec : Nat
  split : Nat
  req : Req
  plane : Bool
  warm : Bool
  codes : List Nat
  kap : Rat
  kc : BitVec 4
  chk : List F32
  old : Option (Tbl (BitVec 16 × BitVec 16) × Tbl (BitVec 16 × BitVec 16))
deriving DecidableEq, Repr

/-- A replay waiting for its slot: owner array, job key, request, and for a check replay M, P and W of the failed check. -/
structure Replay where
  home : Nat
  ref : CmdRef
  vec : Nat
  split : Nat
  req : Req
  chk : List F32
deriving DecidableEq, Repr

/-- Tracking window of R86: strokes, valid codes, the two sums, the windows joined in it, and the die temperatures of its
strokes (their sum in 1/16 degC, and their number; T_win is their mean, R87). -/
structure Window where
  strokes : Nat
  valid : Nat
  sumDE : Rat
  sumEE : Rat
  joined : Nat
  tSum : Int
  tCnt : Nat
deriving DecidableEq, Repr

def Window.reset : Window := ⟨0, 0, 0, 0, 0, 0, 0⟩

/-- The tracking reads collected for one data column (R88): count, sums of d, l, d*d, d*l, range of l, a saturated read
among them, and whether the column has been fitted since the last tracking reset (R90). -/
structure ColSet where
  n : Nat
  sd : Rat
  sl : Rat
  sdd : Rat
  sdl : Rat
  lmin : Rat
  lmax : Rat
  bad : Bool
  fitted : Bool
deriving DecidableEq, Repr

def ColSet.reset : ColSet := ⟨0, 0, 0, 0, 0, 0, 0, false, false⟩

/-- What a plane of an array holds: level targets by row * 512 + column (an unlisted one is 0), measured conductances
(1/64 microsiemens, plus 1) by row * 520 + column, the targets of a codebook ladder (R60; none: the nominal ladder), the cells
found stuck at pitch (row * 520 + column, R101), and whether its patch list overflowed (R106). A cell not listed has
unspecified content. -/
structure Plane where
  target : Tbl Nat
  cells : Tbl Nat
  ladder : Option (List Nat)
  stuck : List Nat
  full : Bool
deriving DecidableEq, Repr

def Plane.reset : Plane := ⟨[], [], none, [], false⟩

/-- Programming of the fly plane (R157): context, generation, layer and placement entry; the rows whose targets have
arrived, in their order, the first one in programming; the rows not yet programmed; for the row in programming the slots
used, the pulses given per cell, the stuck cells (column, conductance), and the retargeted weights (output column,
intended value; R101). -/
structure Prog where
  ctx : Nat
  gen : Nat
  layer : Nat
  entry : Nat
  rows : List Nat
  left : Nat
  slots : Nat
  pulses : Tbl Nat
  stuck : List (Nat × Nat)
  intend : List (Nat × Nat)
deriving DecidableEq, Repr

/-- Maintenance of the ground plane (R98, R102): rows that a refresh has still to find within tolerance, the next one
first; the next row of a census and the levels read so far (row * 512 + column). -/
structure Maint where
  rows : List Nat
  censusRow : Nat
  levels : Tbl Nat
deriving DecidableEq, Repr

def Maint.reset : Maint := ⟨[], 0, []⟩

/-- A physical array: its registers (R25, R34, R38, R81, R86 to R96, R107 to R111), the CLK_M cycles that a verify slot still
occupies it (`verify`; bit VERIFY shows it) and whether that slot is one of a pitch or of a refresh at its limit (R99), tracking collections, planes, jobs, replays and strokes in flight, the row groups of
a keep-warm stroke not started (`warm`), programming and maintenance. -/
structure Arr where
  step : BitVec 4
  rate : BitVec 2
  fold : BitVec 2
  auto : Bool
  ground : Bool
  verify : Nat
  writing : Bool
  limit : Bool
  trkOut : Bool
  lanBad : Bool
  cAmbig : Bool
  census : Bool
  refresh : Bool
  conv : Bool
  kappa : F32
  drift : BitVec 32
  sigma : F32
  tWinSum : Int
  tWinCnt : Nat
  satStrokes : Dword
  satCols : Dword
  satHist : List Bool
  satThr : BitVec 13
  satCal : Bool
  satArmed : Bool
  lmseSum : F32
  lmseCount : Dword
  fTrim : Tbl (BitVec 16 × BitVec 16)
  tTrim : Tbl (BitVec 16 × BitVec 16)
  dac : Tbl (BitVec 16)
  lan : Tbl F16
  lfsr : BitVec 16
  win : Window
  wins : List Window
  carry : Window
  effClamp : Bool
  kUpdates : Nat
  ptr : Nat
  cols : Tbl ColSet
  fits : List (Nat × ColSet)
  p0 : Plane
  p1 : Plane
  jobs : List Job
  replays : List Replay
  shots : List Shot
  warm : List (Req × List Nat)
  prog : Option Prog
  maint : Maint
  sinceMaint : Nat
deriving DecidableEq, Repr

/-- Array `a` after reset (R25, R34, R38, R79, R91, R94, R95; `a` = crew * 17 + slot, R81). -/
def Arr.reset (a : Nat) : Arr :=
  { step := 4, rate := 0, fold := 0, auto := false, ground := false, verify := 0, writing := false, limit := false, trkOut := false,
    lanBad := false, cAmbig := false, census := false, refresh := false, conv := false,
    kappa := 0x3F800000, drift := 0, sigma := 0, tWinSum := 400, tWinCnt := 1, satStrokes := 0, satCols := 0,
    satHist := [], satThr := 41, satCal := false, satArmed := true, lmseSum := 0, lmseCount := 0, fTrim := [],
    tTrim := [], dac := [], lan := [], lfsr := BitVec.ofNat 16 (a + 1), win := Window.reset, wins := [],
    carry := Window.reset, effClamp := false, kUpdates := 0, ptr := 0, cols := [], fits := [], p0 := Plane.reset, p1 := Plane.reset, jobs := [], replays := [], shots := [], warm := [], prog := none,
    maint := Maint.reset, sinceMaint := 0 }

/-! ## Crews -/

/-- CRW_RESV (R208). -/
structure Resv where
  second : Bool
  ctx : Nat
  twin : Nat
  standby : BitVec 16
deriving DecidableEq, Repr

/-- The crew's sine generator (R44, R48). -/
structure Sine where
  ftw : BitVec 24
  refused : Bool
  amp : BitVec 9
  slot : BitVec 5
  rows : BitVec 2
  hist : Bool
  slewByp : Bool
  en : Bool
  phase : BitVec 24
deriving DecidableEq, Repr

def Sine.reset : Sine :=
  { ftw := 0, refused := false, amp := 0x100, slot := 0, rows := 3, hist := false, slewByp := false, en := false,
    phase := 0 }

/-- One vector's slice of a tile held in crew SRAM (R119): command, stamp, twin, split, the tile's first vector, vector, replica,
input codes by row, and the array slots whose strokes on it are not settled. -/
structure TileVec where
  ref : CmdRef
  gen : Nat
  second : Bool
  split : Nat
  first : Nat
  vec : Nat
  rep : Nat
  codes : List Nat
  left : List Nat
deriving DecidableEq, Repr

/-- A vector's words in the accumulation memory (R130): how many, the slices that have still a partial to add, and whether the
first partial has arrived; before it, the words are only promised to a vector whose first stroke has started (log entry 48). -/
structure CombVec where
  ref : CmdRef
  second : Bool
  vec : Nat
  rep : Nat
  words : Nat
  left : Nat
  arrived : Bool
deriving DecidableEq, Repr

/-- One vector's slice in the accumulation memory: the next split to add and the later ones that a sum added so far stands for,
the sums, and the partials held until their turn. -/
structure CombEntry where
  ref : CmdRef
  second : Bool
  vec : Nat
  slice : Nat
  rep : Nat
  next : Nat
  sums : List Nat
  held : List Part
  ahead : List Nat
deriving DecidableEq, Repr

/-- A crew: spare, reservation, and whether a power-down took the copy of it that CRW_RESV shows and those of BENCHED and CAUSE that
CRW_HEALTH shows (R327); sine generator and
histograms, coefficient address, pool, claim and health fields, SRAM, the tiles in it, and its combiner with the vectors that occupy
it. -/
structure Crew where
  spare : BitVec 5
  spareValid : Bool
  resv : Option Resv
  resvLost : Bool
  sine : Sine
  hist : Tbl Nat
  coefAddr : BitVec 15
  poolLow : Nat
  pages : List (Nat × Nat × Nat)
  dup : Bool
  recov : BitVec 8
  dupn : BitVec 8
  benched : Bool
  cause : BitVec 4
  healthLost : Bool
  parn : BitVec 8
  parTimes : List Nat
  chkReplays : BitVec 16
  chkFails : BitVec 16
  sram : Memory
  tiles : List TileVec
  comb : List CombEntry
  combVecs : List CombVec
deriving DecidableEq, Repr

def Crew.reset : Crew :=
  { spare := 0x10, spareValid := false, resv := none, resvLost := false, sine := Sine.reset, hist := [], coefAddr := 0, poolLow := 239,
    pages := [], dup := false, recov := 0, dupn := 0, benched := false, cause := 0, healthLost := false, parn := 0, parTimes := [],
    chkReplays := 0, chkFails := 0, sram := [], tiles := [], comb := [], combVecs := [] }

/-! ## Vector engines -/

/-- What a descriptor computes: a tile of one VE's part of a bivouac-tier layer, of the adapter correction of one vector (R278,
R279), or of the gradients and the update of a training step (R287). -/
inductive VeOp where
  | layer (part : Nat)
  | adapter (vec part : Nat)
  | train (part : Nat)
deriving DecidableEq, Repr

/-- A tile in a VE's staging region (R119, R131): its command, whether it is of the operand that the VEs share, its number (vector,
chunk or panel), its bytes. -/
structure Staged where
  ref : CmdRef
  shared : Bool
  num : Nat × Nat
  bytes : List Byte
deriving DecidableEq, Repr

/-- A VE descriptor (R137, R138): command, context, class, ring index, threshold (counter, value), counter to signal on completion,
counter to signal on its write to HBM, the numbers of the tiles that it reads of its VE's own operand and of the shared one, whether
its own tile is marked as resident, whether it is the last to read its own tile (RELEASE, where that is resident) and the shared one,
fetched, started, the execute bursts that it has made and those still to make (R302), the bytes of a block of its own and of its
shared operand (R119), whether it is the last of its part, and what it computes. -/
structure Desc where
  ref : CmdRef
  ctx : Nat
  stern : Bool
  idx : BitVec 7
  wait : Option (Nat × Nat)
  signal : Option Nat
  hbmSignal : Option Nat
  own : Nat × Nat
  inp : Nat × Nat
  resident : Bool
  release : Bool
  freeInp : Bool
  fetched : Bool
  started : Bool
  done : Nat
  bursts : Nat
  blk : Nat × Nat
  last : Bool
  op : VeOp
deriving DecidableEq, Repr

/-- A vector engine: its ring, registers of R333, the context it serves, its 1 MiB staging region (its tiles, with the space in use), the EE's operand registers, the AE's writes to HBM in flight, and the
generator of R286. -/
structure Ve where
  ring : List Desc
  head : BitVec 7
  tail : BitVec 7
  ahead : Nat
  aheadMax : Nat
  resErr : Dword
  ctx : Nat
  stagingUsed : Nat
  tiles : List Staged
  regs : List Byte
  writes : List (CmdRef × Option Nat)
  lfsr : BitVec 32
deriving DecidableEq, Repr

def Ve.reset : Ve :=
  { ring := [], head := 0, tail := 0, ahead := 0, aheadMax := 0, resErr := 0, ctx := 0, stagingUsed := 0,
    tiles := [], regs := [], writes := [], lfsr := 1 }

/-! ## Links and groups -/

/-- A message of flits (R252, R255). -/
structure Msg where
  kind : Nat
  ctxcls : Byte
  tag : BitVec 16
  epoch : BitVec 16
  gen : Nat
  claim : Dword
  dst : Nat
  src : Nat
  step : Nat
  level : Nat
  payload : List Byte
  digest : Dword
deriving DecidableEq, Repr

structure Port where
  up : Bool
  bypass : Bool
  training : Bool
  peerBad : Bool
  downs : BitVec 8
  fecCorr : Dword
  fecUncorr : Dword
  parErr : Dword
  resend : Dword
deriving DecidableEq, Repr

def Port.reset : Port :=
  { up := false, bypass := true, training := false, peerBad := false, downs := 0, fecCorr := 0, fecUncorr := 0,
    parErr := 0, resend := 0 }

/-- The state of a ring (R266), in the order UP, FORMING, DEGRADED of rising severity. -/
inductive GState where
  | up | forming | degraded
deriving DecidableEq, Repr

/-- A message expected by the receiver, without its payload: whether it has failed once (R237), and whether flits of it have come that
failed their checks (R254). -/
structure Expect where
  msg : Msg
  failed : Bool
  torn : Bool
deriving DecidableEq, Repr

/-- The group state of a device (R257 to R266): GROUP_CONFIG loaded, SYSTEM_ID, DEVICES, DEPTH, next hops, ring states by
the ring manager's address, the pairs whose ring this device knows to be DEGRADED, the managers whose polls once stayed unanswered,
polls not answered, held copies, expectations, and messages received before their command. -/
structure Group where
  configured : Bool
  sysId : Qword
  devices : Nat
  depth : Nat
  nexthop : Tbl Byte
  rings : List (Nat × GState)
  fallen : List Nat
  silent : List Nat
  polls : List Nat
  held : List Msg
  expects : List Expect
  rx : List Msg
deriving DecidableEq, Repr

def Group.reset : Group :=
  { configured := false, sysId := 0, devices := 0, depth := 0, nexthop := [], rings := [], fallen := [], silent := [], polls := [], held := [],
    expects := [], rx := [] }

/-! ## Device-wide parts -/

/-- What crosses the device's boundary outwards. MODEL: newest first. -/
inductive Out where
  | msix (fn vec : Nat)
  | readData (bytes : List Byte)
  | smbBlock (addr : Nat) (bytes : List Byte)
  | link (port : Nat) (fs : List Flit)
  | flit (port : Nat) (f : Flit)
  | avsTarget (rail mv : Nat)
  | jtag (accepted : Bool) (dr : Option Dword)
deriving DecidableEq, Repr

structure Dev where
  st : DevState
  released : Bool
  perst : Bool
  devRst : Bool
  strap : BitVec 2
  sbAddr : BitVec 3
  faultN : Bool
  forceBh : Bool
  locked : Bool
  bcause : BitVec 4
  ucBank : BitVec 2
  bank : BitVec 2
  fwVer : Qword
  ucVer : Qword
  bistDone : Bool
  bistPass : Bool
  bistStage : BitVec 3
  pllLocked : Bool
  flash : Memory
  safeCause : BitVec 8
  endpointFault : Bool
  jtag : JtagOp
  timeBase : Qword
  timeHi : Dword
  trngOk : Bool
  pciLink : BitVec 10
  vfEn : BitVec 16
  vfMsix : BitVec 16
  msix : Tbl Byte
  pba : BitVec 64
  vfTable : Tbl Byte
  vfPba : BitVec 64
deriving DecidableEq, Repr

/-- The device after reset with FAULT_N asserted (R247) and the straps open (R342). -/
def Dev.reset : Dev :=
  { st := .resetHold, released := false, perst := true, devRst := false, strap := 0, sbAddr := 0, faultN := true,
    forceBh := false, locked := false, bcause := 0, ucBank := 0, bank := 0, fwVer := 0, ucVer := 0, bistDone := false,
    bistPass := false, bistStage := 0, pllLocked := false, flash := [], safeCause := 0, endpointFault := false,
    jtag := .idcode, timeBase := 0, timeHi := 0, trngOk := false, pciLink := 0, vfEn := 0, vfMsix := 0, msix := [],
    pba := 0, vfTable := [], vfPba := 0 }

/-- The environment (R193), the envelope (R307), the trim record kept in the reserve of HBM0 (R357), the firmware
staging image (R199) and the drop counter of the pitch window (R155). -/
structure Env where
  envSet : Bool
  mode : Bool
  coolant : BitVec 16
  position : Dword
  env : Nat
  bootEnv : Nat
  trimLoaded : Bool
  trim : List Byte
  fwTotal : Nat
  fwBytes : Tbl Byte
  fwCover : List (Nat × Nat)
  p2pDrop : Dword
deriving DecidableEq, Repr

def Env.reset : Env :=
  { envSet := false, mode := false, coolant := 0, position := 0, env := 1, bootEnv := 1, trimLoaded := false, trim := [],
    fwTotal := 0, fwBytes := [], fwCover := [], p2pDrop := 0 }

/-- Device-wide configuration registers (R209, R228, R93, R97, R308, R49). -/
structure Cfg where
  maxPairs : BitVec 8
  twinK : BitVec 4
  kc : BitVec 4
  idle : BitVec 8
  kwarm : Bool
  freeze : Bool
  trkEn : Bool
  censusH : BitVec 8
  conc : BitVec 4
  space : BitVec 4
  thr : BitVec 5
  margin : BitVec 8
  wrcap : BitVec 8
  sineFtw : BitVec 24
  sineAmp : BitVec 9
  sineEn : Bool
  sinePhase : BitVec 24
deriving DecidableEq, Repr

def Cfg.reset : Cfg :=
  { maxPairs := 0x20, twinK := 6, kc := 6, idle := 1, kwarm := true, freeze := false, trkEn := true, censusH := 8,
    conc := 2, space := 8, thr := 8, margin := 0x14, wrcap := 0x28, sineFtw := 0, sineAmp := 0x100, sineEn := false,
    sinePhase := 0 }

/-- The governor (R302 to R309). Tokens are naturals; `poolFull` is the epoch's pool before the reduction of R305, `poolUsed`
what has been drawn from it, `deficit` what was drawn beyond it (R304); `owedEng`, `owedStern` and `owedWr` are the tokens of transfers
and slots under way that wait for later grants (log entry 50). -/
structure Gov where
  budget : Nat
  bowRes : Nat
  sMeas : BitVec 16
  pMeas : BitVec 16
  eng : Bool
  stern : Bool
  write : Bool
  hot : Bool
  count : BitVec 16
  engWaited : Bool
  pool : Nat
  poolFull : Nat
  poolUsed : Nat
  wrAllow : Nat
  sternAllow : Nat
  deficit : Nat
  engDrawn : Nat
  owedEng : Nat
  owedStern : Nat
  owedWr : Nat
  wrAsked : Nat
  drawn : Nat
deriving DecidableEq, Repr

def Gov.reset : Gov :=
  { budget := 0, bowRes := 0, sMeas := 0, pMeas := 0, eng := false, stern := false, write := false, hot := false,
    count := 0, engWaited := false, pool := 0, poolFull := 0, poolUsed := 0, wrAllow := 0, sternAllow := 0, deficit := 0, engDrawn := 0, owedEng := 0, owedStern := 0, owedWr := 0, wrAsked := 0,
    drawn := 0 }

/-- Telemetry (R300, R333, R334): rails in the order of R334, MGT_TEMP of BD and CD0 to CD3; MODEL: the HBM transfers so far,
which number the free values of the ECC reports. -/
structure Tel where
  volts : List (BitVec 16)
  amps : List (BitVec 16)
  fails : List Nat
  temps : List (BitVec 16)
  hbmTemps : List (BitVec 16)
  nocParErr : List Dword
  nocBowWait : BitVec 16
  hbmEcc : List Dword
  hbmParErr : List Dword
  hbmCount : Nat
deriving DecidableEq, Repr

def Tel.reset : Tel :=
  { volts := List.replicate 6 0, amps := List.replicate 6 0, fails := List.replicate 6 0, temps := List.replicate 5 0,
    hbmTemps := List.replicate 2 0, nocParErr := List.replicate 5 0, nocBowWait := 0, hbmEcc := List.replicate 2 0,
    hbmParErr := List.replicate 2 0, hbmCount := 0 }

/-- A publisher key slot (R148): the 97 bytes of the point and its KEY_ID. -/
structure Key where
  point : List Byte
  keyId : List Byte
deriving DecidableEq, Repr

structure Sec where
  keys : Tbl (Option Key)
  busy : Bool
  err : Bool
  revoked : BitVec 8
  data : Memory
  op : Option (Nat × Option (List Byte))
deriving DecidableEq, Repr

def Sec.reset : Sec := { keys := [], busy := false, err := false, revoked := 0, data := [], op := none }

/-- The signature store, its discard count, the sequence number and the sideband mirror (R239, R241, R242). -/
structure Sig where
  store : List (List Byte)
  lost : Nat
  seq : Nat
  mirror : List (List Byte)
deriving DecidableEq, Repr

def Sig.reset : Sig := ⟨[], 0, 0, []⟩

/-! ## The whole state -/

structure State where
  dev : Dev
  env : Env
  cfg : Cfg
  gov : Gov
  tel : Tel
  sec : Sec
  sig : Sig
  group : Group
  ports : Tbl Port
  queues : Tbl Queue
  ctxs : Tbl Ctx
  crews : Tbl Crew
  arrs : Tbl Arr
  ves : Tbl Ve
  counters : Tbl Dword
  cmds : List Cmd
  seq : Nat
  parts : List Part
  bowW : List (Nat × Nat × Nat × F32)
  censusQ : List Nat
  refreshQ : List Nat
  host : Memory
  outs : List Out
  free : Nat
  pending : List Instr
deriving DecidableEq, Repr

/-- Faults of the model. -/
inductive Fault where
  /-- Raised by the meanings of physical events (STROKE_SCAN_END, PITCH_SLOT, MAINTENANCE_SLOT, TEMP_SAMPLE,
  RAIL_TELEMETRY_*, SINE_TEST_STROKE) whose operand does not have the number of readings the unit produces: such an event
  does not exist. Safe: nothing the device does ends here. -/
  | malformedEvent
deriving DecidableEq, Repr

/-- Refusals. -/
inductive Refusal where
  /-- Raised by an arm of `exec` whose command has no meaning yet. Safe. No arm raises it. -/
  | notModelled (mnemonic : String)
deriving DecidableEq, Repr

/-- The device right after reset, before the reset is released: every register at the value the spec states, the queues
empty (log entries 5 to 12 name every value the spec does not state). -/
def State.reset : State :=
  { dev := Dev.reset, env := Env.reset, cfg := Cfg.reset, gov := Gov.reset, tel := Tel.reset, sec := Sec.reset,
    sig := Sig.reset, group := Group.reset, ports := [], queues := [], ctxs := [], crews := [], arrs := [], ves := [],
    counters := [], cmds := [], seq := 0, parts := [], bowW := [], censusQ := [], refreshQ := [], host := [], outs := [],
    free := 0, pending := [] }

end Sys2Proof.Machine
end

