-- ==== Sys2Proof/Machine/Operands.lean ====
section
/-! DEFINITION. Operand forms: queue numbers, packet fields (R172), the three address forms (R173), status codes (R175), the
opcode table of R190, and the fields of layer records, placement entries and shard headers (R58, R142 to R144). -/
namespace Sys2Proof.Machine

/-! ## Queues and states -/

/-- Queue number: admin 0, context queues 1 to 16, bow queues 17 to 32, forwarded streams 33 to 48. -/
def qIdx : QueueId → Nat
  | .admin => 0
  | .ctx c => 1 + c.val
  | .bow c => 17 + c.val
  | .fwd c => 33 + c.val

/-- The queues with rings (R166), in the order of R178. -/
def allQueues : List QueueId :=
  .admin :: ((List.finRange 16).map .ctx ++ (List.finRange 16).map .bow)

/-- PCI_QCFG.KIND (R169). -/
def qKind : QueueId → Nat | .admin => 0 | .ctx _ => 1 | .bow _ => 2 | .fwd _ => 1

/-- The context whose queue it is. -/
def qCtx : QueueId → Option Nat | .admin => none | .ctx c => some c.val | .bow c => some c.val | .fwd c => some c.val

/-- Device state code of IDENTIFY (R192); COX_STATUS reads 0 in RESET_HOLD (R328). -/
def devCode : DevState → Nat | .off => 0 | .resetHold => 0 | .boathouse => 2 | .ready => 3 | .active => 4 | .safe => 5

/-- Context state code (R184). -/
def ctxCode : CtxState → Nat
  | .closed => 0 | .opened => 1 | .pitching => 2 | .committing => 3 | .committed => 4 | .draining => 5 | .live => 6
  | .closing => 7

/-- Status code (R175). -/
def statusCode : Status → Nat
  | .ok => 0x00 | .okEmpty => 0x01 | .okReplayed => 0x02 | .badOpcode => 0x10 | .badParam => 0x11 | .state => 0x12
  | .shapeOver => 0x13 | .noFit => 0x14 | .sigBad => 0x15 | .shardBad => 0x16 | .shardMissing => 0x17 | .ctxDenied => 0x18
  | .checkFail => 0x20 | .digestBad => 0x21 | .parity => 0x22 | .timeout => 0x23 | .fault => 0x30

def allStatuses : List Status :=
  [.ok, .okEmpty, .okReplayed, .badOpcode, .badParam, .state, .shapeOver, .noFit, .sigBad, .shardBad, .shardMissing,
   .ctxDenied, .checkFail, .digestBad, .parity, .timeout, .fault]

def statusOf (n : Nat) : Status := (allStatuses.find? (fun s => statusCode s == n)).getD .fault

/-- Statuses that raise no interrupt by themselves (R203). -/
def statusGood (s : Status) : Bool := s = .ok || s = .okEmpty || s = .okReplayed

/-- Rank in the execution order of R176: a lower rank goes first. A status decided before execution stands alone and
ranks before all. OK_EMPTY, not in the order, ranks with OK (log entry 23). -/
def statusRank : Status → Nat
  | .fault => 1 | .parity => 2 | .badParam => 3 | .checkFail => 4 | .digestBad => 5 | .timeout => 6 | .okReplayed => 7
  | .ok => 8 | .okEmpty => 8 | _ => 0

/-- The outcome of R176 when a further one applies. -/
def worse (a b : Status) : Status := if statusRank b < statusRank a then b else a

/-! ## Packets (R172) -/

/-- The opcode of a packet; a packet with an error in its words (R223) has none that a row of the table matches. -/
def Packet.opcode (p : Packet) : Nat := if p.err.isSome then 0x100 else field p.bytes 0 1
def Packet.ctxcls (p : Packet) : Nat := field p.bytes 1 1
def Packet.ctx (p : Packet) : Nat := bitsOf p.ctxcls 0 4
def Packet.cls (p : Packet) : Nat := bitsOf p.ctxcls 4 2
def Packet.tag (p : Packet) : BitVec 16 := BitVec.ofNat 16 (field p.bytes 2 2)
def Packet.flags (p : Packet) : Nat := field p.bytes 4 2
def Packet.endBatch (p : Packet) : Bool := bitOf p.flags 0
def Packet.irq (p : Packet) : Bool := bitOf p.flags 1
def Packet.clear (p : Packet) : Bool := bitOf p.flags 2
def Packet.epoch (p : Packet) : BitVec 16 := BitVec.ofNat 16 (field p.bytes 6 2)
def Packet.length (p : Packet) : Nat := field p.bytes 8 4
def Packet.dataAddr (p : Packet) : Nat := field p.bytes 16 8
def Packet.resultAddr (p : Packet) : Nat := field p.bytes 24 8
/-- A PARAM field, by the packet offset that R191 gives. -/
def Packet.param (p : Packet) (off size : Nat) : Nat := field p.bytes off size

/-- Reserved bits of the header are 0: CTXCLS 7:6, FLAGS 15:3, bytes 12 to 15 (R172). -/
def Packet.headerRsvOk (p : Packet) : Bool :=
  bitsOf p.ctxcls 6 2 == 0 && bitsOf p.flags 3 13 == 0 && zeroAt p.bytes 12 4

/-- An address of R173. -/
inductive Addr where
  | host (a : Nat)
  | work (off : Nat)
  | window (slot off : Nat)
deriving DecidableEq, Repr

/-- The form of an address by its bits 63:62; none for the reserved form, or for reserved bits that are not 0. -/
def addrOf (a : Nat) : Option Addr :=
  let v := bitsOf a 0 62
  match bitsOf a 62 2 with
  | 0 => some (.host v)
  | 2 => some (.work v)
  | 1 => if bitsOf a 28 34 = 0 then some (.window (bitsOf a 24 4) (bitsOf a 0 24)) else none
  | _ => none

def Addr.isHost : Addr → Bool | .host _ => true | _ => false
def Addr.isWork : Addr → Bool | .work _ => true | _ => false

/-! ## Opcodes (R190) -/

/-- The opcodes. -/
inductive Op where
  | nop | identify | setEnvironment | setEnvelope | ctxOpen | ctxClose | pitchBegin | pitchShard | pitchCommit
  | pitchAbort | swing | run | runBow | collective | fence | trimLoad | trimRead | trackCtl | refresh | census
  | retrimStep | retrimApply | statsRead | signatureDrain | groupConfig | groupStatus | fwStage | fwActivate | selftest
deriving DecidableEq, Repr

def Op.code : Op → Nat
  | .nop => 0x01 | .identify => 0x02 | .setEnvironment => 0x03 | .setEnvelope => 0x04 | .ctxOpen => 0x08
  | .ctxClose => 0x09 | .pitchBegin => 0x10 | .pitchShard => 0x11 | .pitchCommit => 0x12 | .pitchAbort => 0x13
  | .swing => 0x14 | .run => 0x20 | .runBow => 0x21 | .collective => 0x22 | .fence => 0x23 | .trimLoad => 0x30
  | .trimRead => 0x31 | .trackCtl => 0x32 | .refresh => 0x33 | .census => 0x34 | .retrimStep => 0x38
  | .retrimApply => 0x39 | .statsRead => 0x40 | .signatureDrain => 0x41 | .groupConfig => 0x50 | .groupStatus => 0x51
  | .fwStage => 0x60 | .fwActivate => 0x61 | .selftest => 0x70

def allOps : List Op :=
  [.nop, .identify, .setEnvironment, .setEnvelope, .ctxOpen, .ctxClose, .pitchBegin, .pitchShard, .pitchCommit,
   .pitchAbort, .swing, .run, .runBow, .collective, .fence, .trimLoad, .trimRead, .trackCtl, .refresh, .census,
   .retrimStep, .retrimApply, .statsRead, .signatureDrain, .groupConfig, .groupStatus, .fwStage, .fwActivate, .selftest]

def opOf (code : Nat) : Option Op := allOps.find? (fun o => o.code == code)

/-- The Queue column of R190: admin, context, bow. -/
def Op.queueOk (o : Op) (q : QueueId) : Bool :=
  match q with
  | .fwd _ => true
  | .bow _ => o = .runBow
  | .admin =>
    match o with
    | .nop | .identify | .setEnvironment | .setEnvelope | .ctxOpen | .ctxClose | .fence | .trimLoad | .trimRead
    | .trackCtl | .refresh | .census | .statsRead | .signatureDrain | .groupConfig | .groupStatus | .fwStage
    | .fwActivate | .selftest => true
    | _ => false
  | .ctx _ =>
    match o with
    | .nop | .identify | .pitchBegin | .pitchShard | .pitchCommit | .pitchAbort | .swing | .run | .collective | .fence
    | .refresh | .census | .retrimStep | .retrimApply | .statsRead => true
    | _ => false

/-- The Class column of R190: 0 bow, 1 engine, 2 stern. -/
def Op.classOk (o : Op) (c : Nat) : Bool :=
  match o with
  | .runBow => c == 0
  | .run | .collective => c == 1 || c == 2
  | .refresh | .census | .retrimStep | .retrimApply => c == 2
  | _ => c == 1

/-- The Device column of R190. -/
def Op.devOk (o : Op) (d : DevState) : Bool :=
  match d with
  | .off | .resetHold => false
  | .safe =>
    match o with
    | .nop | .identify | .fence | .statsRead | .signatureDrain | .groupStatus => true
    | _ => false
  | .boathouse =>
    match o with
    | .nop | .identify | .setEnvironment | .setEnvelope | .fence | .trimLoad | .trimRead | .statsRead | .signatureDrain
    | .groupStatus | .fwStage | .fwActivate => true
    | _ => false
  | .ready =>
    match o with
    | .nop | .identify | .setEnvironment | .setEnvelope | .ctxOpen | .ctxClose | .fence | .trimLoad | .trimRead
    | .trackCtl | .refresh | .census | .statsRead | .signatureDrain | .groupConfig | .groupStatus | .fwStage
    | .fwActivate | .selftest => true
    | _ => false
  | .active =>
    match o with
    | .groupConfig | .fwActivate | .selftest => false
    | _ => true

/-- Opcodes accepted at completion (R190): their queue waits for them (R177). -/
def Op.atCompletion (o : Op) : Bool :=
  match o with
  | .setEnvironment | .setEnvelope | .ctxOpen | .pitchBegin | .fence | .trimLoad | .retrimApply | .groupConfig
  | .fwActivate | .selftest => true
  | _ => false

/-- The PARAM fields of R191 (offset, size); the other PARAM bytes are reserved. -/
def Op.params (o : Op) : List (Nat × Nat) :=
  match o with
  | .setEnvironment => [(32, 8), (40, 2), (42, 1), (43, 1), (44, 4)]
  | .setEnvelope => [(32, 1)]
  | .pitchBegin => [(32, 1), (34, 2)]
  | .pitchShard => [(32, 2), (36, 4)]
  | .pitchCommit | .pitchAbort | .swing => [(32, 2)]
  | .run => [(32, 2), (36, 16), (52, 4)]
  | .runBow => [(32, 2), (34, 1), (36, 4)]
  | .collective => [(32, 1), (33, 1), (36, 4), (40, 4)]
  | .trackCtl => [(32, 4), (36, 4), (40, 1)]
  | .retrimStep => [(32, 2), (34, 2), (36, 4), (40, 4), (44, 1)]
  | .retrimApply => [(32, 2), (34, 1)]
  | .statsRead => [(32, 1)]
  | .fwStage => [(32, 4), (36, 4)]
  | _ => []

/-- Reserved PARAM bytes are 0. -/
def Packet.paramRsvOk (p : Packet) (o : Op) : Bool :=
  (List.range 32).all (fun i => o.params.any (fun (f, n) => f ≤ 32 + i && 32 + i < f + n) || field p.bytes (32 + i) 1 == 0)

/-- END_BATCH and EPOCH belong to RUN alone (R188). -/
def Packet.batchFieldsOk (p : Packet) (o : Op) : Bool := o = .run || (!p.endBatch && p.epoch == 0)

/-! ## The numerics descriptor (R58) and the layer record (R142) -/

def Layer.kind (l : Layer) : Nat := field l.raw 0 1
def Layer.cls (l : Layer) : Nat := field l.raw 1 1
def Layer.foldByte (l : Layer) : Nat := field l.raw 2 1
def Layer.slewByte (l : Layer) : Nat := field l.raw 3 1
def Layer.nrep (l : Layer) : Nat := field l.raw 4 1
def Layer.ndyn (l : Layer) : Nat := field l.raw 5 1
def Layer.statSlot (l : Layer) : Nat := field l.raw 6 2
def Layer.k (l : Layer) : Nat := field l.raw 8 4
def Layer.n (l : Layer) : Nat := field l.raw 12 4
def Layer.wfmt (l : Layer) : Nat := field l.raw 16 1
def Layer.xfmt (l : Layer) : Nat := field l.raw 17 1
def Layer.yfmt (l : Layer) : Nat := field l.raw 18 1
def Layer.zw (l : Layer) : Nat := field l.raw 20 1
def Layer.zx (l : Layer) : Nat := field l.raw 21 1
def Layer.exByte (l : Layer) : Nat := field l.raw 22 1
def Layer.eyByte (l : Layer) : Nat := field l.raw 23 1
def Layer.zyByte (l : Layer) : Nat := field l.raw 24 1
def Layer.ex (l : Layer) : Int := signedOf 8 l.exByte
def Layer.ey (l : Layer) : Int := signedOf 8 l.eyByte
def Layer.zy (l : Layer) : Int := if l.yfmt = 0 ∨ l.yfmt = 2 then signedOf 8 l.zyByte else (l.zyByte : Int)
def Layer.ladderA (l : Layer) : F32 := BitVec.ofNat 32 (field l.raw 28 4)
def Layer.ladderB (l : Layer) : F32 := BitVec.ofNat 32 (field l.raw 32 4)
def Layer.codebook (l : Layer) (k : Nat) : F16 := BitVec.ofNat 16 (field l.raw (36 + 2 * k) 2)
def Layer.placeFirst (l : Layer) : Nat := field l.raw 80 4
def Layer.placeCount (l : Layer) : Nat := field l.raw 84 4
def Layer.tilePages (l : Layer) : Nat := field l.raw 88 2
def Layer.dbufGranules (l : Layer) : Nat := field l.raw 90 2
def Layer.firstShard (l : Layer) : Nat := field l.raw 92 4
def Layer.nshard (l : Layer) : Nat := field l.raw 96 4
def Layer.hbmGranules (l : Layer) : Nat := field l.raw 100 4
def Layer.bucket (l : Layer) (d i : Nat) : Nat := field l.raw (104 + 32 * d + 4 * i) 4
/-- The bucket sizes of dimension `d`: the non-zero entries. -/
def Layer.buckets (l : Layer) (d : Nat) : List Nat := ((List.range 8).map (l.bucket d)).filter (· ≠ 0)

def Layer.isArray (l : Layer) : Bool := l.kind == 1
def Layer.isBow (l : Layer) : Bool := l.cls == 0
/-- 8-bit weights occupy two columns (R31). -/
def Layer.w8 (l : Layer) : Bool := l.wfmt == 2 || l.wfmt == 3
def Layer.x8 (l : Layer) : Bool := l.xfmt == 3
def Layer.cb4 (l : Layer) : Bool := l.wfmt == 9
/-- Output columns of one array (R31). -/
def Layer.cols (l : Layer) : Nat := if l.w8 then 256 else 512
/-- Splits S (R128) and output slices T (R143). -/
def Layer.splits (l : Layer) : Nat := ceilDiv l.k 512
def Layer.slices (l : Layer) : Nat := ceilDiv l.n l.cols
/-- Active rows n_s of split s (R128). -/
def Layer.rows (l : Layer) (s : Nat) : Nat := if s + 1 < l.splits then 512 else l.k - 512 * (l.splits - 1)
/-- Output columns of slice t. -/
def Layer.sliceCols (l : Layer) (t : Nat) : Nat := min l.cols (l.n - l.cols * t)
/-- Fold selected by a FOLD field (R34). -/
def foldOf (f : Nat) : Nat := if f = 1 then 2 else if f = 2 then 4 else 1
/-- Bytes of one input vector's blocks and of one output vector (R54). -/
def Layer.inBytes (l : Layer) : Nat := tensorBytes l.xfmt l.k
def Layer.outBytes (l : Layer) : Nat := tensorBytes l.yfmt l.n
/-- DIM[d] of a RUN, and the four of them (R191). -/
def Packet.dim (p : Packet) (d : Nat) : Nat := p.param (36 + 4 * d) 4
def Packet.dims (p : Packet) : List Nat := (List.range 4).map p.dim

/-- Vectors of a RUN (R125): DIM[0], or one without a dynamic dimension; a bivouac-tier RUN counts as one. -/
def Layer.vectors (ly : Layer) (p : Packet) : Nat := if ly.isArray && ly.ndyn != 0 then p.dim 0 else 1

/-- The layer plan of a bivouac-tier RUN, and the formats of its weights, input and output (log entry 17). -/
def Layer.plan (ly : Layer) (p : Packet) : LayerPlan := Config.layerPlan ly.raw p.dims
def Layer.veFmt (ly : Layer) (i : Nat) : Nat := (Config.veFormats ly.raw).getD i 0

/-- Input and output bytes of the real shape of a RUN (R194). -/
def Layer.runIn (ly : Layer) (p : Packet) : Nat := if ly.isArray then ly.vectors p * ly.inBytes else (ly.plan p).inBytes
def Layer.runOut (ly : Layer) (p : Packet) : Nat :=
  if ly.isArray then ly.vectors p * ly.outBytes else tensorLen (ly.veFmt 2) (ly.plan p).rows (ly.plan p).cols

/-- Bytes of one split slice of an input vector (R122). -/
def Layer.sliceBytes (l : Layer) : Nat := 16 * blockBytes l.xfmt

/-- The ladder targets of a codebook layer in 1/64 microsiemens (R60): FP32 product and sum, rounded to even. -/
def Layer.ladder (l : Layer) : List Nat :=
  (List.range 16).map (fun k =>
    let t := f32Mul (f32Add (f32Mul l.ladderA (f32OfF16 (l.codebook k))) l.ladderB) (f32Rat 64)
    (roundEven (f32Q t)).toNat)

/-- The nominal ladder of R20 in 1/64 microsiemens. -/
def nominalTarget (k : Nat) : Nat := 128 * (k + 1)

/-- The level of lantern column k (R23). -/
def lanternLevel (k : Nat) : Nat := 5 * (k % 4)

/-- A ladder is valid (R22): strictly rising, within 2.0 to 32.0 microsiemens, steps of at least 1.0 microsiemens. -/
def ladderOk (ts : List Nat) : Bool :=
  ts.all (fun t => 128 ≤ t && t ≤ 2048) && (ts.zip (ts.drop 1)).all (fun (a, b) => a + 64 ≤ b)

/-- The numerics descriptor meets R59. -/
def Layer.numericsOk (l : Layer) : Bool :=
  let zyOk : Bool :=
    if fmtInt l.yfmt then decide (fmtLo l.yfmt ≤ l.zy ∧ l.zy ≤ fmtHi l.yfmt) else l.zyByte == 0
  [0, 1, 2, 3, 9].contains l.wfmt && [1, 3].contains l.xfmt && [0, 1, 2, 3, 4, 6, 7].contains l.yfmt
  && (l.wfmt != 0 && l.wfmt != 1 || l.zw ≤ 15) && (!l.cb4 || l.zw == 0) && (l.xfmt != 1 || l.zx ≤ 15) && zyOk
  && (if l.cb4 then
        f32Finite l.ladderA && f32Finite l.ladderB && decide (0 < f32Q l.ladderA) && decide (0 < f32Q l.ladderB)
        && (List.range 16).all (fun k => f16Finite (l.codebook k))
        && (List.range 15).all (fun k => decide (f16Q (l.codebook k) < f16Q (l.codebook (k + 1))))
        && ladderOk l.ladder
      else zeroAt l.raw 28 40)
  && zeroAt l.raw 19 1 && zeroAt l.raw 25 3 && zeroAt l.raw 68 12

/-! ## Placement entries and shard-table entries (R143), shard headers (R144) -/

def plVcrew (e : List Byte) : Nat := field e 0 2
def plSplit (e : List Byte) : Nat := bitsOf (field e 2 2) 0 9
def plSlice (e : List Byte) : Nat := bitsOf (field e 4 2) 0 12
def plReplica (e : List Byte) : Nat := bitsOf (field e 6 1) 0 4
def plRsvOk (e : List Byte) : Bool :=
  bitsOf (field e 2 2) 9 7 == 0 && bitsOf (field e 4 2) 12 4 == 0 && bitsOf (field e 6 1) 4 4 == 0 && field e 7 1 == 0

def stIndex (e : List Byte) : Nat := field e 0 4
def stLayer (e : List Byte) : Nat := field e 4 4
def stLen (e : List Byte) : Nat := field e 8 4
def stType (e : List Byte) : Nat := field e 12 1
def stDigest (e : List Byte) : List Byte := slice e 16 48

def shLayer (h : List Byte) : Nat := field h 8 4
def shType (h : List Byte) : Nat := field h 12 1
def shComp (h : List Byte) : Nat := field h 13 1
def shPayloadLen (h : List Byte) : Nat := field h 16 4
def shRawLen (h : List Byte) : Nat := field h 20 4
def shPlace (h : List Byte) : Nat := field h 24 4
def shRow0 (h : List Byte) : Nat := field h 28 2
def shNrows (h : List Byte) : Nat := field h 30 2
def shOffset (h : List Byte) : Nat := field h 32 8
def shWformat (h : List Byte) : Nat := field h 40 1

/-! ## POSITION (R193, R259) -/

def posRole (p : Dword) : Nat := bitsOf p.toNat 0 2
def posParent (p : Dword) : Bool := bitOf p.toNat 2
def posDepth (p : Dword) : Nat := bitsOf p.toNat 3 2
def posTop (p : Dword) : Bool := bitOf p.toNat 5
def posAddr (p : Dword) : Nat := bitsOf p.toNat 6 12
def posBlevel (p : Dword) : Nat := bitsOf p.toNat 18 2
def posBidx (p : Dword) : Nat := bitsOf p.toNat 20 3
def posAsize (p : Dword) : Nat := bitsOf p.toNat 23 3
def posBsize (p : Dword) : Nat := bitsOf p.toNat 26 3
/-- IDX_L of a device address (R259): its index in the level-L ring. -/
def addrIdx (a l : Nat) : Nat := bitsOf a (3 * l) 3

/-! ## Envelopes (R14, R301) -/

/-- Compute dies, HBM stacks and link ports powered at an envelope, as bit masks. -/
def envDies (e : Nat) : Nat := if e = 1 then 1 else if e = 2 then 3 else 15
def envStacks (e : Nat) : Nat := if e = 1 then 1 else 3
def envLinks (e : Nat) : Nat := if e = 1 then 0 else 15
def envLimitW (e : Nat) : Nat := if e = 1 then 25 else if e = 2 then 60 else if e = 3 then 110 else 160
def diePowered (e d : Nat) : Bool := bitOf (envDies e) d

/-- The compute die of a crew (R12). -/
def crewDie (c : Nat) : Nat := c / 64

/-- Array index of R81. -/
def arrIdx (crew slot : Nat) : Nat := crew * 17 + slot

/-- A tile is at most a panel of 256 KiB (log entry 49). -/
def panelBytes : Nat := 2 ^ 18

/-- The chunks of a VE's own operand, the panels of the shared one, and the rows of descriptors, one for each VE, that the work
takes: of every round each panel, and under it each chunk, so that a panel is fetched once (R119, R131). -/
def VeShape.chunks (h : VeShape) : Nat := max 1 (ceilDiv (ceilDiv h.ownLen (max 1 h.ves.length)) panelBytes)
def VeShape.panels (h : VeShape) : Nat := max 1 (ceilDiv h.inpLen panelBytes)
def VeShape.rows (h : VeShape) : Nat := if h.ves = [] then 0 else h.rounds * (h.chunks * h.panels)

end Sys2Proof.Machine
end

