-- ==== Sys2Proof/Machine/Ops.lean ====
section
/-! DEFINITION. The named operations over the state: one home for each table, memory access by address form (R173),
interrupts (R201 to R204), failure signatures (R239 to R242), status entries (R171, R174), command records, tokens, parity
events and benching (R233, R234), and the entry to SAFE (R246). -/
namespace Sys2Proof.Machine

/-! ## Tables -/

def Queue.dflt (_ : Nat) : Queue := Queue.reset
def Ctx.dflt (_ : Nat) : Ctx := Ctx.reset
def Crew.dflt (_ : Nat) : Crew := Crew.reset
def Ve.dflt (_ : Nat) : Ve := Ve.reset
def Port.dflt (_ : Nat) : Port := Port.reset
def Slot.dflt (_ : Nat) : Slot := Slot.reset
def counterDflt (_ : Nat) : Dword := 0
/-- Column trims after reset (R79): offset 0, gain 1.0. -/
def trimDflt (_ : Nat) : BitVec 16 × BitVec 16 := (0, 0x8000)
def hopDflt (_ : Nat) : Byte := 0xFF
/-- An MSI-X table byte after reset: the mask bit of each vector control dword is set (log entry 7). -/
def msixDflt (a : Nat) : Byte := if a % 16 = 12 then 1 else 0
def colDflt (_ : Nat) : ColSet := ColSet.reset
def zero16 (_ : Nat) : BitVec 16 := 0
def zeroNat (_ : Nat) : Nat := 0

def State.queue (s : State) (q : QueueId) : Queue := s.queues.get Queue.dflt (qIdx q)
def State.setQueue (s : State) (q : QueueId) (x : Queue) : State :=
  { s with queues := s.queues.set Queue.dflt (qIdx q) x }
def State.ctx (s : State) (c : Nat) : Ctx := s.ctxs.get Ctx.dflt c
def State.setCtx (s : State) (c : Nat) (x : Ctx) : State := { s with ctxs := s.ctxs.set Ctx.dflt c x }
def State.crew (s : State) (n : Nat) : Crew := s.crews.get Crew.dflt n
def State.setCrew (s : State) (n : Nat) (x : Crew) : State := { s with crews := s.crews.set Crew.dflt n x }
def State.arr (s : State) (a : Nat) : Arr := s.arrs.get Arr.reset a
def State.setArr (s : State) (a : Nat) (x : Arr) : State := { s with arrs := s.arrs.set Arr.reset a x }
def State.ve (s : State) (v : Nat) : Ve := s.ves.get Ve.dflt v
def State.setVe (s : State) (v : Nat) (x : Ve) : State := { s with ves := s.ves.set Ve.dflt v x }
def State.port (s : State) (p : Nat) : Port := s.ports.get Port.dflt p
def State.setPort (s : State) (p : Nat) (x : Port) : State := { s with ports := s.ports.set Port.dflt p x }
def State.counter (s : State) (k : Nat) : Dword := s.counters.get counterDflt k
def State.setCounter (s : State) (k : Nat) (v : Dword) : State := { s with counters := s.counters.set counterDflt k v }
def State.modArr (s : State) (a : Nat) (f : Arr → Arr) : State := s.setArr a (f (s.arr a))
def State.modCrew (s : State) (n : Nat) (f : Crew → Crew) : State := s.setCrew n (f (s.crew n))
def State.modCtx (s : State) (c : Nat) (f : Ctx → Ctx) : State := s.setCtx c (f (s.ctx c))
def State.modPort (s : State) (p : Nat) (f : Port → Port) : State := s.setPort p (f (s.port p))
def State.modVe (s : State) (v : Nat) (f : Ve → Ve) : State := s.setVe v (f (s.ve v))
def State.modQueue (s : State) (q : QueueId) (f : Queue → Queue) : State := s.setQueue q (f (s.queue q))

/-- Fold a state change over a list of units. -/
def State.each {α : Type} (s : State) (l : List α) (f : State → α → State) : State := l.foldl f s

/-! ## Array planes, numbering -/

def Arr.plane (x : Arr) (p : Bool) : Plane := if p then x.p1 else x.p0
def Arr.setPlane (x : Arr) (p : Bool) (y : Plane) : Arr := if p then { x with p1 := y } else { x with p0 := y }
/-- Physical slot of logical array l (R41). -/
def physOf (spare l : Nat) : Nat := if l < spare then l else l + 1
/-- Logical array of a physical slot that is not the spare (R41). -/
def logicalOf (spare slot : Nat) : Nat := if slot < spare then slot else slot - 1
def State.physArr (s : State) (crew l : Nat) : Nat := arrIdx crew (physOf (s.crew crew).spare.toNat l)
def State.logicalArr (s : State) (a : Nat) : Nat := logicalOf (s.crew (a / 17)).spare.toNat (a % 17)
def State.isSpare (s : State) (a : Nat) : Bool := (s.crew (a / 17)).spare.toNat == a % 17

/-- Settle window and slot length (R24, R25); a reserved crew uses the default setting (R27). -/
def settleOf (step rate : Nat) : Nat := max 16 (ceilDiv 15 step * 2 ^ rate + 4)
/-- STEP and RATE in force. -/
def State.slewOf (s : State) (a : Nat) : Nat × Nat :=
  if (s.crew (a / 17)).resv.isSome then (4, 0) else ((s.arr a).step.toNat, (s.arr a).rate.toNat)
def State.slotLen (s : State) (a : Nat) : Nat := settleOf (s.slewOf a).1 (s.slewOf a).2 + 48

/-! ## Memory by address form (R173) -/

/-- The slot and offset of a window address in the staging memory. -/
def windowKey (slot off : Nat) : Nat := slot * 2 ^ 24 + off

def State.readAt (s : State) (c : Nat) (a : Addr) (n : Nat) : List Byte :=
  match a with
  | .host x => Memory.readBytes s.host x n
  | .work x => Memory.readBytes (s.ctx c).work x n
  | .window sl x => match (s.ctx c).pitch with
    | some p => Memory.readBytes p.stage (windowKey sl x) n
    | none => List.replicate n 0

def State.writeHost (s : State) (a : Nat) (bs : List Byte) : State := { s with host := Memory.writeBytes s.host a bs }

/-- A write to working space; it mends the dwords that it covers (R223). -/
def State.writeWork (s : State) (c off : Nat) (bs : List Byte) : State :=
  s.modCtx c (fun x => { x with
    work := Memory.writeBytes x.work off bs, bad := x.bad.filter (fun e => !(off ≤ e.1 && e.1 + 4 ≤ off + bs.length)) })

def State.writeAt (s : State) (c : Nat) (a : Addr) (bs : List Byte) : State :=
  match a with
  | .host x => s.writeHost x bs
  | .work x => s.writeWork c x bs
  | .window _ _ => s

/-- Bytes of working space a context holds (R154: granules of 2 MiB). -/
def Ctx.workBytes (x : Ctx) : Nat := (x.w0 + x.w1) * 2 ^ 21

/-- The range of an address is inside its space (R173). -/
def State.rangeOk (s : State) (c : Nat) (a : Addr) (n : Nat) : Bool :=
  match a with
  | .host x => x + n ≤ 2 ^ 62
  | .work x => x + n ≤ (s.ctx c).workBytes
  | .window _ x => x + n ≤ 2 ^ 24

/-! ## Interrupts (R201, R202) -/

def State.out (s : State) (o : Out) : State := { s with outs := o :: s.outs }

/-- Raise vector `v` of the physical function: sent, or held pending while its mask bit is set; nothing leaves a faulty endpoint
(R183). -/
def State.raisePf (s : State) (v : Nat) : State :=
  if s.dev.endpointFault then s
  else if (s.dev.msix.get msixDflt (16 * v + 12)).getLsbD 0 then
    { s with dev := { s.dev with pba := s.dev.pba ||| BitVec.ofNat 64 (2 ^ v) } }
  else s.out (.msix 0 v)

/-- Raise vector `v` of virtual function `n` (1 to 16). -/
def State.raiseVf (s : State) (n v : Nat) : State :=
  if s.dev.endpointFault then s
  else if (s.dev.vfTable.get msixDflt (48 * (n - 1) + 16 * v + 12)).getLsbD 0 then
    { s with dev := { s.dev with vfPba := s.dev.vfPba ||| BitVec.ofNat 64 (2 ^ (3 * (n - 1) + v)) } }
  else s.out (.msix n v)

/-- A vector of context `c`: kind 0 its queue, 1 its bow queue, 2 its events (R201, R202). -/
def State.raiseCtx (s : State) (c kind : Nat) : State :=
  if s.dev.vfMsix.getLsbD c then s.raiseVf (c + 1) kind else s.raisePf (2 + 16 * kind + c)

/-- The completion vector of a queue (R203). -/
def State.raiseQueue (s : State) (q : QueueId) : State :=
  match q with
  | .admin => s.raisePf 0
  | .ctx c => s.raiseCtx c.val 0
  | .bow c => s.raiseCtx c.val 1
  | .fwd _ => s

/-! ## Failure signatures (R239) -/

/-- A CBOR head of major type `m` in the shortest form. -/
def cborHead (m v : Nat) : List Byte :=
  if v < 24 then [BitVec.ofNat 8 (m * 32 + v)]
  else if v < 2 ^ 8 then BitVec.ofNat 8 (m * 32 + 24) :: beBytes 1 v
  else if v < 2 ^ 16 then BitVec.ofNat 8 (m * 32 + 25) :: beBytes 2 v
  else if v < 2 ^ 32 then BitVec.ofNat 8 (m * 32 + 26) :: beBytes 4 v
  else BitVec.ofNat 8 (m * 32 + 27) :: beBytes 8 v

def cborUint (v : Nat) : List Byte := cborHead 0 v
def cborBytes (b : List Byte) : List Byte := cborHead 2 b.length ++ b
def cborArray (l : List Nat) : List Byte := cborHead 4 l.length ++ l.flatMap cborUint
/-- A definite-length map with unsigned keys, given in ascending order. -/
def cborMap (l : List (Nat × List Byte)) : List Byte :=
  cborHead 5 l.length ++ l.flatMap (fun (k, v) => cborUint k ++ v)

/-- What an event says of itself (R239 keys 7 to 11); absent keys do not apply. -/
structure SigInfo where
  ctx : Option Nat := none
  tag : Option Nat := none
  status : Option Nat := none
  loc : List Nat := []
  data : List Byte := []
deriving DecidableEq, Repr

def optKey (k : Nat) (v : Option Nat) : List (Nat × List Byte) :=
  match v with | none => [] | some x => [(k, cborUint x)]

/-- The signature of an event (R239); key 6 is carried when signatures were discarded (log entry 25). -/
def State.sigBytes (s : State) (kind : Nat) (i : SigInfo) : List Byte :=
  cborMap ([(0, cborUint 1), (1, cborUint kind), (2, cborUint s.dev.timeBase.toNat), (3, cborUint s.env.position.toNat),
    (4, cborUint Config.serial.toNat), (5, cborUint s.sig.seq)]
    ++ (if s.sig.lost = 0 then [] else [(6, cborUint s.sig.lost)])
    ++ optKey 7 i.ctx ++ optKey 8 i.tag ++ optKey 9 i.status
    ++ (if i.loc.isEmpty then [] else [(10, cborArray i.loc)])
    ++ (if i.data.isEmpty then [] else [(11, cborBytes i.data)]))

/-- Length and value of an unsigned CBOR item. -/
def cborSize (b : Byte) : Nat :=
  let a := bitsOf b.toNat 0 5
  if a < 24 then 1 else 1 + 2 ^ (a - 24)
def cborVal (bs : List Byte) : Nat :=
  let b := bs.headD 0
  if cborSize b = 1 then bitsOf b.toNat 0 5
  else (slice bs 1 (cborSize b - 1)).foldl (fun v x => 256 * v + x.toNat) 0

/-- The end of `n` entries of a map whose values are unsigned, from offset `o` on. -/
def cborSkip (bs : List Byte) : Nat → Nat → Nat
  | 0, o => o
  | n + 1, o => cborSkip bs n (o + 1 + cborSize (bs.getD (o + 1) 0))

/-- A signature with `n` more in its key 6 (R241): keys 0 to 5, which every signature has, stand before it. -/
def addLost (n : Nat) (b : List Byte) : List Byte :=
  let o := cborSkip b 6 1
  let rest := b.drop o
  if n = 0 then b
  else if rest.headD 0 = 6 then b.take o ++ [6] ++ cborUint (n + cborVal (rest.drop 1)) ++ rest.drop (1 + cborSize (rest.getD 1 0))
  else (b.headD 0 + 1) :: (slice b 1 (o - 1) ++ [6] ++ cborUint n ++ rest)

/-- Put a signature into the sideband mirror (R242): when full, the oldest is overwritten. -/
def pushMirror (m : List (List Byte)) (b : List Byte) : List (List Byte) :=
  if m.length < 16 then m ++ [b] else m.drop 1 ++ [b]

/-- Store a signature (R241): the interrupt is raised when the store was empty (R204); a full store discards and counts. -/
def State.storeSig (s : State) (b : List Byte) : State :=
  if 1024 ≤ s.sig.store.length then { s with sig := { s.sig with lost := s.sig.lost + 1 } }
  else
    let first := s.sig.store.isEmpty
    let s := { s with sig := { s.sig with store := s.sig.store ++ [b], lost := 0 } }
    if first then s.raisePf 1 else s

/-- The top manager stores a member's signature under R241: what it has discarded itself is carried in key 6. -/
def State.storeCopy (s : State) (b : List Byte) : State := s.storeSig (addLost s.sig.lost b)

/-- The port a destination leaves on (R260), if the table names one. -/
def State.hop (s : State) (dst : Nat) : Option Nat :=
  let h := (s.group.nexthop.get hopDflt dst).toNat
  if h < 4 then some h else none

/-- The device address of this device and of the top manager (R259: the top manager is address 0). -/
def State.self (s : State) : Nat := posAddr s.env.position

/-- This device is a group member (GROUP_CONFIG loaded). -/
def State.member (s : State) : Bool := s.group.configured
def State.top (s : State) : Bool := s.group.configured && posTop s.env.position

/-- The pair of a port: 0 for LK0 and LK1, 1 for LK2 and LK3. -/
def pairOf (p : Nat) : Nat := p / 2

/-- The key of the ring on a pair that this device manages (MODEL: own address, + 4096 for pair B). -/
def State.ringKey (s : State) (pair : Nat) : Nat := s.self + 4096 * pair

/-- This device manages the ring on a pair (R257): index 0 of it. -/
def State.managesPair (s : State) (pair : Nat) : Bool :=
  s.member && (if pair = 0 then addrIdx s.self 0 == 0 else posBlevel s.env.position != 0 && posBidx s.env.position == 0)

/-- The state of a ring in a list of them. -/
def ringOf (l : List (Nat × GState)) (k : Nat) : Option GState := (l.find? (fun e => e.1 == k)).map (·.2)

/-- The state of a ring in a device's list. -/
def setRing (k : Nat) (g : GState) (l : List (Nat × GState)) : List (Nat × GState) := l.map (fun e => if e.1 = k then (k, g) else e)

/-- This device knows that the ring on a pair is DEGRADED (R266): it transmits only IDLE flits on it; its manager keeps the state. -/
def State.fall (s : State) (pair : Nat) : State :=
  { s with group := { s.group with
    fallen := if s.group.fallen.contains pair then s.group.fallen else s.group.fallen ++ [pair]
    rings := if s.managesPair pair then setRing (s.ringKey pair) .degraded s.group.rings else s.group.rings } }

/-- A port carries more than IDLE flits: it is UP (R251), and not in a ring that this device knows to be DEGRADED (R266; log entry
89). -/
def State.carries (s : State) (p : Nat) : Bool := (s.port p).up && !s.group.fallen.contains (pairOf p)

/-- WPAR of a payload (R254): bit w is the exclusive or of the 32 byte-parity bits of word w. -/
def wordParity (bs : List Byte) : Nat :=
  sumNat ((List.range 34).map (fun w =>
    bitAt ((slice bs (32 * w) 32).foldl (fun a b => xor a (parityBit b)) false) w))

/-- Flit `i` of the `n` flits of a message (R252, R254, R255): header, and payload filled up with 0. An ACK or RESEND is one flit
(log entry 113). -/
def Msg.flit (m : Msg) (n i : Nat) : Flit :=
  let chunk := slice m.payload (1088 * i) (min 1088 (m.payload.length - 1088 * i))
  let pay := (chunk ++ List.replicate 1088 0).take 1088
  let h := [m.ctxcls, BitVec.ofNat 8 (m.kind + bitAt (i == 0) 4 + bitAt (i + 1 == n) 5 + m.level % 4 * 64)]
    ++ leBytes 2 m.tag.toNat ++ leBytes 2 m.epoch.toNat ++ leBytes 2 m.gen ++ leBytes 4 m.claim.toNat ++ leBytes 2 m.dst
    ++ leBytes 2 m.src ++ leBytes 2 m.step ++ leBytes 2 chunk.length ++ leBytes 4 (if i + 1 = n then m.digest.toNat else i)
    ++ leBytes 5 (wordParity pay) ++ [0, 0]
  ⟨h ++ [xorBytes h ^^^ 0xFF], pay, 0, 0, false⟩

/-- The flits of a message, in order. -/
def Msg.flits (m : Msg) : List Flit :=
  let n := max 1 (ceilDiv m.payload.length 1088)
  (List.range n).map (m.flit n)

/-- Send a message (R255): a held copy is kept until its ACK (R237), unless it is an ACK or a RESEND. While the port does not
carry it nothing leaves; a held copy is sent after retraining (R294). -/
def State.send (s : State) (m : Msg) : State :=
  let s := if m.kind = 5 ∨ m.kind = 6 then s else { s with group := { s.group with held := s.group.held ++ [m] } }
  match s.hop m.dst with
  | none => s
  | some p => if s.carries p then s.out (.link p m.flits) else s

/-- The 16-byte prefix of a message digest (R236). -/
def digestPrefix (collId tag step sender gen ctx level : Nat) : List Byte :=
  leBytes 4 collId ++ leBytes 2 tag ++ leBytes 2 step ++ leBytes 2 sender ++ leBytes 2 gen ++ leBytes 1 ctx
    ++ leBytes 1 level ++ [0, 0]

/-- A message with its digest (R255). -/
def mkMsg (kind ctxcls tag epoch gen dst src step level collId sender : Nat) (payload : List Byte) : Msg :=
  { kind := kind, ctxcls := BitVec.ofNat 8 ctxcls, tag := BitVec.ofNat 16 tag, epoch := BitVec.ofNat 16 epoch, gen := gen,
    claim := 0, dst := dst, src := src, step := step, level := level, payload := payload,
    digest := crc32c (digestPrefix collId tag step sender gen (ctxcls % 16) level ++ payload) }

/-- The address of the top manager: index 0 in every ring of a system of one or two levels; in a deeper system no rule says which
device of its ring it is (R258, R259; log entry 70). -/
def State.topAddr (s : State) : Nat :=
  if s.top then s.self else if posDepth s.env.position ≤ 1 then 0 else Config.topAddress

/-- The device that an address names (R271): in a group a working-space address by bits 61:50, a host address the top manager. -/
def State.addrDev (s : State) (a : Nat) : Nat :=
  if !s.member then s.self
  else match addrOf a with
    | some (.work v) => v / 2 ^ 50
    | _ => s.topAddr

/-- The address inside its device. -/
def State.localAddr (s : State) (a : Nat) : Option Addr :=
  (addrOf a).map (fun x => match x with
    | .work v => .work (if s.member then v % 2 ^ 50 else v)
    | y => y)

/-- The devices of the system, ascending (R264). -/
def State.devices (s : State) : List Nat :=
  if s.member then (s.group.nexthop.filter (fun e => e.2.toNat ≠ 0xFF)).map (·.1) else [s.self]

/-- The level-`l` group that contains device `a` (R257, R259, R272). -/
def State.levelGroup (s : State) (a l : Nat) : List Nat := s.devices.filter (fun x => x / 8 ^ (l + 1) == a / 8 ^ (l + 1))

/-- The devices that receive a COLLECTIVE's bytes, and those that contribute (R272). -/
def State.collTo (s : State) (p : Packet) : List Nat :=
  if p.param 32 1 = 1 then [s.addrDev p.resultAddr] else s.levelGroup (s.addrDev p.dataAddr) (p.param 33 1)
def State.collFrom (s : State) (p : Packet) : List Nat :=
  if p.param 32 1 = 3 then s.levelGroup (s.addrDev p.dataAddr) (p.param 33 1) else [s.addrDev p.dataAddr]

/-- Emit a failure signature: store (R241), mirror (R242), and on a member a copy to the top manager (R275). -/
def State.emit (s : State) (kind : Nat) (i : SigInfo) : State :=
  let b := s.sigBytes kind i
  let s := { s with sig := { s.sig with seq := s.sig.seq + 1, mirror := pushMirror s.sig.mirror b } }
  let s := s.storeSig b
  if s.member && !s.top then s.send (mkMsg 7 0 0 0 0 s.topAddr s.self s.sig.seq 0 0 s.self b) else s

/-! ## Status entries (R171, R174) and command records -/

/-- Modifier bits of MOD (R174). -/
def modBits (sat folded patched : Bool) : Nat := bitAt sat 0 + bitAt folded 1 + bitAt patched 2

/-- The 16 bytes of a status entry (R174). -/
def statusEntry (pkt : Packet) (st : Status) (mod sqHead r0 r1 : Nat) (phase : Bool) : List Byte :=
  leBytes 2 pkt.tag.toNat ++ [BitVec.ofNat 8 (statusCode st), BitVec.ofNat 8 (mod + bitAt phase 7)] ++ leBytes 2 sqHead
    ++ [BitVec.ofNat 8 (field pkt.bytes 0 1), BitVec.ofNat 8 pkt.ctxcls] ++ leBytes 4 r0 ++ leBytes 4 r1

/-- Write a status entry and raise the completion vector where R203 asks for it. -/
def State.writeStatus (s : State) (q : QueueId) (pkt : Packet) (st : Status) (mod r0 r1 : Nat) : State :=
  let x := s.queue q
  let e := statusEntry pkt st mod x.sqHead.toNat r0 r1 x.phase
  let s := s.writeHost (x.cqBase.toNat + 16 * x.cqTail.toNat) e
  let wrap := x.cqTail.toNat + 1 = 2 ^ x.size.toNat
  let s := s.setQueue q { x with
    cqTail := if wrap then 0 else x.cqTail + 1, phase := if wrap then !x.phase else x.phase, unread := x.unread + 1 }
  if pkt.irq || !statusGood st then s.raiseQueue q else s

/-- Answer a packet: a status entry on a ring, a STATUS message to the top manager for a forwarded command (R267), with the
command's generation `gen` in its header (R180). -/
def State.replyGen (s : State) (gen : Nat) (q : QueueId) (pkt : Packet) (st : Status) (mod r0 r1 : Nat) : State :=
  match q with
  | .fwd _ => s.send (mkMsg 2 pkt.ctxcls pkt.tag.toNat pkt.epoch.toNat gen s.topAddr s.self 0 0 0 s.self
      (statusEntry pkt st mod 0 r0 r1 false))
  | _ => s.writeStatus q pkt st mod r0 r1

/-- Answer a packet that carries no generation: it was rejected, or its opcode has no stamp (R162). -/
def State.reply (s : State) (q : QueueId) (pkt : Packet) (st : Status) (mod r0 r1 : Nat) : State :=
  s.replyGen 0 q pkt st mod r0 r1

def State.cmd? (s : State) (r : CmdRef) : Option Cmd := s.cmds.find? (fun c => c.ref = r)
def State.setCmd (s : State) (c : Cmd) : State := { s with cmds := s.cmds.map (fun d => if d.ref = c.ref then c else d) }
def State.dropCmd (s : State) (r : CmdRef) : State := { s with cmds := s.cmds.filter (fun c => c.ref ≠ r) }
def State.updCmd (s : State) (r : CmdRef) (f : Cmd → Cmd) : State :=
  { s with cmds := s.cmds.map (fun c => if c.ref = r then f c else c) }

/-- Commands of a queue that are admitted and not completed (PCI_QSTAT.OUTSTANDING, R168). -/
def State.outstanding (s : State) (q : QueueId) : Nat := (s.cmds.filter (fun c => c.ref.q = q)).length

/-- PCI_QCFG.IDLE (R169). -/
def State.idleQueue (s : State) (q : QueueId) : Bool := !(s.queue q).enable && s.outstanding q == 0

/-- The context a command acts on: its queue's, or the one CTX names on the admin queue (R190). -/
def ctxOf (q : QueueId) (p : Packet) : Nat := (qCtx q).getD p.ctx

/-- A tag that no command of a context has in flight: the lowest one (log entry 56). -/
def State.freeTag (s : State) (c : Nat) : Nat :=
  ((List.range (s.cmds.length + 1)).find? (fun t => !s.cmds.any (fun x => ctxOf x.ref.q x.pkt == c && x.ref.tag.toNat == t))).getD 0

/-- The members of the group other than this device (R264: addresses with a next hop). -/
def State.others (s : State) : List Nat :=
  (s.group.nexthop.filter (fun e => e.2.toNat < 4)).map (·.1)

/-- The reference of a stroke that no command owns: keep-warm strokes, and strokes whose command has ended. -/
def noRef : CmdRef := ⟨.admin, 0⟩

/-- An array, a crew and a VE without the work of a command; its strokes in flight end for no command. -/
def Arr.dropWork (r : CmdRef) (a : Arr) : Arr :=
  { a with
      jobs := a.jobs.filter (fun j => j.ref ≠ r), replays := a.replays.filter (fun p => p.ref ≠ r)
      shots := a.shots.map (fun t => if t.ref = r then { t with ref := noRef } else t) }
def Crew.dropWork (r : CmdRef) (c : Crew) : Crew :=
  { c with tiles := c.tiles.filter (fun t => t.ref ≠ r), comb := c.comb.filter (fun e => e.ref ≠ r), combVecs := c.combVecs.filter (fun e => e.ref ≠ r) }
/-- The descriptor that the EE takes next: engine class before stern class, each in ring order (R140). -/
def Ve.next (v : Ve) : Option (Desc × Nat) :=
  let ready := v.ring.zipIdx.filter (fun e => e.1.fetched && !e.1.started)
  match ready.find? (fun e => !e.1.stern) with
  | some e => some e
  | none => ready.head?

/-- The descriptor that the EE executes, or is about to execute (R137), with its place in the ring. -/
def Ve.current (v : Ve) : Option (Desc × Nat) :=
  match v.ring.zipIdx.find? (fun e => e.1.started), v.next with
  | some e, _ => some e
  | none, some e => some e
  | none, none => v.ring.zipIdx.head?

/-- The AE's lead over the EE and the staging in use follow the ring; HEAD is the index of the EE's descriptor (R137, R333). -/
def Ve.refresh (v : Ve) : Ve :=
  let at' := match v.current with | some e => e.2 | none => 0
  let n := ((v.ring.drop (at' + 1)).filter (fun d => d.fetched)).length
  { v with
    head := match v.current with | some e => e.1.idx | none => v.tail
    ahead := n, aheadMax := max v.aheadMax n
    stagingUsed := sumNat (v.tiles.map (fun e => e.bytes.length)) }

/-- A tile in staging is the one that a descriptor reads of its VE's own operand, or of the shared one. -/
def Staged.ownOf (t : Staged) (d : Desc) : Bool := decide (t.ref = d.ref) && !t.shared && decide (t.num = d.own)
def Staged.inpOf (t : Staged) (d : Desc) : Bool := decide (t.ref = d.ref) && t.shared && decide (t.num = d.inp)

/-- A command's descriptors leave the ring; one that the EE has started completes, and is the last to read its tiles. -/
def Ve.dropWork (r : CmdRef) (v : Ve) : Ve :=
  let ring := (v.ring.filter (fun d => d.ref ≠ r || d.started)).map (fun d =>
    if d.ref = r then { d with release := true, freeInp := true } else d)
  ({ v with
      ring := ring
      tiles := v.tiles.filter (fun t => t.ref ≠ r || ring.any (fun d => t.ownOf d || t.inpOf d)) } : Ve).refresh

/-- Change every listed array, crew, VE. -/
def State.eachArr (s : State) (f : Arr → Arr) : State := s.each (s.arrs.map (·.1)) (fun s k => s.modArr k f)
def State.eachCrew (s : State) (f : Crew → Crew) : State := s.each (s.crews.map (·.1)) (fun s k => s.modCrew k f)
def State.eachVe (s : State) (f : Ve → Ve) : State := s.each (s.ves.map (·.1)) (fun s k => s.modVe k f)

/-- Free the NoC-side work of a command: its jobs, replays, tiles, partials, combiner entries and VE descriptors that have
not started (R140, R223, R229). -/
def State.purge (s : State) (r : CmdRef) : State :=
  let s := ((s.eachArr (Arr.dropWork r)).eachCrew (Crew.dropWork r)).eachVe (Ve.dropWork r)
  { s with parts := s.parts.filter (fun p => p.ref ≠ r) }

/-- End a command in execution with an outcome (R176): nothing more of it is dispatched; the status is written by its
completion row. -/
def State.failCmd (s : State) (r : CmdRef) (st : Status) : State :=
  (s.updCmd r (fun c => { c with outcome := worse c.outcome st, ended := true })).purge r

/-- Free the work-counter slot of a RUN (R132) in the home crew's control page. -/
def State.freeSlot (s : State) (w : RunWork) : State :=
  match w.slot with
  | none => s
  | some (crew, k) =>
    s.modCrew crew (fun c => { c with sram := Memory.writeBytes c.sram (0x100 + 16 * k) (List.replicate 16 0) })

/-- The statuses of a forwarded command's parts, this device's `st` among them, by ascending device address. -/
def partStatuses (self : Nat) (st : Status) (parts : List (Nat × List Byte)) : List (Nat × Status) :=
  Tbl.put (parts.map (fun e => (e.1, statusOf (field e.2 2 1)))) self st

/-- The lowest device address whose part failed before execution, with the part's status (R267). -/
def firstRefusal (self : Nat) (st : Status) (parts : List (Nat × List Byte)) : Option (Nat × Status) :=
  (partStatuses self st parts).find? (fun e => statusRank e.2 == 0)

/-- Merge the statuses of the parts (R267): the lowest address that failed before execution decides, else R176. -/
def mergeParts (self : Nat) (st : Status) (parts : List (Nat × List Byte)) : Status :=
  match firstRefusal self st parts with
  | some e => e.2
  | none => parts.foldl (fun x e => worse x (statusOf (field e.2 2 1))) st

/-- RESULT0 and RESULT1 of a merged reply (R267, R269, R270): counts are summed; a failed PITCH_BEGIN names the member that
decided (`by'`); SHARD_MISSING gives the total, and the lowest index on the lowest-addressed member that has one. -/
def mergeResults (op self by' : Nat) (st final : Status) (r0 r1 : Nat) (parts : List (Nat × List Byte)) : Nat × Nat :=
  let sum (off : Nat) : Nat := sumNat (parts.map (fun e => field e.2 off 4))
  if parts = [] then (r0, r1)
  else if op = 0x20 ∨ op = 0x38 then (r0 + sum 8, r1 + sum 12)
  else if op = 0x22 then (r0, r1 + sum 12)
  else if op = 0x10 ∧ statusRank final = 0 then (r0, by')
  else if op = 0x12 ∧ final = .shardMissing then
    let theirs := parts.filterMap (fun e =>
      if statusOf (field e.2 2 1) = .shardMissing ∧ field e.2 8 4 ≠ 0 then some (e.1, field e.2 8 4, field e.2 12 4) else none)
    match if st = .shardMissing ∧ r0 ≠ 0 then Tbl.put theirs self (r0, r1) else theirs with
    | [] => (0, 0)
    | (a, n, i) :: t => (n + sumNat (t.map (fun x => x.2.1)), i % 2 ^ 20 + 2 ^ 20 * a)
  else (r0, r1)

/-- The status of a command whose parts are in, and the device that decided it. -/
def State.outcomeOf (s : State) (c : Cmd) (st : Status) : Status × Nat :=
  match firstRefusal s.self st c.merged with
  | some e => (e.2, e.1)
  | none => (mergeParts s.self st c.merged, s.self)

/-! ## What takes hold at completion (R177, R182, R184) -/

/-- CTX_OPEN takes hold (R186): the generation count, the statistics slots and the open batch are cleared; the first open context
makes the device ACTIVE (R182). -/
def State.openCtx (s : State) (c : Nat) : State :=
  let s := s.setCtx c { Ctx.reset with st := .opened }
  { s with dev := { s.dev with st := if s.dev.st = DevState.ready then DevState.active else s.dev.st } }

/-- CTX_CLOSE takes hold (R187 step 4): the last one makes the device READY (R182). -/
def State.shutCtx (s : State) (c : Nat) : State :=
  let s := s.modCtx c (fun x => { Ctx.reset with slots := x.slots })
  { s with dev := { s.dev with st :=
      if s.dev.st = .active && (List.range 16).all (fun k => (s.ctx k).st = .closed) then .ready else s.dev.st } }

/-- The state that a command leaves its context in when it completes with OK: PITCHING after PITCH_BEGIN, whose timer starts
(R160), committed after PITCH_COMMIT, LIVE after SWING; a closing context stays so. -/
def Ctx.advance (op : Nat) (x : Ctx) : Ctx :=
  let go (st : CtxState) : CtxState := if x.st = .closing then .closing else st
  if op = 0x10 then
    { x with st := go .pitching, abortMark := false, pitch := x.pitch.map (fun p => { p with begun := true, timerOn := true }) }
  else if op = 0x12 then { x with st := go .committed }
  else if op = 0x14 then { x with st := go .live }
  else x

/-- The effect that a command has on the device and its context when it completes with OK (R177: accepted at completion). -/
def State.takeHold (s : State) (op c : Nat) : State :=
  if op = 0x08 then s.openCtx c
  else if op = 0x09 then s.shutCtx c
  else if op = 0x10 ∨ op = 0x12 ∨ op = 0x14 then s.modCtx c (Ctx.advance op)
  else s

def Msg.ctx (m : Msg) : Nat := bitsOf m.ctxcls.toNat 0 4

/-- A message is one of a command's, of some kinds. -/
def Msg.serves (m : Msg) (kinds : List Nat) (c : Cmd) : Bool :=
  kinds.contains m.kind && decide (m.tag = c.ref.tag) && m.ctx == ctxOf c.ref.q c.pkt

/-- A GROUP_STATUS. -/
def Work.isReport : Work → Bool
  | .groupStatus _ _ => true
  | _ => false

/-- A command completes: the held copies of its messages are released (R255), of a GROUP_STATUS its requests; and what it expected is
expected no more. -/
def State.releaseHeld (s : State) (c : Cmd) : State :=
  { s with group := { s.group with
    held := s.group.held.filter (fun m => !m.serves [1, 3, 4] c
      && !(m.kind == 8 && decide (m.tag = c.ref.tag) && c.work.isReport && m.payload == Config.ctrlPayload 4 []))
    expects := s.group.expects.filter (fun e => !e.msg.serves [2, 3, 4] c)
    rx := s.group.rx.filter (fun m => !m.serves [3, 4] c) } }

/-- Statuses that leave the whole output range unspecified (R231). -/
def spoils (st : Status) : Bool := [Status.parity, .checkFail, .digestBad, .timeout, .fault].contains st

/-- The part of a command's output range that lies on this device, and its length: of a dispatched RUN or RUN_BOW, of a
COLLECTIVE that this device receives. -/
def State.outRange (s : State) (c : Cmd) : Option (Addr × Nat) :=
  match c.work with
  | .run w =>
    if w.trim.isSome || !w.dispatched || s.addrDev c.pkt.resultAddr ≠ s.self then none
    else (s.localAddr c.pkt.resultAddr).map (fun a => (a, w.layer.runOut c.pkt))
  | .coll _ _ =>
    if (s.collTo c.pkt).contains s.self then
      (s.localAddr c.pkt.resultAddr).map (fun a => (a, c.pkt.length * (s.collFrom c.pkt).length))
    else none
  | _ => none

/-- A failed command leaves its output range unspecified (R231; log entry 20). -/
def State.spoil (s : State) (c : Cmd) (st : Status) : State :=
  if !spoils st then s
  else match s.outRange c with
    | none => s
    | some (a, n) =>
      let bs := (List.range n).map (fun i => Config.freeByte i s.free)
      { s.writeAt (ctxOf c.ref.q c.pkt) a bs with free := s.free + 1 }

/-- Complete a command: status, modifiers, results. A forwarded command waits for the parts of its members and then merges
them (R267); a failure elsewhere leaves the output range here unspecified too (R231). A reply decided before execution, or
OK_EMPTY, carries no modifier (R176). -/
def State.complete (s : State) (c : Cmd) (st : Status) (r0 r1 : Nat) : State :=
  if c.parts ≠ [] then s.updCmd c.ref (fun d => { d with localEnd := some (st, r0, r1) })
  else
    let (final, by') := s.outcomeOf c st
    let m := if statusRank final = 0 ∨ final = .okEmpty then 0
             else c.merged.foldl (fun x e => x ||| bitsOf (field e.2 3 1) 0 3) (modBits c.sat c.folded c.patched)
    let r := mergeResults c.pkt.opcode s.self by' st final r0 r1 c.merged
    let s := if c.merged = [] then s else { (if spoils st then s else s.spoil c final) with free := s.free + 1 }
    let s := if final = .ok then s.takeHold c.pkt.opcode (ctxOf c.ref.q c.pkt) else s
    ((s.dropCmd c.ref).releaseHeld c).replyGen c.gen c.ref.q c.pkt final m r.1 r.2

/-- Begin a command record with the next place in the acceptance order (R178). -/
def mkCmd (s : State) (q : QueueId) (p : Packet) (blocks : Bool) (w : Work) : Cmd :=
  { ref := ⟨q, p.tag⟩, pkt := p, seq := s.seq, blocks := blocks, gen := 0, outcome := .ok, sat := false, folded := false,
    patched := false, replays := 0, written := 0, ended := false, work := w, parts := [], merged := [], localEnd := none }

/-- Accept a command: it joins the commands in flight. -/
def State.enrol (s : State) (c : Cmd) : State := { s with cmds := s.cmds ++ [c], seq := s.seq + 1 }

/-- Accept and complete at once (an effect that takes hold within the row). -/
def State.done (s : State) (q : QueueId) (p : Packet) (st : Status) (r0 r1 : Nat) : State :=
  { (s.reply q p st 0 r0 r1) with seq := s.seq + 1 }

/-! ## Generations, bindings, pool pages -/

/-- Generation `g` is later than `h` (R151): sequence comparison over 65,535 values. -/
def genLater (g h : Nat) : Bool :=
  let d := (g + 65535 - h % 65535) % 65535
  1 ≤ d && d ≤ 32767

/-- The next generation number (R151): 0xFFFF is followed by 1. -/
def genNext (g : Nat) : Nat := if g = 0xFFFF then 1 else g + 1

def Ctx.generation (x : Ctx) (g : Nat) : Option Generation := x.gens.find? (fun y => y.gen == g)

/-- The binding record of logical array l on a plane (R117): 8 bytes of the control page. -/
def Crew.binding (c : Crew) (l : Nat) (plane : Bool) : List Byte :=
  Memory.readBytes c.sram ((2 * l + (if plane then 1 else 0)) * 8) 8

def bndValid (b : List Byte) : Bool := bitOf (field b 2 1) 7
def bndCtx (b : List Byte) : Nat := bitsOf (field b 2 1) 0 4
def bndSums (b : List Byte) : Nat := field b 0 1
def bndRows (b : List Byte) : Nat := field b 1 1
def bndCols (b : List Byte) : Nat := field b 4 2
def bndGen (b : List Byte) : Nat := field b 6 2

def Crew.setBinding (c : Crew) (l : Nat) (plane : Bool) (b : List Byte) : Crew :=
  { c with sram := Memory.writeBytes c.sram ((2 * l + (if plane then 1 else 0)) * 8) b }

/-- Free pool pages (R136). -/
def Crew.freePages (c : Crew) : Nat := 239 - c.pages.length

/-- The patch list of a logical array on a plane (R104, R114): its valid entries, 8 bytes each. -/
def Crew.patches (c : Crew) (l : Nat) (plane : Bool) : List (List Byte) :=
  ((List.range 64).map (fun i => Memory.readBytes c.sram (0x400 * (1 + l) + (if plane then 0x200 else 0) + 8 * i) 8)).filter
    (fun e => bitOf (field e 2 2) 15)

def Crew.setPatches (c : Crew) (l : Nat) (plane : Bool) (es : List (List Byte)) : Crew :=
  { c with
      sram := Memory.writeBytes c.sram (0x400 * (1 + l) + (if plane then 0x200 else 0))
        ((es.flatten ++ List.replicate 512 0).take 512) }

/-- The generation bound on the ground plane of an array, if it is bound. -/
def State.groundBinding (s : State) (a : Nat) : List Byte :=
  (s.crew (a / 17)).binding (s.logicalArr a) (s.arr a).ground

/-- The placement of a plane of an array: context, generation, assignment and layer record. -/
def State.placeOf (s : State) (a : Nat) (plane : Bool) : Option (Nat × Generation × Assign × Layer) :=
  let b := (s.crew (a / 17)).binding (s.logicalArr a) plane
  if !bndValid b then none else
  match (s.ctx (bndCtx b)).generation (bndGen b) with
  | none => none
  | some g =>
    match g.assigns.find? (fun x => x.crew == a / 17 && x.l == s.logicalArr a && x.plane == plane) with
    | none => none
    | some x => match g.man.layers[x.layer]? with
      | none => none
      | some ly => some (bndCtx b, g, x, ly)

/-- The contexts that hold an array: bound on either plane, or taken by the admission of a pitch (R197, R35). -/
def State.holders (s : State) (a : Nat) : List Nat :=
  (List.range 16).filter (fun c =>
    let x := s.ctx c
    x.gens.any (fun g => g.assigns.any (fun y => y.crew == a / 17 && y.l == s.logicalArr a))
    || (match x.pitch with
        | some p => p.g.assigns.any (fun y => y.crew == a / 17 && y.l == s.logicalArr a)
        | none => false))

/-- The array belongs to a context that is not CLOSED. -/
def State.held (s : State) (a : Nat) : Bool :=
  !s.isSpare a && (s.holders a).any (fun c => (s.ctx c).st ≠ .closed)

/-- Pairs reserved in the whole device (R210). -/
def State.pairs (s : State) : List (Nat × Nat) := (List.range 16).flatMap (fun c => (s.ctx c).pairs)

/-- HBM granules in use on each stack (R154, R333). -/
def Ctx.used0 (x : Ctx) : Nat :=
  x.w0 + sumNat (x.gens.map (·.h0)) + (match x.pitch with | some p => p.g.h0 + p.s0 | none => 0)
def Ctx.used1 (x : Ctx) : Nat :=
  x.w1 + sumNat (x.gens.map (·.h1)) + (match x.pitch with | some p => p.g.h1 + p.s1 | none => 0)
def State.free0 (s : State) : Nat := 12032 - sumNat ((List.range 16).map (fun c => (s.ctx c).used0))
def State.free1 (s : State) : Nat := 12288 - sumNat ((List.range 16).map (fun c => (s.ctx c).used1))

/-! ## Errors in HBM data (R223) -/

/-- An entry of a list of dwords in error lies in a range. -/
def badIn (l : List (Nat × ParityErr)) (off n : Nat) : Option ParityErr :=
  (l.find? (fun e => off < e.1 + 4 && e.1 < off + n)).map (·.2)

/-- The error that a read of working space meets: one found now, or one found in the same dword before. -/
def State.workErr (s : State) (c off n : Nat) (err : Option ParityErr) : Option ParityErr := err.or (badIn (s.ctx c).bad off n)

/-- The dword, within a range read, in which a stack found an error (log entry 112). -/
def badDword (e : ParityErr) (off n : Nat) : Nat :=
  off + Config.hbmOwner (bitsOf e.hop.toNat 0 12) e.addr.toNat % max 1 n / 4 * 4

/-- An error that the controller of a stack finds in working space lasts until the dword is written again. -/
def State.noteWork (s : State) (c off n : Nat) (e : ParityErr) : State :=
  if bitsOf e.hop.toNat 12 4 ≠ 7 || (badIn (s.ctx c).bad off n).isSome then s
  else s.modCtx c (fun x => { x with bad := (badDword e off n, e) :: x.bad })

/-- The range, of those read one after the other, that holds the place of an error. -/
def rangeAt : List (Nat × Nat) → Nat → Option (Nat × Nat)
  | [], _ => none
  | r :: t, k => if k < r.2 then some r else rangeAt t (k - r.2)

/-- An error found in a read of several ranges of working space lasts in the one that holds it (log entry 112). -/
def State.noteReads (s : State) (c : Nat) (rs : List (Nat × Nat)) (e : ParityErr) : State :=
  if bitsOf e.hop.toNat 12 4 ≠ 7 then s
  else
    let k := Config.hbmOwner (bitsOf e.hop.toNat 0 12) e.addr.toNat % max 1 (sumNat (rs.map (·.2)))
    (rangeAt rs k).elim s (fun r => s.noteWork c r.1 r.2 e)

/-- The error met before that recurs in a read of several ranges. -/
def State.readErr (s : State) (c : Nat) (rs : List (Nat × Nat)) : Option ParityErr :=
  rs.findSome? (fun r => badIn (s.ctx c).bad r.1 r.2)

/-- The same in the bivouac bytes of a generation: until the layer is pitched again. -/
def Generation.noteBad (off n : Nat) (e : ParityErr) (g : Generation) : Generation :=
  if bitsOf e.hop.toNat 12 4 ≠ 7 || (badIn g.bad off n).isSome then g else { g with bad := (badDword e off n, e) :: g.bad }
def State.noteBiv (s : State) (c gen off n : Nat) (e : ParityErr) : State :=
  s.modCtx c (fun x => { x with gens := x.gens.map (fun g => if g.gen = gen then g.noteBad off n e else g) })

/-! ## Tokens (R302, R304) -/

/-- A pool less 20 % for each kelvin above 125 degC (R305); the reading is in 1/16 degC. -/
def hotPool (pool : Nat) (t : Int) : Nat :=
  if t ≤ 2000 then pool else pool * (80 - (t - 2000).toNat) / 80

/-- The hottest die sensor. -/
def Tel.hottest (t : Tel) : Int := t.temps.foldl (fun m x => max m x.toInt) (-32768)

/-- A new reading of the hottest sensor (R305): HOT, and what is left of the pool. -/
def Gov.heat (g : Gov) (t : Int) : Gov := { g with hot := decide (2000 < t), pool := hotPool g.poolFull t - g.poolUsed }

/-- A request of a class waits for tokens (R309). -/
def Gov.wait (g : Gov) (stern : Bool) : Gov := if stern then { g with stern := true } else { g with eng := true, engWaited := true }

/-- Draw pool tokens for engine work, or within the stern allowance; false where they are short, or a transfer of the class waits
for its own. -/
def Gov.drawPool (g : Gov) (stern : Bool) (n : Nat) : Gov × Bool :=
  if stern then
    if g.owedStern = 0 ∧ n ≤ g.sternAllow ∧ n ≤ g.pool then
      ({ g with
          pool := g.pool - n, poolUsed := g.poolUsed + n, sternAllow := g.sternAllow - n, drawn := g.drawn + n }, true)
    else (g.wait true, false)
  else if g.owedEng = 0 ∧ n ≤ g.pool then
    ({ g with pool := g.pool - n, poolUsed := g.poolUsed + n, engDrawn := g.engDrawn + n, drawn := g.drawn + n }, true)
  else (g.wait false, false)

/-- A replay is granted even when the pool is short; the deficit comes from the next epoch's pool. -/
def Gov.drawReplay (g : Gov) (n : Nat) : Gov :=
  { g with pool := g.pool - n, poolUsed := g.poolUsed + n, deficit := g.deficit + (n - g.pool), drawn := g.drawn + n }

/-- Tokens of an HBM transfer (R302). -/
def hbmTokens (bytes : Nat) : Nat := 60 * ceilDiv bytes 1024

/-- The tokens of a transfer under way: what the pool has, within the stern allowance for a stern-class one, is drawn at once, and the
rest of the transfer waits for later grants (R304; log entry 50). -/
def Gov.chargePool (g : Gov) (stern : Bool) (n : Nat) : Gov :=
  let k := min n (if stern then min g.sternAllow g.pool else g.pool)
  let g := { g with pool := g.pool - k, poolUsed := g.poolUsed + k, drawn := g.drawn + k }
  if stern then { g with sternAllow := g.sternAllow - k, owedStern := g.owedStern + (n - k), stern := g.stern || decide (k < n) }
  else
    { g with
      engDrawn := g.engDrawn + k, owedEng := g.owedEng + (n - k), eng := g.eng || decide (k < n)
      engWaited := g.engWaited || decide (k < n) }

/-- Draw write tokens for slots under way: what the allowance has is drawn at once, the rest is owed (R304; log entry 50). -/
def Gov.chargeWrite (g : Gov) (n : Nat) : Gov :=
  let k := min n g.wrAllow
  { g with
    wrAllow := g.wrAllow - k, wrAsked := g.wrAsked + k, drawn := g.drawn + k, owedWr := g.owedWr + (n - k)
    write := g.write || decide (k < n) }

/-- A new pool and a new write allowance grant what waits, engine class before write and stern class (R304). -/
def Gov.payOwed (g : Gov) : Gov :=
  let e := g.owedEng
  let w := g.owedWr
  let t := g.owedStern
  ((({ g with owedEng := 0, owedWr := 0, owedStern := 0 }.chargePool false e).chargeWrite w)).chargePool true t

/-- An HBM transfer: each powered stack reports the errors that its ECC corrected (R333; log entry 88). -/
def State.eccReport (s : State) : State :=
  { s with tel := { s.tel with
      hbmCount := s.tel.hbmCount + 1
      hbmEcc := s.tel.hbmEcc.zipIdx.map (fun e =>
        if bitOf (envStacks s.env.env) e.2 then BitVec.ofNat 32 (satAdd 32 e.1.toNat (Config.freeEcc e.2 s.tel.hbmCount)) else e.1) } }

/-- The pool takes a transfer of a class: its first KiB can be granted. -/
def State.hbmOpen (s : State) (stern : Bool) : Bool := (s.gov.drawPool stern 60).2

/-- A transfer of a class waits for a later pool (R304, R309). -/
def State.hbmWait (s : State) (stern : Bool) : State := { s with gov := s.gov.wait stern }

/-- The tokens of an HBM transfer that has started: a row whose transfer waits does nothing (State.hbmOpen). The first KiB is granted,
and the tokens of the rest follow as the transfer goes on (log entry 50). -/
def State.chargeHbm (s : State) (stern : Bool) (bytes : Nat) : State :=
  { s with gov := s.gov.chargePool stern (hbmTokens bytes) }.eccReport

/-- An HBM transfer that waits for its tokens: the second part tells whether it is made. It starts when its first KiB is granted,
and the tokens of the rest follow as the transfer goes on (log entry 50). -/
def State.drawHbm (s : State) (stern : Bool) (bytes : Nat) : State × Bool :=
  if bytes = 0 then (s, true)
  else
    if s.hbmOpen stern then (s.chargeHbm stern bytes, true) else (s.hbmWait stern, false)

/-- Bow-class strokes draw on the reserve and never wait. -/
def Gov.drawBow (g : Gov) (n : Nat) : Gov := { g with drawn := g.drawn + n }

/-- Draw write tokens; the request is counted for the next epoch's allowance. -/
def Gov.drawWrite (g : Gov) (n : Nat) : Gov × Bool :=
  if n ≤ g.wrAllow then ({ g with wrAllow := g.wrAllow - n, wrAsked := g.wrAsked + n, drawn := g.drawn + n }, true)
  else ({ g with write := true, wrAsked := g.wrAsked + n }, false)

/-! ## Context resources: abort of a pitch, benching, closing -/

/-- Clear and free the pool pages of a generation of context `c` in one crew (R116). -/
def Crew.dropPages (c gen : Nat) (x : Crew) : Crew :=
  let mine := x.pages.filter (fun e => e.2.1 = c ∧ e.2.2 = gen)
  { x with
    pages := x.pages.filter (fun e => !(e.2.1 = c ∧ e.2.2 = gen)),
    sram := mine.foldl (fun m e => Memory.writeBytes m (0x400 * e.1) (List.replicate 1024 0)) x.sram }

/-- Clear the binding record of an assignment, and its patch list where asked (R117, R161). -/
def Crew.unbind (c gen : Nat) (patchesToo : Bool) (y : Assign) (x : Crew) : Crew :=
  let b := x.binding y.l y.plane
  let x := if bndGen b = gen ∧ bndCtx b = c then x.setBinding y.l y.plane (List.replicate 8 0) else x
  if patchesToo then x.setPatches y.l y.plane [] else x

/-- Clear and free the pool pages of a context's generation in every crew, with the binding records of its placement
(R116, R117), and the fly patch lists of an aborted one (R161). -/
def State.freePages (s : State) (c gen : Nat) (assigns : List Assign) (patchesToo : Bool) : State :=
  let s := s.eachCrew (Crew.dropPages c gen)
  s.each assigns (fun s y => s.modCrew y.crew (Crew.unbind c gen patchesToo y))

/-- The fly plane of an aborted pitch: unspecified content (log entry 10). -/
def Arr.unpitch (plane : Bool) (a : Arr) : Arr :=
  { (a.setPlane plane Plane.reset) with prog := none, verify := 0 }

/-- A context after the abort of a pitch: the working granules that the pitch added are freed and cleared (R116). A pitch whose
PITCH_BEGIN has not completed leaves no trace (R151, R153). -/
def Ctx.abort (p : Pitch) (mark : Bool) (x : Ctx) : Ctx :=
  { x with
    pitch := none, aborted := if p.begun then p.g.gen else x.aborted, abortMark := if p.begun then mark else x.abortMark
    w0 := x.w0 - p.a0, w1 := x.w1 - p.a1,
    work := x.work.filter (fun e => e.1 < (x.w0 - p.a0 + (x.w1 - p.a1)) * 2 ^ 21)
    bad := x.bad.filter (fun e => e.1 < (x.w0 - p.a0 + (x.w1 - p.a1)) * 2 ^ 21)
    st := if x.st = .closing then .closing else if x.live = 0 then .opened else .live }

/-- An array of a reserved crew is in a bow entry of the context that holds the crew (R208). -/
def State.inEntry (s : State) (crew l : Nat) : Bool :=
  match (s.crew crew).resv with
  | none => false
  | some r =>
    let x := s.ctx r.ctx
    (x.gens ++ (match x.pitch with | some p => [p.g] | none => [])).any (fun g =>
      g.assigns.any (fun y => y.crew == crew && y.l == l))

/-- An array that has left its last bow entry is no standby array (R208). -/
def Crew.dropRole (l : Nat) (x : Crew) : Crew :=
  { x with resv := x.resv.map (fun r => { r with standby := r.standby &&& ~~~ BitVec.ofNat 16 (2 ^ l) }) }
def State.dropRoles (s : State) (ys : List Assign) : State :=
  s.each ys (fun s y => if s.inEntry y.crew y.l then s else s.modCrew y.crew (Crew.dropRole y.l))

/-- Abort a pitch (R161): programming stops, the new generation's resources are freed and cleared, the staging slots lose
their backing; the context returns to LIVE or OPEN. The fly planes' content is unspecified until the next pitch. -/
def State.abortPitch (s : State) (c : Nat) (mark : Bool) : State :=
  match (s.ctx c).pitch with
  | none => s
  | some p =>
    let s := s.freePages c p.g.gen p.g.assigns true
    let s := s.each p.g.assigns (fun s y => s.modArr (s.physArr y.crew y.l) (Arr.unpitch y.plane))
    (s.modCtx c (Ctx.abort p mark)).dropRoles p.g.assigns

/-- A command came through a queue of context `c`. -/
def Cmd.inContext (c : Nat) (x : Cmd) : Bool := decide (qCtx x.ref.q = some c)

/-- A command is a PITCH_SHARD of context `c`. -/
def Cmd.isShard (c : Nat) (x : Cmd) : Bool :=
  decide (qCtx x.ref.q = some c) && (match x.work with | .shard _ => true | _ => false)

/-- RESULT0 and RESULT1 of a command that ends early (R191): what it has written, and its replays; the steps done of a RETRIM_STEP, the
index of a PITCH_SHARD, the arrays treated of a REFRESH or CENSUS. -/
def Cmd.results (c : Cmd) : Nat × Nat :=
  match c.work with
  | .run w => match w.trim with | some t => (t.done, 0) | none => (c.written, min 0xFFFF c.replays)
  | .coll _ _ => (c.written, c.replays)
  | .shard i => (i, 0)
  | .arrays left n => (n - left.length, 0)
  | _ => (c.written, 0)

/-- Complete a command that is still in flight. -/
def State.completeIf (s : State) (r : CmdRef) (st : Status) (r0 r1 : Nat) : State :=
  match s.cmd? r with
  | some c => s.complete c st r0 r1
  | none => s

/-- End the PITCH_SHARD in execution, the PITCH_COMMIT in waiting and the PITCH_SHARD commands not started of an aborted
pitch of context `c`; a PITCH_BEGIN that has not completed ends like the PITCH_SHARD. -/
def State.endPitchCmds (s : State) (c : Nat) (p : Pitch) (shardSt commitSt waitSt : Status) : State :=
  let s := match p.exec.bind s.cmd? with
    | some x => s.complete x shardSt x.results.1 0
    | none => s
  let s := match p.commit.bind s.cmd? with
    | some x => s.complete x commitSt 0 0
    | none => s
  let s := s.each (s.cmds.filter (fun x => x.inContext c && x.pkt.opcode == 0x10)) (fun s x => s.complete x shardSt 0 0)
  s.each (s.cmds.filter (Cmd.isShard c)) (fun s x => s.complete x waitSt x.results.1 0)

/-- A RUN or RUN_BOW in flight needs a crew: its layer is placed there in its generation. A replicated RUN that has been
dispatched needs only the crews of replica 0, the home of its work counter (R132, R234). -/
def State.needsCrew (s : State) (c : Cmd) (crew : Nat) : Bool :=
  match c.work with
  | .run w =>
    match (s.ctx (ctxOf c.ref.q c.pkt)).generation c.gen with
    | some g => g.assigns.any (fun y => y.layer == w.idx && y.crew == crew
        && (w.layer.nrep ≤ 1 || !w.dispatched || plReplica (g.man.places.getD y.entry []) == 0))
    | none => false
  | _ => false

/-- The work of a REFRESH or CENSUS once array `a` is treated; and without it where it is left untreated, which RESULT0 does not count
(R191). -/
def Work.without (a : Nat) : Work → Work
  | .arrays left n => .arrays (left.filter (· ≠ a)) n
  | w => w
def Work.skip (a : Nat) : Work → Work
  | .arrays left n => if left.contains a then .arrays (left.filter (· ≠ a)) (n - 1) else .arrays left n
  | w => w

/-- The work of the commands of opcode `op` (REFRESH 0x33, CENSUS 0x34) changes: those that wait for no further array complete (R100,
R103). -/
def State.arrayOut (s : State) (op : Nat) (f : Work → Work) : State :=
  let s := { s with cmds := s.cmds.map (fun (c : Cmd) => if c.pkt.opcode = op then { c with work := f c.work } else c) }
  s.each (s.cmds.filter (fun (c : Cmd) => c.pkt.opcode = op)) (fun s c =>
    match c.work with
    | .arrays [] n => s.complete c c.outcome n 0
    | _ => s)

/-- The treatment of array `a` under an opcode has ended. -/
def State.arrayDone (s : State) (op a : Nat) : State := s.arrayOut op (Work.without a)

/-- Every treatment of array `a` ends, started or queued; the array is left untreated. -/
def State.untreat (s : State) (a : Nat) : State :=
  let s := { s with censusQ := s.censusQ.filter (· ≠ a), refreshQ := s.refreshQ.filter (· ≠ a) }
  (s.arrayOut 0x33 (Work.skip a)).arrayOut 0x34 (Work.skip a)

/-- A REFRESH or CENSUS in execution needs array `a`: it completes with CHECK_FAIL (R234). -/
def Cmd.missArray (a : Nat) (c : Cmd) : Cmd :=
  match c.work with
  | .arrays left _ => if left.contains a then { c with outcome := worse c.outcome .checkFail } else c
  | _ => c

/-- The arrays and tiles of a benched crew stop. -/
def Arr.bench (a : Arr) : Arr :=
  { a with
      jobs := [], replays := [], shots := [], warm := [], prog := none, refresh := false, census := false, maint := Maint.reset
      verify := 0 }
def Crew.bench (cause : Nat) (c : Crew) : Crew :=
  { c with benched := true, cause := BitVec.ofNat 4 cause, tiles := [], comb := [], combVecs := [] }

/-- Bench a crew (R233, R234): it stops; commands that need it end with CHECK_FAIL; unswung pitches on it are aborted. -/
def State.bench (s : State) (crew cause : Nat) : State :=
  if (s.crew crew).benched then s else
  let s := s.modCrew crew (Crew.bench cause)
  let s := s.emit 0x09 { loc := [crewDie crew, crew], data := leBytes 1 cause }
  let s := s.each s.cmds (fun s c => if s.needsCrew c crew then s.failCmd c.ref .checkFail else s)
  let s := s.each (List.range 17) (fun s m =>
    ({ s with cmds := s.cmds.map (Cmd.missArray (arrIdx crew m)) }.modArr (arrIdx crew m) Arr.bench).untreat (arrIdx crew m))
  s.each (List.range 16) (fun s c =>
    match (s.ctx c).pitch with
    | some p =>
      if p.g.assigns.any (fun y => y.crew == crew) then
        (s.abortPitch c true).endPitchCmds c p .checkFail .checkFail .shardMissing
      else s
    | none => s)

/-- A parity event in a crew is counted (R235). -/
def Crew.countParity (x : Crew) : Crew := { x with parn := BitVec.ofNat 8 (satAdd 8 x.parn.toNat 1) }

/-- A parity event in a crew's SRAM or combiner (R223, R235); the third within 1 s benches the crew (R233 cause 2). -/
def State.crewParity (s : State) (crew : Nat) : State :=
  let now := s.dev.timeBase.toNat
  let s := s.modCrew crew (fun x => { x.countParity with parTimes := (now :: x.parTimes).take 3 })
  match (s.crew crew).parTimes with
  | [t2, _, t0] => if t2 ≤ t0 + 1000000000 then s.bench crew 2 else s
  | _ => s

/-- The structures of R356 that lie in a crew: its SRAM, its combiner memory, output assembly and combiner arithmetic. -/
def crewHop (k : Nat) : Bool := k == 4 || k == 5 || k == 8

/-- Where a detecting structure lies (R239 key 10): die and crew of a crew's, the die of a router, a die buffer or a VE. -/
def hopLoc (k i : Nat) : List Nat :=
  if crewHop k then [crewDie i, i] else if k == 2 then (if i = 0 then [] else [i - 1]) else if k == 3 then [i]
  else if k == 6 || k == 9 then [i / 8] else []

/-- A parity error in a word of a command (R223, R356): the counters of the detecting structure, and a signature. -/
def State.parityNote (s : State) (ctx : Option Nat) (tag : Option Nat) (e : ParityErr) : State :=
  let i := bitsOf e.hop.toNat 0 12
  let s := match bitsOf e.hop.toNat 12 4 with
    | 2 => { s with tel := { s.tel with
        nocParErr := setAt s.tel.nocParErr i
          (BitVec.ofNat 32 (satAdd 32 (s.tel.nocParErr.getD i 0).toNat 1)) } }
    | 7 => { s with tel := { s.tel with
        hbmParErr := setAt s.tel.hbmParErr i
          (BitVec.ofNat 32 (satAdd 32 (s.tel.hbmParErr.getD i 0).toNat 1)) } }
    | 9 => s.modVe i (fun v => { v with resErr := BitVec.ofNat 32 (satAdd 32 v.resErr.toNat 1) })
    | _ => s
  s.emit 0x01
    { ctx := ctx, tag := tag, status := some 0x22, loc := hopLoc (bitsOf e.hop.toNat 12 4) i
      data := leBytes 2 e.hop.toNat ++ leBytes 8 e.addr.toNat }

/-- An error that a crew's structure found counts towards benching (R233, R235); hop 0x8 is taken for the combiner's arithmetic (log
entry 128). -/
def State.parityCrew (s : State) (e : ParityErr) : State :=
  if crewHop (bitsOf e.hop.toNat 12 4) then s.crewParity (bitsOf e.hop.toNat 0 12) else s

/-- A parity error ends its command with PARITY (R223). -/
def State.parityError (s : State) (r : CmdRef) (e : ParityErr) : State :=
  ((s.parityNote (qCtx r.q) (some r.tag.toNat) e).failCmd r .parity).parityCrew e

/-- A mismatch in output assembly, a unit of its own beside SRAM and combiner: it ends its command and counts in PARN, and not towards
benching (R223, R233, R235; log entry 128). -/
def State.assemblyError (s : State) (r : CmdRef) (crew : Nat) (e : ParityErr) : State :=
  ((s.parityNote (qCtx r.q) (some r.tag.toNat) e).failCmd r .parity).modCrew crew Crew.countParity

/-! ## Safe state (R244 to R246) -/

/-- Close the bypass of both pairs: the ports go down (R262, R276). -/
def Port.close (p : Port) : Port :=
  { p with
      up := false, bypass := true, training := false,
      downs := if p.up then BitVec.ofNat 8 (satAdd 8 p.downs.toNat 1) else p.downs }

def State.closeBypasses (s : State) : State := s.each (List.range 4) (fun s p => s.modPort p Port.close)

/-- The rings of this device are DEGRADED when its bypasses close: it leaves them (R266). -/
def State.leaveRings (s : State) : State :=
  s.each (List.range 2) (fun s pair =>
    if s.member && (!(s.port (2 * pair)).bypass || !(s.port (2 * pair + 1)).bypass) then s.fall pair else s)

def Arr.halt (a : Arr) : Arr :=
  { a with
      jobs := [], replays := [], shots := [], warm := [], refresh := false, census := false, prog := none, verify := 0 }
/-- Row mode ends when a condition of R47 arises: EN is cleared and REFUSED set. -/
def Sine.refuse (x : Sine) : Sine := if x.en then { x with en := false, refused := true } else x
def Crew.halt (c : Crew) : Crew := { c with tiles := [], comb := [], combVecs := [], sine := c.sine.refuse }
def Ve.halt (v : Ve) : Ve := ({ v with ring := [], writes := [], tiles := [], regs := [] } : Ve).refresh

/-- Stop every array and VE and every background activity. -/
def State.stopWork (s : State) : State :=
  let s := ((s.eachArr Arr.halt).eachCrew Crew.halt).eachVe Ve.halt
  { s with parts := [], censusQ := [], refreshQ := [] }

/-- Complete every command in flight with FAULT, and a FENCE, whose predecessors so complete, with OK (R183). -/
def State.faultAll (s : State) : State :=
  let s' := s.each s.cmds (fun s c =>
    let s := ((s.spoil c .fault).dropCmd c.ref).releaseHeld c
    if c.work = .fence then s.replyGen c.gen c.ref.q c.pkt .ok 0 0 0
    else s.replyGen c.gen c.ref.q c.pkt .fault (modBits c.sat c.folded c.patched) c.results.1 c.results.2)
  { s' with cmds := [] }

/-- Enter SAFE (R246). A later cause is reported in a signature only (R245). -/
def State.enterSafe (s : State) (cause : Nat) (endpoint : Bool) : State :=
  if s.dev.st = .off then s
  else if s.dev.st = .safe then s.emit 0x16 { data := leBytes 1 cause }
  else
    let s := { s with dev := { s.dev with
        st := .safe, safeCause := BitVec.ofNat 8 cause, faultN := true, locked := true, endpointFault := endpoint } }
    let s := s.stopWork.leaveRings.closeBypasses
    let s := if endpoint then { s with cmds := [] } else s.faultAll
    let s := s.emit 0x16 { data := leBytes 1 cause }
    if (s.queue .admin).evt1 then s
    else (s.modQueue .admin (fun q => { q with evt1 := true })).raisePf 1

end Sys2Proof.Machine
end

