-- ==== Sys2Proof/Machine/Clock.lean ====
section
/-! DEFINITION. What one cycle of the management clock does: the time base (R292) and the sine phases (R44); the samples, row
codes and pin level that the phases give (R44, R45, R345), and the samples that BIST injects (R311). -/
namespace Sys2Proof.Machine

/-! ## The sine sample (R44) -/

/-- pi in units of 2^-64. -/
def piFix : Nat := 57952155664616982739

/-- The alternating series of the sine with next term `t` and index `k`; `x2` is the square of the angle (units of 2^-64). -/
def sinSeries (x2 : Nat) : Nat → Nat → Nat → Int
  | 0, _, _ => 0
  | n + 1, k, t => (t : Int) - sinSeries x2 n (k + 1) (t * x2 / 2 ^ 64 / ((2 * k + 2) * (2 * k + 3)))

/-- Q[i] = round(511 sin((i + 0.5) pi / 2048)): twelve terms leave an error below 2^-50, and no entry lies that near a half. -/
def quarterSine (i : Nat) : Nat :=
  let x := (2 * i + 1) * piFix / 4096
  ((511 * sinSeries (x * x / 2 ^ 64) 12 0 x + 2 ^ 63) / 2 ^ 64).toNat

/-- The 10-bit sample S at a phase. -/
def sineSample (p : BitVec 24) : Nat :=
  let q := bitsOf p.toNat 22 2
  let i := bitsOf p.toNat 12 10
  let v := quarterSine (if q = 1 ∨ q = 3 then 1023 - i else i)
  if q < 2 then 512 + v else 511 - v

/-- Sa: the sample scaled by AMP about 512 with an arithmetic shift. -/
def sineScaled (p : BitVec 24) (amp : BitVec 9) : Nat :=
  (512 + ((sineSample p : Int) - 512) * (amp.toNat : Int) / 256).toNat

/-! ## Row mode (R45) -/

/-- N, the driven rows: 64, 128, 256 or 512. -/
def Sine.rowCount (x : Sine) : Nat := 64 * 2 ^ x.rows.toNat

/-- The code of row `k` in a cycle whose phase is `p`: A = (Sa * 15 * N) >> 10 spread over the N rows; the others stay clamped. -/
def Sine.rowCode (x : Sine) (p : BitVec 24) (k : Nat) : Nat :=
  let n := x.rowCount
  if k < n then (sineScaled p x.amp * 15 * n / 1024 + k) / n else 0

/-- The phase `c` cycles of CLK_A on. -/
def Sine.phaseAt (x : Sine) (c : Nat) : BitVec 24 := x.phase + BitVec.ofNat 24 (c * x.ftw.toNat)

/-- What row `k` is driven with in cycle `c` of a test stroke: the generator's code itself with SLEWBYP = 1; else through the slew
limiter (R24), which updates every 2^RATE cycles from cycle 0 and holds between. -/
def Sine.rowDrive (x : Sine) (step rate k c : Nat) : Nat :=
  if x.slewByp then x.rowCode (x.phaseAt c) k
  else
    let u := c / 2 ^ rate
    min (x.rowCode (x.phaseAt (u * 2 ^ rate)) k) ((u + 1) * step)

/-- The sum of a row's codes over the 32 integration cycles of a test stroke that settles for `settle` cycles (R28). -/
def Sine.rowSum (x : Sine) (step rate settle k : Nat) : Nat :=
  sumNat ((List.range 32).map (fun c => x.rowDrive step rate k (settle + c)))

/-! ## TEST_AOUT (R47, R49, R345) -/

/-- The code on TEST_AOUT: none while the pin is high impedance, in OFF and RESET_HOLD; 512 while EN = 0; else the sample. -/
def State.testAout (s : State) : Option Nat :=
  if s.dev.st = .off ∨ s.dev.st = .resetHold then none
  else if s.cfg.sineEn then some (sineScaled s.cfg.sinePhase s.cfg.sineAmp) else some 512

/-- The level that a code drives, in volts: 0.100 V + Sa * 1.000 V / 1023. -/
def aoutVolts (code : Nat) : Rat := 1 / 10 + (code : Rat) / 1023

/-! ## The injected samples of BIST stage 4 (R311) -/

/-- FTW of the injection, and the sample of test stroke `k` of a pass: 64 CLK_A apart, so that the 65,536 strokes meet every phase
that is a multiple of 256 once. -/
def bistFtw : Nat := 0xA3D4
def injectedSample (k : Nat) : Nat := sineScaled (BitVec.ofNat 24 (64 * bistFtw * k)) 256

/-- The ideal code of an injected sample: round(1.024 (Sa - 8)) within 0 to 1023. -/
def injectedIdeal (sa : Nat) : Nat := (clampInt 0 1023 (roundEven (((sa : Int) - 8 : Int) * (128 / 125 : Rat)))).toNat

/-! ## The tick -/

/-- One sine phase advance of two CLK_A cycles (R44: the 24-bit accumulator adds FTW in every cycle; CLK_A is twice CLK_M, R9). -/
def Sine.tick (x : Sine) : Sine := { x with phase := x.phase + 2 * x.ftw }

/-- A verify slot that occupies an array is one cycle nearer to its end (R40). -/
def Arr.tick (x : Arr) : Arr := { x with verify := x.verify - 1 }

/-- One cycle of CLK_M. The time base counts 5 ns a cycle, 10 ns before the root PLL has locked (R292); it starts at the
release of the reset. CLK_A runs from lock (R291), in the crews that have power. -/
def State.tick (s : State) : State :=
  if !s.dev.released then s
  else
    let s := { s with dev := { s.dev with timeBase := s.dev.timeBase + (if s.dev.pllLocked then 5 else 10) } }
    if !s.dev.pllLocked then s
    else (({ s with cfg := { s.cfg with sinePhase := s.cfg.sinePhase + 2 * s.cfg.sineFtw } }).eachCrew (fun c =>
      { c with sine := c.sine.tick })).eachArr Arr.tick

end Sys2Proof.Machine
end

