-- ==== Sys2Proof/Machine/Tracking.lean ====
section
/-! DEFINITION. Lantern tracking, temperature feed-forward and the error model (R77 to R90, R96), the bow table's agreement
windows (R211), and the rows TEMP_SAMPLE, KAPPA_UPDATE, COLUMN_TRACK_FIT and TRACKING_RESET. -/
namespace Sys2Proof.Machine

/-! ## The trim record in use (R81) -/

/-- Offset of section `t` of a trim record, by its directory (R80). -/
def sectOff (r : List Byte) (t : Nat) : Nat :=
  match (List.range 5).find? (fun i => field r (64 + 16 * i) 2 == t) with
  | some i => field r (64 + 16 * i + 4) 4
  | none => 192

/-- TF at point `i` (0 to 33, from -40 degC in 5 K steps) of a die, and the scale s_a of an array. -/
def trimTf (r : List Byte) (die i : Nat) : Rat :=
  f16Q (BitVec.ofNat 16 (field r (sectOff r 5 + 68 * die + 2 * i) 2))
def trimScale (r : List Byte) (a : Nat) : Int := signedOf 8 (field r (sectOff r 5 + 272 + a) 1)
/-- The factory conductance (FP16) of lantern cell `k` of a plane. -/
def trimLantern (r : List Byte) (a plane k : Nat) : F16 :=
  BitVec.ofNat 16 (field r (sectOff r 4 + 32 * a + 16 * plane + 2 * k) 2)

/-- TF at temperature `t` (degC): linear between the points, extrapolated outside (R87). -/
def tfAt (r : List Byte) (die : Nat) (t : Rat) : Rat :=
  let x := (t + 40) / 5
  let i := (clampInt 0 32 x.floor).toNat
  trimTf r die i + (trimTf r die (i + 1) - trimTf r die i) * (x - (i : Rat))

/-- P(T) of an array (R87); 1 while no trim record is loaded. -/
def State.pFactor (s : State) (a : Nat) (t : Rat) : Rat :=
  if !s.env.trimLoaded then 1
  else 1 + (tfAt s.env.trim (crewDie (a / 17)) t - 1) * (1 + (trimScale s.env.trim a : Rat) / 256)

/-- T_now of an array's die in degC (R87): the latest sample, 1/16 degC. -/
def State.tNow (s : State) (a : Nat) : Rat :=
  ((s.tel.temps.getD (1 + crewDie (a / 17)) 0).toInt : Rat) / 16

/-- T_win (R87). -/
def Arr.tWin (x : Arr) : Rat := (x.tWinSum : Rat) / (16 * (x.tWinCnt : Rat))

def kLo : Rat := 7 / 10
def kHi : Rat := 13 / 10

/-- kappa_eff before the clamp (R87, R92: with EN = 0 it equals kappa). -/
def State.kEffRaw (s : State) (a : Nat) : Rat :=
  let x := s.arr a
  if s.cfg.trkEn then f32Q x.kappa * s.pFactor a (s.tNow a) / s.pFactor a x.tWin else f32Q x.kappa

def State.kEff (s : State) (a : Nat) : Rat := clampQ kLo kHi (s.kEffRaw a)

/-! ## Signature location (R239 key 10) -/

/-- [die, crew, logical array] and further elements of a physical array. -/
def State.arrLoc (s : State) (a : Nat) (more : List Nat) : List Nat :=
  [crewDie (a / 17), a / 17, s.logicalArr a] ++ more

/-- A coefficient was clamped (R89): TRKOUT and a signature. -/
def State.trkOut (s : State) (a coef : Nat) (fitted : F32) (col : List Nat) : State :=
  (s.modArr a (fun x => { x with trkOut := true })).emit 0x0E
    { loc := s.arrLoc a col, data := leBytes 1 coef ++ leBytes 4 fitted.toNat }

/-- A slot starts with kappa_eff (R87): where it is clamped, TRKOUT is set, with one signature on entry to the clamp (log entry
100). -/
def State.noteKEff (s : State) (a : Nat) : State :=
  let raw := s.kEffRaw a
  if kLo ≤ raw ∧ raw ≤ kHi then s.modArr a (fun x => { x with effClamp := false })
  else if (s.arr a).effClamp then s.modArr a (fun x => { x with trkOut := true })
  else (s.trkOut a 0 (f32Rat raw) []).modArr a (fun x => { x with effClamp := true })

/-! ## The error model (R77) and its substitution (R226) -/

/-- sigma_col squared, in (% FS)^2. -/
def sigmaSq (t drift : Rat) : Rat :=
  (21 / 100) ^ 2 * ((t + 27315 / 100) / (29815 / 100)) + (286 / 1000) ^ 2 + ((4 / 1000) * absQ (t - 25)) ^ 2
    + ((3 / 10) * absQ drift) ^ 2

/-- DRIFT in percent, from TRK_DRIFT in 0.001 %. -/
def Arr.driftPct (x : Arr) : Rat := (x.drift.toInt : Rat) / 1000

/-- A condition under which 1.20 % FS stands for TRK_SIGMA (R226). -/
def State.sigmaSubst (s : State) (a : Nat) : Bool :=
  let x := s.arr a
  x.sigma == 0 || !x.conv || !s.cfg.trkEn || s.cfg.freeze

/-- TRK_SIGMA, or 1.20 % FS in its place. -/
def State.effSigma (s : State) (a : Nat) : F32 := if s.sigmaSubst a then f32Rat (12 / 10) else (s.arr a).sigma

/-! ## The bow table (R211) -/

/-- The 12-byte sums-table entry of output column `j` (R63, R115). -/
def Crew.sumsEntry (c : Crew) (page j : Nat) : List Byte := Memory.readBytes c.sram (0x400 * page + 12 * j) 12

def seColsum (e : List Byte) : Nat := field e 0 4
def seConst (e : List Byte) : Nat := field e 4 4
def seScale (e : List Byte) : F16 := BitVec.ofNat 16 (field e 8 2)

/-- The largest FP32 value of a list. -/
def maxF32 (l : List F32) : F32 := l.foldl f32Max 0

/-- The stroke and standby arrays (physical) of a layer in a generation. -/
def State.layerArrs (s : State) (g : Generation) (layer : Nat) : List Nat :=
  (g.assigns.filter (fun y => y.layer == layer)).map (fun y => s.physArr y.crew y.l)

/-- s_max: the largest |s_j| of a layer, from the sums tables of split 0 (R67, R211). -/
def State.sMax (s : State) (g : Generation) (idx : Nat) (ly : Layer) : F32 :=
  maxF32 ((g.assigns.filter (fun y => y.layer == idx && plSplit (g.man.places.getD y.entry []) == 0)).flatMap (fun y =>
    (List.range (ly.sliceCols (plSlice (g.man.places.getD y.entry [])))).map (fun j =>
      f32Abs (f32OfF16 (seScale ((s.crew y.crew).sumsEntry y.sumsPage j))))))

/-- Omega of R211. -/
def Layer.omega (ly : Layer) : F32 :=
  if ly.w8 && ly.x8 then f32Int 257 else if ly.w8 || ly.x8 then f32Sqrt (f32Int 257) else f32Int 1

/-- W in its fixed order (R211). -/
def bowWindow (k : Nat) (sigmaMax om : F32) (splits : Nat) (smax : F32) (ex : Int) : F32 :=
  let r2 := f32Sqrt (f32Int 2)
  let rS := f32Sqrt (f32Int splits)
  let sA := f32Mul (f32Mul (f32Mul (f32Int 640) sigmaMax) om) rS
  f32Mul (f32Mul (f32Mul (f32Mul (f32Int k) r2) sA) smax) (f32Rat (pow2 ex))

/-- Recompute the windows of the resident bow layers one of whose arrays `touched` names. -/
def State.bowUpdate (s : State) (touched : Nat → Bool) : State :=
  s.each (List.range 16) (fun s c => s.each (s.ctx c).gens (fun s g =>
    s.each (g.man.layers.zipIdx.filter (fun e => e.1.isBow)) (fun s e =>
      let as := s.layerArrs g e.2
      if as.any touched then
        let w := bowWindow s.cfg.twinK.toNat (maxF32 (as.map s.effSigma)) e.1.omega e.1.splits (s.sMax g e.2 e.1) e.1.ex
        { s with bowW := (c, g.gen, e.2, w) :: s.bowW.filter (fun x => !(x.1 == c && x.2.1 == g.gen && x.2.2.1 == e.2)) }
      else s)))

/-- After a change, recompute the windows of the layers whose arrays started or stopped meeting a substitution condition. -/
def State.bowFollow (s old : State) : State := s.bowUpdate (fun a => s.sigmaSubst a != old.sigmaSubst a)

/-! ## Updates -/

/-- Strokes in flight keep the coefficients of their slot: new ones count from the next slot boundary on (R82, R92). -/
def Arr.holdTrims (x : Arr) : Arr :=
  { x with shots := x.shots.map (fun t => if t.old.isNone then { t with old := some (x.fTrim, x.tTrim) } else t) }

/-- A tracking reset of one array (R92): kappa, T_GAIN, T_OFS, T_win, CONV. Collections in progress: the sets of tracking reads and
the fits that wait are dropped, the lantern window goes on (log entry 99). -/
def Arr.trackReset (x : Arr) : Arr :=
  { x.holdTrims with
    kappa := 0x3F800000, tTrim := [], tWinSum := 400, tWinCnt := 1, conv := false, kUpdates := 0,
    cols := [], fits := [] }

def State.trackingResetAll (s : State) : State := (s.eachArr Arr.trackReset).bowFollow s

/-- Write TRK_DRIFT, LIMIT and their signature (R94, R96, R99): TRK_DRIFT rounds to 0.001 %, half to even; LIMIT looks at the exact
drift, the threshold of R97 and TRK_SIGMA at the register (log entry 101). -/
def State.setDrift (s : State) (a : Nat) (pct : Rat) : State :=
  let code := BitVec.ofInt 32 (roundEven (pct * 1000))
  let lim : Bool := 19 / 10 ≤ absQ pct
  let first := lim && !(s.arr a).limit
  let s := s.modArr a (fun x => { x with drift := code, limit := lim })
  if first then s.emit 0x0F { loc := s.arrLoc a [], data := leBytes 4 code.toNat } else s

/-- Updates under R86 and R88 take place (R92). -/
def State.updating (s : State) : Bool := s.cfg.trkEn && !s.cfg.freeze

/-- CONV under R90: two updates of kappa and one of every data column since the last tracking reset. -/
def Arr.checkConv (x : Arr) : Arr :=
  { x with conv := x.conv || (2 ≤ x.kUpdates && 512 ≤ (x.cols.filter (fun e => e.2.fitted)).length) }

/-- Join the windows of an extension (R86). -/
def Window.join (a b : Window) : Window :=
  { strokes := a.strokes + b.strokes, valid := a.valid + b.valid, sumDE := a.sumDE + b.sumDE, sumEE := a.sumEE + b.sumEE,
    joined := a.joined + 1, tSum := a.tSum + b.tSum, tCnt := a.tCnt + b.tCnt }

/-- The end of a tracking window: kappa, DRIFT, TRK_SIGMA, or an extension, or no update (R77, R86, R96). -/
def State.windowEnd (s : State) (a : Nat) : State :=
  let x := s.arr a
  match x.wins with
  | [] => s
  | w :: rest =>
    let old := s
    let j := x.carry.join w
    let s := s.setArr a { x with wins := rest }
    let s :=
      if !s.updating then s.modArr a (fun x => { x with carry := Window.reset })
      else if 512 ≤ j.valid ∧ j.sumEE ≠ 0 then
        let fit := j.sumDE / j.sumEE
        let out : Bool := fit < kLo || kHi < fit
        let s := if out then s.trkOut a 0 (f32Rat fit) [] else s
        let k := f32Rat (clampQ kLo kHi fit)
        let s := s.modArr a (fun x => { x with
          kappa := k, tWinSum := j.tSum, tWinCnt := max 1 j.tCnt, carry := Window.reset, kUpdates := x.kUpdates + 1 })
        (s.setDrift a ((f32Q k / s.pFactor a (s.arr a).tWin - 1) * 100)).modArr a Arr.checkConv
      else s.modArr a (fun x => { x with carry := if 4 ≤ j.joined then Window.reset else j })
    let s := s.modArr a (fun x => { x with sigma := f32Rat (sqrtQ (sigmaSq (s.tNow a) x.driftPct)) })
    s.bowUpdate (fun b => b == a || s.sigmaSubst b != old.sigmaSubst b)

def trimRatio (v : BitVec 16) : Rat := (v.toNat : Rat) / 32768
def trimOffset (v : BitVec 16) : Rat := (v.toInt : Rat) / 16

/-- The fit of a column's 64 tracking reads (R88, R89); a set that fixes no line, or the gain 0, makes no update (log entry
102). -/
def State.columnFit (s : State) (a col : Nat) : State :=
  let x := s.arr a
  match x.fits.find? (fun e => e.1 == col) with
  | none => s
  | some (_, c) =>
    let s := s.setArr a { x with fits := x.fits.eraseP (fun e => e.1 == col) }
    let n : Rat := (c.n : Rat)
    let den := n * c.sdd - c.sd * c.sd
    if !s.updating || c.bad || c.lmax - c.lmin < 64 || den = 0 then s
    else
      let gain := (n * c.sdl - c.sd * c.sl) / den
      if gain = 0 then s
      else
        let ofs := c.sd / n - c.sl / (n * gain)
        let s := if gain < 96 / 100 ∨ 104 / 100 < gain then s.trkOut a 1 (f32Rat gain) [col] else s
        let s := if ofs < -8 ∨ 8 < ofs then s.trkOut a 2 (f32Rat ofs) [col] else s
        let g := BitVec.ofInt 16 (clampInt 31458 34078 (roundEven (gain * 32768)))
        let o := BitVec.ofInt 16 (clampInt (-128) 128 (roundEven (ofs * 16)))
        let old := s
        let s := s.modArr a (fun x => ({ x with
          tTrim := x.tTrim.set trimDflt col (o, g),
          cols := x.cols.set colDflt col { (x.cols.get colDflt col) with fitted := true } } : Arr).checkConv)
        s.bowFollow old

/-! ## Rows -/

/-- TEMP_SAMPLE (R87, R305, R333, R334): MGT_TEMP of the base die and the compute dies, on the grid that begins at PLL lock, then
HBM_TEMP of the two stacks; a reading above 125 degC reduces the pool. -/
def execTempSample (ts : List (BitVec 16)) (s : State) : Host.Outcome State Fault Refusal :=
  if ts.length ≠ 7 then .fault .malformedEvent
  else if !s.dev.pllLocked then .next s
  else
    let t := { s.tel with temps := ts.take 5, hbmTemps := ts.drop 5 }
    .next { s with tel := t, gov := s.gov.heat t.hottest }

/-- KAPPA_UPDATE (R86): the end of a complete tracking window. -/
def execKappaUpdate (crew : Fin 256) (slot : Fin 17) (s : State) : Host.Outcome State Fault Refusal :=
  .next (if s.dev.st = .safe then s else s.windowEnd (arrIdx crew.val slot.val))

/-- COLUMN_TRACK_FIT (R88). -/
def execColumnTrackFit (crew : Fin 256) (slot : Fin 17) (col : Fin 512) (s : State) : Host.Outcome State Fault Refusal :=
  .next (if s.dev.st = .safe then s else s.columnFit (arrIdx crew.val slot.val) col.val)

end Sys2Proof.Machine
end

