-- ==== Sys2Proof/Machine/Flags.lean ====
section
/-! DEFINITION. Status, flag and configuration registers as words: how each register's fields are placed (R2, R25, R34, R38,
R42, R48, R49, R93 to R97, R110, R135, R136, R150, R168, R169, R204, R208 to R210, R228, R232, R235, R245, R276, R307 to
R309, R313, R319, R328 to R334), and what a write of a field does where its range is limited (R6). -/
namespace Sys2Proof.Machine

/-- A field value placed at bit `lo`. -/
def at_ (v lo : Nat) : Nat := v * 2 ^ lo

def word (n : Nat) : Dword := BitVec.ofNat 32 n

/-! ## Cox block -/

/-- COX_CHIP_ID (R2). -/
def chipId : Nat := 0x09A41140

/-- STEPPING of COX_CHIP_ID. -/
def stepping : Nat := 0x11

/-- COX_STATUS (R328). -/
def State.coxStatus (s : State) : Dword :=
  word (at_ (sumNat ((List.range 16).map (fun c => bitAt ((s.ctx c).st ≠ .closed) c))) 16 + bitAt s.env.mode 10
    + bitAt s.env.envSet 9 + bitAt s.env.trimLoaded 8 + devCode s.dev.st)

/-- COX_TWIN_CFG (R209), COX_BOW_RESV (R210), COX_CHECK_CFG (R228). -/
def Cfg.twinReg (c : Cfg) : Dword := word (at_ c.maxPairs.toNat 16 + c.twinK.toNat)
def State.bowResv (s : State) : Dword :=
  word (at_ (s.pairs.filter (fun p => crewDie p.1 == crewDie p.2)).length 24 + at_ s.pairs.length 16
    + sumNat ((List.range 16).map (fun c => bitAt ((s.ctx c).pairs ≠ []) c)))
def Cfg.checkReg (c : Cfg) : Dword := word c.kc.toNat

/-- COX_SAFE (R245). -/
def Dev.safeReg (d : Dev) : Dword := word (bitAt (d.st = .safe) 31 + at_ d.safeCause.toNat 16)
/-- COX_BIST (R313). -/
def Dev.bistReg (d : Dev) : Dword := word (bitAt d.bistDone 31 + bitAt d.bistPass 30 + at_ d.bistStage.toNat 24)
/-- COX_BOOT (R319). -/
def Dev.bootReg (d : Dev) : Dword :=
  word (bitAt d.locked 31 + at_ d.bcause.toNat 20 + at_ d.ucBank.toNat 18 + at_ d.bank.toNat 16 + at_ d.strap.toNat 8
    + bitAt d.forceBh 0)
/-- COX_SIGSTORE (R329). -/
def Sig.storeReg (g : Sig) : Dword := word (g.store.length + at_ (min 0xFFFF g.lost) 16)

/-! ## Crew and array blocks -/

/-- CRW_SPARE (R42). -/
def Crew.spareReg (c : Crew) : Dword := word (bitAt c.spareValid 8 + c.spare.toNat)
/-- CRW_RESV (R208); a power-down leaves it at its reset value, though the reservation lasts (R16, R205, R327; log entry
98). -/
def Crew.resvReg (c : Crew) : Dword :=
  match c.resv with
  | none => 0
  | some r => if c.resvLost then 0 else word (2 ^ 31 + bitAt r.second 30 + at_ (r.ctx % 16) 24 + at_ (r.twin % 256) 16 + r.standby.toNat)
/-- CRW_SINE_CTL (R48). -/
def Sine.ctlReg (x : Sine) : Dword :=
  word (bitAt x.refused 31 + at_ x.amp.toNat 16 + at_ x.slot.toNat 8 + at_ x.rows.toNat 6 + bitAt x.hist 4
    + bitAt x.slewByp 3 + bitAt x.en 0)
/-- CRW_POOL (R136), CRW_CLAIM (R135), CRW_HEALTH (R235), CRW_CHECK (R232). -/
def Crew.poolReg (c : Crew) : Dword := word (at_ c.freePages 16 + c.poolLow)
def Crew.claimReg (c : Crew) : Dword := word (bitAt c.dup 31 + at_ c.recov.toNat 8 + c.dupn.toNat)
def Crew.healthReg (c : Crew) : Dword :=
  word ((if c.healthLost then 0 else bitAt c.benched 31 + at_ c.cause.toNat 24) + c.parn.toNat)
def Crew.checkReg (c : Crew) : Dword := word (at_ c.chkReplays.toNat 16 + c.chkFails.toNat)

/-- TRK_COEF_DATA and TRK_COEF_FDATA (R95): a lantern column has T_OFS = 0 and T_GAIN = 1 (R78). A TRK_COEF_ADDR that names no
coefficient reads as 0 (log entry 119). -/
def State.coefReg (s : State) (crew : Nat) (factory : Bool) : Dword :=
  let ad := (s.crew crew).coefAddr.toNat
  let slot := bitsOf ad 10 5
  let col := bitsOf ad 0 10
  if 16 < slot ∨ 519 < col then 0
  else
    let x := s.arr (arrIdx crew slot)
    let (o, g) := if factory then x.fTrim.get trimDflt col else x.tTrim.get trimDflt col
    word (at_ g.toNat 16 + o.toNat)

/-- ARR_MAP (R331). -/
def State.mapReg (s : State) (a : Nat) : Dword :=
  if s.isSpare a then word (2 ^ 31)
  else
    let c := s.crew (a / 17)
    let l := s.logicalArr a
    let b0 := c.binding l false
    let b1 := c.binding l true
    word (at_ l 16 + (if bndValid b1 then 2 ^ 15 + at_ (bndCtx b1) 8 else 0)
      + (if bndValid b0 then 2 ^ 7 + bndCtx b0 else 0))

/-- ARR_SLEW (R25, R27): a reservation that outlasts a power-down no longer shows (R327; log entry 98). -/
def State.slewReg (s : State) (a : Nat) : Dword :=
  let x := s.arr a
  word (bitAt ((s.crew (a / 17)).resv.isSome && !(s.crew (a / 17)).resvLost) 31 + at_ (s.slotLen a) 16 + at_ x.rate.toNat 4 + x.step.toNat)
/-- ARR_FOLD (R34), ARR_BANK (R38). -/
def Arr.foldReg (x : Arr) : Dword := word (at_ x.fold.toNat 4 + bitAt x.auto 0)
def Arr.bankReg (x : Arr) : Dword := word (bitAt (x.verify ≠ 0) 1 + bitAt x.ground 0)
/-- Entries of the ground-bank patch list (R94 PATCHN). -/
def State.patchN (s : State) (a : Nat) : Nat :=
  if s.isSpare a then 0 else ((s.crew (a / 17)).patches (s.logicalArr a) (s.arr a).ground).length
/-- TRK_STATUS (R94). -/
def State.trkStatus (s : State) (a : Nat) : Dword :=
  let x := s.arr a
  word (bitAt x.limit 31 + bitAt x.trkOut 30 + bitAt x.lanBad 29 + bitAt (if x.ground then x.p1.full else x.p0.full) 28 + bitAt x.cAmbig 27
    + bitAt x.census 17 + bitAt x.refresh 16 + at_ (s.patchN a) 8 + bitAt x.conv 0)
/-- STA_SAT_WIN (R109): the saturation events among the last 4,096 counted strokes. -/
def Arr.satWin (x : Arr) : Nat := (x.satHist.filter id).length
/-- STA_SAT_CFG (R110). -/
def Arr.satCfgReg (x : Arr) : Dword := word (bitAt x.satCal 31 + x.satThr.toNat)

/-! ## Queues (R168, R169, R204) -/

/-- PCI_QCFG. -/
def State.qcfg (s : State) (q : QueueId) : Dword :=
  let x := s.queue q
  word (bitAt x.enable 31 + bitAt (s.idleQueue q) 30 + at_ (qKind q) 16 + x.size.toNat)
/-- PCI_QSTAT. -/
def State.qstat (s : State) (q : QueueId) : Dword :=
  let x := s.queue q
  word (bitAt x.dbErr 31 + bitAt x.ringErr 30 + s.outstanding q % 2 ^ 16)
/-- PCI_QEVT: bit 0 of the admin page follows the signature store (R204, R241). -/
def State.qevt (s : State) (q : QueueId) : Dword :=
  let x := s.queue q
  word (bitAt (if q = .admin then !s.sig.store.isEmpty else x.evt0) 0 + bitAt x.evt1 1)

/-! ## Power, links, memory, engines -/

/-- PWR_STATUS (R307). -/
def Env.pwrStatus (e : Env) : Dword :=
  word (at_ e.bootEnv 24 + at_ e.env 20 + at_ (envLinks e.env) 8 + at_ (envStacks e.env) 4 + envDies e.env)
/-- PWR_GOV_CFG (R308), PWR_MEAS, PWR_THROT (R309). -/
def Cfg.govReg (c : Cfg) : Dword := word (at_ c.margin.toNat 16 + c.wrcap.toNat)
def Gov.measReg (g : Gov) : Dword := word (at_ g.sMeas.toNat 16 + g.pMeas.toNat)
def Gov.throtReg (g : Gov) : Dword :=
  word (bitAt g.eng 31 + bitAt g.stern 30 + bitAt g.write 29 + bitAt g.hot 28 + g.count.toNat)
/-- TRK_CTL (R93), TRK_POLICY (R97). -/
def Cfg.trkCtl (c : Cfg) : Dword :=
  word (at_ c.idle.toNat 16 + bitAt c.kwarm 3 + bitAt c.freeze 1 + bitAt c.trkEn 0)
def Cfg.trkPolicy (c : Cfg) : Dword :=
  word (at_ c.censusH.toNat 24 + at_ c.conc.toNat 16 + at_ c.space.toNat 8 + c.thr.toNat)
/-- MGT_SINE_CTL (R49). -/
def Cfg.sineCtl (c : Cfg) : Dword := word (at_ c.sineAmp.toNat 16 + bitAt c.sineEn 0)
/-- LNK_PORT_STATUS (R276). -/
def Port.statusReg (p : Port) : Dword :=
  word (bitAt p.up 31 + bitAt p.bypass 30 + bitAt p.training 29 + bitAt p.peerBad 28 + at_ p.downs.toNat 16)
/-- HBM_STATUS (R333): trained by BIST stage 2 (R310), in self-refresh in SAFE (R246); a stack without power has nothing to allocate
(R154). -/
def State.hbmStatus (s : State) (st : Nat) : Dword :=
  let pw := bitOf (envStacks s.env.env) st
  word (bitAt (pw && 3 ≤ s.dev.bistStage.toNat) 31 + bitAt (pw && s.dev.st = .safe) 30 + bitAt pw 29
    + (if !pw then 0 else if st = 0 then s.free0 else s.free1))
/-- NOC_STATUS (R333). -/
def State.nocStatus (s : State) : Dword :=
  word (1 + 2 * envDies s.env.env)
/-- VE_STATUS (R333); `resident` is the mode of R131. -/
def Ve.statusReg (resident : Bool) (v : Ve) : Dword :=
  word (bitAt (v.ring.any (fun d => d.started)) 31 + bitAt resident 30
    + at_ (if v.ring.any (fun d => d.started) then v.ctx % 16 else 0) 16 + v.ring.length)
/-- SEC_KEY_STATUS (R150). -/
def Sec.statusReg (x : Sec) : Dword :=
  word (bitAt x.busy 31 + bitAt x.err 30 + at_ x.revoked.toNat 8
    + sumNat ((List.range 8).map (fun n => bitAt ((x.keys.get (fun _ => none) n).isSome) n)))

/-! ## What a write does to limited fields -/

/-- TRK_CTL without its RESET bit (R93): an IDLE of 0 leaves the field. -/
def Cfg.writeTrkCtl (c : Cfg) (v : Nat) : Cfg :=
  { c with
    idle := if bitsOf v 16 8 = 0 then c.idle else BitVec.ofNat 8 (bitsOf v 16 8)
    kwarm := bitOf v 3
    freeze := bitOf v 1
    trkEn := bitOf v 0 }

/-- Every field of a TRK_POLICY value is in its range (R97). -/
def policyOk (v : Nat) : Bool :=
  1 ≤ bitsOf v 16 4 && bitsOf v 16 4 ≤ 8 && 1 ≤ bitsOf v 8 4 && 2 ≤ bitsOf v 0 5 && bitsOf v 0 5 ≤ 19

/-- TRK_POLICY (R97): a value with a field out of range is ignored as a whole. -/
def Cfg.writePolicy (c : Cfg) (v : Nat) : Cfg :=
  if policyOk v then
    { c with
      censusH := BitVec.ofNat 8 (bitsOf v 24 8), conc := BitVec.ofNat 4 (bitsOf v 16 4),
      space := BitVec.ofNat 4 (bitsOf v 8 4), thr := BitVec.ofNat 5 (bitsOf v 0 5) }
  else c

/-- COX_TWIN_CFG (R209). -/
def Cfg.writeTwin (c : Cfg) (v : Nat) : Cfg :=
  { c with
    maxPairs := if 1 ≤ bitsOf v 16 8 ∧ bitsOf v 16 8 ≤ 64 then BitVec.ofNat 8 (bitsOf v 16 8) else c.maxPairs
    twinK := if 3 ≤ bitsOf v 0 4 then BitVec.ofNat 4 (bitsOf v 0 4) else c.twinK }

/-- COX_CHECK_CFG (R228). -/
def Cfg.writeCheck (c : Cfg) (v : Nat) : Cfg :=
  { c with kc := if 4 ≤ bitsOf v 0 4 then BitVec.ofNat 4 (bitsOf v 0 4) else c.kc }

/-- PWR_GOV_CFG (R308). -/
def Cfg.writeGov (c : Cfg) (v : Nat) : Cfg :=
  { c with
    margin := if bitsOf v 16 8 ≤ 100 then BitVec.ofNat 8 (bitsOf v 16 8) else c.margin
    wrcap := if 1 ≤ bitsOf v 0 8 ∧ bitsOf v 0 8 ≤ 80 then BitVec.ofNat 8 (bitsOf v 0 8) else c.wrcap }

/-- MGT_SINE_CTL (R49): an amplitude above 256 leaves the field (R48); setting EN clears the phase (R44). -/
def Cfg.writeSine (c : Cfg) (v : Nat) : Cfg :=
  { c with
    sineAmp := if bitsOf v 16 9 ≤ 256 then BitVec.ofNat 9 (bitsOf v 16 9) else c.sineAmp
    sinePhase := if bitOf v 0 && !c.sineEn then 0 else c.sinePhase
    sineEn := bitOf v 0 }

/-- ARR_SLEW (R26): a STEP of 0 makes the write ignored as a whole. -/
def Arr.writeSlew (x : Arr) (v : Nat) : Arr :=
  if bitsOf v 0 4 = 0 then x
  else { x with step := BitVec.ofNat 4 (bitsOf v 0 4), rate := BitVec.ofNat 2 (bitsOf v 4 2) }

/-- ARR_FOLD (R34): FOLD 0b11 leaves the field. -/
def Arr.writeFold (x : Arr) (v : Nat) : Arr :=
  { x with fold := if bitsOf v 4 2 = 3 then x.fold else BitVec.ofNat 2 (bitsOf v 4 2), auto := bitOf v 0 }

/-- STA_SAT_CFG (R110). -/
def Arr.writeSatCfg (x : Arr) (v : Nat) : Arr :=
  { x with
    satCal := x.satCal && !bitOf v 31
    satThr := if bitsOf v 0 13 ≤ 4096 then BitVec.ofNat 13 (bitsOf v 0 13) else x.satThr }

/-- The W1C bits of TRK_STATUS (R94). -/
def Arr.clearStatus (x : Arr) (v : Nat) : Arr :=
  { x with trkOut := x.trkOut && !bitOf v 30, cAmbig := x.cAmbig && !bitOf v 27 }

/-- CRW_SINE_CTL (R46 to R48). `refuse` says that a condition of R47 holds for the SLOT as written; enabling clears the
phase (R44), and the histograms where HIST = 1 (R46). -/
def Crew.writeSine (c : Crew) (v : Nat) (refuse : Bool) : Crew :=
  let x := c.sine
  let want := bitOf v 0
  let start := want && !x.en
  let no := want && refuse
  { c with
    sine :=
      { x with
        refused := (x.refused && !bitOf v 31) || no
        amp := if bitsOf v 16 9 ≤ 256 then BitVec.ofNat 9 (bitsOf v 16 9) else x.amp
        slot := if bitsOf v 8 5 ≤ 16 then BitVec.ofNat 5 (bitsOf v 8 5) else x.slot
        rows := BitVec.ofNat 2 (bitsOf v 6 2)
        hist := bitOf v 4
        slewByp := bitOf v 3
        en := want && !no
        phase := if start && !no then 0 else x.phase }
    hist := if start && !no && bitOf v 4 then [] else c.hist }

end Sys2Proof.Machine
end

