-- ==== Sys2Proof/Machine/Registers.lean ====
section
/-! DEFINITION. The register map: what a read of BAR0 and BAR4 returns and what a write does (R5 to R8, R166 to R169, R297,
R321 to R336), and the rows that are register accesses. -/
namespace Sys2Proof.Machine

/-! ## Queue pages -/

/-- The queue whose page a BAR4 offset falls in, with the offset inside the page (R166, R167); none where the function has
no page there. -/
def State.queueAt (s : State) (fn off : Nat) : Option (QueueId × Nat) :=
  let r := off % 0x1000
  if fn = 0 then
    if off < 0x1000 then some (.admin, r)
    else
      let k := off / 0x1000
      if h : 16 ≤ k ∧ k < 32 then
        if s.dev.vfEn.getLsbD (k - 16) then none else some (.ctx ⟨k - 16, by omega⟩, r)
      else if h : 32 ≤ k ∧ k < 48 then
        if s.dev.vfEn.getLsbD (k - 32) then none else some (.bow ⟨k - 32, by omega⟩, r)
      else none
  else if h : fn - 1 < 16 then
    if !s.dev.vfEn.getLsbD (fn - 1) then none
    else if off < 0x1000 then some (.ctx ⟨fn - 1, h⟩, r)
    else if off < 0x2000 then some (.bow ⟨fn - 1, h⟩, r)
    else none
  else none

/-- A read of a queue page (R168). -/
def State.queueReg (s : State) (q : QueueId) (r : Nat) : Dword :=
  let x := s.queue q
  match r with
  | 0x000 => x.sqBase.setWidth 32
  | 0x004 => (x.sqBase >>> 32).setWidth 32
  | 0x008 => x.cqBase.setWidth 32
  | 0x00C => (x.cqBase >>> 32).setWidth 32
  | 0x010 => s.qcfg q
  | 0x014 => x.sqTail.setWidth 32
  | 0x018 => x.cqHead.setWidth 32
  | 0x01C => x.sqHead.setWidth 32
  | 0x020 => x.cqTail.setWidth 32
  | 0x024 => s.qstat q
  | 0x028 => s.qevt q
  | _ => 0

/-- A tail write (R170): out of range, or on a disabled queue, it is ignored and sets DBERR. -/
def Queue.writeTail (x : Queue) (v : Nat) : Queue :=
  let i := bitsOf v 0 12
  if !x.enable || 2 ^ x.size.toNat ≤ i then { x with dbErr := true }
  else { x with sqTail := BitVec.ofNat 12 i }

/-- A head write (R171): one that would pass the status tail, or is out of range, is ignored and sets DBERR; otherwise it
frees the entries it passes. -/
def Queue.writeHead (x : Queue) (v : Nat) : Queue :=
  let i := bitsOf v 0 12
  let size := 2 ^ x.size.toNat
  let n := (i + size - x.cqHead.toNat) % size
  if size ≤ i ∨ x.unread < n then { x with dbErr := true }
  else { x with cqHead := BitVec.ofNat 12 i, unread := x.unread - n }

/-- ENABLE from 0 to 1: the four indices to 0 and the status phase to 1 (R169). -/
def Queue.start (x : Queue) : Queue :=
  { x with enable := true, sqTail := 0, cqHead := 0, sqHead := 0, cqTail := 0, phase := true, unread := 0 }

/-- A write of PCI_QCFG (R169): SIZE is taken only while the queue is disabled and idle, and only in 6 to 12. -/
def State.writeQcfg (s : State) (q : QueueId) (v : Nat) : State :=
  let x := s.queue q
  let sz := bitsOf v 0 4
  let x := if s.idleQueue q && 6 ≤ sz && sz ≤ 12 then { x with size := BitVec.ofNat 4 sz } else x
  s.setQueue q (if bitOf v 31 then (if x.enable then x else x.start) else { x with enable := false })

/-- Replace one half of a ring base (bits 5:0 reserved). -/
def baseHalf (b : Qword) (hi : Bool) (v : Dword) : Qword :=
  if hi then (v.setWidth 64 <<< 32) ||| (b &&& 0xFFFFFFFF#64)
  else (b &&& 0xFFFFFFFF00000000#64) ||| ((v &&& 0xFFFFFFC0#32).setWidth 64)

/-- A write to a queue page. -/
def State.writeQueueReg (s : State) (q : QueueId) (r : Nat) (w : Dword) : State :=
  let x := s.queue q
  let v := w.toNat
  match r with
  | 0x000 => if s.idleQueue q then s.setQueue q { x with sqBase := baseHalf x.sqBase false w } else s
  | 0x004 => if s.idleQueue q then s.setQueue q { x with sqBase := baseHalf x.sqBase true w } else s
  | 0x008 => if s.idleQueue q then s.setQueue q { x with cqBase := baseHalf x.cqBase false w } else s
  | 0x00C => if s.idleQueue q then s.setQueue q { x with cqBase := baseHalf x.cqBase true w } else s
  | 0x010 => s.writeQcfg q v
  | 0x014 => s.setQueue q (x.writeTail v)
  | 0x018 => s.setQueue q (x.writeHead v)
  | 0x024 => s.setQueue q { x with dbErr := x.dbErr && !bitOf v 31, ringErr := x.ringErr && !bitOf v 30 }
  | 0x028 => s.setQueue q { x with
      evt0 := x.evt0 && (q = .admin || !bitOf v 0), evt1 := x.evt1 && !bitOf v 1 }
  | _ => s

/-- The Cox runs (R182): powered, and not in RESET_HOLD. -/
def State.alive (s : State) : Bool := s.dev.st ≠ .off && s.dev.st ≠ .resetHold

/-- The device answers BAR4: it runs, and the fault of SAFE is not in its PCIe endpoint (R183). -/
def State.barLive (s : State) : Bool := s.alive && !s.dev.endpointFault

/-- The PCIe endpoint takes transactions: no reset is asserted and it works (R155, R183, R297). -/
def State.busLive (s : State) : Bool := s.dev.st ≠ .off && (s.alive || s.dev.released) && !s.dev.endpointFault

/-! ## MSI-X structures (R201, R202, R334, R336) -/

/-- A dword of an MSI-X table. -/
def tableDword (t : Tbl Byte) (a : Nat) : Dword :=
  word (leNat ((List.range 4).map (fun i => t.get msixDflt (a + i))))

/-- Write a dword of an MSI-X table: of the vector control only the mask bit. -/
def writeTable (t : Tbl Byte) (a : Nat) (w : Dword) : Tbl Byte :=
  let bs := if a % 16 = 12 then leBytes 4 (w.toNat % 2) else leBytes 4 w.toNat
  bs.zipIdx.foldl (fun t e => t.set msixDflt (a + e.2) e.1) t

/-- After an unmask, a pending vector of the physical function is sent. -/
def State.firePf (s : State) (v : Nat) : State :=
  if s.dev.pba.getLsbD v && !(s.dev.msix.get msixDflt (16 * v + 12)).getLsbD 0 then
    ({ s with dev := { s.dev with pba := s.dev.pba &&& ~~~ BitVec.ofNat 64 (2 ^ v) } }).out (.msix 0 v)
  else s

def State.fireVf (s : State) (n v : Nat) : State :=
  if s.dev.vfPba.getLsbD (3 * (n - 1) + v) && !(s.dev.vfTable.get msixDflt (48 * (n - 1) + 16 * v + 12)).getLsbD 0 then
    ({ s with dev := { s.dev with vfPba := s.dev.vfPba &&& ~~~ BitVec.ofNat 64 (2 ^ (3 * (n - 1) + v)) } }).out (.msix n v)
  else s

/-! ## BAR0 -/

/-- A dword of LNK_NEXTHOP. -/
def nexthopDword (t : Tbl Byte) (a : Nat) : Dword :=
  word (leNat ((List.range 4).map (fun i => t.get hopDflt (a + i))))

/-- Registers that keep their values in RESET_HOLD (R297). -/
def heldReadable (off : Nat) : Bool := off = 0 || off = 8 || off = 0xC || off = 0x50 || off = 0x54 || off = 0x640000

/-- A register of an array block (R332). -/
def State.arrReg (s : State) (a r : Nat) : Dword :=
  let x := s.arr a
  match r with
  | 0x000 => s.mapReg a
  | 0x010 => s.slewReg a
  | 0x014 => x.foldReg
  | 0x018 => x.bankReg
  | 0x040 => s.trkStatus a
  | 0x044 => x.kappa
  | 0x048 => x.drift
  | 0x04C => x.sigma
  | 0x050 => x.satStrokes
  | 0x054 => x.satCols
  | 0x058 => word x.satWin
  | 0x05C => x.satCfgReg
  | 0x060 => x.lmseSum
  | 0x064 => x.lmseCount
  | _ => 0

/-- A register of a crew window (R330). -/
def State.crewReg (s : State) (n r : Nat) : Dword :=
  let c := s.crew n
  if r < 0x8800 then s.arrReg (arrIdx n (r / 0x800)) (r % 0x800)
  else if 0xA000 ≤ r ∧ r < 0xE000 then
    let i := (r - 0xA000) / 2
    word (c.hist.get zeroNat i + 2 ^ 16 * c.hist.get zeroNat (i + 1))
  else
    match r with
    | 0x9000 => c.spareReg
    | 0x9010 => c.resvReg
    | 0x9100 => c.sine.ftw.setWidth 32
    | 0x9104 => c.sine.ctlReg
    | 0x9108 => c.sine.phase.setWidth 32
    | 0x9200 => c.coefAddr.setWidth 32
    | 0x9204 => s.coefReg n false
    | 0x9208 => s.coefReg n true
    | 0x9300 => c.poolReg
    | 0x9304 => c.claimReg
    | 0x9308 => c.healthReg
    | 0x930C => c.checkReg
    | _ => 0

/-- VEs run in RESIDENT mode (R131): the device is a member of a group that has a parent manager. -/
def State.residentMode (s : State) : Bool := posParent s.env.position

/-- A register of a VE (R333). -/
def State.veReg (s : State) (v r : Nat) : Dword :=
  let x := s.ve v
  match r with
  | 0x000 => x.statusReg s.residentMode
  | 0x004 => x.head.setWidth 32
  | 0x008 => x.tail.setWidth 32
  | 0x00C => word (x.ahead + 2 ^ 16 * x.aheadMax)
  | 0x010 => x.resErr
  | _ => 0

/-- A register of a link port (R334). -/
def State.portReg (s : State) (p r : Nat) : Dword :=
  let x := s.port p
  match r with
  | 0x00 => x.statusReg
  | 0x04 => x.fecCorr
  | 0x08 => x.fecUncorr
  | 0x0C => x.parErr
  | 0x10 => x.resend
  | _ => 0

/-- The value of an island register with a single offset (R329, R333, R334). -/
def State.fixedReg (s : State) (off : Nat) : Dword :=
  match off with
  | 0x000000 => word chipId
  | 0x000004 => s.coxStatus
  | 0x000008 => Config.serial.setWidth 32
  | 0x00000C => (Config.serial >>> 32).setWidth 32
  | 0x000010 => s.dev.fwVer.setWidth 32
  | 0x000014 => (s.dev.fwVer >>> 32).setWidth 32
  | 0x000018 => s.dev.ucVer.setWidth 32
  | 0x00001C => (s.dev.ucVer >>> 32).setWidth 32
  | 0x000040 => s.cfg.twinReg
  | 0x000044 => s.bowResv
  | 0x000048 => s.cfg.checkReg
  | 0x00004C => s.dev.safeReg
  | 0x000050 => s.dev.bistReg
  | 0x000054 => s.dev.bootReg
  | 0x000058 => s.sig.storeReg
  | 0x400000 => s.nocStatus
  | 0x400030 => s.tel.nocBowWait.setWidth 32
  | 0x480000 => s.hbmStatus 0
  | 0x480004 => s.tel.hbmEcc.getD 0 0
  | 0x480008 => s.tel.hbmParErr.getD 0 0
  | 0x48000C => (s.tel.hbmTemps.getD 0 0).setWidth 32
  | 0x481000 => s.hbmStatus 1
  | 0x481004 => s.tel.hbmEcc.getD 1 0
  | 0x481008 => s.tel.hbmParErr.getD 1 0
  | 0x48100C => (s.tel.hbmTemps.getD 1 0).setWidth 32
  | 0x500000 => s.dev.pciLink.setWidth 32
  | 0x500100 => s.env.p2pDrop
  | 0x502000 => s.dev.pba.setWidth 32
  | 0x502004 => (s.dev.pba >>> 32).setWidth 32
  | 0x600004 => s.sec.statusReg
  | 0x600304 => word (bitAt s.dev.trngOk 0)
  | 0x640000 => s.env.pwrStatus
  | 0x640004 => s.cfg.govReg
  | 0x640008 => word s.gov.budget
  | 0x64000C => word s.gov.bowRes
  | 0x640010 => s.gov.measReg
  | 0x640014 => s.gov.throtReg
  | 0x680000 => s.cfg.trkCtl
  | 0x680004 => s.cfg.trkPolicy
  | 0x700000 => s.dev.timeBase.setWidth 32
  | 0x700004 => s.dev.timeHi
  | 0x700030 => s.env.coolant.setWidth 32
  | 0x700034 => s.env.position
  | 0x700400 => s.cfg.sineFtw.setWidth 32
  | 0x700404 => s.cfg.sineCtl
  | 0x700500 => word s.sig.mirror.length
  | _ => 0

/-- The KEY_ID dwords of a slot (R334): 0 while the slot holds no key. -/
def Sec.keyIdReg (x : Sec) (n : Nat) (hi : Bool) : Dword :=
  match x.keys.get (fun _ => none) n with
  | some k => word (field k.keyId (if hi then 4 else 0) 4)
  | none => 0

/-- The value that a read of the physical function's BAR0 finds at a dword offset (R322, R327, R329 to R334), outside
RESET_HOLD. SEC_TRNG_DATA is read by `readDword`. -/
def State.reg (s : State) (off : Nat) : Dword :=
  if 0x400010 ≤ off ∧ off < 0x400024 then
    let r := (off - 0x400010) / 4
    if r = 0 || diePowered s.env.env (r - 1) then s.tel.nocParErr.getD r 0 else 0
  else if 0x501000 ≤ off ∧ off < 0x501400 then tableDword s.dev.msix (off - 0x501000)
  else if 0x540000 ≤ off ∧ off < 0x540400 then s.portReg ((off - 0x540000) / 0x100) (off % 0x100)
  else if 0x541000 ≤ off ∧ off < 0x542000 then nexthopDword s.group.nexthop (off - 0x541000)
  else if 0x600200 ≤ off ∧ off < 0x600240 then s.sec.keyIdReg ((off - 0x600200) / 8) (off % 8 = 4)
  else if 0x700010 ≤ off ∧ off < 0x700024 then (s.tel.temps.getD ((off - 0x700010) / 4) 0).setWidth 32
  else if 0x700100 ≤ off ∧ off < 0x700130 then
    let r := (off - 0x700100) / 8
    if off % 8 = 0 then (s.tel.volts.getD r 0).setWidth 32 else (s.tel.amps.getD r 0).setWidth 32
  else if 0x800000 ≤ off ∧ off < 0xA00000 then
    let v := (off - 0x800000) / 0x10000
    if diePowered s.env.env (v / 8) then s.veReg v (off % 0x10000) else 0
  else if 0x1000000 ≤ off ∧ off < 0x2000000 then
    let n := (off - 0x1000000) / 0x10000
    if diePowered s.env.env (crewDie n) then s.crewReg n (off % 0x10000) else 0
  else s.fixedReg off

/-- A virtual function's BAR0 (R336). -/
def State.vfReg (s : State) (n off : Nat) : Dword :=
  if off < 0x30 then tableDword s.dev.vfTable (48 * (n - 1) + off)
  else if off = 0x2000 then word (bitsOf s.dev.vfPba.toNat (3 * (n - 1)) 3)
  else 0

/-- What BAR0 or BAR4 of function `fn` returns for one dword, without the effects of the two reads that have one; an endpoint
that is off or faulty returns nothing. -/
def State.barRead (s : State) (fn : Nat) (bar4 : Bool) (off : Nat) : Dword :=
  if s.dev.st = .off || s.dev.endpointFault then 0
  else if bar4 then
    if !s.barLive then 0
    else match s.queueAt fn off with
      | some (q, r) => s.queueReg q r
      | none => 0
  else if fn ≠ 0 then
    if s.dev.st = .resetHold || !s.dev.vfEn.getLsbD (fn - 1) then 0 else s.vfReg fn off
  else if s.dev.st = .resetHold && !heldReadable off then 0
  else s.reg off

/-- A read of BAR2, the pitch window, returns all-zero bytes (R155). -/
def State.bar2Read (_ : State) (_fn _off n : Nat) : List Byte := List.replicate n 0

/-- One dword of a BAR0 read of the physical function, with its effect: MGT_TIME_LO latches (R334), SEC_TRNG_DATA draws. -/
def State.readDword (s : State) (off : Nat) : State × Dword :=
  if !s.barLive then (s, s.barRead 0 false off)
  else if off = 0x700000 then
    ({ s with dev := { s.dev with timeHi := (s.dev.timeBase >>> 32).setWidth 32 } }, s.dev.timeBase.setWidth 32)
  else if off = 0x600300 then
    if s.dev.trngOk then ({ s with free := s.free + 1 }, Config.freeRandom s.free) else (s, 0)
  else (s, s.reg off)

/-- A read of `n` dwords in ascending order (R323). -/
def State.readDwords : Nat → State → Nat → State × List Byte
  | 0, s, _ => (s, [])
  | n + 1, s, off =>
    let (s, v) := s.readDword off
    let (s, bs) := State.readDwords n s (off + 4)
    (s, leBytes 4 v.toNat ++ bs)

/-- The conditions under which row mode is refused on a crew (R47). -/
def State.sineRefused (s : State) (crew slot : Nat) : Bool :=
  s.dev.st = .boathouse || s.dev.st = .safe || s.isSpare (arrIdx crew slot) || s.held (arrIdx crew slot)

/-- A write of CRW_SINE_CTL. -/
def State.writeCrewSine (s : State) (crew : Nat) (v : Nat) : State :=
  let slot := if bitsOf v 8 5 ≤ 16 then bitsOf v 8 5 else (s.crew crew).sine.slot.toNat
  s.modCrew crew (fun c => c.writeSine v (s.sineRefused crew slot))

/-- A write of TRK_CTL (R93, R211): the reset, then the agreement windows that the change bears on. -/
def State.writeTrkCtl (s : State) (v : Nat) : State :=
  let t := { s with cfg := s.cfg.writeTrkCtl v }
  (if bitOf v 2 then t.eachArr Arr.trackReset else t).bowFollow s

/-- A write to an array block (R332); R35 lets the host write ARR_SLEW and ARR_FOLD only on an array that no open context
holds. -/
def State.writeArrReg (s : State) (a r v : Nat) : State :=
  match r with
  | 0x010 => if s.held a then s else s.modArr a (fun x => x.writeSlew v)
  | 0x014 => if s.held a then s else s.modArr a (fun x => x.writeFold v)
  | 0x040 => s.modArr a (fun x => x.clearStatus v)
  | 0x05C => s.modArr a (fun x => x.writeSatCfg v)
  | _ => s

/-- A write to a crew window (R330). -/
def State.writeCrewReg (s : State) (n r v : Nat) : State :=
  if r < 0x8800 then s.writeArrReg (arrIdx n (r / 0x800)) (r % 0x800) v
  else match r with
    | 0x9100 => s.modCrew n (fun c => { c with sine := { c.sine with ftw := BitVec.ofNat 24 v } })
    | 0x9104 => s.writeCrewSine n v
    | 0x9200 => s.modCrew n (fun c => { c with coefAddr := BitVec.ofNat 15 v })
    | 0x9304 => s.modCrew n (fun c => { c with dup := c.dup && !bitOf v 31 })
    | _ => s

/-- A GO write of SEC_KEY_CMD (R149, R150). -/
def Sec.command (x : Sec) (v : Nat) : Sec :=
  if !bitOf v 31 || x.busy then x
  else match bitsOf v 4 2 with
    | 1 => { x with busy := true, op := some (bitsOf v 0 3, some (Memory.readBytes x.data 0 97)) }
    | 2 => { x with busy := true, op := some (bitsOf v 0 3, none) }
    | _ => x

/-- A write of one BAR0 dword of the physical function, outside RESET_HOLD (R323, R327, R329 to R334). -/
def State.writeReg (s : State) (off : Nat) (w : Dword) : State :=
  let v := w.toNat
  if 0x501000 ≤ off ∧ off < 0x501400 then
    ({ s with dev := { s.dev with msix := writeTable s.dev.msix (off - 0x501000) w } }).firePf ((off - 0x501000) / 16)
  else if 0x540000 ≤ off ∧ off < 0x540400 ∧ off % 0x100 = 0 then
    s.modPort ((off - 0x540000) / 0x100) (fun p => { p with peerBad := p.peerBad && !bitOf v 28 })
  else if 0x600100 ≤ off ∧ off < 0x600160 then
    { s with sec := { s.sec with data := Memory.writeBytes s.sec.data (off - 0x600100) (leBytes 4 v) } }
  else if off = 0x600160 then
    { s with sec := { s.sec with data := Memory.writeBytes s.sec.data 0x60 (leBytes 1 v) } }
  else if 0x1000000 ≤ off ∧ off < 0x2000000 then
    let n := (off - 0x1000000) / 0x10000
    if diePowered s.env.env (crewDie n) then s.writeCrewReg n (off % 0x10000) v else s
  else if off = 0x000040 then { s with cfg := s.cfg.writeTwin v }
  else if off = 0x000048 then { s with cfg := s.cfg.writeCheck v }
  else if off = 0x600000 then { s with sec := s.sec.command v }
  else if off = 0x600004 then { s with sec := { s.sec with err := s.sec.err && !bitOf v 30 } }
  else if off = 0x640004 then { s with cfg := s.cfg.writeGov v }
  else if off = 0x640014 then
    { s with gov := { s.gov with
        eng := s.gov.eng && !bitOf v 31, stern := s.gov.stern && !bitOf v 30, write := s.gov.write && !bitOf v 29 } }
  else if off = 0x680000 then s.writeTrkCtl v
  else if off = 0x680004 then { s with cfg := s.cfg.writePolicy v }
  else if off = 0x700400 then { s with cfg := { s.cfg with sineFtw := BitVec.ofNat 24 v } }
  else if off = 0x700404 then { s with cfg := s.cfg.writeSine v }
  else s

/-- A write of one BAR0 dword in RESET_HOLD: only the RWL field FORCEBH takes it, while it is not locked (R8, R297) and once the reset
has been released (log entry 118). -/
def State.writeHeld (s : State) (off : Nat) (w : Dword) : State :=
  if off = 0x54 && s.dev.released && !s.dev.locked then
    { s with dev := { s.dev with forceBh := w.getLsbD 0 } }
  else s

/-- A write of one dword through a BAR of function `fn`. -/
def State.barWrite (s : State) (fn : Nat) (bar4 : Bool) (off : Nat) (w : Dword) : State :=
  if s.dev.st = .off || s.dev.endpointFault then s
  else if s.dev.st = .resetHold then (if bar4 || fn ≠ 0 then s else s.writeHeld off w)
  else if bar4 then
    match s.queueAt fn off with
    | some (q, r) => s.writeQueueReg q r w
    | none => s
  else if fn = 0 then s.writeReg off w
  else if s.dev.vfEn.getLsbD (fn - 1) && off < 0x30 then
    ({ s with dev := { s.dev with vfTable := writeTable s.dev.vfTable (48 * (fn - 1) + off) w } }).fireVf fn (off / 16)
  else s

/-- A write request: dwords in ascending address; on BAR0 a dword without all four byte enables is discarded (R323). A
BAR4 dword is treated alike. -/
def State.writeDwords : List (Dword × BitVec 4) → State → Nat → Bool → Nat → State
  | [], s, _, _, _ => s
  | (w, be) :: t, s, fn, bar4, off =>
    State.writeDwords t (if be = 0xF then s.barWrite fn bar4 off w else s) fn bar4 (off + 4)

/-! ## Rows -/

/-- REGISTER_WRITE (R323): a write request of function `fn` to BAR0, or to BAR4. -/
def execRegisterWrite (fn : Fin 17) (bar4 : Bool) (off : Nat) (ws : List (Dword × BitVec 4)) (s : State) :
    Host.Outcome State Fault Refusal :=
  .next (State.writeDwords ws s fn.val bar4 (off / 4 * 4))

/-- SQ_DOORBELL (R170): a write of PCI_QSQ_TAIL. -/
def execSqDoorbell (q : QueueId) (v : Dword) (s : State) : Host.Outcome State Fault Refusal :=
  .next (if s.barLive && decide (qIdx q < 33) then s.writeQueueReg q 0x014 v else s)

/-- QUEUE_ENABLE (R169): a write of PCI_QCFG with ENABLE = 1. -/
def execQueueEnable (q : QueueId) (v : Dword) (s : State) : Host.Outcome State Fault Refusal :=
  .next (if s.barLive && decide (qIdx q < 33) then s.writeQcfg q (v ||| 0x80000000#32).toNat else s)

/-- QUEUE_DISABLE (R170): a write of PCI_QCFG with ENABLE = 0. -/
def execQueueDisable (q : QueueId) (v : Dword) (s : State) : Host.Outcome State Fault Refusal :=
  .next (if s.barLive && decide (qIdx q < 33) then s.writeQcfg q (v &&& 0x7FFFFFFF#32).toNat else s)

/-- SEC_KEY_INSTALL, SEC_KEY_REVOKE (R148, R149): the GO write with that operation. -/
def execSecKeyInstall (slot : Fin 8) (s : State) : Host.Outcome State Fault Refusal :=
  .next (s.barWrite 0 false 0x600000 (word (2 ^ 31 + 0x10 + slot.val)))

def execSecKeyRevoke (slot : Fin 8) (s : State) : Host.Outcome State Fault Refusal :=
  .next (s.barWrite 0 false 0x600000 (word (2 ^ 31 + 0x20 + slot.val)))

/-- The end of a key operation (R148, R150). -/
def Sec.finish (x : Sec) : Sec :=
  match x.op with
  | none => x
  | some (n, some pt) =>
    if x.revoked.getLsbD n || (pointOf pt).isNone then { x with busy := false, op := none, err := true }
    else { x with busy := false, op := none, keys := x.keys.set (fun _ => none) n (some ⟨pt, keyIdOf pt⟩) }
  | some (n, none) =>
    { x with
      busy := false, op := none, keys := x.keys.set (fun _ => none) n none,
      revoked := x.revoked ||| BitVec.ofNat 8 (2 ^ n) }

/-- SEC_KEY_OP_COMPLETE (R150). -/
def execSecKeyOpComplete (s : State) : Host.Outcome State Fault Refusal := .next { s with sec := s.sec.finish }

/-- TRACKING_RESET (R93): a write of TRK_CTL with RESET = 1. -/
def execTrackingReset (v : Dword) (s : State) : Host.Outcome State Fault Refusal :=
  .next (s.barWrite 0 false 0x680000 (v ||| 4#32))

/-- SINE_ROW_MODE_ENABLE (R46, R47): a write of CRW_SINE_CTL with EN = 1. -/
def execSineRowModeEnable (crew : Fin 256) (v : Dword) (s : State) : Host.Outcome State Fault Refusal :=
  .next (s.barWrite 0 false (0x1009104 + 0x10000 * crew.val) (v ||| 1#32))

/-- MGT_SINE_ENABLE (R49): a write of MGT_SINE_CTL with EN = 1. -/
def execMgtSineEnable (v : Dword) (s : State) : Host.Outcome State Fault Refusal :=
  .next (s.barWrite 0 false 0x700404 (v ||| 1#32))

/-- TIME_LATCH_READ (R323, R334): a BAR0 read request of the physical function that covers MGT_TIME_LO, of `len` bytes
from `off`; a zero-length read serves the dword it addresses. -/
def execTimeLatchRead (off len : Nat) (s : State) : Host.Outcome State Fault Refusal :=
  if s.dev.st = .off || s.dev.endpointFault then .next s
  else
    let a := off / 4 * 4
    let r := s.readDwords (max 1 (ceilDiv (off + len - a) 4)) a
    .next (r.1.out (.readData r.2))

/-- TRNG_READ (R334). -/
def execTrngRead (s : State) : Host.Outcome State Fault Refusal :=
  if s.dev.st = .off || s.dev.endpointFault then .next s
  else
    let r := s.readDword 0x600300
    .next (r.1.out (.readData (leBytes 4 r.2.toNat)))

end Sys2Proof.Machine
end

