-- ==== Sys2Proof/Machine/Queues.lean ====
section
/-! DEFINITION. Fetching and examining packets (R170, R171, R177 to R191, R266 to R268), and the rows of the rings. -/
namespace Sys2Proof.Machine

/-! ## Examination -/

/-- The queues are served: the device is up and its endpoint works (R183). -/
def State.serving (s : State) : Bool := s.barLive && !s.dev.endpointFault

/-- Status entries reserved on a queue (R171): those of admitted commands and those the host has not freed. -/
def State.reserved (s : State) (q : QueueId) : Nat := s.outstanding q + (s.queue q).unread

/-- No command of the queue that is accepted only at completion is in progress (R177). -/
def State.unblocked (s : State) (q : QueueId) : Bool := !s.cmds.any (fun c => decide (c.ref.q = q) && c.blocks)

/-- The next entry of a queue may be examined. -/
def State.examinable (s : State) (q : QueueId) : Bool :=
  s.serving && s.unblocked q && s.reserved q < 2 ^ (s.queue q).size.toNat

/-- The group state: the worst over the rings (R266). -/
def gRank : GState → Nat | .up => 0 | .forming => 1 | .degraded => 2
def State.gstate (s : State) : GState :=
  s.group.rings.foldl (fun g r => if gRank g < gRank r.2 then r.2 else g) .up

/-- The opcodes that the top manager forwards (R267). -/
def Op.forwarded (o : Op) : Bool :=
  match o with
  | .ctxOpen | .ctxClose | .pitchBegin | .pitchCommit | .pitchAbort | .swing | .run | .collective | .retrimStep
  | .retrimApply => true
  | _ => false

/-- What a group adds to the checks (R266, R268): a member that is not the top manager, and a group that is not UP. -/
def State.groupAllows (s : State) (q : QueueId) (o : Op) : Bool :=
  if !s.member then true
  else if s.top then !(o.forwarded && decide (o ≠ .ctxClose) && decide (s.gstate ≠ .up))
  else match q with
    | .fwd _ => true
    | .admin => decide (o ≠ .ctxOpen) && decide (o ≠ .ctxClose)
    | .ctx _ => [Op.nop, .identify, .fence, .statsRead, .refresh, .census, .pitchShard].contains o
    | .bow _ => false

def CtxState.inPitch (x : CtxState) : Bool :=
  x = .pitching || x = .committing || x = .committed || x = .draining

/-- Check 6 of R181: the context state allows the opcode (R152, R185, R190); the status where it does not. -/
def State.ctxCheck (s : State) (q : QueueId) (o : Op) (p : Packet) : Option Status :=
  let x := s.ctx (ctxOf q p)
  let need (ok : Bool) : Option Status := if ok then none else some .state
  let aborted : Bool := x.abortMark && p.param 32 2 == x.aborted && (x.st = .opened || x.st = .live)
  match o with
  | .nop | .identify | .fence | .setEnvironment | .setEnvelope | .trimLoad | .trimRead | .trackCtl | .signatureDrain
  | .groupConfig | .groupStatus | .fwStage | .fwActivate | .selftest => none
  | .statsRead => need (x.st ≠ .closing || (decide (q = .admin) && p.param 32 1 == 3))
  | .ctxOpen => need (x.st = .closed)
  | .ctxClose => need (x.st ≠ .closed && x.st ≠ .closing)
  | .pitchBegin => need (x.st = .opened || x.st = .live)
  | .pitchShard => if aborted then some .shardMissing else need (x.st = .pitching)
  | .pitchCommit => if aborted then some .shardMissing else need (x.st = .pitching)
  | .pitchAbort => need (x.st = .pitching || x.st = .committing || x.st = .committed)
  | .swing => need (x.st = .committed)
  | .run | .runBow => need (x.st = .live || x.st = .draining || (x.st.inPitch && x.live ≠ 0))
  | .collective => need (x.st = .live || (x.st.inPitch && x.live ≠ 0))
  | .refresh | .census => need ((q = .admin && p.ctx == 15) || x.st = .live || x.st.inPitch)
  | .retrimStep | .retrimApply => need (x.st = .live)

/-- Reserved bits of an address (R173). -/
def addrRsvOk (a : Nat) : Bool := bitsOf a 62 2 ≠ 1 || bitsOf a 28 34 == 0

/-- Checks 1 to 6 of R181; none where all pass. END_BATCH or EPOCH on an opcode that has none fails check 3 (R188; log entry 124). -/
def State.admission (s : State) (q : QueueId) (o : Op) (p : Packet) : Option Status :=
  if s.dev.st = .safe ∧ !o.devOk .safe then some .fault
  else if !o.queueOk q then some .badOpcode
  else if !o.classOk p.cls || !p.headerRsvOk || !p.paramRsvOk o || !p.batchFieldsOk o || !addrRsvOk p.dataAddr
      || !addrRsvOk p.resultAddr || s.cmds.any (fun c => decide (c.ref = ⟨q, p.tag⟩)) then some .badParam
  else if (match qCtx q with | some c => p.ctx != c | none => false) then some .ctxDenied
  else if !o.devOk s.dev.st || !s.groupAllows q o then some .state
  else s.ctxCheck q o p

/-- Drop the first fetched entry of a queue. -/
def State.popFetched (s : State) (q : QueueId) : State := s.modQueue q (fun x => { x with fetched := x.fetched.drop 1 })

/-- Examine a packet with the effect `f` of its opcode: a failed check is answered, with no side effect; `gen` is the generation that
the CMD message of a forwarded command carries, and so its STATUS (R180). RESULT0 and RESULT1 of such an answer are 0, a
SHARD_MISSING of R152 among them (log entry 129). -/
def State.examine (s : State) (gen : Nat) (q : QueueId) (o : Op) (f : QueueId → Packet → State → State) (p : Packet) : State :=
  match s.admission q o p with
  | some st => s.replyGen gen q p st 0 0 0
  | none => f q p s

/-- Some compute die without power has power at envelope `e`. -/
def State.raises (s : State) (e : Nat) : Bool := (List.range 4).any (fun d => !diePowered s.env.env d && diePowered e d)

/-- The effect of a packet moves data to or from HBM within its row: a manifest, a retrim area, the trim record, a firmware image. -/
def State.movesHbm (s : State) (o : Op) (p : Packet) : Bool :=
  match o with
  | .pitchBegin | .retrimApply | .trimRead | .fwStage | .fwActivate => true
  | .trimLoad => decide (s.dev.st = .boathouse)
  | .setEnvelope => s.env.trimLoaded && s.raises (p.param 32 1)
  | .setEnvironment => s.env.trimLoaded && s.raises (p.param 42 1)
  | _ => false

/-- A packet that passes the checks of R181 waits for the tokens of its transfer (R304; log entry 50). -/
def State.waitsHbm (s : State) (q : QueueId) (o : Op) (p : Packet) : Bool :=
  s.movesHbm o p && !s.hbmOpen (p.cls == 2) && (s.admission q o p).isNone

/-- The row of an opcode: it examines the queue's next entry, where that entry has the opcode, may be examined, and need not wait for
HBM tokens. -/
def State.packetRow (s : State) (q : QueueId) (o : Op) (f : QueueId → Packet → State → State) : State :=
  match (s.queue q).fetched with
  | [] => s
  | p :: _ =>
    if p.opcode = o.code ∧ s.examinable q then
      if s.waitsHbm q o p then s.hbmWait (p.cls == 2) else (s.popFetched q).examine 0 q o f p
    else s

/-- A host-form RESULT_ADDR with LENGTH as its capacity, and no DATA_ADDR. -/
def Packet.hostResult (p : Packet) : Option Nat :=
  match addrOf p.resultAddr with
  | some (.host a) => if p.dataAddr = 0 ∧ a + p.length ≤ 2 ^ 62 then some a else none
  | _ => none

/-- A parity error in the words of a packet (R222, R223): it ends with PARITY and has no effect. An error in the egress buffers has met
its result on the way to the host, whose bytes are unspecified (R231; log entry 116). -/
def State.packetParity (s : State) (q : QueueId) (p : Packet) (e : ParityErr) : State :=
  let s := match p.hostResult with
    | some a =>
      if bitsOf e.hop.toNat 12 4 = 1 then
        { s.writeHost a ((List.range p.length).map (fun i => Config.freeByte i s.free)) with free := s.free + 1 }
      else s
    | none => s
  ((s.parityNote (qCtx q) (some p.tag.toNat) e).reply q p .parity 0 0 0).parityCrew e

/-- The opcode that stands in a packet's words is allowed in SAFE. -/
def Packet.safeOp (p : Packet) : Bool := (opOf (field p.bytes 0 1)).any (fun o => o.devOk .safe)

/-- Answer the entries at the front of a queue that no row takes: one whose opcode is unknown, and one with an error in its words, which
in SAFE is answered with FAULT before the error counts, unless its opcode is one that SAFE allows (R181 checks 1 and 2, R223). -/
def State.rejectUnknown : Nat → State → QueueId → State
  | 0, s, _ => s
  | n + 1, s, q =>
    match (s.queue q).fetched with
    | [] => s
    | p :: _ =>
      if (opOf p.opcode).isNone && s.examinable q then
        State.rejectUnknown n
          (match p.err with
            | some e =>
              if s.dev.st = .safe ∧ !p.safeOp then (s.popFetched q).reply q p .fault 0 0 0 else (s.popFetched q).packetParity q p e
            | none => (s.popFetched q).reply q p (if s.dev.st = .safe then .fault else .badOpcode) 0 0 0) q
      else s

def State.sweep (s : State) (q : QueueId) : State := State.rejectUnknown (s.queue q).fetched.length s q

/-! ## Fetching (R170) -/

/-- Entry `i` of a submission ring. -/
def State.sqEntry (s : State) (x : Queue) (i : Nat) : List Byte :=
  Memory.readBytes s.host (x.sqBase.toNat + 64 * (i % 2 ^ x.size.toNat)) 64

/-- Entries between the head and the tail. -/
def Queue.avail (x : Queue) : Nat := (x.sqTail.toNat + 2 ^ x.size.toNat - x.sqHead.toNat) % 2 ^ x.size.toNat

/-- Extension entries of an entry (R170, R195): E of a RUN_BOW on a bow queue, where it lies in 1 to 32. -/
def extOf (q : QueueId) (e : List Byte) : Nat :=
  match q with
  | .bow _ =>
    let n := field e 34 1
    if field e 0 1 = 0x21 ∧ 1 ≤ n ∧ n ≤ 32 then n else 0
  | _ => 0

/-- Fetch one entry, with its extension entries once the tail covers them; `err` is an error that the command's buffers find in it. -/
def State.fetch (s : State) (q : QueueId) (err : Option ParityErr) : State :=
  let x := s.queue q
  if !s.serving || !x.enable || x.avail = 0 then s
  else
    let e := s.sqEntry x x.sqHead.toNat
    let n := extOf q e
    if x.avail < 1 + n then s
    else
      let ext := (List.range n).flatMap (fun i => s.sqEntry x (x.sqHead.toNat + 1 + i))
      s.setQueue q { x with
        fetched := x.fetched ++ [⟨e, ext, err⟩],
        sqHead := BitVec.ofNat 12 ((x.sqHead.toNat + 1 + n) % 2 ^ x.size.toNat) }

/-- SQ_ENTRY_FETCH (R170, R222): the device fetches the next entry; an entry with an unknown opcode, or with an error in its words, is
answered when its turn comes. -/
def execSqEntryFetch : Checked QueueId → State → Host.Outcome State Fault Refusal
  | ⟨q, err⟩, s => .next ((s.fetch q err).sweep q)

/-- CQ_DOORBELL (R171): a write of PCI_QCQ_HEAD, which may let the next entry be examined. -/
def execCqDoorbell (q : QueueId) (v : Dword) (s : State) : Host.Outcome State Fault Refusal :=
  .next (if s.barLive && decide (qIdx q < 33) then (s.writeQueueReg q 0x018 v).sweep q else s)

/-- RING_READ_ERROR (R170): ENABLE is cleared, RINGERR set, a signature emitted. -/
def execRingReadError (q : QueueId) (s : State) : Host.Outcome State Fault Refusal :=
  let x := s.queue q
  .next (if s.serving && x.enable && decide (x.avail ≠ 0) then
    (s.setQueue q { x with enable := false, ringErr := true }).emit 0x15
      { ctx := qCtx q, data := leBytes 1 (qKind q) ++ leBytes 1 ((qCtx q).getD 0) }
  else s)

/-! ## Address forms of R191 -/

/-- DATA_ADDR, RESULT_ADDR and LENGTH are all 0. -/
def Packet.noAddrs (p : Packet) : Bool := p.dataAddr == 0 && p.resultAddr == 0 && p.length == 0

/-- A host-form DATA_ADDR with LENGTH, and no RESULT_ADDR. -/
def Packet.hostData (p : Packet) : Option Nat :=
  match addrOf p.dataAddr with
  | some (.host a) => if p.resultAddr = 0 ∧ a + p.length ≤ 2 ^ 62 then some a else none
  | _ => none

/-! ## NOP, IDENTIFY, FENCE -/

/-- NOP. -/
def effNop (q : QueueId) (p : Packet) (s : State) : State :=
  if p.noAddrs then s.done q p .ok 0 0 else s.reply q p .badParam 0 0 0

def execNop (q : QueueId) (s : State) : Host.Outcome State Fault Refusal := .next (s.packetRow q .nop effNop)

/-- The IDENTIFY structure (R192); through a context queue the other contexts' nibbles read 0xF. -/
def State.identify (s : State) (q : QueueId) : List Byte :=
  let nib (c : Nat) : Nat :=
    match qCtx q with
    | some k => if c = k then ctxCode (s.ctx c).st else 0xF
    | none => ctxCode (s.ctx c).st
  let ctxs := sumNat ((List.range 16).map (fun c => nib c * 16 ^ c))
  let head := leBytes 4 chipId ++ leBytes 4 0 ++ leBytes 8 Config.serial.toNat ++ leBytes 8 s.dev.fwVer.toNat
    ++ leBytes 8 s.dev.ucVer.toNat
    ++ leBytes 1 (devCode s.dev.st) ++ leBytes 1 s.env.env
    ++ leBytes 1 (bitAt s.env.trimLoaded 0 + bitAt s.env.envSet 1 + bitAt s.env.mode 2) ++ leBytes 1 0
    ++ leBytes 8 ctxs ++ leBytes 4 s.env.position.toNat ++ leBytes 8 s.dev.timeBase.toNat
  head ++ List.replicate (4096 - head.length) 0

/-- IDENTIFY (R192). -/
def effIdentify (q : QueueId) (p : Packet) (s : State) : State :=
  match p.hostResult with
  | some a =>
    if 4096 ≤ p.length then (s.writeHost a (s.identify q)).done q p .ok 4096 0 else s.reply q p .badParam 0 0 0
  | none => s.reply q p .badParam 0 0 0

def execIdentify (q : QueueId) (s : State) : Host.Outcome State Fault Refusal := .next (s.packetRow q .identify effIdentify)

/-- FENCE (R196): the queue waits for it. -/
def effFence (q : QueueId) (p : Packet) (s : State) : State :=
  if p.noAddrs then s.enrol (mkCmd s q p true .fence) else s.reply q p .badParam 0 0 0

def execFence (q : QueueId) (s : State) : Host.Outcome State Fault Refusal := .next (s.packetRow q .fence effFence)

/-- FENCE_COMPLETE (R183, R196): every command admitted before it on its queue has completed. -/
def execFenceComplete (q : QueueId) (s : State) : Host.Outcome State Fault Refusal :=
  match s.cmds.find? (fun c => decide (c.ref.q = q) && decide (c.work = .fence)) with
  | none => .next s
  | some f =>
    if s.cmds.any (fun c => decide (c.ref.q = q) && decide (c.seq < f.seq)) then .next s
    else .next (s.complete f .ok 0 0)

/-! ## STATS_READ, SIGNATURE_DRAIN (R197, R198) -/

/-- The logical arrays that a context holds on either plane, as 16 * crew + l, ascending (R197). -/
def State.ctxArrays (s : State) (c : Nat) : List Nat :=
  let x := s.ctx c
  let ys := x.gens.flatMap (·.assigns) ++ (match x.pitch with | some p => p.g.assigns | none => [])
  (ys.foldl (fun t y => Tbl.put t (16 * y.crew + y.l) ()) ([] : Tbl Unit)).map (·.1)

/-- The 24-byte record of one array. -/
def State.statRecord (s : State) (k : Nat) : List Byte :=
  let x := s.arr (s.physArr (k / 16) (k % 16))
  leBytes 2 (k / 16) ++ leBytes 1 (k % 16) ++ leBytes 1 (bitAt x.satCal 0) ++ leBytes 4 x.satStrokes.toNat
    ++ leBytes 4 x.satCols.toNat ++ leBytes 2 x.satWin ++ [0, 0] ++ leBytes 4 x.lmseSum.toNat ++ leBytes 4 x.lmseCount.toNat

def Slot.bytes (x : Slot) : List Byte :=
  leBytes 4 x.sumsq.toNat ++ leBytes 4 x.count.toNat ++ leBytes 4 x.clamp.toNat ++ leBytes 4 x.maxsq.toNat

/-- What STATS_READ returns for a selection. -/
def State.statBytes (s : State) (c sel : Nat) : List Byte :=
  if sel = 1 then (s.ctxArrays c).flatMap s.statRecord
  else if sel = 2 then (List.range 256).flatMap (fun i => ((s.ctx c).slots.get Slot.dflt i).bytes)
  else leBytes 4 s.env.p2pDrop.toNat

def Arr.clearStats (x : Arr) : Arr :=
  { x with satStrokes := 0, satCols := 0, lmseSum := 0, lmseCount := 0, satCal := false }

/-- What CLEAR clears (R197). -/
def State.statClear (s : State) (c sel : Nat) : State :=
  if sel = 1 then s.each (s.ctxArrays c) (fun s k => s.modArr (s.physArr (k / 16) (k % 16)) Arr.clearStats)
  else if sel = 2 then s.modCtx c (fun x => { x with slots := [] })
  else { s with env := { s.env with p2pDrop := 0 } }

/-- STATS_READ (R197). -/
def effStatsRead (q : QueueId) (p : Packet) (s : State) : State :=
  let sel := p.param 32 1
  let c := ctxOf q p
  let bs := s.statBytes c sel
  match p.hostResult with
  | some a =>
    if !(sel = 1 || sel = 2 || (sel = 3 && q = .admin)) || p.length < bs.length then s.reply q p .badParam 0 0 0
    else
      let s := s.writeHost a bs
      (if p.clear then s.statClear c sel else s).done q p .ok bs.length 0
  | none => s.reply q p .badParam 0 0 0

def execStatsRead (q : QueueId) (s : State) : Host.Outcome State Fault Refusal :=
  .next (s.packetRow q .statsRead effStatsRead)

/-- A signature in its 256-byte slot (R198). -/
def padSig (b : List Byte) : List Byte := (b ++ List.replicate 256 0).take 256

/-- SIGNATURE_DRAIN (R198, R241). -/
def effSignatureDrain (q : QueueId) (p : Packet) (s : State) : State :=
  match p.hostResult with
  | some a =>
    if p.length % 256 ≠ 0 then s.reply q p .badParam 0 0 0
    else
      let n := min (p.length / 256) s.sig.store.length
      let s' := s.writeHost a ((s.sig.store.take n).flatMap padSig)
      { s' with sig := { s'.sig with store := s'.sig.store.drop n } }.done q p .ok n (s.sig.store.length - n)
  | none => s.reply q p .badParam 0 0 0

def execSignatureDrain (q : QueueId) (s : State) : Host.Outcome State Fault Refusal :=
  .next (s.packetRow q .signatureDrain effSignatureDrain)

/-! ## TRACK_CTL (R92) -/

/-- TRACK_CTL writes TRK_CTL, TRK_POLICY or both. -/
def effTrackCtl (q : QueueId) (p : Packet) (s : State) : State :=
  let sel := p.param 40 1
  if !p.noAddrs || 4 ≤ sel || (bitOf sel 1 && !policyOk (p.param 36 4)) then s.reply q p .badParam 0 0 0
  else
    let s := if bitOf sel 0 then s.writeTrkCtl (p.param 32 4) else s
    let s := if bitOf sel 1 then { s with cfg := s.cfg.writePolicy (p.param 36 4) } else s
    s.done q p .ok 0 0

def execTrackCtl (q : QueueId) (s : State) : Host.Outcome State Fault Refusal := .next (s.packetRow q .trackCtl effTrackCtl)

end Sys2Proof.Machine
end

