-- ==== Sys2Proof/Machine/Boot.lean ====
section
/-! DEFINITION. Resets, BIST, boot, firmware, SAFE causes, telemetry transactions, sideband and test port (R166 to R168,
R182, R199, R200, R242 to R248, R291 to R301, R310 to R320, R334, R340, R347). -/
namespace Sys2Proof.Machine

/-! ## Resets (R295, R296, R299) -/

/-- The device part after a reset: what survives is the flash, and for a device reset the PCIe configuration. STRAP reads 0 until
the release latches the straps (R319). -/
def Dev.afterReset (d : Dev) (keepCfg keepLink : Bool) : Dev :=
  { Dev.reset with
    perst := d.perst, devRst := d.devRst, sbAddr := d.sbAddr, flash := d.flash, jtag := d.jtag
    pciLink := if keepLink then d.pciLink else 0
    vfEn := if keepCfg then d.vfEn else 0
    vfMsix := if keepCfg then d.vfMsix else 0
    msix := if keepCfg then d.msix else []
    vfTable := if keepCfg then d.vfTable else [] }

/-- A reset of the device: commands in flight get no status; signatures, statistics, contexts and trim are lost (R243,
R248, R296). Host memory, what has left the device and the waiting commands are no part of it. -/
def State.resetAll (s : State) (keepCfg keepLink : Bool) : State :=
  { State.reset with
    dev := s.dev.afterReset keepCfg keepLink
    env := { Env.reset with env := s.env.bootEnv, bootEnv := s.env.bootEnv }
    host := s.host, outs := s.outs, free := s.free + 1, pending := s.pending }

/-- PERST_ASSERT (R295): a low pulse of at least 200 ns resets everything. -/
def execPerstAssert (ns : Nat) (s : State) : Host.Outcome State Fault Refusal :=
  .next (if s.dev.st = .off || ns < 200 then s
    else { s with dev := { s.dev with perst := true } }.resetAll false false)

/-- DEV_RST_ASSERT (R295): everything but the PCIe link and configuration space. -/
def execDevRstAssert (ns : Nat) (s : State) : Host.Outcome State Fault Refusal :=
  .next (if s.dev.st = .off || ns < 200 then s
    else { s with dev := { s.dev with devRst := true } }.resetAll true true)

/-- PF_FLR (R167, R295): as DEV_RST_N; the configuration state follows PCIe FLR. -/
def execPfFlr (s : State) : Host.Outcome State Fault Refusal :=
  .next (if s.dev.st = .off then s else s.resetAll false true)

/-- PCIE_DL_DOWN (R294, R295): an internal DEV_RST_N. -/
def execPcieDlDown (s : State) : Host.Outcome State Fault Refusal :=
  .next (if s.dev.st = .off then s else s.resetAll true true)

/-- POWER_LOSS (R182, R243, R299): the device is OFF; FAULT_N is high impedance (R247). -/
def execPowerLoss (s : State) : Host.Outcome State Fault Refusal :=
  let t := s.resetAll false false
  .next { t with dev := { t.dev with st := .off, faultN := false, jtag := .idcode } }

/-- Instructions that drive or sample the pins (R347). -/
def jtagScan (i : JtagOp) : Bool := i ≠ .idcode && i ≠ .bypass

/-- RESET_RELEASE (R182, R295, R301, R310, R319, R342): the straps are latched, PWR_STATUS takes the boot envelope, the time
base starts at 0, BIST begins with stage 1, the PCIe link is up with what it negotiates (log entry 81); a boundary-scan
instruction gives way to Test-Logic-Reset (R347). A device that entered SAFE while the reset was asserted stays in SAFE: no
transition of R182 leaves it at a release (log entry 114). -/
def execResetRelease (role : BitVec 2) (sb : BitVec 3) (s : State) : Host.Outcome State Fault Refusal :=
  let safe : Bool := s.dev.st == .safe
  if !s.dev.released then
    .next { s with
      dev :=
        { s.dev with
          st := if safe then .safe else .resetHold, released := true, perst := false, devRst := false, strap := role, sbAddr := sb
          faultN := true, locked := safe, timeBase := 0, bistStage := 1
          safeCause := if safe then s.dev.safeCause else 0, endpointFault := safe && s.dev.endpointFault
          pciLink := if s.dev.pciLink = 0 then Config.pciLink s.free else s.dev.pciLink
          jtag := if jtagScan s.dev.jtag then .idcode else s.dev.jtag }
      env := { s.env with env := role.toNat + 1, bootEnv := role.toNat + 1 } }
  else .next s

/-- PLL_LOCK (R291, R300): the island changes to CLK_M, and the nominal voltages of VDD_CORE (AVSBus rail 0) and VDD_ARR (rail 1)
are written as targets. -/
def execPllLock (s : State) : Host.Outcome State Fault Refusal :=
  if !s.dev.released || s.dev.pllLocked then .next s
  else .next (({ s with dev := { s.dev with pllLocked := true } }.out (.avsTarget 0 750)).out (.avsTarget 1 900))

/-! ## Self-test stages (R310, R311) -/

/-- E_k of a lantern column in a BIST test stroke: at fold 4 a row group drives 128 rows at code 8, and the cell's level stands for
its conductance (R23, R86; log entry 96). -/
def bistExpected (k : Nat) : Rat := ((nominalTarget (lanternLevel k) : Nat) : Rat) / 128 * 1024 * 2 / 125

/-- A strictly rising list. -/
def rising (l : List Nat) : Bool := (l.zip (l.drop 1)).all (fun e => decide (e.1 < e.2))

/-- Stage 3: every lantern cell within 2.0 microsiemens of its level, every lantern code within 25 % and 8 codes of E_k and in order,
every data code in 4 to 336. -/
def arrayTestOk (t : ArrayTest) : Bool :=
  t.cells.zipIdx.all (fun e => decide ((e.1 : Int) - nominalTarget (lanternLevel e.2) ≤ 128
      ∧ (nominalTarget (lanternLevel e.2) : Int) - e.1 ≤ 128))
  && t.lan.zipIdx.all (fun e => decide (absQ ((e.1 : Nat) - bistExpected e.2) ≤ bistExpected e.2 / 4 + 8))
  && rising (t.lan.take 4) && rising (t.lan.drop 4)
  && t.data.all (fun c => decide (4 ≤ c ∧ c ≤ 336))

/-- The codes of an ADC in the test strokes of its pass (stage 4). -/
def adcCodes (t : AdcTest) : List Nat :=
  t.dev.zipIdx.map (fun e => (clampInt 0 1023 ((injectedIdeal (injectedSample e.2) : Nat) + e.1)).toNat)

/-- The bin of a code in the histogram of a pass: 16 bits, which stop at 0xFFFF. -/
def adcBin (t : AdcTest) (code : Nat) : Nat := min 0xFFFF ((adcCodes t).countP (· == code))

/-- The injected charge of test stroke `k` in codes, before rounding: 1.024 (Sa - 8). -/
def injectedCode (k : Nat) : Rat := ((injectedSample k : Int) - 8 : Int) * (128 / 125 : Rat)

/-- The ideal arcsine density of code `k`: that of a sine of amplitude 511 about 511.5, less 8, times 1.024 (R44; log entry 115). -/
def arcsineDensity (k : Nat) : Rat :=
  let a : Rat := 511 * (128 / 125)
  let d : Rat := (k : Rat) - (511 + 1 / 2 - 8) * (128 / 125)
  1 / (((piFix : Nat) : Rat) / ((2 ^ 64 : Nat) : Rat) * sqrtQ (a * a - d * d))

/-- The differential nonlinearity of a code: the strokes in its bin over those that the density gives it, less 1. -/
def adcDnl (t : AdcTest) (k : Nat) : Rat := ((adcBin t k : Nat) : Rat) / (((t.dev.length : Nat) : Rat) * arcsineDensity k) - 1

/-- The points of the fit: injected charge and code, of the strokes whose ideal code is not at an end of the range. -/
def adcPoints (t : AdcTest) : List (Rat × Rat) :=
  (((adcCodes t).zipIdx).filter (fun e => let i := injectedIdeal (injectedSample e.2); 1 ≤ i && i ≤ 1022)).map (fun e =>
    (injectedCode e.2, ((e.1 : Nat) : Rat)))

/-- The least-squares line through points: slope, and value at 0. -/
def fitLine (l : List (Rat × Rat)) : Rat × Rat :=
  let n : Rat := ((l.length : Nat) : Rat)
  let sx := sumQ (l.map (·.1))
  let sy := sumQ (l.map (·.2))
  let g := (n * sumQ (l.map (fun e => e.1 * e.2)) - sx * sy) / (n * sumQ (l.map (fun e => e.1 * e.1)) - sx * sx)
  (g, (sy - g * sx) / n)

/-- Stage 4: every code from 1 to 1022 occurs, the differential nonlinearity lies in -0.9 to +1.0 code, the fitted gain in 0.80 to
1.25, the fitted offset within 64 codes (log entry 115). -/
def adcOk (t : AdcTest) : Bool :=
  let f := fitLine (adcPoints t)
  (List.range 1022).all (fun i => adcBin t (i + 1) ≠ 0)
  && (List.range 1022).all (fun i => decide (-9 / 10 ≤ adcDnl t (i + 1) ∧ adcDnl t (i + 1) ≤ 1))
  && decide (8 / 10 ≤ f.1 ∧ f.1 ≤ 125 / 100) && decide (absQ f.2 ≤ 64)

/-- Stage 5: no uncorrectable codeword and fewer than 64 corrected ones. -/
def portTestOk (t : PortTest) : Bool := t.uncorr == 0 && decide (t.corr < 64)

/-- Stage `n` passes on the dies and ports of `dies` and `ports`: the readings of other units do not count. -/
def bistPasses (rd : BistReading) (dies ports n : Nat) : Bool :=
  match n with
  | 1 => rd.logic
  | 2 => rd.memory && rd.trained
  | 3 => (rd.arrays.filter (fun t => bitOf dies (crewDie t.crew.val))).all arrayTestOk
  | 4 => (rd.adcs.filter (fun t => bitOf dies (crewDie t.crew.val))).all adcOk
  | _ => (rd.ports.filter (fun t => bitOf ports t.port.val)).all portTestOk

/-- BIST_STAGE_COMPLETE (R310, R312, R313), after PLL lock (R320): the stage's readings decide; stage 5 is skipped at the E1 boot
envelope; a failure ends BIST and leaves a signature in the mirror alone. -/
def execBistStageComplete (rd : BistReading) (s : State) : Host.Outcome State Fault Refusal :=
  if s.dev.st ≠ .resetHold || !s.dev.released || !s.dev.pllLocked || s.dev.bistDone then .next s
  else
    let last : Nat := if s.env.bootEnv = 1 then 4 else 5
    let n := s.dev.bistStage.toNat
    if !bistPasses rd (envDies s.env.bootEnv) (envLinks s.env.bootEnv) n then
      let b := s.sigBytes 0x17 { data := leBytes 1 n }
      .next { s with
        dev := { s.dev with bistDone := true, bistPass := false }
        sig := { s.sig with seq := s.sig.seq + 1, mirror := pushMirror s.sig.mirror b } }
    else if n < last then .next { s with dev := { s.dev with bistStage := s.dev.bistStage + 1 } }
    else .next { s with dev := { s.dev with bistDone := true, bistPass := true } }

/-! ## Images (R314 to R316) -/

def imgType (h : List Byte) : Nat := field h 4 1
def imgLen (h : List Byte) : Nat := field h 8 4
def imgVersion (h : List Byte) : Nat := field h 16 8
def imgNcompat (h : List Byte) : Nat := field h 24 2

/-- The header of an image is well formed (R315). -/
def imgHeaderOk (h : List Byte) : Bool :=
  let n := imgNcompat h
  let len := imgLen h
  slice h 0 4 == [0x56, 0x46, 0x57, 0x49] && (imgType h == 1 || imgType h == 2) && zeroAt h 5 3 && zeroAt h 12 4
  && zeroAt h 26 6 && zeroAt h 40 216
  && (if imgType h == 1 then 1 ≤ n && n ≤ 64 && len ≤ 0x1000000 else n == 0 && len ≤ 0x100000)
  && 256 + 16 * n + 96 ≤ len && 256 + 16 * n ≤ field h 32 4 && field h 32 4 + field h 36 4 + 96 ≤ len

/-- Base of an image slot (R314): type 1 Cox firmware, 2 microcode; bank B at + 16 MiB. -/
def flashSlot (type : Nat) (bankB : Bool) : Nat := (if type = 1 then 0 else 0x2000000) + (if bankB then 0x1000000 else 0)

/-- The image in a slot, if it is valid there (R316). -/
def Dev.image (d : Dev) (type : Nat) (bankB : Bool) : Option (List Byte) :=
  let a := flashSlot type bankB
  let h := Memory.readBytes d.flash a 256
  if imgHeaderOk h && imgType h == type then
    let b := Memory.readBytes d.flash a (imgLen h)
    if signedOk Config.firmwareKey b then some b else none
  else none

/-- The newer of two images, with its bank; equal versions take bank A (R316). -/
def newest (a b : Option (List Byte)) : Option (List Byte × Bool) :=
  match a, b with
  | some x, some y => if imgVersion x < imgVersion y then some (y, true) else some (x, false)
  | some x, none => some (x, false)
  | none, some y => some (y, true)
  | none, none => none

/-- The compatibility entries of a firmware image: stepping, microcode version (R315). -/
def compat (img : List Byte) : List (Nat × Nat) :=
  (List.range (imgNcompat img)).map (fun i => (field img (256 + 16 * i) 1, field img (264 + 16 * i) 8))

/-- Keep an image whose version the firmware lists for this stepping. -/
def listedImage (cox : List Byte) (u : Option (List Byte)) : Option (List Byte) :=
  u.filter (fun x => (compat cox).contains (stepping, imgVersion x))

/-- Enter READY or BOATHOUSE with what runs: FAULT_N is released and the RWL fields lock (R8, R247, R320). -/
def Dev.enter (d : Dev) (st : DevState) (cause bank uc fw ucv : Nat) : Dev :=
  { d with
    st := st, bcause := BitVec.ofNat 4 cause, bank := BitVec.ofNat 2 bank, ucBank := BitVec.ofNat 2 uc
    fwVer := BitVec.ofNat 64 fw, ucVer := BitVec.ofNat 64 ucv, faultN := false, locked := true }

def bankCode (b : Bool) : Nat := if b then 1 else 0

/-- The boot ROM's choice (R316). -/
def Dev.boot (d : Dev) : Dev :=
  match newest (d.image 1 false) (d.image 1 true) with
  | none => d.enter .boathouse 3 3 3 0 0
  | some (cox, b) =>
    if !(compat cox).any (fun e => e.1 == stepping) then d.enter .boathouse 1 (bankCode b) 3 (imgVersion cox) 0
    else match newest (listedImage cox (d.image 2 false)) (listedImage cox (d.image 2 true)) with
      | none => d.enter .boathouse 2 (bankCode b) 3 (imgVersion cox) 0
      | some (uc, u) =>
        if d.forceBh then d.enter .boathouse 4 (bankCode b) 3 (imgVersion cox) 0
        else d.enter .ready 0 (bankCode b) (bankCode u) (imgVersion cox) (imgVersion uc)

/-- BOOT_IMAGE_SELECT (R316, R320): after PLL lock and a BIST that has passed. The security island's random source is in service
from then on, as its health tests say (R334; log entry 14). -/
def execBootImageSelect (s : State) : Host.Outcome State Fault Refusal :=
  if s.dev.st = .resetHold && s.dev.released && s.dev.pllLocked && s.dev.bistDone && s.dev.bistPass then
    .next { s with dev := { s.dev.boot with trngOk := Config.trngOk s.free }, free := s.free + 1 }
  else .next s

/-! ## SAFE causes (R244) -/

/-- A cause of R244 is detected: from any state but OFF. While a reset is asserted a rail may leave its tolerance (cause 0x07). -/
def State.safeEvent (s : State) (cause : Nat) (endpoint : Bool) : State :=
  if cause = 0x07 && !s.dev.released then s else s.enterSafe cause endpoint

def faultCause : SharedFault → Nat
  | .lockstepA => 0x01 | .lockstepB => 0x02 | .sharedParity => 0x03 | .hbmFault => 0x05 | .securityIsland => 0x0A
  | .comparatorHalves => 0x0B

/-- SHARED_FAULT_DETECTED (R244, R246); `endpoint` tells that the fault lies in the PCIe endpoint (R183). -/
def execSharedFaultDetected (f : SharedFault) (endpoint : Bool) (s : State) : Host.Outcome State Fault Refusal :=
  .next (s.safeEvent (faultCause f) endpoint)

/-- PLL_UNLOCK (R291): cause 0x06. -/
def execPllUnlock (s : State) : Host.Outcome State Fault Refusal :=
  if s.dev.pllLocked then .next ({ s with dev := { s.dev with pllLocked := false } }.safeEvent 0x06 false) else .next s

/-- REFCLK_LOSS_TIMEOUT (R291): cause 0x06. -/
def execRefclkLossTimeout (s : State) : Host.Outcome State Fault Refusal := .next (s.safeEvent 0x06 false)

/-- RAIL_TOLERANCE_TIMEOUT (R244, R351, R352): cause 0x07; in SAFE VDD_WR may be removed, which causes no further transition. -/
def execRailToleranceTimeout : RailFault → State → Host.Outcome State Fault Refusal
  | ⟨rail, above⟩, s => .next (if s.dev.st = .safe && decide (rail.val = 5) && !above then s else s.safeEvent 0x07 false)

/-- OVERTEMP_TIMEOUT (R244, R305): the junction has been above 130 degC for 1 ms, cause 0x08; the hottest sensor shows it. -/
def execOvertempTimeout (s : State) : Host.Outcome State Fault Refusal :=
  .next (if 130 * 16 < s.tel.hottest then s.safeEvent 0x08 false else s)

/-- NOC_CREDIT_WATCHDOG (R244): cause 0x04. -/
def execNocCreditWatchdog (s : State) : Host.Outcome State Fault Refusal := .next (s.safeEvent 0x04 false)

/-! ## SELFTEST (R200) -/

/-- SELFTEST: accepted at completion. -/
def effSelftest (q : QueueId) (p : Packet) (s : State) : State :=
  if p.noAddrs then s.enrol (mkCmd s q p true .selftest) else s.reply q p .badParam 0 0 0

def execSelftest (q : QueueId) (s : State) : Host.Outcome State Fault Refusal := .next (s.packetRow q .selftest effSelftest)

/-- SELFTEST passes: stages 3 to 5 on the powered resources, stage 5 on the ports whose bypass is closed (R310). -/
def State.selftestOk (s : State) (rd : BistReading) : Bool :=
  let ports := sumNat ((List.range 4).map (fun p => bitAt (bitOf (envLinks s.env.env) p && (s.port p).bypass) p))
  [3, 4, 5].all (bistPasses rd (envDies s.env.env) ports)

/-- SELFTEST_COMPLETE: OK on a pass; on a failure SAFE with cause 0x09, which completes it with FAULT. -/
def execSelftestComplete (rd : BistReading) (s : State) : Host.Outcome State Fault Refusal :=
  match s.cmds.find? (fun c => decide (c.work = .selftest)) with
  | none => .next s
  | some c => .next (if s.selftestOk rd then s.complete c .ok 0 0 else s.safeEvent 0x09 false)

/-! ## Firmware (R199, R317, R318) -/

/-- FW_STAGE: bytes at OFFSET of a staging image of TOTAL bytes; another TOTAL starts a new image. -/
def effFwStage (q : QueueId) (p : Packet) (s : State) : State :=
  let off := p.param 32 4
  let total := p.param 36 4
  match p.hostData with
  | some a =>
    if p.length = 0 || 1048576 < p.length || total < off + p.length then s.reply q p .badParam 0 0 0
    else
      let e := if s.env.fwTotal = total then s.env else { s.env with fwTotal := total, fwBytes := [], fwCover := [] }
      ({ s with env := { e with
        fwBytes := Memory.writeBytes e.fwBytes off (Memory.readBytes s.host a p.length)
        fwCover := (off, off + p.length) :: e.fwCover } }.chargeHbm false p.length).done q p .ok p.length 0
  | none => s.reply q p .badParam 0 0 0

def execFwStage (q : QueueId) (s : State) : Host.Outcome State Fault Refusal := .next (s.packetRow q .fwStage effFwStage)

/-- How far a list of intervals covers from `x` without a gap. -/
def coverTo (l : List (Nat × Nat)) : Nat → Nat → Nat
  | 0, x => x
  | n + 1, x =>
    match l.find? (fun e => e.1 ≤ x && x < e.2) with
    | some e => coverTo l n e.2
    | none => x

/-- Every byte of the staging image has been staged. -/
def Env.fwComplete (e : Env) : Bool := e.fwTotal ≠ 0 && e.fwTotal ≤ coverTo e.fwCover e.fwCover.length 0

/-- The bank that FW_ACTIVATE writes (R317): true for B. -/
def Dev.freeBank (d : Dev) (type : Nat) : Bool := if type = 1 then d.bank == 0 else d.ucBank == 0

/-- FW_ACTIVATE: BAD_PARAM for an incomplete image, SIG_BAD for a failed signature (R199); a signed image whose TYPE names no bank,
or that its bank cannot hold, has no place to be written: BAD_PARAM (log entry 97). Then the unused bank is erased and programming
starts (an interrupted bank holds no valid image). -/
def effFwActivate (q : QueueId) (p : Packet) (s : State) : State :=
  let b := Memory.readBytes s.env.fwBytes 0 s.env.fwTotal
  if !p.noAddrs || !s.env.fwComplete then s.reply q p .badParam 0 0 0
  else if !signedOk Config.firmwareKey b then s.reply q p .sigBad 0 0 0
  else if !(imgType b == 1 || imgType b == 2) || 0x1000000 < b.length then s.reply q p .badParam 0 0 0
  else
    let a := flashSlot (imgType b) (s.dev.freeBank (imgType b))
    ({ s with dev := { s.dev with
      flash := s.dev.flash.filter (fun c => c.1 < a || a + 0x1000000 ≤ c.1) } }.chargeHbm false b.length).enrol (mkCmd s q p true (.flash b))

def execFwActivate (q : QueueId) (s : State) : Host.Outcome State Fault Refusal :=
  .next (s.packetRow q .fwActivate effFwActivate)

/-- FLASH_PROGRAMMING_COMPLETE (R317, R318): the image stands in its bank; OK is written, then the device restarts as by
DEV_RST_N. -/
def execFlashProgrammingComplete (s : State) : Host.Outcome State Fault Refusal :=
  match s.cmds.find? (fun c => match c.work with | .flash _ => true | _ => false) with
  | none => .next s
  | some c =>
    match c.work with
    | .flash b =>
      let s := { s with dev := { s.dev with
        flash := Memory.writeBytes s.dev.flash (flashSlot (imgType b) (s.dev.freeBank (imgType b))) b } }
      .next ((s.complete c .ok 0 0).resetAll true true)
    | _ => .next s

/-! ## Telemetry transactions (R300) -/

/-- Take the readings of rails `r`, `r + 1`, and so on: a good one is stored; a failed one counts. -/
def Tel.readRails : Tel → Nat → List RailReading → Tel
  | t, _, [] => t
  | t, r, x :: xs =>
    Tel.readRails
      (match x with
        | some (v, i) => { t with volts := setAt t.volts r v, amps := setAt t.amps r i, fails := setAt t.fails r 0 }
        | none => { t with fails := setAt t.fails r (t.fails.getD r 0 + 1) }) (r + 1) xs

/-- Three failed transactions in a row on one rail are SAFE cause 0x07. -/
def State.telemetry (s : State) (r : Nat) (xs : List RailReading) : State :=
  let s := { s with tel := s.tel.readRails r xs }
  if (List.range xs.length).any (fun i => s.tel.fails.getD (r + i) 0 == 3) then s.safeEvent 0x07 false else s

/-- RAIL_TELEMETRY_AVS: VDD_CORE and VDD_ARR, after PLL lock. -/
def execRailTelemetryAvs (rs : List RailReading) (s : State) : Host.Outcome State Fault Refusal :=
  if rs.length ≠ 2 then .fault .malformedEvent
  else .next (if s.dev.pllLocked then s.telemetry 0 rs else s)

/-- RAIL_TELEMETRY_PMBUS: VDD_IO, VDD_HBM, VDDQL_HBM and VDD_WR, every 100 us from the release of the reset. -/
def execRailTelemetryPmbus (rs : List RailReading) (s : State) : Host.Outcome State Fault Refusal :=
  if rs.length ≠ 4 then .fault .malformedEvent
  else .next (if s.dev.released then s.telemetry 2 rs else s)

/-! ## Sideband and test port (R242, R347) -/

/-- The oldest mirrored signature in 256 bytes; with an empty mirror the bytes are unstated. -/
def State.mirrorBytes (s : State) : List Byte :=
  match s.sig.mirror with
  | b :: _ => padSig b
  | [] => (List.range 256).map (fun i => Config.freeByte i s.free)

/-- SMB_ALERT_N is asserted while the mirror holds a signature (R340). -/
def State.smbAlert (s : State) : Bool := !s.sig.mirror.isEmpty

/-- The sideband slave address, 7 bits (R342). -/
def Dev.slaveAddr (d : Dev) : Nat := 0x58 + d.sbAddr.toNat

/-- SMB_MIRROR_READ_FIRST: bytes 0 to 127 of the oldest entry, from the slave address. -/
def execSmbMirrorReadFirst (s : State) : Host.Outcome State Fault Refusal :=
  if s.dev.st = .off then .next s
  else .next ({ s with free := s.free + 1 }.out (.smbBlock s.dev.slaveAddr (s.mirrorBytes.take 128)))

/-- SMB_MIRROR_READ_SECOND: bytes 128 to 255, and the entry is removed. -/
def execSmbMirrorReadSecond (s : State) : Host.Outcome State Fault Refusal :=
  if s.dev.st = .off then .next s
  else .next ({ s with free := s.free + 1, sig := { s.sig with mirror := s.sig.mirror.drop 1 } }.out
    (.smbBlock s.dev.slaveAddr (s.mirrorBytes.drop 128)))

/-- The IDCODE (R347): version 0x1, part 0x09A4, manufacturer 0x23D, bit 0 at 1. -/
def idcode : Dword := BitVec.ofNat 32 (0x1 * 2 ^ 28 + 0x09A4 * 2 ^ 12 + 0x23D * 2 + 1)

/-- The port accepts an instruction (R347): boundary scan only while both resets are asserted. -/
def Dev.jtagAccepts (d : Dev) (i : JtagOp) : Bool := !jtagScan i || (d.perst && d.devRst)

/-- JTAG_INSTRUCTION (R347): an accepted IDCODE gives its value. With TRST_N low the port is held in Test-Logic-Reset, and accepts
nothing. -/
def execJtagInstruction : JtagEvent → State → Host.Outcome State Fault Refusal
  | ⟨i, trst⟩, s =>
    if s.dev.st = .off then .next s
    else if !trst then .next ({ s with dev := { s.dev with jtag := .idcode } }.out (.jtag false none))
    else if s.dev.jtagAccepts i then
      .next ({ s with dev := { s.dev with jtag := i } }.out (.jtag true (if i = JtagOp.idcode then some idcode else none)))
    else .next (s.out (.jtag false none))

/-! ## Virtual functions (R167, R202) -/

/-- VIRTUAL_FUNCTION_ENABLE: VF n + 1 enabled or not, with its MSI-X enable. -/
def execVirtualFunctionEnable (n : Fin 16) (en msix : Bool) (s : State) : Host.Outcome State Fault Refusal :=
  if s.dev.st = .off then .next s
  else
    let m : BitVec 16 := BitVec.ofNat 16 (2 ^ n.val)
    .next { s with dev := { s.dev with
      vfEn := if en then s.dev.vfEn ||| m else s.dev.vfEn &&& ~~~m
      vfMsix := if en && msix then s.dev.vfMsix ||| m else s.dev.vfMsix &&& ~~~m } }

/-- Discard a queue's commands without a status. -/
def State.discard (s : State) (q : QueueId) : State :=
  let s := s.each (s.cmds.filter (fun c => decide (c.ref.q = q))) (fun s c =>
    ((match c.work with | .run w => s.freeSlot w | _ => s).purge c.ref).dropCmd c.ref)
  s.modQueue q (fun x => { x with enable := false, fetched := [] })

/-- VF_FLR (R167) of VF n + 1: both queues of context n are disabled, their commands discarded without a status, and the
context closes as by CTX_CLOSE; it keeps everything else (R295), the MSI-X structures of the function among it (log entry 7). On a top
manager it closes this device's context alone, and the members hear nothing of it (log entry 122). -/
def execVfFlr (n : Fin 16) (s : State) : Host.Outcome State Fault Refusal :=
  if s.dev.st = .off then .next s
  else
    let s := (s.discard (.ctx n)).discard (.bow n)
    .next (s.modCtx n.val (fun x =>
      if x.st = .closed then x else { x with st := .closing, batch := none }))

end Sys2Proof.Machine
end

