-- ==== Sys2Proof/Machine/Governor.lean ====
section
/-! DEFINITION. The power governor (R302 to R306, R309): its budget, its epochs, and the limit on the bow reserve. -/
namespace Sys2Proof.Machine

/-- The bow reserve in tokens per epoch (R304): 4,200 for each reserved pair. -/
def bowReserve (pairs : Nat) : Nat := 4200 * pairs

/-- A number of pairs keeps the bow reserve within the limit of R306 at an envelope. -/
def bowLimitOk (env margin pairs : Nat) : Bool :=
  pairs == 0 || decide ((bowReserve pairs : Int) ≤
    ((10 * envLimitW env : Nat) - (margin : Int) - (if env = 1 then 100 else 400)) * 500)

/-- Summed power of all rails (R303) in 10 microwatts: mV times 10 mA. -/
def Tel.power (t : Tel) : Nat := sumNat (List.zipWith (fun v i => v.toNat * i.toNat) t.volts t.amps)

/-- B of R303, from static power S in 10 microwatts. -/
def budgetOf (env margin : Nat) (sp : Nat) : Nat :=
  (((100000 * envLimitW env : Nat) : Int) - 10000 * margin - sp).toNat / 10

/-- A power in 0.01 W as a 16-bit field, rounded to nearest even (R70). -/
def centiWatt (p : Nat) : BitVec 16 := BitVec.ofNat 16 (min 0xFFFF (roundEven ((p : Rat) / 1000)).toNat)

/-- GOVERNOR_BUDGET_UPDATE (R303): every 10 us pair B sets B from the measured power less the token energy drawn. -/
def execGovernorBudgetUpdate (s : State) : Host.Outcome State Fault Refusal :=
  if !s.alive then .next s
  else
    let pm := s.tel.power
    let sp := pm - s.gov.drawn
    .next { s with gov := { s.gov with
      budget := budgetOf s.env.env s.cfg.margin.toNat sp
      sMeas := centiWatt sp, pMeas := centiWatt pm, drawn := 0 } }

/-- The division of B at the start of an epoch (R304, R305). -/
def Gov.divide (g : Gov) (pairs wrcap : Nat) (hottest : Int) : Gov :=
  let bow := bowReserve pairs
  let rest := g.budget - bow
  let wr := min (wrcap * 1000) (min (g.wrAsked + g.owedWr) (rest / 2))
  let pool := hotPool (rest - wr) hottest
  { g with
    bowRes := bow, hot := decide (2000 < hottest), pool := pool - g.deficit, poolFull := rest - wr, poolUsed := g.deficit
    deficit := g.deficit - pool, wrAllow := wr, sternAllow := (pool - g.deficit) - g.engDrawn, engDrawn := 0, wrAsked := 0
    engWaited := false, count := if g.engWaited then BitVec.ofNat 16 (satAdd 16 g.count.toNat 1) else g.count }

/-- The start of an epoch: B is divided, and the transfers and slots under way take what is there for them. -/
def Gov.epoch (g : Gov) (pairs wrcap : Nat) (hottest : Int) : Gov := (g.divide pairs wrcap hottest).payOwed

end Sys2Proof.Machine
end

