-- ==== Sys2Proof/Machine/Envelope.lean ====
section
/-! DEFINITION. The environment and the envelope (R14 to R18, R193, R301), the trim record (R80 to R85, R357, R359), and
their commands. -/
namespace Sys2Proof.Machine

/-! ## The trim record: checks (R82, R359) -/

def trimLen : Nat := 13653040
def appendixLen : Nat := 9208912
def sectSize (t : Nat) : Nat :=
  if t = 1 then 256 else if t = 2 then 9052160 else if t = 3 then 4456448 else if t = 4 then 139264 else 4624

/-- Check 1: MAGIC, VERSION, NSECT, the directory, LENGTH. -/
def trimForm (r : List Byte) : Bool :=
  slice r 0 4 == [0x56, 0x54, 0x52, 0x4D] && field r 4 2 == 1 && field r 20 2 == 5 && field r 16 4 == r.length
  && (List.range 5).all (fun i =>
      field r (64 + 16 * i) 2 == i + 1 && zeroAt r (66 + 16 * i) 2 && field r (72 + 16 * i) 4 == sectSize (i + 1)
      && zeroAt r (76 + 16 * i) 4
      && field r (68 + 16 * i) 4 == 192 + sumNat ((List.range i).map (fun j => sectSize (j + 1))))
  && zeroAt r 144 48 && r.length == trimLen

def fOfsOk (v : Nat) : Bool := -1024 ≤ signedOf 16 v && signedOf 16 v ≤ 1024
def fGainOk (v : Nat) : Bool := 26215 ≤ v && v ≤ 40960

/-- A lantern conductance in its range: within 2.0 microsiemens of the nominal conductance of the column's level. -/
def lanternOk (k : Nat) (x : F16) : Bool :=
  f16Finite x && decide (absQ (f16Q x - (nominalTarget (lanternLevel k) : Rat) / 64) ≤ 2)

/-- Check 4: every value in its range. -/
def trimValues (r : List Byte) : Bool :=
  (List.range 256).all (fun c => field r (sectOff r 1 + c) 1 ≤ 16)
  && (List.range (4352 * 520)).all (fun i =>
      fOfsOk (field r (sectOff r 2 + 4 * i) 2) && fGainOk (field r (sectOff r 2 + 4 * i + 2) 2))
  && (List.range (4352 * 16)).all (fun i => lanternOk (i % 8) (BitVec.ofNat 16 (field r (sectOff r 4 + 2 * i) 2)))
  && (List.range 4).all (fun d => (List.range 34).all (fun i =>
      f16Finite (BitVec.ofNat 16 (field r (sectOff r 5 + 68 * d + 2 * i) 2))
      && decide (7 / 10 ≤ trimTf r d i) && decide (trimTf r d i ≤ 13 / 10)))
  && (List.range 4).all (fun d => decide (trimTf r d 13 = 1))

def trimSpare (r : List Byte) (crew : Nat) : Nat := field r (sectOff r 1 + crew) 1

/-- Check 5 (R43): the record would change SPARE in a crew that holds an array of an open context. -/
def State.spareClash (s : State) (r : List Byte) : Bool :=
  (List.range 256).any (fun c =>
    diePowered s.env.env (crewDie c) && trimSpare r c != (s.crew c).spare.toNat
    && (List.range 17).any (fun m => s.held (arrIdx c m)))

/-! ## The trim record: loading -/

/-- The column trims of an array, listed where they differ from the reset values. -/
def trimCols (r : List Byte) (a : Nat) : Tbl (BitVec 16 × BitVec 16) :=
  (List.range 520).filterMap (fun j =>
    let o := sectOff r 2 + 4 * (520 * a + j)
    let v := (BitVec.ofNat 16 (field r o 2), BitVec.ofNat 16 (field r (o + 2) 2))
    if v = trimDflt j then none else some (j, v))

/-- The DAC trims of an array. -/
def trimDac (r : List Byte) (a : Nat) : Tbl (BitVec 16) :=
  (List.range 512).filterMap (fun i =>
    let v : BitVec 16 := BitVec.ofNat 16 (field r (sectOff r 3 + 2 * (512 * a + i)) 2)
    if v = 0 then none else some (i, v))

/-- Set the spare of a crew (R42); row mode on the new spare ends (R47). -/
def Crew.setSpare (m : Nat) (c : Crew) : Crew :=
  { c with
    spare := BitVec.ofNat 5 m, spareValid := true
    sine := if c.sine.slot.toNat = m then c.sine.refuse else c.sine }

/-- Load the record into the crews and arrays of the dies that `on` names: spare map, column and DAC trim, and tracking at
its reset values (R82, R357). A stroke in flight keeps the values of its slot. -/
def State.loadTrim (s : State) (r : List Byte) (on : Nat → Bool) : State :=
  let cs := (List.range 256).filter (fun c => on (crewDie c))
  let s := s.each cs (fun s c => s.modCrew c (Crew.setSpare (trimSpare r c)))
  s.each cs (fun s c => s.each (List.range 17) (fun s m =>
    s.modArr (arrIdx c m) (fun x => { x.trackReset with
      fTrim := trimCols r (arrIdx c m), dac := trimDac r (arrIdx c m) })))

/-- Store a live lantern conductance after the plausibility check (R83): more than 1.0 microsiemens from the factory value,
the factory value is used, LANBAD set and a signature emitted. -/
def State.setLantern (s : State) (r : List Byte) (a pk : Nat) (live : F16) : State :=
  let f := trimLantern r a (pk / 8) (pk % 8)
  if f16Finite live && decide (absQ (f16Q live - f16Q f) ≤ 1) then
    s.modArr a (fun x => { x with lan := x.lan.set zero16 pk live })
  else
    (s.modArr a (fun x => { x with lan := x.lan.set zero16 pk f, lanBad := true })).emit 0x0C
      { loc := s.arrLoc a [], data := leBytes 1 (pk / 8) ++ leBytes 1 (pk % 8) ++ leBytes 2 live.toNat ++ leBytes 2 f.toNat }

/-- The lantern results of the arrays of the dies that `on` names. -/
def State.lanterns (s : State) (r : List Byte) (on : Nat → Bool) (live : Nat → Nat → F16) : State :=
  s.each ((List.range 4352).filter (fun a => on (crewDie (a / 17)))) (fun s a =>
    s.each (List.range 16) (fun s pk => s.setLantern r a pk (live a pk)))

/-- A conductance referred to 25 degC (R82): the mean divided by P(T). -/
def State.referred (s : State) (a : Nat) (mean : F16) : F16 :=
  let p := s.pFactor a (s.tNow a)
  BitVec.ofNat 16 (fmtFP16.encode (.fin false (f16Q mean / p)))

/-! ## The field appendix (R84, R85) -/

/-- SERIAL and digest of an appendix match. -/
def appendixOk (r ap : List Byte) : Bool :=
  field ap 8 8 == Config.serial.toNat
  && sha384 (sha384 (r.take (r.length - 96)) ++ ap.drop 80) == slice ap 32 48

/-- The starting values of one array from the appendix, clamped to their ranges (R79, R85); a kappa that is no number lies in no
range, and 1.0 stands for it (log entry 103). -/
def State.takeAppendix (s : State) (ap : List Byte) (a : Nat) : State :=
  let e := slice ap (80 + 2116 * a) 2116
  let k := BitVec.ofNat 32 (field e 0 4)
  let kc : F32 := match f32Val k with
    | .fin _ q => if q < kLo then f32Rat kLo else if kHi < q then f32Rat kHi else k
    | .inf neg => f32Rat (if neg then kLo else kHi)
    | .nan => 0x3F800000
  let cols := (List.range 512).filterMap (fun j =>
    let g := clampInt 31458 34078 (field e (36 + 4 * j) 2)
    let o := clampInt (-128) 128 (signedOf 16 (field e (38 + 4 * j) 2))
    let v := (BitVec.ofInt 16 o, BitVec.ofInt 16 g)
    if v = trimDflt j then none else some (j, v))
  s.modArr a (fun x => { x with kappa := kc, tTrim := cols, tWinSum := (s.tNow a * 16).floor, tWinCnt := 1, conv := false })

/-- The lantern conductances that an appendix gives an array. -/
def appendixLantern (ap : List Byte) (a pk : Nat) : F16 := BitVec.ofNat 16 (field ap (80 + 2116 * a + 4 + 2 * pk) 2)

/-- The appendix of TRIM_READ (R84). -/
def State.appendix (s : State) (r : List Byte) : List Byte :=
  let body := (List.range 4352).flatMap (fun a =>
    let x := s.arr a
    leBytes 4 x.kappa.toNat ++ (List.range 16).flatMap (fun pk => leBytes 2 (x.lan.get zero16 pk).toNat)
      ++ (List.range 520).flatMap (fun j =>
        let v := x.tTrim.get trimDflt j
        leBytes 2 v.2.toNat ++ leBytes 2 v.1.toNat))
  [0x56, 0x54, 0x46, 0x41] ++ leBytes 2 1 ++ [0, 0] ++ leBytes 8 (field r 8 8) ++ leBytes 4 appendixLen
    ++ List.replicate 12 0 ++ sha384 (sha384 (r.take (r.length - 96)) ++ body) ++ body

/-! ## TRIM_LOAD, TRIM_READ -/

/-- The end of TRIM_LOAD: lantern conductances, appendix, TRIMLD (R82 to R85). In BOATHOUSE the lanterns take the record's factory
values and the appendix gives the rest (log entry 120). -/
def State.finishTrim (s : State) (r ap : List Byte) (live : Nat → Nat → F16) : State :=
  let on := diePowered s.env.env
  let s := { s with env := { s.env with trimLoaded := true, trim := r } }.chargeHbm false r.length
  let good := !ap.isEmpty && appendixOk r ap
  let s := s.lanterns r on (if good && s.dev.st ≠ .boathouse then appendixLantern ap else live)
  if ap.isEmpty then s
  else if good then s.each ((List.range 4352).filter (fun a => on (crewDie (a / 17)))) (fun s a => s.takeAppendix ap a)
  else s.emit 0x0D {}

/-- Verify slots of a lantern pass: 1,024 of 4 write tokens (R302) on each array of the dies that are on. They are granted within the
write allowance of this epoch and of later ones (R304). -/
def State.drawPass (s : State) (on : Nat → Bool) : State :=
  { s with gov := s.gov.chargeWrite (((List.range 4352).filter (fun a => on (crewDie (a / 17)))).length * 1024 * 4) }

/-- TRIM_LOAD (R82): the checks in order; the record is loaded, LANBAD of the last load is cleared (log entry 104), and the lantern
pass starts to draw its tokens. In BOATHOUSE no pass is made. -/
def effTrimLoad (q : QueueId) (p : Packet) (s : State) : State :=
  match p.hostData with
  | none => s.reply q p .badParam 0 0 0
  | some a =>
    let n := field (Memory.readBytes s.host a 20) 16 4
    if !(p.length = n || p.length = n + appendixLen) then s.reply q p .badParam 0 0 0
    else
      let r := Memory.readBytes s.host a n
      let ap := Memory.readBytes s.host (a + n) (p.length - n)
      if !trimForm r then s.reply q p .badParam 0 0 0
      else if !signedOk Config.factoryKey r then s.reply q p .sigBad 0 0 0
      else if field r 8 8 ≠ Config.serial.toNat ∨ field r 6 1 ≠ stepping then s.reply q p .badParam 0 0 0
      else if !trimValues r then s.reply q p .badParam 0 0 0
      else if s.spareClash r then s.reply q p .state 0 0 0
      else
        let old := s
        let s := (s.loadTrim r (diePowered s.env.env)).eachArr (fun x => { x with lanBad := false })
        let s := s.bowFollow old
        if s.dev.st = .boathouse then
          (s.finishTrim r ap (fun a pk => trimLantern r a (pk / 8) (pk % 8))).done q p .ok 0 0
        else (s.drawPass (diePowered s.env.env)).enrol (mkCmd s q p true (.trim r ap))

def execTrimLoad (q : QueueId) (s : State) : Host.Outcome State Fault Refusal := .next (s.packetRow q .trimLoad effTrimLoad)

/-- LANTERN_PASS_COMPLETE (R82, R83): `means` lists the measured means of the cells whose conductance, referred to 25 degC,
is not the factory value. The pass has ended when all its slots have had their tokens, and the record goes to HBM when the pool takes
it (R304). -/
def execLanternPassComplete (means : List (Nat × F16)) (s : State) : Host.Outcome State Fault Refusal :=
  match s.cmds.find? (fun c => match c.work with | .trim _ _ => true | _ => false) with
  | none => .next s
  | some c =>
    match c.work with
    | .trim r ap =>
      if s.gov.owedWr ≠ 0 then .next s
      else if !s.hbmOpen false then .next (s.hbmWait false)
      else
      let t := { s with env := { s.env with trimLoaded := true, trim := r } }
      let live (a pk : Nat) : F16 :=
        match means.find? (fun e => e.1 == 16 * a + pk) with
        | some (_, m) => t.referred a m
        | none => trimLantern r a (pk / 8) (pk % 8)
      .next ((t.finishTrim r ap live).complete c .ok 0 0)
    | _ => .next s

/-- TRIM_READ (R84): a LENGTH that is too small is found before a record that is not loaded (log entry 105). -/
def effTrimRead (q : QueueId) (p : Packet) (s : State) : State :=
  match p.hostResult with
  | none => s.reply q p .badParam 0 0 0
  | some a =>
    if p.length < trimLen + appendixLen then s.reply q p .badParam 0 0 0
    else if !s.env.trimLoaded then s.reply q p .state 0 0 0
    else
      let bs := s.env.trim ++ s.appendix s.env.trim
      ((s.chargeHbm false s.env.trim.length).writeHost a bs).done q p .ok bs.length 0

def execTrimRead (q : QueueId) (s : State) : Host.Outcome State Fault Refusal := .next (s.packetRow q .trimRead effTrimRead)

/-! ## Envelope changes (R14 to R16, R301, R306, R327, R357) -/

/-- A compute die holds a resource of a context that is not CLOSED (R15). -/
def State.dieUsed (s : State) (d : Nat) : Bool :=
  (List.range 16).any (fun c =>
    let x := s.ctx c
    x.st ≠ .closed && (x.gens ++ (match x.pitch with | some p => [p.g] | none => [])).any (fun g =>
      g.assigns.any (fun y => crewDie y.crew == d) || g.dbuf.any (fun e => e.1 == d && e.2 ≠ 0)))

/-- HBM1 holds a granule of a context that is not CLOSED. -/
def State.stackUsed (s : State) : Bool :=
  (List.range 16).any (fun c => (s.ctx c).st ≠ .closed && (s.ctx c).used1 ≠ 0)

/-- An envelope may be set: within the boot envelope, nothing in use powered down, not E1 on a member, the bow reserve
within its limit. -/
def State.envelopeOk (s : State) (e : Nat) : Bool :=
  e ≤ s.env.bootEnv
  && (List.range 4).all (fun d => diePowered e d || !diePowered s.env.env d || !s.dieUsed d)
  && (bitOf (envStacks e) 1 || !bitOf (envStacks s.env.env) 1 || !s.stackUsed)
  && !(s.member && e == 1)
  && bowLimitOk e s.cfg.margin.toNat s.pairs.length

/-- A crew without power: its registers return to their reset values; its reservation lasts until CTX_CLOSE (R16, R205), and it
stays benched until the next reset (R234), though CRW_RESV and CRW_HEALTH have lost it (R327; log entry 98). -/
def Crew.powerDown (c : Crew) : Crew :=
  { Crew.reset with
    resv := c.resv, resvLost := c.resv.isSome, benched := c.benched, cause := c.cause, healthLost := c.benched }

/-- A bivouac-tier RUN in flight, dispatched and not ended. -/
def Cmd.onVes (c : Cmd) : Option RunWork :=
  match c.work with
  | .run w => if w.dispatched && !w.layer.isArray && !c.ended then some w else none
  | _ => none

/-- Descriptors of a RUN have still to run, or to be written. -/
def State.veUnfinished (s : State) (c : Cmd) (w : RunWork) : Bool :=
  decide (w.veNext < w.shape.rows) || (List.range 32).any (fun v => (s.ve v).ring.any (fun d => decide (d.ref = c.ref)))

/-- A bivouac-tier RUN leaves the VEs that it has when die `d` loses power: it works on VEs of that die, or it waits for a counter that
has not reached its threshold, which such a RUN may have to signal. -/
def State.leavesVes (s : State) (d : Nat) (c : Cmd) : Bool :=
  match c.onVes with
  | none => false
  | some w => s.veUnfinished c w
      && (w.shape.ves.any (fun v => v / 8 == d) || w.waitFor.any (fun e => decide ((s.counter e.1).toNat < e.2)))

/-- A RUN that is to be dispatched anew, on VEs that have power; and one that waits no more for a counter of die `d`, whose count is
complete. -/
def RunWork.undispatch (w : RunWork) : RunWork :=
  { w with dispatched := false, due := 0, shape := VeShape.none, veNext := 0, veParts := [], counter := none, waitFor := none }
def RunWork.unwaitDie (d : Nat) (w : RunWork) : RunWork := if w.waitFor.any (fun e => e.1 / 64 == d) then { w with waitFor := none } else w
def Desc.unwaitDie (d : Nat) (x : Desc) : Desc := if x.wait.any (fun e => e.1 / 64 == d) then { x with wait := none } else x

/-- Die `d` is about to lose power: the bivouac-tier RUNs that this concerns go back to RUN_DISPATCH, so that the envelope changes only
when they are delivered (R14, R17; log entry 106). -/
def State.clearDie (s : State) (d : Nat) : State :=
  let rs := (s.cmds.filter (s.leavesVes d)).map (·.ref)
  let s := s.each rs (fun s r => s.eachVe (Ve.dropWork r))
  let s := { s with cmds := s.cmds.map (fun (c : Cmd) => match c.work with
    | .run w => { c with work := .run (if rs.contains c.ref then w.undispatch else w.unwaitDie d) }
    | _ => c) }
  s.eachVe (fun v => { v with ring := v.ring.map (Desc.unwaitDie d) })

/-- Die `d` loses power: its registers return to their reset values (R327), its router's among them; work on its VEs is made on other
ones. -/
def State.powerDown (s : State) (d : Nat) : State :=
  let s := s.clearDie d
  let t :=
    { s with
      arrs := s.arrs.filter (fun e => crewDie (e.1 / 17) != d)
      ves := s.ves.filter (fun e => e.1 / 8 != d)
      counters := s.counters.filter (fun e => e.1 / 64 != d)
      tel := { s.tel with nocParErr := setAt s.tel.nocParErr (1 + d) 0 } }
  t.each ((s.crews.map (·.1)).filter (fun c => crewDie c == d)) (fun s c => s.modCrew c Crew.powerDown)

/-- Die `d` is powered again: it is restored from the kept trim record, with its lantern pass (R357). -/
def State.powerUp (s : State) (d : Nat) : State :=
  if !s.env.trimLoaded then s
  else
    let r := s.env.trim
    let s := ((s.chargeHbm false r.length).loadTrim r (· == d)).drawPass (fun k => k == d && s.dev.st ≠ .boathouse)
    let live (a pk : Nat) : F16 :=
      if s.dev.st = .boathouse then trimLantern r a (pk / 8) (pk % 8) else Config.freeLantern a pk s.free
    { (s.lanterns r (· == d) live) with free := s.free + 1 }

/-- Set the envelope: power dies down and up; at E1 the bypasses close (R16). -/
def State.setEnvelope (s : State) (e : Nat) : State :=
  let old := s.env.env
  let s := { s with env := { s.env with env := e } }
  let s := s.each ((List.range 4).filter (fun d => diePowered old d && !diePowered e d)) State.powerDown
  let s := s.each ((List.range 4).filter (fun d => !diePowered old d && diePowered e d)) State.powerUp
  if e = 1 then s.closeBypasses else s

/-- SET_ENVELOPE. The addresses and LENGTH of R191 are checked before the STATE of R15 (log entry 117). -/
def effSetEnvelope (q : QueueId) (p : Packet) (s : State) : State :=
  let e := p.param 32 1
  if !p.noAddrs || e = 0 || 4 < e then s.reply q p .badParam 0 0 0
  else if !s.envelopeOk e then s.reply q p .state 0 0 0
  else (s.setEnvelope e).done q p .ok 0 0

def execSetEnvelope (q : QueueId) (s : State) : Host.Outcome State Fault Refusal :=
  .next (s.packetRow q .setEnvelope effSetEnvelope)

/-- TRK_POLICY defaults of a mode (R97). -/
def policyDefault (rack : Bool) : Nat := if rack then 0x1804040C else 0x08020808

/-- SET_ENVIRONMENT (R193). The addresses and LENGTH of R191 are checked before the STATE of R15 (log entry 117). -/
def effSetEnvironment (q : QueueId) (p : Packet) (s : State) : State :=
  let e := p.param 42 1
  let mode := p.param 43 1
  let pos : Dword := BitVec.ofNat 32 (p.param 44 4)
  if !p.noAddrs || e = 0 || 4 < e || 1 < mode || posRole pos = 3 || bitsOf pos.toNat 29 3 ≠ 0 then
    s.reply q p .badParam 0 0 0
  else if !s.envelopeOk e || (s.member && pos ≠ s.env.position) then s.reply q p .state 0 0 0
  else
    let s := s.setEnvelope e
    { s with
      dev := { s.dev with timeBase := BitVec.ofNat 64 (p.param 32 8) }
      env :=
        { s.env with
          envSet := true, mode := mode == 1, coolant := BitVec.ofNat 16 (p.param 40 2), position := pos }
      cfg := s.cfg.writePolicy (policyDefault (mode == 1)) }.done q p .ok 0 0

def execSetEnvironment (q : QueueId) (s : State) : Host.Outcome State Fault Refusal :=
  .next (s.packetRow q .setEnvironment effSetEnvironment)

end Sys2Proof.Machine
end

