-- ==== Sys2Proof/Machine/Contexts.lean ====
section
/-! DEFINITION. Forwarding in a group (R267) and the life of a context (R184 to R187): CTX_OPEN, CTX_CLOSE,
CTX_CLOSE_COMPLETE. -/
namespace Sys2Proof.Machine

/-! ## Forwarding -/

/-- The members a command is forwarded to: at the top manager, every other device of the system. -/
def State.parties (s : State) (q : QueueId) (o : Op) : List Nat :=
  match q with
  | .fwd _ => []
  | _ => if s.top && o.forwarded then s.others else []

/-- The CMD messages of a forwarded command (R253, R267); `extra` is a member's index entry. -/
def State.sendCmds (s : State) (p : Packet) (gen : Nat) (dsts : List Nat) (extra : Nat → List Byte) : State :=
  s.each dsts (fun s d =>
    s.send (mkMsg 1 p.ctxcls p.tag.toNat p.epoch.toNat gen d s.self 0 0 0 s.self (p.bytes ++ extra d)))

/-- Accept a command, and forward it to members. -/
def State.launchTo (s : State) (ds : List Nat) (c : Cmd) (extra : Nat → List Byte) : State :=
  (s.enrol { c with parts := ds }).sendCmds c.pkt c.gen ds extra

/-- Accept a command, and forward it where its opcode is forwarded. -/
def State.launch (s : State) (o : Op) (c : Cmd) (extra : Nat → List Byte) : State := s.launchTo (s.parties c.ref.q o) c extra

/-- Accept a command that has done its work here, and complete it when every part is in. -/
def State.finish (s : State) (o : Op) (q : QueueId) (p : Packet) (blocks : Bool) (r0 : Nat) (extra : Nat → List Byte) :
    State :=
  if s.parties q o = [] then (s.takeHold o.code (ctxOf q p)).done q p .ok r0 0
  else
    let c := { mkCmd s q p blocks .plain with parts := s.parties q o }
    (s.launch o c extra).complete c .ok r0 0

def noExtra (_ : Nat) : List Byte := []

/-! ## Opening -/

/-- CTX_OPEN (R18, R83, R186): its effect takes hold when it completes. The fields of R191 are checked before the STATE of R18 (log entry
117). -/
def effCtxOpen (q : QueueId) (p : Packet) (s : State) : State :=
  if !p.noAddrs then s.reply q p .badParam 0 0 0
  else if !s.env.envSet || !s.env.trimLoaded then s.reply q p .state 0 0 0
  else s.finish .ctxOpen q p true 0 noExtra

def execCtxOpen (q : QueueId) (s : State) : Host.Outcome State Fault Refusal := .next (s.packetRow q .ctxOpen effCtxOpen)

/-! ## The end of a swing (R163) -/

/-- A swing of the context is draining. -/
def Ctx.draining (x : Ctx) : Bool := x.swingCmd.isSome

/-- No batch with an old stamp is open. -/
def Ctx.oldBatchClosed (x : Ctx) : Bool := match x.batch with | some (_, g) => g == x.adm | none => true

/-- A VE has still to run a descriptor of a command, or descriptors of it are still to be written. -/
def State.vePending (s : State) (k : Cmd) : Bool :=
  match k.work with
  | .run w =>
    !w.layer.isArray && !k.ended
      && (!w.dispatched || decide (w.veNext < w.shape.rows) || (List.range 32).any (fun v => (s.ve v).ring.any (fun d => decide (d.ref = k.ref))))
  | _ => false

/-- The bivouac pointers may switch: no descriptor of a command with an old stamp is pending (R163). -/
def State.bivouacReady (s : State) (c : Nat) : Bool :=
  let x := s.ctx c
  x.oldBatchClosed && (s.cmds.filter (fun k => k.inContext c && k.gen != x.adm)).all (fun k => !s.vePending k)

/-- An assignment has swung: its array's ground plane is the one assigned; a benched crew's arrays count as swung (R234). -/
def State.swung (s : State) (y : Assign) : Bool :=
  (s.crew y.crew).benched || (s.arr (s.physArr y.crew y.l)).ground == y.plane

/-- SWING completes when every array and pointer has switched; with it the context is LIVE on the new generation. -/
def State.swingCheck (s : State) (c : Nat) : State :=
  let x := s.ctx c
  match x.swingCmd with
  | none => s
  | some r =>
    match x.generation x.adm with
    | none => s
    | some g =>
      if g.assigns.all s.swung && s.bivouacReady c then
        let s := s.modCtx c (fun x => { x with live := x.adm, swingCmd := none })
        match s.cmd? r with
        | some k => s.complete k .ok 0 0
        | none => s.takeHold 0x14 c
      else s

/-- The swing check of every context. -/
def State.settle (s : State) : State := s.each (List.range 16) State.swingCheck

/-! ## Closing -/

/-- CTX_CLOSE (R187): the context is CLOSING, and its open batch closes, which may end the drain of a swing. -/
def effCtxClose (q : QueueId) (p : Packet) (s : State) : State :=
  if !p.noAddrs then s.reply q p .badParam 0 0 0
  else
    let c := ctxOf q p
    let cmd := mkCmd s q p false .close
    ((s.modCtx c (fun x => { x with st := .closing, batch := none, closeCmd := some cmd.ref })).launch .ctxClose cmd noExtra).swingCheck c

def execCtxClose (q : QueueId) (s : State) : Host.Outcome State Fault Refusal := .next (s.packetRow q .ctxClose effCtxClose)

/-- A command in flight belongs to context `c`: it came through the context's queues, or names it on the admin queue; one that names
every context (CTX 0xF) is context 15's alone (log entry 130). -/
def State.ofCtx (_ : State) (c : Nat) (x : Cmd) : Bool :=
  match qCtx x.ref.q with
  | some k => k == c
  | none => (x.pkt.opcode == 0x33 || x.pkt.opcode == 0x34) && x.pkt.ctx == c

/-- Commands that CTX_CLOSE waits for (R187 step 1). -/
def State.closeWaits (s : State) (c : Nat) : Bool :=
  match (s.ctx c).closeCmd with
  | some r => s.cmds.any (fun x => s.ofCtx c x && decide (x.ref ≠ r) && decide (x.seq < ((s.cmd? r).map (·.seq)).getD 0))
  | none => s.cmds.any (s.ofCtx c)

/-- Return an array to no context: maintenance ends, and its bindings' patch lists are gone. -/
def Arr.release (x : Arr) : Arr :=
  { x with refresh := false, census := false, maint := Maint.reset, prog := none, verify := 0, warm := [] }

/-- Free what one generation of a context holds (R116). -/
def State.freeGen (s : State) (c : Nat) (g : Generation) : State :=
  let s := s.freePages c g.gen g.assigns true
  let s := s.each g.assigns (fun s y => (s.modArr (s.physArr y.crew y.l) Arr.release).untreat (s.physArr y.crew y.l))
  { s with bowW := s.bowW.filter (fun x => !(x.1 == c && x.2.1 == g.gen)) }

/-- A crew's reservation ends (R205, R208). -/
def Crew.unreserve (c : Crew) : Crew := { c with resv := none, resvLost := false }

/-- What a context whose resources are freed still has: its state, its statistics slots, and the CTX_CLOSE. -/
def Ctx.freed (x : Ctx) : Ctx := { Ctx.reset with st := x.st, slots := x.slots, closeCmd := x.closeCmd }

/-- Steps 2 and 3 of R187: abort an unswung pitch, free everything. -/
def State.closeCtx (s : State) (c : Nat) : State :=
  let x := s.ctx c
  let s := match x.pitch with
    | some p => (s.abortPitch c false).endPitchCmds c p .state .shardMissing .state
    | none => s
  let s := s.each x.gens (fun s g => s.freeGen c g)
  let s := s.each x.pairs (fun s p => (s.modCrew p.1 Crew.unreserve).modCrew p.2 Crew.unreserve)
  s.modCtx c Ctx.freed

/-- CTX_CLOSE_COMPLETE (R187): the context is CLOSED when the command completes; a close that a VF_FLR began has none (R167). -/
def execCtxCloseComplete (c : Fin 16) (s : State) : Host.Outcome State Fault Refusal :=
  let x := s.ctx c.val
  if x.st ≠ .closing || s.dev.st = .safe || s.closeWaits c.val then .next s
  else
    match x.closeCmd.bind s.cmd? with
    | some cmd => .next (if cmd.localEnd.isSome then s else (s.closeCtx c.val).complete cmd .ok 0 0)
    | none => .next ((s.closeCtx c.val).shutCtx c.val)

end Sys2Proof.Machine
end

