-- ==== Sys2Proof/Machine/Manifest.lean ====
section
/-! DEFINITION. The manifest of a package (R141 to R143, R360): its form (R153 check 2) and its limits (R153 check 5, R22,
R59, R125, R134, R206). -/
namespace Sys2Proof.Machine

/-! ## Fields of the header (R141) -/

def Manifest.portable (m : Manifest) : Bool := field m.hdr 6 1 == 1
def Manifest.keySlot (m : Manifest) : Nat := field m.hdr 7 1
def Manifest.keyId (m : Manifest) : List Byte := slice m.hdr 8 8
def Manifest.nvcrew (m : Manifest) : Nat := field m.hdr 44 2
def Manifest.workGranules (m : Manifest) : Nat := field m.hdr 48 4
def Manifest.maxShard (m : Manifest) : Nat := field m.hdr 52 4
def Manifest.nshard (m : Manifest) : Nat := m.shards.length
def Manifest.layer (m : Manifest) (i : Nat) : Layer := m.layers.getD i ⟨[]⟩
def Manifest.place (m : Manifest) (e : Nat) : List Byte := m.places.getD e []

/-- E of R360: the largest PLACE_FIRST + PLACE_COUNT over all layers, or 0 where every PLACE_COUNT is 0. -/
def placeTotal (ls : List Layer) : Nat :=
  if ls.all (fun l => l.placeCount == 0) then 0 else ls.foldl (fun e l => max e (l.placeFirst + l.placeCount)) 0

/-- A placement entry belongs to a layer. -/
def Layer.owns (l : Layer) (e : Nat) : Bool := l.placeFirst ≤ e && e < l.placeFirst + l.placeCount

/-- `n` records of `size` bytes from offset `ofs`. -/
def records (bs : List Byte) (ofs size n : Nat) : List (List Byte) := (List.range n).map (fun i => slice bs (ofs + size * i) size)

/-- Two byte ranges do not overlap. -/
def apart (a n b m : Nat) : Bool := a + n ≤ b || b + m ≤ a

/-- Check 2 of R153: the manifest, where its form is right. `len` is the length that the command states. -/
def manifestOf (bs : List Byte) (len : Nat) : Option Manifest :=
  let nl := field bs 24 4
  let ns := field bs 28 4
  let lo := field bs 32 4
  let po := field bs 36 4
  let so := field bs 40 4
  if !(224 ≤ len && len ≤ 2 ^ 24 && slice bs 0 4 == [0x56, 0x5A, 0x4D, 0x46] && field bs 4 2 == 1 && field bs 6 1 ≤ 1
      && field bs 20 4 == len && lo + 256 * nl ≤ len - 96 && so + 64 * ns ≤ len - 96 && zeroAt bs 19 1 && zeroAt bs 46 2
      && zeroAt bs 72 56) then none
  else
    let ls := (records bs lo 256 nl).map Layer.mk
    let e := placeTotal ls
    let ps := records bs po 8 e
    let ss := records bs so 64 ns
    if ls.all (fun l => zeroAt l.raw 232 24)
        && (e == 0 || (128 ≤ po && po + 8 * e ≤ len - 96 && apart po (8 * e) lo (256 * nl) && apart po (8 * e) so (64 * ns)))
        && ps.zipIdx.all (fun x => !ls.any (fun l => l.owns x.2) || plRsvOk x.1)
        && ss.all (fun x => zeroAt x 13 3)
    then some ⟨bs.take 128, ls, ps, ss⟩ else none

/-! ## Check 5 of R153 -/

/-- The bucket table of a layer (R125, R142): NDYN dimensions of 1 to 8 ascending sizes, unused entries 0. -/
def Layer.bucketsOk (l : Layer) : Bool :=
  (List.range 4).all (fun d =>
    let bs := l.buckets d
    (List.range 8).all (fun i => l.bucket d i == bs.getD i 0)
    && (if d < l.ndyn then 1 ≤ bs.length && bs.all (fun b => b ≤ 16777216) && (bs.zip (bs.drop 1)).all (fun (a, b) => a < b)
        else bs.isEmpty))

/-- The placement of an array layer (R360): every combination of split, slice and replica exactly once, or in a group a part
of them. -/
def Manifest.placementOk (m : Manifest) (grp : Bool) (l : Layer) : Bool :=
  let es := (List.range l.placeCount).map (fun i => m.place (l.placeFirst + i))
  es.all (fun e => plVcrew e < m.nvcrew && plSplit e < l.splits && plSlice e < l.slices && plReplica e < l.nrep)
  && (es.map (fun e => (plSplit e, plSlice e, plReplica e))).Nodup
  && (l.placeCount == l.splits * l.slices * l.nrep || (grp && (!l.isBow || l.placeCount == 0)))

/-- A bow-class layer meets R206. -/
def Layer.bowOk (l : Layer) : Bool :=
  l.isArray && bitsOf l.foldByte 4 2 == 0 && l.nrep == 1 && l.placeCount ≤ 8 && l.outBytes ≤ 544 && l.inBytes ≤ 2048

/-- The limits of one layer record (R125, R134, R142, R143, R206). The reserved bytes of its numerics descriptor are among them (R59; log
entry 127). -/
def Manifest.layerOk (m : Manifest) (grp : Bool) (i : Nat) (l : Layer) : Bool :=
  [1, 2].contains l.kind && l.cls ≤ 1 && 1 ≤ l.nrep && l.nrep ≤ 16 && l.ndyn ≤ 4 && l.statSlot ≤ 255
  && 1 ≤ l.k && l.k ≤ 262144 && 1 ≤ l.n && l.bucketsOk && 2 ≤ l.tilePages
  && (if l.isArray then
        l.numericsOk && l.ndyn ≤ 1 && l.slices ≤ 4096 && l.hbmGranules == 0 && (l.nrep == 1 || 3 ≤ l.tilePages)
        && bitsOf l.foldByte 6 2 == 0 && bitsOf l.foldByte 1 3 == 0 && bitsOf l.foldByte 4 2 ≤ 2
        && bitsOf l.slewByte 6 2 == 0 && 1 ≤ bitsOf l.slewByte 0 4
        && m.placementOk grp l
        && m.layers.zipIdx.all (fun (o, j) => j == i || !o.isArray || apart l.placeFirst l.placeCount o.placeFirst o.placeCount
              || l.placeCount == 0 || o.placeCount == 0)
      else l.foldByte == 0 && l.slewByte == 0 && zeroAt l.raw 16 64 && l.placeCount == 0)
  && (!l.isBow || l.bowOk)

/-- Shard indices and layer shard ranges are consistent, stored lengths within MAX_SHARD, types of the package's form (R141 to
R144). -/
def Manifest.shardsOk (m : Manifest) : Bool :=
  m.layers.all (fun l => l.firstShard + l.nshard ≤ m.nshard)
  && m.shards.zipIdx.all (fun (e, i) =>
    let l := m.layer (stLayer e)
    stIndex e == i && stLayer e < m.layers.length && l.firstShard ≤ i && i < l.firstShard + l.nshard
    && 64 ≤ stLen e && stLen e ≤ m.maxShard
    && (if m.portable then [4, 5, 6, 7] else [1, 2, 3, 4, 7]).contains (stType e))
  && sumNat (m.layers.map (·.nshard)) == m.nshard

/-- Check 5 of R153. -/
def Manifest.limitsOk (m : Manifest) (grp : Bool) : Bool :=
  1 ≤ m.layers.length && m.layers.length ≤ 4096 && 1 ≤ m.nshard && m.nshard ≤ 1048576 && 1 ≤ m.nvcrew && m.nvcrew ≤ 256
  && 64 ≤ m.maxShard && m.maxShard ≤ 2 ^ 24
  && m.layers.zipIdx.all (fun x => m.layerOk grp x.2 x.1)
  && (m.layers.filter (fun l => l.isBow)).length ≤ 64
  && m.shardsOk

end Sys2Proof.Machine
end

