-- ==== Sys2Proof/Machine/Admission.lean ====
section
/-! DEFINITION. Admission of a pitch (R154, R205, R207, R210): freeing the generation before the live one, placing arrays,
pool pages, die-buffer and HBM granules, and the numbering of generations (R151). -/
namespace Sys2Proof.Machine

/-! ## Generations -/

/-- The number of the next generation (R151): after the live one or after the last aborted one, whichever is later, within
32,767 of the live one. -/
def pitchGen (live aborted : Nat) : Nat :=
  let a := genNext live
  let b := genNext aborted
  if aborted ≠ 0 ∧ genLater b a ∧ (b + 65535 - live) % 65535 ≤ 32767 then b else a

/-- An array leaves a freed generation: where the context's live generation does not hold it, it belongs to no context. -/
def State.leaveArr (s : State) (live : List Assign) (y : Assign) : State :=
  if live.any (fun z => z.crew == y.crew && z.l == y.l) then s
  else (s.modArr (s.physArr y.crew y.l) Arr.release).untreat (s.physArr y.crew y.l)

/-- Free the generations of context `c` other than the live one (R116, R154). -/
def State.retire (s : State) (c : Nat) : State :=
  let x := s.ctx c
  let keep := x.gens.filter (fun g => g.gen == x.live)
  let live := keep.flatMap (·.assigns)
  let s := s.each (x.gens.filter (fun g => g.gen != x.live)) (fun s g =>
    let s := s.freePages c g.gen g.assigns true
    let s := s.each g.assigns (fun s y => s.leaveArr live y)
    { s with bowW := s.bowW.filter (fun w => !(w.1 == c && w.2.1 == g.gen)) })
  (s.modCtx c (fun x => { x with gens := keep })).dropRoles
    ((x.gens.filter (fun g => g.gen != x.live)).flatMap (·.assigns))

/-! ## Arrays (R154 step 1, R205) -/

/-- Logical array `l` of a crew is in a pitch that has not been swung. -/
def State.inPitch (s : State) (crew l : Nat) : Bool :=
  (List.range 16).any (fun c => match (s.ctx c).pitch with
    | some p => p.g.assigns.any (fun y => y.crew == crew && y.l == l)
    | none => false)

/-- An array can be taken by context `c`: its fly plane is unbound, its ground plane unbound or bound to the context;
`some true` where the context's live ground is on it. -/
def State.arrayFor (s : State) (c crew l : Nat) : Option Bool :=
  let g := (s.arr (s.physArr crew l)).ground
  let k := s.crew crew
  if bndValid (k.binding l (!g)) || s.inPitch crew l then none
  else if !bndValid (k.binding l g) then some false
  else if bndCtx (k.binding l g) = c then some true
  else none

/-- The arrays of a crew that context `c` can take, those with its live ground first, each group ascending. -/
def State.candidates (s : State) (c crew : Nat) (acc : List Assign) : List Nat :=
  let ls := (List.range 16).filter (fun l => !acc.any (fun y => y.crew == crew && y.l == l))
  ls.filter (fun l => s.arrayFor c crew l = some true) ++ ls.filter (fun l => s.arrayFor c crew l = some false)

/-- A crew that is powered and not benched (R14, R234). -/
def State.crewUp (s : State) (crew : Nat) : Bool := diePowered s.env.env (crewDie crew) && !(s.crew crew).benched

/-- A crew with no array bound on either plane to any context, nor taken by a pitch, and not reserved (R205). -/
def State.crewEmpty (s : State) (crew : Nat) (acc : List Assign) : Bool :=
  s.crewUp crew && (s.crew crew).resv.isNone && !acc.any (fun y => y.crew == crew)
  && (List.range 16).all (fun l =>
    !bndValid ((s.crew crew).binding l false) && !bndValid ((s.crew crew).binding l true) && !s.inPitch crew l)

/-- The entries of a virtual crew, as (entry, layer), in ascending entry: engine class or bow class. -/
def Manifest.entriesOf (m : Manifest) (v : Nat) (bow : Bool) : List (Nat × Nat) :=
  m.places.zipIdx.filterMap (fun (e, i) =>
    match m.layers.findIdx? (fun l => l.isArray && l.owns i) with
    | some j => if plVcrew e = v ∧ (m.layer j).isBow = bow then some (i, j) else none
    | none => none)

/-- An assignment on the fly plane of an array; its pool pages follow. -/
def State.assign (s : State) (entry layer crew l : Nat) (second standby : Bool) : Assign :=
  { entry := entry, layer := layer, crew := crew, l := l, plane := !(s.arr (s.physArr crew l)).ground, second := second,
    standby := standby, sumsPage := 0, rowsPage := 0 }

/-- What the placement of the arrays has chosen: the assignments and the new pairs. -/
structure Placing where
  acc : List Assign
  pairs : List (Nat × Nat)
deriving DecidableEq, Repr

/-- Place the engine-class entries of a virtual crew together on the lowest-numbered crew that holds them. -/
def State.placeEngine (s : State) (c : Nat) (es : List (Nat × Nat)) (w : Placing) : Option Placing :=
  if es = [] then some w
  else
    match (List.range 256).find? (fun k =>
        s.crewUp k && (s.crew k).resv.isNone && !w.pairs.any (fun p => p.1 == k || p.2 == k)
        && es.length ≤ (s.candidates c k w.acc).length) with
    | none => none
    | some k => some { w with
        acc := w.acc ++ (es.zip (s.candidates c k w.acc)).map (fun (e, l) => s.assign e.1 e.2 k l false false) }

/-- Two arrays of each crew of a pair for every entry (R207): the first one taken is the stroke array, the next one the standby array
(log entry 131). -/
def State.pairAssigns (s : State) (crew : Nat) (second : Bool) : List (Nat × Nat) → List Nat → List Assign
  | e :: es, a :: b :: t =>
    s.assign e.1 e.2 crew a second false :: s.assign e.1 e.2 crew b second true :: State.pairAssigns s crew second es t
  | _, _ => []

/-- The pair holds `n` entries. -/
def State.pairHolds (s : State) (c n : Nat) (acc : List Assign) (p : Nat × Nat) : Bool :=
  s.crewUp p.1 && s.crewUp p.2 && 2 * n ≤ (s.candidates c p.1 acc).length && 2 * n ≤ (s.candidates c p.2 acc).length

/-- A new pair (R205, R16): the lowest-numbered empty crew, and the lowest-numbered one on another die, or at E1 in the other
half of CD0. -/
def State.newPair (s : State) (w : Placing) : Option (Nat × Nat) :=
  let free (k : Nat) : Bool := s.crewEmpty k w.acc && !w.pairs.any (fun p => p.1 == k || p.2 == k)
  match (List.range 256).find? free with
  | none => none
  | some a =>
    let other (k : Nat) : Bool := if s.env.env = 1 then k / 32 != a / 32 && crewDie k == crewDie a else crewDie k != crewDie a
    match (List.range 256).find? (fun k => free k && other k) with
    | none => none
    | some b =>
      let n := s.pairs.length + w.pairs.length + 1
      if n ≤ s.cfg.maxPairs.toNat ∧ bowLimitOk s.env.env s.cfg.margin.toNat n then some (a, b) else none

/-- Place the bow-class entries of a virtual crew together on one pair, the context's pairs first (R205). -/
def State.placeBow (s : State) (c : Nat) (es : List (Nat × Nat)) (w : Placing) : Option Placing :=
  if es = [] then some w
  else
    let on (w : Placing) (p : Nat × Nat) : Placing :=
      { w with
          acc := w.acc ++ s.pairAssigns p.1 false es (s.candidates c p.1 w.acc)
            ++ s.pairAssigns p.2 true es (s.candidates c p.2 w.acc) }
    match ((s.ctx c).pairs ++ w.pairs).find? (s.pairHolds c es.length w.acc) with
    | some p => some (on w p)
    | none =>
      match s.newPair w with
      | none => none
      | some p => if 2 * es.length ≤ 16 then some (on { w with pairs := w.pairs ++ [p] } p) else none

/-- Step 1 of R154: virtual crews in ascending order. -/
def State.placeAll (s : State) (c : Nat) (m : Manifest) : Option Placing :=
  (List.range m.nvcrew).foldl (fun w v =>
    match w with
    | none => none
    | some w =>
      match s.placeEngine c (m.entriesOf v false) w with
      | none => none
      | some w => s.placeBow c (m.entriesOf v true) w) (some ⟨[], []⟩)

/-! ## Pool pages (R115, R116, R154 steps 2 and 3) -/

/-- Pages of a sums table (R115). -/
def sumsPages (ly : Layer) : Nat := ceilDiv (ly.cols * 12) 1024

/-- The first of `n` contiguous free pool pages, the lowest such run (log entry 121). -/
def Crew.findRun (x : Crew) (n : Nat) : Option Nat :=
  ((List.range 239).map (· + 17)).find? (fun p =>
    p + n ≤ 256 && (List.range n).all (fun i => !x.pages.any (fun e => e.1 == p + i)))

/-- Take `n` contiguous pool pages for a generation of a context. -/
def Crew.take (x : Crew) (c gen n : Nat) : Option (Crew × Nat) :=
  match x.findRun n with
  | none => none
  | some p =>
    let x := { x with pages := x.pages ++ (List.range n).map (fun i => (p + i, c, gen)) }
    some ({ x with poolLow := min x.poolLow x.freePages }, p)

/-- Sums table and row-sum table of every assignment. -/
def State.takeTables (c gen : Nat) (m : Manifest) : List Assign → State → Option (State × List Assign)
  | [], s => some (s, [])
  | y :: ys, s =>
    match (s.crew y.crew).take c gen (sumsPages (m.layer y.layer)) with
    | none => none
    | some (x, p) =>
      match x.take c gen 1 with
      | none => none
      | some (x, r) =>
        match State.takeTables c gen m ys (s.setCrew y.crew x) with
        | none => none
        | some (s, t) => some (s, { y with sumsPage := p, rowsPage := r } :: t)

/-- The crews of a layer, each with the layer: the places that need tile pages. -/
def tilePlaces (ys : List Assign) : List (Nat × Nat) := (ys.map (fun y => (y.layer, y.crew))).eraseDups

/-- The home crew of a layer: the crew of split 0 and slice 0 of replica 0 (R132). -/
def homeCrew (m : Manifest) (ys : List Assign) (layer : Nat) : Option Nat :=
  (ys.find? (fun y => y.layer == layer && plSplit (m.place y.entry) == 0 && plSlice (m.place y.entry) == 0
    && plReplica (m.place y.entry) == 0)).map (·.crew)

/-- `n` single pool pages; the first one taken is answered. -/
def Crew.takeMany (c gen : Nat) : Nat → Crew → Option (Crew × Option Nat)
  | 0, x => some (x, none)
  | n + 1, x =>
    match x.take c gen 1 with
    | none => none
    | some (x, p) => match Crew.takeMany c gen n x with
      | none => none
      | some (x, _) => some (x, some p)

/-- The tile pages of every layer in every crew, and the claim-bitmap page of each replicated layer (R134): the first of its tile pages
in the home crew (log entry 121). -/
def State.takeTiles (c gen : Nat) (m : Manifest) (ys : List Assign) :
    List (Nat × Nat) → State → Option (State × List (Nat × Nat))
  | [], s => some (s, [])
  | (j, k) :: t, s =>
    match (s.crew k).takeMany c gen (m.layer j).tilePages with
    | none => none
    | some (x, p) =>
      match State.takeTiles c gen m ys t (s.setCrew k x) with
      | none => none
      | some (s, maps) =>
        match p with
        | some p => some (s, if 1 < (m.layer j).nrep ∧ homeCrew m ys j = some k then (j, p) :: maps else maps)
        | none => some (s, maps)

/-- Tile pages of a layer that hold tiles in a crew (R122, R134). -/
def tilePagesIn (m : Manifest) (ys : List Assign) (j k : Nat) : Nat :=
  (m.layer j).tilePages - (if 1 < (m.layer j).nrep ∧ homeCrew m ys j = some k then 1 else 0)

/-- Bytes of one vector's slices for the splits that a crew holds (R122). -/
def sliceSum (m : Manifest) (ys : List Assign) (j k : Nat) : Nat :=
  (((ys.filter (fun y => y.layer == j && y.crew == k)).map (fun y => plSplit (m.place y.entry))).eraseDups).length
    * (m.layer j).sliceBytes

/-- Output columns that a crew combines for a layer (R130); a layer with one split bypasses the combiner. -/
def combinedCols (m : Manifest) (ys : List Assign) (j k : Nat) : Nat :=
  if (m.layer j).splits = 1 then 0
  else sumNat ((ys.filter (fun y => y.layer == j && y.crew == k && !y.standby && plSplit (m.place y.entry) == 0)).map
    (fun y => (m.layer j).sliceCols (plSlice (m.place y.entry))))

/-- Step 3 of R154. -/
def combinersOk (m : Manifest) (ys : List Assign) : Bool :=
  (tilePlaces ys).all (fun (j, k) => combinedCols m ys j k ≤ 4096 && 2 * sliceSum m ys j k ≤ tilePagesIn m ys j k * 1024)

/-! ## Die buffers (R120, R154 step 4) -/

/-- The home die of an array layer. -/
def homeDie (m : Manifest) (ys : List Assign) (j : Nat) : Option Nat :=
  let mine := ys.filter (fun y => y.layer == j)
  if (m.layer j).isBow then
    match mine with
    | [] => none
    | y :: _ => some (crewDie ((mine.filter (fun z => z.entry == y.entry)).foldl (fun k z => min k z.crew) y.crew))
  else (mine.find? (fun y => plSplit (m.place y.entry) == 0 && plReplica (m.place y.entry) == 0)).map (fun y => crewDie y.crew)

/-- Die-buffer granules that a manifest takes on a die. -/
def dbufOn (m : Manifest) (ys : List Assign) (d : Nat) : Nat :=
  sumNat (m.layers.zipIdx.map (fun (l, j) => if l.isArray ∧ homeDie m ys j = some d then l.dbufGranules else 0))

/-- Granules taken on a die by every context (128 in all, 8 MiB of 64 KiB). -/
def State.dbufTaken (s : State) (d : Nat) : Nat :=
  sumNat ((List.range 16).map (fun c =>
    let x := s.ctx c
    sumNat ((x.gens ++ (match x.pitch with | some p => [p.g] | none => [])).map (fun g =>
      sumNat (g.dbuf.map (fun e => if e.1 = d then e.2 else 0))))))

/-- Step 4 of R154, with 2 * R ≤ D for the engine-class layers placed here (R122). -/
def State.buffersOk (s : State) (m : Manifest) (ys : List Assign) : Bool :=
  (List.range 4).all (fun d => s.dbufTaken d + dbufOn m ys d ≤ 128)
  && m.layers.zipIdx.all (fun (l, j) =>
    match homeDie m ys j with
    | some d => !l.isArray || l.isBow || 2 * l.inBytes ≤ dbufOn m ys d * 65536
    | none => true)

/-! ## HBM (R154 step 5) -/

/-- Granules free on the powered stacks. -/
def State.hbmFree (s : State) : Nat × Nat := (s.free0, if bitOf (envStacks s.env.env) 1 then s.free1 else 0)

/-- How `n` granules divide over two stacks with `f0` and `f1` free: R154 leaves it open (log entry 15). -/
def granuleSplit (draw n f0 f1 : Nat) : Nat × Nat :=
  let k := min (min n f1) (max (n - f0) (Config.freeGranuleSplit draw % (n + 1)))
  (n - k, k)

/-! ## Admission as a whole -/

/-- What an admitted package needs of HBM: working granules to add, bivouac granules, staging granules. -/
def State.hbmNeeds (s : State) (c : Nat) (m : Manifest) (nstage : Nat) : Nat × Nat × Nat :=
  (m.workGranules - ((s.ctx c).w0 + (s.ctx c).w1), sumNat (m.layers.map (fun l => if l.isArray then 0 else l.hbmGranules)), 8 * nstage)

/-- Reserve the crews of a new pair (R208). -/
def State.reserve (s : State) (c : Nat) (p : Nat × Nat) : State :=
  (s.modCrew p.1 (fun x => { x with resv := some ⟨false, c, p.2, 0⟩, resvLost := false })).modCrew p.2
    (fun x => { x with resv := some ⟨true, c, p.1, 0⟩, resvLost := false })

/-- Row mode ends on an array that admission takes (R47); on a reserved crew a second array of an entry becomes the standby
array unless the two have their roles already. -/
def State.takeArr (s : State) (y : Assign) : State :=
  s.modCrew y.crew (fun x => { x with
    sine := if x.sine.slot.toNat = physOf x.spare.toNat y.l then x.sine.refuse else x.sine })

/-- The standby bits of a pair of arrays of one entry (R208). -/
def setRoles (r : Resv) (a b : Nat) : Resv :=
  if r.standby.getLsbD a != r.standby.getLsbD b then r
  else { r with standby := (r.standby ||| BitVec.ofNat 16 (2 ^ b)) &&& ~~~ BitVec.ofNat 16 (2 ^ a) }

/-- Give the arrays of the bow entries their roles. -/
def State.giveRoles : List Assign → State → State
  | a :: b :: t, s =>
    if b.standby then
      State.giveRoles t (s.modCrew a.crew (fun x => { x with
          resv := x.resv.map (fun r => setRoles r a.l b.l), resvLost := false }))
    else State.giveRoles (b :: t) s
  | _, s => s

/-- Admission of a package as generation `gen` (R154); none where anything does not fit. The context's state and the pitch timer
follow when PITCH_BEGIN completes. -/
def State.admitPackage (s : State) (c gen : Nat) (m : Manifest) (nstage timeoutMs : Nat) : Option State :=
  let s := s.retire c
  match s.placeAll c m with
  | none => none
  | some w =>
    match State.takeTables c gen m w.acc s with
    | none => none
    | some (t, ys) =>
      match State.takeTiles c gen m ys (tilePlaces ys) t with
      | none => none
      | some (t, maps) =>
        let (wk, bv, st) := s.hbmNeeds c m nstage
        let (f0, f1) := s.hbmFree
        if !(combinersOk m ys && s.buffersOk m ys && wk + bv + st ≤ f0 + f1) then none
        else
          let (a0, a1) := granuleSplit s.free wk f0 f1
          let (h0, h1) := granuleSplit (s.free + 1) bv (f0 - a0) (f1 - a1)
          let (s0, s1) := granuleSplit (s.free + 2) st (f0 - a0 - h0) (f1 - a1 - h1)
          let g : Generation :=
            { gen := gen, man := m, assigns := ys, dbuf := (List.range 4).map (fun d => (d, dbufOn m ys d)), h0 := h0,
              h1 := h1, biv := [], maps := maps, regions := [], bad := [] }
          let p : Pitch :=
            { g := g, accepted := [], nstage := nstage, stage := [], s0 := s0, s1 := s1, a0 := a0, a1 := a1,
              timeoutMs := timeoutMs, timerOn := false, begun := false, busySlot := none, exec := none, packed := [], commit := none }
          let t := { t with free := t.free + 3 }
          let t := t.each w.pairs (fun t p => t.reserve c p)
          let t := State.giveRoles ys (t.each ys State.takeArr)
          some (t.modCtx c (fun x => { x with
            pitch := some p, pairs := x.pairs ++ w.pairs, w0 := x.w0 + a0, w1 := x.w1 + a1 }))

end Sys2Proof.Machine
end

