-- ==== Sys2Proof/Machine/Region.lean ====
section
/-! DEFINITION. The retrim region of a layer (R279 to R282): its header page and its areas. -/
namespace Sys2Proof.Machine

/-- The next 4 KiB boundary at or after `a`. -/
def align4k (a : Nat) : Nat := ceilDiv a 4096 * 4096

def rgRank (h : List Byte) : Nat := field h 8 1
def rgBatch (h : List Byte) : Nat := field h 10 2
def rgSamples (h : List Byte) : Nat := field h 12 4
def rgBeta1 (h : List Byte) : F32 := BitVec.ofNat 32 (field h 16 4)
def rgBeta2 (h : List Byte) : F32 := BitVec.ofNat 32 (field h 20 4)
def rgEps (h : List Byte) : F32 := BitVec.ofNat 32 (field h 24 4)
def rgSteps (h : List Byte) : Nat := field h 28 4
def rgXOfs (h : List Byte) : Nat := field h 32 8
def rgTOfs (h : List Byte) : Nat := field h 40 8

/-- P, the number of parameters of an adapter of rank `r` (R279). -/
def paramCount (r : Nat) (ly : Layer) : Nat := r * (ly.k + ly.n) + ly.n

/-- Bytes of the moment pages and of the gradient blocks (R281). -/
def momBytes (p : Nat) : Nat := 4096 * ceilDiv p 3360
def gradBytes (p : Nat) : Nat := 34 * ceilDiv p 32

/-- Offsets of the areas from the region base (R281). -/
def liveOfs : Nat := 4096
def trainOfs (p : Nat) : Nat := align4k (4096 + 2 * p)
def momOfs (p : Nat) : Nat := align4k (trainOfs p + 2 * p)
def varOfs (p : Nat) : Nat := momOfs p + momBytes p
def gradOfs (p : Nat) : Nat := varOfs p + momBytes p
def gradEnd (p : Nat) : Nat := gradOfs p + gradBytes p

/-- The end of the region, relative to its base: the last byte of the reference data. -/
def regionEnd (h : List Byte) (ly : Layer) : Nat :=
  max (rgXOfs h + rgSamples h * ly.inBytes) (rgTOfs h + rgSamples h * (2 * ly.n))

/-- 256 FP16 entries, strictly increasing, so none is NaN; entry `z` is 0 (R280). -/
def codebook8Ok (h : List Byte) (off z : Nat) : Bool :=
  let e (i : Nat) : F32 := f32OfF16 (BitVec.ofNat 16 (field h (off + 2 * i) 2))
  (List.range 255).all (fun i => f32Lt (e i) (e (i + 1))) && decide (f32Val (e z) = .fin false 0 ∨ f32Val (e z) = .fin true 0)

/-- A beta of R280. -/
def betaOk (b : F32) : Bool := f32Finite b && decide (0 ≤ f32Q b) && decide (f32Q b < 1)

/-- The header page meets R280 and R281. -/
def headerOk (h : List Byte) (idx : Nat) (ly : Layer) : Bool :=
  let p := paramCount (rgRank h) ly
  4096 ≤ h.length && slice h 0 4 == [0x56, 0x5A, 0x52, 0x54] && field h 4 4 == idx && 1 ≤ rgRank h && rgRank h ≤ 16
  && field h 9 1 == 0 && 1 ≤ rgBatch h && rgBatch h ≤ 256 && 1 ≤ rgSamples h && rgSamples h ≤ 65536 && betaOk (rgBeta1 h)
  && betaOk (rgBeta2 h) && f32Lt 0 (rgEps h) && rgSteps h == 0
  && gradEnd p ≤ rgXOfs h && gradEnd p ≤ rgTOfs h && zeroAt h 48 464 && codebook8Ok h 512 128 && codebook8Ok h 1024 0
  && zeroAt h 1536 2560

end Sys2Proof.Machine
end

