-- ==== Sys2Proof/Machine/Shards.lean ====
section
/-! DEFINITION. Shards (R144, R361), block-LZ (R146, R147), the pack converter (R145), and their delivery into planes, pool
pages, bivouac space and working space. -/
namespace Sys2Proof.Machine

/-! ## Block-LZ (R146) -/

/-- Extension bytes: added to a count, continuing while a byte equals 255. -/
def lzExt : List Byte → Nat → Option (Nat × List Byte)
  | [], _ => none
  | b :: t, n => if b = 255 then lzExt t (n + 255) else some (n + b.toNat, t)

/-- A count of a token: its nibble, with extension bytes where the nibble is 15. -/
def lzCount (n : Nat) (bs : List Byte) : Option (Nat × List Byte) := if n = 15 then lzExt bs 15 else some (n, bs)

/-- Copy `n` bytes from `off` back, one by one; `out` is the output so far, newest first. -/
def lzCopy (off : Nat) : Nat → List Byte → List Byte
  | 0, out => out
  | n + 1, out => lzCopy off n (out.getD (off - 1) 0 :: out)

/-- The sequences of one frame body; `out` is the output so far, newest first. -/
def lzBody : Nat → List Byte → List Byte → Option (List Byte)
  | 0, _, _ => none
  | _, [], _ => none
  | f + 1, t :: bs, out =>
    match lzCount (t.toNat / 16) bs with
    | none => none
    | some (l, bs) =>
      if bs.length < l then none
      else
        let out := (bs.take l).reverse ++ out
        match bs.drop l with
        | [] => if out.length ≤ 65536 then some out else none
        | a :: b :: rest =>
          let off := a.toNat + 256 * b.toNat
          match lzCount (t.toNat % 16) rest with
          | none => none
          | some (m, rest) =>
            if off = 0 ∨ out.length < off ∨ 65536 < out.length + m + 3 then none
            else lzBody f rest (lzCopy off (m + 3) out)
        | _ => none

/-- The frames of a payload (R146). -/
def lzFrames : Nat → List Byte → Option (List Byte)
  | 0, _ => none
  | _, [] => some []
  | f + 1, bs =>
    let h := field bs 0 4
    let n := bitsOf h 0 24
    let body := (bs.drop 4).take n
    if bs.length < 4 + n ∨ n = 0 ∨ 65536 < n ∨ bitsOf h 24 7 ≠ 0 then none
    else
      match if bitOf h 31 then some body else (lzBody (n + 1) body []).map List.reverse with
      | none => none
      | some out => (lzFrames f (bs.drop (4 + n))).map (out ++ ·)

/-- Decode a payload to exactly `raw` bytes; none where it is malformed (R147). -/
def lzDecode (bs : List Byte) (raw : Nat) : Option (List Byte) :=
  match lzFrames (bs.length + 1) bs with
  | some out => if out.length = raw then some out else none
  | none => none

/-! ## Shard headers (R144, R361) -/

/-- Columns that an array layer's arrays hold: outputs of one slice (R143). -/
def Layer.colsOf (l : Layer) : Nat := l.cols

/-- The payload length that a type asks for, where it is fixed. -/
def payloadLen (ly : Layer) (h : List Byte) : Option Nat :=
  match shType h with
  | 1 => some (256 * shNrows h)
  | 2 => some (12 * ly.cols)
  | 3 => some 1024
  | 5 => some (6 * ly.cols)
  | 6 => some (2 * ly.cols * shNrows h)
  | _ => none

/-- The locating fields apply by type (R361). -/
def shardFieldsOk (m : Manifest) (j : Nat) (h : List Byte) : Bool :=
  let ly := m.layer j
  let t := shType h
  let rows : Bool :=
    if t = 1 then 1 ≤ shNrows h && shNrows h ≤ 512 && shRow0 h + shNrows h ≤ 512
    else if t = 6 then 1 ≤ shNrows h && shNrows h ≤ 512 && shRow0 h + shNrows h ≤ ly.rows (plSplit (m.place (shPlace h)))
    else shRow0 h == 0 && shNrows h == 0
  let place : Bool := if t = 4 ∨ t = 7 then shPlace h == 0xFFFFFFFF else ly.owns (shPlace h)
  let ofs : Bool :=
    if t = 4 then shOffset h + shRawLen h ≤ ly.hbmGranules * 2 ^ 21
    else if t = 7 then true else shOffset h == 0
  rows && place && ofs && (if t = 6 then shWformat h ≤ 1 else shWformat h == 0)

/-- An accepted shard (header and payload) and another one of the same layer name the same data (R361). -/
def shardsClash (m : Manifest) (h k : List Byte) : Bool :=
  let slc (x : List Byte) : Nat := plSlice (m.place (shPlace x))
  shLayer h == shLayer k && shType h == shType k &&
  (match shType h with
   | 1 | 6 => shPlace h == shPlace k && !apart (shRow0 h) (shNrows h) (shRow0 k) (shNrows k)
   | 2 | 3 => shPlace h == shPlace k
   | 5 => slc h == slc k
   | _ => !apart (shOffset h) (shRawLen h) (shOffset k) (shRawLen k))

/-- The index of the layer's REFERENCE shard that carries the retrim header (R280): the lowest. -/
def headerShard (m : Manifest) (j : Nat) : Option Nat :=
  (m.shards.zipIdx.find? (fun e => stLayer e.1 == j && stType e.1 == 7)).map (·.2)

/-- A REFERENCE shard meets R282; a payload that carries the header gives the region (base, end). A shard that comes before the header
is not written where the live generation reads: no region of its layer could hold it. -/
def State.referenceOk (s : State) (c : Nat) (p : Pitch) (idx j : Nat) (h pay : List Byte) : Option (Option (Nat × Nat)) :=
  let ly := p.g.man.layer j
  let work := p.g.man.workGranules * 2 ^ 21
  let lo := shOffset h
  let old := ((s.ctx c).gens.filter (fun g => g.gen == (s.ctx c).live)).flatMap (·.regions)
  let clear (a n : Nat) : Bool := old.all (fun o => apart a n o.2.1 (o.2.2 - o.2.1))
  let inside (r : Nat × Nat) (a n : Nat) : Bool := r.1 ≤ a && a + n ≤ r.2
  if !ly.isArray || ly.isBow || work < lo + shRawLen h then none
  else if headerShard p.g.man j = some idx then
    let r := (lo, lo + regionEnd pay ly)
    let others := p.accepted.filter (fun e => shLayer e.2 == j && shType e.2 == 7)
    if headerOk pay j ly && lo % 4096 == 0 && r.2 ≤ work && clear r.1 (r.2 - r.1)
        && others.all (fun e => inside r (shOffset e.2) (shRawLen e.2)) && inside r lo (shRawLen h)
    then some (some r) else none
  else
    match p.g.regions.find? (fun e => e.1 == j) with
    | some e => if inside e.2 lo (shRawLen h) then some none else none
    | none => if clear lo (shRawLen h) then some none else none

/-- Check 5 of R156: the decoded shard (header and payload) and the region it opens; none where the shard is malformed. -/
def State.shardContent (s : State) (c : Nat) (p : Pitch) (idx : Nat) (bs : List Byte) :
    Option (List Byte × Option (Nat × Nat)) :=
  let m := p.g.man
  let e := m.shards.getD idx []
  let h := bs.take 64
  let j := stLayer e
  if !(slice h 0 4 == [0x56, 0x5A, 0x53, 0x48] && field h 4 4 == idx && shLayer h == j && shType h == stType e
      && shComp h ≤ 1 && (shComp h == 0 || m.portable) && zeroAt h 14 2 && zeroAt h 41 23 && shPayloadLen h + 64 == bs.length
      && (shComp h == 1 || shRawLen h == shPayloadLen h) && shardFieldsOk m j h
      && (match payloadLen (m.layer j) h with | some n => n == shRawLen h | none => true)) then none
  else
    match (if shComp h = 1 then lzDecode (bs.drop 64) (shRawLen h) else some (bs.drop 64)) with
    | none => none
    | some pay =>
      if p.accepted.any (fun a => shardsClash m h a.2) then none
      else if shType h = 7 then (s.referenceOk c p idx j h pay).map (fun r => (h ++ pay, r))
      else some (h ++ pay, none)

/-! ## Planes and pool pages -/

/-- Overwrite a run of keys from `lo` on; values 0 are not listed. -/
def Tbl.fill (t : Tbl Nat) (lo : Nat) (vs : List Nat) : Tbl Nat :=
  t.filter (fun e => e.1 < lo) ++ (vs.zipIdx.filterMap (fun (v, i) => if v = 0 then none else some (lo + i, v))
    ++ t.filter (fun e => lo + vs.length ≤ e.1))

/-- Level targets of consecutive rows arrive at the fly plane: they join the rows to be programmed (R157). -/
def Arr.addRows (plane : Bool) (y : Prog) (row0 : Nat) (codes : List Nat) (ladder : Option (List Nat)) (x : Arr) : Arr :=
  let p := x.plane plane
  let g := x.prog.getD y
  { (x.setPlane plane { p with target := p.target.fill (row0 * 512) codes, ladder := ladder }) with
    prog := some { g with rows := g.rows ++ (List.range (codes.length / 512)).map (fun i => row0 + i) } }

/-- The empty programming record of an assignment. -/
def progOf (c gen : Nat) (y : Assign) : Prog :=
  { ctx := c, gen := gen, layer := y.layer, entry := y.entry, rows := [], left := 512, slots := 0, pulses := [], stuck := [],
    intend := [] }

/-- Codes of consecutive rows go to every array of a placement entry. -/
def State.deliverCodes (s : State) (c : Nat) (g : Generation) (entry row0 : Nat) (codes : List Nat) : State :=
  s.each (g.assigns.filter (fun y => y.entry == entry)) (fun s y =>
    let ly := g.man.layer y.layer
    s.modArr (s.physArr y.crew y.l)
      (Arr.addRows y.plane (progOf c g.gen y) row0 codes (if ly.cb4 then some ly.ladder else none)))

/-- Bytes go to a pool page (and those that follow) of every array of a placement entry. -/
def State.deliverPages (s : State) (g : Generation) (entry : Nat) (page : Assign → Nat) (bs : List Byte) : State :=
  s.each (g.assigns.filter (fun y => y.entry == entry)) (fun s y =>
    s.modCrew y.crew (fun x => { x with sram := Memory.writeBytes x.sram (0x400 * page y) bs }))

/-- The key of a bivouac byte (R165). -/
def bivKey (layer off : Nat) : Nat := layer * 2 ^ 40 + off

/-- An accepted shard's data reaches its place (R156). -/
def State.deliver (s : State) (c : Nat) (g : Generation) (sh : List Byte) : State :=
  let pay := sh.drop 64
  match shType sh with
  | 1 => s.deliverCodes c g (shPlace sh) (shRow0 sh) (unpackElems 1 pay)
  | 2 => s.deliverPages g (shPlace sh) (·.sumsPage) pay
  | 3 => s.deliverPages g (shPlace sh) (·.rowsPage) pay
  | 4 => (s.chargeHbm false pay.length).modCtx c (fun x => { x with
      pitch := x.pitch.map (fun p => { p with
        g := { p.g with biv := Memory.writeBytes p.g.biv (bivKey (shLayer sh) (shOffset sh)) pay } }) })
  | 7 => (s.chargeHbm false pay.length).writeWork c (shOffset sh) pay
  | _ => s

/-! ## The pack converter (R145, R63, R224) -/

/-- An integer as INT32; outside its range the result is not stated (log entry 19). -/
def int32Of (case : Nat) (x : Int) : Nat :=
  if -(2 ^ 31 : Int) ≤ x ∧ x < 2 ^ 31 then toTwos 32 x else Config.freeResult case (toTwos 64 x) % 2 ^ 32

/-- A real weight (BF16 or FP16 bits) as a number; none where it is not finite. -/
def weightQ (fp16 : Bool) (w : Nat) : Option Rat :=
  match (if fp16 then fmtFP16 else fmtBF16).decode w with
  | .fin _ v => some v
  | _ => none

/-- The level code of a weight under the column scale `sj` (R145); where the quotient is not stated, a free value in range
(log entry 19). -/
def packCode (ly : Layer) (fp16 : Bool) (sj : F16) (w : Nat) : Nat :=
  let top : Nat := if ly.w8 then 255 else 15
  match weightQ fp16 w with
  | some v =>
    if f16Finite sj && decide (f16Q sj ≠ 0) then
      if ly.cb4 then nearestEntry (fun k => some (absQ (f16Q (ly.codebook k) - v / f16Q sj))) 16 0 0
      else (clampInt 0 (top : Int) (roundEven (v / f16Q sj) + (ly.zw : Int))).toNat
    else Config.freeResult 1 (w + 65536 * sj.toNat) % (top + 1)
  | none => Config.freeResult 1 (w + 65536 * sj.toNat) % (top + 1)

/-- The two cells of an 8-bit code, or the one of a 4-bit code. -/
def cellsOf (ly : Layer) (k : Nat) : List Nat := if ly.w8 then [k / 16, k % 16] else [k]

/-- The codes of one row of weights: one per output column of the slice. -/
def packRow (ly : Layer) (fp16 : Bool) (scales : List F16) (row : List Byte) : List Nat :=
  scales.zipIdx.map (fun (sj, j) => packCode ly fp16 sj (field row (2 * j) 2))

/-- Row `i` of an entry's weights among the accepted shards: WFORMAT and the row's bytes. -/
def weightRow (p : Pitch) (cols entry i : Nat) : Option (Bool × List Byte) :=
  (p.accepted.find? (fun e => shType e.2 == 6 && shPlace e.2 == entry && shRow0 e.2 ≤ i && i < shRow0 e.2 + shNrows e.2)).map
    (fun e => (shWformat e.2 == 1, slice e.2 (64 + 2 * cols * (i - shRow0 e.2)) (2 * cols)))

/-- The SCALEBIAS payload of an output slice of a layer. -/
def scaleBias (p : Pitch) (layer sl : Nat) : Option (List Byte) :=
  (p.accepted.find? (fun e =>
    shType e.2 == 5 && shLayer e.2 == layer && plSlice (p.g.man.place (shPlace e.2)) == sl)).map (fun e => e.2.drop 64)

/-- The 512 rows of codes of a portable array: weights on rows 0 to n_s - 1, z_w on the others (R144). -/
def packRows (p : Pitch) (ly : Layer) (entry : Nat) (scales : List F16) : List (List Nat) :=
  let ns := ly.rows (plSplit (p.g.man.place entry))
  (List.range 512).map (fun i =>
    match if i < ns then weightRow p ly.cols entry i else none with
    | some (f, row) => packRow ly f scales row
    | none => List.replicate ly.cols ly.zw)

/-- One sums-table entry (R63) of output column `j`. COLSUM of a CB4 layer is the exact sum of the codebook values, rounded to
FP32 once (log entry 94); the divisor s_j times 2^e_x of a CB4 bias is rounded to FP32 before the division (log entry 134). -/
def sumsBytes (ly : Layer) (split ns : Nat) (rows : List (List Nat)) (sj : F16) (bias : F32) (j : Nat) : List Byte :=
  let ks := (rows.take ns).map (fun r => r.getD j 0)
  let q := f32Mul (f32OfF16 sj) (f32Rat (pow2 ly.ex))
  let colsum : Nat :=
    if ly.cb4 then (f32Rat (ks.foldl (fun t k => t + f16Q (ly.codebook k)) 0)).toNat else sumNat ks
  let const : Nat :=
    if ly.cb4 then (if split = 0 then (f32Div bias q).toNat else 0)
    else
      let b : Nat :=
        if split ≠ 0 then 0
        else if f32Finite bias && f16Finite sj && decide (f16Q sj ≠ 0) then
          int32Of 2 (roundEven (f32Q bias / (f16Q sj * pow2 ly.ex)))
        else Config.freeResult 2 (bias.toNat + 2 ^ 32 * sj.toNat) % 2 ^ 32
      int32Of 3 ((ns * ly.zx * ly.zw : Nat) + signedOf 32 b)
  leBytes 4 colsum ++ leBytes 4 const ++ leBytes 2 sj.toNat ++ [0, 0]

/-- The row sum RSUM of a row of codes (R224). -/
def rowSum (ly : Layer) (row : List Nat) : Nat :=
  if ly.cb4 then
    (roundEven (8 * (row.foldl (fun t k => t + ((ly.ladder.getD k 0 : Nat) : Rat) / 128 - 1) 0))).toNat % 65536
  else sumNat row % 65536

/-- Convert one placement entry of a portable package (R145). -/
def State.packEntry (s : State) (c : Nat) (p : Pitch) (entry layer : Nat) (sb : List Byte) : State :=
  let ly := p.g.man.layer layer
  let split := plSplit (p.g.man.place entry)
  let scales : List F16 := (List.range ly.cols).map (fun j => BitVec.ofNat 16 (field sb (6 * j) 2))
  let rows := packRows p ly entry scales
  let sums := (List.range ly.cols).flatMap (fun j =>
    sumsBytes ly split (ly.rows split) rows (scales.getD j 0) (BitVec.ofNat 32 (field sb (6 * j + 2) 4)) j)
  let s := s.deliverPages p.g entry (·.sumsPage) sums
  let s := s.deliverPages p.g entry (·.rowsPage) (rows.flatMap (fun r => leBytes 2 (rowSum ly r)))
  s.deliverCodes c p.g entry 0 (rows.flatMap (fun r => r.flatMap (cellsOf ly)))

/-! ## Completeness (R144) -/

/-- Rows of an entry that accepted shards of type `t` cover. -/
def rowsCovered (p : Pitch) (t entry : Nat) : Nat :=
  sumNat ((p.accepted.filter (fun e => shType e.2 == t && shPlace e.2 == entry)).map (fun e => shNrows e.2))

/-- All shards of a portable array have arrived: its weights and its slice's scales. -/
def portableReady (p : Pitch) (layer entry : Nat) : Bool :=
  let ly := p.g.man.layer layer
  let pl := p.g.man.place entry
  rowsCovered p 6 entry == ly.rows (plSplit pl) && (scaleBias p layer (plSlice pl)).isSome

/-- The array of a placement entry is complete (R144). -/
def entryComplete (p : Pitch) (layer entry : Nat) : Bool :=
  let has (t : Nat) : Bool := p.accepted.any (fun e => shType e.2 == t && shPlace e.2 == entry)
  if p.g.man.portable then portableReady p layer entry else has 2 && has 3 && rowsCovered p 1 entry == 512

/-- The placement entries of array layers, with their layers. -/
def Manifest.entries (m : Manifest) : List (Nat × Nat) :=
  (List.range m.places.length).filterMap (fun i =>
    (m.layers.findIdx? (fun l => l.isArray && l.owns i)).map (fun j => (i, j)))

end Sys2Proof.Machine
end

