-- ==== Sys2Proof/Machine/Pitch.lean ====
section
/-! DEFINITION. Pitching (06): PITCH_BEGIN, PITCH_SHARD and its completion, the pack converter, PITCH_COMMIT and its completion,
PITCH_ABORT, the pitch timeout and writes into the pitch window. -/
namespace Sys2Proof.Machine

/-! ## PITCH_BEGIN (R153, R269) -/

/-- The manifest's bytes for a command: on a ring of a device that leads no group the command names them itself. -/
structure Source where
  addr : Addr
  len : Nat
deriving DecidableEq, Repr

/-- The entries of a group index (R269): every device of the system exactly once; reserved bytes are ignored (R5). -/
def groupIndexOk (s : State) (bs : List Byte) : Bool :=
  let es := records bs 0 16 s.group.devices
  let addrs := es.map (fun e => bitsOf (field e 0 2) 0 16)
  addrs.Nodup && addrs.all (fun a => a == s.self || s.others.contains a)

/-- The index entry of a device address. -/
def indexEntry (s : State) (bs : List Byte) (a : Nat) : List Byte :=
  ((records bs 0 16 s.group.devices).find? (fun e => field e 0 2 == a)).getD []

/-- The manifest that an index entry names. -/
def entrySource (e : List Byte) : Option Source :=
  match addrOf (field e 8 8) with
  | some (.host a) => if a + field e 4 4 ≤ 2 ^ 62 then some ⟨.host a, field e 4 4⟩ else none
  | _ => none

/-- What a PITCH_BEGIN of a ring reads at DATA_ADDR: the manifest, or at the top manager the group index. -/
def State.pitchRead (s : State) (q : QueueId) (p : Packet) : Option Source :=
  match q with
  | .fwd _ => none
  | _ => (addrOf p.dataAddr).bind (fun a =>
      if (a.isHost || a.isWork) && s.rangeOk (ctxOf q p) a p.length then some ⟨a, p.length⟩ else none)

/-- Where the manifest of this device's part lies: the command's own address, the group index's entry at the top manager, the
index entry that the CMD message carried at a member (`ext`). None gives BAD_PARAM. -/
def pitchSource (s : State) (q : QueueId) (p : Packet) : Option Source :=
  match q with
  | .fwd _ => entrySource p.ext
  | _ => (s.pitchRead q p).bind (fun x =>
      if s.top then
        let bs := s.readAt (ctxOf q p) x.addr x.len
        if x.len = 16 * s.group.devices ∧ groupIndexOk s bs then entrySource (indexEntry s bs s.self) else none
      else some x)

/-- Two layer records agree as those of a group must (R269): KIND, CLASS, NDYN, K, N, NUMERICS, BUCKETS. -/
def Layer.sameAs (l k : Layer) : Bool :=
  slice l.raw 0 2 == slice k.raw 0 2 && l.ndyn == k.ndyn && slice l.raw 8 72 == slice k.raw 8 72 && slice l.raw 104 128 == slice k.raw 104 128

/-- Two manifests of a group agree (R269). -/
def Manifest.sameAs (m k : Manifest) : Bool :=
  m.layers.length == k.layers.length && (m.layers.zip k.layers).all (fun e => e.1.sameAs e.2)

/-- The manifest that a group index names for a device, as far as it reads as one in the host memory (log entry 90). -/
def State.indexManifest (s : State) (bs : List Byte) (a : Nat) : Option Manifest :=
  (entrySource (indexEntry s bs a)).bind (fun x => manifestOf (s.readAt 0 x.addr (min x.len (2 ^ 24))) x.len)

/-- The lowest member whose manifest differs from the top manager's own (R269). -/
def State.differs (s : State) (q : QueueId) (p : Packet) (m : Manifest) : Option Nat :=
  if !s.top then none
  else (s.pitchRead q p).bind (fun x =>
    s.others.find? (fun a => (s.indexManifest (s.readAt (ctxOf q p) x.addr x.len) a).any (fun k => !m.sameAs k)))

/-- The training step of a RETRIM_STEP. -/
def Cmd.trim? (x : Cmd) : Option TrimWork := match x.work with | .run w => w.trim | _ => none
def Cmd.setTrim (t : TrimWork) (x : Cmd) : Cmd :=
  { x with work := match x.work with | .run w => .run { w with trim := some t } | v => v }

/-- A RETRIM_STEP's training step is in execution. -/
def Cmd.training (x : Cmd) : Bool := !x.ended && (match x.work with | .run w => w.dispatched && w.trim.isSome | _ => false)

/-- RETRIM_STEPs of context `c` end with a PITCH_BEGIN (R288): the one in execution at its step boundary, for which the
PITCH_BEGIN `r` waits, the others at once. -/
def State.endRetrim (s : State) (c : Nat) (r : CmdRef) : State :=
  s.each (s.cmds.filter (Cmd.inContext c)) (fun s x =>
    match x.trim? with
    | some t =>
      if x.training then s.updCmd x.ref (Cmd.setTrim { t with stop := some r })
      else (s.purge x.ref).complete x x.outcome t.done 0
    | none => s)

/-- A training step of context `c` is in execution. -/
def State.training (s : State) (c : Nat) : Bool := s.cmds.any (fun x => x.inContext c && x.training)

/-- The key of a manifest's slot carries its KEY_ID. -/
def State.keyFor (s : State) (m : Manifest) : Option Key :=
  match (s.sec.keys.find? m.keySlot).join with
  | some k => if k.keyId = m.keyId then some k else none
  | none => none

/-- The read of a manifest or a group index (R302): HBM tokens where it comes from working space, of a PITCH_BEGIN that then fails, too
(log entry 132). -/
def State.readManifest (s : State) (src : Source) : State :=
  if src.addr.isHost then s else s.chargeHbm false (min src.len (2 ^ 24))

/-- A PITCH_BEGIN's read at DATA_ADDR. -/
def State.readAtBegin (s : State) (q : QueueId) (p : Packet) : State :=
  match s.pitchRead q p with
  | some x => s.readManifest x
  | none => s

/-- The error that a read of the pitch's source meets in working space (R223). -/
def State.sourceErr (s : State) (c : Nat) (a : Addr) (n : Nat) : Option ParityErr :=
  match a with
  | .work off => badIn (s.ctx c).bad off n
  | _ => none

/-- A PITCH_BEGIN that passes its checks: the device copies the manifest into its reserve of HBM0 (R158), RETRIM_STEPs end (R288), and
the top manager sends the parts to the members (R267). -/
def State.beginPitch (s : State) (q : QueueId) (p : Packet) (gen : Nat) (src : Source) : State :=
  let c := ctxOf q p
  let t := (s.chargeHbm false src.len).endRetrim c ⟨q, p.tag⟩
  if t.parties q .pitchBegin = [] && !t.training c then (t.takeHold 0x10 c).done q p .ok gen 0
  else
    let idx := match addrOf p.dataAddr with
      | some a => s.readAt c a p.length
      | none => s.readAt c src.addr p.length
    let cmd := { mkCmd t q p true .plain with gen := gen }
    let t := t.launch .pitchBegin cmd (indexEntry s idx)
    match t.cmd? cmd.ref with
    | some x => if t.training c then t else t.complete x .ok gen 0
    | none => t

/-- PITCH_BEGIN with a generation to adopt (R269; 0: number it here, R151). The checks of R153 stand in their order; in a group a
failure names this device, or the member whose manifest differs. The device copies the manifest into its reserve of HBM0. -/
def effPitchBegin (adopt : Nat) (q : QueueId) (p : Packet) (s : State) : State :=
  let c := ctxOf q p
  let fail (st : Status) : State := s.reply q p st 0 0 (if s.member then s.self else 0)
  if 16 < p.param 32 1 ∨ p.resultAddr ≠ 0 then fail .badParam
  else
    let rd := s.pitchRead q p
    let s := s.readAtBegin q p
    let fail (st : Status) : State := s.reply q p st 0 0 (if s.member then s.self else 0)
    match rd.bind (fun x => s.sourceErr c x.addr x.len), pitchSource s q p with
    | some e, _ => (s.parityNote (qCtx q) (some p.tag.toNat) e).reply q p .parity 0 0 (if s.member then s.self else 0)
    | none, none => fail .badParam
    | none, some src =>
      match manifestOf (s.readAt c src.addr (min src.len (2 ^ 24))) src.len with
      | none => fail .badParam
      | some m =>
        match s.keyFor m with
        | none => fail .sigBad
        | some k =>
          if !signedOk k.point (s.readAt c src.addr src.len) then fail .sigBad
          else if field m.hdr 16 2 ≠ 0x09A4 ∨ stepping < field m.hdr 18 1 then fail .badParam
          else if !m.limitsOk s.member
              || (s.member && !s.top && m.layers.any (fun l => l.isBow && l.placeCount != 0)) then fail .badParam
          else if let some a := s.differs q p m then s.reply q p .badParam 0 0 a
          else
            let gen := if adopt = 0 then pitchGen (s.ctx c).live (s.ctx c).aborted else adopt
            let nst := if p.param 32 1 = 0 then 4 else p.param 32 1
            let tmo := if p.param 34 2 = 0 then 10000 else p.param 34 2
            match s.admitPackage c gen m nst tmo with
            | none => fail .noFit
            | some t => t.beginPitch q p gen src

def execPitchBegin (q : QueueId) (s : State) : Host.Outcome State Fault Refusal :=
  .next (s.packetRow q .pitchBegin (effPitchBegin 0))

/-! ## PITCH_SHARD (R156) -/

/-- The abort of a pitch with the ends of its commands. -/
def State.abortWith (s : State) (c : Nat) (mark : Bool) (shardSt commitSt waitSt : Status) : State :=
  match (s.ctx c).pitch with
  | some p => (s.abortPitch c mark).endPitchCmds c p shardSt commitSt waitSt
  | none => s

/-- The source of a PITCH_SHARD: none where it is not valid or its slot is not backed (check 2). -/
def shardSource (s : State) (c : Nat) (pt : Pitch) (p : Packet) : Option Addr :=
  match addrOf p.dataAddr with
  | none => none
  | some a =>
    if !s.rangeOk c a p.length then none
    else match a with
      | .window sl _ => if sl < pt.nstage then some a else none
      | _ => some a

/-- Execute a PITCH_SHARD that has been accepted, when its turn comes: checks 2 to 5 of R156. -/
def State.startShard (s : State) (x : Cmd) : State :=
  let c := ctxOf x.ref.q x.pkt
  match (s.ctx c).pitch with
  | none => s.complete x (if (s.ctx c).abortMark then .shardMissing else .state) (x.pkt.param 36 4) 0
  | some p =>
    let idx := x.pkt.param 36 4
    if p.commit.isSome || (s.ctx c).st = .committed then s.complete x .state idx 0
    else
      match shardSource s c p x.pkt with
      | none => s.complete x .badParam idx 0
      | some a =>
        if p.g.man.nshard ≤ idx then s.complete x .badParam idx 0
        else if p.accepted.any (fun e => e.1 == idx) then s.complete x .ok idx 0
        else
          let e := p.g.man.shards.getD idx []
          let bs := s.readAt c a x.pkt.length
          let s := if a.isHost then s else s.chargeHbm false x.pkt.length
          match s.sourceErr c a x.pkt.length with
          | some e => (s.parityError x.ref e).completeIf x.ref .parity idx 0
          | none =>
          if x.pkt.length ≠ stLen e ∨ sha384 bs ≠ stDigest e then s.complete x .shardBad idx 0
          else
            match s.shardContent c p idx bs with
            | none => ((s.dropCmd x.ref).abortWith c false .badParam .shardMissing .state).complete x .badParam idx 0
            | some (sh, r) =>
              let regions := match r with | some (lo, hi) => (stLayer e, lo, hi) :: p.g.regions | none => p.g.regions
              s.modCtx c (fun y => { y with
                pitch := some { p with
                  g := { p.g with regions := regions }
                  accepted := p.accepted ++ [(idx, sh)]
                  exec := some x.ref, timerOn := false
                  busySlot := match a with | .window sl _ => some sl | _ => none } })

/-- The source of a PITCH_SHARD lies in HBM, and its read waits for tokens (R304). -/
def State.shardWaits (s : State) (x : Cmd) : Bool :=
  (addrOf x.pkt.dataAddr).any (fun a => !a.isHost) && !s.hbmOpen false

/-- Start the waiting PITCH_SHARD commands of a context, in queue order, until one is in execution or waits for its tokens. -/
def State.nextShards : List Cmd → Nat → State → State
  | [], _, s => s
  | x :: xs, c, s =>
    match (s.ctx c).pitch with
    | some p =>
      if p.exec.isSome then s
      else match s.cmd? x.ref with
        | some y => if s.shardWaits y then s.hbmWait false else State.nextShards xs c (s.startShard y)
        | none => State.nextShards xs c s
    | none => State.nextShards xs c (match s.cmd? x.ref with | some y => s.startShard y | none => s)

def State.shardLane (s : State) (c : Nat) : State := State.nextShards (s.cmds.filter (Cmd.isShard c)) c s

/-- PITCH_SHARD (R156): the shards of a context execute one at a time, in queue order. -/
def effPitchShard (q : QueueId) (p : Packet) (s : State) : State :=
  let c := ctxOf q p
  match (s.ctx c).pitch with
  | none => s.reply q p .state 0 0 0
  | some pt =>
    if p.param 32 2 ≠ pt.g.gen ∨ pt.g.man.nshard ≤ p.param 36 4 ∨ p.resultAddr ≠ 0 ∨ (shardSource s c pt p).isNone
    then s.reply q p .badParam 0 0 0
    else (s.enrol (mkCmd s q p false (.shard (p.param 36 4)))).shardLane c

def execPitchShard (q : QueueId) (s : State) : Host.Outcome State Fault Refusal :=
  .next (s.packetRow q .pitchShard effPitchShard)

/-- The pitch without the PITCH_SHARD in execution (R156, R160): its slot is free, the timer restarts. -/
def Pitch.shardDone (p : Pitch) : Pitch := { p with exec := none, busySlot := none, timerOn := p.commit.isNone }

/-- A shard whose transfer failed is not accepted: it is to be sent again (R223). -/
def Pitch.unaccept (idx : Nat) (p : Pitch) : Pitch :=
  let layer := stLayer (p.g.man.shards.getD idx [])
  { p with
      accepted := p.accepted.filter (fun e => e.1 != idx)
      g := if headerShard p.g.man layer = some idx then { p.g with regions := p.g.regions.filter (fun r => r.1 != layer) } else p.g }

/-- An error that a stack finds in the source of a PITCH_SHARD in working space lasts (R223). -/
def State.noteSource (s : State) (c : Nat) (p : Packet) (e : ParityErr) : State :=
  match addrOf p.dataAddr with
  | some (.work off) => s.noteWork c off p.length e
  | _ => s

/-- The data of an accepted shard goes to HBM: BIVOUAC and REFERENCE. -/
def shardToHbm (sh : List Byte) : Bool := shType sh == 4 || shType sh == 7

/-- PITCH_SHARD_COMPLETE (R156): the data has left its slot, which waits for the tokens of data that goes to HBM (R304); the timer
restarts (R160), the next shard starts. `err` is a parity error found on the data's way (R222, R223): the shard is accepted no longer,
and a PITCH_COMMIT that waits goes on without it (log entry 133). -/
def execPitchShardComplete : Checked (Fin 16) → State → Host.Outcome State Fault Refusal
  | ⟨c, err⟩, s =>
    match (s.ctx c.val).pitch with
    | none => .next s
    | some p =>
      match p.exec.bind s.cmd? with
      | none => .next s
      | some x =>
        let idx := x.pkt.param 36 4
        let fin (s : State) : State := s.modCtx c.val (fun y => { y with pitch := y.pitch.map Pitch.shardDone })
        match err with
        | some e =>
          let s := ((s.noteSource c.val x.pkt e).modCtx c.val (fun y => { y with pitch := y.pitch.map (Pitch.unaccept idx) })).parityError x.ref e
          .next (((fin s).completeIf x.ref .parity idx 0).shardLane c.val)
        | none =>
          let sh := ((p.accepted.find? (fun e => e.1 == idx)).map (·.2)).getD []
          if shardToHbm sh && !s.hbmOpen false then .next (s.hbmWait false)
          else .next (((fin (s.deliver c.val p.g sh)).complete x .ok idx 0).shardLane c.val)

/-! ## The pack converter (R145) -/

/-- The weights of an entry, whose words met an error in the pack converter, are to be sent again; once a PITCH_COMMIT waits none can
be, so the pitch is aborted and the PITCH_COMMIT ends with PARITY (R223; log entry 125). -/
def State.packError (s : State) (c : Nat) (p : Pitch) (entry : Nat) (e : ParityErr) : State :=
  let s := s.parityNote (some c) none e
  let s := if p.commit.isSome then s.abortWith c false .parity .parity .shardMissing
    else s.modCtx c (fun y => { y with pitch := y.pitch.map (fun p => { p with
      accepted := p.accepted.filter (fun a => !(shType a.2 == 6 && shPlace a.2 == entry)) }) })
  s.parityCrew e

/-- PACK_CONVERSION: all shards of a portable array have arrived; `err` is an error that their words meet (R222, R223). -/
def execPackConversion : Checked (Fin 16) → Nat → State → Host.Outcome State Fault Refusal
  | ⟨c, err⟩, entry, s =>
    match (s.ctx c.val).pitch with
    | none => .next s
    | some p =>
      match p.g.man.entries.find? (fun e => e.1 == entry) with
      | none => .next s
      | some (_, j) =>
        if !p.g.man.portable || p.packed.contains entry || !portableReady p j entry then .next s
        else
          match err with
          | some e => .next (s.packError c.val p entry e)
          | none =>
            let sb := (scaleBias p j (plSlice (p.g.man.place entry))).getD []
            let s := s.packEntry c.val p entry j sb
            .next (s.modCtx c.val (fun y => { y with pitch := y.pitch.map (fun p => { p with packed := entry :: p.packed }) }))

/-! ## PITCH_COMMIT (R159) -/

/-- Shards not accepted, ascending. -/
def missingShards (p : Pitch) : List Nat := (List.range p.g.man.nshard).filter (fun i => !p.accepted.any (fun e => e.1 == i))

/-- What checks 2 to 4 of R159 find: a status with its results, or nothing. -/
def State.commitCheck (s : State) (p : Pitch) : Option (Status × Nat × Nat) :=
  let miss := missingShards p
  match miss with
  | i :: _ => some (.shardMissing, miss.length, i)
  | [] =>
    match p.g.man.entries.find? (fun e => !entryComplete p e.2 e.1) with
    | some e => some (.badParam, 0, e.1)
    | none => if (s.keyFor p.g.man).isNone then some (.sigBad, 0, 0) else none

/-- PITCH_COMMIT: a failed check aborts the pitch; otherwise the context is committing and the timer stops. -/
def effPitchCommit (q : QueueId) (p : Packet) (s : State) : State :=
  let c := ctxOf q p
  match (s.ctx c).pitch with
  | none => s.reply q p .state 0 0 0
  | some pt =>
    if !p.noAddrs || p.param 32 2 ≠ pt.g.gen then s.reply q p .badParam 0 0 0
    else
      let cmd := { mkCmd s q p false .commit with gen := pt.g.gen }
      let t := s.launch .pitchCommit cmd noExtra
      match s.commitCheck pt with
      | some (st, r0, r1) =>
        let t := t.abortWith c false .state .shardMissing .state
        match t.cmd? cmd.ref with
        | some x => t.complete x st r0 r1
        | none => t
      | none =>
        t.modCtx c (fun y => { y with
          st := .committing, pitch := some { pt with commit := some cmd.ref, timerOn := false } })

def execPitchCommit (q : QueueId) (s : State) : Host.Outcome State Fault Refusal :=
  .next (s.packetRow q .pitchCommit effPitchCommit)

/-- Every array of a generation has been programmed. -/
def State.programmed (s : State) (c : Nat) (g : Generation) : Bool :=
  g.assigns.all (fun y => match (s.arr (s.physArr y.crew y.l)).prog with
    | some pr => pr.ctx == c && pr.gen == g.gen && pr.left == 0
    | none => false)

/-- The binding record of an assignment (R117). -/
def bindingOf (c gen : Nat) (ly : Layer) (y : Assign) : List Byte :=
  leBytes 1 y.sumsPage ++ leBytes 1 y.rowsPage ++ leBytes 1 (c + 0x80) ++ leBytes 1 ly.wfmt ++ leBytes 2 ly.cols ++ leBytes 2 gen

/-- Write the binding records of a generation; its programming records end. -/
def State.bindAll (s : State) (c : Nat) (g : Generation) : State :=
  s.each g.assigns (fun s y =>
    (s.modCrew y.crew (fun x => x.setBinding y.l y.plane (bindingOf c g.gen (g.man.layer y.layer) y))).modArr
      (s.physArr y.crew y.l) (fun x => { x with prog := none }))

/-- PITCH_COMMIT_COMPLETE (R155, R159): the binding records are written, the staging slots lose their backing. -/
def execPitchCommitComplete (c : Fin 16) (s : State) : Host.Outcome State Fault Refusal :=
  match (s.ctx c.val).pitch with
  | none => .next s
  | some p =>
    match p.commit.bind s.cmd? with
    | none => .next s
    | some x =>
      if p.exec.isSome || !s.programmed c.val p.g then .next s
      else
        let s := s.bindAll c.val p.g
        let s := s.modCtx c.val (fun y => { y with
          pitch := some { p with
            commit := none, nstage := 0, stage := [], s0 := 0, s1 := 0, accepted := [] } })
        .next (s.complete x .ok 0 0)

/-! ## PITCH_ABORT, the pitch timeout (R160, R161) -/

/-- PITCH_ABORT. -/
def effPitchAbort (q : QueueId) (p : Packet) (s : State) : State :=
  let c := ctxOf q p
  match (s.ctx c).pitch with
  | none => s.reply q p .state 0 0 0
  | some pt =>
    if !p.noAddrs || p.param 32 2 ≠ pt.g.gen then s.reply q p .badParam 0 0 0
    else (s.abortWith c false .state .shardMissing .state).finish .pitchAbort q p false 0 noExtra

def execPitchAbort (q : QueueId) (s : State) : Host.Outcome State Fault Refusal :=
  .next (s.packetRow q .pitchAbort effPitchAbort)

/-- A packet of this device's own making, for the members of its group (R267, R270): opcode, context, TAG, first PARAM field. -/
def ownPacket (op c tag x : Nat) : Packet :=
  ⟨[BitVec.ofNat 8 op, BitVec.ofNat 8 (c + 16)] ++ leBytes 2 tag ++ List.replicate 28 0 ++ leBytes 2 x ++ List.replicate 30 0, [], none⟩

/-- A PITCH_ABORT of a generation. -/
def abortPacket (c tag gen : Nat) : Packet := ownPacket 0x13 c tag gen

/-- Set PTIMEOUT of a context's queue and raise its event vector where the bit was 0 (R204). -/
def State.ptimeoutEvent (s : State) (c : Fin 16) : State :=
  if (s.queue (.ctx c)).evt0 then s
  else (s.modQueue (.ctx c) (fun x => { x with evt0 := true })).raiseCtx c.val 2

/-- A pitch whose timer ran out on this device: its context is aborted with the mark of R152, with its signature and event. -/
def State.pitchTimeout (s : State) (c : Fin 16) (gen : Nat) : State :=
  let s := s.abortWith c.val true .shardMissing .shardMissing .shardMissing
  (s.emit 0x14 { ctx := some c.val, status := some 0x17, data := leBytes 2 gen }).ptimeoutEvent c

/-- PITCH_TIMEOUT (R160). In a group the pitch is aborted on every member (R270): the top manager sends PITCH_ABORT to all, a
member reports SHARD_MISSING to the top manager. -/
def execPitchTimeout (c : Fin 16) (s : State) : Host.Outcome State Fault Refusal :=
  match (s.ctx c.val).pitch with
  | none => .next s
  | some p =>
    if !p.timerOn then .next s
    else
      let s := s.pitchTimeout c p.g.gen
      let a := abortPacket c.val (s.freeTag c.val) p.g.gen
      .next (if s.top then s.sendCmds a p.g.gen s.others noExtra
        else if s.member then s.reply (.fwd c) a .shardMissing 0 0 0
        else s)

/-! ## The parts of a forwarded command (R267) -/

/-- Undo the parts of a CTX_OPEN, PITCH_BEGIN or PITCH_COMMIT that failed before execution on some member: here, and on the members
whose part succeeded, with the command's own tag, which is free there now. Of a RUN or COLLECTIVE the output range here is left
unspecified. No message of R253 undoes a part of another command (log entry 56). -/
def State.undo (s : State) (c : Cmd) : State :=
  let x := ctxOf c.ref.q c.pkt
  let here : Bool := match c.localEnd with | some (st, _, _) => st == .ok | none => false
  let there := (c.merged.filter (fun e => field e.2 2 1 == 0)).map (·.1)
  if c.pkt.opcode = 0x08 then
    s.sendCmds (ownPacket 0x09 x c.ref.tag.toNat 0) 0 there noExtra
  else if c.pkt.opcode = 0x10 ∨ c.pkt.opcode = 0x12 then
    (if here then s.abortWith x false .state .shardMissing .state else s).sendCmds (abortPacket x c.ref.tag.toNat c.gen) c.gen there noExtra
  else if c.pkt.opcode = 0x20 ∨ c.pkt.opcode = 0x22 then s.spoil c .fault
  else s

/-- Complete a forwarded command whose parts are all in. -/
def State.finishParts (s : State) (r : CmdRef) : State :=
  match s.cmd? r with
  | none => s
  | some c =>
    match c.localEnd with
    | none => s
    | some (st, r0, r1) =>
      if c.parts ≠ [] then s
      else
        let t := s.complete c st r0 r1
        if statusRank (s.outcomeOf c st).1 = 0 then t.undo c else t

/-! ## The pitch window (R155) -/

/-- A dropped write is counted and emits one signature. -/
def State.dropWrite (s : State) (off : Nat) : State :=
  let s := { s with env := { s.env with p2pDrop := BitVec.ofNat 32 (satAdd 32 s.env.p2pDrop.toNat 1) } }
  s.emit 0x13 { ctx := some (off / 2 ^ 28), data := leBytes 8 off }

/-- PITCH_WINDOW_WRITE: a posted write into BAR2, dropped as a whole outside a backed, free slot of a PITCHING context. A posted write
is taken as it comes; what its tokens lack is granted before anything reads the slot (R304). -/
def execPitchWindowWrite (fn : Fin 17) (off : Nat) (data : List Byte) (s : State) : Host.Outcome State Fault Refusal :=
  let off := if fn.val = 0 then off % 2 ^ 32 else off % 2 ^ 28 + (fn.val - 1) * 2 ^ 28
  let c := off / 2 ^ 28
  let sl := off / 2 ^ 24 % 16
  let x := off % 2 ^ 24
  if !s.busLive || data.isEmpty || (fn.val ≠ 0 && !s.dev.vfEn.getLsbD (fn.val - 1)) then .next s
  else
    match (s.ctx c).pitch with
    | some p =>
      if (s.ctx c).st.inPitch && sl < p.nstage && x + data.length ≤ 2 ^ 24 && decide (p.busySlot ≠ some sl) then
        .next ((s.chargeHbm false data.length).modCtx c (fun y => { y with
          pitch := some { p with stage := Memory.writeBytes p.stage (windowKey sl x) data } }))
      else .next (s.dropWrite off)
    | none => .next (s.dropWrite off)

end Sys2Proof.Machine
end

