-- ==== Sys2Proof/Machine/Swing.lean ====
section
/-! DEFINITION. SWING and the swing of an array (R35, R39, R99, R106, R162 to R164). -/
namespace Sys2Proof.Machine

/-- Strokes of a command are pending on an array (R163): of a command not yet dispatched, on a tile of the array's split and replica
not yet sent to its crew or not settled by it, of claims not yet given out (replica 0 also makes those that are recovered, R134),
queued or in flight there; a failed command has none. -/
def State.pendingOn (s : State) (x : Cmd) (y : Assign) : Bool :=
  match x.work with
  | .run w =>
    let pl := ((s.ctx (ctxOf x.ref.q x.pkt)).generation x.gen).elim [] (fun g => g.man.place y.entry)
    let a := s.physArr y.crew y.l
    !x.ended && w.idx == y.layer &&
      (!w.dispatched
       || (1 < w.layer.nrep && (if plReplica pl = 0 then decide (w.taken.length < w.limit) else !w.stopped.contains (plReplica pl)))
       || w.toSend.any (fun t => t.crew == y.crew && t.split == plSplit pl && t.rep == plReplica pl)
       || (s.crew y.crew).tiles.any (fun t => decide (t.ref = x.ref) && t.left.contains (a % 17))
       || (s.arr a).jobs.any (fun j => decide (j.ref = x.ref))
       || (s.arr a).replays.any (fun p => decide (p.ref = x.ref))
       || (s.arr a).shots.any (fun t => decide (t.ref = x.ref) && !t.warm))
  | _ => false

/-- A command has strokes or replays pending on an array: on the array itself, or on the other array of its bow entry (R207). -/
def State.holdsBack (s : State) (x : Cmd) (crew l : Nat) : Bool :=
  let ys := ((s.ctx (ctxOf x.ref.q x.pkt)).generation x.gen).elim [] (·.assigns)
  ys.any (fun y => y.crew == crew && ys.any (fun z => z.crew == crew && z.l == l && z.entry == y.entry) && s.pendingOn x y)

/-- An array may swing: no old batch open, and no command stamped with an old generation has strokes pending on it (R163). -/
def State.swingReady (s : State) (c : Nat) (crew l : Nat) : Bool :=
  let x := s.ctx c
  x.oldBatchClosed && (s.cmds.filter (fun k => k.inContext c && k.gen != x.adm)).all (fun k => !s.holdsBack k crew l)

/-- SWING (R163): the new generation is the admission generation, and the context drains. The bow table takes the new
generation's layers (R211). -/
def effSwing (q : QueueId) (p : Packet) (s : State) : State :=
  let c := ctxOf q p
  match (s.ctx c).pitch with
  | none => s.reply q p .state 0 0 0
  | some pt =>
    if !p.noAddrs || p.param 32 2 ≠ pt.g.gen then s.reply q p .badParam 0 0 0
    else
      let cmd := { mkCmd s q p false .swing with gen := pt.g.gen }
      let s := s.launch .swing cmd noExtra
      let s := s.modCtx c (fun x => { x with
        st := .draining, adm := pt.g.gen, gens := x.gens ++ [pt.g], pitch := none, swingCmd := some cmd.ref })
      (s.bowUpdate (fun a => pt.g.assigns.any (fun y => s.physArr y.crew y.l == a))).swingCheck c

def execSwing (q : QueueId) (s : State) : Host.Outcome State Fault Refusal := .next (s.packetRow q .swing effSwing)

/-- Registers that the swing of an array writes (R35, R164): settings from the layer record, kappa to P(T_now), T_win to T_now,
DRIFT to 0. A refresh of the old ground bank ends (R99); a census in progress begins again on the new one (log entry 60). -/
def Arr.swing (ly : Layer) (p : Rat) (tNow : Int) (x : Arr) : Arr :=
  { x with
    ground := !x.ground, step := BitVec.ofNat 4 (bitsOf ly.slewByte 0 4), rate := BitVec.ofNat 2 (bitsOf ly.slewByte 4 2),
    fold := BitVec.ofNat 2 (bitsOf ly.foldByte 4 2), auto := bitOf ly.foldByte 0, kappa := f32Rat p, tWinSum := tNow,
    tWinCnt := 1, drift := 0, limit := false, refresh := false, maint := Maint.reset }

/-- The context and assignment that an array has to swing to. -/
def State.swingTarget (s : State) (crew l : Nat) : Option (Nat × Generation × Assign) :=
  (List.range 16).findSome? (fun c =>
    let x := s.ctx c
    if !x.draining then none
    else (x.generation x.adm).bind (fun g =>
      (g.assigns.find? (fun y => y.crew == crew && y.l == l && (s.arr (s.physArr crew l)).ground != y.plane)).map
        (fun y => (c, g, y))))

/-- ARRAY_SWING: at a slot boundary the array exchanges its planes (R39, R106), once R163 allows it. -/
def execArraySwing (crew : Fin 256) (slot : Fin 17) (s : State) : Host.Outcome State Fault Refusal :=
  let a := arrIdx crew.val slot.val
  if s.isSpare a || (s.crew crew.val).benched || s.dev.st ≠ .active then .next s
  else
    match s.swingTarget crew.val (s.logicalArr a) with
    | none => .next s
    | some (c, g, y) =>
      if !s.swingReady c crew.val y.l then .next s
      else
        let t := ((s.tel.temps.getD (1 + crewDie crew.val) 0).toInt : Int)
        let was := (s.arr a).refresh
        let s := s.modArr a (Arr.swing (g.man.layer y.layer) (s.pFactor a (s.tNow a)) t)
        let s := if was then s.arrayDone 0x33 a else s
        .next (s.swingCheck c)

end Sys2Proof.Machine
end

