-- ==== Sys2Proof/Machine/WritePath.lean ====
section
/-! DEFINITION. Levels, patch lists (R101, R104, R106), the slots of the verify comparators (R40, R98, R99), and the row
PITCH_SLOT (R157, R158). -/
namespace Sys2Proof.Machine

/-! ## Levels -/

/-- The target of level `k` of a plane, in 1/64 microsiemens. -/
def Plane.levelTarget (p : Plane) (k : Nat) : Nat :=
  match p.ladder with
  | some l => l.getD k 0
  | none => nominalTarget k

/-- Distance of two naturals. -/
def natDist (a b : Nat) : Nat := (a - b) + (b - a)

/-- The level of a conductance: the nearest ladder target (R102), the lower one on a tie (log entry 41). -/
def Plane.levelOf (p : Plane) (g : Nat) : Nat :=
  (List.range 16).foldl (fun b k => if natDist (p.levelTarget k) g < natDist (p.levelTarget b) g then k else b) 0

/-- The target of column `c` (0 to 519) in a row: a data cell's (R20, R60) or a lantern cell's (R23). -/
def Plane.cellTarget (p : Plane) (row c : Nat) : Nat :=
  if c < 512 then p.levelTarget (p.target.get zeroNat (row * 512 + c)) else nominalTarget (lanternLevel (c - 512))

/-- A reading lies further than 0.20 microsiemens from a target (1/64 microsiemens). -/
def outside (target read : Nat) : Bool := 64 < 5 * natDist target read

/-! ## Patch lists (R104, R106) -/

def peRow (e : List Byte) : Nat := bitsOf (field e 0 2) 0 9
def peCol (e : List Byte) : Nat := bitsOf (field e 2 2) 0 9
/-- The value of DELTA: INT16, or FP16 for CB4. -/
def peDelta (cb4 : Bool) (e : List Byte) : Rat :=
  if cb4 then f16Q (BitVec.ofNat 16 (field e 4 2)) else (signedOf 16 (field e 4 2) : Rat)
/-- The 16 bits of a DELTA. -/
def deltaBits (cb4 : Bool) (d : Rat) : Nat := if cb4 then fmtFP16.encode (.fin (d < 0) d) else toTwos 16 (roundEven d)
/-- A patch entry. -/
def patchEntry (row col delta : Nat) : List Byte := leBytes 2 row ++ leBytes 2 (col + 2 ^ 15) ++ leBytes 2 delta ++ [0, 0]

/-- An entry goes before another at the cut-off: larger magnitude, then already in the list, then lower row, then lower
output column. -/
def patchBefore (cb4 : Bool) (x y : Bool × List Byte) : Bool :=
  let a := absQ (peDelta cb4 x.2)
  let b := absQ (peDelta cb4 y.2)
  if a ≠ b then decide (b < a)
  else if x.1 ≠ y.1 then x.1
  else if peRow x.2 ≠ peRow y.2 then decide (peRow x.2 < peRow y.2) else decide (peCol x.2 ≤ peCol y.2)

def patchInsert (cb4 : Bool) (x : Bool × List Byte) : List (Bool × List Byte) → List (Bool × List Byte)
  | [] => [x]
  | y :: t => if patchBefore cb4 x y then x :: y :: t else y :: patchInsert cb4 x t

/-- The list with new entries; the second part tells that more than 64 were needed. `keep` says that the entries of the list
are older than the new ones (a census); at a pitch all are of the same pitch. -/
def mergePatches (cb4 keep : Bool) (old new : List (List Byte)) : List (List Byte) × Bool :=
  if old.length + new.length ≤ 64 then (old ++ new, false)
  else
    let all := (old.map (fun e => (keep, e)) ++ new.map (fun e => (false, e))).foldl (fun t x => patchInsert cb4 x t) []
    ((all.take 64).map (·.2), true)

/-- Add entries to the patch list of a plane; where it overflows, PFULL is set and a signature emitted (R106). -/
def State.addPatches (s : State) (a : Nat) (plane cb4 keep : Bool) (new : List (List Byte)) : State :=
  if new.isEmpty then s
  else
    let l := s.logicalArr a
    let (es, cut) := mergePatches cb4 keep ((s.crew (a / 17)).patches l plane) new
    let s := s.modCrew (a / 17) (fun x => x.setPatches l plane es)
    if cut then
      let least := (es.getLast?.map (fun e => absQ (peDelta cb4 e))).getD 0
      (s.modArr a (fun x => x.setPlane plane { (x.plane plane) with full := true })).emit 0x11
        { loc := s.arrLoc a [], data := leBytes 2 (deltaBits cb4 least) }
    else s

/-! ## Slots of the verify comparators -/

/-- The array strokes: stroke requests are waiting. -/
def Arr.stroking (x : Arr) : Bool := x.jobs.any (fun j => !j.todo.isEmpty) || !x.replays.isEmpty

/-- One verify or maintenance slot after every SPACE stroke slots; back to back while the array does not stroke. -/
def Arr.spaced (x : Arr) (space : Nat) : Bool := !x.stroking || decide (space ≤ x.sinceMaint)

/-- A verify slot, maintenance slot or keep-warm stroke may start on an array: not the spare (R41), its crew serves (R234), not
in row mode (R47), no replay waiting (R36); on a reserved crew it is the standby array, with no replay in progress (R207). -/
def State.slotOpen (s : State) (a : Nat) : Bool :=
  let k := s.crew (a / 17)
  !s.isSpare a && s.crewUp (a / 17) && decide (s.dev.st = .active) && !(k.sine.en && k.sine.slot.toNat == a % 17)
  && (s.arr a).replays.isEmpty
  && (match k.resv with
      | none => true
      | some r => r.standby.getLsbD (s.logicalArr a) && !(s.arr a).shots.any (fun t => decide (!t.warm)))

/-- No other array of the crew is in a slot of classes 1 and 2, which occupy one array at a time (R99; log entry 126). -/
def State.writerFree (s : State) (a : Nat) : Bool :=
  (List.range 17).all (fun m => arrIdx (a / 17) m == a || (s.arr (arrIdx (a / 17) m)).verify == 0 || !(s.arr (arrIdx (a / 17) m)).writing)

/-- CLK_M cycles of a verify or maintenance slot: 32 CLK_A (R40, R98). -/
def verifySlot : Nat := 16

/-- A refresh of an array at its drift limit has rows left: it goes before everything else (R99). -/
def Arr.limitRefresh (x : Arr) : Bool := x.refresh && x.limit && !x.maint.rows.isEmpty

/-- Rows wait to be programmed. -/
def Arr.pitchWaits (x : Arr) : Bool := match x.prog with | some g => !g.rows.isEmpty | none => false

/-! ## One pitch slot (R101, R157) -/

/-- The cells that a read finds stuck: outside the window, and after 24 pulses, or (`last`) in the last slot that the row may
take (log entry 79). -/
def newStuck (p : Plane) (g : Prog) (row : Nat) (last : Bool) (reads : List Nat) : List (Nat × Nat) :=
  reads.zipIdx.filterMap (fun (v, c) =>
    if outside (p.cellTarget row c) v && !g.stuck.any (fun e => e.1 == c) && (24 ≤ g.pulses.get zeroNat c || last)
    then some (c, v) else none)

/-- The row ends with this slot: the 25th where no low cell has been retargeted, else the 50th. -/
def Prog.lastSlot (g : Prog) : Bool := (g.intend.isEmpty && 25 ≤ g.slots) || 50 ≤ g.slots

/-- Neighbour adjustment of one stuck high cell (R101): the low cell gets the level nearest to what is missing. -/
def retarget (row : Nat) (w : Plane × Prog × List Nat) (e : Nat × Nat) : Plane × Prog × List Nat :=
  let (p, g, fresh) := w
  let c := e.1
  let h := p.target.get zeroNat (row * 512 + c)
  let l := p.target.get zeroNat (row * 512 + c + 1)
  let v := 16 * h + l
  let l' := (clampInt 0 15 ((v : Int) - 16 * (p.levelOf e.2 : Int))).toNat
  if 512 ≤ c ∨ c % 2 = 1 ∨ l' = l then w
  else
    ({ p with target := p.target.set zeroNat (row * 512 + c + 1) l' },
     { g with
        pulses := g.pulses.del (c + 1), stuck := g.stuck.filter (fun x => x.1 ≠ c + 1),
        intend := if g.intend.any (fun x => x.1 == c / 2) then g.intend else (c / 2, v) :: g.intend },
     (c + 1) :: fresh)

/-- The stored level of a data cell at the end of its row: a stuck one's by its reading, any other's target. -/
def storedLevel (p : Plane) (g : Prog) (row c : Nat) : Nat :=
  match g.stuck.find? (fun e => e.1 == c) with
  | some e => p.levelOf e.2
  | none => p.target.get zeroNat (row * 512 + c)

/-- The residual of the weight that holds data column `c`: intended less stored (R101). -/
def residual (ly : Layer) (p : Plane) (g : Prog) (row c : Nat) : Rat :=
  let t (c : Nat) : Nat := p.target.get zeroNat (row * 512 + c)
  if ly.w8 then
    let j := c / 2
    let v := ((g.intend.find? (fun e => e.1 == j)).map (·.2)).getD (16 * t (2 * j) + t (2 * j + 1))
    ((v : Int) - (16 * storedLevel p g row (2 * j) + storedLevel p g row (2 * j + 1) : Nat) : Int)
  else if ly.cb4 then f16Q (ly.codebook (t c)) - f16Q (ly.codebook (storedLevel p g row c))
  else ((t c : Int) - (storedLevel p g row c : Int) : Int)

/-- The end of a row: its cells are as read, its stuck cells and their patch entries recorded. -/
def State.endRow (s : State) (a : Nat) (ly : Layer) (plane : Bool) (p : Plane) (g : Prog) (row : Nat) (reads : List Nat) :
    State :=
  let data := g.stuck.filter (fun e => e.1 < 512)
  let cols := (data.map (fun e => if ly.w8 then e.1 / 2 else e.1)).eraseDups
  let entries := cols.filterMap (fun j =>
    let d := residual ly p g row (if ly.w8 then 2 * j else j)
    if d = 0 then none else some (patchEntry row j (deltaBits ly.cb4 d)))
  let s := s.modArr a (fun x =>
    { (x.setPlane plane { p with
        cells := p.cells.fill (row * 520) (reads.map (· + 1)), stuck := p.stuck ++ g.stuck.map (fun e => row * 520 + e.1) }) with
      prog := some { g with rows := g.rows.drop 1, left := g.left - 1, slots := 0, pulses := [], stuck := [], intend := [] } })
  let s := s.each g.stuck (fun s e =>
    let d : Nat := if e.1 < 512 then deltaBits ly.cb4 (residual ly p g row e.1) else 0
    s.emit 0x0B { loc := s.arrLoc a [e.1], data := leBytes 2 row ++ leBytes 2 e.1 ++ leBytes 2 d })
  s.addPatches a plane ly.cb4 false entries

/-- The layer that a programming record belongs to. -/
def State.progLayer (s : State) (g : Prog) : Layer :=
  match (s.ctx g.ctx).pitch with
  | some p => p.g.man.layer g.layer
  | none => ⟨[]⟩

/-- One pitch slot on the fly plane: a read, then a pulse to every cell outside its window; where the write tokens are short
the slot waits (R158). -/
def State.pitchSlot (s : State) (a : Nat) (g : Prog) (row : Nat) (reads : List Nat) : State :=
  let x := s.arr a
  let plane := !x.ground
  let ly := s.progLayer g
  let p := x.plane plane
  let found := newStuck p g row false reads
  let g := { g with stuck := g.stuck ++ found, slots := g.slots + 1 }
  let (p, g, fresh) := if ly.w8 && g.slots < 50 then found.foldl (retarget row) (p, g, []) else (p, g, [])
  let g := { g with stuck := g.stuck ++ (if g.lastSlot then newStuck p g row true reads else []) }
  let out := (reads.zipIdx.filter (fun e => outside (p.cellTarget row e.2) e.1 && !g.stuck.any (fun y => y.1 == e.2))).map (·.2)
  let hit := out.filter (fun c => !fresh.contains c)
  let (gov, ok) := s.gov.drawWrite (4 + hit.length)
  if !ok then { s with gov := gov }
  else
    let s := { s with gov := gov }.modArr a (fun x => { x with sinceMaint := 0, verify := verifySlot, writing := true })
    if out.isEmpty || g.lastSlot then s.endRow a ly plane p g row reads
    else
      let pulses := hit.foldl (fun t c => t.set zeroNat c (t.get zeroNat c + 1)) g.pulses
      s.modArr a (fun x => { (x.setPlane plane p) with prog := some { g with pulses := pulses } })

/-- The place of an array of a pitch in the order in which its shards arrived: the first one for its placement entry. -/
def Pitch.arrival (p : Pitch) (entry : Nat) : Nat := p.accepted.findIdx (fun e => shPlace (e.2.take 64) == entry)

/-- No array of the same pitch whose shards arrived earlier has rows to program (R158; log entry 109). -/
def State.pitchTurn (s : State) (g : Prog) : Bool :=
  match (s.ctx g.ctx).pitch with
  | some p => p.g.assigns.all (fun y =>
      p.arrival g.entry ≤ p.arrival y.entry || !(s.arr (s.physArr y.crew y.l)).pitchWaits)
  | none => true

/-- PITCH_SLOT: a verify slot of class 2 (R99) reads the row in programming and pulses its cells. -/
def execPitchSlot (crew : Fin 256) (slot : Fin 17) (reads : List Nat) (s : State) : Host.Outcome State Fault Refusal :=
  let a := arrIdx crew.val slot.val
  let x := s.arr a
  if reads.length ≠ 520 then .fault .malformedEvent
  else if !s.slotOpen a || x.limitRefresh || !x.spaced s.cfg.space.toNat || !s.writerFree a then .next s
  else
    match x.prog with
    | none => .next s
    | some g =>
      match g.rows with
      | [] => .next s
      | row :: _ => .next (if s.pitchTurn g then s.pitchSlot a g row reads else s)

end Sys2Proof.Machine
end

