-- ==== Sys2Proof/Machine/Maintenance.lean ====
section
/-! DEFINITION. Refresh and census (R97 to R103): the commands REFRESH and CENSUS, their starts, the maintenance slots, and
their ends. -/
namespace Sys2Proof.Machine

/-! ## The commands (R100, R103) -/

/-- The array's ground plane is bound to context `c`. -/
def State.groundOf (s : State) (c a : Nat) : Bool := bndValid (s.groundBinding a) && bndCtx (s.groundBinding a) == c

/-- The physical arrays whose ground plane holds a layer of context `c`, ascending. -/
def State.groundArrs (s : State) (c : Nat) : List Nat :=
  ((s.ctxArrays c).map (fun k => s.physArr (k / 16) (k % 16))).filter (s.groundOf c)

/-- The arrays that a REFRESH or CENSUS treats: of the named context, or of every context (R100). -/
def State.treatArrs (s : State) (q : QueueId) (p : Packet) : List Nat :=
  if q = .admin ∧ p.ctx = 15 then (List.range 16).flatMap s.groundArrs else s.groundArrs (ctxOf q p)

/-- Queue the census of an array at the end, where it is neither queued nor running. -/
def State.queueCensus (s : State) (a : Nat) : State :=
  if (s.arr a).census || s.censusQ.contains a then s else { s with censusQ := s.censusQ ++ [a] }

/-- Queue the census of an array ahead of every census that has not started (R103). -/
def State.urgentCensus (s : State) (a : Nat) : State := { s with censusQ := a :: s.censusQ.filter (· ≠ a) }

/-- Queue the refresh of an array, where it is neither queued nor running. -/
def State.queueRefresh (s : State) (a : Nat) : State :=
  if (s.arr a).refresh || s.refreshQ.contains a then s else { s with refreshQ := s.refreshQ ++ [a] }

/-- A REFRESH or CENSUS is accepted with the arrays it treats; with none it completes at once. Where one of its arrays lies on a
benched crew it treats the others, and its status is CHECK_FAIL (R234). -/
def State.treat (s : State) (q : QueueId) (p : Packet) (queue : State → Nat → State) : State :=
  if !p.noAddrs then s.reply q p .badParam 0 0 0
  else
    let as := s.treatArrs q p
    let up := as.filter (fun a => s.crewUp (a / 17))
    let st := if up.length = as.length then Status.ok else .checkFail
    if up.isEmpty then s.done q p st 0 0
    else (s.each up queue).enrol { mkCmd s q p false (.arrays up up.length) with outcome := st }

/-- REFRESH (R100). -/
def effRefresh (q : QueueId) (p : Packet) (s : State) : State := s.treat q p State.queueRefresh
def execRefresh (q : QueueId) (s : State) : Host.Outcome State Fault Refusal := .next (s.packetRow q .refresh effRefresh)

/-- CENSUS (R103). -/
def effCensus (q : QueueId) (p : Packet) (s : State) : State := s.treat q p State.queueCensus
def execCensus (q : QueueId) (s : State) : Host.Outcome State Fault Refusal := .next (s.packetRow q .census effCensus)

/-! ## Starts (R97, R103) -/

/-- Arrays of a crew, other than `a`, under refresh or census. -/
def State.treating (s : State) (a : Nat) : Nat :=
  ((List.range 17).filter (fun m =>
    let b := arrIdx (a / 17) m
    b != a && ((s.arr b).refresh || (s.arr b).census))).length

/-- An array of a reserved crew is the standby array of its entry; on another crew every array may take maintenance (R207). -/
def State.takesSlots (s : State) (a : Nat) : Bool :=
  match (s.crew (a / 17)).resv with
  | none => true
  | some r => r.standby.getLsbD (s.logicalArr a)

/-- Maintenance may start on an array: a layer on its ground plane, its crew serving, a trim record loaded, CONC not reached, and
on a reserved crew the standby role. -/
def State.mayTreat (s : State) (a : Nat) : Bool :=
  s.dev.st = .active && !s.isSpare a && s.crewUp (a / 17) && s.env.trimLoaded && bndValid (s.groundBinding a)
  && s.takesSlots a && s.treating a < s.cfg.conc.toNat

/-- |DRIFT| has reached the threshold (R97). -/
def State.driftAtThr (s : State) (a : Nat) : Bool := decide (((s.cfg.thr.toNat : Nat) : Rat) / 10 ≤ absQ (s.arr a).driftPct)

/-- The rows of a refresh (R97): the ground plane's, then 512 + row for the lantern cells on the fly plane (log entry 43). -/
def refreshRows : List Nat := List.range 1024

def Arr.startRefresh (x : Arr) : Arr := { x with refresh := true, maint := { x.maint with rows := refreshRows } }
def Arr.startCensus (x : Arr) : Arr := { x with census := true, maint := { x.maint with censusRow := 0, levels := [] } }

/-- REFRESH_START (R97, R100). -/
def execRefreshStart (crew : Fin 256) (slot : Fin 17) (s : State) : Host.Outcome State Fault Refusal :=
  let a := arrIdx crew.val slot.val
  if s.mayTreat a && !(s.arr a).refresh && (s.driftAtThr a || s.refreshQ.contains a) then
    .next ({ s with refreshQ := s.refreshQ.filter (· ≠ a) }.modArr a Arr.startRefresh)
  else .next s

/-- The census that starts next in a crew: the first queued one that is not running and whose array still holds a layer. -/
def State.nextCensus (s : State) (crew : Nat) : Option Nat :=
  s.censusQ.find? (fun b => b / 17 == crew && !(s.arr b).census && bndValid (s.groundBinding b))

/-- CENSUS_START (R103). -/
def execCensusStart (crew : Fin 256) (slot : Fin 17) (s : State) : Host.Outcome State Fault Refusal :=
  let a := arrIdx crew.val slot.val
  if s.mayTreat a && s.nextCensus crew.val == some a then
    .next ({ s with censusQ := s.censusQ.filter (· ≠ a) }.modArr a Arr.startCensus)
  else .next s

/-- A context whose arrays receive keep-warm strokes and scheduled censuses: OPEN or LIVE (R91, R103). -/
def CtxState.inService (x : CtxState) : Bool := decide (x = .opened) || decide (x = .live)

/-- SCHEDULED_CENSUS_DUE (R103): CENSUS_H hours of powered time have passed. -/
def execScheduledCensusDue (s : State) : Host.Outcome State Fault Refusal :=
  if s.cfg.censusH = 0 ∨ s.env.envSet = false ∨ s.dev.st ≠ .active then .next s
  else
    .next (s.each ((List.range 16).filter (fun c => (s.ctx c).st.inService)) (fun s c =>
      s.each ((s.groundArrs c).filter (fun a => s.crewUp (a / 17))) State.queueCensus))

/-! ## Slots (R98, R99) -/

/-- A census found this cell of a weight at another level: its patch entry tells which of two cells it was, unless the weight was
patched for a cell stuck at pitch. -/
def foundBad (w8 : Bool) (stuck : List Nat) (row c : Nat) (e : List Byte) : Bool :=
  let d := signedOf 16 (field e 4 2)
  peRow e == row
  && (if w8 then
        peCol e == c / 2 && !stuck.contains (row * 520 + 2 * (c / 2)) && !stuck.contains (row * 520 + 2 * (c / 2) + 1)
        && (if c % 2 = 0 then decide (16 ≤ d ∨ d ≤ -16) else d % 16 != 0)
      else peCol e == c)

/-- A cell of the ground plane that a refresh does not wait for: no pulse brings a stuck one, or one that a census found at
another level, back to its target (log entry 42). -/
def State.leftAlone (s : State) (a row c : Nat) : Bool :=
  let x := s.arr a
  let w8 : Bool := match s.placeOf a x.ground with | some (_, _, _, ly) => ly.w8 | none => false
  let stuck := (x.plane x.ground).stuck
  stuck.contains (row * 520 + c)
  || (c < 512 && ((s.crew (a / 17)).patches (s.logicalArr a) x.ground).any (foundBad w8 stuck row c))

/-- A refresh slot: one row is read, and a pulse goes to every cell outside the tolerance (R98), on the fly plane to its lantern
cells alone; a row that still holds such a cell is taken again later. -/
def State.refreshSlot (s : State) (a row : Nat) (reads : List Nat) : State :=
  let x := s.arr a
  let fly := 512 ≤ row
  let r := row % 512
  let plane := if fly then !x.ground else x.ground
  let p := x.plane plane
  let hit := (reads.zipIdx.filter (fun e => (!fly || 512 ≤ e.2) && outside (p.cellTarget r e.2) e.1)).map (·.2)
  let again := hit.any (fun c => if fly then !p.stuck.contains (r * 520 + c) else !s.leftAlone a r c)
  let (gov, ok) := s.gov.drawWrite (4 + hit.length)
  if !ok then { s with gov := gov }
  else
    let cells := if fly then p.cells.fill (r * 520 + 512) ((reads.drop 512).map (· + 1))
      else p.cells.fill (r * 520) (reads.map (· + 1))
    { s with gov := gov }.modArr a (fun x =>
      { (x.setPlane plane { p with cells := cells }) with
        sinceMaint := 0, verify := verifySlot, writing := x.limit
        maint := { x.maint with rows := x.maint.rows.drop 1 ++ (if again then [row] else []) } })

/-- A census slot: one row is read, each cell taken at its nearest level. -/
def State.censusSlot (s : State) (a : Nat) (reads : List Nat) : State :=
  let (gov, ok) := s.gov.drawWrite 4
  if !ok then { s with gov := gov }
  else
    { s with gov := gov }.modArr a (fun x =>
      let p := x.plane x.ground
      let r := x.maint.censusRow
      { (x.setPlane x.ground { p with cells := p.cells.fill (r * 520) (reads.map (· + 1)) }) with
        sinceMaint := 0, verify := verifySlot, writing := false
        maint := { x.maint with
          censusRow := r + 1, levels := x.maint.levels.fill (r * 512) ((reads.take 512).map p.levelOf) } })

/-- MAINTENANCE_SLOT: the pending class of R99 that goes first, where no pitch slot goes before it. -/
def execMaintenanceSlot (crew : Fin 256) (slot : Fin 17) (reads : List Nat) (s : State) :
    Host.Outcome State Fault Refusal :=
  let a := arrIdx crew.val slot.val
  let x := s.arr a
  if reads.length ≠ 520 then .fault .malformedEvent
  else if !s.slotOpen a then .next s
  else if x.limitRefresh then .next (if s.writerFree a then s.refreshSlot a (x.maint.rows.headD 0) reads else s)
  else if x.pitchWaits || !x.spaced s.cfg.space.toNat then .next s
  else if x.census && x.maint.censusRow < 512 then .next (s.censusSlot a reads)
  else if x.refresh && !x.maint.rows.isEmpty then .next (s.refreshSlot a (x.maint.rows.headD 0) reads)
  else .next s

/-! ## Ends -/

/-- REFRESH_COMPLETE (R100): the last row lies within tolerance. -/
def execRefreshComplete (crew : Fin 256) (slot : Fin 17) (s : State) : Host.Outcome State Fault Refusal :=
  let a := arrIdx crew.val slot.val
  let x := s.arr a
  if x.refresh && x.maint.rows.isEmpty then .next ((s.modArr a (fun x => { x with refresh := false })).arrayDone 0x33 a)
  else .next s

/-- The smallest step of a codebook (R102). -/
def Layer.minStep (ly : Layer) : Rat :=
  (List.range 15).foldl (fun m k => minQ m (f16Q (ly.codebook (k + 1)) - f16Q (ly.codebook k)))
    (f16Q (ly.codebook 1) - f16Q (ly.codebook 0))

/-- The weight value of an output column in a row, by the levels read. -/
def weightRead (ly : Layer) (lv : Tbl Nat) (row j : Nat) : Rat :=
  let k (c : Nat) : Nat := lv.get zeroNat (row * 512 + c)
  if ly.w8 then ((16 * k (2 * j) + k (2 * j + 1) : Nat) : Rat)
  else if ly.cb4 then f16Q (ly.codebook (k j)) else ((k j : Nat) : Rat)

/-- A difference is a mismatch (R102). -/
def isMismatch (ly : Layer) (d : Rat) : Bool := if ly.cb4 then decide (ly.minStep / 2 < absQ d) else decide (d ≠ 0)

/-- The mismatch of each output column: COLSUM less the patches of its active rows, less what was read there. -/
def colMismatch (ly : Layer) (ns : Nat) (colsum : Nat → Nat) (ps : List (List Byte)) (lv : Tbl Nat) : List (Nat × Rat) :=
  ((List.range ly.cols).map (fun j =>
    let c : Rat := if ly.cb4 then f32Q (BitVec.ofNat 32 (colsum j)) else (signedOf 32 (colsum j) : Rat)
    let patched := sumQ ((ps.filter (fun e => peCol e == j && decide (peRow e < ns))).map (peDelta ly.cb4))
    (j, c - patched - sumQ ((List.range ns).map (fun i => weightRead ly lv i j))))).filter (fun e => isMismatch ly e.2)

/-- The mismatch of each row: RSUM (R224) less the row's patches, less what was read along it; for CB4 in the codebook
domain. -/
def rowMismatch (ly : Layer) (rsum : Nat → Nat) (ps : List (List Byte)) (lv : Tbl Nat) : List (Nat × Rat) :=
  ((List.range 512).map (fun i =>
    let patched := sumQ ((ps.filter (fun e => peRow e == i)).map (peDelta ly.cb4))
    if ly.cb4 then
      let alpha := f32Q ly.ladderA / 2
      let read := sumQ ((List.range 512).map (fun c =>
        ((ly.ladder.getD (lv.get zeroNat (i * 512 + c)) 0 : Nat) : Rat) / 128 - 1))
      (i, (((rsum i : Nat) : Rat) / 8 - read) / alpha - patched)
    else (i, ((rsum i : Nat) : Rat) - patched - sumQ ((List.range ly.cols).map (fun j => weightRead ly lv i j))))).filter
    (fun e => isMismatch ly e.2)

/-- The cells that a census locates, as entries; none where it is ambiguous (R102). Mismatches on rows alone or on columns
alone locate no cell (log entry 45). -/
def locate (cb4 : Bool) (rows cols : List (Nat × Rat)) : Option (List (List Byte)) :=
  match rows, cols with
  | [r], cs => some (cs.map (fun c => patchEntry r.1 c.1 (deltaBits cb4 c.2)))
  | rs, [c] => some (rs.map (fun r => patchEntry r.1 c.1 (deltaBits cb4 r.2)))
  | [], _ => some []
  | _, [] => some []
  | _, _ => none

/-- What a finished census does to the array's ground patch list. -/
def State.censusResult (s : State) (a : Nat) : State :=
  let x := s.arr a
  match s.placeOf a x.ground with
  | none => s
  | some (_, g, y, ly) =>
    let k := s.crew (a / 17)
    let ps := k.patches y.l x.ground
    let rows := rowMismatch ly (fun i => field (Memory.readBytes k.sram (0x400 * y.rowsPage + 2 * i) 2) 0 2) ps x.maint.levels
    let cols := colMismatch ly (ly.rows (plSplit (g.man.place y.entry))) (fun j => seColsum (k.sumsEntry y.sumsPage j)) ps
      x.maint.levels
    match locate ly.cb4 rows cols with
    | some new => s.addPatches a x.ground ly.cb4 true new
    | none =>
      (s.modArr a (fun x => { x with cAmbig := true })).emit 0x10
        { loc := s.arrLoc a [], data := leBytes 2 rows.length ++ leBytes 2 cols.length }

/-- A vector lies between its first stroke and its last one on an array. -/
def Arr.midVector (x : Arr) : Bool := !x.replays.isEmpty || x.jobs.any (fun j => j.started && !j.todo.isEmpty)

/-- CENSUS_COMPLETE (R102, R103): at a vector boundary of the array the list takes what the census has found (R106). -/
def execCensusComplete (crew : Fin 256) (slot : Fin 17) (s : State) : Host.Outcome State Fault Refusal :=
  let a := arrIdx crew.val slot.val
  let x := s.arr a
  if x.census && 512 ≤ x.maint.censusRow && !x.midVector then
    .next (((s.censusResult a).modArr a (fun x => { x with
      census := false, maint := { x.maint with censusRow := 0, levels := [] } })).arrayDone 0x34 a)
  else .next s

end Sys2Proof.Machine
end

