-- ==== Sys2Proof/Machine/Assembly.lean ====
section
/-! DEFINITION. Output assembly (R31, R61 to R69, R105), the stroke check (R224 to R227), the combiner's conversion and the
way of outputs to their destination (R112, R121, R134, R211, R271, R278). -/
namespace Sys2Proof.Machine

/-! ## Placement of a running layer -/

/-- The generation of a command's stamp. -/
def State.runGen (s : State) (c : Cmd) : Option Generation := (s.ctx (ctxOf c.ref.q c.pkt)).generation c.gen

/-- Where split 0 of a slice is combined (R128), on this device. -/
def combAssign (g : Generation) (idx sl rep : Nat) (second : Bool) : Option Assign :=
  g.assigns.find? (fun y => y.layer == idx && !y.standby && y.second == second && plSplit (g.man.place y.entry) == 0
    && plSlice (g.man.place y.entry) == sl && plReplica (g.man.place y.entry) == rep)

/-- Slices of a layer that this device combines. -/
def combSlices (g : Generation) (idx : Nat) (ly : Layer) : List Nat :=
  (List.range ly.slices).filter (fun t => (combAssign g idx t 0 false).isSome)

/-- This device sends partial words of the layer to another one. -/
def sendsParts (g : Generation) (idx : Nat) : Bool :=
  g.assigns.any (fun y => y.layer == idx && !y.standby && (combAssign g idx (plSlice (g.man.place y.entry))
    (plReplica (g.man.place y.entry)) y.second).isNone)

/-- The die of a layer's combining crew. -/
def combDie (g : Generation) (idx : Nat) : Nat :=
  match g.assigns.find? (fun y => y.layer == idx && plSplit (g.man.place y.entry) == 0) with
  | some y => crewDie y.crew
  | none => 0

/-! ## Progress counters (R138) -/

/-- The progress counter that the Cox allocates to the training steps of a command: one of the die's last 16, by context (log entry
49). -/
def State.counterOf (_ : State) (c : Cmd) (die : Nat) : Nat := die * 64 + 48 + ctxOf c.ref.q c.pkt

/-- A descriptor names a counter. -/
def Desc.names (k : Nat) (d : Desc) : Bool := d.wait.any (fun e => e.1 == k) || d.signal == some k || d.hbmSignal == some k

/-- A counter is allocated: a RUN has it or waits for it, or a descriptor or a write to HBM names it. -/
def State.counterUsed (s : State) (k : Nat) : Bool :=
  s.cmds.any (fun c => match c.work with | .run w => w.counter == some k || w.waitFor.any (fun e => e.1 == k) | _ => false)
  || (List.range 32).any (fun v => (s.ve v).ring.any (Desc.names k) || (s.ve v).writes.any (fun e => e.2 == some k))

/-- The counter that a RUN takes: the lowest free one of the die's first 48, if there is one (log entry 49). -/
def State.freeCounterOn (s : State) (die : Nat) : Option Nat := ((List.range 48).map (· + die * 64)).find? (fun k => !s.counterUsed k)

/-- Clear a counter at its allocation. -/
def State.clearCounter (s : State) (k : Option Nat) : State :=
  match k with
  | some k => s.setCounter k 0
  | none => s

/-- Increment a progress counter. -/
def State.bump (s : State) (k : Option Nat) : State :=
  match k with
  | some k => s.setCounter k (s.counter k + 1)
  | none => s

/-! ## Recombination (R31) and partial accumulation (R62 to R65) -/

/-- Pair the columns of 8-bit weights: 16 times the even column plus the odd one. -/
def pairCols : List Int → List Int
  | a :: b :: t => (16 * a + b) :: pairCols t
  | _ => []

def Layer.join (ly : Layer) (cols : List Int) : List Int := if ly.w8 then pairCols cols else cols

/-- The column values of one nibble, per output column, in 1/64 code; a nibble all of whose strokes were skipped is 0. -/
def NibAcc.values (ly : Layer) (x : NibAcc) : List Int := ly.join ((x.sums ++ List.replicate 512 0).take 512)

/-- V in 1/64 code per output column (R31). -/
def Job.recombine (ly : Layer) (j : Job) : List Int :=
  if j.eight then List.zipWith (fun h l => 16 * h + l) (j.hi.values ly) (j.lo.values ly) else j.lo.values ly

/-- The patch term of an output column over the vector (R105). -/
def Job.patchTerm (j : Job) (col : Nat) : Rat :=
  let sum (x : NibAcc) : Rat := sumQ ((x.terms.filter (fun e => e.1 == col)).map (·.2))
  if j.eight then 16 * sum j.hi + sum j.lo else sum j.lo

/-- Beta of R61 for an integer layer. -/
def Layer.betaInt (ly : Layer) : Int := if ly.w8 then 17 else 1

/-- A_j of an integer layer as a word (R62, R64, R67): ACC is 48 bits, in 1/128 unit, sign-extended. -/
def intWord (ly : Layer) (v sumx : Int) (e : List Byte) (pi : Int) : Nat :=
  let corr : Int := -((ly.betaInt + ly.zw) * sumx) - ly.zx * signedOf 32 (seColsum e) + signedOf 32 (seConst e) + pi
  toTwos 64 (signedOf 48 (toTwos 48 (v * 125 + 128 * corr)))

def half : F32 := 0x3F000000
def Layer.alpha (ly : Layer) : F32 := f32Mul ly.ladderA half
def Layer.betaCb (ly : Layer) : F32 := f32Mul ly.ladderB half
def Layer.alphaInv (ly : Layer) : F32 := f32Div (f32Int 1) ly.alpha

/-- A_j of a CB4 layer (R65), one operation at a time. -/
def cbWord (ly : Layer) (v sumx : Int) (e : List Byte) (pi : Rat) : F32 :=
  let t1 := f32Rat ((v * 125 : Int) / 128)
  let t2 := f32Sub t1 (f32Mul ly.betaCb (f32Int sumx))
  let t3 := f32Mul t2 ly.alphaInv
  let t4 := f32Sub t3 (f32Mul (f32Int ly.zx) (BitVec.ofNat 32 (seColsum e)))
  f32Add (f32Add t4 (BitVec.ofNat 32 (seConst e))) (f32Rat pi)

/-- The words of one vector's partial on one array: those of the slice's output columns. -/
def partWords (ly : Layer) (n : Nat) (sums : List Byte) (j : Job) (codes : List Nat) : List Nat :=
  let sumx : Int := (sumNat codes : Nat)
  ((j.recombine ly).take n).zipIdx.map (fun (v, c) =>
    let e := slice sums (12 * c) 12
    if ly.cb4 then (cbWord ly v sumx e (j.patchTerm c)).toNat else intWord ly v sumx e (roundEven (j.patchTerm c)))

/-! ## The stroke check (R224 to R226) -/

/-- rho of a row (R224), in units. -/
def Layer.rho (ly : Layer) (rsum : Nat) : Rat :=
  if ly.w8 then ((4352 + rsum : Nat) : Rat) else if ly.cb4 then 512 + ((rsum : Nat) : Rat) / 8 else ((512 + rsum : Nat) : Rat)

/-- The measured sum M (R225) from the corrected codes (1/64 code) and the sum of the stroke's patch terms; for CB4 each of
the two parts and their sum are rounded to FP32 (log entry 46). -/
def measured (ly : Layer) (cols : List Int) (patch : Rat) : Rat :=
  let base : Rat := ((sumInt (ly.join cols) * 125 : Int) : Rat) / 128
  if ly.cb4 then f32Q (f32Add (f32Rat base) (f32Rat (patch * f32Q ly.alpha))) else base + patch

/-- The predicted sum P (R225). -/
def predicted (ly : Layer) (codes : List Nat) (rsums : List Nat) : Rat :=
  let p := sumQ (List.zipWith (fun x r => ((x : Nat) : Rat) * ly.rho r) codes rsums)
  if ly.cb4 then f32Q (f32Rat p) else p

/-- W_chk (R226), in FP32. -/
def checkWindow (ly : Layer) (kc : BitVec 4) (sigma : F32) (p : Rat) (sumx : Nat) : F32 :=
  let su := f32Mul (f32Int 640) sigma
  let neff : F32 := if ly.w8 then f32Int 65792 else f32Int 512
  let a := f32Mul neff (f32Mul su su)
  let gp := f32Mul (f32Rat (2 / 10000)) (f32Rat p)
  let w := f32Mul (f32Int kc.toNat) (f32Sqrt (f32Add a (f32Mul gp gp)))
  f32Add w (if ly.cb4 then f32Rat (((sumx : Nat) : Rat) / 16) else 0)

/-! ## Conversion (R68, R69, R112, R278) -/

/-- The sum of a column as FP32 (R68). -/
def wordF32 (ly : Layer) (w : Nat) : F32 :=
  if ly.cb4 then BitVec.ofNat 32 w else f32Rat ((signedOf 64 w : Rat) / 128)

/-- y of a column, with the adapter's correction where there is one. -/
def outValue (ly : Layer) (w : Nat) (sj : F16) (delta : Option F32) : F32 :=
  let y := f32Mul (f32Mul (wordF32 ly w) (f32OfF16 sj)) (f32Rat (pow2 ly.ex))
  match delta with
  | some d => f32Add y d
  | none => y

/-- One more element converted (R112); at COUNT 0xFFFF_FFFF all fields stop. -/
def Slot.add (x : Slot) (e : F32) (clamped : Bool) : Slot :=
  if x.count = 0xFFFFFFFF then x
  else
    { sumsq := f32Add x.sumsq e, count := x.count + 1, clamp := if clamped then x.clamp + 1 else x.clamp,
      maxsq := f32Max x.maxsq e }

/-- The stored codes of outputs, each with its clamp mark. -/
def outCodes (ly : Layer) (ys : List F32) : List (Nat × Bool) := ys.map (quantise ly.yfmt ly.ey ly.zy)

/-- The bytes of a slice's outputs (R69). -/
def outBlock (ly : Layer) (codes : List Nat) : List Byte :=
  if fmtBlocked ly.yfmt then
    packBlocks ly.yfmt ly.eyByte (if ly.yfmt = 4 then 0 else ly.zyByte) (ceilDiv codes.length 32) codes
  else packElems ly.yfmt codes

/-- The offset of a slice's outputs within a vector. -/
def Layer.sliceOfs (ly : Layer) (sl : Nat) : Nat := sl * tensorBytes ly.yfmt ly.cols

/-- Count conversions, each with its squared error and clamp mark, in a statistics slot of context `c` (R112). -/
def State.countErrs (s : State) (c slot : Nat) (es : List (F32 × Bool)) : State :=
  s.modCtx c (fun x => { x with
    slots := x.slots.set Slot.dflt slot (es.foldl (fun t e => t.add e.1 e.2) (x.slots.get Slot.dflt slot)) })

/-- The squared error and clamp mark of every conversion of a block of format `c` with exponent `e` and zero point `z` (R112). -/
def convErrs (c : Nat) (e z : Int) (ys : List F32) (codes : List (Nat × Bool)) : List (F32 × Bool) :=
  (ys.zip codes).map (fun x => (convErrSq c e z x.1 x.2.1, x.2.2))

/-- Count a slice's conversions in the layer's statistics slot of context `c`. -/
def State.countConv (s : State) (c : Nat) (ly : Layer) (ys : List F32) (codes : List (Nat × Bool)) : State :=
  s.countErrs c ly.statSlot (convErrs ly.yfmt ly.ey ly.zy ys codes)

/-! ## Outputs to their destination -/

/-- Change the progress of a RUN. -/
def State.updRun (s : State) (r : CmdRef) (f : RunWork → RunWork) : State :=
  s.updCmd r (fun c => match c.work with | .run w => { c with work := .run (f w) } | _ => c)

/-- STEP numbers of a RUN's messages (log entry 71): 0 is the CMD or STATUS message; then inputs, partials, outputs. -/
def State.partStep (s : State) (c : Cmd) (w : RunWork) : Nat :=
  1 + (if s.member && s.addrDev c.pkt.dataAddr == s.self then w.n else 0)
def State.outStep (s : State) (c : Cmd) (w : RunWork) (g : Generation) : Nat :=
  s.partStep c w + (if sendsParts g w.idx then w.n else 0)

/-- The claim tag of a replica's claim (R133). -/
def claimTag (rep k : Nat) : Nat := rep * 2 ^ 28 + k

/-- The claim tag that results of a vector carry; 0 where the layer is not replicated. -/
def RunWork.tagOf (w : RunWork) (rep vec : Nat) : Nat := if w.layer.nrep ≤ 1 then 0 else claimTag rep (vec / (w.g * w.b2))

/-- A message of a RUN (R255), with the claim tag of its results (R133). -/
def State.runMsg (s : State) (c : Cmd) (kind dst step claim : Nat) (payload : List Byte) : State :=
  s.send { mkMsg kind c.pkt.ctxcls c.pkt.tag.toNat c.pkt.epoch.toNat c.gen dst s.self step 0 0 s.self payload with
    claim := BitVec.ofNat 32 claim }

/-- Where in working space of this device a command's output goes, if it does. -/
def State.outHbm (s : State) (c : Cmd) : Option Nat :=
  match s.localAddr c.pkt.resultAddr with
  | some (.work a) => if s.addrDev c.pkt.resultAddr = s.self then some a else none
  | _ => none

/-- Write a slice's outputs of one vector where RESULT_ADDR says: in place, or with the vector's other slices as one DATA
message to the device that the address names (R271). While a tile's block headers are still to be compared, the outputs wait, so
that a command that ends with BAD_PARAM has written none (R66; log entry 110); and so while a write to working space waits for its
tokens (R304). The write of an output tile signals the command's progress counter (R138). -/
def State.writeOut (s : State) (c : Cmd) (b : OutBlock) : State :=
  match c.work with
  | .run w =>
    if !w.unchecked.isEmpty then s.updRun c.ref (fun w => { w with outWait := w.outWait ++ [b] })
    else if (s.outHbm c).isSome && !s.hbmOpen (c.pkt.cls == 2) then
      (s.hbmWait (c.pkt.cls == 2)).updRun c.ref (fun w => { w with outWait := w.outWait ++ [b] })
    else if s.addrDev c.pkt.resultAddr = s.self then
      match s.localAddr c.pkt.resultAddr with
      | some (.host a) =>
        (((s.writeHost (a + b.vec * w.layer.outBytes + b.off) b.bytes).updCmd c.ref (fun c => { c with
          written := c.written + b.bytes.length })).updRun c.ref (fun w => { w with due := w.due - 1 })).bump w.counter
      | some (.work a) =>
        ((((s.chargeHbm (c.pkt.cls == 2) b.bytes.length).writeWork (ctxOf c.ref.q c.pkt) (a + b.vec * w.layer.outBytes + b.off) b.bytes).updCmd c.ref (fun c => { c with
          written := c.written + b.bytes.length })).updRun c.ref (fun w => { w with due := w.due - 1 })).bump w.counter
      | _ => s
    else
      match s.runGen c with
      | none => s
      | some g =>
        let sls := combSlices g w.idx w.layer
        let mine := b :: w.held.filter (fun o => o.vec == b.vec)
        let s := s.updRun c.ref (fun w => { w with held := b :: w.held, due := w.due - 1 })
        if sls.all (fun t => mine.any (fun o => o.slice == t)) then
          let pay := sls.flatMap (fun t => ((mine.find? (fun o => o.slice == t)).map (·.bytes)).getD [])
          ((s.runMsg c 3 (s.addrDev c.pkt.resultAddr) (s.outStep c w g + b.vec) (w.tagOf b.rep b.vec) pay).updCmd c.ref (fun c => { c with
            written := c.written + pay.length })).updRun c.ref (fun w => { w with held := w.held.filter (fun o => o.vec != b.vec) })
        else s
  | _ => s

/-- The outputs of a command that waited go to their destination, in their order, as far as they need wait no longer. -/
def State.flushOut (s : State) (r : CmdRef) : State :=
  match s.cmd? r with
  | none => s
  | some c =>
    match c.work with
    | .run w =>
      if w.unchecked.isEmpty then
        (s.updRun r (fun w => { w with outWait := [] })).each w.outWait (fun s b =>
          match s.cmd? r with
          | some d => s.writeOut d b
          | none => s)
      else s
    | _ => s

/-- The headers of a tile are as they should be: with the last one, the outputs that waited go to their destination. -/
def State.headersPassed (s : State) (r : CmdRef) (t : TileId) : State :=
  (s.updRun r (fun w => { w with unchecked := w.unchecked.filter (· ≠ (t.first, t.split)) })).flushOut r

/-- Cut a bow output into its blocks of 32 elements. -/
def cutOut (ly : Layer) (b : OutBlock) : List OutBlock :=
  let n := if fmtBlocked ly.yfmt then blockBytes ly.yfmt else 64
  (List.range (ceilDiv b.bytes.length n)).map (fun i => { b with off := b.off + i * n, bytes := slice b.bytes (i * n) n })

/-- A converted slice leaves output assembly: for RUN_BOW to the front end, of a replicated layer held until its claim is
accepted, else to the destination. -/
def State.putOut (s : State) (c : Cmd) (second : Bool) (b : OutBlock) : State :=
  match c.work with
  | .run w =>
    if w.layer.isBow then
      s.updRun c.ref (fun w =>
        if second then { w with fly1 := w.fly1 ++ cutOut w.layer b } else { w with fly0 := w.fly0 ++ cutOut w.layer b })
    else if 1 < w.layer.nrep then s.updRun c.ref (fun w => { w with held := w.held ++ [b] })
    else s.writeOut c b
  | _ => s

/-- A sample's y_j stay with the training step (R284). -/
def RunWork.keepYs (p : Part) (ys : List F32) (w : RunWork) : RunWork :=
  { w with trim := w.trim.map (fun t => { t with ys := t.ys ++ [(p.vec, p.slice, ys)] }), due := w.due - 1 }

/-- The signal that output assembly gives after a slice of a training step (R138): its descriptors wait for the samples. -/
def State.signalTrim (s : State) (c : Cmd) (w : RunWork) : State :=
  match s.runGen c with
  | some g => s.bump (some (s.counterOf c (combDie g w.idx)))
  | none => s

/-- Convert a combined slice and send it on (R68, R112); each twin of a bow layer counts its own conversions (log entry 47). -/
def State.convert (s : State) (c : Cmd) (w : RunWork) (y : Assign) (p : Part) : State :=
  let k := s.crew y.crew
  let ds := (w.deltas.find? (fun e => e.1 == p.vec)).map (·.2)
  let base := w.layer.cols * p.slice
  let ys := p.words.zipIdx.map (fun (v, j) =>
    outValue w.layer v (seScale (k.sumsEntry y.sumsPage j)) (ds.map (fun d => d.getD (base + j) 0)))
  if w.trim.isSome then (s.updRun c.ref (RunWork.keepYs p ys)).signalTrim c w
  else
  let codes := outCodes w.layer ys
  (s.countConv (ctxOf c.ref.q c.pkt) w.layer ys codes).putOut c p.second
    { vec := p.vec, slice := p.slice, rep := p.rep, off := w.layer.sliceOfs p.slice, bytes := outBlock w.layer (codes.map (·.1)) }

/-- A combined slice is converted, or held until its adapter correction is there (R279). -/
def State.combOut (s : State) (c : Cmd) (w : RunWork) (y : Assign) (p : Part) : State :=
  if w.adapter && !w.deltas.any (fun d => d.1 == p.vec) then s.updRun c.ref (fun w => { w with convWait := w.convWait ++ [p] })
  else s.convert c w y p

/-! ## The combiner (R67, R129, R130) -/

/-- An accumulation entry belongs to a partial. -/
def CombEntry.is (e : CombEntry) (p : Part) : Bool :=
  decide (e.ref = p.ref) && e.second == p.second && e.vec == p.vec && e.slice == p.slice && e.rep == p.rep

def CombVec.is (e : CombVec) (p : Part) : Bool := decide (e.ref = p.ref) && e.second == p.second && e.vec == p.vec && e.rep == p.rep

/-- Words occupied, and promised to vectors whose first stroke has started (R130; log entry 48). -/
def Crew.combUsed (x : Crew) : Nat := sumNat (x.combVecs.map (·.words))

/-- The slices of a layer that a crew combines for one replica and twin, and the words that a vector takes there. -/
def combHere (g : Generation) (idx : Nat) (ly : Layer) (crew rep : Nat) (second : Bool) : List Nat :=
  (List.range ly.slices).filter (fun t => (combAssign g idx t rep second).any (fun y => y.crew == crew))
def combWords (ly : Layer) (ts : List Nat) : Nat := sumNat (ts.map ly.sliceCols)

/-- Promise a vector its words, where it has none yet. -/
def Crew.combPromise (p : Part) (words slices : Nat) (x : Crew) : Crew :=
  if x.combVecs.any (fun (e : CombVec) => e.is p) then x
  else { x with combVecs := x.combVecs ++ [⟨p.ref, p.second, p.vec, p.rep, words, slices, false⟩] }

/-- The first partial of a vector: from now on it occupies its words, a sum for the slice among them. -/
def Crew.combTake (p : Part) (cols words slices : Nat) (x : Crew) : Crew :=
  let x := x.combPromise p words slices
  let x := { x with combVecs := x.combVecs.map (fun (e : CombVec) => if e.is p then { e with arrived := true } else e) }
  if x.comb.any (fun e => e.is p) then x
  else { x with comb := x.comb ++ [⟨p.ref, p.second, p.vec, p.slice, p.rep, 0, List.replicate cols 0, [], []⟩] }

/-- The last partial of a slice has been added: with the vector's last slice its words are free. -/
def Crew.combLeave (p : Part) (x : Crew) : Crew :=
  { x with
    comb := x.comb.filter (fun f => !f.is p)
    combVecs := (x.combVecs.map (fun e => if e.is p then { e with left := e.left - 1 } else e)).filter (fun e => e.left != 0) }

/-- Add a word of a partial (R67). -/
def addWord (cb4 first : Bool) (a b : Nat) : Nat :=
  if first then b
  else if cb4 then (f32Add (BitVec.ofNat 32 a) (BitVec.ofNat 32 b)).toNat
  else toTwos 64 (signedOf 64 a + signedOf 64 b)

/-- The next split that no sum added so far stands for. -/
def nextSplit (ahead : List Nat) : Nat → Nat → Nat
  | 0, i => i
  | n + 1, i => if ahead.contains i then nextSplit ahead n (i + 1) else i

/-- Add the partials that are there in ascending split index; a crew's sum stands at its lowest split. -/
def CombEntry.drain (cb4 : Bool) : Nat → CombEntry → CombEntry
  | 0, e => e
  | n + 1, e =>
    match e.held.find? (fun p => p.split == e.next) with
    | none => e
    | some p => CombEntry.drain cb4 n { e with
        next := nextSplit (e.ahead ++ p.more) (e.ahead ++ p.more).length (e.next + 1)
        ahead := e.ahead ++ p.more
        sums := List.zipWith (addWord cb4 (e.next == 0)) e.sums p.words
        held := e.held.filter (fun q => q.split != e.next) }

/-- A slice whose last partial has been added leaves the accumulation memory (R130). -/
def State.combDone (s : State) (c : Cmd) (w : RunWork) (y : Assign) (e : CombEntry) : State :=
  if e.next < w.layer.splits then s
  else
    let p : Part := ⟨e.ref, e.second, e.vec, 0, e.slice, e.rep, e.sums, y.crew, []⟩
    (s.modCrew y.crew (Crew.combLeave p)).combOut c w y p

/-- A partial enters its combiner; the only one of a layer with one split bypasses it (R130). -/
def State.combine (s : State) (p : Part) : State :=
  match s.cmd? p.ref with
  | none => s
  | some c =>
    match c.work, s.runGen c with
    | .run w, some g =>
      match combAssign g w.idx p.slice p.rep p.second with
      | none => s
      | some y =>
        if w.layer.splits = 1 then s.combOut c w y p
        else
          let ts := combHere g w.idx w.layer y.crew p.rep p.second
          let s := s.modCrew y.crew (Crew.combTake p (w.layer.sliceCols p.slice) (combWords w.layer ts) ts.length)
          let s := s.modCrew y.crew (fun x => { x with comb := x.comb.map (fun e =>
            if e.is p then CombEntry.drain w.layer.cb4 w.layer.splits { e with held := e.held ++ [p] } else e) })
          match (s.crew y.crew).comb.find? (fun e => e.is p) with
          | some e => s.combDone c w y e
          | none => s
    | _, _ => s

/-! ## Partials on their way (R129) -/

/-- The splits of a slice that a crew holds, for one replica and twin, ascending. -/
def crewSplits (g : Generation) (idx : Nat) (ly : Layer) (crew : Nat) (p : Part) : List Nat :=
  (List.range ly.splits).filter (fun sp => g.assigns.any (fun y => y.layer == idx && !y.standby && y.second == p.second
    && y.crew == crew && plSplit (g.man.place y.entry) == sp && plSlice (g.man.place y.entry) == p.slice
    && plReplica (g.man.place y.entry) == p.rep))

/-- Two partials of one slice of a vector, made by one crew. -/
def Part.siblings (p q : Part) : Bool :=
  q.second == p.second && q.vec == p.vec && q.slice == p.slice && q.rep == p.rep && q.crew == p.crew

/-- The exact sum of integer partials, column by column. -/
def sumWords (cols : Nat) (ps : List Part) : List Nat :=
  (List.range cols).map (fun j => toTwos 64 (sumInt (ps.map (fun p => signedOf 64 (p.words.getD j 0)))))

/-- A checked partial leaves the crew that made it for the combiner of crew `dst`: at once on the combining crew itself and for CB4,
else within the exact sum of the partials of the crew's own splits, as one word a column (R129). -/
def State.crewPart (s : State) (c : Cmd) (w : RunWork) (g : Generation) (dst : Nat) (p : Part) : State :=
  let sps := crewSplits g w.idx w.layer p.crew p
  if p.crew = dst || w.layer.cb4 || sps.length ≤ 1 then { s with parts := s.parts ++ [{ p with crew := dst }] }
  else
    let mine := p :: w.crewParts.filter p.siblings
    if mine.length < sps.length then s.updRun c.ref (fun w => { w with crewParts := w.crewParts ++ [p] })
    else
      let q := { p with
        crew := dst, split := sps.headD 0, more := sps.drop 1, words := sumWords (w.layer.sliceCols p.slice) mine }
      { s.updRun c.ref (fun w => { w with crewParts := w.crewParts.filter (fun r => !p.siblings r) }) with
        parts := s.parts ++ [q] }

/-- The words of a slice's partials that go to another device, for each of them every column's: of integer weights one for each crew,
the exact sum of its own splits; of CB4 one for each split (R129). -/
def partUnits (ly : Layer) (t : Nat) (ps : List Part) : List (List Nat) :=
  if ly.cb4 then ps.map (·.words)
  else (ps.map (·.crew)).eraseDups.map (fun k => sumWords (ly.sliceCols t) (ps.filter (fun p => p.crew == k)))

/-- The partial words of a vector's slices for another device: one PART message (R271), slice by slice, column by column. -/
def partPayload (ly : Layer) (sls : List Nat) (ps : List Part) : List Byte :=
  sls.flatMap (fun t =>
    let us := partUnits ly t (ps.filter (fun p => p.slice == t))
    (List.range (ly.sliceCols t)).flatMap (fun j => us.flatMap (fun u => leBytes 8 (u.getD j 0))))

/-- The members that combine slices of a layer (R271). -/
def State.combinersOf (s : State) (gen idx : Nat) : List Nat := s.others.filter (fun d => Config.memberSlices gen idx d ≠ [])

/-- The order of partials in a message: slice, then split. -/
def partBefore (a b : Part) : Bool := decide (a.slice < b.slice) || (a.slice == b.slice && decide (a.split ≤ b.split))
def partInsert (x : Part) : List Part → List Part
  | [] => [x]
  | y :: t => if partBefore x y then x :: y :: t else y :: partInsert x t

/-- Partials of the layer that this device makes for one vector of a replica and does not combine itself. -/
def remoteParts (g : Generation) (idx rep : Nat) : Nat :=
  (g.assigns.filter (fun y => y.layer == idx && !y.standby && plReplica (g.man.place y.entry) == rep
    && (combAssign g idx (plSlice (g.man.place y.entry)) (plReplica (g.man.place y.entry)) y.second).isNone)).length

/-- Keep a partial for another device; with the last one of its vector the words go to each member that combines its slices. -/
def State.remotePart (s : State) (c : Cmd) (w : RunWork) (g : Generation) (p : Part) : State :=
  let mine := partInsert p (w.outParts.filter (fun q => q.vec == p.vec))
  if mine.length < remoteParts g w.idx p.rep then s.updRun c.ref (fun w => { w with outParts := partInsert p w.outParts })
  else
    let tos (d : Nat) : List Nat := (Config.memberSlices c.gen w.idx d).filter (fun t => mine.any (fun q => q.slice == t))
    (s.each ((s.combinersOf c.gen w.idx).filter (fun d => tos d ≠ [])) (fun s d =>
      s.runMsg c 4 d (s.partStep c w + p.vec) (w.tagOf p.rep p.vec) (partPayload w.layer (tos d) mine))).updRun c.ref
      (fun w => { w with outParts := w.outParts.filter (fun q => q.vec != p.vec), due := w.due - 1 })

/-- A checked partial leaves its array: a layer with one split bypasses the combiner (R130). -/
def State.putPart (s : State) (c : Cmd) (w : RunWork) (p : Part) : State :=
  match s.runGen c with
  | none => s
  | some g =>
    match combAssign g w.idx p.slice p.rep p.second with
    | none => s.remotePart c w g p
    | some y => if w.layer.splits = 1 then s.combine { p with crew := y.crew } else s.crewPart c w g y.crew p

/-- PARTIAL_ARRIVAL (R129, R223): a checked partial reaches its combiner. -/
def execPartialArrival (r : CmdRef) (second : Bool) (vec split sl : Nat) (err : Option ParityErr) (s : State) :
    Host.Outcome State Fault Refusal :=
  match s.parts.find? (fun p => decide (p.ref = r) && p.second == second && p.vec == vec && p.split == split && p.slice == sl) with
  | none => .next s
  | some p =>
    let s := { s with parts := s.parts.erase p }
    match err with
    | some e => .next ((s.parityError r e).settle)
    | none => .next (s.combine p)

end Sys2Proof.Machine
end

