-- ==== Sys2Proof/Machine/Strokes.lean ====
section
/-! DEFINITION. Strokes (02): the stroke sequencer (R28 to R39, R219), the ADC scan and the codes (R21, R29, R78), tracking
reads (R86, R88, R111), saturation (R107 to R109), the outcome of a stroke (R36, R37, R225 to R232), replays, keep-warm
strokes (R91) and test strokes (R46). -/
namespace Sys2Proof.Machine

/-! ## Codes and conductances -/

/-- The row codes of a request: the nibble of each row of the row group (R31, R34), 0 on the other rows. -/
def Req.codes (q : Req) (eight : Bool) (xs : List Nat) : List Nat :=
  xs.zipIdx.map (fun (x, i) =>
    if i % q.fold ≠ q.grp then 0 else if eight then (if q.high then x / 16 else x % 16) else x % 16)

/-- The requests of one nibble at a fold, in the order of their groups. -/
def nibReqs (high : Bool) (fold : Nat) (isFold : Bool) : List Req :=
  (List.range fold).map (fun g => ⟨high, g, fold, isFold, false⟩)

/-- The conductance of a cell in units of 2.0 microsiemens (R20). An unprogrammed data cell holds a free value (log entry 10),
an unprogrammed lantern cell its live conductance. -/
def State.cell (s : State) (a : Nat) (plane : Bool) (row col : Nat) : Rat :=
  let x := s.arr a
  let v := (x.plane plane).cells.get zeroNat (row * 520 + col)
  if v ≠ 0 then ((v - 1 : Nat) : Rat) / 128
  else if col < 512 then ((Config.freeCell a (if plane then 1 else 0) (row * 520 + col) s.free : Nat) : Rat) / 128
  else f16Q (x.lan.get zero16 (8 * (if plane then 1 else 0) + (col - 512))) / 2

/-- The charge of a column in units (R20): the row codes weighted by its cells. -/
def State.charge (s : State) (a : Nat) (plane : Bool) (codes : List Nat) (col : Nat) : Rat :=
  sumQ ((codes.zipIdx.filter (fun e => e.1 ≠ 0)).map (fun e => ((e.1 : Nat) : Rat) * s.cell a plane e.2 col))

/-- The ideal transfer of an ADC (R21): 62.5 units a code. -/
def idealTransfer (u : Rat) : Int := min 1023 (roundEven (u * 2 / 125))

/-- The ideal code of a column (R21). -/
def State.idealCode (s : State) (a : Nat) (plane : Bool) (codes : List Nat) (col : Nat) : Int :=
  idealTransfer (s.charge a plane codes col)

/-- A raw code: the ideal one with the deviation that the physical converter shows. -/
def rawCode (ideal dev : Int) : Nat := (clampInt 0 1023 (ideal + dev)).toNat

/-- The corrected code of a column in 1/64 code (R78). -/
def Arr.correct (x : Arr) (col raw : Nat) (kap : Rat) : Int :=
  let f := x.fTrim.get trimDflt col
  let t := x.tTrim.get trimDflt col
  roundEven (64 * ((raw : Nat) - trimOffset f.1 - trimOffset t.1) * trimRatio f.2 * trimRatio t.2 / kap)

/-- The array as a stroke in flight sees it: with the coefficients of its slot. -/
def Arr.atSlot (sh : Shot) (x : Arr) : Arr :=
  match sh.old with
  | none => x
  | some (f, t) => { x with fTrim := f, tTrim := t }

/-! ## Tracking (R86, R88, R111) -/

/-- A lantern code of a stroke: the live conductance gives the expected code E; valid codes enter the window and the
conversion statistics. -/
def Arr.lanternCode (plane : Bool) (sumx : Nat) (kap : Rat) (x : Arr) (e : Nat × Nat) : Arr :=
  let (raw, k) := e
  let ex := f16Q (x.lan.get zero16 (8 * (if plane then 1 else 0) + k)) / 2 * ((sumx : Nat) : Rat) * 2 / 125
  if raw = 1023 ∨ ex < 16 then x
  else
    let d1 : Rat := (x.correct (512 + k) raw 1 : Rat) / 64
    let d := (x.correct (512 + k) raw kap : Rat) / 64 - ex
    let w := x.win
    let full : Bool := x.lmseCount == 0xFFFFFFFF
    { x with
      win := { w with valid := w.valid + 1, sumDE := w.sumDE + d1 * ex, sumEE := w.sumEE + ex * ex }
      lmseSum := if full then x.lmseSum else f32Rat (f32Q x.lmseSum + d * d)
      lmseCount := if full then x.lmseCount else x.lmseCount + 1 }

/-- One tracking read of a data column: its data-path and lantern-path values; the 64th closes the set. -/
def Arr.trackRead (x : Arr) (e : Nat × Nat × Nat) : Arr :=
  let (col, raw, raw') := e
  let path (f : BitVec 16 × BitVec 16) (r : Nat) : Rat := ((r : Nat) - trimOffset f.1) * trimRatio f.2
  let d := path (x.fTrim.get trimDflt col) raw
  let l := path (x.fTrim.get trimDflt 512) raw'
  let c := x.cols.get colDflt col
  let n : ColSet :=
    { c with
      n := c.n + 1, sd := c.sd + d, sl := c.sl + l, sdd := c.sdd + d * d, sdl := c.sdl + d * l,
      lmin := if c.n = 0 then l else minQ c.lmin l, lmax := if c.n = 0 then l else maxQ c.lmax l,
      bad := c.bad || raw == 1023 || raw' == 1023 }
  if n.n < 64 then { x with cols := x.cols.set colDflt col n }
  else
    { x with
      cols := x.cols.set colDflt col { ColSet.reset with fitted := c.fitted }
      fits := x.fits ++ [(col, n)] }

/-- A row-group slot ends its window's count; the 256th closes the window (R86, R87). The die temperature of the window is the mean
of one sample a slot, taken when its scan ends (log entry 100). -/
def Arr.windowStroke (t : Int) (x : Arr) : Arr :=
  let w := { x.win with strokes := x.win.strokes + 1, tSum := x.win.tSum + t, tCnt := x.win.tCnt + 1 }
  if w.strokes < 256 then { x with win := w } else { x with win := Window.reset, wins := x.wins ++ [w] }

/-- What a stroke's scan gives to tracking. -/
def Arr.track (t : Int) (sh : Shot) (raw lan trk : List Nat) (x : Arr) : Arr :=
  let y := lan.zipIdx.foldl (Arr.lanternCode sh.plane (sumNat sh.codes) sh.kap) (x.atSlot sh)
  let y := ((trk.zipIdx.map (fun (r, i) => ((x.ptr + i) % 512, raw.getD ((x.ptr + i) % 512) 0, r))).foldl Arr.trackRead y)
  ({ y with fTrim := x.fTrim, tTrim := x.tTrim, ptr := (x.ptr + 56) % 512 } : Arr).windowStroke t

/-! ## Saturation (R107 to R109) -/

/-- Count a stroke in the saturation counters; `n` saturated data columns. -/
def Arr.countSat (n : Nat) (x : Arr) : Arr :=
  { x with
    satStrokes := if n = 0 then x.satStrokes else word (satAdd 32 x.satStrokes.toNat 1)
    satCols := word (satAdd 32 x.satCols.toNat n)
    satHist := ((n ≠ 0 : Bool) :: x.satHist).take 4096 }

/-- Set SATCAL of a context's queue, and raise its event vector where the bit was 0 (R204). -/
def State.satcalEvent (s : State) (c : Nat) : State :=
  if h : c < 16 then
    let q := QueueId.ctx ⟨c, h⟩
    if (s.queue q).evt1 then s else (s.modQueue q (fun x => { x with evt1 := true })).raiseCtx c 2
  else s

/-- The saturation count of an array, with its SATCAL event (R109); a THR written below the present count counts as exceeded at the
next counted stroke (log entry 107). -/
def State.saturation (s : State) (a n : Nat) : State :=
  let s := s.modArr a (Arr.countSat n)
  let x := s.arr a
  let w := x.satWin
  let thr := x.satThr.toNat
  if w ≤ thr / 2 then s.modArr a (fun x => { x with satArmed := true })
  else if thr < w && x.satArmed && thr ≠ 0 then
    let c := bndCtx (s.groundBinding a)
    ((s.modArr a (fun x => { x with satCal := true, satArmed := false })).emit 0x12
      { ctx := some c, loc := s.arrLoc a [], data := leBytes 2 w }).satcalEvent c
  else s

/-! ## Jobs -/

def Job.is (j : Job) (r : CmdRef) (vec split : Nat) : Bool := decide (j.ref = r) && j.vec == vec && j.split == split
def Job.acc (j : Job) (high : Bool) : NibAcc := if high then j.hi else j.lo
def Job.setAcc (j : Job) (high : Bool) (x : NibAcc) : Job := if high then { j with hi := x } else { j with lo := x }
/-- Every stroke of the job has been made and settled. -/
def Job.complete (j : Job) : Bool := j.todo.isEmpty && j.lo.left == 0 && (!j.eight || j.hi.left == 0)
/-- One row group is settled: its corrected codes and patch terms; none where it was skipped (R33). -/
def Job.accept (j : Job) (q : Req) (cols : List Int) (terms : List (Nat × Rat)) : Job :=
  let x := j.acc q.high
  j.setAcc q.high { x with left := x.left - 1, sums := addLists x.sums cols, terms := x.terms ++ terms }

def State.job? (s : State) (home : Nat) (r : CmdRef) (vec split : Nat) : Option Job :=
  (s.arr home).jobs.find? (fun j => j.is r vec split)
def State.setJob (s : State) (home : Nat) (j : Job) : State :=
  s.modArr home (fun x => { x with jobs := x.jobs.map (fun k => if k.is j.ref j.vec j.split then j else k) })

def TileVec.is (t : TileVec) (j : Job) : Bool :=
  decide (t.ref = j.ref) && t.second == j.second && t.split == j.split && t.vec == j.vec && t.rep == j.rep

/-- The input codes of a job, from the held tile (R119). -/
def State.jobCodes (s : State) (home : Nat) (j : Job) : List Nat :=
  (((s.crew (home / 17)).tiles.find? (fun t => t.is j)).map (·.codes)).getD []

/-- Two vectors' slices of one tile. -/
def TileVec.same (t u : TileVec) : Bool :=
  decide (t.ref = u.ref) && t.second == u.second && t.split == u.split && t.rep == u.rep && t.first == u.first

/-- The array has settled a tile's vector; the tile leaves crew SRAM when every array has settled every vector of it (R119). -/
def Crew.settleTile (j : Job) (slot : Nat) (x : Crew) : Crew :=
  let ts := x.tiles.map (fun t => if t.is j then { t with left := t.left.filter (· ≠ slot) } else t)
  match ts.find? (fun t => t.is j) with
  | none => { x with tiles := ts }
  | some u => { x with tiles := if (ts.filter u.same).all (fun t => t.left.isEmpty) then ts.filter (fun t => !u.same t) else ts }

/-- The assignment of a command's generation on a physical array. -/
def State.assignOf (s : State) (g : Generation) (a : Nat) : Option Assign :=
  g.assigns.find? (fun y => y.crew == a / 17 && y.l == s.logicalArr a)

/-- A finished job: its partial leaves the array (R129). -/
def State.finishJob (s : State) (home : Nat) (j : Job) : State :=
  match s.cmd? j.ref with
  | none => s
  | some c =>
    match c.work, (s.runGen c).bind (fun g => s.assignOf g home) with
    | .run w, some y =>
      let n := w.layer.sliceCols j.slice
      let k := s.crew (home / 17)
      let words := partWords w.layer n (Memory.readBytes k.sram (0x400 * y.sumsPage) (12 * w.layer.cols)) j (s.jobCodes home j)
      let s := s.modArr home (fun x => { x with jobs := x.jobs.filter (fun k => !k.is j.ref j.vec j.split) })
      let s := s.modCrew (home / 17) (Crew.settleTile j (home % 17))
      s.putPart c w ⟨j.ref, j.second, j.vec, j.split, j.slice, j.rep, words, home / 17, []⟩
    | _, _ => s

/-- Store a job's progress, and finish it where that was its last stroke. -/
def State.putJob (s : State) (home : Nat) (j : Job) : State :=
  let s := s.setJob home j
  if j.complete then s.finishJob home j else s

/-! ## The sequencer -/

/-- A job's stamp is the generation of the array's ground plane (R124). -/
def State.jobReady (s : State) (a : Nat) (j : Job) : Bool :=
  let b := s.groundBinding a
  bndValid b && bndGen b == j.gen && decide (some (bndCtx b) = qCtx j.ref.q)

/-- The job that strokes next (R121, R219): engine class before stern class, each in order of arrival. -/
def State.nextJob (s : State) (a : Nat) : Option Job :=
  let js := (s.arr a).jobs.filter (fun j => !j.todo.isEmpty && s.jobReady a j)
  match js.find? (fun j => !j.stern) with
  | some j => some j
  | none => js.head?

/-- The partial that a job will make, without its words. -/
def Job.part (j : Job) : Part := ⟨j.ref, j.second, j.vec, j.split, j.slice, j.rep, [], 0, []⟩

/-- Where a job's outputs are combined, and the words and slices of its vector there; none for a layer with one split and for
columns combined on another device (R130). -/
def State.combOf (s : State) (j : Job) : Option (Nat × Nat × Nat) :=
  match s.cmd? j.ref with
  | none => none
  | some c =>
    match c.work, s.runGen c with
    | .run w, some g =>
      match combAssign g w.idx j.slice j.rep j.second with
      | none => none
      | some y =>
        if w.layer.splits = 1 then none
        else
          let ts := combHere g w.idx w.layer y.crew j.rep j.second
          some (y.crew, combWords w.layer ts, ts.length)
    | _, _ => none

/-- The combiner of a job's outputs can take its vector (R130). -/
def State.combRoom (s : State) (j : Job) : Bool :=
  match s.combOf j with
  | none => true
  | some (crew, words, _) =>
    let x := s.crew crew
    j.started || x.combVecs.any (fun e => e.is j.part) || x.combUsed + words ≤ 4096

/-- Promise a vector its words in the combiner, when its first stroke starts (log entry 48). -/
def State.combReserve (s : State) (j : Job) : State :=
  match s.combOf j with
  | none => s
  | some (crew, words, slices) => s.modCrew crew (Crew.combPromise j.part words slices)

/-- Skip the row groups whose nibbles are all 0 (R33), until a stroke is to be made. -/
def State.skipZero (a : Nat) : Nat → State → State × Option (Job × Req × List Nat)
  | 0, s => (s, none)
  | n + 1, s =>
    match s.nextJob a with
    | none => (s, none)
    | some j =>
      match j.todo with
      | [] => (s, none)
      | q :: rest =>
        let xs := q.codes j.eight (s.jobCodes a j)
        if !s.combRoom j then (s, none)
        else if xs.all (· == 0) then
          State.skipZero a n ((s.combReserve j).putJob a (({ j with todo := rest } : Job).accept q [] []))
        else (s, some (j, q, xs))

/-- Strokes waiting on an array. -/
def Arr.todoCount (x : Arr) : Nat := sumNat (x.jobs.map (fun j => j.todo.length))

/-- Draw the tokens of a stroke slot (R302, R304): the bow reserve for a reserved crew, else the pool. -/
def State.strokeTokens (s : State) (a : Nat) (stern : Bool) : Gov × Bool :=
  if (s.crew (a / 17)).resv.isSome then (s.gov.drawBow 21, true) else s.gov.drawPool stern 21

/-- A slot starts: kappa_eff and the check factor are those of the slot (R86, R228). -/
def State.startShot (s : State) (a home : Nat) (r : CmdRef) (vec split : Nat) (q : Req) (warm : Bool) (codes : List Nat)
    (chk : List F32) : State :=
  let s := s.noteKEff a
  s.modArr a (fun x => { x with
    verify := 0
    shots := x.shots ++ [⟨home, r, vec, split, q, x.ground, warm, codes, s.kEff a, s.cfg.kc, chk, none⟩]
    sinceMaint := x.sinceMaint + 1 })

/-- A slot may start on an array: not the spare, its crew serving, not in row mode, a sample-and-hold buffer free (R30). -/
def State.slotFree (s : State) (a : Nat) : Bool :=
  let k := s.crew (a / 17)
  !s.isSpare a && s.crewUp (a / 17) && decide (s.dev.st = .active) && !(k.sine.en && k.sine.slot.toNat == a % 17)
  && (s.arr a).shots.length < 2

/-- The array that makes the replays of an array's strokes: on a reserved crew the standby array of the entry (R207). -/
def State.replayArr (s : State) (home : Nat) : Nat :=
  if (s.crew (home / 17)).resv.isNone then home
  else
    match s.placeOf home (s.arr home).ground with
    | none => home
    | some (_, g, y, _) =>
      match g.assigns.find? (fun z => z.entry == y.entry && z.crew == y.crew && z.l != y.l) with
      | some z => s.physArr z.crew z.l
      | none => home

/-- The patch list of an array's ground plane. -/
def State.patchList (s : State) (a : Nat) : List (List Byte) := (s.crew (a / 17)).patches (s.logicalArr a) (s.arr a).ground

/-- The stroke of request `q` of job `j` starts, where its tokens are granted (R304); the first stroke of a job fixes its patch
lists, its array's and that of the array that would replay it (R106). -/
def State.strokeNow (s : State) (a : Nat) (j : Job) (q : Req) (xs : List Nat) : State :=
  let g := s.strokeTokens a j.stern
  let s := { s with gov := g.1 }
  if g.2 then
    let j := { j with
      todo := j.todo.drop 1, started := true
      patches := if j.started then j.patches else s.patchList a
      patches2 := if j.started then j.patches2 else s.patchList (s.replayArr a) }
    ((s.combReserve j).setJob a j).startShot a a j.ref j.vec j.split q false xs []
  else s

/-- STROKE: at a slot boundary the next stroke of the array starts. A pending replay (R36) goes before it, and before engine-class
and stern-class strokes the refresh of an array at its drift limit (R99); where the tokens are short it waits (R304). -/
def execStroke (crew : Fin 256) (slot : Fin 17) (s : State) : Host.Outcome State Fault Refusal :=
  let a := arrIdx crew.val slot.val
  let x := s.arr a
  if !s.slotFree a || !x.replays.isEmpty || (x.limitRefresh && (s.crew crew.val).resv.isNone) then .next s
  else
    match State.skipZero a (x.todoCount + 1) s with
    | (s, none) => .next s.settle
    | (s, some (j, q, xs)) => .next (s.settle.strokeNow a j q xs)

/-! ## Replays -/

/-- The first waiting replay takes the slot. On a reserved crew it draws on the bow reserve (R214, R302; log entry 111), elsewhere on
the pool, where it is granted even when the pool is short (R304); a row group of a fold replay whose nibbles are all 0 is skipped. -/
def State.startReplay (s : State) (a : Nat) (p : Replay) : State :=
  let s := s.modArr a (fun x => { x with replays := x.replays.drop 1 })
  match s.job? p.home p.ref p.vec p.split with
  | none => s
  | some j =>
    let xs := p.req.codes j.eight (s.jobCodes p.home j)
    if xs.all (· == 0) then s.putJob p.home (j.accept p.req [] [])
    else
      let gov := if (s.crew (a / 17)).resv.isSome then s.gov.drawBow 21 else s.gov.drawReplay 21
      { s with gov := gov }.startShot a p.home p.ref p.vec p.split p.req false xs p.chk

/-- The plane of the replay's stamp is the ground plane of the array that makes it (R162). -/
def State.replayReady (s : State) (a : Nat) (p : Replay) : Bool :=
  (s.job? p.home p.ref p.vec p.split).all (s.jobReady a)

/-- FOLD_REPLAY (R36, R37): ahead of other pending slots. -/
def execFoldReplay (crew : Fin 256) (slot : Fin 17) (s : State) : Host.Outcome State Fault Refusal :=
  let a := arrIdx crew.val slot.val
  match (s.arr a).replays with
  | p :: _ => .next (if s.slotFree a && !p.req.isCheck && s.replayReady a p then (s.startReplay a p).settle else s)
  | [] => .next s

/-- CHECK_REPLAY (R229, R230): the stroke is replayed once; CRW_CHECK.REPLAYS counts it (R232). -/
def execCheckReplay (crew : Fin 256) (slot : Fin 17) (s : State) : Host.Outcome State Fault Refusal :=
  let a := arrIdx crew.val slot.val
  match (s.arr a).replays with
  | p :: _ =>
    .next (if s.slotFree a && p.req.isCheck && s.replayReady a p then
      (s.modCrew crew.val (fun k => { k with chkReplays := BitVec.ofNat 16 (satAdd 16 k.chkReplays.toNat 1) })).startReplay a p
    else s)
  | [] => .next s

/-! ## The outcome of a stroke -/

/-- M, P and W as data of a signature. -/
def chkData (l : List F32) : List Byte := l.flatMap (fun x => leBytes 4 x.toNat)

/-- The one replay of a twin's vector is spent (R37, R230), whichever of its arrays made it. -/
def RunWork.spend (v : Nat) (second : Bool) (w : RunWork) : RunWork := { w with spent := (v, second) :: w.spent }
def Cmd.spent (c : Cmd) (v : Nat) (second : Bool) : Bool := match c.work with | .run w => w.spent.contains (v, second) | _ => false

/-- A patch entry applied to one of the outputs of a slice (R64). -/
def Cmd.patchedBy (c : Cmd) (sl : Nat) (terms : List (Nat × Rat)) : Bool :=
  match c.work with
  | .run w => terms.any (fun e => e.1 < w.layer.sliceCols sl)
  | _ => false

/-- Ask for a fold replay (R36 rule 1): the whole nibble stroke again at twice the fold; its other codes are discarded. Replays that wait
on one array are made in the order in which they were asked for (log entry 135). -/
def State.askFold (s : State) (sh : Shot) (j : Job) : State :=
  let t := s.replayArr sh.home
  let high := sh.req.high
  let f := 2 * sh.req.fold
  let j := ({ j with todo := j.todo.filter (fun q => q.high != high) } : Job).setAcc high ⟨f, f, [], []⟩
  let s := ((s.setJob sh.home j).updRun sh.ref (RunWork.spend sh.vec j.second)).modArr t (fun x => { x with
    replays := x.replays.filter (fun p => !(p.home == sh.home && decide (p.ref = sh.ref) && p.vec == sh.vec
        && p.split == sh.split && p.req.high == high))
      ++ (nibReqs high f true).map (fun q => ⟨sh.home, sh.ref, sh.vec, sh.split, q, []⟩) })
  s.updCmd sh.ref (fun c => { c with folded := true, replays := c.replays + 1, outcome := worse c.outcome .okReplayed })

/-- Ask for a check replay (R229). -/
def State.askCheck (s : State) (sh : Shot) (j : Job) (chk : List F32) : State :=
  let t := s.replayArr sh.home
  let s := (s.updRun sh.ref (RunWork.spend sh.vec j.second)).modArr t (fun x => { x with
    replays := x.replays ++ [⟨sh.home, sh.ref, sh.vec, sh.split, { sh.req with isCheck := true }, chk⟩] })
  s.updCmd sh.ref (fun c => { c with replays := c.replays + 1 })

/-- A check failed with no replay left (R229, R230, R103). -/
def State.checkFailed (s : State) (a : Nat) (sh : Shot) (chk : List F32) : State :=
  let s := s.modCrew (a / 17) (fun k => { k with chkFails := BitVec.ofNat 16 (satAdd 16 k.chkFails.toNat 1) })
  let s := s.emit 0x03
    { ctx := qCtx sh.ref.q, tag := some sh.ref.tag.toNat, status := some 0x20, loc := s.arrLoc a [], data := chkData chk }
  (s.failCmd sh.ref .checkFail).urgentCensus a

/-- A saturated reference sample is left out of its training step (R284). -/
def RunWork.leaveOut (v : Nat) (w : RunWork) : RunWork := { w with trim := w.trim.map (fun t => { t with left := v :: t.left }) }

/-- A stroke's codes are accepted, with PATCHED where a patch entry applied (R64); a passed check replay makes the command
OK_REPLAYED (R229). -/
def State.acceptStroke (s : State) (a : Nat) (sh : Shot) (j : Job) (cols : List Int) (terms : List (Nat × Rat)) (sat : Bool) :
    State :=
  let s := if sh.req.isCheck && !sat then
      s.emit 0x02 { ctx := qCtx sh.ref.q, tag := some sh.ref.tag.toNat, status := some 0x02, loc := s.arrLoc a [], data := chkData sh.chk }
    else s
  let s := if sat then s.updRun sh.ref (RunWork.leaveOut sh.vec) else s
  let s := s.updCmd sh.ref (fun c => { c with
    sat := c.sat || sat, patched := c.patched || c.patchedBy j.slice terms
    outcome := if sh.req.isCheck then worse c.outcome .okReplayed else c.outcome })
  s.putJob sh.home (j.accept sh.req cols terms)

/-- The patch entries that apply to a stroke (R105, R106): those in force at the vector's first stroke, on the standby array of its own
list. -/
def Job.shotPatches (j : Job) (a : Nat) (sh : Shot) : List (List Byte) := if a = sh.home then j.patches else j.patches2

/-- What becomes of a stroke of a command (R36, R37, R225 to R230): `raw` are its data codes. -/
def State.strokeOutcome (s : State) (a : Nat) (sh : Shot) (raw : List Nat) : State :=
  match s.cmd? sh.ref, s.job? sh.home sh.ref sh.vec sh.split, s.placeOf a sh.plane with
  | some c, some j, some (_, _, y, ly) =>
    if c.ended || (j.acc sh.req.high).fold != sh.req.fold then s
    else
      let x := s.arr a
      let bow := (s.crew (a / 17)).resv.isSome
      let sat : Bool := raw.any (· == 1023)
      let cols := raw.zipIdx.map (fun (r, i) => (x.atSlot sh).correct i r sh.kap)
      let terms := (j.shotPatches a sh).map (fun e =>
        (peCol e, ((sh.codes.getD (peRow e) 0 : Nat) : Rat) * peDelta ly.cb4 e))
      if sat && x.auto && !sh.req.isFold && !sh.req.isCheck && sh.req.fold < 4 && !(bow && c.spent sh.vec j.second) then s.askFold sh j
      else if sat then s.acceptStroke a sh j cols terms true
      else
        let rs := (List.range 512).map (fun i =>
          field (Memory.readBytes (s.crew (a / 17)).sram (0x400 * y.rowsPage + 2 * i) 2) 0 2)
        let m := measured ly cols (sumQ (terms.map (·.2)))
        let p := predicted ly sh.codes rs
        let w := checkWindow ly sh.kc (s.effSigma a) p (sumNat sh.codes)
        let chk := [f32Rat m, f32Rat p, w]
        if absQ (m - p) ≤ f32Q w then s.acceptStroke a sh j cols terms false
        else if sh.req.isCheck || (bow && (c.spent sh.vec j.second || sh.req.isFold)) then s.checkFailed a sh chk
        else s.askCheck sh j chk
  | _, _, _ => s

/-- The scan of the oldest stroke in flight ends. -/
def State.scanEnd (s : State) (a : Nat) (sh : Shot) (dev : List Int) (dup : Option Nat) : State :=
  let ideal (col : Nat) : Int := s.idealCode a sh.plane sh.codes col
  let ptr := (s.arr a).ptr
  let raw := (List.range 512).map (fun c => rawCode (ideal c) (dev.getD c 0))
  let lan := (List.range 8).map (fun k => rawCode (ideal (512 + k)) (dev.getD (512 + k) 0))
  let trk := (List.range 56).map (fun i => rawCode (ideal ((ptr + i) % 512)) (dev.getD (520 + i) 0))
  let t := (s.tel.temps.getD (1 + crewDie (a / 17)) 0).toInt
  let s := s.modArr a (fun x => Arr.track t sh raw lan trk { x with shots := x.shots.drop 1 })
  if sh.warm then s
  else
    let s := s.saturation a (raw.filter (· == 1023)).length
    match dup, s.job? sh.home sh.ref sh.vec sh.split with
    | some col, some _ => s.assemblyError sh.ref (a / 17) ⟨BitVec.ofNat 16 (0x8000 + a / 17), BitVec.ofNat 64 col⟩
    | _, _ => s.strokeOutcome a sh raw

/-- STROKE_SCAN_END (R29, R30, R36): `dev` holds the deviations of the 512 data codes, the 8 lantern codes and the 56 tracking
reads; `dup` names the output column of a mismatch of the duplicated arithmetic (R223) on codes that output assembly uses. -/
def execStrokeScanEnd (crew : Fin 256) (slot : Fin 17) (dev : List Int) (dup : Option Nat) (s : State) :
    Host.Outcome State Fault Refusal :=
  let a := arrIdx crew.val slot.val
  if dev.length ≠ 576 then .fault .malformedEvent
  else
    match (s.arr a).shots with
    | [] => .next s
    | sh :: _ => .next (s.scanEnd a sh dev dup).settle

/-! ## Keep-warm strokes (R91) -/

/-- One step of the array's LFSR. -/
def lfsrStep (v : BitVec 16) : BitVec 16 := if v.getLsbD 0 then (v >>> 1) ^^^ 0xB400#16 else v >>> 1
def lfsrRow (v : BitVec 16) : BitVec 16 := lfsrStep (lfsrStep (lfsrStep (lfsrStep v)))

/-- The nibbles of `n` rows, and the register after them. -/
def lfsrRows : Nat → BitVec 16 → List Nat × BitVec 16
  | 0, v => ([], v)
  | n + 1, v =>
    let v := lfsrRow v
    let (t, e) := lfsrRows n v
    (v.toNat % 16 :: t, e)

/-- The array receives keep-warm strokes: it belongs to a context in service and has no stroke of a command to make or to
end; a keep-warm stroke starts when the one before it has ended. -/
def State.warmable (s : State) (a : Nat) : Bool :=
  let x := s.arr a
  s.cfg.kwarm && (s.holders a).any (fun c => (s.ctx c).st.inService) && !x.stroking
  && (if x.warm.isEmpty then x.shots.isEmpty else x.shots.all (fun t => t.warm)) && !x.limitRefresh

/-- The row groups of a keep-warm stroke with the nibbles `xs` of the rows, at a fold; a row group of zeros is skipped. -/
def warmGroups (fold : Nat) (xs : List Nat) : List (Req × List Nat) :=
  ((nibReqs false fold false).map (fun q => (q, q.codes false xs))).filter (fun e => !e.2.all (· == 0))

/-- The keep-warm stroke that an array makes: the groups that one in progress still needs, or a new one's at the configured fold
with the LFSR after it. -/
def Arr.nextWarm (x : Arr) : List (Req × List Nat) × BitVec 16 :=
  if x.warm.isEmpty then
    let r := lfsrRows 512 x.lfsr
    (warmGroups (foldOf x.fold.toNat) r.1, r.2)
  else (x.warm, x.lfsr)

/-- One row group of a keep-warm stroke takes a slot on the ground plane and draws its tokens in stern class; a stroke whose
groups are all skipped only moves the LFSR. -/
def State.keepWarm (s : State) (a : Nat) (w : List (Req × List Nat) × BitVec 16) : State :=
  match w.1 with
  | [] => s.modArr a (fun x => { x with lfsr := w.2 })
  | e :: rest =>
    let g := s.strokeTokens a true
    let s := { s with gov := g.1 }
    if g.2 then (s.modArr a (fun x => { x with lfsr := w.2, warm := rest })).startShot a a noRef 0 0 e.1 true e.2 [] else s

/-- KEEP_WARM_STROKE (R91): the next slot of a keep-warm stroke, in a free sample-and-hold buffer (R30). -/
def execKeepWarmStroke (crew : Fin 256) (slot : Fin 17) (s : State) : Host.Outcome State Fault Refusal :=
  let a := arrIdx crew.val slot.val
  if !s.slotOpen a || !s.slotFree a || !s.warmable a then .next s else .next (s.keepWarm a (s.arr a).nextWarm)

/-! ## Test strokes (R45, R46) -/

/-- The ideal code of a data column in a test stroke: the rows follow the generator, so the charge is the mean over the 32
integration cycles (log entry 95). -/
def State.testIdeal (s : State) (a col : Nat) : Int :=
  let x := (s.crew (a / 17)).sine
  let (step, rate) := s.slewOf a
  let sums := (List.range 512).map (x.rowSum step rate (settleOf step rate))
  idealTransfer (s.charge a (s.arr a).ground sums col / 32)

/-- SINE_TEST_STROKE: a test stroke of the array in row mode; `dev` holds the deviation of the first column that each data ADC
converts, 64k at t = 0. With HIST = 1 each raw code counts in its ADC's histogram. -/
def execSineTestStroke (crew : Fin 256) (dev : List Int) (s : State) : Host.Outcome State Fault Refusal :=
  let k := s.crew crew.val
  if dev.length ≠ 8 then .fault .malformedEvent
  else if !k.sine.en || !s.crewUp crew.val then .next s
  else if !k.sine.hist then .next s
  else
    let a := arrIdx crew.val k.sine.slot.toNat
    let codes := dev.zipIdx.map (fun e => rawCode (s.testIdeal a (64 * e.2)) e.1)
    .next (s.modCrew crew.val (fun k => { k with
      hist := codes.zipIdx.foldl (fun t e =>
        t.set zeroNat (e.2 * 1024 + e.1) (satAdd 16 (t.get zeroNat (e.2 * 1024 + e.1)) 1)) k.hist }))

end Sys2Proof.Machine
end

