-- ==== Sys2Proof/Machine/Engines.lean ====
section
/-! DEFINITION. The vector engines (R137 to R140, R165, R278, R279): descriptor rings, fetches, execution, completion, and
writes to HBM. -/
namespace Sys2Proof.Machine

/-! ## Descriptors -/

/-- The ring of a VE has a free entry. -/
def Ve.room (v : Ve) : Bool :=
  match v.ring with
  | [] => true
  | d :: _ => v.tail != d.idx

/-- Write a descriptor at the tail of a ring. -/
def Ve.push (d : Desc) (v : Ve) : Ve :=
  ({ v with ring := v.ring ++ [{ d with idx := v.tail }], tail := v.tail + 1 } : Ve).refresh

/-- The retrim region of a layer in a generation. -/
def regionOf (g : Generation) (idx : Nat) : Option (Nat × Nat) := (g.regions.find? (fun e => e.1 == idx)).map (·.2)

/-- The header page of a region. -/
def State.regionHdr (s : State) (c lo : Nat) : List Byte := Memory.readBytes (s.ctx c).work lo 4096

/-- The layer's adapter is applied in a generation (R278, R280, R283). -/
def State.adapterOn (s : State) (c : Nat) (g : Generation) (idx : Nat) : Bool :=
  match regionOf g idx with
  | some (lo, _) => bitOf (field (s.regionHdr c lo) 9 1) 0
  | none => false

/-- VEs that an adapter of `p` parameters takes (R279). -/
def veCount (p : Nat) : Nat := min 8 (ceilDiv p 131072)

/-- Adapter parameters of a layer in a generation; 0 where it has no region. -/
def State.paramsOf (s : State) (c : Nat) (g : Generation) (idx : Nat) (ly : Layer) : Nat :=
  match regionOf g idx with
  | some (lo, _) => paramCount (rgRank (s.regionHdr c lo)) ly
  | none => 0

/-- The VEs of a die that work on an adapter or a training step (R279, R287). -/
def adapterVes (g : Generation) (idx p : Nat) : List Nat := (List.range (veCount p)).map (· + 8 * combDie g idx)

/-- The work of an adapter's corrections, and of a training step's gradients and update. -/
def State.adapterShape (s : State) (c : Cmd) (w : RunWork) (g : Generation) : VeShape :=
  let p := s.paramsOf (ctxOf c.ref.q c.pkt) g w.idx w.layer
  ⟨adapterVes g w.idx p, ((regionOf g w.idx).map (·.1)).getD 0 + liveOfs, 2 * p, w.layer.inBytes, w.n⟩
def State.trainShape (s : State) (c : Cmd) (w : RunWork) (g : Generation) : VeShape :=
  let p := s.paramsOf (ctxOf c.ref.q c.pkt) g w.idx w.layer
  ⟨adapterVes g w.idx p, ((regionOf g w.idx).map (·.1)).getD 0 + trainOfs p, 2 * p, 0, 1⟩

/-- Bytes of a 32-element block of a format. -/
def veBlockBytes (f : Nat) : Nat := if fmtBlocked f then blockBytes f else 4 * fmtBits f

/-- What a descriptor of VE `part` does in round `v`, the bytes of its blocks, and its execute bursts of 64 CLK_D (R302); how many
a layer or a training step takes is not stated (log entry 50). -/
def State.descOp (s : State) (w : RunWork) (v part : Nat) : VeOp × (Nat × Nat) × Nat :=
  let h := w.shape
  if w.trim.isSome then (.train part, (64, 0), Config.freeResult 13 (s.free + part))
  else if w.layer.isArray then
    (.adapter v part, (64, blockBytes w.layer.xfmt),
      ceilDiv (ceilDiv (ceilDiv (h.ownLen / 2) (max 1 h.ves.length)) 16384) (h.chunks * h.panels))
  else (.layer part, (veBlockBytes (w.layer.veFmt 1), veBlockBytes (w.layer.veFmt 0)), Config.freeResult 13 (s.free + part))

/-- The counter and threshold that a command's descriptors wait for (R138): those of a training step until output assembly has signalled
every slice of every sample; those of a bivouac-tier layer for the RUN whose output it reads. -/
def State.descWait (s : State) (c : Cmd) (w : RunWork) (g : Generation) : Option (Nat × Nat) :=
  if w.trim.isSome then some (s.counterOf c (combDie g w.idx), w.n * (combSlices g w.idx w.layer).length) else w.waitFor

/-- The chunk and the panel that row `t` of a round reads (R131): in MULTICAST mode every chunk of the VE's own operand passes under a
panel of the shared one, which is fetched once; in RESIDENT mode every panel passes a chunk, which stays in the VE. -/
def VeShape.tileAt (h : VeShape) (resident : Bool) (t : Nat) : Nat × Nat :=
  if resident then (t / h.panels, t % h.panels) else (t % h.chunks, t / h.chunks)

/-- Row `r` is the last one of the work, or of its round, that reads its own tile, and its panel. -/
def VeShape.lastOwn (h : VeShape) (resident : Bool) (r : Nat) : Bool :=
  if h.chunks = 1 then r + 1 == h.rows else !resident || (r + 1) % h.panels == 0
def VeShape.lastInp (h : VeShape) (resident : Bool) (t : Nat) : Bool :=
  if resident then h.panels != 1 || t + 1 == h.chunks else t % h.chunks + 1 == h.chunks

/-- The descriptor of VE `part` in row `r` of a command's work. The VE's own tile stays in staging while later rows read it; it is
marked as resident in RESIDENT mode. The last row of a part signals the command's counter, and so does its write to HBM. -/
def State.rowDesc (s : State) (c : Cmd) (w : RunWork) (g : Generation) (r part : Nat) : Desc :=
  let h := w.shape
  let t := r % (h.chunks * h.panels)
  let e := h.tileAt s.residentMode t
  let o := s.descOp w (r / (h.chunks * h.panels)) part
  let last := t + 1 == h.chunks * h.panels
  { ref := c.ref, ctx := ctxOf c.ref.q c.pkt, stern := w.trim.isSome || c.pkt.cls == 2, idx := 0, wait := s.descWait c w g
    signal := if last && w.trim.isNone && !w.layer.isArray then w.counter else none
    hbmSignal := if last && w.trim.isNone && !w.layer.isArray && (s.outHbm c).isSome then w.counter else none
    own := (0, e.1), inp := (r / (h.chunks * h.panels), e.2), resident := s.residentMode
    release := h.lastOwn s.residentMode r, freeInp := h.lastInp s.residentMode t
    fetched := false, started := false, done := 0, bursts := max 1 o.2.2, blk := o.2.1, last := last, op := o.1 }

/-- The next row of descriptors that the Cox writes for a command, each with its VE: for an adapter in ascending order of the vectors
(R279). -/
def State.nextRow (s : State) (c : Cmd) (w : RunWork) (g : Generation) : List (Nat × Desc) :=
  if c.ended || !w.dispatched || w.shape.rows ≤ w.veNext then []
  else w.shape.ves.zipIdx.map (fun e => (e.1, s.rowDesc c w g w.veNext e.2))

/-- The next row of a command in flight. -/
def State.rowOf (s : State) (r : CmdRef) : List (Nat × Desc) :=
  match s.cmd? r with
  | none => []
  | some c =>
    match c.work, s.runGen c with
    | .run w, some g => s.nextRow c w g
    | _, _ => []

/-- A VE's die has power (R14). -/
def State.veUp (s : State) (v : Nat) : Bool := diePowered s.env.env (v / 8)

/-- Write rows of descriptors of a command, as long as the rings of VEs with power have room for all of a row. -/
def State.feedVe : Nat → CmdRef → State → State
  | 0, _, s => s
  | n + 1, r, s =>
    let row := s.rowOf r
    if row = [] || row.any (fun e => !s.veUp e.1 || !(s.ve e.1).room) then s
    else
      let t := s.each row (fun s e => s.modVe e.1 (Ve.push e.2))
      State.feedVe n r ({ t with free := t.free + row.length }.updRun r (fun w => { w with veNext := w.veNext + 1 }))

/-- Feed the commands in their order; those behind one whose next row finds no room wait. -/
def State.feedAll : List CmdRef → State → State
  | [], s => s
  | r :: t, s =>
    let s := State.feedVe 128 r s
    if s.rowOf r = [] then State.feedAll t s else s

/-- Feed every command that has descriptors to write. -/
def State.feed (s : State) : State := State.feedAll (s.cmds.map (·.ref)) s

/-! ## Adapter corrections (R278, R279) -/

/-- The elements of an input vector less the layer's ZX: the real input of R55 without its block scale 2^EX, which R73
multiplies into each block sum. -/
def inputElems (ly : Layer) (bs : List Byte) : List F32 :=
  ((cutBlocks ly.xfmt (ceilDiv ly.k 32) bs).flatMap (fun e => e.2.2)).take ly.k |>.map (fun (q : Nat) =>
    f32Int ((q : Int) - (ly.zx : Int)))

/-- The real input of a vector as FP32 (R55): the layer's EX and ZX. -/
def realInput (ly : Layer) (bs : List Byte) : List F32 :=
  (inputElems ly bs).map (f32Scale ly.ex)

/-- BF16 parameters `i` to `i + n - 1` of an area. -/
def paramsAt (area : List Byte) (i n : Nat) : List F32 :=
  (List.range n).map (fun k => f32OfBF16 (BitVec.ofNat 16 (field area (2 * (i + k)) 2)))

/-- h = A x (R278): one dot product of R73 for each rank, over the input elements with their block scale. -/
def adapterH (ly : Layer) (r : Nat) (area : List Byte) (x : List F32) : List F32 :=
  (List.range r).map (fun k => veDot ly.ex (paramsAt area (k * ly.k) ly.k) x)

/-- The correction of every output column. -/
def adapterDelta (ly : Layer) (r : Nat) (area : List Byte) (x : List F32) : List F32 :=
  let h := adapterH ly r area x
  (List.range ly.n).map (fun j =>
    f32Add (veDot 0 (paramsAt area (r * ly.k + j * r) r) h)
      ((paramsAt area (r * ly.k + ly.n * r + j) 1).headD 0))

/-- The input bytes of vector `v` of a RUN: received, in a T3 tile, or read where DATA_ADDR names this device. -/
def State.vectorBytes (s : State) (c : Cmd) (w : RunWork) (v : Nat) : List Byte :=
  if w.remote then ((w.inputs.find? (fun e => e.1 == v)).map (·.2)).getD []
  else match w.t3.find? (fun e => e.1 == v) with
    | some e => e.2
    | none => match s.localAddr c.pkt.dataAddr with
      | some (.host a) => Memory.readBytes s.host (a + v * w.layer.inBytes) w.layer.inBytes
      | some (.work a) => Memory.readBytes (s.ctx (ctxOf c.ref.q c.pkt)).work (a + v * w.layer.inBytes) w.layer.inBytes
      | _ => []

/-- A device that receives only the slices of its own splits cannot form an adapter's h: no rule says what becomes of a layer with
an adapter whose splits lie on several members, and its correction is a free function of the matrices and the input (R17; log
entry 19). -/
def partInput (g : Generation) (w : RunWork) : Bool :=
  w.remote && w.trim.isNone && (List.range w.layer.splits).any (fun sp => !g.assigns.any (fun y =>
    y.layer == w.idx && plSplit (g.man.place y.entry) == sp))

/-- The correction of a vector. -/
def State.deltaOf (s : State) (c : Cmd) (w : RunWork) (g : Generation) (lo v : Nat) : List F32 :=
  let cx := ctxOf c.ref.q c.pkt
  let k := rgRank (s.regionHdr cx lo)
  let area := Memory.readBytes (s.ctx cx).work (lo + liveOfs) (2 * paramCount k w.layer)
  if partInput g w then
    let ds := Config.partDelta area (s.vectorBytes c w v)
    (List.range w.layer.n).map (fun j => ds.getD j 0)
  else adapterDelta w.layer k area (inputElems w.layer (s.vectorBytes c w v))

/-- Convert a combined slice whose correction is there, for the command as it stands now (R279). -/
def State.convertWaiting (s : State) (r : CmdRef) (g : Generation) (p : Part) : State :=
  match s.cmd? r with
  | none => s
  | some c =>
    match c.work with
    | .run w =>
      match combAssign g w.idx p.slice p.rep p.second with
      | some y => s.convert c w y p
      | none => s
    | _ => s

/-- A VE has ended its part of a vector's correction; the last part gives it to the combining crew, where the slices that waited for
it are converted. -/
def State.putDelta (s : State) (r : CmdRef) (v part : Nat) : State :=
  match s.cmd? r with
  | none => s
  | some c =>
    match c.work, s.runGen c with
    | .run w, some g =>
      match regionOf g w.idx with
      | none => s
      | some (lo, _) =>
        let parts := w.veParts ++ [(v, part)]
        if (parts.filter (fun e => e.1 == v)).length < w.shape.ves.length then
          s.updRun r (fun w => { w with veParts := parts })
        else
          let wait := w.convWait
          let w := { w with
            deltas := w.deltas ++ [(v, s.deltaOf c w g lo v)], veParts := parts.filter (fun e => e.1 != v)
            convWait := wait.filter (fun p => p.vec != v) }
          let s := { s.updRun r (fun _ => w) with free := s.free + 1 }
          s.each (wait.filter (fun p => p.vec == v)) (fun s p => s.convertWaiting r g p)
    | _, _ => s

/-! ## Bivouac-tier layers (R139, R165) -/

/-- The weights of a bivouac-tier layer: its bytes by offset. -/
def layerWeights (g : Generation) (idx : Nat) : List (Nat × Byte) :=
  (g.biv.filter (fun e => e.1 / 2 ^ 40 == idx)).map (fun e => (e.1 % 2 ^ 40, e.2))

/-- The input of a bivouac-tier RUN. -/
def State.layerInput (s : State) (c : Cmd) (w : RunWork) : List Byte :=
  if w.remote then w.inputs.flatMap (·.2)
  else match s.localAddr c.pkt.dataAddr with
    | some a => s.readAt (ctxOf c.ref.q c.pkt) a c.pkt.length
    | none => []

/-- The blocks of an operand of a dot product (R73): `ws` and `xs` are the layer's weights and input, `rs` the dot products so far. -/
def veOperand (g : Generation) (idx : Nat) (ly : Layer) (dims : List Nat) (xs : List Byte) (rs : List F32) (n : Nat) :
    VeSource → List VeBlock
  | .weights t b => (List.range (ceilDiv n 32)).map (fun i =>
      veBlock (ly.veFmt 0) (fun o k => Memory.readBytes g.biv (idx * 2 ^ 40 + o) k) t (b + i) (blockElems n i))
  | .input t b => (List.range (ceilDiv n 32)).map (fun i => veBlock (ly.veFmt 1) (fun o k => slice xs o k) t (b + i) (blockElems n i))
  | .made i => realBlocks 0 ((Config.veMade ly.raw dims (layerWeights g idx) xs i rs).take n)

/-- The dot products of a bivouac-tier layer, in their order (R73, R139). -/
def layerDots (g : Generation) (idx : Nat) (ly : Layer) (p : Packet) (xs : List Byte) : List F32 :=
  (ly.plan p).dots.foldl (fun rs d =>
    rs ++ [veSum (veOperand g idx ly p.dims xs rs d.n d.a) (veOperand g idx ly p.dims xs rs d.n d.b)]) []

/-- An operand from a later block on. -/
def skipBlocks (n : Nat) : VeSource → VeSource
  | .weights t b => .weights t (b + n)
  | .input t b => .input t (b + n)
  | .made i => .made (i + n)

/-- The keys of key block `kb`: the first one, and how many there are. -/
def attnKeys (a : AttnPlan) (kb : Nat) : Nat × Nat := (kb * (32 * a.step), min (32 * a.step) (a.n - kb * (32 * a.step)))

/-- The running maximum, sum and output of one query row (R131). -/
structure AttnRow where
  m : F32
  l : F32
  acc : List F32
deriving DecidableEq, Repr

/-- One key block (R131), for a query row `q`: `op n u` gives `n` elements of an operand. A sum of scores goes block by block through
the tree of R73, as a dot product with ones does. -/
def attnBlock (a : AttnPlan) (op : Nat → VeSource → List VeBlock) (cols : Nat) (q : List VeBlock) (x : AttnRow) (kb : Nat) :
    AttnRow :=
  let ks := attnKeys a kb
  let sc := (List.range ks.2).map (fun j =>
    f32Mul (veSum q (op a.d (skipBlocks ((ks.1 + j) * ceilDiv a.d 32) a.k))) a.scale)
  let m := sc.foldl f32Max x.m
  let p := realBlocks 0 (sc.map (fun s => Config.veExp (f32Sub s m)))
  let f := Config.veExp (f32Sub x.m m)
  { m := m
    l := f32Add (f32Mul x.l f) (veSum p (realBlocks 0 (List.replicate ks.2 (f32Int 1))))
    acc := (List.range cols).map (fun j => f32Add (f32Mul (x.acc.getD j 0) f)
      (veSum p (op ks.2 (skipBlocks (j * ceilDiv a.n 32 + kb * a.step) a.v)))) }

/-- A row of attention (R131): ascending key blocks, from -infinity and 0; the output over the sum. -/
def attnRow (a : AttnPlan) (op : Nat → VeSource → List VeBlock) (cols i : Nat) : List F32 :=
  let q := op a.d (skipBlocks (i * ceilDiv a.d 32) a.q)
  let x := (List.range (ceilDiv a.n (32 * max 1 a.step))).foldl (attnBlock a op cols q) ⟨0xFF800000, 0, List.replicate cols 0⟩
  x.acc.map (fun y => f32Div y x.l)

/-- The FP32 outputs of a bivouac-tier layer, by rows: of attention, or what the layer plan makes of the dot products. -/
def layerRows (g : Generation) (idx : Nat) (ly : Layer) (p : Packet) (xs : List Byte) : List (List F32) :=
  let pl := ly.plan p
  let rs := layerDots g idx ly p xs
  match pl.attn with
  | some a => (List.range pl.rows).map (attnRow a (veOperand g idx ly p.dims xs rs) pl.cols)
  | none =>
    let ys := Config.layerReal ly.raw p.dims (layerWeights g idx) xs rs
    (List.range pl.rows).map (fun i => (List.range pl.cols).map (fun j => ys.getD (i * pl.cols + j) 0))

/-- The output's blocks in their order, row after row, each with its number in the tensor. -/
def layerBlocks (g : Generation) (idx : Nat) (ly : Layer) (p : Packet) (xs : List Byte) : List (Nat × List F32) :=
  (layerRows g idx ly p xs).zipIdx.flatMap (fun e =>
    (List.range (ceilDiv e.1.length 32)).map (fun i => (e.2 * ceilDiv e.1.length 32 + i, slice32 e.1 i)))

/-- The codebook of an output page (R57; log entry 17). -/
def outBook (ly : Layer) (page : Nat) : List Byte :=
  let n := cbHead (ly.veFmt 2)
  (Config.codebook ly.raw page ++ List.replicate n 0).take n

/-- A block as the VE's quantiser converts it (R74): its exponent and its codes. -/
def layerQuant (ly : Layer) (p : Packet) (b : Nat × List F32) : Int × List (Nat × Bool) :=
  let c := ly.veFmt 2
  let pl := ly.plan p
  if fmtBook c then cbQuant c (outBook ly (b.1 / cbBlocks c)) pl.static pl.e b.2 else veQuant c pl.static pl.e pl.z b.2

/-- The bytes of a block, padded (R54, R56). -/
def layerBlockBytes (ly : Layer) (p : Packet) (b : Nat × List F32) : List Byte :=
  let q := layerQuant ly p b
  quantBytes (ly.veFmt 2) q.1 (ly.plan p).z (q.2.map (·.1))

/-- The output tensor: blocks without gaps, or pages of a codebook format, each headed by its codebook (R54, R57). -/
def layerTensor (ly : Layer) (p : Packet) (bs : List (Nat × List F32)) : List Byte :=
  let c := ly.veFmt 2
  if fmtBook c then
    (List.range (ceilDiv bs.length (cbBlocks c))).flatMap (fun k =>
      cbPageBytes (outBook ly k) ((bs.filter (fun b => b.1 / cbBlocks c == k)).map (layerBlockBytes ly p)))
  else bs.flatMap (layerBlockBytes ly p)

/-- The conversions of a block, for the statistics (R74, R112). -/
def layerBlockErrs (ly : Layer) (p : Packet) (b : Nat × List F32) : List (F32 × Bool) :=
  let c := ly.veFmt 2
  let q := layerQuant ly p b
  if fmtBook c then (b.2.zip q.2).map (fun x => (cbErrSq (outBook ly (b.1 / cbBlocks c)) q.1 x.1 x.2.1, x.2.2))
  else convErrs c q.1 (ly.plan p).z b.2 q.2

/-- The result of a bivouac-tier RUN: a function of the package and the input (R17, R139). -/
def State.layerOutput (s : State) (c : Cmd) (w : RunWork) (g : Generation) : List Byte :=
  layerTensor w.layer c.pkt (layerBlocks g w.idx w.layer c.pkt (s.layerInput c w))

/-- The conversions of a bivouac-tier RUN go to the layer's statistics slot (R74, R112). -/
def State.layerStats (s : State) (c : Cmd) (w : RunWork) (g : Generation) : State :=
  s.countErrs (ctxOf c.ref.q c.pkt) w.layer.statSlot
    ((layerBlocks g w.idx w.layer c.pkt (s.layerInput c w)).flatMap (layerBlockErrs w.layer c.pkt))

/-- The output of a bivouac-tier RUN goes to RESULT_ADDR; a write to working space ends with AE_HBM_WRITE_COMPLETE. -/
def State.putOutput (s : State) (v : Nat) (d : Desc) (c : Cmd) (w : RunWork) (g : Generation) : State :=
  let out := s.layerOutput c w g
  let cx := ctxOf c.ref.q c.pkt
  let s := s.layerStats c w g
  let dst := s.addrDev c.pkt.resultAddr
  let s := if dst ≠ s.self then s.runMsg c 3 dst (s.partStep c w) 0 out else match s.localAddr c.pkt.resultAddr with
    | some (.host a) => s.writeHost a out
    | some (.work a) => ((s.chargeHbm d.stern out.length).writeWork cx a out).modVe v (fun x => { x with
        writes := x.writes ++ [(d.ref, d.hbmSignal)] })
    | _ => s
  (s.updCmd d.ref (fun c => { c with written := c.written + out.length })).updRun d.ref (fun w => { w with due := w.due - 1 })

/-- A VE has ended its part of a bivouac-tier layer; the last part completes the output. -/
def State.putLayer (s : State) (v : Nat) (d : Desc) (part : Nat) : State :=
  match s.cmd? d.ref with
  | none => s
  | some c =>
    match c.work, s.runGen c with
    | .run w, some g =>
      if w.veParts.length + 1 < w.shape.ves.length then s.updRun d.ref (fun w => { w with veParts := w.veParts ++ [(0, part)] })
      else s.putOutput v d c w g
    | _, _ => s

/-- A VE has ended its part of a training step (R287). -/
def RunWork.trainPart (w : RunWork) : RunWork := { w with trim := w.trim.map (fun t => { t with ves := t.ves - 1 }) }

/-! ## The operands of a descriptor (R119, R131, R137) -/

/-- An operand tile: its bytes, and where in HBM: in bivouac or working space, and the offset; none from the die buffer, the host or
another device. -/
structure VeTile where
  bytes : List Byte
  hbm : Option (Bool × Nat)
deriving DecidableEq, Repr

/-- No tile to fetch. -/
def VeTile.none : VeTile := ⟨[], Option.none⟩

/-- Bytes of a bivouac-tier layer's shards. -/
def layerBytes (g : Generation) (idx : Nat) : Nat := sumNat ((g.man.shards.filter (fun e => stLayer e == idx)).map stLen)

/-- Chunk `k` of VE `part`'s share of its command's own operand: offset and length. -/
def VeShape.ownChunk (h : VeShape) (part k : Nat) : Nat × Nat :=
  let n := ceilDiv h.ownLen (max 1 h.ves.length)
  let len := min n (h.ownLen - part * n)
  (h.ownOfs + part * n + k * panelBytes, min panelBytes (len - k * panelBytes))

/-- Panel `k` of the shared operand: offset and length. -/
def VeShape.panel (h : VeShape) (k : Nat) : Nat × Nat := (k * panelBytes, min panelBytes (h.inpLen - k * panelBytes))

/-- A tile of working space. -/
def State.workTile (s : State) (c : Nat) (at' : Nat × Nat) : VeTile :=
  ⟨Memory.readBytes (s.ctx c).work at'.1 at'.2, some (false, at'.1)⟩

/-- Where in working space of this device an input of a command lies, at an offset; none where it comes from elsewhere. -/
def State.inputHbm (s : State) (c : Cmd) (w : RunWork) (ofs : Nat) : Option (Bool × Nat) :=
  match s.localAddr c.pkt.dataAddr with
  | some (.work a) => if w.remote then none else some (false, a + ofs)
  | _ => none

/-- The VE's own tile of a descriptor: of the adapter's matrices, of TRAIN, or of the layer's input. -/
def State.ownTile (s : State) (c : Cmd) (w : RunWork) (d : Desc) : VeTile :=
  match d.op with
  | .adapter _ part => s.workTile d.ctx (w.shape.ownChunk part d.own.2)
  | .train part => s.workTile d.ctx (w.shape.ownChunk part d.own.2)
  | .layer part =>
    let a := w.shape.ownChunk part d.own.2
    ⟨slice (s.layerInput c w) a.1 a.2, s.inputHbm c w a.1⟩

/-- The tile of the operand that all VEs share: of the vector, or a panel of the layer's weights; a training step has none. -/
def State.inputTile (s : State) (c : Cmd) (w : RunWork) (g : Generation) (d : Desc) : VeTile :=
  let a := w.shape.panel d.inp.2
  match d.op with
  | .adapter v _ =>
    ⟨slice (s.vectorBytes c w v) a.1 a.2,
      if w.t3.any (fun e => e.1 == v) then none else s.inputHbm c w (v * w.layer.inBytes + a.1)⟩
  | .layer _ => ⟨Memory.readBytes g.biv (w.idx * 2 ^ 40 + a.1) a.2, some (true, w.idx * 2 ^ 40 + a.1)⟩
  | .train _ => VeTile.none

/-- The input of a descriptor has arrived, where it comes from another device (R279). -/
def RunWork.inputThere (w : RunWork) (op : VeOp) : Bool :=
  match op with
  | .adapter v _ => !w.remote || w.inputs.any (fun e => e.1 == v)
  | .layer _ => !w.remote || !w.inputs.isEmpty
  | .train _ => true

/-- Two descriptors read the same tile of the shared operand. -/
def Desc.sharesWith (d e : Desc) : Bool := decide (e.ref = d.ref) && decide (e.inp = d.inp)

/-- The tiles that a descriptor still needs: those not in its VE's staging. -/
def State.ownFor (s : State) (v : Nat) (d : Desc) (c : Cmd) (w : RunWork) : VeTile :=
  if (s.ve v).tiles.any (fun t => t.ownOf d) then VeTile.none else s.ownTile c w d
def State.inputFor (s : State) (v : Nat) (d : Desc) (c : Cmd) (w : RunWork) (g : Generation) : VeTile :=
  if (s.ve v).tiles.any (fun t => t.inpOf d) then VeTile.none else s.inputTile c w g d

/-- The other VEs that a tile of the shared operand is multicast to: in MULTICAST mode, all of the die that work on it (R131). -/
def State.siblings (s : State) (v : Nat) (w : RunWork) (inp : VeTile) : List Nat :=
  if s.residentMode || inp.bytes.isEmpty then [] else w.shape.ves.filter (· != v)

/-- Bytes that a tile draws from HBM. -/
def VeTile.drawn (t : VeTile) : Nat := if t.hbm.isSome then t.bytes.length else 0

/-- The error that the read of a tile meets in HBM (R223). -/
def State.tileErr (s : State) (c : Nat) (g : Generation) (t : VeTile) : Option ParityErr :=
  match t.hbm with
  | some (true, off) => badIn g.bad off t.bytes.length
  | some (false, off) => badIn (s.ctx c).bad off t.bytes.length
  | none => none

/-- An error found in the read of a tile lasts (R223). -/
def State.noteTile (s : State) (c gen : Nat) (t : VeTile) (e : ParityErr) : State :=
  match t.hbm with
  | some (true, off) => s.noteBiv c gen off t.bytes.length e
  | some (false, off) => s.noteWork c off t.bytes.length e
  | none => s

/-- The tile, of two that a fetch reads from HBM, in which a stack found an error (log entry 112). -/
def tileOf (e : ParityErr) (own inp : VeTile) : VeTile :=
  if Config.hbmOwner (bitsOf e.hop.toNat 0 12) e.addr.toNat % max 1 (own.drawn + inp.drawn) < own.drawn then own else inp

/-! ## The engines -/

/-- A counter has reached the threshold of a descriptor (R138). -/
def State.counterMet (s : State) (d : Desc) : Bool :=
  match d.wait with
  | some (k, n) => n ≤ (s.counter k).toNat
  | none => true

/-- The VE runs descriptors of one context at a time (R140): another one's may start when both engines are idle. -/
def Ve.mayServe (v : Ve) (d : Desc) : Bool :=
  v.ctx == d.ctx || (!v.ring.any (fun e => e.fetched || e.started) && v.writes.isEmpty)

/-- Registers and staging are cleared before another context's descriptor starts. -/
def Ve.enter (v : Ve) (c : Nat) : Ve := if v.ctx = c then v else { v with ctx := c, tiles := [], regs := [] }

/-- The next descriptor for the AE, with its place in the ring. -/
def Ve.due (v : Ve) : Option (Desc × Nat) := v.ring.zipIdx.find? (fun e => !e.1.fetched)

/-- Mark one descriptor of a ring, by its position. -/
def Ve.mark (i : Nat) (f : Desc → Desc) (v : Ve) : Ve :=
  ({ v with ring := v.ring.zipIdx.map (fun e => if e.2 = i then f e.1 else e.1) } : Ve).refresh

/-- Ring index of a descriptor, counted from the oldest one in the ring. -/
def Ve.place (v : Ve) (d : Desc) : Nat := (d.idx - (v.ring.map (·.idx)).headD d.idx).toNat

/-- The AE may start the fetches of a descriptor (R137): at most 64 ahead of the descriptor that the EE executes, or is about to. -/
def Ve.inReach (v : Ve) (d : Desc) : Bool :=
  match v.current with
  | some e => decide (v.place d ≤ v.place e.1 + 64)
  | none => true

/-- A tile enters the staging of a VE, which serves the context from then on. -/
def Ve.stage (c : Nat) (r : CmdRef) (shared : Bool) (num : Nat × Nat) (bytes : List Byte) (v : Ve) : Ve :=
  let x := v.enter c
  (if bytes.isEmpty then x else { x with tiles := x.tiles ++ [⟨r, shared, num, bytes⟩] }).refresh

/-- A VE may take a tile of a shared operand: its next descriptor reads that tile too. -/
def State.mayReceive (s : State) (d : Desc) (n u : Nat) : Bool :=
  match (s.ve u).due with
  | some e => d.sharesWith e.1 && (s.ve u).mayServe d && decide ((s.ve u).stagingUsed + n ≤ 2 ^ 20)
  | none => false

/-- The fetches of a descriptor may start (R131, R137, R138, R140, R279): `own` and `inp` are the tiles it needs. -/
def State.mayFetch (s : State) (v : Nat) (d : Desc) (w : RunWork) (own inp : VeTile) : Bool :=
  let x := s.ve v
  decide (s.dev.st = .active) && s.veUp v && x.inReach d && s.counterMet d && x.mayServe d && w.inputThere d.op
  && decide (x.stagingUsed + own.bytes.length + inp.bytes.length ≤ 2 ^ 20)
  && (s.siblings v w inp).all (s.mayReceive d inp.bytes.length)

/-- The tiles of a descriptor are fetched: the shared one goes to every VE that works on it. -/
def State.fillTiles (s : State) (v i : Nat) (d : Desc) (w : RunWork) (own inp : VeTile) : State :=
  let s := s.each (s.siblings v w inp) (fun s u => s.modVe u (Ve.stage d.ctx d.ref true d.inp inp.bytes))
  s.modVe v (fun x => ((x.stage d.ctx d.ref false d.own own.bytes).stage d.ctx d.ref true d.inp inp.bytes).mark i (fun d => { d with
    fetched := true }))

/-- VE_FETCH_START (R131, R137): the AE makes the fetches of the next descriptor, and multicasts the shared operand. `err` is an
error that the fetch meets in a buffer or in HBM (R222, R223); one met in HBM before recurs. -/
def execVeFetchStart : Checked (Fin 32) → State → Host.Outcome State Fault Refusal
  | ⟨v, err⟩, s =>
    match (s.ve v.val).due with
    | none => .next s
    | some (d, i) =>
      match s.cmd? d.ref with
      | none => .next s
      | some c =>
        match c.work, s.runGen c with
        | .run w, some g =>
          let own := s.ownFor v.val d c w
          let inp := s.inputFor v.val d c w g
          if !s.mayFetch v.val d w own inp then .next s
          else
            let r := s.drawHbm d.stern (own.drawn + inp.drawn)
            let s := r.1
            if !r.2 then .next s
            else
              match (s.tileErr d.ctx g own).or (s.tileErr d.ctx g inp), err with
              | some e, _ => .next (s.parityError d.ref e).settle
              | none, some e => .next ((s.noteTile d.ctx g.gen (tileOf e own inp) e).parityError d.ref e).settle
              | none, none => .next (s.fillTiles v.val i d w own inp)
        | _, _ => .next s

/-- An error in a VE, named as R356 does: the EE's by the descriptor's ring index, another as it is. -/
def veError (v : Nat) (d : Desc) (e : ParityErr) : ParityErr :=
  if bitsOf e.hop.toNat 12 4 = 9 then ⟨BitVec.ofNat 16 (0x9000 + v), d.idx.setWidth 64⟩ else e

/-- The bytes of the tile that a descriptor reads of its VE's own operand, and of the shared one. -/
def Ve.ownBytes (v : Ve) (d : Desc) : List Byte := ((v.tiles.find? (fun t => t.ownOf d)).map (·.bytes)).getD []
def Ve.inpBytes (v : Ve) (d : Desc) : List Byte := ((v.tiles.find? (fun t => t.inpOf d)).map (·.bytes)).getD []

/-- Block `k` of a tile, whose blocks have `n` bytes. -/
def tileBlock (n k : Nat) (bs : List Byte) : List Byte := slice bs (n * (k % max 1 (ceilDiv bs.length n))) n

/-- The EE makes a burst: it holds in its registers a 32-element block of each operand (R119), and the whole of a resident one (R131). -/
def Ve.burst (i : Nat) (d : Desc) (v : Ve) : Ve :=
  { Ve.mark i (fun d => { d with started := true, done := d.done + 1, bursts := d.bursts - 1 }) v with
    regs := (if d.resident then v.ownBytes d else tileBlock d.blk.1 d.done (v.ownBytes d)) ++ tileBlock d.blk.2 d.done (v.inpBytes d) }

/-- VE_DESCRIPTOR_EXECUTE (R138, R140, R302): the EE starts a descriptor with its first burst of 64 CLK_D, or makes the next burst of
the one it has started. `err` is an error in staging or registers, or of residue or parity prediction, which ends the command
(R222, R223). -/
def execVeDescriptorExecute (v : Fin 32) (err : Option ParityErr) (s : State) : Host.Outcome State Fault Refusal :=
  let x := s.ve v.val
  match (x.ring.zipIdx.find? (fun e => e.1.started)).or x.next with
  | none => .next s
  | some (d, i) =>
    if s.dev.st ≠ .active ∨ s.veUp v.val = false ∨ d.bursts = 0 ∨ s.counterMet d = false then .next s
    else
      let g := s.gov.drawPool d.stern 430
      let s := { s with gov := g.1 }
      if !g.2 then .next s
      else
        match err with
        | some e => .next (s.parityError d.ref (veError v.val d e)).settle
        | none => .next (s.modVe v.val (Ve.burst i d))

/-- The descriptor leaves the ring; a tile leaves staging with the last descriptor that reads it, a resident one with the one that
carries RELEASE (R131, R137); and the registers are free, but for a resident operand (R119). -/
def Ve.retire (i : Nat) (d : Desc) (v : Ve) : Ve :=
  ({ v with
      ring := (v.ring.zipIdx.filter (fun e => e.2 ≠ i)).map (·.1)
      tiles := v.tiles.filter (fun t => !(d.release && t.ownOf d) && !(d.freeInp && t.inpOf d))
      regs := if d.resident && !d.release then v.ownBytes d else [] } : Ve).refresh

/-- A part of a command's work on the VEs ends with its last descriptor. -/
def State.putPartOf (s : State) (v : Nat) (d : Desc) : State :=
  if !d.last then s
  else match d.op with
    | .layer part => s.putLayer v d part
    | .adapter k part => s.putDelta d.ref k part
    | .train _ => s.updRun d.ref RunWork.trainPart

/-- The result of a descriptor goes to working space. -/
def State.putsHbm (s : State) (d : Desc) : Bool :=
  d.last && (match d.op with | .layer _ => true | _ => false) && (s.cmd? d.ref).any (fun c => (s.outHbm c).isSome)

/-- VE_DESCRIPTOR_COMPLETE (R137, R138): after its last burst, the result, the staging space, the signal. It waits for the tokens of a
write to HBM (R304). -/
def execVeDescriptorComplete (v : Fin 32) (s : State) : Host.Outcome State Fault Refusal :=
  match (s.ve v.val).ring.zipIdx.find? (fun e => e.1.started && e.1.bursts == 0) with
  | none => .next s
  | some (d, i) =>
    if s.putsHbm d && !s.hbmOpen d.stern then .next (s.hbmWait d.stern)
    else .next ((((s.modVe v.val (Ve.retire i d)).bump d.signal).putPartOf v.val d).feed.settle)

/-- AE_HBM_WRITE_COMPLETE (R138): the oldest write to HBM completes, with its signal; `err` is an error that its words meet (R222,
R223), which ends the command. -/
def execAeHbmWriteComplete : Checked (Fin 32) → State → Host.Outcome State Fault Refusal
  | ⟨v, err⟩, s =>
    match (s.ve v.val).writes with
    | [] => .next s
    | (r, k) :: t =>
      let s := s.modVe v.val (fun x => { x with writes := t })
      match err with
      | some e => .next (s.parityError r e).settle
      | none => .next (s.bump k)

end Sys2Proof.Machine
end

