-- ==== Sys2Proof/Machine/Dataflow.lean ====
section
/-! DEFINITION. Engine-class and stern-class RUNs (R66, R118 to R128, R132 to R134, R162, R188, R194, R229, R233): admission,
dispatch, tiles, claims, completion. -/
namespace Sys2Proof.Machine

/-! ## Admission (R126, R188, R194) -/

/-- The stamp of a RUN (R162, R188): the open batch's, or the admission generation; none where another batch is open. -/
def Ctx.stamp (x : Ctx) (epoch : BitVec 16) : Option Nat :=
  match x.batch with
  | none => some x.adm
  | some (e, g) => if e = epoch then some g else none

/-- The batch after the admission of a RUN: END_BATCH closes it. -/
def batchAfter (p : Packet) (gen : Nat) : Option (BitVec 16 × Nat) := if p.endBatch then none else some (p.epoch, gen)

/-- A dynamic dimension is larger than its largest bucket (R126 case 1). -/
def Layer.shapeOver (ly : Layer) (p : Packet) : Bool :=
  (List.range ly.ndyn).any (fun d => (ly.buckets d).all (fun b => b < p.dim d))

/-- A dynamic dimension is 0 (R126 case 2). -/
def Layer.shapeEmpty (ly : Layer) (p : Packet) : Bool := (List.range ly.ndyn).any (fun d => p.dim d == 0)

/-- The bucket taken in each dynamic dimension: the smallest that is not smaller than the shape (R126 case 3). -/
def Layer.bucketsOf (ly : Layer) (p : Packet) : List Nat :=
  (List.range ly.ndyn).map (fun d => ((ly.buckets d).find? (fun b => p.dim d ≤ b)).getD (p.dim d))

/-- The bucket of an array layer's batch, or one vector. -/
def RunWork.bucket (w : RunWork) : Nat := w.buckets.headD 1

/-- The addresses of a RUN have a form of R191, name a member, and lie in their spaces, as far as they are this device's (R173, R271). -/
def State.runAddrsOk (s : State) (c : Nat) (p : Packet) (out : Nat) : Bool :=
  let ok (a n : Nat) : Bool :=
    match s.localAddr a with
    | some x => (x.isHost || (x.isWork && s.devices.contains (s.addrDev a))) && (s.addrDev a != s.self || s.rangeOk c x n)
    | none => false
  ok p.dataAddr p.length && ok p.resultAddr out

/-- The progress of a RUN at its admission. -/
def RunWork.start (idx : Nat) (ly : Layer) (n : Nat) (buckets : List Nat) : RunWork :=
  { idx := idx, layer := ly, n := n, buckets := buckets, dispatched := false, b3 := 0, b2 := 0, g := 0, limit := 0,
    slot := none, toSend := [], due := 0, held := [], claims := [], taken := [], stopped := [], adapter := false, shape := VeShape.none,
    veNext := 0, counter := none, waitFor := none, veParts := [], deltas := [], convWait := [], inputs := [], remote := false, t3 := [], spent := [], unchecked := [],
    outWait := [], arrived := [], crewParts := [], outParts := [], winW := 0, fly0 := [], fly1 := [], arr0 := [], arr1 := [],
    agreed := [], trim := none }

/-- A crew that the layer needs is benched (R234). -/
def State.benchedFor (s : State) (c : Cmd) : Bool := (List.range 256).any (fun k => (s.crew k).benched && s.needsCrew c k)

/-- An admitted RUN or RUN_BOW that needs a benched crew fails at once. -/
def State.benchCheck (s : State) (r : CmdRef) : State :=
  match s.cmd? r with
  | some c => if s.benchedFor c then s.failCmd r .checkFail else s
  | none => s

/-- The status of a RUN whose layer or shape does not pass (R126 case 1, R194). -/
def Manifest.shapeCheck (m : Manifest) (p : Packet) : Option Status :=
  match m.layers[p.param 32 2]? with
  | none => some .badParam
  | some ly =>
    if ly.cls ≠ 1 ∨ (List.range 4).any (fun d => decide (ly.ndyn ≤ d) && p.dim d != 0) then some .badParam
    else if ly.shapeOver p then some .shapeOver
    else none

/-- The addresses and lengths of a RUN of a shape that is not empty are in order (R191, R194); the range at RESULT_ADDR is that of the
real output (log entry 123). -/
def State.rangeCheck (s : State) (c : Nat) (ly : Layer) (p : Packet) : Bool :=
  s.runAddrsOk c p (ly.runOut p) && p.length == ly.runIn p && decide (ly.runOut p ≤ p.param 52 4)

/-- The members that a RUN concerns (R267, R271): those that hold a part of its layer, those that its addresses name, and all where
it opens or closes a batch, which every member's swing waits for (log entry 52). -/
def State.runMembers (s : State) (q : QueueId) (p : Packet) (gen : Nat) (all : Bool) : List Nat :=
  (s.parties q .run).filter (fun d =>
    all || Config.memberHolds gen (p.param 32 2) d || d == s.addrDev p.dataAddr || d == s.addrDev p.resultAddr)

/-- A RUN with a dimension of 0 completes at once with OK_EMPTY, as part of its batch (R126 case 2). -/
def State.runEmpty (s : State) (q : QueueId) (p : Packet) (gen : Nat) (ds : List Nat) : State :=
  if ds = [] then ({ s.replyGen gen q p .okEmpty 0 0 0 with seq := s.seq + 1 } : State).settle
  else
    let cmd := { mkCmd s q p false .plain with gen := gen, parts := ds }
    ((s.launchTo ds cmd noExtra).complete cmd .okEmpty 0 0).settle

/-- RUN (R188, R194): `adopt` is the stamp that a forwarded command carries (R162, R267). -/
def effRun (adopt : Option Nat) (q : QueueId) (p : Packet) (s : State) : State :=
  let c := ctxOf q p
  let x := s.ctx c
  match adopt.or (x.stamp p.epoch) with
  | none => s.replyGen (adopt.getD 0) q p .state 0 0 0
  | some gen =>
    match x.generation gen with
    | none => s.replyGen (adopt.getD 0) q p .state 0 0 0
    | some g =>
      match g.man.shapeCheck p with
      | some st => s.replyGen (adopt.getD 0) q p st 0 0 0
      | none =>
        let ly := g.man.layer (p.param 32 2)
        let t := s.modCtx c (fun x => { x with batch := batchAfter p gen })
        let ds := s.runMembers q p gen (x.batch.isNone || p.endBatch)
        if ly.shapeEmpty p then t.runEmpty q p gen ds
        else if !s.rangeCheck c ly p then s.replyGen (adopt.getD 0) q p .badParam 0 0 0
        else
          let w := RunWork.start (p.param 32 2) ly (ly.vectors p) (ly.bucketsOf p)
          let cmd := { mkCmd s q p false (.run w) with gen := gen }
          ((t.launchTo ds cmd noExtra).benchCheck cmd.ref).settle

def execRun (q : QueueId) (s : State) : Host.Outcome State Fault Refusal := .next (s.packetRow q .run (effRun none))

/-! ## The plan (R122, R132) -/

/-- The crews that hold split `sp` of a layer in a replica, each with its twin. -/
def crewsOf (g : Generation) (idx sp rep : Nat) : List (Nat × Bool) :=
  ((g.assigns.filter (fun y => y.layer == idx && plSplit (g.man.place y.entry) == sp
    && plReplica (g.man.place y.entry) == rep)).map (fun y => (y.crew, y.second))).eraseDups

/-- B3 (R122). A member that holds no split 0 stages single vectors: tile sizes change no result. -/
def planB3 (g : Generation) (idx b : Nat) (ly : Layer) : Nat :=
  let d := match homeDie g.man g.assigns idx with
    | some h => 65536 * (((g.dbuf.find? (fun e => e.1 == h)).map (·.2)).getD 0)
    | none => 0
  max 1 (largestPow2 (fun k => k ≤ b && 2 * k * ly.inBytes ≤ d) 24)

/-- B2 (R122): the smallest B2_c over the crews that hold the layer. -/
def planB2 (g : Generation) (idx b3 : Nat) : Nat :=
  let one (k : Nat) : Nat :=
    max 1 (largestPow2 (fun t => t ≤ b3 && 2 * t * sliceSum g.man g.assigns idx k ≤ tilePagesIn g.man g.assigns idx k * 1024) 24)
  ((g.assigns.filter (fun y => y.layer == idx)).map (fun y => one y.crew)).foldl min b3

/-- G and LIMIT of a replicated RUN (R132): the smallest power of two that keeps LIMIT within 8,192. -/
def planG (n b2 : Nat) : Nat := smallestPow2 (fun g => ceilDiv (ceilDiv n b2) g ≤ 8192) 0 24
def planLimit (n b2 g : Nat) : Nat := ceilDiv (ceilDiv n b2) g

/-- The tiles of `count` vectors from `first` on: splits ascending, the crews of each (R120). -/
def tilesOf (g : Generation) (idx : Nat) (ly : Layer) (first count rep claim : Nat) : List TileId :=
  (List.range ly.splits).flatMap (fun sp =>
    (crewsOf g idx sp rep).map (fun k => ⟨k.1, sp, first, count, rep, claim, k.2⟩))

/-- The tiles `lo` to `hi - 1` of B2 vectors each. -/
def tileRun (g : Generation) (w : RunWork) (b2 lo hi rep claim : Nat) : List TileId :=
  ((List.range (min hi (ceilDiv w.n b2) - lo)).map (· + lo)).flatMap (fun i =>
    tilesOf g w.idx w.layer (i * b2) (min b2 (w.n - i * b2)) rep claim)

/-- The tiles of a claim (R133). -/
def claimTiles (g : Generation) (w : RunWork) (rep k : Nat) : List TileId :=
  tileRun g w w.b2 (k * w.g) ((k + 1) * w.g) rep k

/-- A free work-counter slot of a crew (R132): the lowest whose BUSY is clear (log entry 108). -/
def Crew.freeCounter (x : Crew) : Option Nat :=
  (List.range 32).find? (fun k => !(Memory.read x.sram (0x100 + 16 * k + 10)).getLsbD 7)

/-- The 16 bytes of a work-counter slot (R132). -/
def counterSlot (next limit : Nat) (tag : BitVec 16) (c nrep map : Nat) : List Byte :=
  leBytes 4 next ++ leBytes 4 limit ++ leBytes 2 tag.toNat ++ leBytes 1 (c + 128) ++ leBytes 1 nrep ++ leBytes 1 map ++ [0, 0, 0]

/-- Another RUN of the same layer uses the layer's one bitmap page (R134; log entry 72). -/
def State.bitmapBusy (s : State) (c : Cmd) (w : RunWork) : Bool :=
  s.cmds.any (fun d => decide (d.ref ≠ c.ref) && ctxOf d.ref.q d.pkt == ctxOf c.ref.q c.pkt && d.gen == c.gen
    && (match d.work with | .run v => v.idx == w.idx && v.slot.isSome | _ => false))

/-! ## Dispatch (R120, R126, R132, R271) -/

/-- Members other than this one that hold a part of a layer. -/
def State.holdersOf (s : State) (gen idx : Nat) : List Nat := s.others.filter (Config.memberHolds gen idx)

/-- The bytes of a vector's split slice. -/
def Layer.splitBytes (ly : Layer) (sp : Nat) : Nat := ceilDiv (ly.rows sp) 32 * blockBytes ly.xfmt

/-- The slices of some splits of a vector, ascending; and a vector of which only those are there. -/
def pickSplits (ly : Layer) (sps : List Nat) (bs : List Byte) : List Byte :=
  sps.flatMap (fun sp => slice bs (sp * ly.sliceBytes) (ly.splitBytes sp))
def spreadSplits (ly : Layer) (sps : List Nat) (bs : List Byte) : List Byte :=
  (List.range ly.splits).flatMap (fun sp =>
    if sps.contains sp then slice bs (sumNat ((sps.filter (· < sp)).map ly.splitBytes)) (ly.splitBytes sp)
    else List.replicate (ly.splitBytes sp) 0)

/-- The splits of a layer that this device holds. -/
def ownSplits (g : Generation) (idx : Nat) (ly : Layer) : List Nat :=
  (List.range ly.splits).filter (fun sp => g.assigns.any (fun y => y.layer == idx && plSplit (g.man.place y.entry) == sp))

/-- The splits of a layer that another member holds. -/
def memberSplits (gen idx : Nat) (ly : Layer) (d : Nat) : List Nat :=
  (List.range ly.splits).filter (fun sp => (List.range (max 1 ly.nrep)).any (fun rep => (List.range ly.slices).any (fun t =>
    (Config.memberCrews gen idx d rep t).any (·.contains sp))))

/-- The holder of DATA_ADDR sends every other holder of the layer its input slices, one message per vector (R271); of a
bivouac-tier layer the whole input. An error that the read meets in HBM ends the command (R223). -/
def State.sendInputs (s : State) (c : Cmd) (w : RunWork) : State :=
  let ds := s.holdersOf c.gen w.idx
  if !s.member || s.addrDev c.pkt.dataAddr ≠ s.self || ds = [] then s
  else
    let bytes (d v : Nat) : List Byte :=
      if w.layer.isArray then pickSplits w.layer (memberSplits c.gen w.idx w.layer d) (s.vectorBytes c w v) else s.layerInput c w
    let send (s : State) : State := s.each (List.range w.n) (fun s v =>
      s.each ds (fun s d => s.runMsg c 3 d (v + 1) 0 (bytes d v)))
    match s.localAddr c.pkt.dataAddr with
    | some (.work a) =>
      match s.workErr (ctxOf c.ref.q c.pkt) a c.pkt.length none with
      | some e => s.parityError c.ref e
      | none => send (s.chargeHbm (c.pkt.cls == 2) c.pkt.length)
    | _ => send s

/-- A DATA message of a RUN carries an input (R271): it comes from the device that DATA_ADDR names, among its first ones. -/
def State.isInput (s : State) (c : Cmd) (w : RunWork) (src step : Nat) : Bool :=
  src == s.addrDev c.pkt.dataAddr && decide (step ≤ w.n)

/-- Outputs that other members have still to send to this device (R271). -/
def State.dueRemote (s : State) (c : Cmd) (w : RunWork) : Nat :=
  if !s.member || s.addrDev c.pkt.resultAddr ≠ s.self then 0
  else w.n * (if w.layer.isArray then s.combinersOf c.gen w.idx else s.holdersOf c.gen w.idx).length
    - (w.arrived.filter (fun e => !s.isInput c w e.1 e.2)).length

/-- Outputs of an array layer still due at its dispatch: the slices combined here, partial words for another member,
outputs of other members. -/
def State.dueArray (s : State) (c : Cmd) (w : RunWork) (g : Generation) : Nat :=
  w.n * (combSlices g w.idx w.layer).length + (if sendsParts g w.idx then w.n else 0) + s.dueRemote c w

/-- The tiles of a RUN, by first vector and split, whose block headers the crews of this device compare (R66). -/
def headerPairs (g : Generation) (w : RunWork) : List (Nat × Nat) :=
  (List.range (ceilDiv w.n w.b2)).flatMap (fun i => (ownSplits g w.idx w.layer).map (fun sp => (i * w.b2, sp)))

/-- A dispatched array layer's work on VEs, where an adapter is applied to slices combined here (R278, R279), and its progress
counter (R138). -/
def State.plannedArray (s : State) (c : Cmd) (w : RunWork) (g : Generation) : RunWork :=
  let sls := combSlices g w.idx w.layer
  { w with
    shape := if w.adapter && !sls.isEmpty then s.adapterShape c w g else VeShape.none
    counter := if sls.isEmpty then none else s.freeCounterOn (combDie g w.idx) }

/-- Dispatch of an array layer: the plan; the tiles, or the work counter of a replicated layer. None while it must wait for a
slot or for the bitmap (R132). -/
def State.dispatchArray (s : State) (c : Cmd) (w : RunWork) (g : Generation) : Option State :=
  let b3 := planB3 g w.idx w.bucket w.layer
  let b2 := planB2 g w.idx b3
  let cx := ctxOf c.ref.q c.pkt
  let w := { w with
    dispatched := true, b3 := b3, b2 := b2, due := s.dueArray c w g, adapter := s.adapterOn cx g w.idx
    remote := s.member && s.addrDev c.pkt.dataAddr != s.self }
  let w := s.plannedArray c { w with unchecked := headerPairs g w } g
  let s := s.clearCounter w.counter
  if w.layer.nrep ≤ 1 then
    some (((s.updRun c.ref (fun _ => { w with toSend := tileRun g w b2 0 (ceilDiv w.n b2) 0 0 })).sendInputs c w).feed)
  else
    match homeCrew g.man g.assigns w.idx, (g.maps.find? (fun e => e.1 == w.idx)).map (·.2) with
    | some home, some page =>
      match (s.crew home).freeCounter with
      | none => none
      | some k =>
        if s.bitmapBusy c w then none
        else
          let gg := planG w.n b2
          let limit := planLimit w.n b2 gg
          let s := s.modCrew home (fun x => { x with
            sram := Memory.writeBytes (Memory.writeBytes x.sram (0x400 * page) (List.replicate 1024 0)) (0x100 + 16 * k)
              (counterSlot 0 limit c.ref.tag cx w.layer.nrep page) })
          let w := { w with g := gg, limit := limit, slot := some (home, k) }
          some (((s.updRun c.ref (fun _ => w)).sendInputs c w).feed)
    | _, _ => some ((s.updRun c.ref (fun _ => w)).sendInputs c w)

/-- The VEs that work on a bivouac-tier layer: some of one powered die, which the spec leaves to the Cox (log entry 18). -/
def State.layerVes (s : State) : List Nat :=
  match (List.range 4).filter (diePowered s.env.env) with
  | [] => []
  | ds => (List.range (1 + Config.freeVe (s.free + 1) % 8)).map (· + 8 * ds.getD (Config.freeVe s.free % ds.length) 0)

/-- This device runs a bivouac-tier layer: its manifest lists shards of it. -/
def Layer.bivHere (ly : Layer) : Bool := ly.nshard != 0

/-- A format that no tensor in HBM or crew SRAM may have: FP32, or a reserved code (R50). -/
def badFormat (f : Nat) : Bool := f == 8 || 11 ≤ f

/-- A RUN writes some of the `n` bytes of working space from `a` on. -/
def State.writesTo (s : State) (a n : Nat) (d : Cmd) : Bool :=
  match d.work, s.outHbm d with
  | .run v, some b => v.trim.isNone && decide (b < a + n) && decide (a < b + v.layer.runOut d.pkt)
  | _, _ => false

/-- The RUNs in flight, accepted before a command, that write to working space what it reads. -/
def State.writersOf (s : State) (c : Cmd) (w : RunWork) : List Cmd :=
  match s.inputHbm c w 0 with
  | some (_, a) => s.cmds.filter (fun d => decide (d.seq < c.seq) && !d.ended && decide (qCtx d.ref.q = qCtx c.ref.q)
      && s.writesTo a c.pkt.length d)
  | none => []

/-- The counter of a dispatched RUN, and its value when all of the output has been written: a signal for every slice of every vector of
an array layer, for every VE's part and the write to HBM of a bivouac-tier one (R138). None where another member writes too. -/
def State.signalsOf (s : State) (d : Cmd) : Option (Nat × Nat) :=
  match d.work, s.runGen d with
  | .run v, some g =>
    if s.member || !v.dispatched then none
    else v.counter.map (fun k => (k, if v.layer.isArray then v.n * (combSlices g v.idx v.layer).length else v.shape.ves.length + 1))
  | _, _ => none

/-- What the descriptors of a bivouac-tier layer wait for before they fetch its input (R138): the counter of the RUN that writes it.
None while the layer is not dispatched: more than one RUN writes it, or one that has no counter yet (log entry 49). -/
def State.waitOf (s : State) (c : Cmd) (w : RunWork) : Option (Option (Nat × Nat)) :=
  match s.writersOf c w with
  | [] => some none
  | [d] => (s.signalsOf d).map some
  | _ => none

/-- The work of a bivouac-tier layer on VEs: each takes a part of the input, all share the weights (R131). -/
def layerShape (c : Cmd) (w : RunWork) (g : Generation) (vs : List Nat) : VeShape := ⟨vs, 0, c.pkt.length, layerBytes g w.idx, 1⟩

/-- Dispatch of a bivouac-tier layer on its VEs (log entry 17). None while it must wait for the RUN whose output it reads. A descriptor
that would name FP32 is rejected with BAD_PARAM (R50). -/
def State.dispatchBivouac (s : State) (c : Cmd) (w : RunWork) (g : Generation) : Option State :=
  let vs := s.layerVes
  let w := { w with
    dispatched := true, due := s.dueRemote c w, remote := s.member && s.addrDev c.pkt.dataAddr != s.self }
  if !w.layer.bivHere then some ((s.updRun c.ref (fun _ => w)).sendInputs c w)
  else if (Config.veFormats w.layer.raw).any badFormat then some (s.failCmd c.ref .badParam)
  else
    match s.waitOf c w with
    | none => none
    | some wait =>
      if vs = [] then none
      else
        let w := { w with
          due := w.due + 1, shape := layerShape c w g vs, counter := s.freeCounterOn (vs.headD 0 / 8), waitFor := wait }
        let t := { s.clearCounter w.counter with free := s.free + 2 }
        some (((t.updRun c.ref (fun _ => w)).sendInputs c w).feed)

/-- A dispatch reads the inputs that it sends to other members from working space (R271). -/
def State.sendsHbm (s : State) (c : Cmd) (w : RunWork) : Bool :=
  s.member && s.addrDev c.pkt.dataAddr == s.self && (s.localAddr c.pkt.dataAddr).any Addr.isWork && !(s.holdersOf c.gen w.idx).isEmpty

/-- RUN_DISPATCH (R120, R122, R126, R132); it waits for the tokens of inputs that it sends (R304). -/
def execRunDispatch (r : CmdRef) (s : State) : Host.Outcome State Fault Refusal :=
  match s.cmd? r with
  | none => .next s
  | some c =>
    match c.work, s.runGen c with
    | .run w, some g =>
      if w.dispatched || w.trim.isSome || c.ended || s.dev.st ≠ .active then .next s
      else if s.sendsHbm c w && !s.hbmOpen (c.pkt.cls == 2) then .next (s.hbmWait (c.pkt.cls == 2))
      else .next ((if w.layer.isArray then s.dispatchArray c w g else s.dispatchBivouac c w g).getD s)
    | _, _ => .next s

/-! ## Tiles (R66, R118, R119, R124) -/

/-- The input of every vector of a tile is there. -/
def RunWork.hasInputs (w : RunWork) (t : TileId) : Bool :=
  !w.remote || (List.range t.count).all (fun i => w.inputs.any (fun e => e.1 == t.first + i))

/-- Vectors' slices of a layer that a crew holds. -/
def State.tilesHeld (s : State) (c : Cmd) (idx crew : Nat) : Nat :=
  ((s.crew crew).tiles.filter (fun t =>
    match s.cmd? t.ref with
    | some d => d.gen == c.gen && decide (qCtx d.ref.q = qCtx c.ref.q)
        && (match d.work with | .run v => v.idx == idx | _ => false)
    | none => false)).length

/-- The crew's tile pages of the layer take the tile. -/
def State.tileRoom (s : State) (c : Cmd) (w : RunWork) (g : Generation) (t : TileId) : Bool :=
  decide ((s.tilesHeld c w.idx t.crew + t.count) * w.layer.sliceBytes ≤ tilePagesIn g.man g.assigns w.idx t.crew * 1024)

/-- Where the input vectors of a RUN lie in working space of this device; none where they come from elsewhere. -/
def State.inputOfs (s : State) (c : Cmd) (w : RunWork) : Option Nat :=
  match s.localAddr c.pkt.dataAddr with
  | some (.work a) => if w.remote then none else some a
  | _ => none

/-- The vectors of a tile's T3 tile that are not in the die buffer yet (R119, R120). Vectors from another device, of the front end
and of a training step reach the crews without a T3 tile, and so do those of a device that holds no split 0. -/
def t3Need (g : Generation) (w : RunWork) (t : TileId) : List Nat :=
  if w.remote || (homeDie g.man g.assigns w.idx).isNone then []
  else
    let b := t.first / max 1 w.b3 * w.b3
    ((List.range (min w.b3 (w.n - b))).map (· + b)).filter (fun v => !w.t3.any (fun e => e.1 == v))

/-- Bytes of T3 tiles of a generation's RUNs in the array-side staging of one home die. -/
def State.t3Used (s : State) (c : Cmd) (g : Generation) (die : Option Nat) : Nat :=
  sumNat (s.cmds.map (fun d => match d.work with
    | .run w =>
      if !d.ended && d.gen == c.gen && decide (qCtx d.ref.q = qCtx c.ref.q) && decide (homeDie g.man g.assigns w.idx = die)
      then sumNat (w.t3.map (fun e => e.2.length)) else 0
    | _ => 0))

/-- The context's share of the home die takes the vectors of a T3 tile (R120). -/
def State.t3Room (s : State) (c : Cmd) (w : RunWork) (g : Generation) (vs : List Nat) : Bool :=
  let die := homeDie g.man g.assigns w.idx
  let share := 65536 * (((g.dbuf.find? (fun e => some e.1 == die)).map (·.2)).getD 0)
  vs.isEmpty || s.t3Used c g die + vs.length * w.layer.inBytes ≤ share

/-- The ranges of working space that are read when a tile arrives: those of its T3 tile, or without one its own slices, once for the
crews of its split (R131). -/
def State.tileReads (s : State) (c : Cmd) (w : RunWork) (g : Generation) (t : TileId) : List (Nat × Nat) :=
  match s.inputOfs c w with
  | none => []
  | some a =>
    if (homeDie g.man g.assigns w.idx).isSome then (t3Need g w t).map (fun v => (a + v * w.layer.inBytes, w.layer.inBytes))
    else if ((crewsOf g w.idx t.split t.rep).map (·.1)).head? = some t.crew then
      (List.range t.count).map (fun i =>
        (a + (t.first + i) * w.layer.inBytes + t.split * w.layer.sliceBytes, w.layer.splitBytes t.split))
    else []

/-- The T3 tile of a tile is in the die buffer. -/
def State.stageT3 (s : State) (c : Cmd) (w : RunWork) (g : Generation) (t : TileId) : RunWork :=
  { w with t3 := w.t3 ++ (t3Need g w t).map (fun v => (v, s.vectorBytes c w v)) }

/-- A vector still has tiles to be cut from its T3 tile: tiles not delivered, or claims not given out. -/
def RunWork.needsT3 (w : RunWork) (next v : Nat) : Bool :=
  w.toSend.any (fun t => t.first ≤ v && v < t.first + t.count) || (w.slot.isSome && next ≤ v / max 1 (w.g * w.b2))

/-- T3 tiles are released when the last T2 tile cut from them has been delivered (R119). -/
def State.dropT3 (s : State) (r : CmdRef) (next : Nat) : State :=
  s.updRun r (fun w => { w with t3 := w.t3.filter (fun e =>
    let b := e.1 / max 1 w.b3 * w.b3
    (List.range (min w.b3 (w.n - b))).any (fun i => w.needsT3 next (b + i))) })

/-- The blocks of one split of a vector. -/
def State.splitBlocks (s : State) (c : Cmd) (w : RunWork) (sp v : Nat) : List (Nat × Nat × List Nat) :=
  cutBlocks w.layer.xfmt (ceilDiv (w.layer.rows sp) 32) ((s.vectorBytes c w v).drop (sp * w.layer.sliceBytes))

/-- Every block header of a tile is that of the numerics descriptor (R66). -/
def State.headersOk (s : State) (c : Cmd) (w : RunWork) (t : TileId) : Bool :=
  (List.range t.count).all (fun i =>
    (s.splitBlocks c w t.split (t.first + i)).all (fun b => b.1 == w.layer.exByte && b.2.1 == w.layer.zx))

/-- The arrays of a crew that stroke a split of a layer: on a reserved crew not the present standby arrays (R207). -/
def State.strokeArrs (s : State) (w : RunWork) (g : Generation) (crew sp rep : Nat) : List Assign :=
  g.assigns.filter (fun y => y.layer == w.idx && y.crew == crew && plSplit (g.man.place y.entry) == sp
    && plReplica (g.man.place y.entry) == rep
    && (match (s.crew crew).resv with | some r => !r.standby.getLsbD y.l | none => true))

/-- What a tile's flits find at an array (R118, R124). -/
inductive Bound where
  | ok
  | stale
  | mismatch
deriving DecidableEq, Repr

/-- What a tile of a command finds at an array: its stamp on the ground plane; a generation of its context older than the ground
plane's; or a newer one, on the fly plane, for whose swing the tile waits. -/
def State.boundTo (s : State) (c : Cmd) (y : Assign) : Bound :=
  let a := s.physArr y.crew y.l
  let gb := s.groundBinding a
  let fb := (s.crew y.crew).binding y.l (!(s.arr a).ground)
  let mine (b : List Byte) : Bool := bndValid b && decide (qCtx c.ref.q = some (bndCtx b))
  if mine gb && bndGen gb == c.gen then .ok
  else if mine gb && genLater (bndGen gb) c.gen then .stale
  else if mine fb && bndGen fb == c.gen then .ok
  else .mismatch

/-- A stale tile (R124). -/
def State.staleTile (s : State) (c : Cmd) (y : Assign) : State :=
  let b := s.groundBinding (s.physArr y.crew y.l)
  (s.emit 0x06 { ctx := qCtx c.ref.q, tag := some c.ref.tag.toNat, status := some 0x20, loc := [crewDie y.crew, y.crew, y.l]
                 data := leBytes 2 c.gen ++ leBytes 2 (bndGen b) }).failCmd c.ref .checkFail

/-- A binding mismatch (R118): the signature carries the header of a flit on the chip, which no rule lays out (log entry
73). -/
def State.unboundTile (s : State) (c : Cmd) (y : Assign) : State :=
  let hdr := (List.range 32).map (fun i => Config.freeByte i s.free)
  ({ s with free := s.free + 1 }.emit 0x05
    { ctx := qCtx c.ref.q, tag := some c.ref.tag.toNat, status := some 0x22, loc := [crewDie y.crew, y.crew, y.l]
      data := hdr }).failCmd c.ref .parity

/-- The job of a vector on an array: its strokes, high nibble first (R31, R34). -/
def jobFor (c : Cmd) (ly : Layer) (v sl : Nat) (t : TileId) : Job :=
  let f := foldOf (bitsOf ly.foldByte 4 2)
  { ref := c.ref, vec := v, split := t.split, slice := sl, rep := t.rep, second := t.second, stern := c.pkt.cls == 2
    gen := c.gen, eight := ly.x8, todo := (if ly.x8 then nibReqs true f false else []) ++ nibReqs false f false
    hi := ⟨f, f, [], []⟩, lo := ⟨f, f, [], []⟩, started := false, patches := [], patches2 := [] }

/-- A vector's slice enters crew SRAM, with a job on every array that shares it. -/
def State.placeVector (s : State) (c : Cmd) (w : RunWork) (g : Generation) (t : TileId) (ys : List Assign) (v : Nat) : State :=
  let codes := (((s.splitBlocks c w t.split v).flatMap (fun (b : Nat × Nat × List Nat) => b.2.2)).take (w.layer.rows t.split) ++ List.replicate 512 0).take 512
  let tv : TileVec :=
    { ref := c.ref, gen := c.gen, second := t.second, split := t.split, first := t.first, vec := v, rep := t.rep, codes := codes
      left := ys.map (fun y => s.physArr y.crew y.l % 17) }
  let s := s.modCrew t.crew (fun x => { x with tiles := x.tiles ++ [tv] })
  s.each ys (fun s y => s.modArr (s.physArr y.crew y.l) (fun x => { x with
    jobs := x.jobs ++ [jobFor c w.layer v (plSlice (g.man.place y.entry)) t] }))

/-- A tile in crew SRAM: the bindings, the headers, then its vectors in ascending order. -/
def State.takeTile (s : State) (c : Cmd) (w : RunWork) (g : Generation) (t : TileId) : State :=
  let ys := s.strokeArrs w g t.crew t.split t.rep
  match ys.find? (fun y => s.boundTo c y = .mismatch), ys.find? (fun y => s.boundTo c y = .stale) with
  | some y, _ => s.unboundTile c y
  | none, some y => s.staleTile c y
  | none, none =>
    if !s.headersOk c w t then s.failCmd c.ref .badParam
    else (s.each ((List.range t.count).map (· + t.first)) (fun s v => s.placeVector c w g t ys v)).headersPassed c.ref t

/-- The next claim of a RUN's work counter that is not given out; 0 where it has none. -/
def State.nextClaim (s : State) (home k : Nat) : Nat := field (Memory.readBytes (s.crew home).sram (0x100 + 16 * k) 4) 0 4 % 2 ^ 28
def State.claimNext (s : State) (w : RunWork) : Nat := w.slot.elim 0 (fun e => s.nextClaim e.1 e.2)

/-- A tile leaves the die buffer for its crew. -/
def State.deliverTile (s : State) (c : Cmd) (w : RunWork) (g : Generation) (t : TileId) : State :=
  let w := { s.stageT3 c w g t with toSend := w.toSend.erase t }
  ((s.updRun c.ref (fun _ => w)).takeTile c w g t).dropT3 c.ref (s.claimNext w)

/-- TILE_ARRIVAL (R66, R118, R119, R124, R223): the next tile of a command for a crew reaches it; `err` is a parity error
found in its flits. -/
def execTileArrival (r : CmdRef) (crew : Fin 256) (err : Option ParityErr) (s : State) : Host.Outcome State Fault Refusal :=
  match s.cmd? r with
  | none => .next s
  | some c =>
    match c.work, s.runGen c with
    | .run w, some g =>
      match w.toSend.find? (fun t => t.crew == crew.val) with
      | none => .next s
      | some t =>
        if c.ended || (s.crew crew.val).benched || s.dev.st ≠ .active || !w.hasInputs t || !s.tileRoom c w g t
            || !s.t3Room c w g (t3Need g w t) then .next s
        else
          let cx := ctxOf c.ref.q c.pkt
          let rs := s.tileReads c w g t
          let d := s.drawHbm (c.pkt.cls == 2) (sumNat (rs.map (·.2)))
          let s := d.1
          if !d.2 then .next s
          else
            match s.readErr cx rs, err with
            | some e, _ => .next (s.parityError r e).settle
            | none, some e => .next ((s.noteReads cx rs e).parityError r e).settle
            | none, none => .next (s.deliverTile c w g t).settle
    | _, _ => .next s

/-! ## Claims (R132 to R135, R233, R234) -/

/-- Add 1 to NEXT. -/
def State.addClaim (s : State) (home k : Nat) : State :=
  s.modCrew home (fun x => { x with
    sram := Memory.writeBytes x.sram (0x100 + 16 * k) (leBytes 4 (s.nextClaim home k + 1)) })

/-- The replica has a crew out of service. -/
def State.repBenched (s : State) (g : Generation) (idx rep : Nat) : Bool :=
  g.assigns.any (fun y => y.layer == idx && plReplica (g.man.place y.entry) == rep && (s.crew y.crew).benched)

/-- The replica has issued all strokes of the tiles it claimed. -/
def State.repIdle (s : State) (c : Cmd) (w : RunWork) (g : Generation) (rep : Nat) : Bool :=
  !w.toSend.any (fun t => t.rep == rep)
  && (g.assigns.filter (fun y => y.layer == w.idx && plReplica (g.man.place y.entry) == rep)).all (fun y =>
    (s.arr (s.physArr y.crew y.l)).jobs.all (fun j => !(decide (j.ref = c.ref) && !j.todo.isEmpty)))

/-- CLAIM_FETCH_ADD (R133): a replica that is free for more claims the next tiles, or stops at LIMIT. -/
def execClaimFetchAdd (r : CmdRef) (rep : Fin 16) (s : State) : Host.Outcome State Fault Refusal :=
  match s.cmd? r with
  | none => .next s
  | some c =>
    match c.work, s.runGen c with
    | .run w, some g =>
      match w.slot with
      | none => .next s
      | some (home, k) =>
        if c.ended || w.layer.nrep ≤ rep.val || w.stopped.contains rep.val || s.repBenched g w.idx rep.val
            || !s.repIdle c w g rep.val then .next s
        else
          let v := s.nextClaim home k
          let s := s.addClaim home k
          if w.limit ≤ v then .next (s.updRun r (fun w => { w with stopped := w.stopped ++ [rep.val] })).settle
          else .next (s.updRun r (fun w => { w with
            claims := w.claims ++ [(rep.val, v)], toSend := w.toSend ++ claimTiles g w rep.val v }))
    | _, _ => .next s

/-- The vectors of a claim. -/
def claimVecs (w : RunWork) (k : Nat) : List Nat :=
  (List.range (min w.n ((k + 1) * w.g * w.b2) - k * w.g * w.b2)).map (· + k * w.g * w.b2)

/-- All results of a claim of a replica have reached the home crew. -/
def RunWork.claimIn (w : RunWork) (g : Generation) (rep k : Nat) : Bool :=
  (claimVecs w k).all (fun v => (combSlices g w.idx w.layer).all (fun t =>
    w.held.any (fun o => o.vec == v && o.slice == t && o.rep == rep)))

/-- The outputs held of a replica's claim. -/
def RunWork.ofClaim (w : RunWork) (rep k : Nat) (o : OutBlock) : Bool := o.rep == rep && (claimVecs w k).contains o.vec

/-- A claim is in the bitmap. -/
def State.claimSet (s : State) (home page k : Nat) : Bool :=
  (Memory.read (s.crew home).sram (0x400 * page + k / 8)).getLsbD (k % 8)

/-- Accept a claim's results: its bit is set, and they go to the destination. -/
def State.acceptClaim (s : State) (c : Cmd) (w : RunWork) (home page rep k : Nat) : State :=
  let a := 0x400 * page + k / 8
  let s := s.modCrew home (fun x => { x with
    sram := Memory.write x.sram a (Memory.read x.sram a ||| BitVec.ofNat 8 (2 ^ (k % 8))) })
  let s := s.updRun c.ref (fun w => { w with
    held := w.held.filter (fun o => !w.ofClaim rep k o), claims := w.claims.erase (rep, k), taken := w.taken ++ [(k, rep)] })
  s.each (w.held.filter (w.ofClaim rep k)) (fun s o =>
    match s.cmd? c.ref with
    | some d => s.writeOut d o
    | none => s)

/-- Results for a claim that is accepted already (R134). -/
def State.dupClaim (s : State) (c : Cmd) (home rep k first : Nat) : State :=
  let s := s.modCrew home (fun x => { x with dup := true, dupn := BitVec.ofNat 8 (satAdd 8 x.dupn.toNat 1) })
  let s := s.emit 0x07
    { ctx := qCtx c.ref.q, tag := some c.ref.tag.toNat, loc := [crewDie home, home]
      data := leBytes 4 (claimTag first k) ++ leBytes 4 (claimTag rep k) }
  s.updRun c.ref (fun w => { w with
    held := w.held.filter (fun o => !w.ofClaim rep k o), claims := w.claims.erase (rep, k) })

/-- CLAIM_RESULTS_ARRIVAL (R134): the results with a claim tag reach the home crew's combiner; `err` is an error found in their flits,
which ends the command (R222, R223). -/
def execClaimResultsArrival : Checked CmdRef → Dword → State → Host.Outcome State Fault Refusal
  | ⟨r, err⟩, tag, s =>
  let rep := tag.toNat / 2 ^ 28
  let k := tag.toNat % 2 ^ 28
  match s.cmd? r with
  | none => .next s
  | some c =>
    match c.work, s.runGen c with
    | .run w, some g =>
      match w.slot, (g.maps.find? (fun e => e.1 == w.idx)).map (·.2) with
      | some (home, _), some page =>
        if c.ended || !w.claims.contains (rep, k) || !w.claimIn g rep k then .next s
        else
          match err, w.taken.find? (fun e => e.1 == k) with
          | some e, _ => .next (s.parityError r e).settle
          | none, some e => .next (s.dupClaim c home rep k e.2)
          | none, none => .next (s.acceptClaim c w home page rep k).settle
      | _, _ => .next s
    | _, _ => .next s

/-- CLAIM_RECOVERY (R134): NEXT has reached LIMIT and every replica has drained or is benched; the home crew takes the claims
whose bit is clear, as replica 0. -/
def execClaimRecovery (r : CmdRef) (s : State) : Host.Outcome State Fault Refusal :=
  match s.cmd? r with
  | none => .next s
  | some c =>
    match c.work, s.runGen c with
    | .run w, some g =>
      match w.slot, (g.maps.find? (fun e => e.1 == w.idx)).map (·.2) with
      | some (home, k), some page =>
        let clear := (List.range w.limit).filter (fun i => !s.claimSet home page i && !w.claims.contains (0, i))
        let drained (rep : Nat) : Bool :=
          s.repBenched g w.idx rep || (w.stopped.contains rep && !w.claims.any (fun e => e.1 == rep))
        if c.ended || s.nextClaim home k < w.limit || !(List.range w.layer.nrep).all drained || clear.isEmpty then .next s
        else
          .next (s.each clear (fun s i =>
            let s := s.modCrew home (fun x => { x with recov := BitVec.ofNat 8 (satAdd 8 x.recov.toNat 1) })
            let old := ((w.claims.find? (fun e => e.2 == i)).map (·.1)).getD 0
            let s := s.emit 0x08
              { ctx := qCtx c.ref.q, tag := some c.ref.tag.toNat, loc := [crewDie home, home], data := leBytes 4 (claimTag old i) }
            s.updRun r (fun w => { w with
              claims := w.claims ++ [(0, i)]
              toSend := w.toSend.filter (fun t => !(t.claim == i && t.rep != 0)) ++ claimTiles g w 0 i })))
      | _, _ => .next s
    | _, _ => .next s

/-- CLAIM_WATCHDOG_EXPIRY (R233 cause 1): a replica has not delivered a claim in time; its crews are benched. -/
def execClaimWatchdogExpiry (r : CmdRef) (rep : Fin 16) (s : State) : Host.Outcome State Fault Refusal :=
  match s.cmd? r with
  | none => .next s
  | some c =>
    match c.work, s.runGen c with
    | .run w, some g =>
      if c.ended || !w.claims.any (fun e => e.1 == rep.val) then .next s
      else
        .next ((s.each (((g.assigns.filter (fun y => y.layer == w.idx && plReplica (g.man.place y.entry) == rep.val)).map
          (·.crew)).eraseDups) (fun s k => s.bench k 1)).settle)
    | _, _ => .next s

/-- Work waits on an array: strokes, replays, or verify and maintenance slots. -/
def Arr.waits (x : Arr) : Bool :=
  x.stroking || x.pitchWaits || (x.refresh && !x.maint.rows.isEmpty) || (x.census && x.maint.censusRow < 512)

/-- Work waits in a crew. -/
def State.crewWaiting (s : State) (crew : Nat) : Bool := (List.range 17).any (fun m => (s.arr (arrIdx crew m)).waits)

/-- SEQUENCER_STALL_TIMEOUT (R233 cause 4). -/
def execSequencerStallTimeout (crew : Fin 256) (s : State) : Host.Outcome State Fault Refusal :=
  .next (if s.crewUp crew.val && s.crewWaiting crew.val then (s.bench crew.val 4).settle else s)

/-! ## Completion (R121, R134, R231, R271) -/

/-- Output messages of a command that no receiver has acknowledged. -/
def State.unacked (s : State) (c : Cmd) (w : RunWork) : Bool :=
  s.group.held.any (fun m => (m.kind == 3 || m.kind == 4) && decide (m.tag = c.ref.tag) && m.ctxcls.toNat == c.pkt.ctxcls
    && decide (s.partStep c w ≤ m.step))

/-- A RUN or RUN_BOW has ended: failed, or every output is where it belongs. -/
def State.runEnded (s : State) (c : Cmd) (w : RunWork) : Bool :=
  c.ended || (w.dispatched && w.due == 0 && !s.unacked c w
    && !(List.range 32).any (fun v => (s.ve v).writes.any (fun e => decide (e.1 = c.ref))))

/-- A RUN's counter is free: what still waits for it, because the RUN has failed, waits no longer. -/
def Cmd.unwait (k : Nat) (c : Cmd) : Cmd :=
  match c.work with
  | .run w => if w.waitFor.any (fun e => e.1 == k) then { c with work := .run { w with waitFor := none } } else c
  | _ => c
def Ve.unwait (k : Nat) (v : Ve) : Ve :=
  { v with ring := v.ring.map (fun d => if d.wait.any (fun e => e.1 == k) then { d with wait := none } else d) }
def State.unwait (s : State) (k : Option Nat) : State :=
  match k with
  | none => s
  | some k => ({ s with cmds := s.cmds.map (Cmd.unwait k) } : State).each (List.range 32) (fun s v => s.modVe v (Ve.unwait k))

/-- Complete a RUN or RUN_BOW: its slot and its work are freed. -/
def State.endRun (s : State) (c : Cmd) (w : RunWork) : State :=
  let s := ((s.freeSlot w).purge c.ref).spoil c c.outcome
  ((s.complete c c.outcome c.written (min 0xFFFF c.replays)).unwait w.counter).feed.settle

/-- A parity error found before a command completes: in its packet in the front end's buffers, or in its output in the egress buffers
(R222, R223). -/
def State.lateError (s : State) (r : CmdRef) (err : Option ParityErr) : State := err.elim s (fun e => s.parityError r e)

/-- RUN_COMPLETE (R121). -/
def execRunComplete : Checked CmdRef → State → Host.Outcome State Fault Refusal
  | ⟨r, err⟩, s =>
    match s.cmd? r with
    | none => .next s
    | some c =>
      match c.work with
      | .run w =>
        if w.layer.isBow || w.trim.isSome || c.localEnd.isSome || !s.runEnded c w then .next s
        else
          let s := s.lateError r err
          .next (s.endRun ((s.cmd? r).getD c) w)
      | _ => .next s

end Sys2Proof.Machine
end

