-- ==== Sys2Proof/Machine/Bow.lean ====
section
/-! DEFINITION. The bow class (R195, R205 to R212, R230, R233): RUN_BOW, the comparison of the twins, roles and timeouts. -/
namespace Sys2Proof.Machine

/-! ## RUN_BOW (R123, R162, R195) -/

/-- The bow table's W of a layer. -/
def State.bowWin (s : State) (c gen idx : Nat) : F32 :=
  ((s.bowW.find? (fun x => x.1 == c && x.2.1 == gen && x.2.2.1 == idx)).map (·.2.2.2)).getD 0

/-- Elements of a block as twins compare them: 32 (R211). -/
def blockLen (ly : Layer) : Nat := if fmtBlocked ly.yfmt then blockBytes ly.yfmt else 64

/-- Output blocks of one vector. -/
def bowBlocks (ly : Layer) : Nat :=
  sumNat ((List.range ly.slices).map (fun t => ceilDiv (tensorBytes ly.yfmt (ly.sliceCols t)) (blockLen ly)))

/-- The checks of the front end (R191, R195): the layer and its length, the extension entries, the capacity. -/
def State.bowLayer (s : State) (c : Nat) (g : Generation) (p : Packet) : Option Layer :=
  match g.man.layers[p.param 32 2]? with
  | none => none
  | some ly =>
    let e := p.param 34 1
    let host : Bool := match addrOf p.resultAddr with | some x => x.isHost && s.rangeOk c x ly.outBytes | none => false
    if ly.isBow && g.assigns.any (fun y => y.layer == p.param 32 2) && 1 ≤ e && e ≤ 32 && p.length == ly.inBytes
        && 64 * (e - 1) < p.length && p.length ≤ 64 * e && p.dataAddr == 0 && host && ly.outBytes ≤ p.param 36 4 then some ly
    else none

/-- The tiles of a RUN_BOW: the vector goes to both crews (R123). -/
def bowTiles (g : Generation) (idx : Nat) (ly : Layer) : List TileId := tilesOf g idx ly 0 1 0 0

/-- RUN_BOW (R195): the front end admits, stamps and dispatches the command. -/
def effRunBow (q : QueueId) (p : Packet) (s : State) : State :=
  let c := ctxOf q p
  match (s.ctx c).generation (s.ctx c).adm with
  | none => s.reply q p .state 0 0 0
  | some g =>
    match s.bowLayer c g p with
    | none => s.reply q p .badParam 0 0 0
    | some ly =>
      let idx := p.param 32 2
      let w := { RunWork.start idx ly 1 [] with
        dispatched := true, b3 := 1, b2 := 1, toSend := bowTiles g idx ly, due := bowBlocks ly
        inputs := [(0, p.ext.take p.length)], remote := true, winW := s.bowWin c g.gen idx }
      let cmd := { mkCmd s q p false (.run w) with gen := g.gen }
      ((s.enrol cmd).benchCheck cmd.ref).settle

def execRunBow (q : QueueId) (s : State) : Host.Outcome State Fault Refusal := .next (s.packetRow q .runBow effRunBow)

/-! ## Twin agreement (R211, R212, R230) -/

/-- The spacing of YFMT at a magnitude (R211). -/
def spacing (ly : Layer) (m : Rat) : Rat :=
  let ulp (f : FFmt) (m : Rat) : Rat :=
    pow2 ((if m = 0 then 1 - (f.bias : Int) else max (log2Q m) (1 - f.bias)) - f.mb)
  if fmtInt ly.yfmt then pow2 ly.ey
  else if ly.yfmt = 6 then ulp fmtBF16 m
  else if ly.yfmt = 7 then ulp fmtFP16 m
  else pow2 ly.ey * ulp fmtE4M3 (m / pow2 ly.ey)

/-- Two output elements agree (R211): an infinity agrees with the same infinity alone, whatever W is (log entry 62). -/
def agree (ly : Layer) (w : F32) (a b : FV) : Bool :=
  match a, b with
  | .inf m, .inf n => m == n
  | .fin _ x, .fin _ y =>
    let u := spacing ly (maxQ (absQ x) (absQ y))
    f32Le (f32Rat (absQ (x - y))) (f32Add w (f32Rat u))
  | _, _ => false

/-- The real values of a block's elements (R55, R211). -/
def blockVals (ly : Layer) (bs : List Byte) : List FV :=
  if fmtBlocked ly.yfmt then
    (unpackElems ly.yfmt (bs.drop 2)).map (elemVal ly.yfmt ly.ey ly.zy)
  else (List.range (bs.length / 2)).map (fun i => elemVal ly.yfmt ly.ey ly.zy (field bs (2 * i) 2))

/-- The first element in which two copies of a block disagree. -/
def firstDisagree (ly : Layer) (w : F32) (a b : List Byte) : Option (Nat × FV × FV) :=
  (((blockVals ly a).zip (blockVals ly b)).zipIdx.map (fun e => (e.2, e.1.1, e.1.2))).find? (fun e => !agree ly w e.2.1 e.2.2)

/-- A disagreement (R230): signature, census of the layer's arrays in both crews ahead of others, CHECK_FAIL. -/
def State.disagree (s : State) (c : Cmd) (w : RunWork) (g : Generation) (o : OutBlock) (e : Nat × FV × FV) : State :=
  let i := w.layer.cols * o.slice + (o.off - w.layer.sliceOfs o.slice) / blockLen w.layer * 32 + e.1
  let s := s.emit 0x04
    { ctx := qCtx c.ref.q, tag := some c.ref.tag.toNat, status := some 0x20
      data := leBytes 4 i ++ leBytes 4 (f32Of e.2.1).toNat ++ leBytes 4 (f32Of e.2.2).toNat ++ leBytes 4 w.winW.toNat }
  (s.each (s.layerArrs g w.idx) State.urgentCensus).failCmd c.ref .checkFail

def OutBlock.sameBlock (a b : OutBlock) : Bool := a.slice == b.slice && a.off == b.off

/-- Compare a block with the other twin's copy, once both are there: agreed blocks are due no longer. -/
def State.compareTwins (s : State) (c : Cmd) (w : RunWork) (g : Generation) (o : OutBlock) : State :=
  match w.arr0.find? (OutBlock.sameBlock o), w.arr1.find? (OutBlock.sameBlock o) with
  | some a, some b =>
    match firstDisagree w.layer w.winW a.bytes b.bytes with
    | some e => s.disagree c w g o e
    | none => s.updRun c.ref (fun w => { w with agreed := w.agreed ++ [a], due := w.due - 1 })
  | _, _ => s

/-- TWIN_BLOCK_ARRIVAL (R211): the next block of a twin reaches the front end. `err` is a parity error found on its way, or in the
bow table (R222, R223). -/
def execTwinBlockArrival : Checked CmdRef → Bool → State → Host.Outcome State Fault Refusal
  | ⟨r, err⟩, second, s =>
    match s.cmd? r with
    | none => .next s
    | some c =>
      match c.work, s.runGen c with
      | .run w, some g =>
        match (if second then w.fly1 else w.fly0) with
        | [] => .next s
        | o :: t =>
          if c.ended then .next s
          else if err.isSome then .next (s.lateError r err).settle
          else
            let w := if second then { w with fly1 := t, arr1 := w.arr1 ++ [o] } else { w with fly0 := t, arr0 := w.arr0 ++ [o] }
            .next (((s.updRun r (fun _ => w)).compareTwins c w g o).settle)
      | _, _ => .next s

/-- The agreed blocks of the twin on the lower-numbered crew go to egress (R212). -/
def State.releaseBlocks (s : State) (c : Cmd) (w : RunWork) : State :=
  match addrOf c.pkt.resultAddr with
  | some (.host a) => s.each w.agreed (fun s o =>
      (s.writeHost (a + o.off) o.bytes).updCmd c.ref (fun d => { d with written := d.written + o.bytes.length }))
  | _ => s

/-- RUN_BOW_COMPLETE (R212, R230). -/
def execRunBowComplete : Checked CmdRef → State → Host.Outcome State Fault Refusal
  | ⟨r, err⟩, s =>
    match s.cmd? r with
    | none => .next s
    | some c =>
      match c.work with
      | .run w =>
        if !w.layer.isBow || !s.runEnded c w then .next s
        else
          let s := if c.ended then s else if err.isSome then s.lateError r err else s.releaseBlocks c w
          .next (s.endRun ((s.cmd? r).getD c) w)
      | _ => .next s

/-! ## Roles (R207) -/

/-- The two arrays of the bow entry that logical array `l` of a reserved crew belongs to. -/
def State.entryArrs (s : State) (crew l : Nat) : Option (Nat × Nat) :=
  match (s.crew crew).resv with
  | none => none
  | some r =>
    let x := s.ctx r.ctx
    let ys := (x.gens ++ (match x.pitch with | some p => [p.g] | none => [])).map (·.assigns)
    ys.findSome? (fun as =>
      (as.find? (fun y => y.crew == crew && y.l == l)).bind (fun y =>
        (as.find? (fun z => z.crew == crew && z.entry == y.entry && z.l != l)).map (fun z => (l, z.l))))

/-- No vector lies between its first stroke and its final check decision on an array. -/
def Arr.betweenVectors (x : Arr) : Bool := !x.jobs.any (fun j => j.started) && x.replays.isEmpty && x.shots.all (fun t => t.warm)

/-- Vectors that wait on one array go to the other with the stroke role. -/
def Crew.moveTiles (a b : Nat) (x : Crew) : Crew :=
  { x with tiles := x.tiles.map (fun t => { t with left := t.left.map (fun m => if m = a then b else if m = b then a else m) }) }

/-- Exchange the roles of two logical arrays of a reserved crew. -/
def State.exchange (s : State) (crew l m : Nat) : State :=
  let a := s.physArr crew l
  let b := s.physArr crew m
  let ja := (s.arr a).jobs
  let jb := (s.arr b).jobs
  let s := s.modCrew crew (fun x => { x with
    resv := x.resv.map (fun r => { r with standby := r.standby ^^^ BitVec.ofNat 16 (2 ^ l + 2 ^ m) }) })
  let s := s.modCrew crew (Crew.moveTiles (a % 17) (b % 17))
  (s.modArr a (fun x => { x with jobs := jb })).modArr b (fun x => { x with jobs := ja })

/-- TWIN_ROLE_EXCHANGE (R207): the stroke array and the standby array of an entry exchange their roles. -/
def execTwinRoleExchange (crew : Fin 256) (l : Fin 16) (s : State) : Host.Outcome State Fault Refusal :=
  match s.entryArrs crew.val l.val with
  | none => .next s
  | some (l, m) =>
    let quiet (k : Nat) : Bool := (s.arr (s.physArr crew.val k)).betweenVectors
    .next (if s.crewUp crew.val && quiet l && quiet m then s.exchange crew.val l m else s)

/-! ## Absent twins (R233 cause 3) -/

/-- The crews of a twin. -/
def twinCrews (g : Generation) (idx : Nat) (second : Bool) : List Nat :=
  ((g.assigns.filter (fun y => y.layer == idx && y.second == second)).map (·.crew)).eraseDups

/-- TWIN_ABSENT_TIMEOUT: the crews of a twin whose last block is missing are benched. -/
def execTwinAbsentTimeout (r : CmdRef) (s : State) : Host.Outcome State Fault Refusal :=
  match s.cmd? r with
  | none => .next s
  | some c =>
    match c.work, s.runGen c with
    | .run w, some g =>
      if c.ended || !w.layer.isBow then .next s
      else
        let late (arr : List OutBlock) (second : Bool) : List Nat :=
          if arr.length < bowBlocks w.layer then twinCrews g w.idx second else []
        .next ((s.each (late w.arr0 false ++ late w.arr1 true) (fun s k => s.bench k 3)).settle)
    | _, _ => .next s

end Sys2Proof.Machine
end

