-- ==== Sys2Proof/Machine/Retrim.lean ====
section
/-! DEFINITION. Retrim (R72, R74, R284 to R289): RETRIM_STEP, its training steps, RETRIM_APPLY. -/
namespace Sys2Proof.Machine

/-! ## Numbers of a training step -/

/-- A 32-bit Galois LFSR with x^32 + x^22 + x^2 + x + 1 (R286). -/
def lfsr32 (v : BitVec 32) : BitVec 32 := if v.getLsbD 0 then (v >>> 1) ^^^ 0x80200003#32 else v >>> 1
def lfsr32By : Nat → BitVec 32 → BitVec 32
  | 0, v => v
  | n + 1, v => lfsr32By n (lfsr32 v)

/-- Seed of VE `v` (R286). -/
def veSeed (seed v : Nat) : BitVec 32 :=
  let x := BitVec.ofNat 32 seed ^^^ BitVec.ofNat 32 (v * 0x9E3779B9)
  if x = 0 then 1 else x

/-- Stochastic rounding of a finite value to E5M2 (R72): `r` is the draw. A magnitude above the largest finite value becomes that
value (R71). -/
def roundStoch (neg : Bool) (v : Rat) (r : Nat) : Nat :=
  let f := fmtE5M2
  let a := absQ v
  let sgn := bitAt neg 7
  if a = 0 then sgn
  else
    let q : Int := max (log2Q a) (1 - f.bias) - f.mb
    let x := a / pow2 q
    let i := x.floor.toNat
    let frac := ((x - (i : Rat)) * 65536).floor.toNat
    let n := if x = (i : Rat) then i else if r < frac then i + 1 else i
    if f.maxFinite < (n : Rat) * pow2 q then sgn + 0x7B
    else if n = 0 then sgn
    else sgn + ((q + f.mb + f.bias).toNat * 2 ^ f.mb + n - 2 ^ f.mb)

/-- A gradient element with its block's exponent. -/
def gradCode (sr : Bool) (e : Int) (y : F32) (r : Nat) : Nat :=
  match sr, FV.scale (-e) (f32Val y) with
  | true, .fin neg v => roundStoch neg v r
  | _, _ => (quantise 5 e 0 y).1

/-- Quantise a block of gradients, with one draw of a generator for each element (log entry 18). -/
def gradElems (sr : Bool) (e : Int) : List F32 → BitVec 32 → List Nat × BitVec 32
  | [], v => ([], v)
  | y :: ys, v =>
    let v := if sr then lfsr32By 16 v else v
    let (t, w) := gradElems sr e ys v
    (gradCode sr e y (v.toNat % 65536) :: t, w)

/-- Decode a gradient code; a zero keeps its sign. -/
def gradVal (e : Int) (code : Nat) : FV := elemVal 5 e 0 code

/-- Offset of CB8 block `b` in a moment area (R57, R281). -/
def cb8Block (b : Nat) : Nat := cbBlock 10 b

/-- The codebook of the page that holds block `b` of a moment area at `base` (R55, R57). -/
def cb8Book (mem : List Host.Cell) (base b : Nat) : List Byte := Memory.readBytes mem (base + cbPage 10 b) (cbHead 10)

/-- Re-encode a block of moments under its page's codebook (R285): the values of the elements there are, under a dynamic exponent,
and 0 bits after them (R56). -/
def momBlock (codebook : List Byte) (vs : List F32) : List Byte :=
  let q := cbQuant 10 codebook false 0 vs
  packBlock 10 (toTwos 8 q.1) 0 (q.2.map (·.1))

/-- The values of the first `n` elements of a CB8 block under its page's codebook (R55). -/
def momVals (n : Nat) (codebook block : List Byte) : List F32 := (cbVals 10 n codebook block).map f32Of

/-! ## The samples (R284) -/

/-- The region of the layer of a RETRIM command: base and header page. -/
def State.trimRegion (s : State) (c : Nat) (g : Generation) (idx : Nat) : Option (Nat × List Byte) :=
  (regionOf g idx).map (fun e => (e.1, s.regionHdr c e.1))

/-- The reference sample of each place in a step. -/
def sampleAt (h : List Byte) (i : Nat) : Nat := (rgSteps h * rgBatch h + i) % rgSamples h

/-- The input vector of each place in a step: its offset in working space. -/
def sampleOfs (lo : Nat) (h : List Byte) (ly : Layer) (i : Nat) : Nat := lo + rgXOfs h + sampleAt h i * ly.inBytes

/-- Start a step: its samples become the vectors, in stern class; the Cox clears the step's progress counter and writes its VE
descriptors (R138, R287). An error that the reads meet in HBM ends the command (R223). -/
def State.startStep (s : State) (c : Cmd) (w : RunWork) (g : Generation) (t : TrimWork) : State :=
  let cx := ctxOf c.ref.q c.pkt
  match s.trimRegion cx g w.idx with
  | none => s
  | some (lo, h) =>
    let n := rgBatch h
    match (List.range n).findSome? (fun i => badIn (s.ctx cx).bad (sampleOfs lo h w.layer i) w.layer.inBytes) with
    | some e => s.parityError c.ref e
    | none =>
      let inputs := (List.range n).map (fun i =>
        (i, Memory.readBytes (s.ctx cx).work (sampleOfs lo h w.layer i) w.layer.inBytes))
      let h := s.trainShape c w g
      let w := { w with
        n := n, dispatched := true, b2 := 1, b3 := 1, remote := true, inputs := inputs, shape := h, veNext := 0
        due := n * (combSlices g w.idx w.layer).length
        trim := some { t with ys := [], left := [], ves := h.ves.length } }
      (((s.chargeHbm true (n * (w.layer.inBytes + 2 * w.layer.n))).setCounter (s.counterOf c (combDie g w.idx)) 0).updCmd c.ref
        (fun d => { d with work := .run { w with toSend := tileRun g w 1 0 n 0 0 } })).feed

/-- Seed the generators of all VEs (R286). -/
def State.seedVes (s : State) (seed : Nat) : State :=
  s.each (List.range 32) (fun s v => s.modVe v (fun x => { x with lfsr := veSeed seed v }))

/-- The first RETRIM_STEP of a context goes on where no step of it is in execution (R287): its next step starts when the pool takes its
reads (R304), the first one with the generators seeded. -/
def State.startTrim (s : State) (c : Nat) : State :=
  match s.cmds.find? (fun x => x.inContext c && x.trim?.isSome && !x.ended) with
  | none => s
  | some x =>
    match x.work, s.runGen x with
    | .run w, some g =>
      match w.trim with
      | some t =>
        if w.dispatched then s
        else if !s.hbmOpen true then s.hbmWait true
        else (if t.done = 0 then s.seedVes (x.pkt.param 36 4) else s).startStep x w g t
      | none => s
    | _, _ => s

/-- y_j of a sample, over the slices. -/
def TrimWork.yOf (t : TrimWork) (v slices : Nat) : List F32 :=
  (List.range slices).flatMap (fun sl => ((t.ys.find? (fun e => e.1 == v && e.2.1 == sl)).map (·.2.2)).getD [])

/-! ## Gradients and the update (R284, R285) -/

/-- One sample: x_real, h, and the scaled error of every output column. -/
structure Sample where
  x : List F32
  h : List F32
  e : List F32
deriving DecidableEq, Repr

/-- A sample kept, with TRAIN (`area`) and its reference outputs `ts`; `d` is n * N. -/
def mkSample (ly : Layer) (r : Nat) (area xs : List Byte) (ys ts : List F32) (d : Nat) : Sample :=
  let x := realInput ly xs
  let dl := adapterDelta ly r area (inputElems ly xs)
  let e := List.zipWith f32Sub (List.zipWith f32Add ys dl) ts
  ⟨x, adapterH ly r area (inputElems ly xs), e.map (fun v => f32Div v (f32Int d))⟩

/-- Accumulate over the samples in ascending order. -/
def accum (ss : List Sample) (f : Sample → F32) : F32 := ss.foldl (fun a s => f32Add a (f s)) 0

/-- The gradient of every parameter in the flattened order: A row by row, B row by row, c (R281). -/
def gradients (ly : Layer) (r : Nat) (area : List Byte) (ss : List Sample) : List F32 :=
  let col (k : Nat) : List F32 := (List.range ly.n).map (fun j => (paramsAt area (r * ly.k + j * r + k) 1).headD 0)
  (List.range r).flatMap (fun k =>
    let b := col k
    (List.range ly.k).map (fun i => accum ss (fun s => f32Mul (veDot 0 b s.e) (s.x.getD i 0))))
  ++ (List.range ly.n).flatMap (fun j => (List.range r).map (fun k => accum ss (fun s => f32Mul (s.e.getD j 0) (s.h.getD k 0))))
  ++ (List.range ly.n).map (fun j => accum ss (fun s => s.e.getD j 0))

/-- The Adam update of one parameter: p, m, v afterwards (R285). -/
def adam (h : List Byte) (lr : F32) (t : Nat) (p : BitVec 16) (m v g : F32) : BitVec 16 × F32 × F32 :=
  let one := f32Int 1
  let b1 := rgBeta1 h
  let b2 := rgBeta2 h
  let m := f32Add (f32Mul b1 m) (f32Mul (f32Sub one b1) g)
  let v := f32Add (f32Mul b2 v) (f32Mul (f32Mul (f32Sub one b2) g) g)
  let mh := f32Div m (f32Sub one (f32Pow b1 t))
  let vh := f32Div v (f32Sub one (f32Pow b2 t))
  let p' := f32Sub (f32OfBF16 p) (f32Div (f32Mul lr mh) (f32Add (f32Sqrt vh) (rgEps h)))
  (BitVec.ofNat 16 (fmtBF16.encode (f32Val p')), m, v)

/-- A VE that a gradient block is drawn on: Cox pair A assigns it at run time (R286), among the engines with power. -/
def State.drawVe (s : State) : Nat :=
  let vs := (List.range 32).filter (fun v => diePowered s.env.env (v / 8))
  vs.getD (Config.freeVe s.free % max 1 vs.length) 0

/-- Update one block of 32 parameters: gradient, TRAIN, MOM and VAR (R285); `gs` holds the gradients of the parameters it has. -/
def State.updateBlock (s : State) (c lo : Nat) (h : List Byte) (ly : Layer) (lr : F32) (sr : Bool) (b : Nat)
    (gs : List F32) : State :=
  let p := paramCount (rgRank h) ly
  let n := gs.length
  let e := dynExp 5 sr 0 gs
  let ve := s.drawVe
  let (codes, l) := gradElems sr e gs (s.ve ve).lfsr
  let s := if sr then { s.modVe ve (fun x => { x with lfsr := l }) with free := s.free + 1 } else s
  let s := s.writeWork c (lo + gradOfs p + 34 * b) (packBlock 5 (toTwos 8 e) 0 codes)
  let mem := (s.ctx c).work
  let mbook := cb8Book mem (lo + momOfs p) b
  let vbook := cb8Book mem (lo + varOfs p) b
  let ms := momVals n mbook (Memory.readBytes mem (lo + momOfs p + cb8Block b) 34)
  let vs := momVals n vbook (Memory.readBytes mem (lo + varOfs p + cb8Block b) 34)
  let ps := (List.range n).map (fun i => BitVec.ofNat 16 (field (Memory.readBytes mem (lo + trainOfs p + 2 * (32 * b + i)) 2) 0 2))
  let new := (List.range n).map (fun i =>
    match gradVal e (codes.getD i 0) with
    | .fin neg g => adam h lr (rgSteps h + 1) (ps.getD i 0) (ms.getD i 0) (vs.getD i 0) (f32Of (.fin neg g))
    | _ => (ps.getD i 0, ms.getD i 0, vs.getD i 0))
  let s := s.writeWork c (lo + trainOfs p + 64 * b) (new.flatMap (fun e => leBytes 2 e.1.toNat))
  let s := s.writeWork c (lo + momOfs p + cb8Block b) (momBlock mbook (new.map (·.2.1)))
  s.writeWork c (lo + varOfs p + cb8Block b) (momBlock vbook (new.map (·.2.2)))

/-- Update all blocks of the flattened parameters. -/
def State.updateBlocks (c lo : Nat) (h : List Byte) (ly : Layer) (lr : F32) (sr : Bool) : Nat → Nat → List F32 → State → State
  | 0, _, _, s => s
  | k + 1, b, gs, s =>
    if gs.isEmpty then s
    else State.updateBlocks c lo h ly lr sr k (b + 1) (gs.drop 32) (s.updateBlock c lo h ly lr sr b (gs.take 32))

/-- The update of a step whose samples are in; none kept leaves everything (R284). -/
def State.trimUpdate (s : State) (c : Cmd) (w : RunWork) (g : Generation) (t : TrimWork) : State :=
  let cx := ctxOf c.ref.q c.pkt
  match s.trimRegion cx g w.idx with
  | none => s
  | some (lo, h) =>
    let ly := w.layer
    let r := rgRank h
    let p := paramCount r ly
    let kept := (List.range w.n).filter (fun v => !t.left.contains v)
    if kept.isEmpty then s
    else
      let mem := (s.ctx cx).work
      let area := Memory.readBytes mem (lo + trainOfs p) (2 * p)
      let ss := kept.map (fun v =>
        mkSample ly r area (s.vectorBytes c w v) (t.yOf v ly.slices)
          (paramsAt (Memory.readBytes mem (lo + rgTOfs h + sampleAt h v * (2 * ly.n)) (2 * ly.n)) 0 ly.n) (kept.length * ly.n))
      let gs := gradients ly r area ss
      let s := s.chargeHbm true (2 * p + 4 * momBytes p + gradBytes p)
      let s := State.updateBlocks cx lo h ly (BitVec.ofNat 32 (c.pkt.param 40 4)) (c.pkt.param 44 1 == 1)
        (ceilDiv p 32) 0 gs s
      (s.chargeHbm true 4).writeWork cx (lo + 28) (leBytes 4 (rgSteps h + 1))

/-! ## RETRIM_STEP (R286 to R288) -/

/-- The devices that hold a part of a layer, as the top manager sees them. -/
def State.trimHolders (s : State) (g : Generation) (idx : Nat) : List Nat :=
  (if g.assigns.any (fun y => y.layer == idx) then [s.self] else []) ++ s.holdersOf g.gen idx

/-- Checks 1 and 3 of R287: the layer and its holder; none is BAD_PARAM. On the top manager a layer lies on one member. -/
def State.trimTarget (s : State) (q : QueueId) (g : Generation) (idx : Nat) : Option (Layer × Nat) :=
  match g.man.layers[idx]? with
  | none => none
  | some ly =>
    let here : Bool := (regionOf g idx).isSome
    if s.top && !(match q with | .fwd _ => true | _ => false) then
      match s.trimHolders g idx with
      | [d] => if d = s.self && !here then none else some (ly, d)
      | _ => none
    else if here then some (ly, s.self) else none

/-- A retrim command goes to the member that holds the layer (R289). -/
def State.forwardTo (s : State) (q : QueueId) (p : Packet) (blocks : Bool) (gen d : Nat) : State :=
  let cmd := { mkCmd s q p blocks .plain with gen := gen, parts := [d] }
  ((s.enrol cmd).sendCmds p gen [d] noExtra).complete cmd .ok 0 0

/-- RETRIM_STEP (R287). -/
def effRetrimStep (q : QueueId) (p : Packet) (s : State) : State :=
  let c := ctxOf q p
  let idx := p.param 32 2
  let lr : F32 := BitVec.ofNat 32 (p.param 40 4)
  match (s.ctx c).generation (s.ctx c).live with
  | none => s.reply q p .state 0 0 0
  | some g =>
    match s.trimTarget q g idx with
    | none => s.reply q p .badParam 0 0 0
    | some (ly, d) =>
      if !p.noAddrs || p.param 34 2 = 0 || 1024 < p.param 34 2 || !f32Finite lr || f32Q lr ≤ 0 || 1 < p.param 44 1 then
        s.reply q p .badParam 0 0 0
      else if d ≠ s.self then s.forwardTo q p false g.gen d
      else
        let w := { RunWork.start idx ly 0 [] with trim := some ⟨0, [], [], none, 0⟩ }
        let cmd := { mkCmd s q p false (.run w) with gen := g.gen }
        ((s.enrol cmd).startTrim c).benchCheck cmd.ref

def execRetrimStep (q : QueueId) (s : State) : Host.Outcome State Fault Refusal :=
  .next (s.packetRow q .retrimStep effRetrimStep)

/-- A RETRIM_STEP ends: RESULT0 counts its steps; the PITCH_BEGIN that waited for it completes (R288); the context's next one
starts. -/
def State.endTrim (s : State) (c : Cmd) (t : TrimWork) (done : Nat) : State :=
  let s := (s.purge c.ref).complete c c.outcome done 0
  let s := match t.stop.bind s.cmd? with
    | some b => (s.updCmd b.ref (fun d => { d with localEnd := some (.ok, b.gen, 0) })).finishParts b.ref
    | none => s
  s.startTrim (ctxOf c.ref.q c.pkt)

/-- The ranges of working space that the update of a step reads: the moments, and the reference outputs of its samples. -/
def State.updateReads (s : State) (c : Cmd) (w : RunWork) (g : Generation) : List (Nat × Nat) :=
  match s.trimRegion (ctxOf c.ref.q c.pkt) g w.idx with
  | none => []
  | some (lo, h) =>
    let p := paramCount (rgRank h) w.layer
    (lo + momOfs p, 2 * momBytes p)
      :: (List.range w.n).map (fun v => (lo + rgTOfs h + sampleAt h v * (2 * w.layer.n), 2 * w.layer.n))

/-- A step has ended: the steps done, and the command waits for its next one. -/
def RunWork.stepDone (t : TrimWork) (w : RunWork) : RunWork := { w with dispatched := false, trim := some t }

/-- RETRIM_TRAINING_STEP (R284, R285, R288): the step in execution ends, with its update once every sample is in, every VE descriptor
has ended, and the pool takes the update's transfers (R304); or the command ends with its failure. An error met before the update
leaves the areas as they were. -/
def execRetrimTrainingStep : Checked CmdRef → State → Host.Outcome State Fault Refusal
  | ⟨r, err⟩, s =>
    match s.cmd? r with
    | none => .next s
    | some c =>
      match c.work, s.runGen c, c.trim? with
      | .run w, some g, some t =>
        if c.ended then .next (s.endTrim c t t.done).settle
        else if !w.dispatched || w.due ≠ 0 || t.ves ≠ 0 then .next s
        else
          let rs := s.updateReads c w g
          let cx := ctxOf c.ref.q c.pkt
          match s.readErr cx rs, err with
          | some e, _ => .next (s.parityError c.ref e).settle
          | none, some e => .next ((s.noteReads cx rs e).parityError c.ref e).settle
          | none, none =>
            if !s.hbmOpen true then .next (s.hbmWait true)
            else
              let s := s.trimUpdate c w g t
              let t := { t with done := t.done + 1 }
              if t.stop.isSome || c.pkt.param 34 2 ≤ t.done then .next (s.endTrim c t t.done).settle
              else .next ((s.updRun c.ref (RunWork.stepDone t)).startTrim cx)
      | _, _, _ => .next s

/-! ## RETRIM_APPLY (R289) -/

/-- Set every element of a moment area of `p` parameters to one index, with exponent 0. -/
def State.resetMoments (s : State) (c base p idx : Nat) : State :=
  s.each (List.range (ceilDiv p 32)) (fun s b =>
    s.writeWork c (base + cb8Block b) (packBlock 10 0 0 (List.replicate (blockElems p b) idx)))

/-- The two actions. -/
def State.trimAction (s : State) (c lo : Nat) (h : List Byte) (ly : Layer) (discard : Bool) : State :=
  let p := paramCount (rgRank h) ly
  let mem := (s.ctx c).work
  if discard then
    let s := s.writeWork c (lo + trainOfs p) (Memory.readBytes mem (lo + liveOfs) (2 * p))
    let s := s.resetMoments c (lo + momOfs p) p 128
    let s := s.resetMoments c (lo + varOfs p) p 0
    s.writeWork c (lo + 28) (leBytes 4 0)
  else
    (s.writeWork c (lo + liveOfs) (Memory.readBytes mem (lo + trainOfs p) (2 * p))).writeWork c (lo + 9)
      (leBytes 1 (field h 9 1 ||| 1))

/-- Bytes that an action reads and writes beside the header's field: a copy of the parameters, and on discard the moments (R302). -/
def applyBytes (p : Nat) (discard : Bool) : Nat := 4 * p + (if discard then 2 * (34 * ceilDiv p 32) else 0)

/-- A RUN or RETRIM_STEP that names a layer of a generation is in execution. -/
def State.runs (s : State) (c gen idx : Nat) : Bool :=
  s.cmds.any (fun x => x.inContext c && x.gen == gen && (match x.work with | .run w => w.idx == idx | _ => false))

/-- RETRIM_APPLY (R289). An error met before in what it copies recurs (R223). -/
def effRetrimApply (q : QueueId) (p : Packet) (s : State) : State :=
  let c := ctxOf q p
  let idx := p.param 32 2
  match (s.ctx c).generation (s.ctx c).live with
  | none => s.reply q p .state 0 0 0
  | some g =>
    match s.trimTarget q g idx with
    | none => s.reply q p .badParam 0 0 0
    | some (ly, d) =>
      if !p.noAddrs || 1 < p.param 34 1 then s.reply q p .badParam 0 0 0
      else if (s.ctx c).batch.isSome || s.runs c g.gen idx then s.reply q p .state 0 0 0
      else if d ≠ s.self then s.forwardTo q p true g.gen d
      else
        match s.trimRegion c g idx with
        | none => s.reply q p .badParam 0 0 0
        | some (lo, h) =>
          let n := paramCount (rgRank h) ly
          let drop := p.param 34 1 == 1
          match badIn (s.ctx c).bad (lo + (if drop then liveOfs else trainOfs n)) (2 * n) with
          | some e => s.packetParity q p e
          | none =>
            (((s.chargeHbm (p.cls == 2) (applyBytes n drop)).chargeHbm (p.cls == 2) 4).trimAction c lo h ly drop).done q p .ok 0 0

def execRetrimApply (q : QueueId) (s : State) : Host.Outcome State Fault Refusal :=
  .next (s.packetRow q .retrimApply effRetrimApply)

end Sys2Proof.Machine
end

