-- ==== Sys2Proof/Machine/Links.lean ====
section
/-! DEFINITION. Volind Links (R249 to R256, R260, R262, R276, R277, R294): flits and their checks, relaying, messages, ports. -/
namespace Sys2Proof.Machine

/-! ## Flits (R252 to R254) -/

def flCtxcls (f : Flit) : Nat := field f.hdr 0 1
def flCtx (f : Flit) : Nat := bitsOf (flCtxcls f) 0 4
def flKind (f : Flit) : Nat := bitsOf (field f.hdr 1 1) 0 4
def flFirst (f : Flit) : Bool := bitOf (field f.hdr 1 1) 4
def flLast (f : Flit) : Bool := bitOf (field f.hdr 1 1) 5
def flLevel (f : Flit) : Nat := bitsOf (field f.hdr 1 1) 6 2
def flTag (f : Flit) : Nat := field f.hdr 2 2
def flEpoch (f : Flit) : Nat := field f.hdr 4 2
def flGen (f : Flit) : Nat := field f.hdr 6 2
def flClaim (f : Flit) : Nat := field f.hdr 8 4
def flDst (f : Flit) : Nat := bitsOf (field f.hdr 12 2) 0 12
def flSrc (f : Flit) : Nat := bitsOf (field f.hdr 14 2) 0 12
def flStep (f : Flit) : Nat := field f.hdr 16 2
def flLen (f : Flit) : Nat := bitsOf (field f.hdr 18 2) 0 11
def flAux (f : Flit) : Nat := field f.hdr 20 4
def flWpar (f : Flit) : Nat := bitsOf (field f.hdr 24 5) 0 34

/-- A flit's header passes its check: it tells which message the flit belongs to, though the flit may be discarded (R254). -/
def hdrOk (f : Flit) : Bool := f.hdr.length == 32 && xorBytes f.hdr == 0xFF && flKind f ≤ 8

/-- A flit passes its checks (R253, R254): header parity, word parity, no uncorrectable codeword, a KIND that exists. -/
def flOk (f : Flit) : Bool :=
  hdrOk f && f.payload.length == 1088 && wordParity f.payload == flWpar f && !f.hit

/-- A received flit in its port's counters (R277). -/
def Port.count (f : Flit) (p : Port) : Port :=
  { p with
    fecCorr := BitVec.ofNat 32 (satAdd 32 p.fecCorr.toNat f.corr)
    fecUncorr := BitVec.ofNat 32 (satAdd 32 p.fecUncorr.toNat f.uncorr)
    parErr := BitVec.ofNat 32 (satAdd 32 p.parErr.toNat (if flOk f then 0 else 1)) }

/-- A flit discarded because its destination has no entry (R260). -/
def Port.lost (p : Port) : Port := { p with parErr := BitVec.ofNat 32 (satAdd 32 p.parErr.toNat 1) }

/-- Relay a flit that passed its checks (R260), where the port carries it. -/
def State.relay (s : State) (p : Nat) (f : Flit) : State :=
  match s.hop (flDst f) with
  | none => s.modPort p Port.lost
  | some h => if s.carries h then s.out (.flit h f) else s

/-- Receive flits on a port: counted; those for other devices relayed. Answered are those that are for this device. -/
def State.receive (p : Nat) : List Flit → State → State × List Flit
  | [], s => (s, [])
  | f :: fs, s =>
    let s := s.modPort p (Port.count f)
    if !flOk f then State.receive p fs s
    else if flDst f ≠ s.self then State.receive p fs (s.relay p f)
    else
      let (s, t) := State.receive p fs s
      (s, f :: t)

/-- The flits are one whole message (R252, R255): FIRST on the first, LAST on the last, flit indices in order, one header. -/
def wholeMsg (fs : List Flit) : Bool :=
  match fs with
  | [] => false
  | f :: _ =>
    fs.zipIdx.all (fun e =>
      flFirst e.1 == (e.2 == 0) && flLast e.1 == (e.2 + 1 == fs.length) && (flLast e.1 || flAux e.1 == e.2)
      && slice e.1.hdr 0 1 == slice f.hdr 0 1 && flKind e.1 == flKind f && slice e.1.hdr 2 10 == slice f.hdr 2 10
      && flSrc e.1 == flSrc f && flStep e.1 == flStep f && flLevel e.1 == flLevel f)

/-- The message of whole flits. -/
def msgOf (f : Flit) (fs : List Flit) : Msg :=
  { kind := flKind f, ctxcls := BitVec.ofNat 8 (flCtxcls f), tag := BitVec.ofNat 16 (flTag f), epoch := BitVec.ofNat 16 (flEpoch f)
    gen := flGen f, claim := BitVec.ofNat 32 (flClaim f), dst := flDst f, src := flSrc f, step := flStep f, level := flLevel f
    payload := fs.flatMap (fun g => g.payload.take (flLen g)), digest := BitVec.ofNat 32 (flAux (fs.getLastD f)) }

/-- Flits that come in on a port whose pair is bypassed leave on the pair's other port (R262). -/
def State.through (s : State) (p : Nat) (fs : List Flit) : State := s.out (.link (if p % 2 = 0 then p + 1 else p - 1) fs)

/-- What came of the flits of a message: nothing for this device; the whole message; or flits of it of which some have failed their
checks, which is a missing message (R254; log entry 59). -/
inductive Got where
  | nothing
  | whole (m : Msg)
  | torn (m : Msg)
deriving DecidableEq, Repr

/-- Receive the flits of a message of kind `k` on a port that is UP. -/
def State.receiveMsg (s : State) (p k : Nat) (fs : List Flit) : State × Got :=
  if (s.port p).bypass then (s.through p fs, .nothing)
  else if !(s.port p).up then (s, .nothing)
  else
    let (s, mine) := State.receive p fs s
    let seen := fs.filter (fun f => hdrOk f && flDst f == s.self && flKind f == k)
    match mine, seen with
    | f :: _, _ =>
      if flKind f = k ∧ mine.length = fs.length ∧ wholeMsg mine = true then (s, .whole (msgOf f mine))
      else if flKind f = k ∧ fs.any (fun g => !flOk g) then (s, .torn (msgOf f mine))
      else (s, .nothing)
    | [], f :: _ => (s, .torn (msgOf f []))
    | [], [] => (s, .nothing)

/-- LINK_IDLE_FLIT (R253): it is checked and counted, and gives no other effect. -/
def execLinkIdleFlit (p : Fin 4) (f : Flit) (s : State) : Host.Outcome State Fault Refusal :=
  .next (if (s.port p.val).bypass then s.through p.val [f]
    else if (s.port p.val).up then s.modPort p.val (Port.count f) else s)

/-! ## Digests, acknowledgement and resending (R236, R237, R255) -/

/-- A command of the message's context and tag. -/
def State.msgCmd (s : State) (m : Msg) : Option Cmd :=
  s.cmds.find? (fun c => decide (c.ref.tag = m.tag) && ctxOf c.ref.q c.pkt == m.ctx
    && (match c.work with | .run _ => true | .coll _ _ => true | _ => false))

/-- The full index of a message of a RUN, of which STEP has the low 16 bits (R252): messages of one sender come in order, so it is
the lowest one not arrived. -/
def RunWork.fullStep (w : RunWork) (m : Msg) : Msg :=
  let ks := (List.range (3 * w.n / 65536 + 1)).map (fun k => m.step % 65536 + 65536 * k)
  { m with step := (ks.find? (fun k => decide (k ≤ 3 * w.n) && !w.arrived.contains (m.src, k))).getD m.step }

/-- The prefix fields of a message as its receiver rebuilds them (R236, R255): COLL_ID, sender and level; of the data of a command also
its generation, and the STEP that a contribution has. -/
structure Prefix where
  coll : Nat
  sender : Nat
  level : Nat
  gen : Nat
  step : Nat
deriving DecidableEq, Repr

/-- The prefix of a message that is awaited. -/
def State.expected (s : State) (m : Msg) : Prefix :=
  if m.kind ≠ 3 ∧ m.kind ≠ 4 then ⟨0, m.src, 0, m.gen, m.step⟩
  else
    match s.msgCmd m with
    | some c =>
      match c.work with
      | .coll _ _ =>
        ⟨c.pkt.param 36 4, if c.pkt.param 32 1 = 3 then (s.collFrom c.pkt).findIdx (· == m.src) else m.src, c.pkt.param 33 1, c.gen, 1⟩
      | _ => ⟨0, m.src, 0, c.gen, m.step⟩
    | none => ⟨0, m.src, 0, m.gen, m.step⟩

/-- The STEP of an input, an output or a partial is one of its RUN's messages (log entry 71). -/
def State.stepOk (s : State) (m : Msg) : Bool :=
  match s.msgCmd m with
  | some c =>
    match c.work with
    | .run w => (m.kind != 3 && m.kind != 4) || (1 ≤ (w.fullStep m).step && (w.fullStep m).step ≤ 3 * w.n)
    | _ => true
  | none => true

/-- The digest of a message is right: over its payload and the prefix that its receiver expects. -/
def State.digestOk (s : State) (m : Msg) : Bool :=
  let e := s.expected m
  s.stepOk m && m.digest == crc32c (digestPrefix e.coll m.tag.toNat e.step e.sender e.gen m.ctx e.level ++ m.payload)

/-- An ACK or a RESEND of a message (R180, R255). -/
def Msg.answer (m : Msg) (kind self : Nat) : Msg :=
  { m with kind := kind, claim := 0, dst := m.src, src := self, level := 0, payload := [], digest := 0 }

def State.ack (s : State) (m : Msg) : State := s.send (m.answer 5 s.self)

/-- Request a message again; the port that sends it counts it (R277). -/
def State.resend (s : State) (m : Msg) : State :=
  match s.hop m.src with
  | none => s
  | some p =>
    let s := s.send (m.answer 6 s.self)
    if s.carries p then s.modPort p (fun x => { x with resend := BitVec.ofNat 32 (satAdd 32 x.resend.toNat 1) }) else s

/-- Two messages of a sender are one and the same: by kind, context, tag and STEP. -/
def Msg.same (m n : Msg) : Bool := n.kind == m.kind && n.ctx == m.ctx && n.tag == m.tag && n.src == m.src && n.step == m.step

/-- A message of a sender, by context, tag and STEP, whatever its kind. -/
def Expect.is (e : Expect) (c : Nat) (tag : BitVec 16) (src step : Nat) : Bool :=
  e.msg.ctx == c && e.msg.tag == tag && e.msg.src == src && e.msg.step == step

/-- What is kept of a message that is expected. -/
def State.expects? (s : State) (c : Nat) (tag : BitVec 16) (src step : Nat) : Option Expect :=
  s.group.expects.find? (fun e => e.is c tag src step)

/-- A message has failed once before. -/
def State.failedOnce (s : State) (m : Msg) : Bool := s.group.expects.any (fun e => m.same e.msg && e.failed)

def State.forget (s : State) (m : Msg) : State :=
  { s with group := { s.group with expects := s.group.expects.filter (fun e => !m.same e.msg) } }

/-- Keep what is known of a message. -/
def State.expect (s : State) (m : Msg) (failed torn : Bool) : State :=
  let t := s.forget m
  { t with group := { t.group with expects := t.group.expects ++ [⟨{ m with payload := [] }, failed, torn⟩] } }

/-- Flits of a message have failed their checks: that gives no response, and the message is missing (R254). -/
def State.tear (s : State) (m : Msg) : State := s.expect m (s.failedOnce m) true

/-- The signature of a failed message (R237, R240): 0 digest, 1 parity or FEC, 2 missing; `st` is the status that the second
failure gives the command. -/
def State.failSig (s : State) (id c : Nat) (tag : BitVec 16) (sender step why : Nat) (st : Option Status) : State :=
  s.emit 0x0A { ctx := some c, tag := some tag.toNat, status := st.map statusCode
                data := leBytes 4 id ++ leBytes 2 step ++ leBytes 2 sender ++ leBytes 1 why }

/-! ## Ports (R251, R262, R266, R276, R294) -/

/-- The next device of a ring, clockwise or counterclockwise (R249, R257 to R259): on pair A and in a level-1 ring the indices are
those of the address; in a higher ring no rule gives its address (log entry 70). -/
def State.ringNext (s : State) (pair : Nat) (ccw : Bool) : Nat :=
  let turn (n i : Nat) : Nat := if ccw then (i + n - 1) % n else (i + 1) % n
  let i0 := addrIdx s.self 0
  let i1 := addrIdx s.self 1
  if pair = 0 then s.self - i0 + turn (posAsize s.env.position + 1) i0
  else if posBlevel s.env.position = 1 then s.self - 8 * i1 + 8 * turn (posBsize s.env.position + 1) i1
  else if ccw then Config.prevOnB s.self else Config.nextOnB s.self

/-- The devices of a ring of this device, clockwise from it on. -/
def ringFrom (next : Nat → Nat) : Nat → Nat → List Nat
  | 0, _ => []
  | n + 1, a => a :: ringFrom next n (next a)

/-- The members and the order of a ring that the table implies (R257 to R259), from this device on. -/
def State.ringOrder (s : State) (pair : Nat) : List Nat :=
  if pair = 0 then ringFrom (fun a => a - addrIdx a 0 + (addrIdx a 0 + 1) % (posAsize s.env.position + 1)) (posAsize s.env.position + 1) s.self
  else if posBlevel s.env.position = 1 then
    ringFrom (fun a => a - 8 * addrIdx a 1 + 8 * ((addrIdx a 1 + 1) % (posBsize s.env.position + 1))) (posBsize s.env.position + 1) s.self
  else ringFrom Config.nextOnB (posBsize s.env.position + 1) s.self

/-- A CTRL message that leaves on a port for the next device of its ring. -/
def State.ctrlMsg (s : State) (p kind : Nat) (bs : List Byte) : Msg :=
  mkMsg 8 0 0 0 0 (s.ringNext (pairOf p) (p % 2 == 0)) s.self 0 0 0 s.self (Config.ctrlPayload kind bs)

/-- Such a message leaves where the port carries it; a copy is held (R237, R255), which is sent when the port is UP again (R294). -/
def State.ctrlOn (s : State) (p kind : Nat) (bs : List Byte) : State :=
  let m := s.ctrlMsg p kind bs
  let t := { s with group := { s.group with held := s.group.held ++ [m] } }
  if s.carries p then t.out (.link p m.flits) else t

/-- A port of a ring has left UP: the device tells the ring on the pair's other port, and is silent from then on (log entry 89). -/
def State.degrade (s : State) (p : Nat) : State :=
  if !s.member || s.group.fallen.contains (pairOf p) then s
  else
    let o := if p % 2 = 0 then p + 1 else p - 1
    (s.ctrlOn o 6 []).fall (pairOf p)

/-- The peer on a port agrees with the routing table (R251, R259): the neighbour in the ring, with the same SYSTEM_ID. -/
def State.peerOk (s : State) (p peer : Nat) (sysId : Qword) : Bool :=
  sysId == s.group.sysId && peer == s.ringNext (pairOf p) (p % 2 == 0)

/-- Send the held copies that leave on a port again (R294). -/
def State.sendHeld (s : State) (p : Nat) : State :=
  if s.carries p then s.each (s.group.held.filter (fun m => s.hop m.dst == some p)) (fun s m => s.out (.link p m.flits)) else s

/-- The bytes of a list of device addresses. -/
def addrBytes (l : List Nat) : List Byte := l.flatMap (leBytes 2)

/-- The manager of a ring whose two ports are UP sends its discovery clockwise (R266): every device adds itself. -/
def State.discover (s : State) (pair : Nat) : State :=
  if s.managesPair pair && (s.port (2 * pair)).up && s.carries (2 * pair + 1) && decide (ringOf s.group.rings (s.ringKey pair) ≠ some .up)
  then s.ctrlOn (2 * pair + 1) 0 (addrBytes [s.self])
  else s

/-- A port leaves UP and retrains. -/
def Port.drop (p : Port) : Port :=
  if p.up then { p with up := false, training := true, downs := BitVec.ofNat 8 (satAdd 8 p.downs.toNat 1) } else p

/-- The identities exchanged after training show a wrong peer: the port leaves UP, to which training had brought it, and retrains. -/
def Port.badPeer (p : Port) : Port := { ({ p with up := true } : Port).drop with peerBad := true }

/-- PORT_TRAINING_COMPLETE (R251, R276): training has ended and the identities are exchanged; a peer that differs from the
table's sets PEERBAD, and the port retrains. -/
def execPortTrainingComplete (p : Fin 4) (peer : Nat) (sysId : Qword) (s : State) : Host.Outcome State Fault Refusal :=
  let x := s.port p.val
  if x.bypass || !x.training then .next s
  else if s.peerOk p.val peer sysId then
    .next (((s.modPort p.val (fun x => { x with up := true, training := false })).sendHeld p.val).discover (pairOf p.val))
  else .next ((s.modPort p.val Port.badPeer).degrade p.val)

/-- PORT_TRAINING_RETRY (R251): the port goes on training. -/
def execPortTrainingRetry (p : Fin 4) (s : State) : Host.Outcome State Fault Refusal :=
  .next (if (s.port p.val).bypass || (s.port p.val).up then s else s.modPort p.val (fun x => { x with training := true }))

/-- PORT_LINK_LOSS (R251, R266). -/
def execPortLinkLoss (p : Fin 4) (s : State) : Host.Outcome State Fault Refusal :=
  .next (if (s.port p.val).up then (s.modPort p.val Port.drop).degrade p.val else s)

/-! ## ACK and RESEND (R255) -/

/-- A held copy that an ACK or RESEND names. -/
def Msg.named (f : Flit) (m : Msg) : Bool :=
  m.dst == flSrc f && m.tag.toNat == flTag f && m.ctx == flCtx f && m.step % 65536 == flStep f

/-- Receive an ACK or a RESEND: the flit, where it is for this device and passes its checks. -/
def State.receiveOne (s : State) (p k : Nat) (f : Flit) : State × Bool :=
  if (s.port p).bypass then (s.through p [f], false)
  else if !(s.port p).up then (s, false)
  else
    let r := State.receive p [f] s
    (r.1, !r.2.isEmpty && flKind f == k)

/-- LINK_ACK: the sender releases its held copy, the oldest one of that STEP. -/
def execLinkAck (p : Fin 4) (f : Flit) (s : State) : Host.Outcome State Fault Refusal :=
  match s.receiveOne p.val 5 f with
  | (s, true) => .next { s with group := { s.group with held := s.group.held.eraseP (Msg.named f) } }
  | (s, false) => .next s

/-- LINK_RESEND: the sender sends its held copy again; one that is released is ignored. -/
def execLinkResend (p : Fin 4) (f : Flit) (s : State) : Host.Outcome State Fault Refusal :=
  match s.receiveOne p.val 6 f with
  | (s, true) =>
    .next (match s.group.held.find? (Msg.named f) with
      | some m => match s.hop m.dst with
        | some h => if s.carries h then s.out (.link h m.flits) else s
        | none => s
      | none => s)
  | (s, false) => .next s

end Sys2Proof.Machine
end

