-- ==== Sys2Proof/Machine/Groups.lean ====
section
/-! DEFINITION. Groups (R237, R255, R257 to R275): GROUP_CONFIG, forwarded commands and their statuses, the data and partials of a
RUN, COLLECTIVE, ring states, GROUP_STATUS. -/
namespace Sys2Proof.Machine

/-! ## GROUP_CONFIG (R262, R264, R265) -/

/-- The entries of a group table (R264). -/
def tableEntry (bs : List Byte) (a : Nat) : Nat := field bs (64 + a) 1

/-- The addresses that a table lists. -/
def tableDevices (bs : List Byte) : List Nat := (List.range 4096).filter (fun a => tableEntry bs a ≠ 0xFF)

/-- The fewest and the most devices that a level-`l` group can have around a device with a POSITION (R257, R259): its level-0 ring has
ASIZE + 1 devices, the ring of level BLEVEL BSIZE + 1 groups, every other ring 2 to 8. -/
def fewest (pos : Dword) : Nat → Nat
  | 0 => posAsize pos + 1
  | l + 1 => fewest pos l + (if posBlevel pos = l + 1 then posBsize pos else 1) * 2 ^ (l + 1)
def most (pos : Dword) : Nat → Nat
  | 0 => posAsize pos + 1
  | l + 1 => most pos l + (if posBlevel pos = l + 1 then posBsize pos else 7) * 8 ^ (l + 1)

/-- Check 3 of R265. -/
def State.tableOk (s : State) (bs : List Byte) : Bool :=
  let pos := s.env.position
  let ports := if posBlevel pos = 0 then 2 else 4
  let ds := tableDevices bs
  field bs 4 4 == pos.toNat && pos != 0 && field bs 2 1 == posDepth pos + 1
  && posBlevel pos ≤ posDepth pos && 2 ≤ field bs 0 2 && field bs 0 2 ≤ 512
  && fewest pos (posDepth pos) ≤ field bs 0 2 && field bs 0 2 ≤ most pos (posDepth pos)
  && tableEntry bs s.self == 0xFE
  && ds.all (fun a => decide (tableEntry bs a < ports) || (tableEntry bs a == 0xFE && a == s.self))

/-- Open the bypass of a port's pair: the port trains; one that is UP already drops and trains again (log entry 136). -/
def Port.openBypass (p : Port) : Port := { p.drop with bypass := false, training := true }

/-- Other devices that manage a ring (R257, R258): those at index 0 of their level-0 ring, and in a system of four levels those of the
rings of level 2, each a device of the level-0 ring of the first level-1 group's manager; which one no rule tells (log entry 70). The
manager of the highest ring is the top manager itself. -/
def State.managers (s : State) : List Nat := s.others.filter (fun a =>
  addrIdx a 0 == 0 || (s.group.depth == 4 && addrIdx a 1 == 0 && addrIdx a 2 == 0 && Config.managesRing a))

/-- The rings of which a device keeps the state, all FORMING: those it manages, and at the top manager those of every manager. -/
def State.ringList (s : State) : List (Nat × GState) :=
  (((List.range 2).filter s.managesPair).map (fun p => (s.ringKey p, GState.forming)))
    ++ (if s.top then s.managers.map (fun a => (a, GState.forming)) else [])

/-- The rings after GROUP_CONFIG: one that is DEGRADED stays so until every device of it has received GROUP_CONFIG again: until the
discovery of the ring has succeeded, or its manager tells another state (R266; log entries 63 and 89). -/
def State.freshRings (s : State) (old : List (Nat × GState)) : List (Nat × GState) :=
  s.ringList.map (fun e => if ringOf old e.1 = some .degraded then (e.1, .degraded) else e)

/-- Load a group table and open the bypasses. -/
def State.loadGroup (s : State) (bs : List Byte) : State :=
  let hops : Tbl Byte := (tableDevices bs).map (fun a => (a, BitVec.ofNat 8 (tableEntry bs a)))
  let old := s.group.rings
  let s := { s with group := { Group.reset with
    silent := s.group.silent, configured := true, sysId := BitVec.ofNat 64 (field bs 8 8), devices := field bs 0 2, depth := field bs 2 1, nexthop := hops } }
  let s := { s with group := { s.group with rings := s.freshRings old } }
  s.each (List.range 4) (fun s p =>
    s.modPort p (if p < 2 ∨ posBlevel s.env.position ≠ 0 then Port.openBypass else Port.close))

/-- Dissolve the membership. -/
def State.leaveGroup (s : State) : State :=
  { s.closeBypasses with group := Group.reset, env := { s.env with position := 0 } }

/-- GROUP_CONFIG (R265). The addresses of R191 are checked with LENGTH, before the envelope (log entry 117). -/
def effGroupConfig (q : QueueId) (p : Packet) (s : State) : State :=
  match p.hostData with
  | none => s.reply q p .badParam 0 0 0
  | some a =>
    if p.length ≠ 0 ∧ p.length ≠ 4160 then s.reply q p .badParam 0 0 0
    else if s.env.env = 1 then s.reply q p .state 0 0 0
    else if p.length = 0 then s.leaveGroup.done q p .ok 0 0
    else
      let bs := Memory.readBytes s.host a 4160
      if s.tableOk bs then (s.loadGroup bs).done q p .ok 0 0 else s.reply q p .badParam 0 0 0

def execGroupConfig (q : QueueId) (s : State) : Host.Outcome State Fault Refusal :=
  .next (s.packetRow q .groupConfig effGroupConfig)

/-! ## GROUP_STATUS (R274) -/

/-- Logical arrays of the powered crews with neither plane bound. -/
def State.unboundArrs (s : State) : Nat :=
  sumNat ((List.range 256).map (fun k =>
    if diePowered s.env.env (crewDie k) then
      ((List.range 16).filter (fun l =>
        !bndValid ((s.crew k).binding l false) && !bndValid ((s.crew k).binding l true))).length
    else 0))

/-- This device's record. -/
def State.record (s : State) : List Byte :=
  let ports := sumNat ((List.range 4).map (fun p => bitAt (s.port p).up p + bitAt (s.port p).bypass (p + 4)))
  leBytes 2 s.self ++ leBytes 1 (devCode s.dev.st) ++ leBytes 1 ports ++ leBytes 1 s.env.env ++ leBytes 3 0
    ++ leBytes 8 Config.serial.toNat ++ leBytes 4 s.unboundArrs ++ leBytes 4 (s.hbmFree.1 + s.hbmFree.2)
    ++ leBytes 4 s.sig.store.length ++ leBytes 4 0

/-- The record of a device that does not answer. -/
def silentRecord (a : Nat) : List Byte := leBytes 2 a ++ leBytes 1 0xF ++ List.replicate 29 0

/-- The level of the highest ring that this device manages; none on a worker or a standalone device. -/
def State.topLevel (s : State) : Option Nat :=
  if s.managesPair 1 then some (posBlevel s.env.position) else if s.managesPair 0 then some 0 else none

/-- The devices of the report. -/
def State.subtree (s : State) : List Nat :=
  match s.topLevel with
  | some l => s.levelGroup s.self l
  | none => [s.self]

def gCode : GState → Nat | .forming => 0 | .up => 1 | .degraded => 2

/-- GSTATE of a report: 0xFF standalone; on a manager that is not the top one the worst of the rings that it manages itself (log entry
137); on a worker, which keeps no ring's state, a free value (log entry 77). -/
def State.reportState (s : State) : Nat :=
  if !s.member then 0xFF
  else if s.topLevel.isSome then gCode s.gstate
  else Config.freeResult 10 s.free % 3

/-- Compute dies powered at an envelope. -/
def diesAt (e : Nat) : Nat := ((List.range 4).filter (diePowered e)).length

/-- The report: summary, then a record per device in ascending address. A worker and a standalone device report one level (log entry
138). -/
def State.report (s : State) (recs : List (Nat × List Byte)) : List Byte :=
  let rs := recs.map (·.2)
  let there := rs.filter (fun r => field r 2 1 ≠ 0xF)
  let dies := sumNat (there.map (fun r => diesAt (field r 4 1)))
  leBytes 2 rs.length ++ leBytes 1 s.reportState ++ leBytes 1 ((s.topLevel.getD 0) + 1) ++ leBytes 4 (1024 * dies)
    ++ leBytes 4 (sumNat (there.map (fun r => field r 16 4))) ++ leBytes 4 (sumNat (there.map (fun r => field r 20 4)))
    ++ leBytes 2 (8 * dies) ++ leBytes 2 (rs.filter (fun r => field r 2 1 = 0xF ∨ field r 2 1 = devCode .safe)).length
    ++ List.replicate 12 0 ++ rs.flatten

/-- Answer GROUP_STATUS once every device has answered or is given up. -/
def State.endReport (s : State) (r : CmdRef) : State :=
  match s.cmd? r with
  | none => s
  | some c =>
    match c.work, c.pkt.hostResult with
    | .groupStatus answers [], some a =>
      let bs := s.report answers
      ({ s.writeHost a bs with free := s.free + 1 }).complete c .ok bs.length 0
    | _, _ => s

/-- GROUP_STATUS. -/
def effGroupStatus (q : QueueId) (p : Packet) (s : State) : State :=
  match p.hostResult with
  | none => s.reply q p .badParam 0 0 0
  | some _ =>
    let ds := s.subtree
    if p.length < 32 + 32 * ds.length then s.reply q p .badParam 0 0 0
    else
      let others := ds.filter (· ≠ s.self)
      let cmd := mkCmd s q p false (.groupStatus [(s.self, s.record)] others)
      let s := (s.enrol cmd).each others (fun s d =>
        s.send (mkMsg 8 0 p.tag.toNat 0 0 d s.self 0 0 0 s.self (Config.ctrlPayload 4 [])))
      s.endReport cmd.ref

def execGroupStatus (q : QueueId) (s : State) : Host.Outcome State Fault Refusal :=
  .next (s.packetRow q .groupStatus effGroupStatus)

/-- The record of device `a` as a report holds it: 32 bytes that name the device, the others as its answer has them (log entry 76). -/
def ownRecord (a : Nat) (bs : List Byte) : List Byte := leBytes 2 a ++ slice (bs ++ List.replicate 32 0) 2 30

/-- A record of a device for every GROUP_STATUS that waits for it. -/
def State.takeRecord (s : State) (r : CmdRef) (a : Nat) (rec' : List Byte) : State :=
  (s.updCmd r (fun c => match c.work with
    | .groupStatus answers missing =>
      if missing.contains a then { c with work := .groupStatus (Tbl.put answers a rec') (missing.erase a) } else c
    | _ => c)).endReport r

/-- GROUP_STATUS_ANSWER_TIMEOUT: the device is reported with state 0xF. -/
def execGroupStatusAnswerTimeout (r : CmdRef) (addr : Nat) (s : State) : Host.Outcome State Fault Refusal :=
  .next (s.takeRecord r addr (silentRecord addr))

/-! ## Failed messages (R237, R255) -/

/-- A record that fails twice: the GROUP_STATUS that waits for it ends, or where it is missing, the device has not answered (R255,
R274). -/
def State.endReports (s : State) (m : Msg) (st : Status) : State :=
  s.each (s.cmds.filter (fun c => decide (c.ref.tag = m.tag)
      && (match c.work with | .groupStatus _ missing => missing.contains m.src | _ => false))) (fun s c =>
    if st = .timeout then s.takeRecord c.ref m.src (silentRecord m.src) else s.complete c st 0 0)

/-- End the command that a message serves (R255): a STATUS ends that member's part, an input, output, partial or contribution the local
part, a record its report; a CMD and the other CTRL messages serve no command of this device. -/
def State.endServed (s : State) (m : Msg) (st : Status) : State :=
  match m.kind with
  | 2 =>
    match s.cmds.find? (fun d => decide (d.ref.tag = m.tag) && ctxOf d.ref.q d.pkt == m.ctx && d.parts.contains m.src) with
    | some d =>
      (s.updCmd d.ref (fun d => { d with
        parts := d.parts.erase m.src, merged := Tbl.put d.merged m.src (statusEntry d.pkt st 0 0 0 0 false) })).finishParts d.ref
    | none => s
  | 3 | 4 =>
    match s.msgCmd m with
    | some d => s.failCmd d.ref st
    | none => s
  | 8 => s.endReports m st
  | _ => s

/-- A message fails, by its digest (0), by parity or FEC (1), or as one that does not come (2): it is requested again, or at the second
failure its command ends; a SIG message is lost and counted (R241). -/
def State.msgFailed (s : State) (m : Msg) (why : Nat) : State :=
  let e := s.expected m
  let st : Status := if why = 2 then .timeout else .digestBad
  if !s.failedOnce m then
    ((s.failSig e.coll m.ctx m.tag e.sender m.step why none).expect m true false).resend m
  else
    let s := (s.failSig e.coll m.ctx m.tag e.sender m.step why (if m.kind = 7 then none else some st)).forget m
    if m.kind = 7 then { s with sig := { s.sig with lost := s.sig.lost + 1 } } else s.endServed m st

/-- A collective that needed a message again, and then got it, is OK_REPLAYED (R237). -/
def State.noteReplay (s : State) (m : Msg) : State :=
  if !s.failedOnce m then s
  else match s.msgCmd m with
    | some c =>
      match c.work with
      | .coll _ _ => s.updCmd c.ref (fun d => { d with outcome := worse d.outcome .okReplayed, replays := d.replays + 1 })
      | _ => s
    | none => s

/-- A whole message for this device: checked, acknowledged and taken by `f`, or failed. -/
def State.takeMsg (s : State) (m : Msg) (f : State → State) : State :=
  if s.digestOk m then f (((s.noteReplay m).forget m).ack m)
  else s.msgFailed m 0

/-- What came on a link is taken by `f`, or fails (R237); a message of which flits have failed their checks is missing (R254). -/
def State.takeGot (s : State) (g : Got) (f : Msg → State → State) : State :=
  match g with
  | .nothing => s
  | .whole m => s.takeMsg m (f m)
  | .torn m => s.tear m

/-- A message is awaited: a member's STATUS, an input, an output or partial of a RUN, a contribution. -/
def State.awaits (s : State) (c : Nat) (tag : BitVec 16) (src step : Nat) : Bool :=
  !s.group.rx.any (fun m => m.src == src && m.tag == tag && m.ctx == c && m.step == step)
  && s.cmds.any (fun d => decide (d.ref.tag = tag) && ctxOf d.ref.q d.pkt == c &&
    ((step == 0 && d.parts.contains src) ||
     (match d.work with
      | .run w => !d.ended && d.localEnd.isNone && step != 0 && src != s.self && !w.arrived.contains (src, step)
          && (s.isInput d w src step || (s.others.contains src && w.due != 0))
      | .coll got _ => !d.ended && d.localEnd.isNone && (s.collFrom d.pkt).contains src && !got.any (fun e => e.1 == src)
      | _ => false)))

/-- The message that a command of a context and tag awaits from a device. -/
def State.missing (s : State) (c : Nat) (tag : BitVec 16) (src step : Nat) : Msg :=
  let d := s.cmds.find? (fun d => decide (d.ref.tag = tag) && ctxOf d.ref.q d.pkt == c)
  { kind := if step = 0 then 2 else 3, ctxcls := BitVec.ofNat 8 ((d.map (·.pkt.ctxcls)).getD c), tag := tag, epoch := (d.map (·.pkt.epoch)).getD 0
    gen := (d.map (·.gen)).getD 0, claim := 0, dst := s.self, src := src, step := step, level := 0, payload := [], digest := 0 }

/-- Why a message that is expected has failed at its timeout (R237, R254): it is missing, and so is one whose flits were discarded; but of
a contribution whose flits have failed their checks the parity or FEC has failed (log entry 59). -/
def State.whyMissing (s : State) (e : Expect) : Nat :=
  let coll : Bool := (e.msg.kind == 3) && (s.msgCmd e.msg).any (fun c => match c.work with | .coll _ _ => true | _ => false)
  if e.torn && coll then 1 else 2

/-- MESSAGE_TIMEOUT (R237, R254): a message has not come. -/
def execMessageTimeout (c : Fin 16) (tag : BitVec 16) (src step : Nat) (s : State) : Host.Outcome State Fault Refusal :=
  match s.expects? c.val tag src step with
  | some e => .next (s.msgFailed e.msg (s.whyMissing e)).settle
  | none =>
    if s.awaits c.val tag src step then .next ((s.msgFailed (s.missing c.val tag src step) 2).settle)
    else .next s

/-! ## The data of a RUN (R67, R129, R271) -/

/-- The output slices in a DATA message, each with the offset of its bytes in the payload (R271). -/
def payloadSlices (ly : Layer) (sls : List Nat) : List (Nat × Nat) :=
  sls.zipIdx.map (fun e => (e.1, sumNat ((sls.take e.2).map (fun t => tensorBytes ly.yfmt (ly.sliceCols t)))))

/-- The places of a DATA message's bytes in a command's output: offset in the output, bytes. -/
def outPieces (c : Cmd) (w : RunWork) (m : Msg) : List (Nat × List Byte) :=
  if !w.layer.isArray then [(0, m.payload)]
  else (payloadSlices w.layer (Config.memberSlices c.gen w.idx m.src)).map (fun e =>
    ((m.step - 1) % max 1 w.n * w.layer.outBytes + w.layer.sliceOfs e.1,
      slice m.payload e.2 (tensorBytes w.layer.yfmt (w.layer.sliceCols e.1))))

/-- Keep a message that waits. -/
def State.keepRx (s : State) (m : Msg) : State := { s with group := { s.group with rx := s.group.rx ++ [m] } }

/-- An input or an output of a RUN; an output for working space waits for the tokens of its write (R304). -/
def State.runData (s : State) (c : Cmd) (w : RunWork) (m : Msg) : State :=
  if w.arrived.contains (m.src, m.step) || m.step = 0 then s
  else if !s.isInput c w m.src m.step && (s.outHbm c).isSome && !s.hbmOpen (c.pkt.cls == 2) then
    (s.hbmWait (c.pkt.cls == 2)).keepRx m
  else
    let s := s.updRun c.ref (fun w => { w with arrived := w.arrived ++ [(m.src, m.step)] })
    if s.isInput c w m.src m.step then
      let bs := match s.runGen c with
        | some g => if w.layer.isArray then spreadSplits w.layer (ownSplits g w.idx w.layer) m.payload else m.payload
        | none => m.payload
      s.updRun c.ref (fun w => { w with inputs := w.inputs ++ [(m.step - 1, bs)] })
    else if s.addrDev c.pkt.resultAddr ≠ s.self then s
    else
      let s := match s.localAddr c.pkt.resultAddr with
        | some (.host a) => s.each (outPieces c w m) (fun s e => s.writeHost (a + e.1) e.2)
        | some (.work a) => (s.chargeHbm (c.pkt.cls == 2) m.payload.length).each (outPieces c w m) (fun s e =>
            s.writeWork (ctxOf c.ref.q c.pkt) (a + e.1) e.2)
        | _ => s
      s.updRun c.ref (fun w => { w with due := w.due - 1 })

/-- The splits that each word of a column stands for in a member's PART message, for a replica and a slice: of integer weights all
splits of a crew, of CB4 a single one, ascending (R129). -/
def partSplits (gen idx : Nat) (ly : Layer) (src rep t : Nat) : List (List Nat) :=
  let ks := Config.memberCrews gen idx src rep t
  if ly.cb4 then ((List.range ly.splits).filter (fun sp => ks.any (·.contains sp))).map (fun sp => [sp])
  else ks

/-- Word `k` of `n` of every column of a slice whose words begin at `base` in a PART payload. -/
def partWordsOf (bs : List Byte) (base n k cols : Nat) : List Nat :=
  (List.range cols).map (fun j => field bs (base + 8 * (j * n + k)) 8)

/-- The partials in a member's PART message for a vector: slice by slice, of every word the splits that it stands for and its columns. -/
def partsIn (ly : Layer) (units : Nat → List (List Nat)) (bs : List Byte) : Nat → List Nat → List (Nat × List Nat × List Nat)
  | _, [] => []
  | base, t :: ts =>
    let us := units t
    us.zipIdx.map (fun e => (t, e.1, partWordsOf bs base us.length e.2 (ly.sliceCols t)))
      ++ partsIn ly units bs (base + 8 * us.length * ly.sliceCols t) ts

/-- The partial words of a vector from another member enter the combiner, under their claim's replica (R133). -/
def State.runPart (s : State) (c : Cmd) (w : RunWork) (g : Generation) (m : Msg) : State :=
  if w.arrived.contains (m.src, m.step) || m.step = 0 || c.ended then s
  else
    let rep := if w.layer.nrep ≤ 1 then 0 else m.claim.toNat / 2 ^ 28
    let s := s.updRun c.ref (fun w => { w with arrived := w.arrived ++ [(m.src, m.step)] })
    s.each (partsIn w.layer (partSplits c.gen w.idx w.layer m.src rep) m.payload 0 (combSlices g w.idx w.layer)) (fun s e =>
      s.combine ⟨c.ref, false, (m.step - 1) % max 1 w.n, e.2.1.headD 0, e.1, rep, e.2.2,
        ((combAssign g w.idx e.1 rep false).map (·.crew)).getD 0, e.2.1.drop 1⟩)

/-- A DATA or PART message serves a command here. -/
def State.serve (s : State) (m : Msg) : State :=
  match s.msgCmd m with
  | none => s
  | some c =>
    match c.work, s.runGen c with
    | .coll got sent, _ =>
      if got.any (fun e => e.1 == m.src) then s
      else s.updCmd c.ref (fun d => { d with work := .coll (Tbl.put got m.src m.payload) sent })
    | .run w, some g => if m.kind = 4 then s.runPart c w g (w.fullStep m) else s.runData c w (w.fullStep m)
    | _, _ => s

/-- A DATA or PART message: before the CMD message of its command has come, its digest cannot be rebuilt, and it waits. -/
def State.takeData (s : State) (g : Got) : State :=
  match g with
  | .whole m =>
    if (s.msgCmd m).isNone then s.keepRx m else s.takeMsg m (fun s => s.serve m)
  | g => s.takeGot g (fun m s => s.serve m)

/-- Messages that came before the CMD message of their command. -/
def State.drainRx (s : State) (c : Nat) (tag : BitVec 16) : State :=
  let (mine, rest) := s.group.rx.partition (fun m => m.kind != 1 && m.ctx == c && m.tag == tag)
  { s with group := { s.group with rx := rest } }.each mine (fun s m => s.takeData (.whole m))

/-- LINK_DATA_MESSAGE. -/
def execLinkDataMessage (p : Fin 4) (fs : List Flit) (s : State) : Host.Outcome State Fault Refusal :=
  let r := s.receiveMsg p.val 3 fs
  .next (r.1.takeData r.2).settle

/-- LINK_PART_MESSAGE. -/
def execLinkPartMessage (p : Fin 4) (fs : List Flit) (s : State) : Host.Outcome State Fault Refusal :=
  let r := s.receiveMsg p.val 4 fs
  .next (r.1.takeData r.2).settle

/-! ## COLLECTIVE (R236, R272, R273) -/

/-- The fields of a COLLECTIVE are in range (R191, R272). -/
def State.collOk (s : State) (c : Nat) (p : Packet) : Bool :=
  let work (a : Nat) : Bool := match addrOf a with | some x => x.isWork | none => false
  let fits (a n : Nat) : Bool := match s.localAddr a with | some x => s.rangeOk c x n | none => false
  let from' := s.collFrom p
  let tos := s.collTo p
  let id := p.param 36 4
  work p.dataAddr && work p.resultAddr && 1 ≤ p.param 32 1 && p.param 32 1 ≤ 3
  && decide (p.param 33 1 < (if s.member then s.group.depth else 1)) && id != 0 && p.param 40 4 ≤ 10000000
  && !s.cmds.any (fun d => ctxOf d.ref.q d.pkt == c && d.pkt.param 36 4 == id && (match d.work with | .coll _ _ => true | _ => false))
  && s.devices.contains (s.addrDev p.dataAddr) && (p.param 32 1 != 1 || s.devices.contains (s.addrDev p.resultAddr))
  && (!from'.contains s.self || fits p.dataAddr p.length)
  && (!tos.contains s.self || fits p.resultAddr (p.length * from'.length))

/-- This device's contribution, read from HBM when the pool takes the read (R304): to the others as messages, to itself at once. An
error that the read meets ends the command (R223). -/
def State.contribute (s : State) (c : Cmd) : State :=
  let p := c.pkt
  let cx := ctxOf c.ref.q p
  match s.localAddr p.dataAddr with
  | some (.work a) =>
    if !(s.collFrom p).contains s.self then s
    else if !s.hbmOpen (p.cls == 2) then s.hbmWait (p.cls == 2)
    else
      match badIn (s.ctx cx).bad a p.length with
      | some e => s.parityError c.ref e
      | none =>
        let bs := Memory.readBytes (s.ctx cx).work a p.length
        let sender := if p.param 32 1 = 3 then (s.collFrom p).findIdx (· == s.self) else s.self
        let tos := s.collTo p
        let s := s.chargeHbm (p.cls == 2) p.length
        let s := s.updCmd c.ref (fun d => { d with work := match d.work with
          | .coll got _ => .coll (if tos.contains s.self then Tbl.put got s.self bs else got) true
          | w => w })
        s.each (tos.filter (· ≠ s.self)) (fun s d =>
          s.send (mkMsg 3 p.ctxcls p.tag.toNat p.epoch.toNat c.gen d s.self 1 (p.param 33 1) (p.param 36 4) sender bs))
  | _ => s

/-- COLLECTIVE (R272); `adopt` is the stamp of a forwarded one, which goes to the members that contribute or receive (R267). -/
def effCollective (adopt : Option Nat) (q : QueueId) (p : Packet) (s : State) : State :=
  let c := ctxOf q p
  if !s.collOk c p then s.replyGen (adopt.getD 0) q p .badParam 0 0 0
  else
    let cmd := { mkCmd s q p false (.coll [] (!(s.collFrom p).contains s.self)) with gen := adopt.getD (s.ctx c).adm }
    let ds := (s.parties q .collective).filter (fun d => (s.collFrom p).contains d || (s.collTo p).contains d)
    (s.launchTo ds cmd noExtra).contribute cmd

def execCollective (q : QueueId) (s : State) : Host.Outcome State Fault Refusal :=
  .next (s.packetRow q .collective (effCollective none))

/-- Every contribution that this device receives is accepted, and its own are acknowledged. -/
def State.collIn (s : State) (c : Cmd) (got : List (Nat × List Byte)) : Bool :=
  (!(s.collTo c.pkt).contains s.self || (s.collFrom c.pkt).all (fun a => got.any (fun e => e.1 == a)))
  && !s.group.held.any (fun m => m.kind == 3 && decide (m.tag = c.ref.tag) && m.ctx == ctxOf c.ref.q c.pkt)

/-- Write the contributions in ascending device address. -/
def State.collWrite (s : State) (c : Cmd) (got : List (Nat × List Byte)) : State :=
  if !(s.collTo c.pkt).contains s.self then s
  else
    let bs := (s.collFrom c.pkt).flatMap (fun a => ((got.find? (fun e => e.1 == a)).map (·.2)).getD [])
    match s.localAddr c.pkt.resultAddr with
    | some a => (s.chargeHbm (c.pkt.cls == 2) bs.length).writeAt (ctxOf c.ref.q c.pkt) a bs
    | none => s

/-- An error ends a COLLECTIVE; one that the read of its contribution has met in HBM lasts (R223). -/
def State.collError (s : State) (c : Cmd) (e : ParityErr) : State :=
  let t := match s.localAddr c.pkt.dataAddr with
    | some (.work a) =>
      if (s.collFrom c.pkt).contains s.self then s.noteWork (ctxOf c.ref.q c.pkt) a c.pkt.length e else s
    | _ => s
  t.parityError c.ref e

/-- COLLECTIVE_COMPLETE (R231, R237). `err` is a parity error found in the data on its way to or from HBM (R222, R223). The own
contribution has been sent, and the pool takes the write of what is received (R304). -/
def execCollectiveComplete : Checked CmdRef → State → Host.Outcome State Fault Refusal
  | ⟨r, err⟩, s =>
    match s.cmd? r with
    | none => .next s
    | some c =>
      match c.work with
      | .coll got sent =>
        if c.localEnd.isSome then .next s
        else if c.ended then .next (((s.spoil c c.outcome).complete c c.outcome 0 c.replays).settle)
        else
          match err with
          | some e => .next (s.collError c e).settle
          | none =>
            if !sent || !s.collIn c got then .next s
            else if (s.collTo c.pkt).contains s.self && !s.hbmOpen (c.pkt.cls == 2) then .next (s.hbmWait (c.pkt.cls == 2))
            else .next ((s.collWrite c got).complete c c.outcome (c.pkt.length * (s.collFrom c.pkt).length) c.replays)
      | _ => .next s

/-! ## Forwarded commands (R267 to R270) -/

/-- The effect of a forwarded opcode at a member, with the generation that the message carries. -/
def forwardedEff (m : Msg) (o : Op) : Option (QueueId → Packet → State → State) :=
  match o with
  | .ctxOpen => some effCtxOpen
  | .ctxClose => some effCtxClose
  | .pitchBegin => some (effPitchBegin m.gen)
  | .pitchCommit => some effPitchCommit
  | .pitchAbort => some effPitchAbort
  | .swing => some effSwing
  | .run => some (effRun (some m.gen))
  | .collective => some (effCollective (some m.gen))
  | .retrimStep => some effRetrimStep
  | .retrimApply => some effRetrimApply
  | _ => none

/-- A forwarded command waits: for the tokens of its transfer (R304), or behind one of its context that does. -/
def State.cmdWaits (s : State) (m : Msg) (q : QueueId) (o : Op) (p : Packet) : Bool :=
  s.group.rx.any (fun n => n.kind == 1 && n.ctx == m.ctx) || s.waitsHbm q o p

/-- A forwarded command is examined as the command of its context's stream. -/
def State.runCmd (s : State) (m : Msg) : State :=
  let p : Packet := ⟨m.payload.take 64, m.payload.drop 64, none⟩
  let q := QueueId.fwd (Fin.ofNat 16 m.ctx)
  match (opOf p.opcode).bind (fun o => (forwardedEff m o).map (fun f => (o, f))) with
  | none => s.replyGen m.gen q p .badOpcode 0 0 0
  | some (o, f) =>
    if s.cmdWaits m q o p then (s.hbmWait (p.cls == 2)).keepRx m else (s.examine m.gen q o f p).drainRx m.ctx m.tag

/-- LINK_CMD_MESSAGE (R267, R268): executed at a member that is not the top manager. -/
def execLinkCmdMessage (p : Fin 4) (fs : List Flit) (s : State) : Host.Outcome State Fault Refusal :=
  let r := s.receiveMsg p.val 1 fs
  .next (r.1.takeGot r.2 (fun m s => if s.member && !s.top then s.runCmd m else s)).settle

/-- A member reports that its pitch timer ran out (R270): the pitch is aborted here and on every member. -/
def State.groupTimeout (s : State) (m : Msg) : State :=
  let c := Fin.ofNat 16 m.ctx
  match (s.ctx m.ctx).pitch with
  | none => s
  | some p =>
    let t := (s.abortWith m.ctx true .shardMissing .shardMissing .shardMissing).ptimeoutEvent c
    t.sendCmds (abortPacket m.ctx (t.freeTag m.ctx) p.g.gen) p.g.gen (s.others.filter (· ≠ m.src)) noExtra

/-- A member's status of its part. -/
def State.takeStatus (s : State) (m : Msg) : State :=
  match s.cmds.find? (fun d => decide (d.ref.tag = m.tag) && ctxOf d.ref.q d.pkt == m.ctx && d.parts.contains m.src
      && d.pkt.opcode == field m.payload 6 1) with
  | some d =>
    (s.updCmd d.ref (fun d => { d with
      parts := d.parts.erase m.src, merged := Tbl.put d.merged m.src (m.payload.take 16) })).finishParts d.ref
  | none =>
    if field m.payload 6 1 = 0x13 ∧ statusOf (field m.payload 2 1) = .shardMissing then s.groupTimeout m else s

/-- LINK_STATUS_MESSAGE (R267). -/
def execLinkStatusMessage (p : Fin 4) (fs : List Flit) (s : State) : Host.Outcome State Fault Refusal :=
  let r := s.receiveMsg p.val 2 fs
  .next (r.1.takeGot r.2 (fun m s => if s.top then s.takeStatus m else s)).settle

/-- LINK_SIG_MESSAGE (R275): the top manager stores the copy under R241. -/
def execLinkSigMessage (p : Fin 4) (fs : List Flit) (s : State) : Host.Outcome State Fault Refusal :=
  let r := s.receiveMsg p.val 7 fs
  .next (r.1.takeGot r.2 (fun m s => if s.top then s.storeCopy m.payload else s))

/-! ## Ring states (R266) -/

/-- GROUP_POLL: the top manager polls every ring manager. -/
def execGroupPoll (s : State) : Host.Outcome State Fault Refusal :=
  if !s.top then .next s
  else
    .next (s.each s.managers (fun s d =>
      { s with group := { s.group with polls := if s.group.polls.contains d then s.group.polls else s.group.polls ++ [d] } }.send
        (mkMsg 8 0 0 0 0 d s.self 0 0 0 s.self (Config.ctrlPayload 2 []))))

/-- GROUP_POLL_TIMEOUT: the ring counts as DEGRADED, until GROUP_CONFIG forms the system again (R266). -/
def execGroupPollTimeout (mgr : Nat) (s : State) : Host.Outcome State Fault Refusal :=
  if s.group.polls.contains mgr then
    .next { s with group := { s.group with
      polls := s.group.polls.erase mgr, silent := mgr :: s.group.silent, rings := setRing mgr .degraded s.group.rings } }
  else .next s

/-- The state that a poll answer names (log entry 76). -/
def stateOf (n : Nat) : GState := if n = 0 then .forming else if n = 1 then .up else .degraded

/-- A discovery has come: a device adds itself to the members that it names, and passes it on clockwise; the manager that sent it, the
first of them, judges whether its ring has the members and the order of the table (R266). -/
def State.discovery (s : State) (p : Nat) (m : Msg) : State :=
  let pair := pairOf p
  let found := Config.ctrlMembers m.payload
  if found.head? ≠ some s.self then s.ctrlOn (2 * pair + 1) 0 (addrBytes (found ++ [s.self]))
  else if !s.managesPair pair || s.group.fallen.contains pair || ringOf s.group.rings (s.ringKey pair) = some .up then s
  else if found = s.ringOrder pair then { s with group := { s.group with rings := setRing (s.ringKey pair) .up s.group.rings } }
  else s.fall pair

/-- A poll's answer: the state of the manager's ring. A ring that counts as DEGRADED for an unanswered poll stays so while its manager
still tells UP: FORMING tells that it has received GROUP_CONFIG again (log entry 63). -/
def State.pollAnswer (s : State) (m : Msg) : State :=
  let g := stateOf (Config.ctrlState m.payload)
  { s with group := { s.group with
    polls := s.group.polls.erase m.src
    silent := if g = .up then s.group.silent else s.group.silent.filter (· != m.src)
    rings := if g = .up ∧ s.group.silent.contains m.src = true then s.group.rings else setRing m.src g s.group.rings } }

/-- What a CTRL message does (log entry 76). -/
def State.takeCtrl (s : State) (p : Nat) (m : Msg) : State :=
  match Config.ctrlKind m.payload with
  | 0 => s.discovery p m
  | 2 => s.send (mkMsg 8 0 m.tag.toNat 0 0 m.src s.self 1 0 0 s.self (Config.ctrlPayload 3 (leBytes 1 (gCode s.gstate))))
  | 3 => s.pollAnswer m
  | 4 => s.send (mkMsg 8 0 m.tag.toNat 0 0 m.src s.self 1 0 0 s.self (Config.ctrlPayload 5 s.record))
  | 5 =>
    s.each (s.cmds.filter (fun c => decide (c.ref.tag = m.tag) && (match c.work with | .groupStatus _ _ => true | _ => false)))
      (fun s c => s.takeRecord c.ref m.src (ownRecord m.src (Config.ctrlRecord m.payload)))
  | 6 => s.degrade p
  | _ => s

/-- LINK_CTRL_MESSAGE (R251, R266, R274). -/
def execLinkCtrlMessage (p : Fin 4) (fs : List Flit) (s : State) : Host.Outcome State Fault Refusal :=
  let r := s.receiveMsg p.val 8 fs
  .next (r.1.takeGot r.2 (fun m s => s.takeCtrl p.val m))

end Sys2Proof.Machine
end

