-- ==== Sys2Proof/Machine/Resume.lean ====
section
/-! DEFINITION. The start of a governor epoch (R304), and the HBM transfers that have waited for it. -/
namespace Sys2Proof.Machine

/-- Messages that wait for the tokens of their transfer: forwarded commands, and the data of a command that is here. -/
def State.waitingRx (s : State) (m : Msg) : Bool := m.kind == 1 || (s.msgCmd m).isSome

/-- A message that has waited is taken. -/
def State.takeRx (s : State) (m : Msg) : State := if m.kind = 1 then s.runCmd m else s.serve m

/-- The commands whose contribution has still to be sent. -/
def Cmd.unsent (c : Cmd) : Bool := !c.ended && (match c.work with | .coll _ sent => !sent | _ => false)

/-- What has waited for HBM tokens goes on, as far as the new pool takes it: outputs, messages, contributions, shards, training steps. A
packet, and a row that completes something, is tried again by its own row. -/
def State.resume (s : State) : State :=
  let s := s.each (s.cmds.map (·.ref)) State.flushOut
  let ms := s.group.rx.filter s.waitingRx
  let s := ({ s with group := { s.group with rx := s.group.rx.filter (fun m => !s.waitingRx m) } } : State).each ms State.takeRx
  let s := s.each (s.cmds.filter Cmd.unsent) State.contribute
  (s.each (List.range 16) (fun s c => (s.shardLane c).startTrim c)).settle

/-- GOVERNOR_EPOCH (R304). -/
def execGovernorEpoch (s : State) : Host.Outcome State Fault Refusal :=
  if !s.alive then .next s
  else .next { s with gov := s.gov.epoch s.pairs.length s.cfg.wrcap.toNat s.tel.hottest }.resume

end Sys2Proof.Machine
end

