-- ==== Sys2Proof/Machine/Dispatch.lean ====
section
/-! DEFINITION. The dispatch: one arm per command of spec/opcode_table.json. -/
namespace Sys2Proof.Machine

/-- The effect of a command on everything but the queue of waiting commands. -/
def exec (i : Instr) (s : State) : Host.Outcome State Fault Refusal :=
  match i with
  | .nop q => Sys2Proof.Machine.execNop q s
  | .identify q => Sys2Proof.Machine.execIdentify q s
  | .setEnvironment q => Sys2Proof.Machine.execSetEnvironment q s
  | .setEnvelope q => Sys2Proof.Machine.execSetEnvelope q s
  | .ctxOpen q => Sys2Proof.Machine.execCtxOpen q s
  | .ctxClose q => Sys2Proof.Machine.execCtxClose q s
  | .ctxCloseComplete c => Sys2Proof.Machine.execCtxCloseComplete c s
  | .pitchBegin q => Sys2Proof.Machine.execPitchBegin q s
  | .pitchShard q => Sys2Proof.Machine.execPitchShard q s
  | .pitchShardComplete c => Sys2Proof.Machine.execPitchShardComplete c s
  | .packConversion c entry => Sys2Proof.Machine.execPackConversion c entry s
  | .pitchCommit q => Sys2Proof.Machine.execPitchCommit q s
  | .pitchCommitComplete c => Sys2Proof.Machine.execPitchCommitComplete c s
  | .pitchAbort q => Sys2Proof.Machine.execPitchAbort q s
  | .pitchTimeout c => Sys2Proof.Machine.execPitchTimeout c s
  | .swing q => Sys2Proof.Machine.execSwing q s
  | .arraySwing crew slot => Sys2Proof.Machine.execArraySwing crew slot s
  | .run q => Sys2Proof.Machine.execRun q s
  | .runDispatch r => Sys2Proof.Machine.execRunDispatch r s
  | .runComplete r => Sys2Proof.Machine.execRunComplete r s
  | .runBow q => Sys2Proof.Machine.execRunBow q s
  | .runBowComplete r => Sys2Proof.Machine.execRunBowComplete r s
  | .collective q => Sys2Proof.Machine.execCollective q s
  | .collectiveComplete r => Sys2Proof.Machine.execCollectiveComplete r s
  | .fence q => Sys2Proof.Machine.execFence q s
  | .fenceComplete q => Sys2Proof.Machine.execFenceComplete q s
  | .trimLoad q => Sys2Proof.Machine.execTrimLoad q s
  | .lanternPassComplete means => Sys2Proof.Machine.execLanternPassComplete means s
  | .trimRead q => Sys2Proof.Machine.execTrimRead q s
  | .trackCtl q => Sys2Proof.Machine.execTrackCtl q s
  | .refresh q => Sys2Proof.Machine.execRefresh q s
  | .census q => Sys2Proof.Machine.execCensus q s
  | .retrimStep q => Sys2Proof.Machine.execRetrimStep q s
  | .retrimTrainingStep r => Sys2Proof.Machine.execRetrimTrainingStep r s
  | .retrimApply q => Sys2Proof.Machine.execRetrimApply q s
  | .statsRead q => Sys2Proof.Machine.execStatsRead q s
  | .signatureDrain q => Sys2Proof.Machine.execSignatureDrain q s
  | .groupConfig q => Sys2Proof.Machine.execGroupConfig q s
  | .groupStatus q => Sys2Proof.Machine.execGroupStatus q s
  | .fwStage q => Sys2Proof.Machine.execFwStage q s
  | .fwActivate q => Sys2Proof.Machine.execFwActivate q s
  | .selftest q => Sys2Proof.Machine.execSelftest q s
  | .selftestComplete rd => Sys2Proof.Machine.execSelftestComplete rd s
  | .sqDoorbell q v => Sys2Proof.Machine.execSqDoorbell q v s
  | .cqDoorbell q v => Sys2Proof.Machine.execCqDoorbell q v s
  | .queueEnable q v => Sys2Proof.Machine.execQueueEnable q v s
  | .queueDisable q v => Sys2Proof.Machine.execQueueDisable q v s
  | .sqEntryFetch q => Sys2Proof.Machine.execSqEntryFetch q s
  | .ringReadError q => Sys2Proof.Machine.execRingReadError q s
  | .secKeyInstall slot => Sys2Proof.Machine.execSecKeyInstall slot s
  | .secKeyRevoke slot => Sys2Proof.Machine.execSecKeyRevoke slot s
  | .secKeyOpComplete => Sys2Proof.Machine.execSecKeyOpComplete s
  | .trackingReset v => Sys2Proof.Machine.execTrackingReset v s
  | .sineRowModeEnable crew v => Sys2Proof.Machine.execSineRowModeEnable crew v s
  | .mgtSineEnable v => Sys2Proof.Machine.execMgtSineEnable v s
  | .timeLatchRead off len => Sys2Proof.Machine.execTimeLatchRead off len s
  | .trngRead => Sys2Proof.Machine.execTrngRead s
  | .registerWrite fn bar4 off ws => Sys2Proof.Machine.execRegisterWrite fn bar4 off ws s
  | .pitchWindowWrite fn off data => Sys2Proof.Machine.execPitchWindowWrite fn off data s
  | .resetRelease role sb => Sys2Proof.Machine.execResetRelease role sb s
  | .perstAssert ns => Sys2Proof.Machine.execPerstAssert ns s
  | .devRstAssert ns => Sys2Proof.Machine.execDevRstAssert ns s
  | .pfFlr => Sys2Proof.Machine.execPfFlr s
  | .vfFlr n => Sys2Proof.Machine.execVfFlr n s
  | .pcieDlDown => Sys2Proof.Machine.execPcieDlDown s
  | .powerLoss => Sys2Proof.Machine.execPowerLoss s
  | .pllLock => Sys2Proof.Machine.execPllLock s
  | .bistStageComplete rd => Sys2Proof.Machine.execBistStageComplete rd s
  | .bootImageSelect => Sys2Proof.Machine.execBootImageSelect s
  | .sharedFaultDetected f endpoint => Sys2Proof.Machine.execSharedFaultDetected f endpoint s
  | .pllUnlock => Sys2Proof.Machine.execPllUnlock s
  | .refclkLossTimeout => Sys2Proof.Machine.execRefclkLossTimeout s
  | .railToleranceTimeout rail => Sys2Proof.Machine.execRailToleranceTimeout rail s
  | .overtempTimeout => Sys2Proof.Machine.execOvertempTimeout s
  | .nocCreditWatchdog => Sys2Proof.Machine.execNocCreditWatchdog s
  | .tempSample ts => Sys2Proof.Machine.execTempSample ts s
  | .governorBudgetUpdate => Sys2Proof.Machine.execGovernorBudgetUpdate s
  | .governorEpoch => Sys2Proof.Machine.execGovernorEpoch s
  | .railTelemetryAvs rs => Sys2Proof.Machine.execRailTelemetryAvs rs s
  | .railTelemetryPmbus rs => Sys2Proof.Machine.execRailTelemetryPmbus rs s
  | .stroke crew slot => Sys2Proof.Machine.execStroke crew slot s
  | .strokeScanEnd crew slot dev dup => Sys2Proof.Machine.execStrokeScanEnd crew slot dev dup s
  | .checkReplay crew slot => Sys2Proof.Machine.execCheckReplay crew slot s
  | .foldReplay crew slot => Sys2Proof.Machine.execFoldReplay crew slot s
  | .keepWarmStroke crew slot => Sys2Proof.Machine.execKeepWarmStroke crew slot s
  | .sineTestStroke crew dev => Sys2Proof.Machine.execSineTestStroke crew dev s
  | .pitchSlot crew slot reads => Sys2Proof.Machine.execPitchSlot crew slot reads s
  | .refreshStart crew slot => Sys2Proof.Machine.execRefreshStart crew slot s
  | .censusStart crew slot => Sys2Proof.Machine.execCensusStart crew slot s
  | .scheduledCensusDue => Sys2Proof.Machine.execScheduledCensusDue s
  | .maintenanceSlot crew slot reads => Sys2Proof.Machine.execMaintenanceSlot crew slot reads s
  | .refreshComplete crew slot => Sys2Proof.Machine.execRefreshComplete crew slot s
  | .censusComplete crew slot => Sys2Proof.Machine.execCensusComplete crew slot s
  | .kappaUpdate crew slot => Sys2Proof.Machine.execKappaUpdate crew slot s
  | .columnTrackFit crew slot col => Sys2Proof.Machine.execColumnTrackFit crew slot col s
  | .tileArrival r crew err => Sys2Proof.Machine.execTileArrival r crew err s
  | .claimFetchAdd r rep => Sys2Proof.Machine.execClaimFetchAdd r rep s
  | .claimResultsArrival r tag => Sys2Proof.Machine.execClaimResultsArrival r tag s
  | .claimRecovery r => Sys2Proof.Machine.execClaimRecovery r s
  | .partialArrival r second vec split slice err => Sys2Proof.Machine.execPartialArrival r second vec split slice err s
  | .veFetchStart v => Sys2Proof.Machine.execVeFetchStart v s
  | .veDescriptorExecute v err => Sys2Proof.Machine.execVeDescriptorExecute v err s
  | .veDescriptorComplete v => Sys2Proof.Machine.execVeDescriptorComplete v s
  | .twinBlockArrival r second => Sys2Proof.Machine.execTwinBlockArrival r second s
  | .twinRoleExchange crew l => Sys2Proof.Machine.execTwinRoleExchange crew l s
  | .claimWatchdogExpiry r rep => Sys2Proof.Machine.execClaimWatchdogExpiry r rep s
  | .twinAbsentTimeout r => Sys2Proof.Machine.execTwinAbsentTimeout r s
  | .sequencerStallTimeout crew => Sys2Proof.Machine.execSequencerStallTimeout crew s
  | .portTrainingComplete p peer sysId => Sys2Proof.Machine.execPortTrainingComplete p peer sysId s
  | .portTrainingRetry p => Sys2Proof.Machine.execPortTrainingRetry p s
  | .portLinkLoss p => Sys2Proof.Machine.execPortLinkLoss p s
  | .linkIdleFlit p f => Sys2Proof.Machine.execLinkIdleFlit p f s
  | .linkCmdMessage p fs => Sys2Proof.Machine.execLinkCmdMessage p fs s
  | .linkStatusMessage p fs => Sys2Proof.Machine.execLinkStatusMessage p fs s
  | .linkDataMessage p fs => Sys2Proof.Machine.execLinkDataMessage p fs s
  | .linkPartMessage p fs => Sys2Proof.Machine.execLinkPartMessage p fs s
  | .linkAck p f => Sys2Proof.Machine.execLinkAck p f s
  | .linkResend p f => Sys2Proof.Machine.execLinkResend p f s
  | .linkSigMessage p fs => Sys2Proof.Machine.execLinkSigMessage p fs s
  | .linkCtrlMessage p fs => Sys2Proof.Machine.execLinkCtrlMessage p fs s
  | .messageTimeout c tag src step => Sys2Proof.Machine.execMessageTimeout c tag src step s
  | .groupPoll => Sys2Proof.Machine.execGroupPoll s
  | .groupPollTimeout mgr => Sys2Proof.Machine.execGroupPollTimeout mgr s
  | .smbMirrorReadFirst => Sys2Proof.Machine.execSmbMirrorReadFirst s
  | .smbMirrorReadSecond => Sys2Proof.Machine.execSmbMirrorReadSecond s
  | .jtagInstruction op => Sys2Proof.Machine.execJtagInstruction op s
  | .flashProgrammingComplete => Sys2Proof.Machine.execFlashProgrammingComplete s
  | .aeHbmWriteComplete v => Sys2Proof.Machine.execAeHbmWriteComplete v s
  | .groupStatusAnswerTimeout r addr => Sys2Proof.Machine.execGroupStatusAnswerTimeout r addr s
  | .virtualFunctionEnable n en msix => Sys2Proof.Machine.execVirtualFunctionEnable n en msix s

end Sys2Proof.Machine
end

