-- ==== Sys2Proof/WellFormed.lean ====
section
/-! DEFINITION. Well-formed commands: what the operand types alone do not say. A packet command names a ring, since no packet
row is offered on the stream of forwarded commands; a physical event carries as many readings as the unit makes; a flit has
its 32-byte header and 1,088-byte payload. -/
namespace Sys2Proof

/-- A queue with a ring in host memory (R166). -/
def QueueId.isRing : QueueId → Bool
  | .fwd _ => false
  | _ => true

/-- A flit has the lengths of R252. -/
def Flit.wf (f : Flit) : Bool := f.hdr.length == 32 && f.payload.length == 1088

/-- A message arrives as one or more flits (R252). -/
def flitsWf (fs : List Flit) : Bool := !fs.isEmpty && fs.all Flit.wf

/-- A parity error names a structure and an instance that exist (R356). -/
def ParityErr.wf (e : ParityErr) : Bool :=
  let i := e.hop.toNat % 4096
  match e.hop.toNat / 4096 with
  | 0 | 1 => i == 0
  | 2 => decide (i < 5)
  | 3 => decide (i < 4)
  | 4 | 5 | 8 => decide (i < 256)
  | 6 | 9 => decide (i < 32)
  | 7 => decide (i < 2)
  | _ => false

/-- The same of an event that may carry one. -/
def errWf : Option ParityErr → Bool
  | none => true
  | some e => e.wf

/-- The readings of the self-test stages have the numbers of cells, codes and strokes of R310 and R311. -/
def BistReading.wf (r : BistReading) : Bool :=
  r.arrays.all (fun a => a.cells.length == 8 && a.lan.length == 8 && a.data.length == 512)
  && r.adcs.all (fun a => a.dev.length == 65536)

/-- A command is well formed. -/
def Instr.wf : Instr → Bool
  | .nop q => q.isRing
  | .identify q => q.isRing
  | .setEnvironment q => q.isRing
  | .setEnvelope q => q.isRing
  | .ctxOpen q => q.isRing
  | .ctxClose q => q.isRing
  | .ctxCloseComplete _ => true
  | .pitchBegin q => q.isRing
  | .pitchShard q => q.isRing
  | .pitchShardComplete e => errWf e.err
  | .packConversion c entry => decide (entry < 65536) && errWf c.err
  | .pitchCommit q => q.isRing
  | .pitchCommitComplete _ => true
  | .pitchAbort q => q.isRing
  | .pitchTimeout _ => true
  | .swing q => q.isRing
  | .arraySwing _ _ => true
  | .run q => q.isRing
  | .runDispatch _ => true
  | .runComplete e => errWf e.err
  | .runBow q => q.isRing
  | .runBowComplete e => errWf e.err
  | .collective q => q.isRing
  | .collectiveComplete e => errWf e.err
  | .fence q => q.isRing
  | .fenceComplete q => q.isRing
  | .trimLoad q => q.isRing
  | .lanternPassComplete means => means.all (fun e => decide (e.1 < 69632))
  | .trimRead q => q.isRing
  | .trackCtl q => q.isRing
  | .refresh q => q.isRing
  | .census q => q.isRing
  | .retrimStep q => q.isRing
  | .retrimTrainingStep e => errWf e.err
  | .retrimApply q => q.isRing
  | .statsRead q => q.isRing
  | .signatureDrain q => q.isRing
  | .groupConfig q => q.isRing
  | .groupStatus q => q.isRing
  | .fwStage q => q.isRing
  | .fwActivate q => q.isRing
  | .selftest q => q.isRing
  | .selftestComplete rd => rd.wf
  | .sqDoorbell q _ => q.isRing
  | .cqDoorbell q _ => q.isRing
  | .queueEnable q _ => q.isRing
  | .queueDisable q _ => q.isRing
  | .sqEntryFetch q => q.unit.isRing && errWf q.err
  | .ringReadError q => q.isRing
  | .secKeyInstall _ => true
  | .secKeyRevoke _ => true
  | .secKeyOpComplete => true
  | .trackingReset _ => true
  | .sineRowModeEnable _ _ => true
  | .mgtSineEnable _ => true
  | .timeLatchRead off len => decide (off ≤ 0x700000 ∧ 0x700000 < off + len)
  | .trngRead => true
  | .registerWrite _ _ off ws => decide (off % 4 = 0) && !ws.isEmpty
  | .pitchWindowWrite _ _ data => !data.isEmpty
  | .resetRelease _ _ => true
  | .perstAssert _ => true
  | .devRstAssert _ => true
  | .pfFlr => true
  | .vfFlr _ => true
  | .pcieDlDown => true
  | .powerLoss => true
  | .pllLock => true
  | .bistStageComplete rd => rd.wf
  | .bootImageSelect => true
  | .sharedFaultDetected _ _ => true
  | .pllUnlock => true
  | .refclkLossTimeout => true
  | .railToleranceTimeout _ => true
  | .overtempTimeout => true
  | .nocCreditWatchdog => true
  | .tempSample ts => ts.length == 7
  | .governorBudgetUpdate => true
  | .governorEpoch => true
  | .railTelemetryAvs rs => rs.length == 2
  | .railTelemetryPmbus rs => rs.length == 4
  | .stroke _ _ => true
  | .strokeScanEnd _ _ dev _ => dev.length == 576
  | .checkReplay _ _ => true
  | .foldReplay _ _ => true
  | .keepWarmStroke _ _ => true
  | .sineTestStroke _ dev => dev.length == 8
  | .pitchSlot _ _ reads => reads.length == 520
  | .refreshStart _ _ => true
  | .censusStart _ _ => true
  | .scheduledCensusDue => true
  | .maintenanceSlot _ _ reads => reads.length == 520
  | .refreshComplete _ _ => true
  | .censusComplete _ _ => true
  | .kappaUpdate _ _ => true
  | .columnTrackFit _ _ _ => true
  | .tileArrival _ _ e => errWf e
  | .claimFetchAdd _ _ => true
  | .claimResultsArrival r _ => errWf r.err
  | .claimRecovery _ => true
  | .partialArrival _ _ _ _ _ e => errWf e
  | .veFetchStart e => errWf e.err
  | .veDescriptorExecute _ e => errWf e
  | .veDescriptorComplete _ => true
  | .twinBlockArrival e _ => errWf e.err
  | .twinRoleExchange _ _ => true
  | .claimWatchdogExpiry _ _ => true
  | .twinAbsentTimeout _ => true
  | .sequencerStallTimeout _ => true
  | .portTrainingComplete _ peer _ => decide (peer < 4096)
  | .portTrainingRetry _ => true
  | .portLinkLoss _ => true
  | .linkIdleFlit _ f => f.wf
  | .linkCmdMessage _ fs => flitsWf fs
  | .linkStatusMessage _ fs => flitsWf fs
  | .linkDataMessage _ fs => flitsWf fs
  | .linkPartMessage _ fs => flitsWf fs
  | .linkAck _ f => f.wf
  | .linkResend _ f => f.wf
  | .linkSigMessage _ fs => flitsWf fs
  | .linkCtrlMessage _ fs => flitsWf fs
  | .messageTimeout _ _ src step => decide (src < 4096) && decide (step < 65536)
  | .groupPoll => true
  | .groupPollTimeout mgr => decide (mgr < 4096)
  | .smbMirrorReadFirst => true
  | .smbMirrorReadSecond => true
  | .jtagInstruction _ => true
  | .flashProgrammingComplete => true
  | .aeHbmWriteComplete v => errWf v.err
  | .groupStatusAnswerTimeout _ addr => decide (addr < 4096)
  | .virtualFunctionEnable _ _ _ => true

end Sys2Proof
end

