-- ==== Sys2Proof/Safety.lean ====
section
/-! DEFINITION. The terms in which claims are stated: the canonical form of the state, what every step keeps, a command offered
at the front of its queue, and a status entry written. -/
namespace Sys2Proof.Machine

/-- Every table of the device and the host's memory stand in their canonical form, so that equal devices are equal data. -/
structure Canonical (s : State) : Prop where
  host : Memory.wf s.host
  queues : Tbl.wf Queue.dflt s.queues
  ctxs : Tbl.wf Ctx.dflt s.ctxs
  crews : Tbl.wf Crew.dflt s.crews
  arrs : Tbl.wf Arr.reset s.arrs
  ves : Tbl.wf Ve.dflt s.ves
  ports : Tbl.wf Port.dflt s.ports
  counters : Tbl.wf counterDflt s.counters

/-- What a command that resets nothing keeps: the waiting commands are untouched, the canonical form holds, and a device in
SAFE stays there with the cause that COX_SAFE shows (R243, R245). -/
structure Keeps (s t : State) : Prop where
  pending : t.pending = s.pending
  canonical : Canonical s → Canonical t
  safe : s.dev.st = .safe → t.dev.st = .safe ∧ t.dev.safeCause = s.dev.safeCause

/-- The rows that reset the device, or end with its restart (R182, R199, R295). -/
def resets : Instr → Bool
  | .perstAssert _ => true
  | .devRstAssert _ => true
  | .pfFlr => true
  | .pcieDlDown => true
  | .powerLoss => true
  | .flashProgrammingComplete => true
  | _ => false

/-- Packet `p` is the next entry of queue `q`, has opcode `o`, may be examined, and passes checks 1 to 6 of R181; the HBM transfer
within its effect, if it has one, need not wait for tokens (R304; log entry 50). -/
def Offers (s : State) (q : QueueId) (o : Op) (p : Packet) : Prop :=
  (s.queue q).fetched.head? = some p ∧ p.opcode = o.code ∧ s.examinable q = true ∧ s.admission q o p = none
    ∧ (s.movesHbm o p = true → s.hbmOpen (p.cls == 2) = true)

/-- A ring offers packet `p`, and host memory is in its canonical form. -/
def Presents (s : State) (q : QueueId) (o : Op) (p : Packet) : Prop :=
  Memory.wf s.host ∧ q.isRing = true ∧ Offers s q o p

/-- The address of the next status entry of a queue (R171). -/
def State.statusAddr (s : State) (q : QueueId) : Nat := (s.queue q).cqBase.toNat + 16 * (s.queue q).cqTail.toNat

/-- Vector `v` of function `fn`, 0 the physical one, is masked (R201, R202). -/
def State.vectorMasked (s : State) (fn v : Nat) : Bool :=
  if fn = 0 then (s.dev.msix.get msixDflt (16 * v + 12)).getLsbD 0
  else (s.dev.vfTable.get msixDflt (48 * (fn - 1) + 16 * v + 12)).getLsbD 0

/-- From `m` to `t` vector `v` of function `fn` has been raised: its message leaves the device, or it pends while it is masked;
nothing leaves a faulty endpoint (R183). -/
structure Raised (m t : State) (fn v : Nat) : Prop where
  faulty : m.dev.endpointFault = true → t.outs = m.outs ∧ t.dev = m.dev
  sent : m.dev.endpointFault = false → m.vectorMasked fn v = false → t.outs = .msix fn v :: m.outs ∧ t.dev = m.dev
  pends : m.dev.endpointFault = false → m.vectorMasked fn v = true → t.outs = m.outs
    ∧ t.dev = if fn = 0 then { m.dev with pba := m.dev.pba ||| BitVec.ofNat 64 (2 ^ v) }
      else { m.dev with vfPba := m.dev.vfPba ||| BitVec.ofNat 64 (2 ^ (3 * (fn - 1) + v)) }

/-- The function and vector of a queue's completions (R201, R202). -/
def State.vectorOf (s : State) (q : QueueId) : Nat × Nat :=
  match q with
  | .admin | .fwd _ => (0, 0)
  | .ctx c => if s.dev.vfMsix.getLsbD c.val then (c.val + 1, 0) else (0, 2 + c.val)
  | .bow c => if s.dev.vfMsix.getLsbD c.val then (c.val + 1, 1) else (0, 18 + c.val)

/-- From `s` to `t` one signature of a kind has been emitted (R239 to R242): it stands in the mirror and, where the store has room, last
in the store; a full store counts it as discarded. -/
def Signed (s t : State) (kind : Nat) (i : SigInfo) : Prop :=
  t.sig = { s.sig with
    seq := s.sig.seq + 1
    mirror := (if s.sig.mirror.length < 16 then s.sig.mirror else s.sig.mirror.drop 1) ++ [s.sigBytes kind i]
    store := if s.sig.store.length < 1024 then s.sig.store ++ [s.sigBytes kind i] else s.sig.store
    lost := if s.sig.store.length < 1024 then 0 else s.sig.lost + 1 }

/-- What the signature of a parity error says (R223, R239, R240): the status PARITY, where the detecting structure lies, hop code and
failing word address. -/
def parityInfo (e : ParityErr) (ctx tag : Option Nat) : SigInfo :=
  { ctx := ctx, tag := tag, status := some 0x22, loc := hopLoc (bitsOf e.hop.toNat 12 4) (bitsOf e.hop.toNat 0 12)
    data := leBytes 2 e.hop.toNat ++ leBytes 8 e.addr.toNat }

/-- The error `e` of a command has been found: a signature of kind 0x01, the only one unless the event benches its crew. -/
def Found (s t : State) (r : CmdRef) (e : ParityErr) : Prop :=
  s.sig.seq < t.sig.seq
  ∧ (crewHop (bitsOf e.hop.toNat 12 4) = false → Signed s t 0x01 (parityInfo e (qCtx r.q) (some r.tag.toNat)))

/-- What the signature of a failed message says (R237, R240): COLL_ID, STEP, sender, and why it failed, 0 by its digest, 1 by parity or
FEC, 2 as missing; where the second failure ends a command, its status. -/
def State.failInfo (s : State) (m : Msg) (why : Nat) (st : Option Status) : SigInfo :=
  { ctx := some m.ctx, tag := some m.tag.toNat, status := st.map statusCode
    data := leBytes 4 (s.expected m).coll ++ leBytes 2 m.step ++ leBytes 2 (s.expected m).sender ++ leBytes 1 why }

/-- A message is a contribution of a COLLECTIVE that is in flight here. -/
def State.contributes (s : State) (m : Msg) : Prop :=
  m.kind = 3 ∧ ∃ c got sent, s.msgCmd m = some c ∧ c.work = .coll got sent

/-- From `m` to `t` one status entry of packet `p` has been written on ring `q` (R171, R174), and nothing else: its 16 bytes
stand at the status tail and no other byte of host memory differs; the tail has advanced, the phase inverts where it wraps, one
more entry waits for the host; no other queue has changed, and of the rest only the acceptance count and, where R203 asks for
an interrupt, what has left the device or pends in it: the completion vector of the queue. -/
structure Answered (m t : State) (q : QueueId) (p : Packet) (st : Status) (mod r0 r1 : Nat) : Prop where
  entry : Memory.readBytes t.host (m.statusAddr q) 16
    = statusEntry p st mod (m.queue q).sqHead.toNat r0 r1 (m.queue q).phase
  others : ∀ a, a < m.statusAddr q ∨ m.statusAddr q + 16 ≤ a → Memory.read t.host a = Memory.read m.host a
  ring : t.queue q = { m.queue q with
    cqTail := if (m.queue q).cqTail.toNat + 1 = 2 ^ (m.queue q).size.toNat then 0 else (m.queue q).cqTail + 1
    phase := if (m.queue q).cqTail.toNat + 1 = 2 ^ (m.queue q).size.toNat then !(m.queue q).phase else (m.queue q).phase
    unread := (m.queue q).unread + 1 }
  queues : ∀ k, k ≠ q → t.queue k = m.queue k
  quiet : p.irq = false → statusGood st = true → t.outs = m.outs ∧ t.dev = m.dev
  loud : p.irq = true ∨ statusGood st = false → Raised m t (m.vectorOf q).1 (m.vectorOf q).2
  rest : t = { m with
    queues := t.queues, host := t.host, outs := t.outs, seq := t.seq
    dev := { m.dev with pba := t.dev.pba, vfPba := t.dev.vfPba } }

/-- A command whose only part is this device's: it came through a ring and waits for no member (R267). -/
def Cmd.alone (c : Cmd) : Prop := c.ref.q.isRing = true ∧ c.parts = [] ∧ c.merged = []

/-- Such a command whose completion has no effect beyond its status entry: it is not one of those (CTX_OPEN, CTX_CLOSE,
PITCH_BEGIN, PITCH_COMMIT, SWING) that take hold when they complete (R177). -/
def Cmd.lone (c : Cmd) : Prop := c.alone ∧ c.pkt.opcode ∉ [0x08, 0x09, 0x10, 0x12, 0x14]

/-- From `m` to `t` command `c` has completed (R176, R177): its record and its held copies are gone, and its status entry is
written; a status decided before execution, or OK_EMPTY, carries no modifier. -/
def Ends (m t : State) (c : Cmd) (st : Status) (r0 r1 : Nat) : Prop :=
  Answered ((m.dropCmd c.ref).releaseHeld c) t c.ref.q c.pkt st
    (if statusRank st = 0 ∨ st = .okEmpty then 0 else modBits c.sat c.folded c.patched) r0 r1

/-- The device has entered SAFE with a cause (R183, R245, R246): FAULT_N is asserted; the RWL fields are locked
(R8); no command is in flight; arrays, VEs and
background activity have stopped; the bypasses are closed, and a member counts the rings that it leaves as DEGRADED (R266); the queues
stay enabled; PCI_QEVT.SAFE is set, and one signature of kind 0x16 has been made, with the cause. -/
structure EntersSafe (s t : State) (cause : Nat) : Prop where
  mark : Signed s t 0x16 { data := leBytes 1 cause }
  state : t.dev.st = .safe
  cause : t.dev.safeCause = BitVec.ofNat 8 cause
  faultN : t.dev.faultN = true
  locked : t.dev.locked = true
  cmds : t.cmds = []
  arrays : ∀ a, (t.arr a).jobs = [] ∧ (t.arr a).shots = [] ∧ (t.arr a).replays = [] ∧ (t.arr a).refresh = false
    ∧ (t.arr a).census = false ∧ (t.arr a).prog = none
  engines : ∀ v, (t.ve v).ring = [] ∧ (t.ve v).writes = []
  waiting : t.parts = [] ∧ t.censusQ = [] ∧ t.refreshQ = []
  ports : ∀ p, p < 4 → (t.port p).up = false ∧ (t.port p).bypass = true
  queues : ∀ q, (t.queue q).enable = (s.queue q).enable
  event : (t.queue .admin).evt1 = true
  rings : ∀ pair, pair < 2 → s.member = true → (s.port (2 * pair)).bypass = false ∨ (s.port (2 * pair + 1)).bypass = false →
    pair ∈ t.group.fallen ∧ (s.managesPair pair = true → ∀ e ∈ t.group.rings, e.1 = s.ringKey pair → e.2 = .degraded)

/-- From `s` to `t` the crews `ks` have been benched with a cause (R233, R234). A crew that was not benched before stops: its
tiles, its accumulations and the work of its arrays are gone, and one signature is made; no command that needed it runs on;
a pitch on it that has not been swung is aborted, with the mark of R152 where its PITCH_BEGIN has completed; a REFRESH or CENSUS that
needed one of its arrays will end with CHECK_FAIL. Every other crew stays as it is in service. -/
structure Benches (s t : State) (ks : List Nat) (cause : Nat) : Prop where
  benched : ∀ k ∈ ks, (t.crew k).benched = true
  fresh : ∀ k ∈ ks, (s.crew k).benched = false → (t.crew k).cause = BitVec.ofNat 4 cause ∧ (t.crew k).tiles = []
    ∧ (t.crew k).comb = [] ∧ s.sig.seq < t.sig.seq
  arrays : ∀ k ∈ ks, (s.crew k).benched = false → ∀ m, m < 17 → (t.arr (arrIdx k m)).jobs = []
    ∧ (t.arr (arrIdx k m)).replays = [] ∧ (t.arr (arrIdx k m)).shots = [] ∧ (t.arr (arrIdx k m)).prog = none
    ∧ (t.arr (arrIdx k m)).refresh = false ∧ (t.arr (arrIdx k m)).census = false
  commands : ∀ k ∈ ks, (s.crew k).benched = false → ∀ x ∈ s.cmds, s.needsCrew x k = true →
    ∀ y ∈ t.cmds, y.ref = x.ref → y.ended = true
  pitches : ∀ k ∈ ks, (s.crew k).benched = false → ∀ c p, c < 16 → (s.ctx c).pitch = some p →
    (∃ y ∈ p.g.assigns, y.crew = k) → (t.ctx c).pitch = none
      ∧ (p.begun = true → (t.ctx c).aborted = p.g.gen ∧ (t.ctx c).abortMark = true)
  treatments : ∀ k ∈ ks, (s.crew k).benched = false → ∀ x ∈ s.cmds, ∀ left n m, x.work = .arrays left n → m < 17 →
    arrIdx k m ∈ left → x.outcome = .ok → (∀ z ∈ s.cmds, z.ref = x.ref → z = x) →
    ∀ y ∈ t.cmds, y.ref = x.ref → y.outcome = .checkFail
  others : ∀ n, n ∉ ks → (t.crew n).benched = (s.crew n).benched ∧ (t.crew n).cause = (s.crew n).cause

/-- Between `s` and `t` the ring on the pair of port `p` has fallen for this device (R266; log entry 89): a member that did not
know it yet is silent on the pair from then on, tells the ring on the other port if that is UP, holding a copy of the notice, and,
where it manages the ring, keeps it DEGRADED. -/
structure RingFalls (s t : State) (p : Nat) : Prop where
  before : s.member = false ∨ pairOf p ∈ s.group.fallen → t.group = s.group ∧ t.outs = s.outs
  falls : s.member = true → pairOf p ∉ s.group.fallen → t.group.fallen = s.group.fallen ++ [pairOf p]
    ∧ t.group.rings = (if s.managesPair (pairOf p) then setRing (s.ringKey (pairOf p)) .degraded s.group.rings else s.group.rings)
    ∧ (let o := if p % 2 = 0 then p + 1 else p - 1
       t.group.held = s.group.held ++ [s.ctrlMsg o 6 []]
       ∧ t.outs = if (s.port o).up then .link o (s.ctrlMsg o 6 []).flits :: s.outs else s.outs)
  rest : t.group = { s.group with fallen := t.group.fallen, rings := t.group.rings, held := t.group.held }

/-- Array `x` has taken a live conductance of the lantern cell `pk` whose factory value is `f` (R83): one that is more than 1.0 microsiemens
off, or is no number, is LANBAD, and the factory value stands. -/
def TakesLantern (x : Arr) (pk : Nat) (f live : F16) : Prop :=
  if f16Finite live = true ∧ absQ (f16Q live - f16Q f) ≤ 1 then x.lan.get zero16 pk = live
  else x.lan.get zero16 pk = f ∧ x.lanBad = true

/-- Array `a` and its crew hold what a trim record gives them (R82, R357): spare map, column and DAC trim, and tracking at its reset
values, CONV among them. -/
structure Trimmed (s : State) (r : List Byte) (a : Nat) : Prop where
  spare : (s.crew (a / 17)).spare = BitVec.ofNat 5 (trimSpare r (a / 17)) ∧ (s.crew (a / 17)).spareValid = true
  trim : (s.arr a).fTrim = trimCols r a ∧ (s.arr a).dac = trimDac r a
  track : (s.arr a).kappa = 0x3F800000#32 ∧ (s.arr a).tTrim = [] ∧ (s.arr a).tWin = 25 ∧ (s.arr a).conv = false

/-- Array `a` tracks as a field appendix gives it (R79, R85): a finite kappa, gains and offsets of its columns clamped to their ranges, T_win
the temperature now, CONV clear. -/
def TakesAppendix (s : State) (ap : List Byte) (a : Nat) : Prop :=
  let e := slice ap (80 + 2116 * a) 2116
  (∀ n q, f32Val (BitVec.ofNat 32 (field e 0 4)) = .fin n q → (s.arr a).kappa =
      if q < 7 / 10 then f32Rat (7 / 10) else if 13 / 10 < q then f32Rat (13 / 10) else BitVec.ofNat 32 (field e 0 4))
  ∧ (∀ j, j < 512 → (s.arr a).tTrim.get trimDflt j = (BitVec.ofInt 16 (clampInt (-128) 128 (signedOf 16 (field e (38 + 4 * j) 2))),
      BitVec.ofInt 16 (clampInt 31458 34078 (field e (36 + 4 * j) 2))))
  ∧ (s.arr a).tWin = s.tNow a ∧ (s.arr a).conv = false

/-- A message has been accepted (R237, R255): it is no longer remembered as failed, and an ACK leaves for its sender. -/
def State.acked (s : State) (m : Msg) : State := (s.forget m).ack m

/-- The row of an opcode on a queue (R190). -/
def Op.row : Op → QueueId → Instr
  | .nop, q => .nop q
  | .identify, q => .identify q
  | .setEnvironment, q => .setEnvironment q
  | .setEnvelope, q => .setEnvelope q
  | .ctxOpen, q => .ctxOpen q
  | .ctxClose, q => .ctxClose q
  | .pitchBegin, q => .pitchBegin q
  | .pitchShard, q => .pitchShard q
  | .pitchCommit, q => .pitchCommit q
  | .pitchAbort, q => .pitchAbort q
  | .swing, q => .swing q
  | .run, q => .run q
  | .runBow, q => .runBow q
  | .collective, q => .collective q
  | .fence, q => .fence q
  | .trimLoad, q => .trimLoad q
  | .trimRead, q => .trimRead q
  | .trackCtl, q => .trackCtl q
  | .refresh, q => .refresh q
  | .census, q => .census q
  | .retrimStep, q => .retrimStep q
  | .retrimApply, q => .retrimApply q
  | .statsRead, q => .statsRead q
  | .signatureDrain, q => .signatureDrain q
  | .groupConfig, q => .groupConfig q
  | .groupStatus, q => .groupStatus q
  | .fwStage, q => .fwStage q
  | .fwActivate, q => .fwActivate q
  | .selftest, q => .selftest q

end Sys2Proof.Machine
end

