-- ==== Sys2Proof/Certificates/Slice0/Obligations.lean ====
section
/-! DEFINITION. The statements for the provers. -/
open Sys2Proof Sys2Proof.Machine

/-- O1. For every command c, every list rest and every state whose waiting commands are c followed by rest, the step is
exec of c on that state with rest waiting. The queue of waiting commands is the form of a block model, and no rule of
the spec. (07_commands_queues_states R177) -/
def Obligations.StepTakesTheFront : Prop :=
  ∀ (c : Instr) (rest : List Instr) (s : State), s.pending = c :: rest → step s = exec c { s with pending := rest }

/-- O2. With no command waiting the step answers a next state. Before the release of the reset nothing changes. After it
the time base has advanced by 10 ns before the root PLL has locked, and nothing else changes; from then on it advances
by 5 ns, the phase of the management sine generator and of every crew generator by two CLK_A cycles, and a verify slot
that occupies an array is one cycle nearer to its end; nothing else changes. That an idle step is one cycle of CLK_M
is the choice of the model (log entry 1). (12_clocks_resets_power_boot R292, 02_arrays_and_strokes R44,
02_arrays_and_strokes R40) -/
def Obligations.IdleStepCountsTime : Prop :=
  ∀ s : State, Canonical s → s.pending = [] → ∃ t, step s = .next t
    ∧ (s.dev.released = false → t = s)
    ∧ (s.dev.released = true →
        t.dev = { s.dev with timeBase := s.dev.timeBase + (if s.dev.pllLocked then 5 else 10) }
        ∧ (s.dev.pllLocked = false → t = { s with dev := t.dev })
        ∧ (s.dev.pllLocked = true →
            t.cfg = { s.cfg with sinePhase := s.cfg.sinePhase + 2 * s.cfg.sineFtw }
            ∧ (∀ n, t.crew n = { s.crew n with sine := { (s.crew n).sine with
                phase := (s.crew n).sine.phase + 2 * (s.crew n).sine.ftw } })
            ∧ (∀ a, t.arr a = { s.arr a with verify := (s.arr a).verify - 1 })
            ∧ t = { s with dev := t.dev, cfg := t.cfg, crews := t.crews, arrs := t.arrs }))

/-- O3. For every well-formed command and every state, exec answers a next state: no command of the table is refused, and
none faults on its operands. Which operands are well formed is said by Instr.wf. A scan end without 576 deviations, a
verify or maintenance slot without 520 readings, a temperature sample without 7, telemetry without 2 or 4 readings,
and a test stroke without 8 deviations end in the fault malformedEvent. Such an event does not exist; the fault is the
form of the model. (07_commands_queues_states R177, 07_commands_queues_states R179, 02_arrays_and_strokes R29,
06_pitching_weights R157, 12_clocks_resets_power_boot R300, 13_register_map R334) -/
def Obligations.WellFormedCommandsComplete : Prop :=
  (∀ (i : Instr) (s : State), i.wf = true → ∃ t, exec i s = .next t)
  ∧ (∀ (s : State) (k : Fin 256) (a : Fin 17),
    (∀ (dev : List Int) (dup : Option Nat), dev.length ≠ 576 → exec (.strokeScanEnd k a dev dup) s = .fault .malformedEvent)
    ∧ (∀ l : List Nat, l.length ≠ 520 →
        exec (.pitchSlot k a l) s = .fault .malformedEvent ∧ exec (.maintenanceSlot k a l) s = .fault .malformedEvent)
    ∧ (∀ l : List (BitVec 16), l.length ≠ 7 → exec (.tempSample l) s = .fault .malformedEvent)
    ∧ (∀ l : List RailReading, l.length ≠ 2 → exec (.railTelemetryAvs l) s = .fault .malformedEvent)
    ∧ (∀ l : List RailReading, l.length ≠ 4 → exec (.railTelemetryPmbus l) s = .fault .malformedEvent)
    ∧ (∀ l : List Int, l.length ≠ 8 → exec (.sineTestStroke k l) s = .fault .malformedEvent))

/-- O4. For every state in canonical form, in particular for states that no run reaches, if the step answers a next state,
that state is in canonical form: the memory of the host and the tables of queues, contexts, crews, arrays, vector
engines, ports and counters list rising keys and no entry with its default value. Whatever a command does, the queue
of waiting commands after it is the one before it. The queue is the form of a block model. (01_device_overview R4,
07_commands_queues_states R166, 13_register_map R321, 07_commands_queues_states R177) -/
def Obligations.CanonicalFormIsKept : Prop :=
  (∀ s t : State, Canonical s → step s = .next t → Canonical t)
  ∧ (∀ (i : Instr) (s t : State), exec i s = .next t → t.pending = s.pending)

/-- O5. State.reset is in canonical form with nothing waiting; the device is in RESET_HOLD with FAULT_N asserted, no
command in flight, no signature, no trim record and no environment; every context is CLOSED, every queue is disabled
and PCI_QCFG reads its value for the kind of the page; arrays, crews, vector engines and ports have the reset values
of their registers. (01_device_overview R2, 07_commands_queues_states R169, 07_commands_queues_states R182,
07_commands_queues_states R184, 08_latency_and_bow_class R209, 09_dependability R245, 09_dependability R247,
05_crews_tiling_dataflow R136, 02_arrays_and_strokes R25, 02_arrays_and_strokes R42) -/
def Obligations.ResetLeavesTheSpecifiedState : Prop :=
  Canonical State.reset ∧ State.reset.pending = [] ∧ State.reset.cmds = []
    ∧ State.reset.dev.st = .resetHold ∧ State.reset.dev.faultN = true ∧ State.reset.dev.timeBase = 0
    ∧ State.reset.env.envSet = false ∧ State.reset.env.trimLoaded = false
    ∧ State.reset.sig = ⟨[], 0, 0, []⟩
    ∧ (∀ c : Nat, State.reset.ctx c = Ctx.reset)
    ∧ State.reset.qcfg .admin = 0x40000006#32
    ∧ (∀ c : Fin 16, State.reset.qcfg (.ctx c) = 0x40010006#32 ∧ State.reset.qcfg (.bow c) = 0x40020006#32)
    ∧ State.reset.reg 0x000000 = 0x09A41140#32 ∧ State.reset.reg 0x000040 = 0x00200006#32
    ∧ State.reset.reg 0x00004C = 0#32
    ∧ (∀ n : Nat, (State.reset.crew n).spareReg = 0x10#32 ∧ (State.reset.crew n).resvReg = 0#32
        ∧ (State.reset.crew n).checkReg = 0#32 ∧ (State.reset.crew n).benched = false)
    ∧ (∀ a : Nat, (State.reset.arr a).step = 4 ∧ (State.reset.arr a).rate = 0 ∧ (State.reset.arr a).foldReg = 0#32
        ∧ (State.reset.arr a).bankReg = 0#32 ∧ (State.reset.arr a).kappa = 0x3F800000#32)
    ∧ (∀ v : Nat, (State.reset.ve v).ring = []) ∧ (∀ p : Nat, (State.reset.port p).up = false)

/-- O6. For every state in SAFE whose next command is none of the rows that reset the device (PERST_N, DEV_RST_N,
function-level reset of the physical function, loss of the PCIe link or of power, the end of a firmware activation),
the step leaves the device in SAFE with the same CAUSE. (09_dependability R248, 09_dependability R245,
07_commands_queues_states R182) -/
def Obligations.SafeIsLeftOnlyByReset : Prop :=
  ∀ s t : State, s.dev.st = .safe → (∀ c, s.pending.head? = some c → resets c = false) → step s = .next t →
    t.dev.st = .safe ∧ t.dev.safeCause = s.dev.safeCause

/-- O7. For every opcode and every ring: where the next fetched entry has the opcode and may be examined, and a check
before the opcode specific ones fails with a status, the row answers that status with both results 0 and no modifier,
raises the completion vector of its queue, which is sent or, where it is masked, pends (R203), and changes nothing
else but the ring; where the next entry is another one, or may not be examined, the row changes nothing.
(07_commands_queues_states R181, 07_commands_queues_states R177, 07_commands_queues_states R171,
07_commands_queues_states R174, 07_commands_queues_states R179, 07_commands_queues_states R201,
07_commands_queues_states R202, 07_commands_queues_states R203) -/
def Obligations.FailedCheckIsAnsweredAlone : Prop :=
  ∀ (o : Op) (q : QueueId) (s : State), Memory.wf s.host → q.isRing = true →
    (∀ (p : Packet) (st : Status), (s.queue q).fetched.head? = some p → p.opcode = o.code → s.examinable q = true →
      s.admission q o p = some st → ∃ t, exec (o.row q) s = .next t ∧ Answered (s.popFetched q) t q p st 0 0 0)
    ∧ ((∀ p, (s.queue q).fetched.head? = some p → p.opcode ≠ o.code ∨ s.examinable q = false) → exec (o.row q) s = .next s)

/-- O8. In SAFE, a packet of any opcode other than NOP, IDENTIFY, FENCE, STATS_READ, SIGNATURE_DRAIN and GROUP_STATUS
fails the first check with FAULT, and one of these six does not. While a context is CLOSING, every packet of its two
queues fails a check, unless its opcode is NOP, IDENTIFY or FENCE; one that passes the first five checks fails with
STATE. (07_commands_queues_states R183, 07_commands_queues_states R181, 07_commands_queues_states R185) -/
def Obligations.SafeServesSixCommands : Prop :=
  (∀ (s : State) (q : QueueId) (o : Op) (p : Packet), s.dev.st = .safe →
    (o ∉ [Op.nop, .identify, .fence, .statsRead, .signatureDrain, .groupStatus] → s.admission q o p = some .fault)
    ∧ (o ∈ [Op.nop, .identify, .fence, .statsRead, .signatureDrain, .groupStatus] → s.admission q o p ≠ some .fault))
  ∧ (∀ (s : State) (c : Fin 16) (q : QueueId) (o : Op) (p : Packet), q = .ctx c ∨ q = .bow c → (s.ctx c.val).st = .closing →
    o ∉ [Op.nop, .identify, .fence] → p.ctx = c.val →
    s.admission q o p ≠ none
    ∧ (s.dev.st ≠ .safe → o.queueOk q = true → o.classOk p.cls = true → p.headerRsvOk = true → p.paramRsvOk o = true →
        p.batchFieldsOk o = true → addrRsvOk p.dataAddr = true → addrRsvOk p.resultAddr = true →
        s.cmds.any (fun x => decide (x.ref = ⟨q, p.tag⟩)) = false → s.admission q o p = some .state))

/-- O9. A NOP with no address and no length completes with OK, one with any completes with BAD_PARAM; nothing but its ring
changes, and, with IRQ = 1 or the bad status, its completion vector is raised (R203). An IDENTIFY with a host
RESULT_ADDR and a capacity of 4,096 bytes or more completes with OK and RESULT0 = 4096 after the structure is written
there: chip id, serial number, firmware versions, device state, envelope, trim and environment bits, position, time
base; through the admin queue the nibble of every context is the code of its state. With less capacity it completes
with BAD_PARAM. (07_commands_queues_states R190, 07_commands_queues_states R191, 07_commands_queues_states R192,
01_device_overview R2, 07_commands_queues_states R184, 07_commands_queues_states R201, 07_commands_queues_states R202,
07_commands_queues_states R203) -/
def Obligations.NopAndIdentifyAnswer : Prop :=
  (∀ (s : State) (q : QueueId) (p : Packet), Presents s q .nop p → ∃ t, exec (.nop q) s = .next t
      ∧ Answered (s.popFetched q) t q p (if p.noAddrs = true then .ok else .badParam) 0 0 0)
  ∧ (∀ (s : State) (q : QueueId) (p : Packet) (a : Nat), Presents s q .identify p → p.hostResult = some a →
      (4096 ≤ p.length → ∃ t m, exec (.identify q) s = .next t ∧ Answered m t q p .ok 0 4096 0
        ∧ m = { s.popFetched q with host := Memory.writeBytes s.host a (s.identify q) })
      ∧ (p.length < 4096 → ∃ t, exec (.identify q) s = .next t ∧ Answered (s.popFetched q) t q p .badParam 0 0 0))
  ∧ (∀ (s : State) (q : QueueId), (s.identify q).length = 4096
      ∧ field (s.identify q) 0 4 = 0x09A41140
      ∧ field (s.identify q) 8 8 = Config.serial.toNat
      ∧ field (s.identify q) 16 8 = s.dev.fwVer.toNat ∧ field (s.identify q) 24 8 = s.dev.ucVer.toNat
      ∧ field (s.identify q) 32 1 = devCode s.dev.st ∧ field (s.identify q) 33 1 = s.env.env % 256
      ∧ field (s.identify q) 34 1 = bitAt s.env.trimLoaded 0 + bitAt s.env.envSet 1 + bitAt s.env.mode 2
      ∧ field (s.identify q) 44 4 = s.env.position.toNat ∧ field (s.identify q) 48 8 = s.dev.timeBase.toNat
      ∧ (∀ c, c < 16 → bitsOf (field (s.identify .admin) 36 8) (4 * c) 4 = ctxCode (s.ctx c).st))

/-- O10. A STATS_READ of the arrays of a context, of its quantiser slots, or through the admin queue of the drop counter,
with a capacity that holds them, completes with OK and the number of bytes: 24 per array, 4,096, or 4. With CLEAR = 1
the statistics read are 0 afterwards: of each array of the context its five counters and no other field (STA_SAT_WIN
stays), no other array; the quantiser slots of the context and nothing else of it, no other context; the drop counter
alone. Everything else is as before. A capacity that is too small gives BAD_PARAM with no other effect.
(07_commands_queues_states R197, 04_accuracy_drift_calibration R107, 03_numerics_and_output_assembly R112,
06_pitching_weights R155) -/
def Obligations.StatsReadReturnsAndClears : Prop :=
  (∀ (s : State) (q : QueueId) (p : Packet) (a : Nat), Presents s q .statsRead p → p.hostResult = some a →
      p.param 32 1 = 1 ∨ p.param 32 1 = 2 ∨ (p.param 32 1 = 3 ∧ q = .admin) →
      ((s.statBytes (ctxOf q p) (p.param 32 1)).length ≤ p.length → ∃ t m, exec (.statsRead q) s = .next t
        ∧ Answered m t q p .ok 0 (s.statBytes (ctxOf q p) (p.param 32 1)).length 0
        ∧ m.host = Memory.writeBytes s.host a (s.statBytes (ctxOf q p) (p.param 32 1))
        ∧ (p.clear = false → m = { s.popFetched q with host := m.host })
        ∧ (p.clear = true → p.param 32 1 = 1 →
          (∀ k ∈ s.ctxArrays (ctxOf q p), m.arr (s.physArr (k / 16) (k % 16)) = { s.arr (s.physArr (k / 16) (k % 16)) with
            satStrokes := 0, satCols := 0, lmseSum := 0, lmseCount := 0, satCal := false })
          ∧ (∀ a, (∀ k ∈ s.ctxArrays (ctxOf q p), s.physArr (k / 16) (k % 16) ≠ a) → m.arr a = s.arr a)
          ∧ m = { s.popFetched q with host := m.host, arrs := m.arrs })
        ∧ (p.clear = true → p.param 32 1 = 2 → m.ctx (ctxOf q p) = { s.ctx (ctxOf q p) with slots := [] }
          ∧ (∀ c, c ≠ ctxOf q p → m.ctx c = s.ctx c)
          ∧ m = { s.popFetched q with host := m.host, ctxs := m.ctxs })
        ∧ (p.clear = true → p.param 32 1 = 3 →
            m = { s.popFetched q with host := m.host, env := { s.env with p2pDrop := 0 } }))
      ∧ (p.length < (s.statBytes (ctxOf q p) (p.param 32 1)).length → ∃ t, exec (.statsRead q) s = .next t
        ∧ Answered (s.popFetched q) t q p .badParam 0 0 0))
  ∧ (∀ (s : State) (c : Nat), (s.statBytes c 1).length = 24 * (s.ctxArrays c).length ∧ (s.statBytes c 2).length = 4096
      ∧ (s.statBytes c 3).length = 4)

/-- O11. A SIGNATURE_DRAIN into host memory whose LENGTH is n slots of 256 bytes writes the oldest signatures in their
order, slot i holding the i-th record padded with 0 to 256 bytes, no more of them than n and than there are, and
removes exactly these from the store. RESULT0 counts them and RESULT1 those that remain; nothing else changes. A
LENGTH that is no multiple of 256 gives BAD_PARAM. (R198) -/
def Obligations.SignatureDrainTakesTheOldest : Prop :=
  ∀ (s : State) (q : QueueId) (p : Packet) (a : Nat), Presents s q .signatureDrain p → p.hostResult = some a →
    (p.length % 256 = 0 → ∃ t m, exec (.signatureDrain q) s = .next t
      ∧ Answered m t q p .ok 0 (min (p.length / 256) s.sig.store.length)
          (s.sig.store.length - min (p.length / 256) s.sig.store.length)
      ∧ m = { s.popFetched q with
          host := Memory.writeBytes s.host a ((s.sig.store.take (p.length / 256)).flatMap padSig)
          sig := { s.sig with store := s.sig.store.drop (p.length / 256) } }
      ∧ (∀ i b, i < p.length / 256 → s.sig.store[i]? = some b →
          Memory.readBytes m.host (a + 256 * i) 256 = (b ++ List.replicate 256 0).take 256)
      ∧ (∀ x, x < a ∨ a + 256 * min (p.length / 256) s.sig.store.length ≤ x → Memory.read m.host x = Memory.read s.host x))
    ∧ (p.length % 256 ≠ 0 → ∃ t, exec (.signatureDrain q) s = .next t
      ∧ Answered (s.popFetched q) t q p .badParam 0 0 0)

/-- O12. A TRACK_CTL with legal fields completes with OK; it writes TRK_CTL where SEL bit 0 is 1 and TRK_POLICY where bit
1 is 1, and a POLICY outside its ranges gives BAD_PARAM with no side effect. A tracking reset, by TRACK_CTL or by a
register write, sets kappa to 1.0, every tracking offset and gain to 0 and 1.0, T_win to 25 degC and clears CONV on
every array; factory trims, lantern values, drift and sigma stay. A stroke in flight keeps the values of its slot, so
the reset counts from the next slot boundary of each array on, while the registers read the new values at once: that
is the choice of the model (log entry 26, DEDUCED). Of the rest of the device only the agreement windows of the bow
table may change. (04_accuracy_drift_calibration R92, 04_accuracy_drift_calibration R93, 04_accuracy_drift_calibration
R97, 09_dependability R226) -/
def Obligations.TrackControlAndReset : Prop :=
  (∀ (s : State) (q : QueueId) (p : Packet), Presents s q .trackCtl p → p.noAddrs = true → p.param 40 1 < 4 →
      ((bitOf (p.param 40 1) 1 = true → policyOk (p.param 36 4) = true) → ∃ t m, exec (.trackCtl q) s = .next t
        ∧ Answered m t q p .ok 0 0 0
        ∧ m.cfg = (let c := if bitOf (p.param 40 1) 0 then s.cfg.writeTrkCtl (p.param 32 4) else s.cfg
                   if bitOf (p.param 40 1) 1 then c.writePolicy (p.param 36 4) else c)
        ∧ (bitOf (p.param 40 1) 0 = false → m = { s.popFetched q with cfg := m.cfg })
        ∧ (bitOf (p.param 32 4) 2 = false → m.arrs = s.arrs)
        ∧ (bitOf (p.param 40 1) 0 = true → bitOf (p.param 32 4) 2 = true → ∀ a, Canonical s → m.arr a = (s.arr a).trackReset)
        ∧ m = { s.popFetched q with cfg := m.cfg, arrs := m.arrs, bowW := m.bowW })
      ∧ (bitOf (p.param 40 1) 1 = true → policyOk (p.param 36 4) = false → ∃ t, exec (.trackCtl q) s = .next t
        ∧ Answered (s.popFetched q) t q p .badParam 0 0 0))
  ∧ (∀ (s : State) (v : Dword), Canonical s → s.barLive = true → ∃ t, exec (.trackingReset v) s = .next t
      ∧ t.cfg = s.cfg.writeTrkCtl (v ||| 4#32).toNat
      ∧ (∀ a, t.arr a = (s.arr a).trackReset)
      ∧ t = { s with cfg := t.cfg, arrs := t.arrs, bowW := t.bowW })
  ∧ (∀ x : Arr, x.trackReset.kappa = 0x3F800000#32 ∧ x.trackReset.tTrim = [] ∧ x.trackReset.tWin = 25
      ∧ x.trackReset.conv = false ∧ x.trackReset.fTrim = x.fTrim ∧ x.trackReset.lan = x.lan
      ∧ x.trackReset.drift = x.drift ∧ x.trackReset.sigma = x.sigma ∧ x.trackReset.jobs = x.jobs
      ∧ x.trackReset.shots = x.shots.map (fun t => if t.old.isNone then { t with old := some (x.fTrim, x.tTrim) } else t))

/-- O13. A legal SET_ENVELOPE completes with OK: the device runs at the envelope, and a compute die that loses power has
every register of its arrays, crews, vector engines, counters and router at its reset value; the reservation of a crew
reads as none, though it lasts, and a benched crew stays benched, though its health register reads 0: that both last
is the choice of the model (log entry 98). A bivouac-tier RUN that such a die leaves unfinished is sent again, to
engines with power: it is not dispatched, and no descriptor of it but those already started is left (log entry 106,
for the lowest die that loses power). A die that is powered again takes spare map and trims of the kept record and
tracking at its reset values, and its lantern cells a measured value, or the factory value with LANBAD; in BOATHOUSE
the factory value. A legal SET_ENVIRONMENT does this too, and sets time base, mode, coolant and position, marks the
environment as set and writes the policy defaults of the mode. An envelope that R15 and R16 forbid gives STATE, and an
illegal field BAD_PARAM (POSITION bits 31:29 among them: log entry 75, DEDUCED), with no other effect, of both
commands; a member of a group that would get another position answers STATE. (07_commands_queues_states R193,
01_device_overview R14, 01_device_overview R15, 01_device_overview R16, 01_device_overview R17,
12_clocks_resets_power_boot R301, 13_register_map R327, 04_accuracy_drift_calibration R97,
04_accuracy_drift_calibration R357, 04_accuracy_drift_calibration R83) -/
def Obligations.EnvironmentAndEnvelopeAreSet : Prop :=
  (∀ (s : State) (q : QueueId) (p : Packet), Presents s q .setEnvelope p → p.noAddrs = true →
      (1 ≤ p.param 32 1 → p.param 32 1 ≤ 4 → s.envelopeOk (p.param 32 1) = true → ∃ t m, exec (.setEnvelope q) s = .next t
        ∧ Answered m t q p .ok 0 0 0 ∧ m = (s.popFetched q).setEnvelope (p.param 32 1))
      ∧ (1 ≤ p.param 32 1 → p.param 32 1 ≤ 4 → s.envelopeOk (p.param 32 1) = false → ∃ t, exec (.setEnvelope q) s = .next t
        ∧ Answered (s.popFetched q) t q p .state 0 0 0)
      ∧ (p.param 32 1 = 0 ∨ 4 < p.param 32 1 → ∃ t, exec (.setEnvelope q) s = .next t
        ∧ Answered (s.popFetched q) t q p .badParam 0 0 0))
  ∧ (∀ (s : State) (q : QueueId) (p : Packet), Presents s q .setEnvironment p → p.noAddrs = true →
      1 ≤ p.param 42 1 → p.param 42 1 ≤ 4 → p.param 43 1 ≤ 1 →
      posRole (BitVec.ofNat 32 (p.param 44 4)) ≠ 3 → bitsOf (p.param 44 4) 29 3 = 0 → s.envelopeOk (p.param 42 1) = true →
      s.member = false → ∃ t m, exec (.setEnvironment q) s = .next t ∧ Answered m t q p .ok 0 0 0
        ∧ m.env.envSet = true ∧ m.env.mode = (p.param 43 1 == 1) ∧ m.env.coolant = BitVec.ofNat 16 (p.param 40 2)
        ∧ m.env.position = BitVec.ofNat 32 (p.param 44 4) ∧ m.env.env = p.param 42 1
        ∧ m.dev.timeBase = BitVec.ofNat 64 (p.param 32 8)
        ∧ m.cfg = s.cfg.writePolicy (policyDefault (p.param 43 1 == 1))
        ∧ m.arrs = ((s.popFetched q).setEnvelope (p.param 42 1)).arrs ∧ m.ctxs = s.ctxs ∧ m.host = s.host
        ∧ m.cmds = ((s.popFetched q).setEnvelope (p.param 42 1)).cmds)
  ∧ (∀ (s : State) (q : QueueId) (p : Packet), Presents s q .setEnvironment p → p.noAddrs = true →
      (p.param 42 1 = 0 ∨ 4 < p.param 42 1 ∨ 1 < p.param 43 1 ∨ posRole (BitVec.ofNat 32 (p.param 44 4)) = 3
          ∨ bitsOf (p.param 44 4) 29 3 ≠ 0 → ∃ t, exec (.setEnvironment q) s = .next t
        ∧ Answered (s.popFetched q) t q p .badParam 0 0 0)
      ∧ (1 ≤ p.param 42 1 → p.param 42 1 ≤ 4 → p.param 43 1 ≤ 1 → posRole (BitVec.ofNat 32 (p.param 44 4)) ≠ 3 →
          bitsOf (p.param 44 4) 29 3 = 0 →
          s.envelopeOk (p.param 42 1) = false ∨ (s.member = true ∧ BitVec.ofNat 32 (p.param 44 4) ≠ s.env.position) →
          ∃ t, exec (.setEnvironment q) s = .next t ∧ Answered (s.popFetched q) t q p .state 0 0 0))
  ∧ (∀ (s : State) (e d : Nat), Canonical s → d < 4 → diePowered s.env.env d = true → diePowered e d = false →
      (s.setEnvelope e).env.env = e
      ∧ (∀ a, crewDie (a / 17) = d → (s.setEnvelope e).arr a = Arr.reset a)
      ∧ (∀ k, crewDie k = d → (s.setEnvelope e).crew k = { Crew.reset with
          resv := (s.crew k).resv, resvLost := (s.crew k).resv.isSome, benched := (s.crew k).benched, cause := (s.crew k).cause
          healthLost := (s.crew k).benched })
      ∧ (∀ v, v / 8 = d → (s.setEnvelope e).ve v = Ve.reset)
      ∧ (∀ j, j / 64 = d → (s.setEnvelope e).counter j = 0)
      ∧ (s.tel.nocParErr.length = 5 → (s.setEnvelope e).tel.nocParErr.getD (1 + d) 0 = 0)
      ∧ ((∀ k, k < d → diePowered s.env.env k = true → diePowered e k = true) → ∀ x ∈ s.cmds, s.leavesVes d x = true →
          (∀ y ∈ (s.setEnvelope e).cmds, y.ref = x.ref → ∀ w, y.work = .run w → w.dispatched = false)
          ∧ ∀ v, ∀ z ∈ ((s.setEnvelope e).ve v).ring, z.ref = x.ref → z.started = true))
  ∧ (∀ (s : State) (e a : Nat), a < 4352 → diePowered s.env.env (crewDie (a / 17)) = false → diePowered e (crewDie (a / 17)) = true →
      s.env.trimLoaded = true → Trimmed (s.setEnvelope e) s.env.trim a
        ∧ ∀ pk, pk < 16 → ∃ live, (s.dev.st = .boathouse → live = trimLantern s.env.trim a (pk / 8) (pk % 8))
          ∧ TakesLantern ((s.setEnvelope e).arr a) pk (trimLantern s.env.trim a (pk / 8) (pk % 8)) live)

/-- O14. On a device that leads no group, a CTX_OPEN that passes the checks completes with OK as it is accepted: the
context is OPEN, its generation count is 0, its statistics slots are cleared and no batch is open; a READY device is
ACTIVE; no other context and nothing else changes. Until SET_ENVIRONMENT and TRIM_LOAD have completed (R18, R83) it
completes with STATE and no other effect. (R186) -/
def Obligations.CtxOpenOpens : Prop :=
  ∀ (s : State) (q : QueueId) (p : Packet), Presents s q .ctxOpen p → p.noAddrs = true →
    (s.env.envSet = true → s.env.trimLoaded = true → s.parties q .ctxOpen = [] → ∃ t m, exec (.ctxOpen q) s = .next t
      ∧ Answered m t q p .ok 0 0 0
      ∧ m.ctx (ctxOf q p) = { Ctx.reset with st := .opened }
      ∧ (m.ctx (ctxOf q p)).live = 0 ∧ (m.ctx (ctxOf q p)).aborted = 0 ∧ (m.ctx (ctxOf q p)).batch = none
      ∧ (∀ i, (m.ctx (ctxOf q p)).slots.get Slot.dflt i = ⟨0, 0, 0, 0⟩)
      ∧ (∀ k, k ≠ ctxOf q p → m.ctx k = s.ctx k)
      ∧ m.dev = { s.dev with st := if s.dev.st = .ready then .active else s.dev.st }
      ∧ m = { s.popFetched q with ctxs := m.ctxs, dev := m.dev })
    ∧ (s.env.envSet = false ∨ s.env.trimLoaded = false → ∃ t, exec (.ctxOpen q) s = .next t
      ∧ Answered (s.popFetched q) t q p .state 0 0 0)

/-- O15. On a device that leads no group, a CTX_CLOSE that passes the checks puts the context into CLOSING, closes its
batch and waits; no status of it is written, and a swing whose drain waited for that batch ends here. Once no command
of the context that it waits for is in flight (here also: no REFRESH or CENSUS of another sender, which the freed
arrays could complete), CTX_CLOSE_COMPLETE leaves the context CLOSED with no pitch, generation, working space or pair,
its statistics slots kept until it opens again, every other context as it was, the device READY where it was ACTIVE
and no other context is open; and the status OK is written. While a command that it waits for is in flight, nothing
changes. (07_commands_queues_states R187, 07_commands_queues_states R182, 07_commands_queues_states R185) -/
def Obligations.CtxCloseClosesWhenItsCommandsAreDone : Prop :=
  (∀ (s : State) (q : QueueId) (p : Packet), Presents s q .ctxClose p → p.noAddrs = true → s.parties q .ctxClose = [] →
      ∃ t u : State, exec (.ctxClose q) s = .next t ∧ t = u.swingCheck (ctxOf q p)
        ∧ u.ctx (ctxOf q p) = { s.ctx (ctxOf q p) with st := .closing, batch := none, closeCmd := some ⟨q, p.tag⟩ }
        ∧ (∀ k, k ≠ ctxOf q p → u.ctx k = s.ctx k)
        ∧ u = { s.popFetched q with ctxs := u.ctxs, cmds := s.cmds ++ [mkCmd s q p false .close], seq := s.seq + 1 }
        ∧ ((s.ctx (ctxOf q p)).swingCmd = none → t = u))
  ∧ (∀ (s : State) (c : Fin 16) (r : CmdRef) (x : Cmd), Memory.wf s.host → (s.ctx c.val).st = .closing → s.dev.st ≠ .safe →
      s.closeWaits c.val = false → (s.ctx c.val).closeCmd = some r → s.cmd? r = some x → x.alone →
      x.pkt.opcode = 0x09 → ctxOf r.q x.pkt = c.val → x.localEnd = none →
      (∀ pt, (s.ctx c.val).pitch = some pt → pt.exec = none ∧ pt.commit = none) →
      (∀ y ∈ s.cmds, y.isShard c.val = false ∧ y.pkt.opcode ≠ 0x33 ∧ y.pkt.opcode ≠ 0x34 ∧ y.pkt.opcode ≠ 0x10) →
      ∃ t m, exec (.ctxCloseComplete c) s = .next t ∧ Ends m t x .ok 0 0
        ∧ m.ctx c.val = { Ctx.reset with slots := (s.ctx c.val).slots } ∧ (m.ctx c.val).st = .closed
        ∧ (∀ k, k ≠ c.val → m.ctx k = s.ctx k) ∧ m.host = s.host
        ∧ (s.dev.st = .active → (∀ k, k < 16 → k ≠ c.val → (s.ctx k).st = .closed) → m.dev = { s.dev with st := .ready })
        ∧ (s.dev.st = .active → (∃ k, k < 16 ∧ k ≠ c.val ∧ (s.ctx k).st ≠ .closed) → m.dev = s.dev))
  ∧ (∀ (s : State) (c : Fin 16), s.closeWaits c.val = true → exec (.ctxCloseComplete c) s = .next s)

/-- O16. NSTAGE above 16 and a non-zero result address give BAD_PARAM. A parity error that the read at DATA_ADDR meets in
working space ends PITCH_BEGIN with PARITY and one signature (R223). Then the checks of R153 follow in their order: a
source that is no valid range, at the top manager one whose group index is wrong, and a manifest that does not parse
give BAD_PARAM; no key of its KEY_ID, or a bad signature, SIG_BAD; another PART, a higher MIN_STEPPING, or a limit not
kept, BAD_PARAM; at the top manager a member whose manifest differs BAD_PARAM with its address in RESULT1 (R269).
Then, on a device in no group and with no RETRIM_STEP in flight: what does not fit gives NO_FIT; otherwise PITCH_BEGIN
completes with OK and RESULT0 = the next generation number, and the context is PITCHING with that generation, the
staging slots asked for (4 by default), the timeout asked for (10,000 ms by default) and the timer running. A failure
has no other effect than the HBM tokens and ECC counts of that read (log entry 132, DEDUCED); RESULT1 of a failure at
a member of a group is its device address (R269). The row waits while the pool takes no transfer (log entry 50,
DEDUCED). (06_pitching_weights R153, 06_pitching_weights R154, 06_pitching_weights R151, 06_pitching_weights R148,
06_pitching_weights R160, 09_dependability R223, 10_links_groups_scaling R269, 12_clocks_resets_power_boot R302) -/
def Obligations.PitchBeginAdmits : Prop :=
  ∀ (s : State) (q : QueueId) (p : Packet), Canonical s → Presents s q .pitchBegin p →
    let who := if s.member = true then s.self else 0
    let c := ctxOf q p
    let r := (s.popFetched q).readAtBegin q p
    (16 < p.param 32 1 ∨ p.resultAddr ≠ 0 → ∃ t, exec (.pitchBegin q) s = .next t
      ∧ Answered (s.popFetched q) t q p .badParam 0 0 who)
    ∧ (p.param 32 1 ≤ 16 → p.resultAddr = 0 →
      (∀ x e, s.pitchRead q p = some x → s.sourceErr c x.addr x.len = some e → ∃ t m, exec (.pitchBegin q) s = .next t
        ∧ Answered m t q p .parity 0 0 who
        ∧ Signed s m 0x01 (parityInfo e (qCtx q) (some p.tag.toNat)) ∧ m.host = s.host ∧ m.cmds = s.cmds ∧ m.ctxs = s.ctxs ∧ m.crews = s.crews ∧ m.arrs = s.arrs)
      ∧ ((∀ x, s.pitchRead q p = some x → s.sourceErr c x.addr x.len = none) →
      (pitchSource s q p = none → ∃ t, exec (.pitchBegin q) s = .next t ∧ Answered r t q p .badParam 0 0 who)
      ∧ (∀ src, pitchSource s q p = some src →
      (manifestOf (s.readAt c src.addr (min src.len (2 ^ 24))) src.len = none → ∃ t, exec (.pitchBegin q) s = .next t
        ∧ Answered r t q p .badParam 0 0 who)
      ∧ (∀ m, manifestOf (s.readAt c src.addr (min src.len (2 ^ 24))) src.len = some m →
        (s.keyFor m = none → ∃ t, exec (.pitchBegin q) s = .next t ∧ Answered r t q p .sigBad 0 0 who)
        ∧ (∀ k, s.keyFor m = some k →
          let bs := s.readAt c src.addr src.len
          (signedOk k.point bs = false → ∃ t, exec (.pitchBegin q) s = .next t ∧ Answered r t q p .sigBad 0 0 who)
          ∧ (signedOk k.point bs = true →
            field m.hdr 16 2 ≠ 0x09A4 ∨ stepping < field m.hdr 18 1 ∨ m.limitsOk s.member = false
              ∨ (s.member = true ∧ s.top = false ∧ m.layers.any (fun l => l.isBow && l.placeCount != 0) = true) →
            ∃ t, exec (.pitchBegin q) s = .next t ∧ Answered r t q p .badParam 0 0 who)
          ∧ (signedOk k.point bs = true → field m.hdr 16 2 = 0x09A4 → field m.hdr 18 1 ≤ stepping → m.limitsOk s.member = true →
              s.top = true → ∀ a, s.differs q p m = some a → ∃ t, exec (.pitchBegin q) s = .next t
                ∧ Answered r t q p .badParam 0 0 a)
          ∧ (signedOk k.point bs = true → field m.hdr 16 2 = 0x09A4 → field m.hdr 18 1 ≤ stepping → m.limitsOk s.member = true →
              s.member = false → (∀ x ∈ s.cmds, x.trim? = none) →
              let gen := pitchGen (s.ctx c).live (s.ctx c).aborted
              let nst := if p.param 32 1 = 0 then 4 else p.param 32 1
              let tmo := if p.param 34 2 = 0 then 10000 else p.param 34 2
              (r.admitPackage c gen m nst tmo = none → ∃ t, exec (.pitchBegin q) s = .next t
                ∧ Answered r t q p .noFit 0 0 0)
              ∧ (∀ u, r.admitPackage c gen m nst tmo = some u → (∀ x ∈ u.cmds, x.trim? = none) →
                ∃ t n, exec (.pitchBegin q) s = .next t ∧ Answered n t q p .ok 0 gen 0
                  ∧ n = { u.chargeHbm false src.len with ctxs := n.ctxs } ∧ (∀ k, k ≠ c → n.ctx k = u.ctx k)
                  ∧ (n.ctx c).st = .pitching ∧ (n.ctx c).live = (s.ctx c).live ∧ (n.ctx c).abortMark = false
                  ∧ ∃ pt, (n.ctx c).pitch = some pt ∧ pt.g.gen = gen ∧ pt.g.man = m ∧ pt.accepted = [] ∧ pt.nstage = nst
                    ∧ pt.timeoutMs = tmo ∧ pt.timerOn = true ∧ pt.begun = true ∧ pt.exec = none ∧ pt.commit = none)))))))

/-- O17. A PITCH_SHARD of the generation in pitch whose index and source are legal is admitted; while another shard
executes, or while the pool takes no transfer from HBM (log entry 50), it waits and nothing else changes. At its turn,
with no other shard waiting: an index accepted before completes with OK; a parity error in its source outside the
crews gives PARITY; data of the wrong length or digest gives SHARD_BAD with the index in RESULT0; contents that do not
belong to the index give BAD_PARAM with the index and abort the pitch, without the mark of R152; contents that belong
to it are accepted and the timer stops. PITCH_SHARD_COMPLETE, which waits with data for HBM while the pool takes no
transfer, delivers the data, restarts the timer unless a PITCH_COMMIT waits, and completes the command with OK and the
index in RESULT0; with a parity error found outside the crews it completes with PARITY, and the shard is not accepted.
For a pitch of a portable package and an entry of it that is not packed and whose shards have all arrived, the pack
converter delivers the converted rows and scales and marks the entry as packed; for an entry that is packed, not ready
or not of the package, for a package that is not portable, and without a pitch, nothing changes. Where their words
meet a parity error outside the crews before PITCH_COMMIT, the weights of the entry are to be sent again, and one
signature is made (the choice of the model, log entry 125). (06_pitching_weights R156, 06_pitching_weights R160,
07_commands_queues_states R177, 07_commands_queues_states R191, 09_dependability R223, 06_pitching_weights R145,
06_pitching_weights R146) -/
def Obligations.PitchShardsAreAcceptedInOrder : Prop :=
  ((∀ (s : State) (q : QueueId) (p : Packet) (pt : Pitch), Presents s q .pitchShard p → (s.ctx (ctxOf q p)).pitch = some pt →
      p.param 32 2 = pt.g.gen → p.param 36 4 < pt.g.man.nshard → p.resultAddr = 0 →
      let c := ctxOf q p
      let cmd := mkCmd s q p false (.shard (p.param 36 4))
      let u := (s.popFetched q).enrol cmd
      ∀ a, shardSource s c pt p = some a →
      let v := if a.isHost then u else u.chargeHbm false p.length
      let bs := s.readAt c a p.length
      (pt.exec.isSome = true → exec (.pitchShard q) s = .next u)
      ∧ (pt.exec = none → pt.commit = none → (s.ctx c).st ≠ .committed → (∀ x ∈ s.cmds, x.isShard c = false ∧ x.ref ≠ cmd.ref) →
          qCtx q = some c →
          (a.isHost = false → s.hbmOpen false = false → exec (.pitchShard q) s = .next (u.hbmWait false))
          ∧ (a.isHost = true ∨ s.hbmOpen false = true →
          (pt.accepted.any (fun e => e.1 == p.param 36 4) = true → ∃ t, exec (.pitchShard q) s = .next t
            ∧ Ends u t cmd .ok (p.param 36 4) 0)
          ∧ (pt.accepted.any (fun e => e.1 == p.param 36 4) = false →
              (∀ e, s.sourceErr c a p.length = some e → crewHop (bitsOf e.hop.toNat 12 4) = false →
                ∃ t m, exec (.pitchShard q) s = .next t ∧ Ends m t cmd .parity (p.param 36 4) 0 ∧ Signed s m 0x01 (parityInfo e (qCtx q) (some p.tag.toNat))
                  ∧ m.host = s.host ∧ m.ctxs = s.ctxs)
              ∧ (s.sourceErr c a p.length = none →
              (p.length ≠ stLen (pt.g.man.shards.getD (p.param 36 4) []) ∨ sha384 bs ≠ stDigest (pt.g.man.shards.getD (p.param 36 4) []) →
                ∃ t, exec (.pitchShard q) s = .next t ∧ Ends v t cmd .shardBad (p.param 36 4) 0)
              ∧ (p.length = stLen (pt.g.man.shards.getD (p.param 36 4) []) → sha384 bs = stDigest (pt.g.man.shards.getD (p.param 36 4) []) →
                  v.shardContent c pt (p.param 36 4) bs = none → (∀ x ∈ s.cmds, x.inContext c = false ∨ x.pkt.opcode ≠ 0x10) →
                  ∃ t m, exec (.pitchShard q) s = .next t ∧ Ends m t cmd .badParam (p.param 36 4) 0
                    ∧ m.ctx c = (s.ctx c).abort pt false ∧ (∀ k, k ≠ c → m.ctx k = s.ctx k)
                    ∧ m.crews = (s.abortPitch c false).crews ∧ m.arrs = (s.abortPitch c false).arrs
                    ∧ m = { v with cmds := s.cmds, ctxs := m.ctxs, crews := m.crews, arrs := m.arrs })
              ∧ (p.length = stLen (pt.g.man.shards.getD (p.param 36 4) []) → sha384 bs = stDigest (pt.g.man.shards.getD (p.param 36 4) []) →
                  ∀ sh r, v.shardContent c pt (p.param 36 4) bs = some (sh, r) → ∃ t, exec (.pitchShard q) s = .next t
                    ∧ t = { u with ctxs := t.ctxs, gov := t.gov, tel := t.tel } ∧ (∀ k, k ≠ c → t.ctx k = s.ctx k)
                    ∧ ∃ pn, t.ctx c = { s.ctx c with pitch := some pn } ∧ pn.accepted = pt.accepted ++ [(p.param 36 4, sh)]
                      ∧ pn.exec = some cmd.ref ∧ pn.timerOn = false ∧ pn.stage = pt.stage ∧ pn.g.assigns = pt.g.assigns))))))
  ∧ (∀ (s : State) (c : Fin 16) (pt : Pitch) (r : CmdRef) (x : Cmd), Canonical s → (s.ctx c.val).pitch = some pt → pt.exec = some r →
      s.cmd? r = some x → x.lone → (∀ y ∈ s.cmds, y.isShard c.val = true → y.ref = r) →
      let sh := ((pt.accepted.find? (fun e => e.1 == x.pkt.param 36 4)).map (·.2)).getD []
      (shardToHbm sh = true → s.hbmOpen false = false → exec (.pitchShardComplete ⟨c, none⟩) s = .next (s.hbmWait false))
      ∧ (shardToHbm sh = false ∨ s.hbmOpen false = true → ∃ t m, exec (.pitchShardComplete ⟨c, none⟩) s = .next t
        ∧ Ends m t x .ok (x.pkt.param 36 4) 0
        ∧ m = (s.deliver c.val pt.g sh).modCtx c.val
            (fun y => { y with pitch := y.pitch.map (fun p => { p with exec := none, busySlot := none, timerOn := p.commit.isNone }) }))
      ∧ (∀ e : ParityErr, crewHop (bitsOf e.hop.toNat 12 4) = false → ∃ t m, exec (.pitchShardComplete ⟨c, some e⟩) s = .next t
        ∧ Ends m t x .parity (x.pkt.param 36 4) 0 ∧ Signed s m 0x01 (parityInfo e (qCtx r.q) (some r.tag.toNat)) ∧ m.host = s.host
        ∧ ∃ pn, (m.ctx c.val).pitch = some pn ∧ pn.exec = none ∧ pn.busySlot = none
          ∧ pn.accepted = pt.accepted.filter (fun a => a.1 != x.pkt.param 36 4)))
  ∧ (∀ (s : State) (c : Fin 16), (s.ctx c.val).pitch = none → ∀ err, exec (.pitchShardComplete ⟨c, err⟩) s = .next s))
  ∧ ((∀ (s : State) (c : Fin 16) (entry j : Nat) (pt : Pitch), (s.ctx c.val).pitch = some pt →
      pt.g.man.entries.find? (fun e => e.1 == entry) = some (entry, j) →
      (pt.g.man.portable = true → pt.packed.contains entry = false → portableReady pt j entry = true →
        exec (.packConversion ⟨c, none⟩ entry) s = .next
          ((s.packEntry c.val pt entry j ((scaleBias pt j (plSlice (pt.g.man.place entry))).getD [])).modCtx c.val
            (fun y => { y with pitch := y.pitch.map (fun p => { p with packed := entry :: p.packed }) })))
      ∧ (pt.g.man.portable = true → pt.packed.contains entry = false → portableReady pt j entry = true → pt.commit = none →
          ∀ e : ParityErr, crewHop (bitsOf e.hop.toNat 12 4) = false → ∃ t, exec (.packConversion ⟨c, some e⟩ entry) s = .next t
            ∧ Signed s t 0x01 (parityInfo e (some c.val) none) ∧ t.host = s.host ∧ t.cmds = s.cmds ∧ t.crews = s.crews ∧ t.arrs = s.arrs
            ∧ (∀ k, k ≠ c.val → t.ctx k = s.ctx k)
            ∧ t.ctx c.val = { s.ctx c.val with pitch := some { pt with
                accepted := pt.accepted.filter (fun a => !(shType a.2 == 6 && shPlace a.2 == entry)) } })
      ∧ (pt.g.man.portable = false ∨ pt.packed.contains entry = true ∨ portableReady pt j entry = false →
          ∀ err, exec (.packConversion ⟨c, err⟩ entry) s = .next s))
  ∧ (∀ (s : State) (c : Fin 16) (entry : Nat), (s.ctx c.val).pitch = none → ∀ err, exec (.packConversion ⟨c, err⟩ entry) s = .next s)
  ∧ (∀ (s : State) (c : Fin 16) (pt : Pitch) (entry : Nat), (s.ctx c.val).pitch = some pt →
      pt.g.man.entries.find? (fun e => e.1 == entry) = none → ∀ err, exec (.packConversion ⟨c, err⟩ entry) s = .next s))

/-- O18. On a device that leads no group: a PITCH_COMMIT whose checks pass puts the context into the committing state with
the timer stopped and waits. PITCH_COMMIT_COMPLETE, once every array is programmed and no shard executes, writes the
binding record of every assignment, drops the staging slots, leaves the context committed and completes with OK;
before that nothing changes. Missing shards, an array with a part missing, and a key that is gone are found in this
order: SHARD_MISSING with their number and the lowest index, BAD_PARAM with the entry in RESULT1, SIG_BAD.
PITCH_COMMIT then completes with that status and those results, after the commands of the pitch that are still in
flight, and the pitch is aborted without the mark of R152: the context is LIVE or OPEN again, and the crews and arrays
are as an abort leaves them. (06_pitching_weights R159, 06_pitching_weights R155, 05_crews_tiling_dataflow R117) -/
def Obligations.PitchCommitCommits : Prop :=
  (∀ (s : State) (q : QueueId) (p : Packet) (pt : Pitch), Presents s q .pitchCommit p → (s.ctx (ctxOf q p)).pitch = some pt →
      p.noAddrs = true → p.param 32 2 = pt.g.gen → s.parties q .pitchCommit = [] → s.commitCheck pt = none →
      ∃ t, exec (.pitchCommit q) s = .next t
        ∧ t.ctx (ctxOf q p) = { s.ctx (ctxOf q p) with
            st := .committing, pitch := some { pt with commit := some ⟨q, p.tag⟩, timerOn := false } }
        ∧ (∀ k, k ≠ ctxOf q p → t.ctx k = s.ctx k)
        ∧ t = { s.popFetched q with
            ctxs := t.ctxs, cmds := s.cmds ++ [{ mkCmd s q p false .commit with gen := pt.g.gen }], seq := s.seq + 1 })
  ∧ (∀ (s : State) (q : QueueId) (p : Packet) (pt : Pitch), Presents s q .pitchCommit p → (s.ctx (ctxOf q p)).pitch = some pt →
      p.noAddrs = true → p.param 32 2 = pt.g.gen → s.parties q .pitchCommit = [] → ∀ st r0 r1, s.commitCheck pt = some (st, r0, r1) →
      let c := ctxOf q p
      let cmd := { mkCmd s q p false .commit with gen := pt.g.gen }
      pt.commit = none → pt.exec ≠ some cmd.ref → (∀ x ∈ s.cmds, x.ref ≠ cmd.ref ∧ (x.inContext c = false ∨ x.pkt.opcode ≠ 0x10)) →
      (∀ x ∈ s.cmds, x.isShard c = true ∨ pt.exec = some x.ref → x.alone) →
      ∃ t m, exec (.pitchCommit q) s = .next t ∧ Ends m t cmd st r0 r1
        ∧ m.ctx c = (s.ctx c).abort pt false ∧ (∀ k, k ≠ c → m.ctx k = s.ctx k)
        ∧ m.crews = (s.abortPitch c false).crews ∧ m.arrs = (s.abortPitch c false).arrs
        ∧ (pt.exec = none → (∀ x ∈ s.cmds, x.isShard c = false) →
            m = { s.popFetched q with
              cmds := s.cmds ++ [cmd], seq := s.seq + 1, ctxs := m.ctxs, crews := m.crews, arrs := m.arrs }))
  ∧ (∀ (s : State) (pt : Pitch),
      (∀ i rest, missingShards pt = i :: rest → s.commitCheck pt = some (.shardMissing, (missingShards pt).length, i))
      ∧ (missingShards pt = [] → (∀ e, pt.g.man.entries.find? (fun e => !entryComplete pt e.2 e.1) = some e →
          s.commitCheck pt = some (.badParam, 0, e.1)))
      ∧ (missingShards pt = [] → pt.g.man.entries.find? (fun e => !entryComplete pt e.2 e.1) = none →
          s.commitCheck pt = if (s.keyFor pt.g.man).isNone then some (.sigBad, 0, 0) else none))
  ∧ (∀ (s : State) (c : Fin 16) (pt : Pitch) (r : CmdRef) (x : Cmd), Memory.wf s.host → (s.ctx c.val).pitch = some pt →
      pt.commit = some r → s.cmd? r = some x → x.alone → x.pkt.opcode = 0x12 → ctxOf r.q x.pkt = c.val →
      (pt.exec = none → s.programmed c.val pt.g = true → ∃ t m, exec (.pitchCommitComplete c) s = .next t ∧ Ends m t x .ok 0 0
        ∧ m.ctx c.val = { s.ctx c.val with
            st := if (s.ctx c.val).st = .closing then .closing else .committed
            pitch := some { pt with commit := none, nstage := 0, stage := [], s0 := 0, s1 := 0, accepted := [] } }
        ∧ (∀ k, k ≠ c.val → m.ctx k = s.ctx k) ∧ m.crews = (s.bindAll c.val pt.g).crews ∧ m.arrs = (s.bindAll c.val pt.g).arrs
        ∧ m = { s with ctxs := m.ctxs, crews := m.crews, arrs := m.arrs })
      ∧ (pt.exec.isSome = true ∨ s.programmed c.val pt.g = false → exec (.pitchCommitComplete c) s = .next s))

/-- O19. On a device that leads no group and with no command of the pitch in flight: a PITCH_ABORT of the generation in
pitch completes with OK; the context has no pitch and is OPEN without a live generation and LIVE with one; the aborted
number is kept, and the working granules that the pitch added are given back. When the timer of a pitch runs out, the
same happens with the mark that lets later PITCH_SHARD and PITCH_COMMIT of the pitch answer SHARD_MISSING, one
signature of kind 0x14 is made and PTIMEOUT is set; a timer that does not run has no effect. The abort frees what the
pitch held and nothing else: its pool pages read as zero and are free again, the binding records and the patch lists
of its assignments are cleared, the planes it programmed and their programming records are reset; crews and arrays
that hold nothing of it are unchanged, and so is every other byte of a crew. (06_pitching_weights R161,
06_pitching_weights R160, 06_pitching_weights R152, 07_commands_queues_states R204, 09_dependability R240) -/
def Obligations.PitchAbortAndTimeout : Prop :=
  (∀ (s : State) (q : QueueId) (p : Packet) (pt : Pitch), Presents s q .pitchAbort p → (s.ctx (ctxOf q p)).pitch = some pt →
      p.noAddrs = true → p.param 32 2 = pt.g.gen → s.parties q .pitchAbort = [] → pt.exec = none → pt.commit = none →
      pt.begun = true → (∀ x ∈ s.cmds, x.isShard (ctxOf q p) = false ∧ x.pkt.opcode ≠ 0x10) →
      ∃ t m, exec (.pitchAbort q) s = .next t ∧ Answered m t q p .ok 0 0 0
        ∧ m.ctx (ctxOf q p) = (s.ctx (ctxOf q p)).abort pt false
        ∧ (∀ k, k ≠ ctxOf q p → m.ctx k = s.ctx k) ∧ m.host = s.host ∧ m.cmds = s.cmds
        ∧ m.crews = (s.abortPitch (ctxOf q p) false).crews ∧ m.arrs = (s.abortPitch (ctxOf q p) false).arrs
        ∧ m = { s.popFetched q with ctxs := m.ctxs, crews := m.crews, arrs := m.arrs })
  ∧ (∀ (x : Ctx) (pt : Pitch) (mark : Bool), (x.abort pt mark).pitch = none
      ∧ (pt.begun = true → (x.abort pt mark).aborted = pt.g.gen ∧ (x.abort pt mark).abortMark = mark)
      ∧ (pt.begun = false → (x.abort pt mark).aborted = x.aborted ∧ (x.abort pt mark).abortMark = x.abortMark)
      ∧ (x.abort pt mark).live = x.live ∧ (x.abort pt mark).w0 = x.w0 - pt.a0
      ∧ (x.abort pt mark).w1 = x.w1 - pt.a1
      ∧ (x.st ≠ .closing → (x.abort pt mark).st = if x.live = 0 then .opened else .live))
  ∧ (∀ (s : State) (c : Fin 16) (pt : Pitch), (s.ctx c.val).pitch = some pt → s.member = false →
      (pt.timerOn = false → exec (.pitchTimeout c) s = .next s)
      ∧ (pt.timerOn = true → pt.exec = none → pt.commit = none → (∀ x ∈ s.cmds, x.isShard c.val = false ∧ x.pkt.opcode ≠ 0x10) →
          ∃ t, exec (.pitchTimeout c) s = .next t ∧ t.ctx c.val = (s.ctx c.val).abort pt true
            ∧ (∀ k, k ≠ c.val → t.ctx k = s.ctx k) ∧ (t.queue (.ctx c)).evt0 = true
            ∧ Signed s t 0x14 { ctx := some c.val, status := some (statusCode .shardMissing), data := leBytes 2 pt.g.gen }
            ∧ t.host = s.host ∧ t.cmds = s.cmds
            ∧ t.crews = (s.abortPitch c.val true).crews ∧ t.arrs = (s.abortPitch c.val true).arrs))
  ∧ (∀ (s : State) (c : Nat) (pt : Pitch) (mark : Bool), (s.ctx c).pitch = some pt → (∀ n, Memory.wf (s.crew n).sram) →
      let t := s.abortPitch c mark
      let at' := fun y : Assign => s.physArr y.crew y.l
      let mine := fun e : Nat × Nat × Nat => e.2.1 = c ∧ e.2.2 = pt.g.gen
      t = { s with ctxs := t.ctxs, crews := t.crews, arrs := t.arrs }
      ∧ (∀ n, t.crew n = { s.crew n with sram := (t.crew n).sram, pages := (t.crew n).pages, resv := (t.crew n).resv }
          ∧ (t.crew n).pages = (s.crew n).pages.filter (fun e => !decide (e.2.1 = c ∧ e.2.2 = pt.g.gen))
          ∧ (∀ e ∈ (s.crew n).pages, mine e → Memory.readBytes (t.crew n).sram (0x400 * e.1) 1024 = List.replicate 1024 0)
          ∧ (∀ a, (∀ e ∈ (s.crew n).pages, mine e → a < 0x400 * e.1 ∨ 0x400 * e.1 + 1024 ≤ a) →
              (∀ y ∈ pt.g.assigns, y.crew = n →
                let b := (2 * y.l + (if y.plane then 1 else 0)) * 8
                let pl := 0x400 * (1 + y.l) + (if y.plane then 0x200 else 0)
                (a < b ∨ b + 8 ≤ a) ∧ (a < pl ∨ pl + 512 ≤ a)) →
              Memory.read (t.crew n).sram a = Memory.read (s.crew n).sram a)
          ∧ ((∀ y ∈ pt.g.assigns, y.crew ≠ n) → (t.crew n).resv = (s.crew n).resv)
          ∧ (t.crew n).resv.map (fun r => { r with standby := 0 }) = (s.crew n).resv.map (fun r => { r with standby := 0 }))
      ∧ (∀ y ∈ pt.g.assigns,
          let b := (t.crew y.crew).binding y.l y.plane
          ¬ (bndValid b = true ∧ bndGen b = pt.g.gen ∧ bndCtx b = c) ∧ (t.crew y.crew).patches y.l y.plane = []
          ∧ (t.arr (at' y)).plane y.plane = Plane.reset ∧ (t.arr (at' y)).prog = none ∧ (t.arr (at' y)).verify = 0
          ∧ t.arr (at' y) = { s.arr (at' y) with
              p0 := (t.arr (at' y)).p0, p1 := (t.arr (at' y)).p1, prog := none, verify := 0 }
          ∧ ((∀ z ∈ pt.g.assigns, at' z = at' y → z.plane = y.plane) →
              (t.arr (at' y)).plane (!y.plane) = (s.arr (at' y)).plane (!y.plane)))
      ∧ (∀ a, (∀ y ∈ pt.g.assigns, at' y ≠ a) → t.arr a = s.arr a))

/-- O20. A posted write into BAR2, of the physical function into any context or of an enabled virtual function into its
own: inside a backed slot that no shard is being read from, of a context in pitch, its bytes stand in the slot
afterwards and no other byte of staging memory, and nothing else, has changed. Otherwise nothing is written, the drop
counter has gone up by 1 (to its limit) and one signature of kind 0x13 with the offset is made; so too while the
device boots in RESET_HOLD. Of the rest only the token counts of the HBM transfer change. A read of BAR2 returns bytes
of 0. (06_pitching_weights R155, 12_clocks_resets_power_boot R297, 09_dependability R240) -/
def Obligations.PitchWindowWriteLandsOrIsDropped : Prop :=
  ∀ (s : State) (fn : Fin 17) (off : Nat) (data : List Byte), s.busLive = true → data ≠ [] →
    (fn.val ≠ 0 → s.dev.vfEn.getLsbD (fn.val - 1) = true) →
    let o := if fn.val = 0 then off % 2 ^ 32 else off % 2 ^ 28 + (fn.val - 1) * 2 ^ 28
    let c := o / 2 ^ 28
    let sl := o / 2 ^ 24 % 16
    let x := o % 2 ^ 24
    (∀ pt, (s.ctx c).pitch = some pt → (s.ctx c).st.inPitch = true → sl < pt.nstage → x + data.length ≤ 2 ^ 24 →
      pt.busySlot ≠ some sl → Memory.wf pt.stage → ∃ t pn, exec (.pitchWindowWrite fn off data) s = .next t
        ∧ t.ctx c = { s.ctx c with pitch := some pn } ∧ pn = { pt with stage := pn.stage }
        ∧ Memory.readBytes pn.stage (windowKey sl x) data.length = data
        ∧ (∀ y, y < windowKey sl x ∨ windowKey sl x + data.length ≤ y → Memory.read pn.stage y = Memory.read pt.stage y)
        ∧ (∀ k, k ≠ c → t.ctx k = s.ctx k) ∧ t = { s with ctxs := t.ctxs, gov := t.gov, tel := t.tel })
    ∧ ((s.ctx c).pitch = none ∨ (s.ctx c).st.inPitch = false
        ∨ (∃ pt, (s.ctx c).pitch = some pt ∧ (pt.nstage ≤ sl ∨ 2 ^ 24 < x + data.length ∨ pt.busySlot = some sl)) →
      ∃ t, exec (.pitchWindowWrite fn off data) s = .next t
        ∧ t.env.p2pDrop = BitVec.ofNat 32 (satAdd 32 s.env.p2pDrop.toNat 1) ∧ Signed s t 0x13 { ctx := some c, data := leBytes 8 o }
        ∧ t.ctxs = s.ctxs ∧ t.host = s.host ∧ t.cmds = s.cmds ∧ t.queues = s.queues ∧ t.arrs = s.arrs ∧ t.crews = s.crews)
    ∧ (∀ n, s.bar2Read fn off n = List.replicate n 0)

/-- O21. On a device that leads no group: a SWING of the committed generation is accepted; the context drains, the
generation in pitch is the admission generation, and the command waits while an array has not swung; with every array
swung the context is LIVE on it and OK is written. An ARRAY_SWING of an array that R163 lets swing exchanges its
planes, writes slew, fold and automatic fold of the layer record, kappa and the tracking temperature T_win for the
present temperature and drift 0, keeps its column coefficients and CONV, and ends its refresh; an array that may not
swing yet, the spare and a benched crew are left as they are. (06_pitching_weights R162, 06_pitching_weights R163,
06_pitching_weights R164, 02_arrays_and_strokes R35, 02_arrays_and_strokes R39, 08_latency_and_bow_class R211) -/
def Obligations.SwingAndArraySwing : Prop :=
  (∀ (s : State) (q : QueueId) (p : Packet) (pt : Pitch), Canonical s → Presents s q .swing p →
      (s.ctx (ctxOf q p)).pitch = some pt → p.noAddrs = true → p.param 32 2 = pt.g.gen → s.parties q .swing = [] →
      (s.ctx (ctxOf q p)).generation pt.g.gen = none → (∀ x ∈ s.cmds, x.ref ≠ ⟨q, p.tag⟩) →
      let c := ctxOf q p
      let cmd := { mkCmd s q p false .swing with gen := pt.g.gen }
      ∃ t m : State, exec (.swing q) s = .next t
        ∧ m.ctx c = { s.ctx c with
            st := .draining, adm := pt.g.gen, gens := (s.ctx c).gens ++ [pt.g], pitch := none, swingCmd := some ⟨q, p.tag⟩ }
        ∧ (∀ k, k ≠ c → m.ctx k = s.ctx k)
        ∧ m = { s.popFetched q with ctxs := m.ctxs, cmds := s.cmds ++ [cmd], seq := s.seq + 1, bowW := m.bowW }
        ∧ ((∃ y ∈ pt.g.assigns, s.swung y = false) ∨ m.bivouacReady c = false → t = m)
        ∧ ((∀ y ∈ pt.g.assigns, s.swung y = true) → m.bivouacReady c = true →
            ∃ n : State, Ends n t cmd .ok 0 0
              ∧ n.ctx c = { m.ctx c with live := pt.g.gen, swingCmd := none, st := .live }
              ∧ (∀ k, k ≠ c → n.ctx k = m.ctx k) ∧ n = { m with ctxs := n.ctxs }))
  ∧ (∀ (s : State) (crew : Fin 256) (slot : Fin 17),
      (s.isSpare (arrIdx crew.val slot.val) = true ∨ (s.crew crew.val).benched = true ∨ s.dev.st ≠ .active
        ∨ s.swingTarget crew.val (s.logicalArr (arrIdx crew.val slot.val)) = none
        ∨ (∃ c g y, s.swingTarget crew.val (s.logicalArr (arrIdx crew.val slot.val)) = some (c, g, y)
            ∧ s.swingReady c crew.val y.l = false) → exec (.arraySwing crew slot) s = .next s)
      ∧ (∀ c g y, s.isSpare (arrIdx crew.val slot.val) = false → (s.crew crew.val).benched = false → s.dev.st = .active →
          s.swingTarget crew.val (s.logicalArr (arrIdx crew.val slot.val)) = some (c, g, y) →
          s.swingReady c crew.val y.l = true →
          let a := arrIdx crew.val slot.val
          ∃ t u : State, exec (.arraySwing crew slot) s = .next t
            ∧ t = (if (s.arr a).refresh then u.arrayDone 0x33 a else u).swingCheck c ∧ (u.arr a).refresh = false
            ∧ (u.arr a).ground = !(s.arr a).ground
            ∧ (u.arr a).step = BitVec.ofNat 4 (bitsOf (g.man.layer y.layer).slewByte 0 4)
            ∧ (u.arr a).rate = BitVec.ofNat 2 (bitsOf (g.man.layer y.layer).slewByte 4 2)
            ∧ (u.arr a).fold = BitVec.ofNat 2 (bitsOf (g.man.layer y.layer).foldByte 4 2)
            ∧ (u.arr a).auto = bitOf (g.man.layer y.layer).foldByte 0
            ∧ (u.arr a).kappa = f32Rat (s.pFactor a (s.tNow a)) ∧ (u.arr a).tWin = s.tNow a ∧ (u.arr a).drift = 0
            ∧ (u.arr a).limit = false ∧ (u.arr a).tTrim = (s.arr a).tTrim ∧ (u.arr a).conv = (s.arr a).conv
            ∧ (u.arr a).p0 = (s.arr a).p0 ∧ (u.arr a).p1 = (s.arr a).p1 ∧ (u.arr a).jobs = (s.arr a).jobs
            ∧ (∀ b, b ≠ a → u.arr b = s.arr b) ∧ u = { s with arrs := u.arrs }))

/-- O22. On a device that leads no group and with no swing in progress: a RUN takes the stamp of the open batch where its
EPOCH is the same, or the admission generation where no batch is open; with another batch open it answers STATE. A RUN
whose layer or shape fails R126 or R194 answers with the status of the check and does not join the batch. One that
passes joins the batch, or closes it with END_BATCH; where a dynamic dimension is 0 it completes at once with
OK_EMPTY, whatever its addresses; else wrong addresses or lengths give BAD_PARAM, outside the batch, and a RUN that
passes is in flight, undispatched, with its buckets. A RUN that needs a benched crew has failed with CHECK_FAIL when
its status is written. The order of these checks is the choice of the model (log entry 40), and so is which failures
stay outside the batch (log entry 51). (07_commands_queues_states R194, 07_commands_queues_states R188,
06_pitching_weights R162, 05_crews_tiling_dataflow R126) -/
def Obligations.RunIsAdmittedWithItsStamp : Prop :=
  ∀ (s : State) (q : QueueId) (p : Packet), Presents s q .run p → s.parties q .run = [] →
    let c := ctxOf q p
    ((s.ctx c).stamp p.epoch = none → ∃ t, exec (.run q) s = .next t ∧ Answered (s.popFetched q) t q p .state 0 0 0)
    ∧ (∀ gen g, (s.ctx c).stamp p.epoch = some gen → (s.ctx c).generation gen = some g →
        (∀ st, g.man.shapeCheck p = some st → ∃ t, exec (.run q) s = .next t
          ∧ Answered (s.popFetched q) t q p st 0 0 0)
        ∧ (g.man.shapeCheck p = none → (∀ k, k < 16 → (s.ctx k).swingCmd = none) →
          let ly := g.man.layer (p.param 32 2)
          let b := (s.popFetched q).modCtx c (fun x => { x with batch := if p.endBatch then none else some (p.epoch, gen) })
          let cmd := { mkCmd s q p false (.run (RunWork.start (p.param 32 2) ly (ly.vectors p) (ly.bucketsOf p))) with gen := gen }
          (ly.shapeEmpty p = true → ∃ t, exec (.run q) s = .next t ∧ Answered b t q p .okEmpty 0 0 0)
          ∧ (ly.shapeEmpty p = false → s.rangeCheck c ly p = false → ∃ t, exec (.run q) s = .next t
              ∧ Answered (s.popFetched q) t q p .badParam 0 0 0)
          ∧ (ly.shapeEmpty p = false → s.rangeCheck c ly p = true → (∀ x ∈ s.cmds, x.ref ≠ cmd.ref) →
              ((b.enrol cmd).benchedFor cmd = false → exec (.run q) s = .next (b.enrol cmd))
              ∧ ((b.enrol cmd).benchedFor cmd = true →
                  exec (.run q) s = .next ((b.enrol cmd).failCmd cmd.ref .checkFail)))))

/-- O23. On a device in no group, with no descriptor still to be written: RUN_DISPATCH of a RUN of an array layer without
replicas or adapter marks it dispatched, with B3 and B2 of R122, its tiles still to send, its block headers to be
compared, its combined slices due, and a progress counter, cleared, where slices are combined here; nothing else
changes. A replicated layer whose home crew has a free slot gets that slot with NEXT 0 and LIMIT, and no tile yet;
with no free slot it waits unchanged. A bivouac-tier layer gets a cleared counter and rows of descriptors, one at the
tail of the ring of each of its VEs as long as all have room, and they wait for the RUN that writes its input; where
that RUN has no counter yet, or several write it, it is not dispatched; where a tensor would be FP32 or reserved it
fails with BAD_PARAM (R50). A RUN that is dispatched, or has failed, is not dispatched again. That one RUN takes one
counter, which one, what its descriptors wait for, and its rows are the choice of the model (log entry 49); its VEs
and formats are free (log entries 17, 18). (05_crews_tiling_dataflow R120, 05_crews_tiling_dataflow R122,
05_crews_tiling_dataflow R126, 05_crews_tiling_dataflow R132, 05_crews_tiling_dataflow R137, 05_crews_tiling_dataflow
R138, 03_numerics_and_output_assembly R50, 03_numerics_and_output_assembly R66) -/
def Obligations.RunDispatchPlansTheTiles : Prop :=
  ∀ (s : State) (r : CmdRef) (x : Cmd) (w : RunWork) (g : Generation), s.cmd? r = some x → x.work = .run w →
    s.runGen x = some g → w.trim = none →
    (w.dispatched = true ∨ x.ended = true ∨ s.dev.st ≠ .active → exec (.runDispatch r) s = .next s)
    ∧ (w.dispatched = false → x.ended = false → s.dev.st = .active → s.member = false →
        let b3 := planB3 g w.idx w.bucket w.layer
        let b2 := planB2 g w.idx b3
        let v0 := { w with
          dispatched := true, b3 := b3, b2 := b2, due := s.dueArray x w g, adapter := s.adapterOn (ctxOf r.q x.pkt) g w.idx
          remote := false }
        let cnt := if (combSlices g w.idx w.layer).isEmpty then none else s.freeCounterOn (combDie g w.idx)
        let v := { v0 with unchecked := headerPairs g v0, shape := VeShape.none, counter := cnt }
        (w.layer.isArray = true → w.layer.nrep ≤ 1 → s.adapterOn (ctxOf r.q x.pkt) g w.idx = false →
          (∀ y ∈ s.cmds, s.rowOf y.ref = []) →
          exec (.runDispatch r) s = .next
            ((s.clearCounter cnt).updRun r (fun _ => { v with toSend := tileRun g v b2 0 (ceilDiv w.n b2) 0 0 })))
        ∧ (w.layer.isArray = true → 1 < w.layer.nrep → ∀ home e, homeCrew g.man g.assigns w.idx = some home →
            g.maps.find? (fun e => e.1 == w.idx) = some e →
            ((s.crew home).freeCounter = none → exec (.runDispatch r) s = .next s)
            ∧ (∀ k, (s.crew home).freeCounter = some k → s.bitmapBusy x w = false →
                s.adapterOn (ctxOf r.q x.pkt) g w.idx = false →
                (∀ y ∈ s.cmds, s.rowOf y.ref = []) → Memory.wf (s.crew home).sram →
                let lim := planLimit w.n b2 (planG w.n b2)
                ∃ t, exec (.runDispatch r) s = .next t
                  ∧ t.cmds = (s.updRun r (fun _ => { v with g := planG w.n b2, limit := lim, slot := some (home, k) })).cmds
                  ∧ Memory.readBytes (t.crew home).sram (0x100 + 16 * k) 16
                      = counterSlot 0 lim r.tag (ctxOf r.q x.pkt) w.layer.nrep e.2
                  ∧ (∀ n, n ≠ home → t.crew n = s.crew n) ∧ t.counters = (s.clearCounter cnt).counters
                  ∧ t = { s with cmds := t.cmds, crews := t.crews, counters := t.counters }))
        ∧ (w.layer.isArray = false → w.layer.bivHere = true →
            let vs := s.layerVes
            let v1 := { w with dispatched := true, due := s.dueRemote x w, remote := false }
            ((Config.veFormats w.layer.raw).any badFormat = true → exec (.runDispatch r) s = .next (s.failCmd r .badParam))
            ∧ ((Config.veFormats w.layer.raw).any badFormat = false →
                (s.waitOf x v1 = none ∨ vs = [] → exec (.runDispatch r) s = .next s)
                ∧ (∀ wait, s.waitOf x v1 = some wait → vs ≠ [] → w.veNext = 0 →
                    (∀ y ∈ s.cmds, y.ref ≠ r → s.rowOf y.ref = []) →
                    let k := s.freeCounterOn (vs.headD 0 / 8)
                    let m := ({ s.clearCounter k with free := s.free + 2 } : State).updRun r (fun _ => { v1 with
                      due := v1.due + 1, shape := ⟨vs, 0, x.pkt.length, layerBytes g w.idx, 1⟩, counter := k, waitFor := wait })
                    ∃ t, exec (.runDispatch r) s = .next t ∧ (∀ j, k = some j → t.counter j = 0)
                      ∧ (∀ j, k ≠ some j → t.counter j = s.counter j)
                      ∧ ((∃ u ∈ vs, (s.ve u).room = false) → t = m)
                      ∧ ((∀ u ∈ vs, (s.ve u).room = true) → ∀ u ∈ vs, ∃ (d : Desc) (more : List Desc),
                          (t.ve u).ring = (s.ve u).ring ++ d :: more ∧ d.ref = r ∧ d.fetched = false ∧ d.started = false
                          ∧ d.wait = wait ∧ (d.last = true → d.signal = k) ∧ d.idx = (s.ve u).tail)
                      ∧ (∀ u, u ∉ vs → t.ve u = s.ve u)
                      ∧ t = { m with ves := t.ves, cmds := t.cmds, free := t.free }))))

/-- O24. With no swing in progress, no descriptor still to be written and none that waits for the command: RUN_COMPLETE of
an engine-class RUN that has failed, or that is dispatched with every output where it belongs, frees its counter slot
and its work, and writes its status: its outcome, the modifiers where the outcome allows them, the bytes written in
RESULT0 and the replays, at most 65,535, in RESULT1. RUN_BOW_COMPLETE does the same for the bow class, after the
agreed blocks of the first twin have been written to host memory. A command that fails leaves its output range to free
values (R231). A parity error found before the end in the packet or the egress buffers makes a signature, and the
command ends all the same. While outputs are due, nothing changes. (05_crews_tiling_dataflow R121,
07_commands_queues_states R176, 07_commands_queues_states R194, 09_dependability R231, 05_crews_tiling_dataflow R132,
09_dependability R223) -/
def Obligations.RunCompletesWithItsOutcome : Prop :=
  (∀ (s : State) (r : CmdRef) (x : Cmd) (w : RunWork), s.cmd? r = some x → x.work = .run w → w.trim = none → x.localEnd = none →
      x.lone → Canonical s → (∀ k, k < 16 → (s.ctx k).swingCmd = none) →
      (∀ y ∈ s.cmds, s.rowOf y.ref = []) → s.unwait w.counter = s →
      (w.layer.isBow = false → s.runEnded x w = true → ∃ t, exec (.runComplete ⟨r, none⟩) s = .next t
        ∧ Ends (((s.freeSlot w).purge r).spoil x x.outcome) t x x.outcome x.written (min 0xFFFF x.replays))
      ∧ (w.layer.isBow = false → s.runEnded x w = false → ∀ err, exec (.runComplete ⟨r, err⟩) s = .next s)
      ∧ (w.layer.isBow = true → x.ended = true → ∃ t, exec (.runBowComplete ⟨r, none⟩) s = .next t
        ∧ Ends (((s.freeSlot w).purge r).spoil x x.outcome) t x x.outcome x.written (min 0xFFFF x.replays))
      ∧ (w.layer.isBow = true → x.ended = false → s.runEnded x w = true →
          (∃ a, addrOf x.pkt.resultAddr = some (.host a)) → spoils x.outcome = false →
          ∃ t m d, exec (.runBowComplete ⟨r, none⟩) s = .next t ∧ d = { x with written := d.written }
            ∧ (s.releaseBlocks x w).cmd? r = some d
            ∧ d.written = x.written + (w.agreed.map (fun o => o.bytes.length)).foldl (· + ·) 0
            ∧ m = ((s.releaseBlocks x w).freeSlot w).purge r ∧ Ends m t d x.outcome d.written (min 0xFFFF x.replays))
      ∧ (w.layer.isBow = true → s.runEnded x w = false → ∀ err, exec (.runBowComplete ⟨r, err⟩) s = .next s)
      ∧ (x.ended = false → s.runEnded x w = true → ∀ e, ∃ t : State,
          exec (if w.layer.isBow then .runBowComplete ⟨r, some e⟩ else .runComplete ⟨r, some e⟩) s = .next t
          ∧ Found s t r e ∧ ∀ y ∈ t.cmds, y.ref ≠ r))

/-- O25. With no swing in progress: a RUN_BOW of a bow-class layer of the admission generation, with its input in the
extension entries and a host RESULT_ADDR of enough capacity, is in flight and dispatched: its tile goes to both crews,
every output block is due, its input is the LENGTH bytes of the extension entries, and its window is that of the bow
table. Any other layer, length, address or capacity gives BAD_PARAM alone. (07_commands_queues_states R195,
05_crews_tiling_dataflow R123, 06_pitching_weights R162, 08_latency_and_bow_class R211) -/
def Obligations.RunBowIsAdmittedDispatched : Prop :=
  ∀ (s : State) (q : QueueId) (p : Packet) (g : Generation), Presents s q .runBow p →
    let c := ctxOf q p
    (s.ctx c).generation (s.ctx c).adm = some g →
    (s.bowLayer c g p = none → ∃ t, exec (.runBow q) s = .next t ∧ Answered (s.popFetched q) t q p .badParam 0 0 0)
    ∧ (∀ ly, s.bowLayer c g p = some ly → (∀ k, k < 16 → (s.ctx k).swingCmd = none) → (∀ x ∈ s.cmds, x.ref ≠ ⟨q, p.tag⟩) →
        ∃ (w : RunWork) (cmd : Cmd), cmd = { mkCmd s q p false (.run w) with gen := g.gen }
          ∧ w.idx = p.param 32 2 ∧ w.layer = ly ∧ w.dispatched = true ∧ w.n = 1
          ∧ w.toSend = tilesOf g (p.param 32 2) ly 0 1 0 0 ∧ w.due = bowBlocks ly
          ∧ w.inputs = [(0, p.ext.take p.length)] ∧ w.winW = s.bowWin c g.gen (p.param 32 2)
          ∧ (((s.popFetched q).enrol cmd).benchedFor cmd = false → exec (.runBow q) s = .next ((s.popFetched q).enrol cmd))
          ∧ (((s.popFetched q).enrol cmd).benchedFor cmd = true →
              exec (.runBow q) s = .next (((s.popFetched q).enrol cmd).failCmd cmd.ref .checkFail)))

/-- O26. With no swing in progress: the next block of a twin, of the first as of the second, reaches the front end and is
kept; where the other copy of it is there too and every element agrees within the window, the block is due no longer,
and the copy of the first twin is the one that leaves; where one disagrees, the command fails with CHECK_FAIL after a
signature of kind 0x04, which names the element and both results, and the queueing of a census of every array of the
layer; a parity error in a block ends it too. A role exchange swaps the stroke and the standby array of an entry, with
the work that waits, where neither lies between the strokes of a vector, and else changes nothing.
(08_latency_and_bow_class R211, 08_latency_and_bow_class R212, 09_dependability R230, 08_latency_and_bow_class R207,
09_dependability R223, 09_dependability R240) -/
def Obligations.TwinsAreComparedBlockByBlock : Prop :=
  (∀ (s : State) (r : CmdRef) (x : Cmd) (w : RunWork) (g : Generation) (o : OutBlock) (l : List OutBlock),
      s.cmd? r = some x → x.work = .run w → s.runGen x = some g → w.fly0 = o :: l → x.ended = false →
      (∀ k, k < 16 → (s.ctx k).swingCmd = none) →
      let v := { w with fly0 := l, arr0 := w.arr0 ++ [o] }
      let twinData := fun e : Nat × FV × FV =>
        leBytes 4 (w.layer.cols * o.slice + (o.off - w.layer.sliceOfs o.slice) / blockLen w.layer * 32 + e.1)
          ++ leBytes 4 (f32Of e.2.1).toNat ++ leBytes 4 (f32Of e.2.2).toNat ++ leBytes 4 w.winW.toNat
      (w.arr1.find? (OutBlock.sameBlock o) = none → exec (.twinBlockArrival ⟨r, none⟩ false) s = .next (s.updRun r (fun _ => v)))
      ∧ (∀ b, w.arr1.find? (OutBlock.sameBlock o) = some b → w.arr0.find? (OutBlock.sameBlock o) = none →
          (firstDisagree w.layer w.winW o.bytes b.bytes = none → exec (.twinBlockArrival ⟨r, none⟩ false) s = .next
            (s.updRun r (fun _ => { v with agreed := w.agreed ++ [o], due := w.due - 1 })))
          ∧ (∀ e, firstDisagree w.layer w.winW o.bytes b.bytes = some e → ∃ t : State,
              exec (.twinBlockArrival ⟨r, none⟩ false) s = .next t
              ∧ Signed s t 0x04 { ctx := qCtx r.q, tag := some r.tag.toNat, status := some (statusCode .checkFail), data := twinData e }
              ∧ t.cmds = ((s.updRun r (fun _ => v)).failCmd r .checkFail).cmds
              ∧ (∀ a ∈ s.layerArrs g w.idx, a ∈ t.censusQ) ∧ t.host = s.host ∧ t.ctxs = s.ctxs)))
  ∧ (∀ (s : State) (r : CmdRef) (x : Cmd) (w : RunWork) (g : Generation) (o : OutBlock) (l : List OutBlock),
      s.cmd? r = some x → x.work = .run w → s.runGen x = some g → w.fly1 = o :: l → x.ended = false →
      (∀ k, k < 16 → (s.ctx k).swingCmd = none) →
      let v := { w with fly1 := l, arr1 := w.arr1 ++ [o] }
      let twinData := fun e : Nat × FV × FV =>
        leBytes 4 (w.layer.cols * o.slice + (o.off - w.layer.sliceOfs o.slice) / blockLen w.layer * 32 + e.1)
          ++ leBytes 4 (f32Of e.2.1).toNat ++ leBytes 4 (f32Of e.2.2).toNat ++ leBytes 4 w.winW.toNat
      (w.arr0.find? (OutBlock.sameBlock o) = none → exec (.twinBlockArrival ⟨r, none⟩ true) s = .next (s.updRun r (fun _ => v)))
      ∧ (∀ b, w.arr0.find? (OutBlock.sameBlock o) = some b → w.arr1.find? (OutBlock.sameBlock o) = none →
          (firstDisagree w.layer w.winW b.bytes o.bytes = none → exec (.twinBlockArrival ⟨r, none⟩ true) s = .next
            (s.updRun r (fun _ => { v with agreed := w.agreed ++ [b], due := w.due - 1 })))
          ∧ (∀ e, firstDisagree w.layer w.winW b.bytes o.bytes = some e → ∃ t : State,
              exec (.twinBlockArrival ⟨r, none⟩ true) s = .next t
              ∧ Signed s t 0x04 { ctx := qCtx r.q, tag := some r.tag.toNat, status := some (statusCode .checkFail), data := twinData e }
              ∧ t.cmds = ((s.updRun r (fun _ => v)).failCmd r .checkFail).cmds
              ∧ (∀ a ∈ s.layerArrs g w.idx, a ∈ t.censusQ) ∧ t.host = s.host ∧ t.ctxs = s.ctxs)))
  ∧ (∀ (s : State) (r : CmdRef) (x : Cmd) (w : RunWork) (g : Generation) (sec : Bool) (e : ParityErr),
      s.cmd? r = some x → x.work = .run w → s.runGen x = some g → x.ended = false →
      (if sec then w.fly1 else w.fly0) ≠ [] → ∃ t : State, exec (.twinBlockArrival ⟨r, some e⟩ sec) s = .next t
        ∧ Found s t r e ∧ ∀ y ∈ t.cmds, y.ref = r → y.ended = true)
  ∧ (∀ (s : State) (crew : Fin 256) (l : Fin 16),
      (s.entryArrs crew.val l.val = none → exec (.twinRoleExchange crew l) s = .next s)
      ∧ (∀ i j, s.entryArrs crew.val l.val = some (i, j) → i ≠ j →
          let a := s.physArr crew.val i
          let b := s.physArr crew.val j
          (s.crewUp crew.val = true → (s.arr a).betweenVectors = true → (s.arr b).betweenVectors = true → a ≠ b →
            ∃ t : State, exec (.twinRoleExchange crew l) s = .next t
              ∧ (t.arr a).jobs = (s.arr b).jobs ∧ (t.arr b).jobs = (s.arr a).jobs
              ∧ (t.crew crew.val).resv = (s.crew crew.val).resv.map (fun r =>
                  { r with standby := r.standby ^^^ BitVec.ofNat 16 (2 ^ i + 2 ^ j) })
              ∧ (∀ n, n ≠ a → n ≠ b → t.arr n = s.arr n) ∧ (∀ n, n ≠ crew.val → t.crew n = s.crew n)
              ∧ t = { s with crews := t.crews, arrs := t.arrs })
          ∧ (s.crewUp crew.val = false ∨ (s.arr a).betweenVectors = false ∨ (s.arr b).betweenVectors = false →
              exec (.twinRoleExchange crew l) s = .next s)))

/-- O27. A FENCE that passes the checks is in flight. It completes with OK once every command admitted before it on its
queue has completed, and not before. While it is in flight no entry of its queue may be examined; whether an entry of
another queue may be examined does not depend on it. (R196) -/
def Obligations.FenceWaitsForEarlierCommands : Prop :=
  (∀ (s : State) (q : QueueId) (p : Packet), Presents s q .fence p → p.noAddrs = true →
      exec (.fence q) s = .next ((s.popFetched q).enrol (mkCmd s q p true .fence)))
  ∧ (∀ (s : State) (q : QueueId) (f : Cmd), Memory.wf s.host → f.lone → f.ref.q = q →
      s.cmds.find? (fun c => decide (c.ref.q = q) && decide (c.work = .fence)) = some f →
      ((∀ c ∈ s.cmds, c.ref.q = q → f.seq ≤ c.seq) → ∃ t, exec (.fenceComplete q) s = .next t ∧ Ends s t f .ok 0 0)
      ∧ ((∃ c ∈ s.cmds, c.ref.q = q ∧ c.seq < f.seq) → exec (.fenceComplete q) s = .next s))
  ∧ (∀ (s : State) (q : QueueId), (∀ c ∈ s.cmds, c.ref.q = q → c.work ≠ .fence) → exec (.fenceComplete q) s = .next s)
  ∧ (∀ (s : State) (q : QueueId) (p : Packet), ((s.popFetched q).enrol (mkCmd s q p true .fence)).examinable q = false)
  ∧ (∀ (s : State) (q k : QueueId) (p : Packet), qIdx q < 33 → qIdx k < 33 → k ≠ q →
      ((s.popFetched q).enrol (mkCmd s q p true .fence)).examinable k = s.examinable k)

/-- O28. On a device that is no member of a group, a legal COLLECTIVE is in flight with the bytes at DATA_ADDR as the only
contribution; its completion writes them at RESULT_ADDR in working space and answers OK with their number. Wherever a
COLLECTIVE completes, RESULT0 is LENGTH times the number of contributors: the choice of the model (log entry 58). A
failed one completes with its outcome, its output range left to free values. An illegal one answers BAD_PARAM alone.
While a contribution is missing, or its own has not been read, it waits; it waits too while the pool takes no read of
its own contribution or no write of what it receives (log entry 50). A parity error in its data fails it with a
signature. (10_links_groups_scaling R272, 10_links_groups_scaling R273, 09_dependability R231, 09_dependability R223) -/
def Obligations.CollectiveGathersInOrder : Prop :=
  (∀ (s : State) (q : QueueId) (p : Packet), Presents s q .collective p → s.member = false →
      let c := ctxOf q p
      let cmd := { mkCmd s q p false (.coll [] true) with gen := (s.ctx c).adm }
      (s.collOk c p = false → ∃ t, exec (.collective q) s = .next t ∧ Answered (s.popFetched q) t q p .badParam 0 0 0)
      ∧ (∀ v, s.collOk c p = true → (∀ x ∈ s.cmds, x.ref ≠ cmd.ref) → addrOf p.dataAddr = some (.work v) →
          (s.hbmOpen (p.cls == 2) = false → ∃ t : State, exec (.collective q) s = .next t
            ∧ t.cmds = s.cmds ++ [{ cmd with work := .coll [] false }]
            ∧ t = { s.popFetched q with cmds := t.cmds, seq := s.seq + 1, gov := t.gov })
          ∧ (s.hbmOpen (p.cls == 2) = true → badIn (s.ctx c).bad v p.length = none → ∃ t : State,
          exec (.collective q) s = .next t
          ∧ t.cmds = s.cmds ++ [{ cmd with work := .coll [(s.self, Memory.readBytes (s.ctx c).work v p.length)] true }]
          ∧ t = { s.popFetched q with cmds := t.cmds, seq := s.seq + 1, gov := t.gov, tel := t.tel })))
  ∧ (∀ (s : State) (r : CmdRef) (x : Cmd) (got : List (Nat × List Byte)) (sent : Bool), Canonical s → s.cmd? r = some x →
      x.work = .coll got sent → x.localEnd = none → x.lone →
      (x.ended = true → (∀ k, k < 16 → (s.ctx k).swingCmd = none) → ∃ t, exec (.collectiveComplete ⟨r, none⟩) s = .next t
        ∧ Ends (s.spoil x x.outcome) t x x.outcome 0 x.replays)
      ∧ (x.ended = false → sent = false ∨ s.collIn x got = false → exec (.collectiveComplete ⟨r, none⟩) s = .next s)
      ∧ (x.ended = false → sent = true → s.collIn x got = true → s.self ∈ s.collTo x.pkt → s.hbmOpen (x.pkt.cls == 2) = false →
          exec (.collectiveComplete ⟨r, none⟩) s = .next (s.hbmWait (x.pkt.cls == 2)))
      ∧ (x.ended = false → sent = true → s.collIn x got = true → (s.self ∈ s.collTo x.pkt → s.hbmOpen (x.pkt.cls == 2) = true) → ∃ t, exec (.collectiveComplete ⟨r, none⟩) s = .next t
        ∧ Ends (s.collWrite x got) t x x.outcome (x.pkt.length * (s.collFrom x.pkt).length) x.replays)
      ∧ (∀ bs v, s.member = false → got = [(s.self, bs)] → addrOf x.pkt.resultAddr = some (.work v) →
          Memory.wf (s.ctx (ctxOf r.q x.pkt)).work →
          Memory.readBytes ((s.collWrite x got).ctx (ctxOf r.q x.pkt)).work v bs.length = bs)
      ∧ (x.ended = false → ∀ e, ∃ t : State, exec (.collectiveComplete ⟨r, some e⟩) s = .next t
          ∧ Found s t r e ∧ ∀ y ∈ t.cmds, y.ref = r → y.ended = true))

/-- O29. A TRIM_LOAD of host memory whose LENGTH is that of the record, or of record and appendix: a malformed record
answers BAD_PARAM, a bad signature SIG_BAD, another device or stepping or a value out of range BAD_PARAM, and a spare
map that a held array forbids STATE, each with no other effect. Otherwise SPARE of every crew of the powered dies is
the value of the record with VALID set, every array there has its column and DAC trims, its tracking values are reset
and LANBAD is clear; outside BOATHOUSE the command is in flight until the lantern pass ends, whose 1,024 slots of 4
write tokens an array are granted now or owed. In BOATHOUSE it completes with OK at once: the record is loaded and
every lantern cell of the powered dies has its factory value; an appendix that fails its check makes one signature,
and one that passes gives kappa and the tracking coefficients (log entry 120, DEDUCED). Any other LENGTH gives
BAD_PARAM. That the load clears LANBAD is the choice of the model (log entry 104), and so is that the tracking values
take effect at once (log entry 26). (04_accuracy_drift_calibration R82, 04_accuracy_drift_calibration R80,
04_accuracy_drift_calibration R83, 04_accuracy_drift_calibration R85, 04_accuracy_drift_calibration R357,
02_arrays_and_strokes R43, 14_pins_package_electrical R359, 12_clocks_resets_power_boot R304) -/
def Obligations.TrimLoadChecksThenLoads : Prop :=
  ∀ (s : State) (q : QueueId) (p : Packet) (a : Nat), Canonical s → Presents s q .trimLoad p → p.hostData = some a →
    let n := field (Memory.readBytes s.host a 20) 16 4
    let r := Memory.readBytes s.host a n
    let ap := Memory.readBytes s.host (a + n) (p.length - n)
    (p.length ≠ n → p.length ≠ n + appendixLen → ∃ t, exec (.trimLoad q) s = .next t
      ∧ Answered (s.popFetched q) t q p .badParam 0 0 0)
    ∧ (p.length = n ∨ p.length = n + appendixLen → ∃ t : State, exec (.trimLoad q) s = .next t
      ∧ (trimForm r = false → Answered (s.popFetched q) t q p .badParam 0 0 0)
      ∧ (trimForm r = true → signedOk Config.factoryKey r = false → Answered (s.popFetched q) t q p .sigBad 0 0 0)
      ∧ (trimForm r = true → signedOk Config.factoryKey r = true →
          (field r 8 8 ≠ Config.serial.toNat ∨ field r 6 1 ≠ stepping ∨ trimValues r = false →
            Answered (s.popFetched q) t q p .badParam 0 0 0)
          ∧ (field r 8 8 = Config.serial.toNat → field r 6 1 = stepping → trimValues r = true →
              (s.spareClash r = true → Answered (s.popFetched q) t q p .state 0 0 0)
              ∧ (s.spareClash r = false → s.dev.st ≠ .boathouse →
                  t.cmds = s.cmds ++ [mkCmd s q p true (.trim r ap)] ∧ t.env = s.env
                  ∧ (∀ k, k < 256 → diePowered s.env.env (crewDie k) = true →
                      (t.crew k).spare = BitVec.ofNat 5 (trimSpare r k) ∧ (t.crew k).spareValid = true
                      ∧ (∀ m, m < 17 → (t.arr (arrIdx k m)).fTrim = trimCols r (arrIdx k m)
                          ∧ (t.arr (arrIdx k m)).dac = trimDac r (arrIdx k m) ∧ (t.arr (arrIdx k m)).tTrim = []
                          ∧ (t.arr (arrIdx k m)).kappa = 0x3F800000#32 ∧ (t.arr (arrIdx k m)).conv = false
                          ∧ (t.arr (arrIdx k m)).lanBad = false))
                  ∧ (∀ k, k < 256 → diePowered s.env.env (crewDie k) = false → t.crew k = s.crew k)
                  ∧ t.gov = s.gov.chargeWrite
                      (((List.range 4352).filter (fun a => diePowered s.env.env (crewDie (a / 17)))).length * 1024 * 4)
                  ∧ t = { s.popFetched q with
                      cmds := t.cmds, seq := s.seq + 1, crews := t.crews, arrs := t.arrs, bowW := t.bowW, gov := t.gov })
              ∧ (s.spareClash r = false → s.dev.st = .boathouse → ∃ m : State, Answered m t q p .ok 0 0 0
                  ∧ m.env = { s.env with trimLoaded := true, trim := r }
                  ∧ (∀ a, a < 4352 → diePowered s.env.env (crewDie (a / 17)) = true →
                      (m.crew (a / 17)).spare = BitVec.ofNat 5 (trimSpare r (a / 17)) ∧ (m.crew (a / 17)).spareValid = true
                      ∧ (m.arr a).fTrim = trimCols r a ∧ (m.arr a).dac = trimDac r a ∧ (m.arr a).lanBad = false
                      ∧ (m.arr a).conv = false
                      ∧ (∀ pk, pk < 16 → (m.arr a).lan.get zero16 pk = trimLantern r a (pk / 8) (pk % 8))
                      ∧ (ap = [] ∨ appendixOk r ap = false → Trimmed m r a)
                      ∧ (ap ≠ [] → appendixOk r ap = true → TakesAppendix m ap a))
                  ∧ (ap = [] ∨ appendixOk r ap = true → m.sig = s.sig)
                  ∧ (ap ≠ [] → appendixOk r ap = false → Signed s m 0x0D {})
                  ∧ m.cmds = s.cmds ∧ m.ctxs = s.ctxs ∧ m.host = s.host ∧ m.cfg = s.cfg))))

/-- O30. When the lantern pass of a TRIM_LOAD ends, which it does not before its write tokens are granted and the pool
takes the record (log entry 50), the trim record is loaded and the command completes with OK; with none in flight
nothing changes. Every lantern cell of the powered dies takes the mean measured, divided by P(T) of its array (a cell
that the pass does not list measures its factory value), or the conductance of a field appendix that passes its check;
one more than 1.0 microsiemens off its factory value gives way to that value, with LANBAD set and a signature of kind
0x0C. From such an appendix kappa and the column coefficients come, each clamped to its range, T_win is the
temperature now, and CONV is clear; a kappa that is no number is left to log entry 103. An appendix that fails is
ignored, with a signature. Arrays of a die without power and all else of an array stay. A TRIM_READ with room for
record and appendix answers OK with their length after writing them; before a record is loaded it answers STATE, and
with less room BAD_PARAM, which is checked first: the choice of the model (log entry 105).
(04_accuracy_drift_calibration R82, 04_accuracy_drift_calibration R83, 04_accuracy_drift_calibration R84,
04_accuracy_drift_calibration R85, 04_accuracy_drift_calibration R79, 12_clocks_resets_power_boot R304,
09_dependability R240) -/
def Obligations.LanternPassAndTrimRead : Prop :=
  (∀ (s : State) (means : List (Nat × F16)) (x : Cmd) (r ap : List Byte), Canonical s → x.lone → x.work = .trim r ap →
      s.cmds.find? (fun c => match c.work with | .trim _ _ => true | _ => false) = some x →
      (s.gov.owedWr ≠ 0 → exec (.lanternPassComplete means) s = .next s)
      ∧ (s.gov.owedWr = 0 → s.hbmOpen false = false → exec (.lanternPassComplete means) s = .next (s.hbmWait false))
      ∧ (s.gov.owedWr = 0 → s.hbmOpen false = true → ∃ t m : State,
          exec (.lanternPassComplete means) s = .next t ∧ Ends m t x .ok 0 0
          ∧ m.env = { s.env with trimLoaded := true, trim := r }
          ∧ m.cmds = s.cmds ∧ m.ctxs = s.ctxs ∧ m.crews = s.crews ∧ m.host = s.host ∧ m.cfg = s.cfg
          ∧ (∀ a, a < 4352 → diePowered s.env.env (crewDie (a / 17)) = true →
              let good : Prop := ap ≠ [] ∧ appendixOk r ap = true
              let p := ({ s with env := m.env } : State).pFactor a (s.tNow a)
              (∀ pk, pk < 16 →
                  let f := trimLantern r a (pk / 8) (pk % 8)
                  (good → s.dev.st ≠ .boathouse → TakesLantern (m.arr a) pk f (appendixLantern ap a pk))
                  ∧ (¬good ∨ s.dev.st = .boathouse →
                      (∀ v, means.find? (fun e => e.1 == 16 * a + pk) = some (16 * a + pk, v) →
                        TakesLantern (m.arr a) pk f (BitVec.ofNat 16 (fmtFP16.encode (.fin false (f16Q v / p)))))
                      ∧ (means.find? (fun e => e.1 == 16 * a + pk) = none → (m.arr a).lan.get zero16 pk = f)))
              ∧ (¬good → m.arr a = { s.arr a with lan := (m.arr a).lan, lanBad := (m.arr a).lanBad })
              ∧ (good → TakesAppendix m ap a ∧ m.arr a = { s.arr a with
                  lan := (m.arr a).lan, lanBad := (m.arr a).lanBad, kappa := (m.arr a).kappa, tTrim := (m.arr a).tTrim
                  tWinSum := (m.arr a).tWinSum, tWinCnt := (m.arr a).tWinCnt, conv := false }))
          ∧ (∀ a, diePowered s.env.env (crewDie (a / 17)) = false → m.arr a = s.arr a)
          ∧ (ap ≠ [] → appendixOk r ap = false → s.sig.seq < m.sig.seq)))
  ∧ (∀ (s : State) (means : List (Nat × F16)), (∀ c ∈ s.cmds, ∀ r ap, c.work ≠ .trim r ap) →
      exec (.lanternPassComplete means) s = .next s)
  ∧ (∀ (s : State) (r : List Byte) (a pk : Nat) (live : F16),
      let f := trimLantern r a (pk / 8) (pk % 8)
      (f16Finite live = true → absQ (f16Q live - f16Q f) ≤ 1 →
        ((s.setLantern r a pk live).arr a).lan.get zero16 pk = live ∧ (s.setLantern r a pk live).sig = s.sig
        ∧ ((s.setLantern r a pk live).arr a).lanBad = (s.arr a).lanBad)
      ∧ (f16Finite live = false ∨ 1 < absQ (f16Q live - f16Q f) →
        ((s.setLantern r a pk live).arr a).lan.get zero16 pk = f ∧ ((s.setLantern r a pk live).arr a).lanBad = true
        ∧ Signed s (s.setLantern r a pk live) 0x0C {
            loc := [crewDie (a / 17), a / 17, s.logicalArr a]
            data := leBytes 1 (pk / 8) ++ leBytes 1 (pk % 8) ++ leBytes 2 live.toNat ++ leBytes 2 f.toNat })
      ∧ (∀ b, b ≠ a → (s.setLantern r a pk live).arr b = s.arr b))
  ∧ (∀ (s : State) (q : QueueId) (p : Packet) (a : Nat), Presents s q .trimRead p → p.hostResult = some a →
      (p.length < trimLen + appendixLen → ∃ t, exec (.trimRead q) s = .next t
        ∧ Answered (s.popFetched q) t q p .badParam 0 0 0)
      ∧ (trimLen + appendixLen ≤ p.length → s.env.trimLoaded = false → ∃ t, exec (.trimRead q) s = .next t
        ∧ Answered (s.popFetched q) t q p .state 0 0 0)
      ∧ (trimLen + appendixLen ≤ p.length → s.env.trimLoaded = true → ∃ t m, exec (.trimRead q) s = .next t
        ∧ Answered m t q p .ok 0 (s.env.trim ++ s.appendix s.env.trim).length 0
        ∧ m = { s.popFetched q with
            host := Memory.writeBytes s.host a (s.env.trim ++ s.appendix s.env.trim), gov := m.gov, tel := m.tel }))

/-- O31. A REFRESH or CENSUS that passes the checks treats the arrays of R100 that lie on crews in service. With none it
completes at once; otherwise it is in flight with the arrays it waits for, each of which is queued or already in
treatment; nothing else changes. Its outcome is OK, and CHECK_FAIL where an array lies on a benched crew; that the
others are treated all the same is the choice of the model (log entry 32). A scheduled census queues every array, on a
crew in service, of the contexts in OPEN or LIVE, where a device in ACTIVE with its environment set has CENSUS_H hours
configured, and does nothing otherwise. (04_accuracy_drift_calibration R100, 04_accuracy_drift_calibration R103,
09_dependability R234) -/
def Obligations.RefreshAndCensusAreQueued : Prop :=
  (∀ (s : State) (q : QueueId) (p : Packet), Presents s q .refresh p → p.noAddrs = true →
      let all := s.treatArrs q p
      let up := all.filter (fun a => s.crewUp (a / 17))
      let st : Status := if up.length = all.length then .ok else .checkFail
      (up = [] → ∃ t, exec (.refresh q) s = .next t ∧ Answered (s.popFetched q) t q p st 0 0 0)
      ∧ (up ≠ [] → ∃ t : State, exec (.refresh q) s = .next t
          ∧ t.cmds = s.cmds ++ [{ mkCmd s q p false (.arrays up up.length) with outcome := st }]
          ∧ (∀ a ∈ up, a ∈ t.refreshQ ∨ (s.arr a).refresh = true) ∧ (∀ a ∈ s.refreshQ, a ∈ t.refreshQ)
          ∧ t = { s.popFetched q with cmds := t.cmds, seq := s.seq + 1, refreshQ := t.refreshQ }))
  ∧ (∀ (s : State) (q : QueueId) (p : Packet), Presents s q .census p → p.noAddrs = true →
      let all := s.treatArrs q p
      let up := all.filter (fun a => s.crewUp (a / 17))
      let st : Status := if up.length = all.length then .ok else .checkFail
      (up = [] → ∃ t, exec (.census q) s = .next t ∧ Answered (s.popFetched q) t q p st 0 0 0)
      ∧ (up ≠ [] → ∃ t : State, exec (.census q) s = .next t
          ∧ t.cmds = s.cmds ++ [{ mkCmd s q p false (.arrays up up.length) with outcome := st }]
          ∧ (∀ a ∈ up, a ∈ t.censusQ ∨ (s.arr a).census = true) ∧ (∀ a ∈ s.censusQ, a ∈ t.censusQ)
          ∧ t = { s.popFetched q with cmds := t.cmds, seq := s.seq + 1, censusQ := t.censusQ }))
  ∧ (∀ s : State,
      (s.cfg.censusH = 0 ∨ s.env.envSet = false ∨ s.dev.st ≠ .active → exec .scheduledCensusDue s = .next s)
      ∧ (s.cfg.censusH ≠ 0 → s.env.envSet = true → s.dev.st = .active → ∃ t : State, exec .scheduledCensusDue s = .next t
          ∧ (∀ c a, c < 16 → (s.ctx c).st = .opened ∨ (s.ctx c).st = .live → a ∈ s.groundArrs c → s.crewUp (a / 17) = true →
              a ∈ t.censusQ ∨ (s.arr a).census = true)
          ∧ (∀ a ∈ t.censusQ, a ∈ s.censusQ ∨ (s.crewUp (a / 17) = true ∧ ∃ c, c < 16 ∧ (s.ctx c).st.inService = true
              ∧ a ∈ s.groundArrs c))
          ∧ t = { s with censusQ := t.censusQ }))

/-- O32. A refresh starts on an array that may be treated, is not in refresh, and has reached its drift threshold or is
queued; a census on the queued array whose turn it is in its crew. Its bit is set, its rows begin, and the array
leaves the queue; otherwise nothing changes. A refresh whose last row is within tolerance, and, between the vectors of
the array (R106), a census of all rows, end: the bit is clear, and a REFRESH or CENSUS that is alone in flight and
waited for this array alone completes with its outcome and the number of arrays treated. With rows left nothing
changes. The rows of a refresh, those of the ground plane and then the lantern cells of the fly plane, in this order,
are the choice of the model (log entries 27 and 43). (04_accuracy_drift_calibration R97, 04_accuracy_drift_calibration
R100, 04_accuracy_drift_calibration R102, 04_accuracy_drift_calibration R103, 04_accuracy_drift_calibration R106) -/
def Obligations.MaintenanceStartsAndEnds : Prop :=
  (∀ (s : State) (crew : Fin 256) (slot : Fin 17),
      let a := arrIdx crew.val slot.val
      (s.mayTreat a = true → (s.arr a).refresh = false → (s.driftAtThr a = true ∨ a ∈ s.refreshQ) → ∃ t : State,
          exec (.refreshStart crew slot) s = .next t ∧ (t.arr a).refresh = true ∧ (t.arr a).maint.rows = List.range 1024
          ∧ t.refreshQ = s.refreshQ.filter (· ≠ a) ∧ (∀ b, b ≠ a → t.arr b = s.arr b)
          ∧ t = { s with arrs := t.arrs, refreshQ := t.refreshQ })
      ∧ (s.mayTreat a = false ∨ (s.arr a).refresh = true ∨ (s.driftAtThr a = false ∧ a ∉ s.refreshQ) →
          exec (.refreshStart crew slot) s = .next s)
      ∧ (s.mayTreat a = true → s.nextCensus crew.val = some a → ∃ t : State, exec (.censusStart crew slot) s = .next t
          ∧ (t.arr a).census = true ∧ (t.arr a).maint.censusRow = 0 ∧ t.censusQ = s.censusQ.filter (· ≠ a)
          ∧ (∀ b, b ≠ a → t.arr b = s.arr b) ∧ t = { s with arrs := t.arrs, censusQ := t.censusQ })
      ∧ (s.mayTreat a = false ∨ s.nextCensus crew.val ≠ some a → exec (.censusStart crew slot) s = .next s)
      ∧ ((s.arr a).refresh = true → (s.arr a).maint.rows = [] → ∃ t : State, exec (.refreshComplete crew slot) s = .next t
          ∧ (t.arr a).refresh = false ∧ (∀ b, b ≠ a → t.arr b = s.arr b)
          ∧ (∀ x n, Memory.wf s.host → s.cmds = [x] → x.lone → x.pkt.opcode = 0x33 → x.work = .arrays [a] n →
              Ends (s.modArr a (fun y => { y with refresh := false })) t x x.outcome n 0))
      ∧ ((s.arr a).refresh = false ∨ (s.arr a).maint.rows ≠ [] → exec (.refreshComplete crew slot) s = .next s)
      ∧ ((s.arr a).census = true → 512 ≤ (s.arr a).maint.censusRow → (s.arr a).midVector = false → ∃ t : State, exec (.censusComplete crew slot) s = .next t
          ∧ (t.arr a).census = false ∧ (t.arr a).maint.censusRow = 0 ∧ (∀ b, b ≠ a → t.arr b = s.arr b)
          ∧ (∀ x n, Canonical s → s.cmds = [x] → x.lone → x.pkt.opcode = 0x34 → x.work = .arrays [a] n → ∃ m : State,
              Ends m t x x.outcome n 0 ∧ m.host = s.host ∧ m.ctxs = s.ctxs))
      ∧ ((s.arr a).census = false ∨ (s.arr a).maint.censusRow < 512 ∨ (s.arr a).midVector = true → exec (.censusComplete crew slot) s = .next s))

/-- O33. In a maintenance slot of an open array a refresh at the drift limit goes first, whatever the spacing; else, at
its spacing and with no pitch slot before it, a census in progress reads its next row, takes the levels of its 512
data cells and goes on to the next; else a refresh takes its first row. A refresh pulses every cell outside its
tolerance, on the fly plane the lantern cells alone, and takes the row again later where one of them can still come
back. Each draws 4 write tokens and one for each pulsed cell, and waits unchanged but for the governor where they are
short; the array shows VERIFY. A pitch slot, where it is the turn of its array, does so for the first row to be
programmed: in a row with no cell outside its window, with 4 tokens there, the row ends with its cells as read; else
each cell outside that is not stuck takes one pulse, until its 24th or the last slot of the row. An even (high) column
of an 8-bit weight that is stuck then gives its low cell the level nearest to what is missing and a fresh allowance. A
row whose only cell outside is stuck ends: the cell is recorded, with one signature, and a residual that is not 0
joins the patch list. With nothing to do, or where the slot may not start, nothing changes; nor does a refresh at the
limit or a pitch slot while another array of the crew is in one (log entry 126). The choices of the model are: which
cells a refresh does not wait for (log entry 42), that it takes a row again at the end (27), the rows of the fly plane
(43), no pitch slot on an array at its limit (80), the turn (109). (04_accuracy_drift_calibration R98,
04_accuracy_drift_calibration R99, 04_accuracy_drift_calibration R102, 04_accuracy_drift_calibration R101,
04_accuracy_drift_calibration R104, 06_pitching_weights R157, 06_pitching_weights R158, 02_arrays_and_strokes R40) -/
def Obligations.VerifySlotsReadTopUpAndCount : Prop :=
  ∀ (s : State) (crew : Fin 256) (slot : Fin 17) (reads : List Nat), reads.length = 520 →
    let a := arrIdx crew.val slot.val
    let x := s.arr a
    let reading : Prop := x.pitchWaits = false ∧ x.spaced s.cfg.space.toNat = true ∧ x.census = true ∧ x.maint.censusRow < 512
    let renewing : Prop := x.limitRefresh = true ∨ (x.pitchWaits = false ∧ x.spaced s.cfg.space.toNat = true
      ∧ (x.census = false ∨ 512 ≤ x.maint.censusRow))
    (s.slotOpen a = false → exec (.maintenanceSlot crew slot reads) s = .next s
      ∧ exec (.pitchSlot crew slot reads) s = .next s)
    ∧ (s.slotOpen a = true → x.limitRefresh = false → reading →
        (s.gov.wrAllow < 4 → exec (.maintenanceSlot crew slot reads) s = .next { s with gov := (s.gov.drawWrite 4).1 })
        ∧ (4 ≤ s.gov.wrAllow → ∃ t : State,
            exec (.maintenanceSlot crew slot reads) s = .next t
            ∧ (t.arr a).maint.censusRow = x.maint.censusRow + 1 ∧ (t.arr a).sinceMaint = 0 ∧ (t.arr a).verify = verifySlot
            ∧ (∀ c v, c < 512 → reads[c]? = some v →
                (t.arr a).maint.levels.get zeroNat (x.maint.censusRow * 512 + c) = (x.plane x.ground).levelOf v)
            ∧ t.gov = (s.gov.drawWrite 4).1 ∧ (∀ b, b ≠ a → t.arr b = s.arr b) ∧ t = { s with gov := t.gov, arrs := t.arrs }))
    ∧ (x.limitRefresh = true → s.writerFree a = false → exec (.maintenanceSlot crew slot reads) s = .next s)
    ∧ (s.slotOpen a = true → renewing → (x.limitRefresh = true → s.writerFree a = true) → x.refresh = true →
        ∀ row rest, x.maint.rows = row :: rest →
        let fly := decide (512 ≤ row)
        let p := x.plane (if fly then !x.ground else x.ground)
        let hit := (List.range 520).filter (fun c =>
          (!fly || decide (512 ≤ c)) && outside (p.cellTarget (row % 512) c) (reads.getD c 0))
        let back (c : Nat) : Prop :=
          if fly then (row % 512) * 520 + c ∉ p.stuck else s.leftAlone a (row % 512) c = false
        (s.gov.wrAllow < 4 + hit.length → exec (.maintenanceSlot crew slot reads) s
            = .next { s with gov := (s.gov.drawWrite (4 + hit.length)).1 })
        ∧ (4 + hit.length ≤ s.gov.wrAllow → ∃ t : State, exec (.maintenanceSlot crew slot reads) s = .next t
            ∧ ((∃ c ∈ hit, back c) → (t.arr a).maint.rows = rest ++ [row])
            ∧ ((∀ c ∈ hit, ¬back c) → (t.arr a).maint.rows = rest)
            ∧ (t.arr a).sinceMaint = 0 ∧ (t.arr a).verify = verifySlot ∧ (∀ b, b ≠ a → t.arr b = s.arr b)
            ∧ t = { s with gov := (s.gov.drawWrite (4 + hit.length)).1, arrs := t.arrs }))
    ∧ (x.limitRefresh = false → ¬reading → (x.refresh = false ∨ x.maint.rows = [] ∨ ¬renewing) →
        exec (.maintenanceSlot crew slot reads) s = .next s)
    ∧ (x.limitRefresh = true ∨ x.spaced s.cfg.space.toNat = false ∨ x.prog = none ∨ s.writerFree a = false →
        exec (.pitchSlot crew slot reads) s = .next s)
    ∧ (s.slotOpen a = true → x.limitRefresh = false → x.spaced s.cfg.space.toNat = true → s.writerFree a = true →
        ∀ g row rest, x.prog = some g → g.rows = row :: rest →
          let fly := x.plane (!x.ground)
          let read := fun c => reads.getD c 0
          let inside := fun c => outside (fly.cellTarget row c) (read c) = false
          let out := (List.range 520).filter (fun c =>
            outside (fly.cellTarget row c) (read c) && !g.stuck.any (fun e => e.1 == c))
          let ly := s.progLayer g
          (s.pitchTurn g = false → exec (.pitchSlot crew slot reads) s = .next s)
          ∧ (s.pitchTurn g = true → g.stuck = [] →
              (∀ c v, c < 520 → reads[c]? = some v → outside ((x.plane (!x.ground)).cellTarget row c) v = false) →
              (s.gov.wrAllow < 4 → exec (.pitchSlot crew slot reads) s = .next { s with gov := (s.gov.drawWrite 4).1 })
              ∧ (4 ≤ s.gov.wrAllow → ∃ t : State, exec (.pitchSlot crew slot reads) s = .next t
                  ∧ (∃ h, (t.arr a).prog = some h ∧ h.rows = rest ∧ h.left = g.left - 1 ∧ h.slots = 0)
                  ∧ (∀ c v, c < 520 → reads[c]? = some v →
                      ((t.arr a).plane (!x.ground)).cells.get zeroNat (row * 520 + c) = v + 1)
                  ∧ (t.arr a).plane x.ground = x.plane x.ground ∧ (t.arr a).sinceMaint = 0 ∧ (t.arr a).verify = verifySlot
                  ∧ (∀ b, b ≠ a → t.arr b = s.arr b) ∧ t = { s with gov := (s.gov.drawWrite 4).1, arrs := t.arrs }))
          ∧ (s.pitchTurn g = true → out ≠ [] → (∀ c ∈ out, g.pulses.get zeroNat c < 24) → g.slots + 1 < 50 →
              g.intend ≠ [] ∨ g.slots + 1 < 25 →
              (s.gov.wrAllow < 4 + out.length → exec (.pitchSlot crew slot reads) s
                = .next { s with gov := (s.gov.drawWrite (4 + out.length)).1 })
              ∧ (4 + out.length ≤ s.gov.wrAllow → ∃ t : State, exec (.pitchSlot crew slot reads) s = .next t
                  ∧ (∃ h, (t.arr a).prog = some h ∧ h = { g with slots := g.slots + 1, pulses := h.pulses }
                      ∧ ∀ c, h.pulses.get zeroNat c = g.pulses.get zeroNat c + (if c ∈ out then 1 else 0))
                  ∧ (t.arr a).plane (!x.ground) = fly ∧ (t.arr a).verify = verifySlot ∧ (∀ b, b ≠ a → t.arr b = s.arr b)
                  ∧ t = { s with gov := (s.gov.drawWrite (4 + out.length)).1, arrs := t.arrs }))
          ∧ (s.pitchTurn g = true → ly.w8 = true → g.stuck = [] → g.intend = [] → g.slots + 1 < 50 → 4 ≤ s.gov.wrAllow →
              ∀ c, c < 512 → c % 2 = 0 → ¬inside c → 24 ≤ g.pulses.get zeroNat c → (∀ k, k < 520 → k ≠ c → inside k) →
              let h := fly.target.get zeroNat (row * 512 + c)
              let l := fly.target.get zeroNat (row * 512 + c + 1)
              let l' := (clampInt 0 15 ((16 * h + l : Nat) - 16 * (fly.levelOf (read c) : Int))).toNat
              l' ≠ l → outside (fly.levelTarget l') (read (c + 1)) = true → ∃ t : State,
                exec (.pitchSlot crew slot reads) s = .next t
                ∧ (∃ y, (t.arr a).prog = some y ∧ y.stuck = [(c, read c)] ∧ y.intend = [(c / 2, 16 * h + l)]
                    ∧ y.pulses.get zeroNat (c + 1) = 0
                    ∧ y = { g with slots := g.slots + 1, pulses := y.pulses, stuck := y.stuck, intend := y.intend })
                ∧ ((t.arr a).plane (!x.ground)).target.get zeroNat (row * 512 + c + 1) = l'
                ∧ (∀ k, k ≠ row * 512 + c + 1 → ((t.arr a).plane (!x.ground)).target.get zeroNat k = fly.target.get zeroNat k)
                ∧ (∀ b, b ≠ a → t.arr b = s.arr b) ∧ t = { s with gov := (s.gov.drawWrite 4).1, arrs := t.arrs })
          ∧ (s.pitchTurn g = true → 4 ≤ s.gov.wrAllow → Memory.wf (s.crew crew.val).sram →
              ∀ c v, c < 512 → g.stuck = [(c, v)] → (∀ k, k < 520 → k ≠ c → inside k) →
              let d := residual ly fly g row (if ly.w8 then 2 * (c / 2) else c)
              let old := (s.crew crew.val).patches (s.logicalArr a) (!x.ground)
              old.length < 64 → ∃ t : State, exec (.pitchSlot crew slot reads) s = .next t
                ∧ (∃ y, (t.arr a).prog = some y ∧ y.rows = rest ∧ y.left = g.left - 1 ∧ y.stuck = [])
                ∧ ((t.arr a).plane (!x.ground)).stuck = fly.stuck ++ [row * 520 + c]
                ∧ Signed s t 0x0B {
                    loc := [crewDie crew.val, crew.val, s.logicalArr a, c]
                    data := leBytes 2 row ++ leBytes 2 c ++ leBytes 2 (deltaBits ly.cb4 d) }
                ∧ (d = 0 → t.crews = s.crews)
                ∧ (d ≠ 0 → (t.crew crew.val).patches (s.logicalArr a) (!x.ground)
                    = old ++ [patchEntry row (if ly.w8 then c / 2 else c) (deltaBits ly.cb4 d)])
                ∧ (∀ b, b ≠ a → t.arr b = s.arr b) ∧ (∀ n, n ≠ crew.val → t.crew n = s.crew n) ∧ t.cmds = s.cmds))
    ∧ (∀ (ly : Layer) (p : Plane) (g : Prog) (row c v : Nat), g.stuck = [(c, v)] →
        let t := fun k => p.target.get zeroNat (row * 512 + k)
        (ly.w8 = false → ly.cb4 = false → residual ly p g row c = (((t c : Int) - (p.levelOf v : Int) : Int) : Rat))
        ∧ (ly.w8 = false → ly.cb4 = true →
            residual ly p g row c = f16Q (ly.codebook (t c)) - f16Q (ly.codebook (p.levelOf v)))
        ∧ (ly.w8 = true → g.intend = [] → ∀ j, c = 2 * j + 1 →
            residual ly p g row (2 * j) = (((t c : Int) - (p.levelOf v : Int) : Int) : Rat))
        ∧ (ly.w8 = true → ∀ j u, c = 2 * j → g.intend = [(j, u)] →
            residual ly p g row (2 * j) = (((u : Int) - (16 * p.levelOf v + t (c + 1) : Nat) : Int) : Rat)))

/-- O34. On a device that leads no group: a RETRIM_STEP of a layer of the live generation with a retrim region, 1 to 1,024
steps and a positive finite learning rate is in flight; where another training step of the context is under way it
waits unchanged, and else the generators are seeded and its first step starts, once the pool takes its reads (log
entry 50). Wrong fields give BAD_PARAM alone. A training step whose samples are in and whose VE descriptors have ended
updates the parameters and, after the last step asked for or where a PITCH_BEGIN waits, completes the command with its
outcome and the number of steps; a failed command ends with its outcome and the steps done; while samples or
descriptors are due, or the pool takes no transfer, nothing changes but the governor. The PITCH_BEGIN that waited then
completes with OK and its generation, and its context is PITCHING. A parity error in the words that the update reads,
found outside the crews, ends the command with PARITY instead, with the areas as they were (R223), and lasts in one of
the ranges read (log entry 112). How a step is divided among the engines is the choice of the model, and that a step
without samples counts (log entry 54); so is which RETRIM_STEPs end with a PITCH_BEGIN (log entry 55).
(11_retrim_on_device_training R284, 11_retrim_on_device_training R286, 11_retrim_on_device_training R287,
11_retrim_on_device_training R288, 09_dependability R223, 12_clocks_resets_power_boot R304) -/
def Obligations.RetrimStepTrainsAndEnds : Prop :=
  (∀ (s : State) (q : QueueId) (p : Packet) (g : Generation) (ly : Layer), Presents s q .retrimStep p → s.top = false →
      let c := ctxOf q p
      (s.ctx c).generation (s.ctx c).live = some g → s.trimTarget q g (p.param 32 2) = some (ly, s.self) →
      (!p.noAddrs || p.param 34 2 = 0 || 1024 < p.param 34 2 || !f32Finite (BitVec.ofNat 32 (p.param 40 4))
          || f32Q (BitVec.ofNat 32 (p.param 40 4)) ≤ 0 || 1 < p.param 44 1) = true →
        ∃ t, exec (.retrimStep q) s = .next t ∧ Answered (s.popFetched q) t q p .badParam 0 0 0)
  ∧ (∀ (s : State) (q : QueueId) (p : Packet) (g : Generation) (ly : Layer) (y : Cmd) (w : RunWork),
      Presents s q .retrimStep p → s.top = false →
      let c := ctxOf q p
      (s.ctx c).generation (s.ctx c).live = some g → s.trimTarget q g (p.param 32 2) = some (ly, s.self) →
      p.noAddrs = true → 1 ≤ p.param 34 2 → p.param 34 2 ≤ 1024 → f32Finite (BitVec.ofNat 32 (p.param 40 4)) = true →
      0 < f32Q (BitVec.ofNat 32 (p.param 40 4)) → p.param 44 1 ≤ 1 →
      (∀ x ∈ s.cmds, x.ref ≠ ⟨q, p.tag⟩) →
      let cmd := { mkCmd s q p false (.run { RunWork.start (p.param 32 2) ly 0 [] with trim := some ⟨0, [], [], none, 0⟩ }) with gen := g.gen }
      ((s.popFetched q).enrol cmd).benchedFor cmd = false →
      s.cmds.find? (fun x => x.inContext c && x.trim?.isSome && !x.ended) = some y → y.work = .run w → w.dispatched = true →
      exec (.retrimStep q) s = .next ((s.popFetched q).enrol cmd))
  ∧ (∀ (s : State) (q : QueueId) (p : Packet) (g : Generation) (ly : Layer), Presents s q .retrimStep p → s.top = false →
      let c := ctxOf q p
      (s.ctx c).generation (s.ctx c).live = some g → s.trimTarget q g (p.param 32 2) = some (ly, s.self) →
      p.noAddrs = true → 1 ≤ p.param 34 2 → p.param 34 2 ≤ 1024 → f32Finite (BitVec.ofNat 32 (p.param 40 4)) = true →
      0 < f32Q (BitVec.ofNat 32 (p.param 40 4)) → p.param 44 1 ≤ 1 → qCtx q = some c →
      (∀ x ∈ s.cmds, x.ref ≠ ⟨q, p.tag⟩ ∧ x.trim? = none) → (∀ k, k < 256 → (s.crew k).benched = false) → (s.ctx c).bad = [] →
      let w := { RunWork.start (p.param 32 2) ly 0 [] with trim := some ⟨0, [], [], none, 0⟩ }
      let cmd := { mkCmd s q p false (.run w) with gen := g.gen }
      (s.hbmOpen true = false → exec (.retrimStep q) s = .next (((s.popFetched q).enrol cmd).hbmWait true))
      ∧ (s.hbmOpen true = true → exec (.retrimStep q) s = .next
        ((((s.popFetched q).enrol cmd).seedVes (p.param 36 4)).startStep cmd w g ⟨0, [], [], none, 0⟩)))
  ∧ (∀ (s : State) (r : CmdRef) (x : Cmd) (w : RunWork) (g : Generation) (t : TrimWork), Canonical s → s.cmd? r = some x →
      x.work = .run w → s.runGen x = some g → w.trim = some t → x.lone → t.stop = none →
      (∀ k, k < 16 → (s.ctx k).swingCmd = none) → (∀ y ∈ s.cmds, y.ref ≠ r → y.trim? = none) →
      let cx := ctxOf r.q x.pkt
      let rs := s.updateReads x w g
      let bad := s.readErr cx rs
      (x.ended = true → ∃ n, exec (.retrimTrainingStep ⟨r, none⟩) s = .next n ∧ Ends (s.purge r) n x x.outcome t.done 0)
      ∧ (x.ended = false → (w.dispatched = false ∨ w.due ≠ 0 ∨ t.ves ≠ 0) → exec (.retrimTrainingStep ⟨r, none⟩) s = .next s)
      ∧ (x.ended = false → w.dispatched = true → w.due = 0 → t.ves = 0 →
          (∀ e : ParityErr, bad = some e → crewHop (bitsOf e.hop.toNat 12 4) = false → ∀ err,
            exec (.retrimTrainingStep ⟨r, err⟩) s = .next (s.parityError r e))
          ∧ (∀ e : ParityErr, bad = none → crewHop (bitsOf e.hop.toNat 12 4) = false →
            exec (.retrimTrainingStep ⟨r, some e⟩) s = .next ((s.noteReads cx rs e).parityError r e))
          ∧ (bad = none → s.hbmOpen true = false → exec (.retrimTrainingStep ⟨r, none⟩) s = .next (s.hbmWait true)))
      ∧ (x.ended = false → w.dispatched = true → w.due = 0 → t.ves = 0 → bad = none → s.hbmOpen true = true →
          x.pkt.param 34 2 ≤ t.done + 1 → ∃ n m : State,
          exec (.retrimTrainingStep ⟨r, none⟩) s = .next n ∧ m = (s.trimUpdate x w g t).purge r ∧ m.host = s.host
            ∧ Ends m n x x.outcome (t.done + 1) 0)
      ∧ (x.ended = false → w.dispatched = true → w.due = 0 → t.ves = 0 → bad = none → s.hbmOpen true = true →
          t.done + 1 < x.pkt.param 34 2 → qCtx r.q = some cx →
          let v := RunWork.stepDone { t with done := t.done + 1 } w
          let y := { x with work := .run v }
          let u := (s.trimUpdate x w g t).updRun r (RunWork.stepDone { t with done := t.done + 1 })
          exec (.retrimTrainingStep ⟨r, none⟩) s = .next
            (if u.hbmOpen true then u.startStep y v g { t with done := t.done + 1 } else u.hbmWait true)))
  ∧ (∀ (s : State) (r : CmdRef) (x y : Cmd) (w : RunWork) (g : Generation) (t : TrimWork), Canonical s → s.cmd? r = some x →
      x.work = .run w → s.runGen x = some g → w.trim = some t → x.lone → t.stop = some y.ref → y.ref ≠ r → s.cmd? y.ref = some y →
      y.alone → y.pkt.opcode = 0x10 → (∀ k, k < 16 → (s.ctx k).swingCmd = none) → (∀ z ∈ s.cmds, z.ref ≠ r → z.trim? = none) →
      let c := ctxOf y.ref.q y.pkt
      (x.ended = true → ∃ k n : State, exec (.retrimTrainingStep ⟨r, none⟩) s = .next n
        ∧ Ends (s.purge r) k x x.outcome t.done 0 ∧ Ends (k.modCtx c (Ctx.advance 0x10)) n y .ok y.gen 0)
      ∧ (x.ended = false → w.dispatched = true → w.due = 0 → t.ves = 0 →
          s.readErr (ctxOf r.q x.pkt) (s.updateReads x w g) = none → s.hbmOpen true = true → ∃ k n m : State,
          exec (.retrimTrainingStep ⟨r, none⟩) s = .next n ∧ m = (s.trimUpdate x w g t).purge r ∧ m.host = s.host
            ∧ Ends m k x x.outcome (t.done + 1) 0 ∧ Ends (k.modCtx c (Ctx.advance 0x10)) n y .ok y.gen 0)
      ∧ (∀ v : Ctx, v.st ≠ .closing → (v.advance 0x10).st = .pitching ∧ (v.advance 0x10).abortMark = false
          ∧ (v.advance 0x10).pitch = v.pitch.map (fun p => { p with begun := true, timerOn := true })))

/-- O35. On a device that leads no group, a RETRIM_APPLY of a layer with a retrim region completes with OK where no batch
is open and no RUN or RETRIM_STEP of the layer is in flight: action 0 makes the live parameters those in training and
sets the adapter bit; action 1 makes the parameters in training the live ones, every element of the moment areas MOM
and VAR index 128 and index 0 under exponent 0, and the step count 0. Otherwise it answers STATE, and a wrong field
BAD_PARAM, alone. Beside working space only the tokens and the ECC counts of its HBM transfers change. A parity error
met before in what it copies, found outside the crews, ends it with PARITY and one signature, with the areas as they
were (R223). The row waits while the pool takes no transfer (log entry 50). (11_retrim_on_device_training R289,
11_retrim_on_device_training R281, 11_retrim_on_device_training R285, 09_dependability R223,
12_clocks_resets_power_boot R304) -/
def Obligations.RetrimApplyAppliesOrDiscards : Prop :=
  (∀ (s : State) (q : QueueId) (p : Packet) (g : Generation) (ly : Layer) (lo : Nat) (h : List Byte),
      Presents s q .retrimApply p → s.top = false →
      let c := ctxOf q p
      (s.ctx c).generation (s.ctx c).live = some g → s.trimTarget q g (p.param 32 2) = some (ly, s.self) → p.noAddrs = true →
      (1 < p.param 34 1 → ∃ t, exec (.retrimApply q) s = .next t ∧ Answered (s.popFetched q) t q p .badParam 0 0 0)
      ∧ (p.param 34 1 ≤ 1 → ((s.ctx c).batch.isSome = true ∨ s.runs c g.gen (p.param 32 2) = true) →
          ∃ t, exec (.retrimApply q) s = .next t ∧ Answered (s.popFetched q) t q p .state 0 0 0)
      ∧ (p.param 34 1 ≤ 1 → (s.ctx c).batch = none → s.runs c g.gen (p.param 32 2) = false →
          s.trimRegion c g (p.param 32 2) = some (lo, h) →
          let n := paramCount (rgRank h) ly
          let bad := badIn (s.ctx c).bad (lo + (if p.param 34 1 = 1 then liveOfs else trainOfs n)) (2 * n)
          (∀ e, bad = some e → crewHop (bitsOf e.hop.toNat 12 4) = false → ∃ t m, exec (.retrimApply q) s = .next t
            ∧ Answered m t q p .parity 0 0 0 ∧ Signed s m 0x01 (parityInfo e (qCtx q) (some p.tag.toNat)) ∧ m.host = s.host ∧ m.ctxs = s.ctxs ∧ m.cmds = s.cmds)
          ∧ (bad = none → ∃ t m, exec (.retrimApply q) s = .next t
          ∧ Answered m t q p .ok 0 0 0 ∧ m = (((s.popFetched q).chargeHbm (p.cls == 2) (applyBytes n (p.param 34 1 == 1))).chargeHbm (p.cls == 2) 4).trimAction c lo h ly (p.param 34 1 == 1)
          ∧ m.ctx c = { s.ctx c with work := (m.ctx c).work, bad := (m.ctx c).bad } ∧ (∀ k, k ≠ c → m.ctx k = s.ctx k)
          ∧ m = { s.popFetched q with ctxs := m.ctxs, gov := m.gov, tel := m.tel })))
  ∧ (∀ (s : State) (c lo : Nat) (h : List Byte) (ly : Layer), Memory.wf (s.ctx c).work →
      let p := paramCount (rgRank h) ly
      let t := s.trimAction c lo h ly false
      (Memory.readBytes (t.ctx c).work (lo + 9) 1 = leBytes 1 (field h 9 1 ||| 1))
      ∧ Memory.readBytes (t.ctx c).work (lo + liveOfs) (2 * p) = Memory.readBytes (s.ctx c).work (lo + trainOfs p) (2 * p)
      ∧ Memory.readBytes ((s.trimAction c lo h ly true).ctx c).work (lo + trainOfs p) (2 * p)
          = Memory.readBytes (s.ctx c).work (lo + liveOfs) (2 * p)
      ∧ Memory.readBytes ((s.trimAction c lo h ly true).ctx c).work (lo + 28) 4 = [0, 0, 0, 0]
      ∧ ∀ b, b < ceilDiv p 32 →
        Memory.readBytes ((s.trimAction c lo h ly true).ctx c).work (lo + momOfs p + cb8Block b) 34
            = packBlock 10 0 0 (List.replicate (blockElems p b) 128)
        ∧ Memory.readBytes ((s.trimAction c lo h ly true).ctx c).work (lo + varOfs p + cb8Block b) 34
            = packBlock 10 0 0 (List.replicate (blockElems p b) 0))

/-- O36. A FW_STAGE with legal fields completes with OK: its LENGTH bytes stand at OFFSET of the staging image of TOTAL
bytes; another TOTAL starts a new image, of which only these bytes are covered. FW_ACTIVATE completes with BAD_PARAM
where the image is incomplete, and with SIG_BAD where its signature fails; a signed image that no bank can take gives
BAD_PARAM, a choice of the model (log entry 97). Otherwise it is in flight until the flash is programmed; then its OK
status is written and the device is in RESET_HOLD with the image in the bank that was not running, every queue
disabled. (07_commands_queues_states R199, 12_clocks_resets_power_boot R317, 12_clocks_resets_power_boot R318) -/
def Obligations.FirmwareIsStagedAndActivated : Prop :=
  (∀ (s : State) (q : QueueId) (p : Packet) (a : Nat), Presents s q .fwStage p → p.hostData = some a → Memory.wf s.env.fwBytes →
      let off := p.param 32 4
      let total := p.param 36 4
      (1 ≤ p.length → p.length ≤ 1048576 → off + p.length ≤ total → ∃ t m, exec (.fwStage q) s = .next t
        ∧ Answered m t q p .ok 0 p.length 0 ∧ m.env.fwTotal = total
        ∧ Memory.readBytes m.env.fwBytes off p.length = Memory.readBytes s.host a p.length
        ∧ (∀ x, x < off ∨ off + p.length ≤ x → Memory.read m.env.fwBytes x
            = if s.env.fwTotal = total then Memory.read s.env.fwBytes x else 0)
        ∧ m.env.fwCover = (off, off + p.length) :: (if s.env.fwTotal = total then s.env.fwCover else [])
        ∧ m = { s.popFetched q with
            env := { s.env with fwTotal := m.env.fwTotal, fwBytes := m.env.fwBytes, fwCover := m.env.fwCover }
            gov := m.gov, tel := m.tel })
      ∧ (p.length = 0 ∨ 1048576 < p.length ∨ total < off + p.length → ∃ t, exec (.fwStage q) s = .next t
        ∧ Answered (s.popFetched q) t q p .badParam 0 0 0))
  ∧ (∀ (s : State) (q : QueueId) (p : Packet), Presents s q .fwActivate p → p.noAddrs = true →
      let b := Memory.readBytes s.env.fwBytes 0 s.env.fwTotal
      ∃ t : State, exec (.fwActivate q) s = .next t
        ∧ (s.env.fwComplete = false → Answered (s.popFetched q) t q p .badParam 0 0 0)
        ∧ (s.env.fwComplete = true → signedOk Config.firmwareKey b = false → Answered (s.popFetched q) t q p .sigBad 0 0 0)
        ∧ (s.env.fwComplete = true → signedOk Config.firmwareKey b = true →
            ((imgType b ≠ 1 ∧ imgType b ≠ 2) ∨ 0x1000000 < b.length → Answered (s.popFetched q) t q p .badParam 0 0 0)
            ∧ ((imgType b = 1 ∨ imgType b = 2) → b.length ≤ 0x1000000 →
                t.cmds = s.cmds ++ [mkCmd s q p true (.flash b)]
                ∧ t = { s.popFetched q with
                    cmds := t.cmds, seq := s.seq + 1, dev := { s.dev with flash := t.dev.flash }, gov := t.gov, tel := t.tel })))
  ∧ (∀ (s : State) (x : Cmd) (b : List Byte), Memory.wf s.host → Memory.wf s.dev.flash → x.lone → x.work = .flash b →
      s.cmds.find? (fun c => match c.work with | .flash _ => true | _ => false) = some x →
      ∃ t m d : State, exec .flashProgrammingComplete s = .next t ∧ Ends m d x .ok 0 0
        ∧ m = { s with dev := { s.dev with flash := m.dev.flash } }
        ∧ t.host = d.host ∧ t.outs = d.outs ∧ t.dev.st = .resetHold ∧ t.dev.faultN = true ∧ t.cmds = []
        ∧ (∀ q, (t.queue q).enable = false) ∧ (∀ c, (t.ctx c).st = .closed)
        ∧ Memory.readBytes t.dev.flash (flashSlot (imgType b) (s.dev.freeBank (imgType b))) b.length = b)
  ∧ (∀ s : State, (∀ c ∈ s.cmds, ∀ b, c.work ≠ .flash b) → exec .flashProgrammingComplete s = .next s)

/-- O37. While the device answers BAR4: a tail write in range on an enabled queue is taken, any other sets DBERR alone. A
head write that does not pass the status tail is taken and frees the entries it passes, any other sets DBERR alone. A
write of ENABLE = 1 to a disabled queue zeroes the four indices, starts the phase at 1 and enables it; one with ENABLE
= 0 disables it; SIZE is taken only while the queue is disabled and idle and only from 6 to 12. No other queue and
nothing else changes; while the device does not answer BAR4, nothing does. (07_commands_queues_states R168,
07_commands_queues_states R169, 07_commands_queues_states R170, 07_commands_queues_states R171) -/
def Obligations.QueueRegistersFollowTheirWrites : Prop :=
  (∀ (s : State) (q : QueueId) (v : Dword), q.isRing = true → s.barLive = true →
      let x := s.queue q
      let i := bitsOf v.toNat 0 12
      (x.enable = true → i < 2 ^ x.size.toNat → exec (.sqDoorbell q v) s
          = .next (s.setQueue q { x with sqTail := BitVec.ofNat 12 i }))
      ∧ (x.enable = false ∨ 2 ^ x.size.toNat ≤ i → exec (.sqDoorbell q v) s = .next (s.setQueue q { x with dbErr := true }))
      ∧ (x.fetched = [] → i < 2 ^ x.size.toNat → (i + 2 ^ x.size.toNat - x.cqHead.toNat) % 2 ^ x.size.toNat ≤ x.unread →
          exec (.cqDoorbell q v) s = .next (s.setQueue q { x with
            cqHead := BitVec.ofNat 12 i, unread := x.unread - (i + 2 ^ x.size.toNat - x.cqHead.toNat) % 2 ^ x.size.toNat }))
      ∧ (x.fetched = [] → (2 ^ x.size.toNat ≤ i ∨ x.unread < (i + 2 ^ x.size.toNat - x.cqHead.toNat) % 2 ^ x.size.toNat) →
          exec (.cqDoorbell q v) s = .next (s.setQueue q { x with dbErr := true }))
      ∧ (∃ (t : State) (y : Queue), exec (.queueEnable q v) s = .next t ∧ t = s.setQueue q y ∧ y.enable = true
          ∧ y.size = (if s.idleQueue q = true ∧ 6 ≤ bitsOf v.toNat 0 4 ∧ bitsOf v.toNat 0 4 ≤ 12
              then BitVec.ofNat 4 (bitsOf v.toNat 0 4) else x.size)
          ∧ (x.enable = false → y.sqTail = 0 ∧ y.sqHead = 0 ∧ y.cqTail = 0 ∧ y.cqHead = 0 ∧ y.phase = true)
          ∧ (x.enable = true → y = x) ∧ y.sqBase = x.sqBase ∧ y.cqBase = x.cqBase ∧ y.dbErr = x.dbErr)
      ∧ (∃ (t : State) (y : Queue), exec (.queueDisable q v) s = .next t ∧ t = s.setQueue q y
          ∧ y = { x with enable := false, size := y.size }
          ∧ y.size = (if s.idleQueue q = true ∧ 6 ≤ bitsOf v.toNat 0 4 ∧ bitsOf v.toNat 0 4 ≤ 12
              then BitVec.ofNat 4 (bitsOf v.toNat 0 4) else x.size)))
  ∧ (∀ (s : State) (q : QueueId) (v : Dword), s.barLive = false → exec (.sqDoorbell q v) s = .next s
      ∧ exec (.cqDoorbell q v) s = .next s ∧ exec (.queueEnable q v) s = .next s ∧ exec (.queueDisable q v) s = .next s)

/-- O38. For a served, enabled queue with an entry between head and tail: where the entry has a known opcode and no
extension entries, the fetch appends its 64 bytes to the fetched entries and advances the head by one, with a wrap at
2^SIZE; an entry with E extension entries, a RUN_BOW, is fetched with their bytes once the tail covers them all, and
not before; an unknown opcode that may be examined is answered with BAD_OPCODE, in SAFE with FAULT; nothing else
changes. An entry in whose words the buffers find a parity error outside the crews (R222), and that may be examined,
is answered with PARITY and one signature (R223; that it is answered at its turn, log entry 116, DESIGN CHOICE); in
SAFE, unless SAFE allows its opcode, with FAULT and none (R181 check 1). With the ring empty, the queue disabled or
not served, nothing changes. A ring read error clears ENABLE, sets RINGERR and makes one signature.
(07_commands_queues_states R170, 07_commands_queues_states R171, 07_commands_queues_states R181,
07_commands_queues_states R195, 09_dependability R222, 09_dependability R223) -/
def Obligations.EntriesAreFetchedFromTheRing : Prop :=
  (∀ (s : State) (q : QueueId), Canonical s → q.isRing = true → s.serving = true → (s.queue q).enable = true →
      (s.queue q).avail ≠ 0 →
      let x := s.queue q
      let e := Memory.readBytes s.host (x.sqBase.toNat + 64 * (x.sqHead.toNat % 2 ^ x.size.toNat)) 64
      let h : BitVec 12 := BitVec.ofNat 12 ((x.sqHead.toNat + 1) % 2 ^ x.size.toNat)
      (extOf q e = 0 → (∀ p ∈ x.fetched, (opOf p.opcode).isSome = true) → (opOf (field e 0 1)).isSome = true →
        exec (.sqEntryFetch ⟨q, none⟩) s = .next (s.setQueue q { x with fetched := x.fetched ++ [⟨e, [], none⟩], sqHead := h }))
      ∧ (extOf q e = 0 → x.fetched = [] → opOf (field e 0 1) = none → s.examinable q = true →
          ∃ t : State, exec (.sqEntryFetch ⟨q, none⟩) s = .next t
            ∧ Answered (s.setQueue q { x with sqHead := h }) t q ⟨e, [], none⟩ (if s.dev.st = .safe then .fault else .badOpcode) 0 0 0)
      ∧ (∀ n, extOf q e = n → 1 ≤ n → (∀ p ∈ x.fetched, (opOf p.opcode).isSome = true) →
          (x.avail < 1 + n → exec (.sqEntryFetch ⟨q, none⟩) s = .next s)
          ∧ (1 + n ≤ x.avail → exec (.sqEntryFetch ⟨q, none⟩) s = .next (s.setQueue q { x with
              fetched := x.fetched ++ [⟨e, (List.range n).flatMap (fun i =>
                Memory.readBytes s.host (x.sqBase.toNat + 64 * ((x.sqHead.toNat + 1 + i) % 2 ^ x.size.toNat)) 64), none⟩]
              sqHead := BitVec.ofNat 12 ((x.sqHead.toNat + 1 + n) % 2 ^ x.size.toNat) })))
      ∧ (∀ r : ParityErr, extOf q e = 0 → x.fetched = [] → s.examinable q = true → s.dev.st = .safe →
          Packet.safeOp ⟨e, [], some r⟩ = false → ∃ t : State, exec (.sqEntryFetch ⟨q, some r⟩) s = .next t
            ∧ Answered (s.setQueue q { x with sqHead := h }) t q ⟨e, [], some r⟩ .fault 0 0 0)
      ∧ (∀ r : ParityErr, extOf q e = 0 → x.fetched = [] → s.examinable q = true → crewHop (bitsOf r.hop.toNat 12 4) = false →
          s.dev.st ≠ .safe ∨ Packet.safeOp ⟨e, [], some r⟩ = true →
          ∃ t m : State, exec (.sqEntryFetch ⟨q, some r⟩) s = .next t ∧ Answered m t q ⟨e, [], some r⟩ .parity 0 0 0
            ∧ m.queue q = { x with sqHead := h }
            ∧ Signed s m 0x01 (parityInfo r (qCtx q) (some (Packet.tag ⟨e, [], some r⟩).toNat)) ∧ m.cmds = s.cmds ∧ m.ctxs = s.ctxs)
      ∧ (∃ t : State, exec (.ringReadError q) s = .next t ∧ (t.queue q).enable = false ∧ (t.queue q).ringErr = true
          ∧ (t.queue q).sqHead = x.sqHead ∧ (∀ k, qIdx k < 33 → k ≠ q → t.queue k = s.queue k)
          ∧ Signed s t 0x15 { ctx := qCtx q, data := leBytes 1 (qKind q) ++ leBytes 1 ((qCtx q).getD 0) }
          ∧ t.host = s.host ∧ t.cmds = s.cmds ∧ t.ctxs = s.ctxs))
  ∧ (∀ (s : State) (q : QueueId), (s.queue q).fetched = [] →
      (s.serving = false ∨ (s.queue q).enable = false ∨ (s.queue q).avail = 0) →
      (∀ err, exec (.sqEntryFetch ⟨q, err⟩) s = .next s) ∧ exec (.ringReadError q) s = .next s)

/-- O39. While the device answers its BARs and no key operation runs, the install command takes the 97 bytes of
SEC_KEY_DATA and the revoke command its slot, and BUSY is set; while one runs a command is ignored. At the end of an
operation BUSY is clear: an install puts the key with its KEY_ID into its slot, or sets ERR where the slot is revoked
or the bytes are no point of the curve; a revoke empties the slot and marks it for good. Nothing but the security
island changes. (06_pitching_weights R148, 06_pitching_weights R149, 06_pitching_weights R150) -/
def Obligations.KeysAreInstalledAndRevoked : Prop :=
  (∀ (s : State) (n : Fin 8), s.barLive = true →
      (s.sec.busy = false →
        exec (.secKeyInstall n) s = .next { s with sec := { s.sec with
          busy := true, op := some (n.val, some (Memory.readBytes s.sec.data 0 97)) } }
        ∧ exec (.secKeyRevoke n) s = .next { s with sec := { s.sec with busy := true, op := some (n.val, none) } })
      ∧ (s.sec.busy = true → exec (.secKeyInstall n) s = .next s ∧ exec (.secKeyRevoke n) s = .next s))
  ∧ (∀ (s : State) (n : Nat) (pt : List Byte), s.sec.op = some (n, some pt) → ∃ t : State, exec .secKeyOpComplete s = .next t
      ∧ t.sec.busy = false ∧ t.sec.op = none ∧ t = { s with sec := t.sec }
      ∧ (s.sec.revoked.getLsbD n = true ∨ pointOf pt = none → t.sec.err = true ∧ t.sec.keys = s.sec.keys)
      ∧ (s.sec.revoked.getLsbD n = false → pointOf pt ≠ none → t.sec.err = s.sec.err
          ∧ t.sec.keys.get (fun _ => none) n = some ⟨pt, keyIdOf pt⟩
          ∧ ∀ k, k ≠ n → t.sec.keys.get (fun _ => none) k = s.sec.keys.get (fun _ => none) k))
  ∧ (∀ (s : State) (n : Nat), s.sec.op = some (n, none) → n < 8 → ∃ t : State, exec .secKeyOpComplete s = .next t
      ∧ t.sec.busy = false ∧ t.sec.op = none ∧ t.sec.keys.get (fun _ => none) n = none ∧ t.sec.revoked.getLsbD n = true
      ∧ (∀ k, k ≠ n → t.sec.keys.get (fun _ => none) k = s.sec.keys.get (fun _ => none) k
          ∧ t.sec.revoked.getLsbD k = s.sec.revoked.getLsbD k) ∧ t = { s with sec := t.sec })
  ∧ (∀ s : State, s.sec.op = none → exec .secKeyOpComplete s = .next s)

/-- O40. While the device is up: a write of MGT_SINE_CTL with EN = 1 writes that register, and TEST_AOUT carries the
scaled sample of its phase, which starts at 0 where EN was 0; with EN = 0 it carries 512, and in OFF and RESET_HOLD it
is high impedance. The codes of the N driven rows of row mode add up to A, with AMP up to 256 none is above 15, and
the other rows are clamped. A write of CRW_SINE_CTL with EN = 1 on a powered die writes the register of its crew
alone; where a condition of R47 holds, REFUSED is set and row mode does not run. In row mode of a serving crew, a test
stroke with HIST = 1 adds 1 to the bin of the code of each data ADC, up to 0xFFFF, where a code deviates from the
ideal code of the column that the rows give; with HIST = 0, or not in row mode, it changes nothing.
(02_arrays_and_strokes R44, 02_arrays_and_strokes R45, 02_arrays_and_strokes R46, 02_arrays_and_strokes R47,
02_arrays_and_strokes R49, 14_pins_package_electrical R345) -/
def Obligations.SineGeneratorsAndTestStrokes : Prop :=
  (∀ (s : State) (v : Dword), s.barLive = true → ∃ t : State, exec (.mgtSineEnable v) s = .next t
      ∧ t = { s with cfg := s.cfg.writeSine (v ||| 1#32).toNat } ∧ t.cfg.sineEn = true
      ∧ t.testAout = some (sineScaled (if s.cfg.sineEn then s.cfg.sinePhase else 0) t.cfg.sineAmp))
  ∧ (∀ s : State, (s.testAout = none ↔ s.dev.st = .off ∨ s.dev.st = .resetHold)
      ∧ (s.dev.st ≠ .off → s.dev.st ≠ .resetHold → s.cfg.sineEn = false → s.testAout = some 512))
  ∧ (∀ (x : Sine) (p : BitVec 24), x.amp.toNat ≤ 256 →
      sumNat ((List.range x.rowCount).map (x.rowCode p)) = sineScaled p x.amp * 15 * x.rowCount / 1024
      ∧ (∀ k, x.rowCode p k ≤ 15 ∧ (x.rowCount ≤ k → x.rowCode p k = 0)))
  ∧ (∀ (s : State) (crew : Fin 256) (v : Dword), s.barLive = true →
      (diePowered s.env.env (crewDie crew.val) = true → ∃ t : State, exec (.sineRowModeEnable crew v) s = .next t
        ∧ (∀ k, k ≠ crew.val → t.crew k = s.crew k) ∧ t.crew crew.val = { s.crew crew.val with
            sine := (t.crew crew.val).sine, hist := (t.crew crew.val).hist }
        ∧ t = { s with crews := t.crews }
        ∧ (s.sineRefused crew.val (if bitsOf v.toNat 8 5 ≤ 16 then bitsOf v.toNat 8 5 else (s.crew crew.val).sine.slot.toNat) = true →
            (t.crew crew.val).sine.refused = true ∧ (t.crew crew.val).sine.en = false)
        ∧ (s.sineRefused crew.val (bitsOf v.toNat 8 5) = false → bitsOf v.toNat 8 5 ≤ 16 →
            (s.crew crew.val).sine.en = false → (t.crew crew.val).sine.en = true
            ∧ (t.crew crew.val).sine.slot = BitVec.ofNat 5 (bitsOf v.toNat 8 5)))
      ∧ (diePowered s.env.env (crewDie crew.val) = false → exec (.sineRowModeEnable crew v) s = .next s))
  ∧ (∀ (s : State) (crew : Fin 256) (dev : List Int), dev.length = 8 →
      let a := arrIdx crew.val (s.crew crew.val).sine.slot.toNat
      let code (k : Nat) : Nat := rawCode (s.testIdeal a (64 * k)) (dev.getD k 0)
      ((s.crew crew.val).sine.en = false ∨ s.crewUp crew.val = false ∨ (s.crew crew.val).sine.hist = false →
        exec (.sineTestStroke crew dev) s = .next s)
      ∧ ((s.crew crew.val).sine.en = true → s.crewUp crew.val = true → (s.crew crew.val).sine.hist = true → ∃ t : State,
          exec (.sineTestStroke crew dev) s = .next t
          ∧ (∀ k c, k < 8 → c < 1024 → (t.crew crew.val).hist.get zeroNat (k * 1024 + c)
              = if code k = c then satAdd 16 ((s.crew crew.val).hist.get zeroNat (k * 1024 + c)) 1
                else (s.crew crew.val).hist.get zeroNat (k * 1024 + c))
          ∧ t.crew crew.val = { s.crew crew.val with hist := (t.crew crew.val).hist }
          ∧ (∀ k, k ≠ crew.val → t.crew k = s.crew k) ∧ t = { s with crews := t.crews }))

/-- O41. While the device is up, a 4-byte read of MGT_TIME_LO returns the low half of the time base and latches the high
half into MGT_TIME_HI, and an 8-byte read returns the whole time base as it was; nothing else changes. A read of
SEC_TRNG_DATA returns a free value where the generator is ready and 0 before; the value is free since no rule states
it (log entry 14). In RESET_HOLD the time base and the generator read 0. A faulty PCIe endpoint answers nothing. A
read of COX_CHIP_ID finds 0x09A4_1140 while the device is powered, a read of the pitch window zero bytes. While the
device is up COX_STATUS shows state, TRIMLD, ENVSET, MODE and the contexts that are not CLOSED; CRW_HEALTH the bench,
its cause (unless a power-down has taken them from the register, log entry 98) and the parity count; TRK_COEF_DATA and
TRK_COEF_FDATA gain and offset of the column that TRK_COEF_ADDR names; TRK_STATUS its flags and the length of the
ground patch list; all of a crew without power reads 0; PCI_QSTAT and PCI_QEVT show errors, outstanding commands and
events. SMB_ALERT_N is asserted while the mirror holds a signature. From the slave address 0x58 + SB_ADDR the first
sideband read sends the first 128 bytes of the oldest mirrored signature and keeps it, the second the other 128 and
removes it; of an empty mirror the bytes are free values (log entry 20). The test port takes an instruction that
reaches the pins only while both resets are asserted, and any other at once; IDCODE gives 0x109A_447B; a refused one
leaves the instruction in force, and TRST_N low holds the port in reset. (13_register_map R323, 13_register_map R334,
13_register_map R328, 12_clocks_resets_power_boot R292, 04_accuracy_drift_calibration R94,
04_accuracy_drift_calibration R95, 09_dependability R235, 07_commands_queues_states R168, 09_dependability R242,
14_pins_package_electrical R347, 14_pins_package_electrical R342, 07_commands_queues_states R183) -/
def Obligations.ReadsWithAnEffect : Prop :=
  (∀ s : State, s.barLive = true →
      exec (.timeLatchRead 0x700000 4) s = .next { s with
        dev := { s.dev with timeHi := (s.dev.timeBase >>> 32).setWidth 32 }
        outs := .readData (leBytes 4 ((s.dev.timeBase.setWidth 32).toNat)) :: s.outs }
      ∧ exec (.timeLatchRead 0x700000 8) s = .next { s with
        dev := { s.dev with timeHi := (s.dev.timeBase >>> 32).setWidth 32 }
        outs := .readData (leBytes 8 s.dev.timeBase.toNat) :: s.outs }
      ∧ (s.dev.trngOk = true → exec .trngRead s = .next { s with
          free := s.free + 1, outs := .readData (leBytes 4 (Config.freeRandom s.free).toNat) :: s.outs })
      ∧ (s.dev.trngOk = false → exec .trngRead s = .next { s with outs := .readData [0, 0, 0, 0] :: s.outs }))
  ∧ (∀ s : State, s.dev.st = .resetHold → s.dev.endpointFault = false → exec (.timeLatchRead 0x700000 4) s = .next { s with
        outs := .readData [0, 0, 0, 0] :: s.outs }
      ∧ exec .trngRead s = .next { s with outs := .readData [0, 0, 0, 0] :: s.outs })
  ∧ (∀ (s : State) (off len : Nat), s.dev.st = .off ∨ s.dev.endpointFault = true → exec (.timeLatchRead off len) s = .next s ∧ exec .trngRead s = .next s)
  ∧ (∀ s : State, s.dev.st ≠ .off → s.dev.endpointFault = false → s.barRead 0 false 0 = 0x09A41140#32)
  ∧ (∀ (s : State) (fn off n : Nat), s.bar2Read fn off n = List.replicate n 0)
  ∧ (∀ (s : State) (k : Fin 256) (m : Fin 17), s.barLive = true →
      let rd := fun off => (s.barRead 0 false off).toNat
      let base := 0x1000000 + 0x10000 * k.val
      let c := s.crew k.val
      let a := arrIdx k.val m.val
      (bitsOf (rd 4) 0 4 = devCode s.dev.st ∧ bitOf (rd 4) 8 = s.env.trimLoaded ∧ bitOf (rd 4) 9 = s.env.envSet
        ∧ bitOf (rd 4) 10 = s.env.mode ∧ ∀ i, i < 16 → bitOf (rd 4) (16 + i) = decide ((s.ctx i).st ≠ .closed))
      ∧ (diePowered s.env.env (crewDie k.val) = true →
          (c.healthLost = false → bitOf (rd (base + 0x9308)) 31 = c.benched ∧ bitsOf (rd (base + 0x9308)) 24 4 = c.cause.toNat)
          ∧ bitsOf (rd (base + 0x9308)) 0 8 = c.parn.toNat
          ∧ (c.coefAddr.toNat / 1024 ≤ 16 → c.coefAddr.toNat % 1024 ≤ 519 →
              let x := s.arr (arrIdx k.val (c.coefAddr.toNat / 1024))
              let j := c.coefAddr.toNat % 1024
              bitsOf (rd (base + 0x9204)) 16 16 = (x.tTrim.get trimDflt j).2.toNat
              ∧ bitsOf (rd (base + 0x9204)) 0 16 = (x.tTrim.get trimDflt j).1.toNat
              ∧ bitsOf (rd (base + 0x9208)) 16 16 = (x.fTrim.get trimDflt j).2.toNat
              ∧ bitsOf (rd (base + 0x9208)) 0 16 = (x.fTrim.get trimDflt j).1.toNat)
          ∧ (let v := rd (base + 0x800 * m.val + 0x40)
             bitOf v 31 = (s.arr a).limit ∧ bitOf v 30 = (s.arr a).trkOut ∧ bitOf v 29 = (s.arr a).lanBad
              ∧ bitOf v 28 = ((s.arr a).plane (s.arr a).ground).full ∧ bitOf v 27 = (s.arr a).cAmbig
              ∧ bitOf v 17 = (s.arr a).census ∧ bitOf v 16 = (s.arr a).refresh ∧ bitsOf v 8 8 = s.patchN a
              ∧ bitOf v 0 = (s.arr a).conv))
      ∧ (diePowered s.env.env (crewDie k.val) = false → ∀ r, r < 0x10000 → rd (base + r) = 0)
      ∧ (let x := s.queue .admin
         let st := (s.barRead 0 true 0x24).toNat
         let ev := (s.barRead 0 true 0x28).toNat
         bitOf st 31 = x.dbErr ∧ bitOf st 30 = x.ringErr ∧ bitsOf st 0 16 = s.outstanding .admin % 2 ^ 16
          ∧ bitOf ev 0 = !s.sig.store.isEmpty ∧ bitOf ev 1 = x.evt1))
  ∧ (∀ (s : State) (b : List Byte) (l : List (List Byte)), s.dev.st ≠ .off → s.sig.mirror = b :: l →
      exec .smbMirrorReadFirst s = .next { s with free := s.free + 1, outs := .smbBlock (0x58 + s.dev.sbAddr.toNat) ((padSig b).take 128) :: s.outs }
      ∧ exec .smbMirrorReadSecond s = .next { s with
          free := s.free + 1, sig := { s.sig with mirror := l }, outs := .smbBlock (0x58 + s.dev.sbAddr.toNat) ((padSig b).drop 128) :: s.outs })
  ∧ (∀ s : State, s.dev.st ≠ .off → s.sig.mirror = [] → ∃ x y : List Byte, x.length = 128 ∧ y.length = 128
      ∧ exec .smbMirrorReadFirst s = .next { s with free := s.free + 1, outs := .smbBlock (0x58 + s.dev.sbAddr.toNat) x :: s.outs }
      ∧ exec .smbMirrorReadSecond s = .next { s with free := s.free + 1, outs := .smbBlock (0x58 + s.dev.sbAddr.toNat) y :: s.outs })
  ∧ (∀ s : State, s.smbAlert = true ↔ s.sig.mirror ≠ [])
  ∧ (∀ (s : State) (op : JtagOp),
      (s.dev.st ≠ .off →
        exec (.jtagInstruction ⟨.idcode, true⟩) s
          = .next { s with dev := { s.dev with jtag := .idcode }, outs := .jtag true (some 0x109A447B#32) :: s.outs }
        ∧ exec (.jtagInstruction ⟨op, false⟩) s
          = .next { s with dev := { s.dev with jtag := .idcode }, outs := .jtag false none :: s.outs }
        ∧ (op ≠ .idcode → (op = .bypass ∨ (s.dev.perst = true ∧ s.dev.devRst = true)) → exec (.jtagInstruction ⟨op, true⟩) s
          = .next { s with dev := { s.dev with jtag := op }, outs := .jtag true none :: s.outs })
        ∧ (op ≠ .idcode → op ≠ .bypass → (s.dev.perst = false ∨ s.dev.devRst = false) → exec (.jtagInstruction ⟨op, true⟩) s
          = .next { s with outs := .jtag false none :: s.outs }))
      ∧ (s.dev.st = .off → (∀ trst, exec (.jtagInstruction ⟨op, trst⟩) s = .next s) ∧ exec .smbMirrorReadFirst s = .next s
          ∧ exec .smbMirrorReadSecond s = .next s))

/-- O42. A write request is its dwords in ascending address, each a write of its own, and one without all four byte
enables is discarded. While the device is up: a write of COX_TWIN_CFG takes MAXPAIRS from 1 to 64 and K from 3 to 15
and leaves a field that is outside as it is; COX_CHECK_CFG, PWR_GOV_CFG and TRK_POLICY take what is in range,
PWR_THROT clears the flags written as 1, MGT_SINE_FTW and CRW_SINE_FTW of a powered crew and TRK_COEF_ADDR take the
value; a write of ARR_SLEW and ARR_FOLD reaches only an array of a powered die that no open context holds, and one
with STEP = 0 is ignored; TRK_STATUS clears the flags written as 1, and STA_SAT_CFG takes a threshold up to 4,096; a
write of any other offset, read-only or reserved, changes nothing. In RESET_HOLD only FORCEBH, until it is locked,
takes a write, and while the reset is still asserted none does (the choice of the model, log entry 118); a device that
is OFF, or whose PCIe endpoint is faulty, takes none. (13_register_map R323, 13_register_map R327, 01_device_overview
R5, 01_device_overview R8, 08_latency_and_bow_class R209, 02_arrays_and_strokes R26, 02_arrays_and_strokes R35,
12_clocks_resets_power_boot R297, 12_clocks_resets_power_boot R308, 04_accuracy_drift_calibration R97,
04_accuracy_drift_calibration R94, 04_accuracy_drift_calibration R110) -/
def Obligations.RegisterWritesReachTheirRegister : Prop :=
  (∀ (s : State) (fn : Fin 17) (bar4 : Bool) (off : Nat) (w : Dword) (be : BitVec 4) (ws : List (Dword × BitVec 4)), off % 4 = 0 →
      (be ≠ 0xF → exec (.registerWrite fn bar4 off ((w, be) :: ws)) s = exec (.registerWrite fn bar4 (off + 4) ws) s)
      ∧ (be = 0xF → exec (.registerWrite fn bar4 off ((w, be) :: ws)) s
          = exec (.registerWrite fn bar4 (off + 4) ws) (s.barWrite fn.val bar4 off w))
      ∧ exec (.registerWrite fn bar4 off []) s = .next s)
  ∧ (∀ (s : State) (w : Dword), s.barLive = true →
      (∃ t : State, exec (.registerWrite 0 false 0x40 [(w, 0xF)]) s = .next t
        ∧ t.cfg = { s.cfg with maxPairs := t.cfg.maxPairs, twinK := t.cfg.twinK } ∧ t = { s with cfg := t.cfg }
        ∧ (1 ≤ bitsOf w.toNat 16 8 → bitsOf w.toNat 16 8 ≤ 64 → t.cfg.maxPairs = BitVec.ofNat 8 (bitsOf w.toNat 16 8))
        ∧ (bitsOf w.toNat 16 8 = 0 ∨ 64 < bitsOf w.toNat 16 8 → t.cfg.maxPairs = s.cfg.maxPairs)
        ∧ (3 ≤ bitsOf w.toNat 0 4 → t.cfg.twinK = BitVec.ofNat 4 (bitsOf w.toNat 0 4))
        ∧ (bitsOf w.toNat 0 4 < 3 → t.cfg.twinK = s.cfg.twinK))
      ∧ (let v := w.toNat
         exec (.registerWrite 0 false 0x48 [(w, 0xF)]) s = .next { s with cfg := { s.cfg with
            kc := if 4 ≤ bitsOf v 0 4 then BitVec.ofNat 4 (bitsOf v 0 4) else s.cfg.kc } }
         ∧ exec (.registerWrite 0 false 0x640004 [(w, 0xF)]) s = .next { s with cfg := { s.cfg with
            margin := if bitsOf v 16 8 ≤ 100 then BitVec.ofNat 8 (bitsOf v 16 8) else s.cfg.margin
            wrcap := if 1 ≤ bitsOf v 0 8 ∧ bitsOf v 0 8 ≤ 80 then BitVec.ofNat 8 (bitsOf v 0 8) else s.cfg.wrcap } }
         ∧ exec (.registerWrite 0 false 0x640014 [(w, 0xF)]) s = .next { s with gov := { s.gov with
            eng := s.gov.eng && !w.getLsbD 31, stern := s.gov.stern && !w.getLsbD 30, write := s.gov.write && !w.getLsbD 29 } }
         ∧ (1 ≤ bitsOf v 16 4 → bitsOf v 16 4 ≤ 8 → 1 ≤ bitsOf v 8 4 → 2 ≤ bitsOf v 0 5 → bitsOf v 0 5 ≤ 19 →
            exec (.registerWrite 0 false 0x680004 [(w, 0xF)]) s = .next { s with cfg := { s.cfg with
              censusH := BitVec.ofNat 8 (bitsOf v 24 8), conc := BitVec.ofNat 4 (bitsOf v 16 4)
              space := BitVec.ofNat 4 (bitsOf v 8 4), thr := BitVec.ofNat 5 (bitsOf v 0 5) } })
         ∧ (bitsOf v 16 4 = 0 ∨ 8 < bitsOf v 16 4 ∨ bitsOf v 8 4 = 0 ∨ bitsOf v 0 5 < 2 ∨ 19 < bitsOf v 0 5 →
            exec (.registerWrite 0 false 0x680004 [(w, 0xF)]) s = .next s)
         ∧ exec (.registerWrite 0 false 0x700400 [(w, 0xF)]) s = .next { s with cfg := { s.cfg with sineFtw := w.setWidth 24 } }))
  ∧ (∀ (s : State) (off : Nat) (w : Dword), s.barLive = true → off % 4 = 0 →
      let r := off % 0x10000
      off ∉ [0x40, 0x48, 0x600000, 0x600004, 0x600160, 0x640004, 0x640014, 0x680000, 0x680004, 0x700400, 0x700404] →
      (off < 0x501000 ∨ 0x501400 ≤ off) → (off < 0x540000 ∨ 0x540400 ≤ off ∨ off % 0x100 ≠ 0) →
      (off < 0x600100 ∨ 0x600160 ≤ off) →
      (off < 0x1000000 ∨ 0x2000000 ≤ off ∨ (0x8800 ≤ r ∧ r ∉ [0x9100, 0x9104, 0x9200, 0x9304])
        ∨ (r < 0x8800 ∧ r % 0x800 ∉ [0x10, 0x14, 0x40, 0x5C])) →
      exec (.registerWrite 0 false off [(w, 0xF)]) s = .next s)
  ∧ (∀ (s : State) (k : Fin 256) (w : Dword), s.barLive = true → diePowered s.env.env (crewDie k.val) = true →
      ∃ t u : State, exec (.registerWrite 0 false (0x1009100 + 0x10000 * k.val) [(w, 0xF)]) s = .next t
        ∧ exec (.registerWrite 0 false (0x1009200 + 0x10000 * k.val) [(w, 0xF)]) s = .next u
        ∧ t.crew k.val = { s.crew k.val with sine := { (s.crew k.val).sine with ftw := w.setWidth 24 } }
        ∧ u.crew k.val = { s.crew k.val with coefAddr := w.setWidth 15 }
        ∧ (∀ n, n ≠ k.val → t.crew n = s.crew n ∧ u.crew n = s.crew n)
        ∧ t = { s with crews := t.crews } ∧ u = { s with crews := u.crews })
  ∧ (∀ (s : State) (k : Fin 256) (m : Fin 17) (w : Dword), s.barLive = true →
      let a := arrIdx k.val m.val
      let off := 0x1000000 + 0x10000 * k.val + 0x800 * m.val + 0x10
      (diePowered s.env.env (crewDie k.val) = false ∨ s.held a = true →
        exec (.registerWrite 0 false off [(w, 0xF)]) s = .next s)
      ∧ (diePowered s.env.env (crewDie k.val) = true → s.held a = false → ∃ t : State,
          exec (.registerWrite 0 false off [(w, 0xF)]) s = .next t
          ∧ t.arr a = { s.arr a with step := (t.arr a).step, rate := (t.arr a).rate }
          ∧ (bitsOf w.toNat 0 4 = 0 → t.arr a = s.arr a)
          ∧ (bitsOf w.toNat 0 4 ≠ 0 → (t.arr a).step = BitVec.ofNat 4 (bitsOf w.toNat 0 4)
              ∧ (t.arr a).rate = BitVec.ofNat 2 (bitsOf w.toNat 4 2))
          ∧ (∀ b, b ≠ a → t.arr b = s.arr b) ∧ t = { s with arrs := t.arrs })
      ∧ (s.held a = true → exec (.registerWrite 0 false (off + 4) [(w, 0xF)]) s = .next s)
      ∧ (diePowered s.env.env (crewDie k.val) = true → ∃ t u v : State,
          exec (.registerWrite 0 false (off + 4) [(w, 0xF)]) s = .next t
          ∧ exec (.registerWrite 0 false (off + 0x30) [(w, 0xF)]) s = .next u
          ∧ exec (.registerWrite 0 false (off + 0x4C) [(w, 0xF)]) s = .next v
          ∧ (s.held a = false → t.arr a = { s.arr a with
              fold := if bitsOf w.toNat 4 2 = 3 then (s.arr a).fold else BitVec.ofNat 2 (bitsOf w.toNat 4 2), auto := w.getLsbD 0 })
          ∧ u.arr a = { s.arr a with
              trkOut := (s.arr a).trkOut && !w.getLsbD 30, cAmbig := (s.arr a).cAmbig && !w.getLsbD 27 }
          ∧ v.arr a = { s.arr a with
              satCal := (s.arr a).satCal && !w.getLsbD 31
              satThr := if bitsOf w.toNat 0 13 ≤ 4096 then BitVec.ofNat 13 (bitsOf w.toNat 0 13) else (s.arr a).satThr }
          ∧ (∀ b, b ≠ a → t.arr b = s.arr b ∧ u.arr b = s.arr b ∧ v.arr b = s.arr b)
          ∧ t = { s with arrs := t.arrs } ∧ u = { s with arrs := u.arrs } ∧ v = { s with arrs := v.arrs }))
  ∧ (∀ (s : State) (off : Nat) (w : Dword), off % 4 = 0 →
      (s.dev.st = .resetHold → s.dev.endpointFault = false → exec (.registerWrite 0 false off [(w, 0xF)]) s
          = .next (if off = 0x54 ∧ s.dev.released = true ∧ s.dev.locked = false then
              { s with dev := { s.dev with forceBh := w.getLsbD 0 } } else s))
      ∧ (s.dev.st = .off ∨ s.dev.endpointFault = true → exec (.registerWrite 0 false off [(w, 0xF)]) s = .next s))

/-- O43. After a PERST_N or DEV_RST_N pulse of 200 ns or more, a function-level reset of the physical function, the loss
of the PCIe link, and the loss of power, of a device that is not OFF, and after the restart of R318 when the flash has
been programmed, the signature store, the sideband mirror and the count of discarded signatures are empty, and every
counter and record of the device has its reset value: drop counter, parity and ECC counters, crew and check counters,
array statistics, link counters and residue errors. (R243) -/
def Obligations.ResetsLoseEveryRecord : Prop :=
  ∀ (i : Instr) (s : State), s.dev.st ≠ .off →
    ((∃ ns, 200 ≤ ns ∧ (i = .perstAssert ns ∨ i = .devRstAssert ns)) ∨ i = .pfFlr ∨ i = .pcieDlDown ∨ i = .powerLoss
      ∨ (i = .flashProgrammingComplete ∧ ∃ c ∈ s.cmds, ∃ img, c.work = .flash img)) →
    ∃ t, exec i s = .next t ∧ t.sig.store = [] ∧ t.sig.mirror = [] ∧ t.sig.lost = 0 ∧ t.env.p2pDrop = 0
      ∧ t.tel = Tel.reset ∧ t.dev.safeCause = 0 ∧ t.dev.bcause = 0 ∧ t.gov = Gov.reset
      ∧ (∀ n, t.crew n = Crew.reset) ∧ (∀ a, t.arr a = Arr.reset a) ∧ (∀ p, t.port p = Port.reset)
      ∧ (∀ v, t.ve v = Ve.reset) ∧ (∀ q, t.queue q = Queue.reset) ∧ (∀ c, t.ctx c = Ctx.reset)

/-- O44. After a PERST_N or DEV_RST_N pulse of 200 ns or more, a function-level reset of the physical function and the
loss of the PCIe link, of a device that is not OFF, the device is in RESET_HOLD with FAULT_N asserted, STRAP reading
0, no command in flight, every context CLOSED, no trim record and no environment; host memory and the flash stay. A
shorter pulse, and any of them on a device that is OFF, changes nothing. The loss of power leaves it OFF with FAULT_N
released. The release of the resets, where they are asserted or the device is OFF, leads to RESET_HOLD and starts BIST
at stage 1 with the straps latched, the envelope that of the strap and the time base at 0; of a device that entered
SAFE meanwhile it leaves SAFE and its cause as they are (log entry 114); one that is released already is left as it
is. (07_commands_queues_states R182, 09_dependability R247, 09_dependability R248, 12_clocks_resets_power_boot R295,
12_clocks_resets_power_boot R301, 12_clocks_resets_power_boot R310, 07_commands_queues_states R167,
12_clocks_resets_power_boot R299) -/
def Obligations.ResetsEnterResetHoldAndRelease : Prop :=
  (∀ (s : State) (ns : Nat), s.dev.st ≠ .off →
      (200 ≤ ns → ∃ t u v w : State, exec (.perstAssert ns) s = .next t ∧ exec (.devRstAssert ns) s = .next u
        ∧ exec .pfFlr s = .next v ∧ exec .pcieDlDown s = .next w
        ∧ t.dev.perst = true ∧ u.dev.devRst = true
        ∧ (t.dev.vfEn = 0 ∧ u.dev.vfEn = s.dev.vfEn ∧ v.dev.vfEn = 0 ∧ w.dev.vfEn = s.dev.vfEn)
        ∧ (∀ x ∈ [t, u, v, w], x.dev.st = .resetHold ∧ x.dev.faultN = true ∧ x.dev.released = false ∧ x.dev.strap = 0 ∧ x.cmds = []
            ∧ (∀ c, (x.ctx c).st = .closed) ∧ x.env.trimLoaded = false ∧ x.env.envSet = false
            ∧ x.host = s.host ∧ x.outs = s.outs ∧ x.dev.flash = s.dev.flash))
      ∧ (ns < 200 → exec (.perstAssert ns) s = .next s ∧ exec (.devRstAssert ns) s = .next s)
      ∧ (∃ t : State, exec .powerLoss s = .next t ∧ t.dev.st = .off ∧ t.dev.faultN = false ∧ t.cmds = []
          ∧ t.dev.flash = s.dev.flash ∧ t.host = s.host))
  ∧ (∀ (s : State) (ns : Nat), s.dev.st = .off → exec (.perstAssert ns) s = .next s ∧ exec (.devRstAssert ns) s = .next s
      ∧ exec .pfFlr s = .next s ∧ exec .pcieDlDown s = .next s)
  ∧ (∀ (s : State) (role : BitVec 2) (sb : BitVec 3),
      (s.dev.released = false → s.dev.st = .safe → ∃ t : State, exec (.resetRelease role sb) s = .next t
        ∧ t.dev.st = .safe ∧ t.dev.safeCause = s.dev.safeCause ∧ t.dev.released = true ∧ t.dev.strap = role
        ∧ t = { s with dev := t.dev, env := t.env })
      ∧ (s.dev.released = false → s.dev.st ≠ .safe → ∃ t : State, exec (.resetRelease role sb) s = .next t
        ∧ t.dev.st = .resetHold ∧ t.dev.released = true ∧ t.dev.strap = role ∧ t.dev.sbAddr = sb ∧ t.dev.bistStage = 1 ∧ t.dev.locked = false
        ∧ t.dev.timeBase = 0 ∧ t.env.env = role.toNat + 1 ∧ t.env.bootEnv = role.toNat + 1 ∧ t.dev.flash = s.dev.flash
        ∧ t = { s with dev := t.dev, env := t.env })
      ∧ (s.dev.released = true → exec (.resetRelease role sb) s = .next s))

/-- O45. PLL lock of a released device is recorded once, and the targets of rails 0 and 1 are written, 0.75 V and 0.90 V.
Once the PLL has locked, a BIST stage that passes by its readings leads to the next one; the last one, stage 4 at the
E1 boot envelope and 5 at others, ends BIST passed; a failing one ends it failed, with one signature of kind 0x17 and
the stage in the mirror alone. The 65,536 strokes of a pass of stage 4 meet different phases. After PLL lock and a
BIST that has passed, the boot ROM takes the newer valid firmware image: with none the device is in BOATHOUSE with
cause 3; with one that does not list this stepping, cause 1; with no listed microcode, cause 2; with FORCEBH, cause 4;
else it is READY with their versions. FAULT_N is released and the fields that lock are locked. Whether the random
source is then in service is free (log entry 14). (12_clocks_resets_power_boot R291, 12_clocks_resets_power_boot R300,
12_clocks_resets_power_boot R310, 12_clocks_resets_power_boot R311, 12_clocks_resets_power_boot R312,
12_clocks_resets_power_boot R313, 12_clocks_resets_power_boot R316, 12_clocks_resets_power_boot R320, 09_dependability
R247, 09_dependability R240) -/
def Obligations.BootRunsBistAndSelectsImages : Prop :=
  (∀ s : State, (s.dev.released = true → s.dev.pllLocked = false → exec .pllLock s
        = .next { s with
            dev := { s.dev with pllLocked := true }, outs := .avsTarget 1 900 :: .avsTarget 0 750 :: s.outs })
      ∧ (s.dev.released = false ∨ s.dev.pllLocked = true → exec .pllLock s = .next s))
  ∧ (∀ (s : State) (rd : BistReading), s.dev.st = .resetHold → s.dev.released = true → s.dev.pllLocked = true →
      s.dev.bistDone = false →
      let last : Nat := if s.env.bootEnv = 1 then 4 else 5
      let pass := bistPasses rd (envDies s.env.bootEnv) (envLinks s.env.bootEnv) s.dev.bistStage.toNat
      (pass = true → s.dev.bistStage.toNat < last → exec (.bistStageComplete rd) s
          = .next { s with dev := { s.dev with bistStage := s.dev.bistStage + 1 } })
      ∧ (pass = true → last ≤ s.dev.bistStage.toNat → exec (.bistStageComplete rd) s
          = .next { s with dev := { s.dev with bistDone := true, bistPass := true } })
      ∧ (pass = false → ∃ t : State, exec (.bistStageComplete rd) s = .next t
          ∧ t.dev = { s.dev with bistDone := true, bistPass := false }
          ∧ t.sig = { s.sig with
              seq := s.sig.seq + 1
              mirror := (if s.sig.mirror.length < 16 then s.sig.mirror else s.sig.mirror.drop 1)
                ++ [s.sigBytes 0x17 { data := leBytes 1 s.dev.bistStage.toNat }] }
          ∧ t = { s with dev := t.dev, sig := t.sig }))
  ∧ (∀ (s : State) (rd : BistReading), s.dev.st ≠ .resetHold ∨ s.dev.released = false ∨ s.dev.pllLocked = false
      ∨ s.dev.bistDone = true → exec (.bistStageComplete rd) s = .next s)
  ∧ (∀ i j, i < 65536 → j < 65536 → BitVec.ofNat 24 (64 * bistFtw * i) = BitVec.ofNat 24 (64 * bistFtw * j) → i = j)
  ∧ (∀ s : State, s.dev.st = .resetHold → s.dev.released = true → s.dev.pllLocked = true → s.dev.bistDone = true →
      s.dev.bistPass = true → ∃ t : State, exec .bootImageSelect s = .next t
      ∧ t = { s with dev := t.dev, free := s.free + 1 } ∧ t.dev.faultN = false ∧ t.dev.locked = true
      ∧ t.dev.flash = s.dev.flash
      ∧ (newest (s.dev.image 1 false) (s.dev.image 1 true) = none → t.dev.st = .boathouse ∧ t.dev.bcause = 3)
      ∧ (∀ cox b, newest (s.dev.image 1 false) (s.dev.image 1 true) = some (cox, b) →
          ((∀ e ∈ compat cox, e.1 ≠ stepping) → t.dev.st = .boathouse ∧ t.dev.bcause = 1)
          ∧ ((∃ e ∈ compat cox, e.1 = stepping) →
              let u := newest (listedImage cox (s.dev.image 2 false)) (listedImage cox (s.dev.image 2 true))
              (u = none → t.dev.st = .boathouse ∧ t.dev.bcause = 2)
              ∧ (u ≠ none → s.dev.forceBh = true → t.dev.st = .boathouse ∧ t.dev.bcause = 4)
              ∧ (∀ uc k, u = some (uc, k) → s.dev.forceBh = false → t.dev.st = .ready ∧ t.dev.bcause = 0
                  ∧ t.dev.fwVer = BitVec.ofNat 64 (imgVersion cox) ∧ t.dev.ucVer = BitVec.ofNat 64 (imgVersion uc)))))
  ∧ (∀ s : State, s.dev.st ≠ .resetHold ∨ s.dev.released = false ∨ s.dev.pllLocked = false ∨ s.dev.bistDone = false
      ∨ s.dev.bistPass = false →
      exec .bootImageSelect s = .next s)

/-- O46. On a powered device, VIRTUAL_FUNCTION_ENABLE sets or clears the enable bit of one virtual function and its MSI-X
enable, and no other bit. The function-level reset of a virtual function disables both queues of its context, whose
commands and fetched entries are gone without a status, and puts an open context into CLOSING with its batch closed;
no other context and no other queue changes, and no status entry is written. It keeps everything else: the registers
of the device, the MSI-X structures and enables among them, the signatures, and the environment. That a top manager
sends its members no message of it is the choice of the model (log entry 122). A device that is OFF is left as it is.
(07_commands_queues_states R167, 07_commands_queues_states R202, 07_commands_queues_states R187,
12_clocks_resets_power_boot R295) -/
def Obligations.VirtualFunctionsAreEnabledAndReset : Prop :=
  (∀ (s : State) (n : Fin 16) (en msix : Bool), s.dev.st ≠ .off → ∃ t : State, exec (.virtualFunctionEnable n en msix) s = .next t
      ∧ t.dev.vfEn.getLsbD n.val = en ∧ t.dev.vfMsix.getLsbD n.val = (en && msix)
      ∧ (∀ k, k ≠ n.val → t.dev.vfEn.getLsbD k = s.dev.vfEn.getLsbD k ∧ t.dev.vfMsix.getLsbD k = s.dev.vfMsix.getLsbD k)
      ∧ t = { s with dev := { s.dev with vfEn := t.dev.vfEn, vfMsix := t.dev.vfMsix } })
  ∧ (∀ (s : State) (n : Fin 16), s.dev.st ≠ .off → ∃ t : State, exec (.vfFlr n) s = .next t
      ∧ (t.queue (.ctx n)).enable = false ∧ (t.queue (.bow n)).enable = false
      ∧ (t.queue (.ctx n)).fetched = [] ∧ (t.queue (.bow n)).fetched = []
      ∧ (∀ x ∈ t.cmds, x.ref.q ≠ .ctx n ∧ x.ref.q ≠ .bow n)
      ∧ (∀ x ∈ s.cmds, x.ref.q ≠ .ctx n → x.ref.q ≠ .bow n → x ∈ t.cmds)
      ∧ t.dev = s.dev ∧ t.sig = s.sig ∧ t.env = s.env ∧ t.tel = s.tel ∧ t.group = s.group
      ∧ t.ctx n.val = (if (s.ctx n.val).st = .closed then s.ctx n.val
          else { s.ctx n.val with st := .closing, batch := none })
      ∧ (∀ k, k ≠ n.val → t.ctx k = s.ctx k) ∧ t.host = s.host ∧ t.outs = s.outs
      ∧ (∀ q, qIdx q < 33 → q ≠ .ctx n → q ≠ .bow n → t.queue q = s.queue q))
  ∧ (∀ (s : State) (n : Fin 16) (en msix : Bool), s.dev.st = .off → exec (.vfFlr n) s = .next s
      ∧ exec (.virtualFunctionEnable n en msix) s = .next s)

/-- O47. Of a device that is neither OFF nor in SAFE: each fault of the shared infrastructure, the loss of PLL lock, of
the reference clock and of a rail tolerance, overtemperature while a die reads more than 130 degC, a stalled NoC
credit, and three failed telemetry transactions in a row lead into SAFE with the code of R244. While a reset is
asserted a rail may leave its tolerance. In SAFE a further cause leaves state and cause as they are and makes a
signature of kind 0x16 with its code; the removal of VDD_WR there is none, its over-voltage is one. A signature has
the keys of R239 that apply, in ascending order, in at most 256 bytes. One command in flight through a ring, with the
fault outside the endpoint, is answered with FAULT and its results, a FENCE with OK. A SELFTEST that passes the checks
is in flight and its queue waits for it. On a pass it completes with OK. On a failure of a device that is up, the
device enters SAFE with cause 0x09 and no command is in flight. (09_dependability R244, 09_dependability R245,
09_dependability R246, 09_dependability R241, 07_commands_queues_states R183, 12_clocks_resets_power_boot R300,
14_pins_package_electrical R351, 14_pins_package_electrical R352, 09_dependability R239, 09_dependability R240,
10_links_groups_scaling R266, 07_commands_queues_states R200) -/
def Obligations.SharedFaultsEnterSafe : Prop :=
  ((∀ s : State, Canonical s → s.dev.st ≠ .off → s.dev.st ≠ .safe →
      (∀ (f : SharedFault) (ep : Bool), ∃ t, exec (.sharedFaultDetected f ep) s = .next t ∧ EntersSafe s t (faultCause f))
      ∧ (s.dev.pllLocked = true → ∃ t, exec .pllUnlock s = .next t ∧ EntersSafe s t 0x06 ∧ t.dev.pllLocked = false)
      ∧ (∃ t, exec .refclkLossTimeout s = .next t ∧ EntersSafe s t 0x06)
      ∧ (s.dev.released = true → ∀ rail above, ∃ t, exec (.railToleranceTimeout ⟨rail, above⟩) s = .next t ∧ EntersSafe s t 0x07)
      ∧ (s.dev.released = false → ∀ rail above, exec (.railToleranceTimeout ⟨rail, above⟩) s = .next s)
      ∧ (2080 < s.tel.hottest → ∃ t, exec .overtempTimeout s = .next t ∧ EntersSafe s t 0x08)
      ∧ (∃ t, exec .nocCreditWatchdog s = .next t ∧ EntersSafe s t 0x04)
      ∧ (s.dev.released = true → s.dev.pllLocked = true → s.tel.fails.getD 0 0 = 2 → s.tel.fails.length = 6 → ∀ x,
          ∃ t, exec (.railTelemetryAvs [none, x]) s = .next t ∧ EntersSafe s t 0x07)
      ∧ (∀ f x, s.cmds = [x] → x.ref.q.isRing = true → ∃ t, exec (.sharedFaultDetected f false) s = .next t
          ∧ Memory.readBytes t.host (s.statusAddr x.ref.q) 16 =
              if x.work = .fence then statusEntry x.pkt .ok 0 (s.queue x.ref.q).sqHead.toNat 0 0 (s.queue x.ref.q).phase
              else statusEntry x.pkt .fault (modBits x.sat x.folded x.patched)
                (s.queue x.ref.q).sqHead.toNat x.results.1 x.results.2 (s.queue x.ref.q).phase))
  ∧ (∀ s : State, s.tel.hottest ≤ 2080 → exec .overtempTimeout s = .next s)
  ∧ (∀ (s : State) (f : SharedFault) (ep : Bool), s.dev.st = .safe → ∃ t : State,
      exec (.sharedFaultDetected f ep) s = .next t ∧ t.dev.st = .safe ∧ t.dev.safeCause = s.dev.safeCause
        ∧ Signed s t 0x16 { data := leBytes 1 (faultCause f) } ∧ t.cmds = s.cmds ∧ t.queues = s.queues ∧ t.arrs = s.arrs ∧ t.host = s.host)
  ∧ (∀ s : State, s.dev.st = .safe →
      exec (.railToleranceTimeout ⟨5, false⟩) s = .next s
      ∧ (s.dev.released = true → ∀ rail above, rail ≠ 5 ∨ above = true → ∃ t : State,
          exec (.railToleranceTimeout ⟨rail, above⟩) s = .next t
          ∧ t.dev.st = .safe ∧ t.dev.safeCause = s.dev.safeCause ∧ Signed s t 0x16 { data := leBytes 1 7 } ∧ t.host = s.host))
  ∧ (∀ (s : State) (kind : Nat) (i : SigInfo), ∃ ks : List (Nat × List Byte), s.sigBytes kind i = cborMap ks
      ∧ ks.Pairwise (fun a b => a.1 < b.1)
      ∧ (∀ e ∈ [(0, cborUint 1), (1, cborUint kind), (2, cborUint s.dev.timeBase.toNat), (3, cborUint s.env.position.toNat),
          (4, cborUint Config.serial.toNat), (5, cborUint s.sig.seq)], e ∈ ks)
      ∧ (∀ v, (6, v) ∈ ks ↔ s.sig.lost ≠ 0 ∧ v = cborUint s.sig.lost)
      ∧ (∀ v, ((7, v) ∈ ks ↔ ∃ n, i.ctx = some n ∧ v = cborUint n) ∧ ((8, v) ∈ ks ↔ ∃ n, i.tag = some n ∧ v = cborUint n)
          ∧ ((9, v) ∈ ks ↔ ∃ n, i.status = some n ∧ v = cborUint n) ∧ ((10, v) ∈ ks ↔ i.loc ≠ [] ∧ v = cborArray i.loc)
          ∧ ((11, v) ∈ ks ↔ i.data ≠ [] ∧ v = cborBytes i.data))
      ∧ (kind < 256 → i.loc.length ≤ 4 → i.data.length ≤ 128 → (s.sigBytes kind i).length ≤ 256))
  ∧ faultCause .lockstepA = 0x01 ∧ faultCause .lockstepB = 0x02 ∧ faultCause .sharedParity = 0x03
  ∧ faultCause .hbmFault = 0x05 ∧ faultCause .securityIsland = 0x0A ∧ faultCause .comparatorHalves = 0x0B)
  ∧ ((∀ (s : State) (q : QueueId) (p : Packet), Presents s q .selftest p → p.noAddrs = true →
      exec (.selftest q) s = .next ((s.popFetched q).enrol (mkCmd s q p true .selftest)))
  ∧ (∀ (s : State) (f : Cmd), Canonical s → f.lone → s.cmds.find? (fun c => decide (c.work = .selftest)) = some f →
      (∀ rd, s.selftestOk rd = true → ∃ t, exec (.selftestComplete rd) s = .next t ∧ Ends s t f .ok 0 0)
      ∧ (∀ rd, s.selftestOk rd = false → s.dev.st ≠ .off → s.dev.st ≠ .safe →
          ∃ t, exec (.selftestComplete rd) s = .next t ∧ EntersSafe s t 0x09))
  ∧ (∀ (s : State) (rd : BistReading), (∀ c ∈ s.cmds, c.work ≠ .selftest) → exec (.selftestComplete rd) s = .next s))

/-- O48. After PLL lock a temperature sample is the five readings of MGT_TEMP and the two of HBM_TEMP, and at once cuts
the pool by 20 % for each kelvin above 125 degC; before the lock it changes nothing. A good telemetry reading of a
rail is its voltage and current, with its run of failures ended; AVSBus is read from PLL lock on, PMBus from the
release of the reset. While the device is up, a budget update sets the budget from the limit of the envelope, the
margin and the measured power less the energy drawn, and the energy drawn to 0; an epoch gives the bow reserve 4,200
tokens for each pair, the write allowance, the pool that is left, less its cut, after the deficit of replays, and the
stern allowance, and the transfers and slots under way take what they wait for, engine class first; then what has
waited with its transfer goes on (State.resume). With no command in flight, no message waiting and no swing in
progress nothing else changes. That TEMP_SAMPLE carries HBM_TEMP is the choice of the model (log entry 88), and so is
that the rest of a transfer or slot under way waits for later epochs (log entry 50). (12_clocks_resets_power_boot
R300, 12_clocks_resets_power_boot R302, 12_clocks_resets_power_boot R303, 12_clocks_resets_power_boot R304,
12_clocks_resets_power_boot R305, 13_register_map R334, 13_register_map R333) -/
def Obligations.TelemetryAndGovernor : Prop :=
  (∀ (s : State) (ts : List (BitVec 16)), ts.length = 7 →
      (s.dev.pllLocked = true → ∃ t : State, exec (.tempSample ts) s = .next t
        ∧ t.tel = { s.tel with temps := ts.take 5, hbmTemps := ts.drop 5 }
        ∧ (t.tel.hottest ≤ 2000 → t.gov.hot = false ∧ t.gov.pool = s.gov.poolFull - s.gov.poolUsed)
        ∧ (2000 < t.tel.hottest → t.gov.hot = true
            ∧ t.gov.pool = s.gov.poolFull * (2080 - t.tel.hottest).toNat / 80 - s.gov.poolUsed)
        ∧ t = { s with tel := t.tel, gov := { s.gov with hot := t.gov.hot, pool := t.gov.pool } })
      ∧ (s.dev.pllLocked = false → exec (.tempSample ts) s = .next s))
  ∧ (∀ (s : State) (a b c d : BitVec 16), s.dev.pllLocked = true → s.dev.released = true → s.tel.volts.length = 6 → s.tel.amps.length = 6 →
      s.tel.fails.length = 6 → (s.tel.fails.getD 2 0 ≠ 2 ∧ s.tel.fails.getD 3 0 ≠ 2) → ∃ t u : State,
      exec (.railTelemetryAvs [some (a, b), some (c, d)]) s = .next t
        ∧ t.tel.volts = a :: c :: s.tel.volts.drop 2 ∧ t.tel.amps = b :: d :: s.tel.amps.drop 2
        ∧ t.tel.fails = 0 :: 0 :: s.tel.fails.drop 2 ∧ t = { s with tel := t.tel }
      ∧ exec (.railTelemetryPmbus [none, none, some (a, b), some (c, d)]) s = .next u
        ∧ u.tel.volts = s.tel.volts.take 4 ++ [a, c] ∧ u.tel.amps = s.tel.amps.take 4 ++ [b, d]
        ∧ u.tel.fails = s.tel.fails.take 2 ++ [s.tel.fails.getD 2 0 + 1, s.tel.fails.getD 3 0 + 1, 0, 0]
        ∧ u.tel = { s.tel with volts := u.tel.volts, amps := u.tel.amps, fails := u.tel.fails } ∧ u = { s with tel := u.tel })
  ∧ (∀ (s : State) (rs : List RailReading),
      (s.dev.pllLocked = false → rs.length = 2 → exec (.railTelemetryAvs rs) s = .next s)
      ∧ (s.dev.released = false → rs.length = 4 → exec (.railTelemetryPmbus rs) s = .next s))
  ∧ (∀ s : State, s.dev.st ≠ .off → s.dev.st ≠ .resetHold → ∃ (t : State) (g : Gov), exec .governorBudgetUpdate s = .next t
      ∧ exec .governorEpoch s = .next { s with gov := g }.resume
      ∧ (s.cmds = [] → s.group.rx = [] → (∀ c, c < 16 → (s.ctx c).swingCmd = none) → exec .governorEpoch s = .next { s with gov := g })
      ∧ t = { s with gov := t.gov } ∧ t.gov.drawn = 0
      ∧ 10 * t.gov.budget ≤ 100000 * envLimitW s.env.env - 10000 * s.cfg.margin.toNat - (s.tel.power - s.gov.drawn)
      ∧ 100000 * envLimitW s.env.env - 10000 * s.cfg.margin.toNat - (s.tel.power - s.gov.drawn) < 10 * t.gov.budget + 10
      ∧ g.budget = s.gov.budget ∧ g.bowRes = 4200 * s.pairs.length ∧ g.hot = decide (2000 < s.tel.hottest)
      ∧ (∃ cap wr : Nat, wr = min (s.cfg.wrcap.toNat * 1000) (min (s.gov.wrAsked + s.gov.owedWr) ((s.gov.budget - g.bowRes) / 2))
          ∧ g.poolFull = s.gov.budget - g.bowRes - wr
          ∧ (s.tel.hottest ≤ 2000 → cap = g.poolFull)
          ∧ (2000 < s.tel.hottest → s.tel.hottest < 2080 → cap = g.poolFull * (2080 - s.tel.hottest).toNat / 80)
          ∧ (2080 ≤ s.tel.hottest → cap = 0)
          ∧ (let left := cap - s.gov.deficit
             let stern := left - s.gov.engDrawn
             let e := min s.gov.owedEng left
             let k := min s.gov.owedWr wr
             let w := min s.gov.owedStern (min stern (left - e))
             g.pool = left - e - w ∧ g.sternAllow = stern - w ∧ g.deficit = s.gov.deficit - cap
             ∧ g.wrAllow = wr - k ∧ g.owedWr = s.gov.owedWr - k ∧ g.wrAsked = k
             ∧ g.owedEng = s.gov.owedEng - e ∧ g.owedStern = s.gov.owedStern - w ∧ g.engDrawn = e
             ∧ g.poolUsed = s.gov.deficit + e + w ∧ g.drawn = s.gov.drawn + e + k + w))
      ∧ g.pool + g.wrAllow + g.bowRes ≤ max s.gov.budget g.bowRes)
  ∧ (∀ s : State, s.dev.st = .off ∨ s.dev.st = .resetHold → exec .governorBudgetUpdate s = .next s ∧ exec .governorEpoch s = .next s)

/-- O49. With no swing in progress. STROKE starts nothing on an array that has no free slot (or no free sample-and-hold
buffer), has a replay waiting, or, outside a reserved crew, refreshes at its drift limit. Else the next row group of
the next vector, with a nibble that is not 0 and room in its combiner, draws its tokens: granted, it is in flight on
the ground plane with the kappa_eff and check factor of the slot, and the patch lists of its own array and of the one
that would replay it, as they are at its first stroke, stay with the vector; short, nothing but the governor changes.
A row group whose nibbles are all 0 before it is skipped: it has no slot and no token and counts as settled, and the
next one of the vector strokes (R33). A fold replay and a check replay start the first waiting replay of their kind
once its array holds the generation of its stamp, and a check replay counts in CRW_CHECK. A keep-warm stroke puts one
row group a slot in flight, with the codes that the array's generator gives at its beginning, where its stern tokens
are granted. The choices of the model are: what a replay on a reserved crew draws on (log entry 111), the row groups
of a keep-warm stroke (37), and room in the combiner (48). (02_arrays_and_strokes R28, 02_arrays_and_strokes R36,
08_latency_and_bow_class R219, 02_arrays_and_strokes R30, 02_arrays_and_strokes R33, 04_accuracy_drift_calibration
R91, 04_accuracy_drift_calibration R106, 09_dependability R232, 12_clocks_resets_power_boot R304) -/
def Obligations.StrokesTakeTheirSlot : Prop :=
  (∀ (s : State) (k : Fin 256) (m : Fin 17), (∀ c, c < 16 → (s.ctx c).swingCmd = none) →
      let a := arrIdx k.val m.val
      (s.slotFree a = false ∨ (s.arr a).replays ≠ [] ∨ ((s.arr a).limitRefresh = true ∧ (s.crew k.val).resv = none) →
        exec (.stroke k m) s = .next s)
      ∧ (∀ j q rest, s.slotFree a = true → (s.arr a).replays = [] →
          ((s.arr a).limitRefresh = false ∨ (s.crew k.val).resv ≠ none) → s.nextJob a = some j →
          j.todo = q :: rest → s.combRoom j = true → (∃ x ∈ q.codes j.eight (s.jobCodes a j), x ≠ 0) →
          ((s.strokeTokens a j.stern).2 = false → exec (.stroke k m) s = .next { s with gov := (s.strokeTokens a j.stern).1 })
          ∧ ((s.strokeTokens a j.stern).2 = true → ∃ t : State, exec (.stroke k m) s = .next t
              ∧ t.gov = (s.strokeTokens a j.stern).1
              ∧ (t.arr a).shots = (s.arr a).shots ++ [⟨a, j.ref, j.vec, j.split, q, (s.arr a).ground, false,
                  q.codes j.eight (s.jobCodes a j), s.kEff a, s.cfg.kc, [], none⟩]
              ∧ (t.arr a).jobs = (s.arr a).jobs.map (fun x => if x.is j.ref j.vec j.split then
                  { j with
                    todo := rest, started := true
                    patches := if j.started then j.patches else s.patchList a
                    patches2 := if j.started then j.patches2 else s.patchList (s.replayArr a) }
                  else x)
              ∧ (∀ b, b ≠ a → t.arr b = s.arr b) ∧ (∀ n, t.crew n = { s.crew n with combVecs := (t.crew n).combVecs })
              ∧ t.cmds = s.cmds ∧ t.ctxs = s.ctxs ∧ t.host = s.host ∧ t.queues = s.queues))
      ∧ (∀ j q q2 rest, s.slotFree a = true → (s.arr a).replays = [] →
          ((s.arr a).limitRefresh = false ∨ (s.crew k.val).resv ≠ none) → s.nextJob a = some j →
          j.todo = q :: q2 :: rest → s.combRoom j = true → (∀ x ∈ q.codes j.eight (s.jobCodes a j), x = 0) →
          (∃ x ∈ q2.codes j.eight (s.jobCodes a j), x ≠ 0) → (s.strokeTokens a j.stern).2 = true →
          let z := ({ j with todo := q2 :: rest } : Job).accept q [] []
          ∃ t : State, exec (.stroke k m) s = .next t ∧ t.gov = (s.strokeTokens a j.stern).1
            ∧ (z.acc q.high).left = (j.acc q.high).left - 1 ∧ (z.acc q.high).sums = (j.acc q.high).sums
            ∧ (t.arr a).shots = (s.arr a).shots ++ [⟨a, j.ref, j.vec, j.split, q2, (s.arr a).ground, false,
                q2.codes j.eight (s.jobCodes a j), s.kEff a, s.cfg.kc, [], none⟩]
            ∧ (t.arr a).jobs = (s.arr a).jobs.map (fun x => if x.is j.ref j.vec j.split then
                { z with
                  todo := rest, started := true
                  patches := if j.started then j.patches else s.patchList a
                  patches2 := if j.started then j.patches2 else s.patchList (s.replayArr a) }
                else x)
            ∧ (∀ b, b ≠ a → t.arr b = s.arr b) ∧ t.parts = s.parts ∧ t.cmds = s.cmds ∧ t.ctxs = s.ctxs ∧ t.host = s.host))
  ∧ (∀ (s : State) (k : Fin 256) (m : Fin 17), (∀ c, c < 16 → (s.ctx c).swingCmd = none) →
      let a := arrIdx k.val m.val
      ((s.arr a).replays = [] ∨ s.slotFree a = false ∨ (∃ p ps, (s.arr a).replays = p :: ps ∧ s.replayReady a p = false) →
        exec (.foldReplay k m) s = .next s ∧ exec (.checkReplay k m) s = .next s)
      ∧ (∀ p ps, (s.arr a).replays = p :: ps → s.slotFree a = true → s.replayReady a p = true →
          (p.req.isCheck = true → exec (.foldReplay k m) s = .next s)
          ∧ (p.req.isCheck = false → exec (.checkReplay k m) s = .next s)
          ∧ (∀ j, s.job? p.home p.ref p.vec p.split = some j → (∃ x ∈ p.req.codes j.eight (s.jobCodes p.home j), x ≠ 0) →
              ∃ t : State, exec (if p.req.isCheck then .checkReplay k m else .foldReplay k m) s = .next t
                ∧ (t.arr a).replays = ps
                ∧ (t.arr a).shots = (s.arr a).shots ++ [⟨p.home, p.ref, p.vec, p.split, p.req, (s.arr a).ground, false,
                    p.req.codes j.eight (s.jobCodes p.home j), s.kEff a, s.cfg.kc, p.chk, none⟩]
                ∧ t.gov = (if (s.crew (a / 17)).resv.isSome then s.gov.drawBow 21 else s.gov.drawReplay 21)
                ∧ (t.crew k.val).chkReplays = (if p.req.isCheck then
                    BitVec.ofNat 16 (satAdd 16 (s.crew k.val).chkReplays.toNat 1) else (s.crew k.val).chkReplays)
                ∧ (∀ b, b ≠ a → t.arr b = s.arr b) ∧ t.cmds = s.cmds ∧ t.ctxs = s.ctxs ∧ t.host = s.host)))
  ∧ (∀ (s : State) (k : Fin 256) (m : Fin 17),
      let a := arrIdx k.val m.val
      let r := lfsrRows 512 (s.arr a).lfsr
      let groups := ((nibReqs false (foldOf (s.arr a).fold.toNat) false).map (fun q => (q, q.codes false r.1))).filter
        (fun e => !e.2.all (· == 0))
      let g := if (s.crew (a / 17)).resv.isSome then (s.gov.drawBow 21, true) else s.gov.drawPool true 21
      (s.slotOpen a = false ∨ s.slotFree a = false ∨ s.warmable a = false → exec (.keepWarmStroke k m) s = .next s)
      ∧ (s.slotOpen a = true → s.slotFree a = true → s.warmable a = true →
          ((s.arr a).warm = [] → groups = [] → exec (.keepWarmStroke k m) s
            = .next (s.modArr a (fun x => { x with lfsr := r.2 })))
          ∧ (∀ e rest v, ((s.arr a).warm = e :: rest ∧ v = (s.arr a).lfsr)
                ∨ ((s.arr a).warm = [] ∧ groups = e :: rest ∧ v = r.2) →
              (g.2 = false → exec (.keepWarmStroke k m) s = .next { s with gov := g.1 })
              ∧ (g.2 = true → ∃ t : State, exec (.keepWarmStroke k m) s = .next t
                  ∧ t.gov = g.1 ∧ (t.arr a).lfsr = v ∧ (t.arr a).warm = rest
                  ∧ (t.arr a).shots = (s.arr a).shots
                      ++ [⟨a, noRef, 0, 0, e.1, (s.arr a).ground, true, e.2, s.kEff a, s.cfg.kc, [], none⟩]
                  ∧ (t.arr a).jobs = (s.arr a).jobs ∧ (∀ b, b ≠ a → t.arr b = s.arr b)
                  ∧ t.crews = s.crews ∧ t.cmds = s.cmds ∧ t.ctxs = s.ctxs ∧ t.host = s.host))))
  ∧ (∀ (s : State) (a : Nat), s.slotFree a = true → (s.arr a).shots.length < 2)

/-- O50. With no swing in progress and the 576 deviations of a scan. Without a stroke in flight nothing changes. The
oldest stroke leaves the array, and its tracking reads are taken; a keep-warm stroke has no other effect. A command's
stroke with no saturated code and a sum within the check window adds its corrected codes and patch terms to its
nibble, and marks the command where a patch applied; the last one of a vector sends the partial to its combiner (R62),
where that is the same crew or the layer is CB4. A saturated one that has no fold replay is accepted as it is and
marks the command with SAT. A saturated one with automatic fold asks once for a replay of its nibble at twice the fold
and marks the command; a replay spends the one that a twin's vector has. A sum outside the window asks for a check
replay; that of a check replay ends the command with CHECK_FAIL, counts in CRW_CHECK, and puts an urgent census first.
A mismatch of the duplicated arithmetic ends the command. That a replay counts when it is asked for (log entry 33) and
keeps the values of the first check (34) is the choice of the model. (02_arrays_and_strokes R29, 02_arrays_and_strokes
R36, 02_arrays_and_strokes R37, 03_numerics_and_output_assembly R62, 09_dependability R225, 09_dependability R226,
09_dependability R229, 09_dependability R232, 04_accuracy_drift_calibration R86, 04_accuracy_drift_calibration R103,
04_accuracy_drift_calibration R107, 09_dependability R223) -/
def Obligations.ScanEndsSettleTheirStroke : Prop :=
  ∀ (s : State) (k : Fin 256) (m : Fin 17) (dev : List Int), dev.length = 576 → (∀ c, c < 16 → (s.ctx c).swingCmd = none) →
    let a := arrIdx k.val m.val
    ((s.arr a).shots = [] → ∀ dup, exec (.strokeScanEnd k m dev dup) s = .next s)
    ∧ (∀ sh rest, (s.arr a).shots = sh :: rest →
        (sh.warm = true → ∀ dup, ∃ t : State, exec (.strokeScanEnd k m dev dup) s = .next t ∧ t = { s with arrs := t.arrs }
          ∧ (∀ b, b ≠ a → t.arr b = s.arr b) ∧ (t.arr a).shots = rest ∧ (t.arr a).jobs = (s.arr a).jobs
          ∧ (t.arr a).ptr = ((s.arr a).ptr + 56) % 512
          ∧ (t.arr a).satStrokes = (s.arr a).satStrokes ∧ (t.arr a).satCols = (s.arr a).satCols
          ∧ (t.arr a).win.strokes = (if (s.arr a).win.strokes + 1 < 256 then (s.arr a).win.strokes + 1 else 0)
          ∧ (t.arr a).wins.length = (s.arr a).wins.length + (if (s.arr a).win.strokes + 1 < 256 then 0 else 1))
        ∧ (∀ x j pl g y ly, sh.warm = false → s.cmd? sh.ref = some x → x.ended = false →
            s.job? sh.home sh.ref sh.vec sh.split = some j → s.placeOf a sh.plane = some (pl, g, y, ly) →
            (j.acc sh.req.high).fold = sh.req.fold →
            let bow := (s.crew (a / 17)).resv.isSome
            let raw := (List.range 512).map (fun c => rawCode (s.idealCode a sh.plane sh.codes c) (dev.getD c 0))
            let cols := raw.zipIdx.map (fun e => ((s.arr a).atSlot sh).correct e.2 e.1 sh.kap)
            let terms := (j.shotPatches a sh).map (fun e =>
              (peCol e, ((sh.codes.getD (peRow e) 0 : Nat) : Rat) * peDelta ly.cb4 e))
            let mea := measured ly cols (sumQ (terms.map (·.2)))
            let pre := predicted ly sh.codes ((List.range 512).map (fun i =>
              field (Memory.readBytes (s.crew (a / 17)).sram (0x400 * y.rowsPage + 2 * i) 2) 0 2))
            let lim := checkWindow ly sh.kc (s.effSigma a) pre (sumNat sh.codes)
            ((∀ v ∈ raw, v ≠ 1023) → absQ (mea - pre) ≤ f32Q lim → sh.req.isCheck = false →
              (j.accept sh.req cols terms).complete = false → ∃ t : State, exec (.strokeScanEnd k m dev none) s = .next t
                ∧ (t.arr sh.home).jobs = (s.arr sh.home).jobs.map (fun z =>
                    if z.is sh.ref sh.vec sh.split then j.accept sh.req cols terms else z)
                ∧ t.cmds = (s.updCmd sh.ref (fun z => { z with patched := z.patched || z.patchedBy j.slice terms })).cmds
                ∧ t.crews = s.crews ∧ t.ctxs = s.ctxs ∧ t.host = s.host
                ∧ (∀ b, b ≠ a → b ≠ sh.home → t.arr b = s.arr b))
            ∧ (∀ w g' y' z, (∀ v ∈ raw, v ≠ 1023) → absQ (mea - pre) ≤ f32Q lim → sh.req.isCheck = false →
              (j.accept sh.req cols terms).complete = true → x.work = .run w → s.runGen x = some g' →
              s.assignOf g' sh.home = some y' → combAssign g' w.idx j.slice j.rep j.second = some z → w.layer.splits ≠ 1 →
              z.crew = sh.home / 17 ∨ w.layer.cb4 = true → ∃ (t : State) (words : List Nat),
                exec (.strokeScanEnd k m dev none) s = .next t
                ∧ t.parts = s.parts ++ [⟨j.ref, j.second, j.vec, j.split, j.slice, j.rep, words, z.crew, []⟩]
                ∧ (t.arr sh.home).jobs = (s.arr sh.home).jobs.filter (fun q => !q.is sh.ref sh.vec sh.split)
                ∧ t.host = s.host ∧ t.ctxs = s.ctxs
                ∧ (w.layer.cb4 = false → ∀ c v, c < w.layer.sliceCols j.slice →
                    ((j.accept sh.req cols terms).recombine w.layer)[c]? = some v →
                    let e := slice (Memory.readBytes (s.crew (sh.home / 17)).sram (0x400 * y'.sumsPage) (12 * w.layer.cols)) (12 * c) 12
                    let corr : Int := -(((if w.layer.w8 then 17 else 1) + w.layer.zw) * (sumNat (s.jobCodes sh.home j) : Nat))
                      - w.layer.zx * signedOf 32 (seColsum e) + signedOf 32 (seConst e)
                      + roundEven ((j.accept sh.req cols terms).patchTerm c)
                    words[c]? = some (toTwos 64 (signedOf 48 (toTwos 48 (v * 125 + 128 * corr))))))
            ∧ (1023 ∈ raw → ((s.arr a).auto = false ∨ sh.req.isFold = true ∨ sh.req.isCheck = true ∨ 4 ≤ sh.req.fold
                ∨ (bow = true ∧ x.spent sh.vec j.second = true)) → (j.accept sh.req cols terms).complete = false → ∃ t : State,
                exec (.strokeScanEnd k m dev none) s = .next t
                ∧ (t.arr sh.home).jobs = (s.arr sh.home).jobs.map (fun z =>
                    if z.is sh.ref sh.vec sh.split then j.accept sh.req cols terms else z)
                ∧ t.cmds = ((s.updRun sh.ref (RunWork.leaveOut sh.vec)).updCmd sh.ref (fun z => { z with
                    sat := true, patched := z.patched || z.patchedBy j.slice terms
                    outcome := if sh.req.isCheck then worse z.outcome .okReplayed else z.outcome })).cmds
                ∧ (t.arr a).satStrokes = word (satAdd 32 (s.arr a).satStrokes.toNat 1) ∧ t.crews = s.crews ∧ t.host = s.host)
            ∧ ((∀ v ∈ raw, v ≠ 1023) → ¬ absQ (mea - pre) ≤ f32Q lim → sh.req.isCheck = false →
              ¬ (bow = true ∧ (x.spent sh.vec j.second = true ∨ sh.req.isFold = true)) →
              ∃ t : State, exec (.strokeScanEnd k m dev none) s = .next t
                ∧ (t.arr (s.replayArr sh.home)).replays = (s.arr (s.replayArr sh.home)).replays
                    ++ [⟨sh.home, sh.ref, sh.vec, sh.split, { sh.req with isCheck := true }, [f32Rat mea, f32Rat pre, lim]⟩]
                ∧ t.cmds = ((s.updRun sh.ref (RunWork.spend sh.vec j.second)).updCmd sh.ref (fun z => { z with
                    replays := z.replays + 1 })).cmds ∧ t.host = s.host)
            ∧ ((∀ v ∈ raw, v ≠ 1023) → ¬ absQ (mea - pre) ≤ f32Q lim →
              (sh.req.isCheck = true ∨ (bow = true ∧ (x.spent sh.vec j.second = true ∨ sh.req.isFold = true))) →
              ∃ t : State, exec (.strokeScanEnd k m dev none) s = .next t
                ∧ t.cmds = (s.updCmd sh.ref (fun z => { z with outcome := worse z.outcome .checkFail, ended := true })).cmds
                ∧ (t.crew (a / 17)).chkFails = BitVec.ofNat 16 (satAdd 16 (s.crew (a / 17)).chkFails.toNat 1)
                ∧ t.censusQ = a :: s.censusQ.filter (· ≠ a) ∧ t.host = s.host)
            ∧ (1023 ∈ raw → (s.arr a).auto = true → sh.req.isFold = false → sh.req.isCheck = false → sh.req.fold < 4 →
              ¬ (bow = true ∧ x.spent sh.vec j.second = true) → ∃ t : State, exec (.strokeScanEnd k m dev none) s = .next t
                ∧ (t.arr (s.replayArr sh.home)).replays = ((s.arr (s.replayArr sh.home)).replays.filter (fun p =>
                    !(p.home == sh.home && decide (p.ref = sh.ref) && p.vec == sh.vec && p.split == sh.split
                      && p.req.high == sh.req.high)))
                    ++ (nibReqs sh.req.high (2 * sh.req.fold) true).map (fun q => ⟨sh.home, sh.ref, sh.vec, sh.split, q, []⟩)
                ∧ t.cmds = ((s.updRun sh.ref (RunWork.spend sh.vec j.second)).updCmd sh.ref (fun z => { z with
                    folded := true, replays := z.replays + 1, outcome := worse z.outcome .okReplayed })).cmds
                ∧ (t.arr a).satStrokes = word (satAdd 32 (s.arr a).satStrokes.toNat 1) ∧ t.host = s.host)
            ∧ (∀ col, ∃ t : State, exec (.strokeScanEnd k m dev (some col)) s = .next t ∧ s.sig.seq < t.sig.seq
                ∧ (∀ n, (t.crew n).benched = (s.crew n).benched) ∧ ∀ z ∈ t.cmds, z.ref = sh.ref → z.ended = true)))

/-- O51. Outside SAFE, the oldest complete window joins the windows carried before it. With 512 valid codes, tracking
enabled and not frozen, kappa becomes the quotient of the two sums held within 0.7 to 1.3, T_win the mean temperature
of the window, DRIFT and LIMIT follow from kappa and P(T_win), TRKOUT is set where the fit was outside, and TRK_SIGMA
follows from DRIFT and the present temperature. With fewer codes the window is carried, at most four windows together;
while tracking does not update, it is dropped. The 64 reads of a data column give its gain and offset, held within
their ranges, unless a read was saturated or the range of codes is below 64. The jobs and strokes of the array stay,
and no other array changes. The choices of the model are: DRIFT rounded to nearest even, with LIMIT from the value
before rounding (log entry 101), and no update where a fit has no value (102). (04_accuracy_drift_calibration R86,
04_accuracy_drift_calibration R87, 04_accuracy_drift_calibration R88, 04_accuracy_drift_calibration R89,
04_accuracy_drift_calibration R90, 04_accuracy_drift_calibration R92, 04_accuracy_drift_calibration R96,
04_accuracy_drift_calibration R77) -/
def Obligations.TrackingWindowsUpdateKappa : Prop :=
  (∀ (s : State) (k : Fin 256) (m : Fin 17),
      let a := arrIdx k.val m.val
      ((s.arr a).wins = [] ∨ s.dev.st = .safe → exec (.kappaUpdate k m) s = .next s)
      ∧ (∀ w rest, (s.arr a).wins = w :: rest → s.dev.st ≠ .safe →
          let j := (s.arr a).carry.join w
          ∃ t : State, exec (.kappaUpdate k m) s = .next t ∧ (t.arr a).wins = rest
            ∧ (t.arr a).sigma = f32Rat (sqrtQ (sigmaSq (s.tNow a) (t.arr a).driftPct))
            ∧ (t.arr a).jobs = (s.arr a).jobs ∧ (t.arr a).shots = (s.arr a).shots ∧ (t.arr a).tTrim = (s.arr a).tTrim
            ∧ (∀ b, b ≠ a → t.arr b = s.arr b)
            ∧ t.cmds = s.cmds ∧ t.crews = s.crews ∧ t.ctxs = s.ctxs ∧ t.host = s.host ∧ t.queues = s.queues
            ∧ (s.updating = false → (t.arr a).kappa = (s.arr a).kappa ∧ (t.arr a).drift = (s.arr a).drift
                ∧ (t.arr a).carry = Window.reset)
            ∧ (s.updating = true → (j.valid < 512 ∨ j.sumEE = 0) → (t.arr a).kappa = (s.arr a).kappa
                ∧ (t.arr a).drift = (s.arr a).drift ∧ (t.arr a).carry = if 4 ≤ j.joined then Window.reset else j)
            ∧ (s.updating = true → 512 ≤ j.valid → j.sumEE ≠ 0 →
                let fit := j.sumDE / j.sumEE
                let kap := f32Rat (clampQ kLo kHi fit)
                let pct := (f32Q kap / s.pFactor a ((j.tSum : Rat) / (16 * ((max 1 j.tCnt : Nat) : Rat))) - 1) * 100
                (t.arr a).kappa = kap ∧ (t.arr a).tWinSum = j.tSum ∧ (t.arr a).tWinCnt = max 1 j.tCnt
                ∧ (t.arr a).carry = Window.reset ∧ (t.arr a).kUpdates = (s.arr a).kUpdates + 1
                ∧ (t.arr a).drift = BitVec.ofInt 32 (roundEven (pct * 1000)) ∧ (t.arr a).limit = decide (19 / 10 ≤ absQ pct)
                ∧ (t.arr a).trkOut = ((s.arr a).trkOut || decide (fit < kLo ∨ kHi < fit)))))
  ∧ (∀ (s : State) (k : Fin 256) (m : Fin 17) (col : Fin 512),
      let a := arrIdx k.val m.val
      ((s.arr a).fits.find? (fun e => e.1 == col.val) = none ∨ s.dev.st = .safe → exec (.columnTrackFit k m col) s = .next s)
      ∧ (∀ n c, (s.arr a).fits.find? (fun e => e.1 == col.val) = some (n, c) → s.dev.st ≠ .safe →
          let den := (c.n : Rat) * c.sdd - c.sd * c.sd
          let gain := ((c.n : Rat) * c.sdl - c.sd * c.sl) / den
          let ofs := c.sd / (c.n : Rat) - c.sl / ((c.n : Rat) * gain)
          ∃ t : State, exec (.columnTrackFit k m col) s = .next t
            ∧ (t.arr a).fits = (s.arr a).fits.eraseP (fun e => e.1 == col.val)
            ∧ (t.arr a).kappa = (s.arr a).kappa ∧ (t.arr a).jobs = (s.arr a).jobs
            ∧ (∀ b, b ≠ a → t.arr b = s.arr b) ∧ (∀ j, j ≠ col.val → (t.arr a).tTrim.get trimDflt j = (s.arr a).tTrim.get trimDflt j)
            ∧ t.cmds = s.cmds ∧ t.crews = s.crews ∧ t.ctxs = s.ctxs ∧ t.host = s.host ∧ t.queues = s.queues
            ∧ (s.updating = false ∨ c.bad = true ∨ c.lmax - c.lmin < 64 ∨ den = 0 → (t.arr a).tTrim = (s.arr a).tTrim)
            ∧ (s.updating = true → c.bad = false → ¬ c.lmax - c.lmin < 64 → den ≠ 0 → gain ≠ 0 →
                (t.arr a).tTrim.get trimDflt col.val = (BitVec.ofInt 16 (clampInt (-128) 128 (roundEven (ofs * 16))),
                    BitVec.ofInt 16 (clampInt 31458 34078 (roundEven (gain * 32768))))
                ∧ ((t.arr a).cols.get colDflt col.val).fitted = true
                ∧ (t.arr a).trkOut = ((s.arr a).trkOut || decide (gain < 96 / 100 ∨ 104 / 100 < gain)
                    || decide (ofs < -8 ∨ 8 < ofs)))))

/-- O52. With no swing in progress. The next tile of a RUN for a crew arrives where the command runs, the crew serves, the
device is ACTIVE, the inputs are there, the tile pages take it and the die buffer its T3 tile; else nothing changes.
Where the T3 tile is read from HBM its tokens are drawn, and while they are short nothing else happens. Where every
array that shares it is bound to the stamp of the command and the block headers are those of the layer, every vector
of it is held in the crew, every such array has one job for it, in ascending order, and its headers are compared. An
array bound to something else ends the command with PARITY and one signature; an array of the context whose ground
plane is newer ends it with CHECK_FAIL and one signature, a wrong header with BAD_PARAM; a parity error in the tile,
or one that its read meets in HBM, ends it too. (03_numerics_and_output_assembly R66, 05_crews_tiling_dataflow R118,
05_crews_tiling_dataflow R119, 05_crews_tiling_dataflow R124, 05_crews_tiling_dataflow R120, 09_dependability R223,
12_clocks_resets_power_boot R302, 12_clocks_resets_power_boot R304) -/
def Obligations.TilesReachTheirCrew : Prop :=
  ∀ (s : State) (r : CmdRef) (k : Fin 256) (x : Cmd) (w : RunWork) (g : Generation), (∀ c, c < 16 → (s.ctx c).swingCmd = none) →
    s.cmd? r = some x → x.work = .run w → s.runGen x = some g →
    (w.toSend.find? (fun t => t.crew == k.val) = none → ∀ err, exec (.tileArrival r k err) s = .next s)
    ∧ (∀ tl, w.toSend.find? (fun t => t.crew == k.val) = some tl →
        (x.ended = true ∨ (s.crew k.val).benched = true ∨ s.dev.st ≠ .active ∨ w.hasInputs tl = false
          ∨ s.tileRoom x w g tl = false ∨ s.t3Room x w g (t3Need g w tl) = false →
          ∀ err, exec (.tileArrival r k err) s = .next s)
        ∧ (x.ended = false → (s.crew k.val).benched = false → s.dev.st = .active → w.hasInputs tl = true →
            s.tileRoom x w g tl = true → s.t3Room x w g (t3Need g w tl) = true →
            let rs := s.tileReads x w g tl
            let d := s.drawHbm (x.pkt.cls == 2) (sumNat (rs.map (·.2)))
            let bad := rs.findSome? (fun e => badIn (s.ctx (ctxOf x.ref.q x.pkt)).bad e.1 e.2)
            let v := { s.stageT3 x w g tl with toSend := w.toSend.erase tl }
            let ys := s.strokeArrs w g k.val tl.split tl.rep
            let codes := fun n : Nat => (((s.splitBlocks x v tl.split n).flatMap (fun b : Nat × Nat × List Nat => b.2.2)).take (w.layer.rows tl.split)
              ++ List.replicate 512 0).take 512
            (d.2 = false → ∀ err, exec (.tileArrival r k err) s = .next d.1)
            ∧ (d.2 = true → bad = none →
              ((∀ y ∈ ys, s.boundTo x y = .ok) → s.headersOk x v tl = true → w.outWait = [] → ∃ (t : State) (u : RunWork),
                exec (.tileArrival r k none) s = .next t
                ∧ t.cmds = (s.updRun r (fun _ => u)).cmds
                ∧ u = { w with toSend := w.toSend.erase tl, t3 := u.t3, unchecked := w.unchecked.filter (· ≠ (tl.first, tl.split)) }
                ∧ (∀ e ∈ u.t3, e ∈ w.t3 ∨ e.2 = s.vectorBytes x w e.1)
                ∧ (t.crew k.val).tiles = (s.crew k.val).tiles ++ ((List.range tl.count).map (· + tl.first)).map (fun n =>
                    { ref := x.ref, gen := x.gen, second := tl.second, split := tl.split, first := tl.first, vec := n, rep := tl.rep
                      codes := codes n, left := ys.map (fun y => s.physArr y.crew y.l % 17) })
                ∧ (∀ a, t.arr a = { s.arr a with jobs := (s.arr a).jobs ++ ((List.range tl.count).map (· + tl.first)).flatMap (fun n =>
                    (ys.filter (fun y => s.physArr y.crew y.l == a)).map (fun y =>
                      jobFor x w.layer n (plSlice (g.man.place y.entry)) tl)) })
                ∧ (∀ n, n ≠ k.val → t.crew n = s.crew n) ∧ t = { d.1 with cmds := t.cmds, crews := t.crews, arrs := t.arrs })
              ∧ ((∃ y ∈ ys, s.boundTo x y = .mismatch) → ∃ t : State, exec (.tileArrival r k none) s = .next t
                  ∧ t.cmds.map (fun z => (z.ref, z.ended, z.outcome))
                    = s.cmds.map (fun z => if z.ref = r then (z.ref, true, worse z.outcome .parity) else (z.ref, z.ended, z.outcome))
                  ∧ t.sig.seq = s.sig.seq + 1 ∧ (∃ loc hdr, hdr.length = 32 ∧ Signed s t 0x05 {
                      ctx := qCtx r.q, tag := some r.tag.toNat, status := some (statusCode .parity), loc := loc, data := hdr }) ∧ t.host = s.host)
              ∧ ((∀ y ∈ ys, s.boundTo x y ≠ .mismatch) → (∃ y ∈ ys, s.boundTo x y = .stale) → ∃ t : State,
                  exec (.tileArrival r k none) s = .next t
                  ∧ t.cmds.map (fun z => (z.ref, z.ended, z.outcome))
                    = s.cmds.map (fun z => if z.ref = r then (z.ref, true, worse z.outcome .checkFail) else (z.ref, z.ended, z.outcome))
                  ∧ (∃ y ∈ ys, Signed s t 0x06 {
                      ctx := qCtx r.q, tag := some r.tag.toNat, status := some (statusCode .checkFail)
                      loc := [crewDie y.crew, y.crew, y.l]
                      data := leBytes 2 x.gen ++ leBytes 2 (bndGen (s.groundBinding (s.physArr y.crew y.l))) }) ∧ t.host = s.host)
              ∧ ((∀ y ∈ ys, s.boundTo x y = .ok) → s.headersOk x v tl = false → ∃ t : State, exec (.tileArrival r k none) s = .next t
                  ∧ t.cmds.map (fun z => (z.ref, z.ended, z.outcome))
                    = s.cmds.map (fun z => if z.ref = r then (z.ref, true, worse z.outcome .badParam) else (z.ref, z.ended, z.outcome))
                  ∧ t.sig = s.sig ∧ t.host = s.host))
            ∧ (d.2 = true → ∀ e err, bad.or err = some e → ∃ t : State,
                exec (.tileArrival r k err) s = .next t ∧ Found s t r e ∧ ∀ z ∈ t.cmds, z.ref = r → z.ended = true)))

/-- O53. A partial that is not on its way changes nothing. One whose split is the next of its slice is added to the sums
of the slice, the first one taken as it is, and the next split that no sum stands for is awaited; one of a later split
is held without being added. The last split of an engine-class layer without replicas, adapter and training, all of
whose block headers have been compared, gives the outputs: the sums times the column scale and the exponent, quantised
to the format of the layer, counted in the statistics slot, stand in host memory at the place of the vector and slice,
and no other byte of host memory has changed; the command has one slice less due, and its progress counter is up by 1.
A parity error in the partial ends the command. That a sum of several splits takes the turn of its lowest is the
choice of the model (log entry 39). (05_crews_tiling_dataflow R129, 05_crews_tiling_dataflow R130,
03_numerics_and_output_assembly R67, 03_numerics_and_output_assembly R68, 03_numerics_and_output_assembly R69,
05_crews_tiling_dataflow R121, 05_crews_tiling_dataflow R138, 09_dependability R223) -/
def Obligations.PartialsAreAddedInOrder : Prop :=
  (∀ (s : State) (r : CmdRef) (sec : Bool) (v sp sl : Nat) (err : Option ParityErr),
      s.parts.find? (fun p => decide (p.ref = r) && p.second == sec && p.vec == v && p.split == sp && p.slice == sl) = none →
      exec (.partialArrival r sec v sp sl err) s = .next s)
  ∧ (∀ (s : State) (p : Part) (x : Cmd) (w : RunWork) (g : Generation) (y : Assign) (e : CombEntry),
      s.parts.find? (fun q => decide (q.ref = p.ref) && q.second == p.second && q.vec == p.vec && q.split == p.split
        && q.slice == p.slice) = some p →
      s.cmd? p.ref = some x → x.work = .run w → s.runGen x = some g → combAssign g w.idx p.slice p.rep p.second = some y →
      e ∈ (s.crew y.crew).comb → e.is p = true → (∀ f ∈ (s.crew y.crew).comb, f.is p = true → f = e) →
      (s.crew y.crew).combVecs.any (fun f => f.is p) = true → w.layer.splits ≠ 1 →
      let ev := Instr.partialArrival p.ref p.second p.vec p.split p.slice none
      let sums := List.zipWith (addWord w.layer.cb4 (e.next == 0)) e.sums p.words
      let ahead := e.ahead ++ p.more
      let nx := nextSplit ahead ahead.length (e.next + 1)
      (p.split = e.next → e.held = [] → nx < w.layer.splits → ∃ t : State, exec ev s = .next t
        ∧ (t.crew y.crew).comb = (s.crew y.crew).comb.map (fun f => if f.is p then { e with next := nx, sums := sums, ahead := ahead } else f)
        ∧ (∀ n, n ≠ y.crew → t.crew n = s.crew n) ∧ t.parts = s.parts.erase p
        ∧ t = { s with crews := t.crews, parts := t.parts })
      ∧ (e.next < p.split → p.split < w.layer.splits → (∀ q ∈ e.held, q.split ≠ e.next) → ∃ t : State, exec ev s = .next t
        ∧ (t.crew y.crew).comb = (s.crew y.crew).comb.map (fun f => if f.is p then { e with held := e.held ++ [p] } else f)
        ∧ (∀ n, n ≠ y.crew → t.crew n = s.crew n) ∧ t.parts = s.parts.erase p
        ∧ t = { s with crews := t.crews, parts := t.parts })
      ∧ (p.split = e.next → e.held = [] → w.layer.splits ≤ nx → w.adapter = false → w.deltas = [] → w.trim = none → w.unchecked = [] →
          w.layer.isBow = false → w.layer.nrep ≤ 1 → p.second = false → Memory.wf s.host →
          s.addrDev x.pkt.resultAddr = s.self → ∀ a, s.localAddr x.pkt.resultAddr = some (.host a) →
          let ys := sums.zipIdx.map (fun q =>
            outValue w.layer q.1 (seScale ((s.crew y.crew).sumsEntry y.sumsPage q.2)) none)
          let bs := outBlock w.layer ((outCodes w.layer ys).map (·.1))
          let at' := a + p.vec * w.layer.outBytes + w.layer.sliceOfs p.slice
          ∃ t : State, exec ev s = .next t ∧ Memory.readBytes t.host at' bs.length = bs
            ∧ (∀ b, b < at' ∨ at' + bs.length ≤ b → Memory.read t.host b = Memory.read s.host b)
            ∧ (t.crew y.crew).comb = (s.crew y.crew).comb.filter (fun f => !f.is p)
            ∧ (∀ n, n ≠ y.crew → t.crew n = s.crew n)
            ∧ t.cmds = ((s.updCmd p.ref (fun z => { z with written := z.written + bs.length })).updRun p.ref
                (fun z => { z with due := z.due - 1 })).cmds
            ∧ t.ctxs = (s.countConv (ctxOf p.ref.q x.pkt) w.layer ys (outCodes w.layer ys)).ctxs
            ∧ t.counters = (s.bump w.counter).counters
            ∧ t = { s with
                crews := t.crews, parts := s.parts.erase p, host := t.host, cmds := t.cmds, ctxs := t.ctxs, counters := t.counters }))
  ∧ (∀ (s : State) (p : Part) (e : ParityErr), (∀ c, c < 16 → (s.ctx c).swingCmd = none) →
      s.parts.find? (fun q => decide (q.ref = p.ref) && q.second == p.second && q.vec == p.vec && q.split == p.split
        && q.slice == p.slice) = some p →
      ∃ t : State, exec (.partialArrival p.ref p.second p.vec p.split p.slice (some e)) s = .next t ∧ Found s t p.ref e
        ∧ ∀ z ∈ t.cmds, z.ref = p.ref → z.ended = true)

/-- O54. With no swing in progress. For a replicated RUN that holds a counter slot, a replica that may claim takes the
present NEXT, which goes up by 1 in the slot and nowhere else: below LIMIT it has the tiles of that claim to make, at
LIMIT it stops; a replica that has ended, stopped, lost a crew or still has strokes to issue takes nothing. The first
complete results of a claim set its bit and, once the block headers are compared, go to host memory, every held output
at its vector and slice from RESULT_ADDR on and no other byte, each tile with one count in the progress counter of the
RUN; an error in their flits ends the command and makes a signature; later ones of the same claim set DUP, count in
DUPN, make one signature and are dropped. Once NEXT has reached LIMIT and every replica has drained or lost a crew,
the claims with a clear bit go to replica 0, each with one signature and one count in RECOV. (05_crews_tiling_dataflow
R132, 05_crews_tiling_dataflow R133, 05_crews_tiling_dataflow R134, 05_crews_tiling_dataflow R135,
05_crews_tiling_dataflow R138, 03_numerics_and_output_assembly R66, 10_links_groups_scaling R271, 09_dependability
R223, 09_dependability R234, 09_dependability R240) -/
def Obligations.ClaimsAreTakenOnce : Prop :=
  (∀ (s : State) (r : CmdRef) (rep : Fin 16) (x : Cmd) (w : RunWork) (g : Generation) (home k : Nat),
      (∀ c, c < 16 → (s.ctx c).swingCmd = none) → s.cmd? r = some x → x.work = .run w → s.runGen x = some g →
      w.slot = some (home, k) →
      (x.ended = true ∨ w.layer.nrep ≤ rep.val ∨ rep.val ∈ w.stopped ∨ s.repBenched g w.idx rep.val = true
        ∨ s.repIdle x w g rep.val = false → exec (.claimFetchAdd r rep) s = .next s)
      ∧ (x.ended = false → rep.val < w.layer.nrep → rep.val ∉ w.stopped → s.repBenched g w.idx rep.val = false →
          s.repIdle x w g rep.val = true → Memory.wf (s.crew home).sram →
          let v := s.nextClaim home k
          ∃ t : State, exec (.claimFetchAdd r rep) s = .next t ∧ t.nextClaim home k = (v + 1) % 2 ^ 28
            ∧ (∀ a, a < 0x100 + 16 * k ∨ 0x100 + 16 * k + 4 ≤ a →
                Memory.read (t.crew home).sram a = Memory.read (s.crew home).sram a)
            ∧ t.crew home = { s.crew home with sram := (t.crew home).sram }
            ∧ (∀ n, n ≠ home → t.crew n = s.crew n) ∧ t = { s with crews := t.crews, cmds := t.cmds }
            ∧ (w.limit ≤ v → t.cmds = (s.updRun r (fun w => { w with stopped := w.stopped ++ [rep.val] })).cmds)
            ∧ (v < w.limit → t.cmds = (s.updRun r (fun w => { w with
                claims := w.claims ++ [(rep.val, v)], toSend := w.toSend ++ claimTiles g w rep.val v })).cmds)))
  ∧ (∀ (s : State) (r : CmdRef) (tag : Dword) (x : Cmd) (w : RunWork) (g : Generation) (home k page : Nat),
      (∀ c, c < 16 → (s.ctx c).swingCmd = none) → s.cmd? r = some x → x.work = .run w → s.runGen x = some g →
      w.slot = some (home, k) → g.maps.find? (fun e => e.1 == w.idx) = some (w.idx, page) →
      let rep := tag.toNat / 2 ^ 28
      let n := tag.toNat % 2 ^ 28
      (x.ended = true ∨ (rep, n) ∉ w.claims ∨ w.claimIn g rep n = false → ∀ err, exec (.claimResultsArrival ⟨r, err⟩ tag) s = .next s)
      ∧ (x.ended = false → (rep, n) ∈ w.claims → w.claimIn g rep n = true →
          (∀ a, (∀ e ∈ w.taken, e.1 ≠ n) → w.unchecked = [] → s.addrDev x.pkt.resultAddr = s.self → s.localAddr x.pkt.resultAddr = some (.host a) →
            ∃ (t : State) (d : Cmd) (v : RunWork), exec (.claimResultsArrival ⟨r, none⟩ tag) s = .next t
              ∧ t.claimSet home page n = true ∧ (∀ b, b ≠ 0x400 * page + n / 8 →
                  Memory.read (t.crew home).sram b = Memory.read (s.crew home).sram b)
              ∧ (∀ b, b ≠ home → t.crew b = s.crew b) ∧ t.cmd? r = some d ∧ d.work = .run v
              ∧ v.taken = w.taken ++ [(n, rep)] ∧ v.claims = w.claims.erase (rep, n)
              ∧ v.held = w.held.filter (fun o => !w.ofClaim rep n o) ∧ v.due = w.due - (w.held.filter (w.ofClaim rep n)).length
              ∧ d.written = x.written + ((w.held.filter (w.ofClaim rep n)).map (fun o => o.bytes.length)).foldl (· + ·) 0
              ∧ (∀ j, t.counter j = if w.counter = some j
                  then s.counter j + BitVec.ofNat 32 (w.held.filter (w.ofClaim rep n)).length else s.counter j)
              ∧ (let out := w.held.filter (w.ofClaim rep n)
                 let at' := fun o : OutBlock => a + o.vec * w.layer.outBytes + o.off
                 t.host = out.foldl (fun h o => Memory.writeBytes h (at' o) o.bytes) s.host
                 ∧ (Memory.wf s.host → (∀ o ∈ out, o.off = w.layer.sliceOfs o.slice) →
                    out.Pairwise (fun o q => at' o + o.bytes.length ≤ at' q ∨ at' q + q.bytes.length ≤ at' o) → ∀ o ∈ out,
                    Memory.readBytes t.host (a + o.vec * w.layer.outBytes + w.layer.sliceOfs o.slice) o.bytes.length = o.bytes)
                 ∧ (∀ b, (∀ o ∈ out, b < at' o ∨ at' o + o.bytes.length ≤ b) → Memory.read t.host b = Memory.read s.host b))
              ∧ t = { s with crews := t.crews, cmds := t.cmds, host := t.host, counters := t.counters })
          ∧ (∀ e : ParityErr, ∃ t : State, exec (.claimResultsArrival ⟨r, some e⟩ tag) s = .next t ∧ Found s t r e
              ∧ ∀ z ∈ t.cmds, z.ref = r → z.ended = true)
          ∧ (∀ e, w.taken.find? (fun e => e.1 == n) = some e → ∃ t : State, exec (.claimResultsArrival ⟨r, none⟩ tag) s = .next t
              ∧ (t.crew home).dup = true ∧ (t.crew home).dupn = BitVec.ofNat 8 (satAdd 8 (s.crew home).dupn.toNat 1)
              ∧ Signed s t 0x07 { ctx := qCtx r.q, tag := some r.tag.toNat, loc := [crewDie home, home], data := leBytes 4 (claimTag e.2 n) ++ leBytes 4 (claimTag rep n) }
              ∧ t.host = s.host ∧ t.ctxs = s.ctxs
              ∧ t.cmds = (s.updRun r (fun v => { v with
                  held := v.held.filter (fun o => !v.ofClaim rep n o), claims := v.claims.erase (rep, n) })).cmds)))
  ∧ (∀ (s : State) (r : CmdRef) (x : Cmd) (w : RunWork) (g : Generation) (home k page : Nat),
      s.cmd? r = some x → x.work = .run w → s.runGen x = some g → w.slot = some (home, k) →
      g.maps.find? (fun e => e.1 == w.idx) = some (w.idx, page) →
      let clear := (List.range w.limit).filter (fun i => !s.claimSet home page i && !w.claims.contains (0, i))
      (x.ended = true ∨ s.nextClaim home k < w.limit ∨ clear = [] → exec (.claimRecovery r) s = .next s)
      ∧ (x.ended = false → w.limit ≤ s.nextClaim home k → clear ≠ [] →
          (∀ rep, rep < w.layer.nrep → s.repBenched g w.idx rep = true
            ∨ (rep ∈ w.stopped ∧ ∀ e ∈ w.claims, e.1 ≠ rep)) →
          ∃ (t : State) (d : Cmd) (v : RunWork), exec (.claimRecovery r) s = .next t ∧ t.cmd? r = some d ∧ d.work = .run v
            ∧ v.claims = w.claims ++ clear.map (fun i => (0, i))
            ∧ (t.crew home).recov = BitVec.ofNat 8 (satAdd 8 (s.crew home).recov.toNat clear.length)
            ∧ t.sig.seq = s.sig.seq + clear.length ∧ t.host = s.host ∧ t.ctxs = s.ctxs ∧ t.arrs = s.arrs
            ∧ (∀ n, n ≠ home → t.crew n = s.crew n)))

/-- O55. With no swing in progress. A replica with a claim open is benched, in all its crews, with cause 1 (that every
crew of the replica, and of the twin, is benched is the choice of log entry 61); the crews of a twin whose last block
is missing with cause 3; a crew that serves and has strokes, replays, or verify and maintenance slots waiting with
cause 4. What benching leaves is said by Benches: the crew out of service with its first cause, its work gone, the
commands that needed it ended, the unswung pitches on it aborted. Without an open claim of the replica, for a command
that has ended or has no twin, and for a crew out of service or without work, nothing changes. (09_dependability R233,
09_dependability R234, 09_dependability R235, 06_pitching_weights R152) -/
def Obligations.StalledCrewsAreBenched : Prop :=
  (∀ (s : State) (r : CmdRef) (rep : Fin 16) (x : Cmd) (w : RunWork) (g : Generation),
      (∀ c, c < 16 → (s.ctx c).swingCmd = none) → s.cmd? r = some x → x.work = .run w → s.runGen x = some g →
      (x.ended = true ∨ (∀ e ∈ w.claims, e.1 ≠ rep.val) → exec (.claimWatchdogExpiry r rep) s = .next s)
      ∧ (x.ended = false → (∃ e ∈ w.claims, e.1 = rep.val) → ∃ t : State, exec (.claimWatchdogExpiry r rep) s = .next t
          ∧ Benches s t ((g.assigns.filter (fun y => y.layer == w.idx && plReplica (g.man.place y.entry) == rep.val)).map
              (·.crew)) 1)
      ∧ (x.ended = true ∨ w.layer.isBow = false → exec (.twinAbsentTimeout r) s = .next s)
      ∧ (x.ended = false → w.layer.isBow = true → ∃ t : State, exec (.twinAbsentTimeout r) s = .next t
          ∧ Benches s t ((if w.arr0.length < bowBlocks w.layer then twinCrews g w.idx false else [])
              ++ (if w.arr1.length < bowBlocks w.layer then twinCrews g w.idx true else [])) 3))
  ∧ (∀ (s : State) (k : Fin 256), (∀ c, c < 16 → (s.ctx c).swingCmd = none) →
      (s.crewUp k.val = false ∨ s.crewWaiting k.val = false → exec (.sequencerStallTimeout k) s = .next s)
      ∧ (s.crewUp k.val = true → s.crewWaiting k.val = true → ∃ t : State, exec (.sequencerStallTimeout k) s = .next t
          ∧ Benches s t [k.val] 4))

/-- O56. The access engine fetches the tiles that the first unfetched descriptor, of at most 64 ahead of the execute
engine, still needs, where the staging memories hold them, its counter has reached the threshold, the engine serves
its context, its input is there, its die has power, the device is ACTIVE and the tokens are granted; the tiles stand
in its staging memory, the shared one also in that of every engine of the work that it is multicast to, each due to
read it. The execute engine makes the next burst of the descriptor it has started, else of the next fetched one,
engine class before stern class: its registers then hold a block of each operand, and the whole of a resident one. An
error ends the command, one of residue counts. After its last burst a descriptor leaves the ring, frees the tiles it
is the last to read, and raises its counter by 1; the last part of the correction of an adapter gives it to the slice
that waits, whose corrected outputs go to host memory where RESULT_ADDR says (R279); the last part of a bivouac-tier
layer puts the result there. A descriptor whose result goes to working space waits while the pool takes no transfer. A
completed write to HBM raises its counter. Nothing else changes, and where a condition fails nothing does. The plan of
a layer, the counters given to commands and the bursts of a layer are choices of the model (log entries 17, 49, 50);
which rows wait is said by rowOf. (05_crews_tiling_dataflow R119, 05_crews_tiling_dataflow R131,
05_crews_tiling_dataflow R137, 05_crews_tiling_dataflow R138, 05_crews_tiling_dataflow R140, 05_crews_tiling_dataflow
R139, 12_clocks_resets_power_boot R302, 12_clocks_resets_power_boot R304, 09_dependability R223, 13_register_map R333,
01_device_overview R14, 11_retrim_on_device_training R279) -/
def Obligations.VectorEnginesRunTheirRing : Prop :=
  (∀ (s : State) (v : Fin 32) (d : Desc) (i : Nat) (x : Cmd) (w : RunWork) (g : Generation),
      (s.ve v.val).ring.zipIdx.find? (fun e => !e.1.fetched) = some (d, i) →
      s.cmd? d.ref = some x → x.work = .run w → s.runGen x = some g → w.shape.ves.Nodup →
      let own := s.ownFor v.val d x w
      let inp := s.inputFor v.val d x w g
      let tile (shared : Bool) (num : Nat × Nat) (bs : List Byte) : List Staged := if bs = [] then [] else [⟨d.ref, shared, num, bs⟩]
      let kept (u : Nat) : List Staged := if (s.ve u).ctx = d.ctx then (s.ve u).tiles else []
      let may : Prop := s.dev.st = .active ∧ diePowered s.env.env (v.val / 8) = true ∧ (s.ve v.val).inReach d = true ∧ s.counterMet d = true
        ∧ (s.ve v.val).mayServe d = true ∧ w.inputThere d.op = true
        ∧ (s.ve v.val).stagingUsed + own.bytes.length + inp.bytes.length ≤ 2 ^ 20
        ∧ ∀ u ∈ s.siblings v.val w inp, s.mayReceive d inp.bytes.length u = true
      let r := s.drawHbm d.stern (own.drawn + inp.drawn)
      (¬may → ∀ err, exec (.veFetchStart ⟨v, err⟩) s = .next s)
      ∧ (may → r.2 = false → ∀ err, exec (.veFetchStart ⟨v, err⟩) s = .next r.1)
      ∧ (may → r.2 = true → s.tileErr d.ctx g own = none → s.tileErr d.ctx g inp = none → ∃ t : State,
          exec (.veFetchStart ⟨v, none⟩) s = .next t ∧ (t.ve v.val).ctx = d.ctx
          ∧ (t.ve v.val).ring = (s.ve v.val).ring.set i { d with fetched := true }
          ∧ (t.ve v.val).tiles = kept v.val ++ tile false d.own own.bytes ++ tile true d.inp inp.bytes
          ∧ (t.ve v.val).regs = (if (s.ve v.val).ctx = d.ctx then (s.ve v.val).regs else [])
          ∧ (t.ve v.val).tail = (s.ve v.val).tail ∧ (t.ve v.val).writes = (s.ve v.val).writes
          ∧ (∀ u ∈ s.siblings v.val w inp, (t.ve u).ring = (s.ve u).ring ∧ (t.ve u).ctx = d.ctx
              ∧ (t.ve u).tiles = kept u ++ tile true d.inp inp.bytes)
          ∧ (∀ u, u ≠ v.val → u ∉ s.siblings v.val w inp → t.ve u = s.ve u)
          ∧ t = { r.1 with ves := t.ves })
      ∧ (may → r.2 = true → ∀ err e, ((s.tileErr d.ctx g own).or (s.tileErr d.ctx g inp)).or err = some e → ∃ t : State,
          exec (.veFetchStart ⟨v, err⟩) s = .next t ∧ Found s t d.ref e ∧ ∀ z ∈ t.cmds, z.ref = d.ref → z.ended = true))
  ∧ (∀ (s : State) (v : Fin 32), (∀ d ∈ (s.ve v.val).ring, d.fetched = true) → ∀ err, exec (.veFetchStart ⟨v, err⟩) s = .next s)
  ∧ (∀ (s : State) (v : Fin 32),
      let cur := ((s.ve v.val).ring.zipIdx.find? (fun e => e.1.started)).or (s.ve v.val).next
      (cur = none → ∀ err, exec (.veDescriptorExecute v err) s = .next s)
      ∧ (∀ d i, cur = some (d, i) →
          let g := s.gov.drawPool d.stern 430
          (s.dev.st ≠ .active ∨ diePowered s.env.env (v.val / 8) = false ∨ d.bursts = 0 ∨ s.counterMet d = false → ∀ err, exec (.veDescriptorExecute v err) s = .next s)
          ∧ (s.dev.st = .active → diePowered s.env.env (v.val / 8) = true → d.bursts ≠ 0 → s.counterMet d = true →
              (g.2 = false → ∀ err, exec (.veDescriptorExecute v err) s = .next { s with gov := g.1 })
              ∧ (g.2 = true → (∃ t : State, exec (.veDescriptorExecute v none) s = .next t ∧ t.gov = g.1
                  ∧ (t.ve v.val).ring = (s.ve v.val).ring.set i { d with
                      started := true, done := d.done + 1, bursts := d.bursts - 1 }
                  ∧ (t.ve v.val).regs = (if d.resident = true then (s.ve v.val).ownBytes d
                        else tileBlock d.blk.1 d.done ((s.ve v.val).ownBytes d))
                      ++ tileBlock d.blk.2 d.done ((s.ve v.val).inpBytes d)
                  ∧ (t.ve v.val).tiles = (s.ve v.val).tiles
                  ∧ (∀ u, u ≠ v.val → t.ve u = s.ve u) ∧ t = { s with gov := t.gov, ves := t.ves })
                ∧ ((∀ c, c < 16 → (s.ctx c).swingCmd = none) → ∀ e : ParityErr, crewHop (bitsOf e.hop.toNat 12 4) = false →
                    ∃ t : State, exec (.veDescriptorExecute v (some e)) s = .next t
                      ∧ (bitsOf e.hop.toNat 12 4 = 9 →
                          (t.ve v.val).resErr = BitVec.ofNat 32 (satAdd 32 (s.ve v.val).resErr.toNat 1))
                      ∧ Signed s t 0x01 (parityInfo (if bitsOf e.hop.toNat 12 4 = 9 then
                          ⟨BitVec.ofNat 16 (0x9000 + v.val), d.idx.setWidth 64⟩ else e) (qCtx d.ref.q) (some d.ref.tag.toNat)) ∧ t.host = s.host
                      ∧ t.cmds = (s.updCmd d.ref (fun c => { c with outcome := worse c.outcome .parity, ended := true })).cmds)))))
  ∧ (∀ (s : State) (v : Fin 32), (∀ d ∈ (s.ve v.val).ring, d.started = false ∨ d.bursts ≠ 0) →
      exec (.veDescriptorComplete v) s = .next s)
  ∧ (∀ (s : State) (v : Fin 32) (d : Desc) (i : Nat), Memory.wf s.host → (∀ c, c < 16 → (s.ctx c).swingCmd = none) →
      (∀ y ∈ s.cmds, s.rowOf y.ref = []) →
      (s.ve v.val).ring.zipIdx.find? (fun e => e.1.started && e.1.bursts == 0) = some (d, i) →
      (s.putsHbm d = true → s.hbmOpen d.stern = false → exec (.veDescriptorComplete v) s = .next (s.hbmWait d.stern))
      ∧ (s.putsHbm d = false ∨ s.hbmOpen d.stern = true → ∃ t : State,
        exec (.veDescriptorComplete v) s = .next t ∧ (t.ve v.val).ring = (s.ve v.val).ring.eraseIdx i
        ∧ (t.ve v.val).tiles = (s.ve v.val).tiles.filter (fun y => !(d.release && y.ownOf d) && !(d.freeInp && y.inpOf d))
        ∧ (t.ve v.val).regs = (if d.resident = true ∧ d.release = false then (s.ve v.val).ownBytes d else [])
        ∧ (∀ u, u ≠ v.val → t.ve u = s.ve u)
        ∧ ((∀ k part, d.op ≠ .adapter k part) ∨ d.last = false →
            ∀ j, t.counter j = if d.signal = some j then s.counter j + 1 else s.counter j)
        ∧ (d.last = false → t = { s with ves := t.ves, counters := t.counters })
        ∧ (∀ part, d.last = true → d.op = .train part →
            t = { s with ves := t.ves, counters := t.counters, cmds := (s.updRun d.ref RunWork.trainPart).cmds })
        ∧ (∀ x w g, d.last = true → s.cmd? d.ref = some x → x.work = .run w → s.runGen x = some g →
            (∀ k part, d.op = .adapter k part → regionOf g w.idx ≠ none →
              ((w.veParts ++ [(k, part)]).filter (fun e => e.1 == k)).length < w.shape.ves.length →
              t = { s with ves := t.ves, counters := t.counters,
                           cmds := (s.updRun d.ref (fun w => { w with veParts := w.veParts ++ [(k, part)] })).cmds })
            ∧ (∀ k part lo hdr p y a, d.op = .adapter k part → regionOf g w.idx = some (lo, hdr) →
              w.shape.ves.length ≤ ((w.veParts ++ [(k, part)]).filter (fun e => e.1 == k)).length →
              w.trim = none → w.layer.isBow = false → w.layer.nrep ≤ 1 → w.unchecked = [] →
              w.convWait.filter (fun q => q.vec == k) = [p] → w.deltas.find? (fun e => e.1 == k) = none →
              combAssign g w.idx p.slice p.rep p.second = some y → s.addrDev x.pkt.resultAddr = s.self →
              s.localAddr x.pkt.resultAddr = some (.host a) →
              let delta := s.deltaOf x w g lo k
              let ys := p.words.zipIdx.map (fun q => outValue w.layer q.1 (seScale ((s.crew y.crew).sumsEntry y.sumsPage q.2))
                (some (delta.getD (w.layer.cols * p.slice + q.2) 0)))
              let bs := outBlock w.layer ((outCodes w.layer ys).map (·.1))
              let at' := a + k * w.layer.outBytes + w.layer.sliceOfs p.slice
              let u : RunWork := { w with
                deltas := w.deltas ++ [(k, delta)], convWait := w.convWait.filter (fun q => q.vec != k)
                veParts := (w.veParts ++ [(k, part)]).filter (fun e => e.1 != k) }
              Memory.readBytes t.host at' bs.length = bs
                ∧ (∀ b, b < at' ∨ at' + bs.length ≤ b → Memory.read t.host b = Memory.read s.host b)
                ∧ t.cmds = (((s.updRun d.ref (fun _ => u)).updCmd d.ref (fun c => { c with written := c.written + bs.length })).updRun
                    d.ref (fun z => { z with due := z.due - 1 })).cmds
                ∧ t.ctxs = (s.countConv (ctxOf d.ref.q x.pkt) w.layer ys (outCodes w.layer ys)).ctxs
                ∧ t.counters = ((s.bump d.signal).bump w.counter).counters
                ∧ t = { s with
                    ves := t.ves, counters := t.counters, host := t.host, cmds := t.cmds, ctxs := t.ctxs, free := s.free + 1 })
            ∧ (∀ part, d.op = .layer part → w.veParts.length + 1 < w.shape.ves.length →
              t = { s with ves := t.ves, counters := t.counters,
                           cmds := (s.updRun d.ref (fun w => { w with veParts := w.veParts ++ [(0, part)] })).cmds })
            ∧ (∀ part a, d.op = .layer part → w.shape.ves.length ≤ w.veParts.length + 1 →
              s.addrDev x.pkt.resultAddr = s.self → s.localAddr x.pkt.resultAddr = some (.host a) →
              let out := s.layerOutput x w g
              Memory.readBytes t.host a out.length = out
                ∧ (∀ b, b < a ∨ a + out.length ≤ b → Memory.read t.host b = Memory.read s.host b)
                ∧ t.cmds = ((s.updCmd d.ref (fun c => { c with written := c.written + out.length })).updRun d.ref
                    (fun w => { w with due := w.due - 1 })).cmds
                ∧ t.ctxs = (s.layerStats x w g).ctxs ∧ (t.ve v.val).writes = (s.ve v.val).writes
                ∧ t = { s with ves := t.ves, counters := t.counters, host := t.host, cmds := t.cmds, ctxs := t.ctxs }))))
  ∧ (∀ (s : State) (v : Fin 32), ((s.ve v.val).writes = [] → ∀ err, exec (.aeHbmWriteComplete ⟨v, err⟩) s = .next s)
      ∧ (∀ r k rest, (s.ve v.val).writes = (r, k) :: rest →
          (∃ t : State, exec (.aeHbmWriteComplete ⟨v, none⟩) s = .next t
            ∧ t.ve v.val = { s.ve v.val with writes := rest } ∧ (∀ u, u ≠ v.val → t.ve u = s.ve u)
            ∧ (∀ j, t.counter j = if k = some j then s.counter j + 1 else s.counter j)
            ∧ t = { s with ves := t.ves, counters := t.counters })
          ∧ (∀ e : ParityErr, ∃ t : State, exec (.aeHbmWriteComplete ⟨v, some e⟩) s = .next t ∧ Found s t r e
              ∧ ∀ z ∈ t.cmds, z.ref = r → z.ended = true)))

/-- O57. A port in training comes UP when its peer and system are those of the group table: the held copies that leave on
it are sent, unless its ring is known to be DEGRADED, and a manager whose two ports are UP sends its discovery, which
names this device and of which a copy is held. With another peer PEERBAD is set, the port leaves UP, which DOWNS
counts, and it goes on training. A retry keeps a port that is closed or UP as it is and trains any other. The loss of
an UP port starts training and counts once in DOWNS. Where a port left UP, its ring falls (RingFalls; the notice is
the choice of log entry 89, and what a discovery holds that of log entry 76). A flit that comes in on a closed pair
leaves on the other port of the pair. On a port that is UP every flit is counted: corrected and uncorrectable
codewords, a failed check. A right ACK for this device releases the oldest copy it names, a right RESEND sends it
again, and a flit for another device is relayed to the next hop, where that port carries it, or is lost and counted
where there is no next hop. A port that is down takes nothing. No other port changes. (10_links_groups_scaling R251,
10_links_groups_scaling R253, 10_links_groups_scaling R254, 10_links_groups_scaling R255, 10_links_groups_scaling
R260, 10_links_groups_scaling R262, 10_links_groups_scaling R266, 10_links_groups_scaling R276,
10_links_groups_scaling R277, 12_clocks_resets_power_boot R294) -/
def Obligations.PortsTrainDropAndCount : Prop :=
  (∀ (s : State) (p : Fin 4) (peer : Nat) (sys : Qword),
      let pair := pairOf p.val
      ((s.port p.val).bypass = true ∨ (s.port p.val).training = false → exec (.portTrainingComplete p peer sys) s = .next s)
      ∧ ((s.port p.val).bypass = false → (s.port p.val).training = true → s.peerOk p.val peer sys = true → ∃ t : State,
          exec (.portTrainingComplete p peer sys) s = .next t
          ∧ t.port p.val = { s.port p.val with up := true, training := false } ∧ (∀ k, k ≠ p.val → t.port k = s.port k)
          ∧ t = { s with ports := t.ports, outs := t.outs, group := { s.group with held := t.group.held } }
          ∧ (pair ∈ s.group.fallen → t.outs = s.outs ∧ t.group = s.group)
          ∧ (pair ∉ s.group.fallen →
              let sent := ((s.group.held.filter (fun m => s.hop m.dst == some p.val)).map (fun m =>
                Out.link p.val m.flits)).reverse ++ s.outs
              let discovers : Prop := s.managesPair pair = true
                ∧ (∀ k, pairOf k = pair → k ≠ p.val → k < 4 → (s.port k).up = true)
                ∧ ringOf s.group.rings (s.ringKey pair) ≠ some .up
              let m := s.ctrlMsg (2 * pair + 1) 0 (addrBytes [s.self])
              (discovers → t.outs = .link (2 * pair + 1) m.flits :: sent ∧ t.group.held = s.group.held ++ [m])
              ∧ (¬discovers → t.outs = sent ∧ t.group = s.group)))
      ∧ ((s.port p.val).bypass = false → (s.port p.val).training = true → s.peerOk p.val peer sys = false → ∃ t : State,
          exec (.portTrainingComplete p peer sys) s = .next t
          ∧ t.port p.val = { s.port p.val with
              up := false, training := true, peerBad := true
              downs := BitVec.ofNat 8 (satAdd 8 (s.port p.val).downs.toNat 1) }
          ∧ (∀ k, k ≠ p.val → t.port k = s.port k)
          ∧ t = { s with ports := t.ports, group := t.group, outs := t.outs } ∧ RingFalls s t p.val)
      ∧ ((s.port p.val).bypass = true ∨ (s.port p.val).up = true → exec (.portTrainingRetry p) s = .next s)
      ∧ ((s.port p.val).bypass = false → (s.port p.val).up = false → ∃ t : State, exec (.portTrainingRetry p) s = .next t
          ∧ t.port p.val = { s.port p.val with training := true } ∧ (∀ k, k ≠ p.val → t.port k = s.port k)
          ∧ t = { s with ports := t.ports })
      ∧ ((s.port p.val).up = false → exec (.portLinkLoss p) s = .next s)
      ∧ ((s.port p.val).up = true → ∃ t : State, exec (.portLinkLoss p) s = .next t
          ∧ t.port p.val = { s.port p.val with
              up := false, training := true, downs := BitVec.ofNat 8 (satAdd 8 (s.port p.val).downs.toNat 1) }
          ∧ (∀ k, k ≠ p.val → t.port k = s.port k)
          ∧ t = { s with ports := t.ports, group := t.group, outs := t.outs } ∧ RingFalls s t p.val))
  ∧ (∀ (s : State) (p : Fin 4) (f : Flit),
      ((s.port p.val).bypass = true → ∀ i ∈ [Instr.linkIdleFlit p f, .linkAck p f, .linkResend p f],
          exec i s = .next { s with outs := .link (if p.val % 2 = 0 then p.val + 1 else p.val - 1) [f] :: s.outs })
      ∧ ((s.port p.val).bypass = false → (s.port p.val).up = false →
          ∀ i ∈ [Instr.linkIdleFlit p f, .linkAck p f, .linkResend p f], exec i s = .next s)
      ∧ ((s.port p.val).bypass = false → (s.port p.val).up = true →
          let count : Port := { s.port p.val with
            fecCorr := BitVec.ofNat 32 (satAdd 32 (s.port p.val).fecCorr.toNat f.corr)
            fecUncorr := BitVec.ofNat 32 (satAdd 32 (s.port p.val).fecUncorr.toNat f.uncorr)
            parErr := BitVec.ofNat 32 (satAdd 32 (s.port p.val).parErr.toNat (if flOk f then 0 else 1)) }
          exec (.linkIdleFlit p f) s = .next (s.setPort p.val count)
          ∧ (flOk f = false → exec (.linkAck p f) s = .next (s.setPort p.val count)
              ∧ exec (.linkResend p f) s = .next (s.setPort p.val count))
          ∧ (flOk f = true → flDst f ≠ s.self → ∀ h, s.hop (flDst f) = some h → s.carries h = true →
              exec (.linkAck p f) s = .next { s.setPort p.val count with outs := .flit h f :: s.outs }
              ∧ exec (.linkResend p f) s = .next { s.setPort p.val count with outs := .flit h f :: s.outs })
          ∧ (flOk f = true → flDst f ≠ s.self → ∀ h, s.hop (flDst f) = some h → s.carries h = false →
              exec (.linkAck p f) s = .next (s.setPort p.val count) ∧ exec (.linkResend p f) s = .next (s.setPort p.val count))
          ∧ (flOk f = true → flDst f ≠ s.self → s.hop (flDst f) = none → ∀ i ∈ [Instr.linkAck p f, .linkResend p f],
              ∃ t : State, exec i s = .next t ∧ (∀ k, k ≠ p.val → t.port k = s.port k) ∧ t = { s with ports := t.ports }
                ∧ t.port p.val = { count with
                    parErr := BitVec.ofNat 32 (satAdd 32 (s.port p.val).parErr.toNat 1) })
          ∧ (flOk f = true → flDst f = s.self →
              (flKind f = 5 → exec (.linkAck p f) s = .next { s.setPort p.val count with
                  group := { s.group with held := s.group.held.eraseP (Msg.named f) } })
              ∧ (flKind f = 6 →
                  (∀ m h, s.group.held.find? (Msg.named f) = some m → s.hop m.dst = some h → s.carries h = true →
                    exec (.linkResend p f) s = .next { s.setPort p.val count with outs := .link h m.flits :: s.outs })
                  ∧ (s.group.held.find? (Msg.named f) = none → exec (.linkResend p f) s = .next (s.setPort p.val count))))))

/-- O58. With no swing in progress and no earlier failure of the message. A port that is down takes no message; what comes
in on a closed pair leaves on its other port. Right flits that form one whole message of the kind for this device give
it, and change only the counters of the port; where some failed their checks, the message is missing: nothing answers,
and it fails at its timeout. With a wrong digest one signature is made, the failure is remembered and nothing else
changes. With the right digest an ACK leaves (State.acked), and: a copy of a signature is stored at the top manager;
inputs and contributions join their command; a partial is recorded once; a member executes a command and sends its
status; a discovery gets this device added and goes on, or is judged by the manager that sent it; a poll is answered,
and its answer sets the state of that ring. A message awaited too long, or missing, is requested again the first time;
the second time it ends its command, or the part of its member. Choices of the model, not of the spec: what identifies
a missing message (log 59); data whose command has not come waits unchecked (57); STEP is the vector plus 1 (71); a
ring whose manager was silent stays DEGRADED while it tells UP (63); the notice of a DEGRADED ring (89); the payloads
of CTRL messages (76). (10_links_groups_scaling R252, 10_links_groups_scaling R255, 09_dependability R236,
09_dependability R237, 10_links_groups_scaling R267, 10_links_groups_scaling R271, 10_links_groups_scaling R272,
10_links_groups_scaling R275, 10_links_groups_scaling R266, 10_links_groups_scaling R268, 09_dependability R241,
05_crews_tiling_dataflow R129) -/
def Obligations.MessagesAreCheckedAndTaken : Prop :=
  (∀ (s : State) (p : Fin 4) (fs : List Flit), (∀ c, c < 16 → (s.ctx c).swingCmd = none) →
      ∀ i ∈ [Instr.linkCmdMessage p fs, .linkStatusMessage p fs, .linkDataMessage p fs, .linkPartMessage p fs,
          .linkSigMessage p fs, .linkCtrlMessage p fs],
        ((s.port p.val).bypass = false → (s.port p.val).up = false → exec i s = .next s)
        ∧ ((s.port p.val).bypass = true →
            exec i s = .next { s with outs := .link (if p.val % 2 = 0 then p.val + 1 else p.val - 1) fs :: s.outs }))
  ∧ (∀ (s : State) (p : Fin 4) (f : Flit) (fs gs : List Flit), (s.port p.val).up = true → (s.port p.val).bypass = false →
      (∀ h ∈ gs, flOk h = true → flDst h = s.self) → gs.filter flOk = f :: fs →
      (gs = f :: fs → wholeMsg gs = true → ∃ u : State,
        s.receiveMsg p.val (flKind f) gs = (u, .whole (msgOf f gs)) ∧ u = { s with ports := u.ports })
      ∧ (gs ≠ f :: fs → ∃ u : State,
        s.receiveMsg p.val (flKind f) gs = (u, .torn (msgOf f (f :: fs))) ∧ u = { s with ports := u.ports }))
  ∧ (∀ (s : State) (p : Fin 4) (k : Nat) (gs : List Flit), (s.port p.val).up = true → (s.port p.val).bypass = false →
      gs.filter flOk = [] →
      let seen := gs.filter (fun f => hdrOk f && flDst f == s.self && flKind f == k)
      ∃ u : State, s.receiveMsg p.val k gs = (u, if h : seen = [] then .nothing else .torn (msgOf (seen.head h) []))
        ∧ u = { s with ports := u.ports })
  ∧ (∀ (s u : State) (p : Fin 4) (fs : List Flit) (m : Msg) (k : Nat), (∀ c, c < 16 → (s.ctx c).swingCmd = none) →
      ∀ i, (k, i) ∈ [(1, Instr.linkCmdMessage p fs), (2, .linkStatusMessage p fs),
          (3, .linkDataMessage p fs), (4, .linkPartMessage p fs), (7, .linkSigMessage p fs), (8, .linkCtrlMessage p fs)] →
      let rest := s.group.expects.filter (fun e => !m.same e.msg)
      (s.receiveMsg p.val k fs = (u, .torn m) → exec i s = .next { u with group := { u.group with
          expects := rest ++ [⟨{ m with payload := [] }, u.failedOnce m, true⟩] } })
      ∧ (u.failedOnce m = true → s.receiveMsg p.val k fs = (u, .whole m) → u.digestOk m = false → k = 3 ∨ k = 4 →
          ∀ d, s.msgCmd m = some d → ∃ t : State, exec i s = .next t ∧ t.group.expects = rest ∧ t.host = s.host
            ∧ Signed s t 0x0A (u.failInfo m 0 (some .digestBad))
            ∧ t.cmds = (s.updCmd d.ref (fun x => { x with outcome := worse x.outcome .digestBad, ended := true })).cmds)
      ∧ (u.failedOnce m = false → s.receiveMsg p.val k fs = (u, .whole m) → u.digestOk m = false →
          (k = 3 ∨ k = 4 → s.msgCmd m ≠ none) →
          ∃ t : State, exec i s = .next t ∧ t.group.expects = rest ++ [⟨{ m with payload := [] }, true, false⟩]
            ∧ Signed s t 0x0A (u.failInfo m 0 none) ∧ t.cmds = s.cmds ∧ t.ctxs = s.ctxs ∧ t.crews = s.crews ∧ t.arrs = s.arrs
            ∧ t.host = s.host))
  ∧ (∀ (s u : State) (p : Fin 4) (fs : List Flit) (m : Msg) (k : Nat), (∀ c, c < 16 → (s.ctx c).swingCmd = none) →
      s.receiveMsg p.val k fs = (u, .whole m) → u.failedOnce m = false →
      (s.msgCmd m = none →
          (k = 3 → exec (.linkDataMessage p fs) s = .next { u with group := { u.group with rx := s.group.rx ++ [m] } })
          ∧ (k = 4 → exec (.linkPartMessage p fs) s = .next { u with group := { u.group with rx := s.group.rx ++ [m] } }))
      ∧ (u.digestOk m = true →
          (k = 7 → exec (.linkSigMessage p fs) s = .next (if s.top then (u.acked m).storeCopy m.payload else u.acked m))
          ∧ (k = 2 → s.top = false → exec (.linkStatusMessage p fs) s = .next (u.acked m))
          ∧ (∀ c got sent, k = 3 → s.msgCmd m = some c → c.work = .coll got sent → (∀ e ∈ got, e.1 ≠ m.src) →
              exec (.linkDataMessage p fs) s = .next ((u.acked m).updCmd c.ref (fun d => { d with
                work := .coll (Tbl.put got m.src m.payload) sent })))
          ∧ (∀ c w g, k = 3 → s.msgCmd m = some c → c.work = .run w → s.runGen c = some g →
              let n := (w.fullStep m).step
              n % 65536 = m.step % 65536
              ∧ ((m.src, n) ∉ w.arrived → n ≠ 0 → s.isInput c w m.src n = true → ∃ t : State,
                exec (.linkDataMessage p fs) s = .next t
                ∧ t = { u.acked m with cmds := t.cmds } ∧ t.cmds = (s.updRun c.ref (fun v => { v with
                    arrived := v.arrived ++ [(m.src, n)]
                    inputs := v.inputs ++ [(n - 1, if w.layer.isArray then
                      spreadSplits w.layer (ownSplits g w.idx w.layer) m.payload else m.payload)] })).cmds))
          ∧ (∀ c w g, k = 4 → s.msgCmd m = some c → c.work = .run w → s.runGen c = some g →
              let n := (w.fullStep m).step
              ((m.src, n) ∈ w.arrived ∨ n = 0 ∨ c.ended = true → exec (.linkPartMessage p fs) s = .next (u.acked m))
              ∧ ((m.src, n) ∉ w.arrived → n ≠ 0 → c.ended = false → s.cmd? c.ref = some c →
                  ∃ (t : State) (d : Cmd) (v : RunWork), exec (.linkPartMessage p fs) s = .next t ∧ t.cmd? c.ref = some d
                    ∧ d.work = .run v ∧ (m.src, n) ∈ v.arrived))
          ∧ (k = 1 → (s.member = false ∨ s.top = true) → exec (.linkCmdMessage p fs) s = .next (u.acked m))
          ∧ (k = 1 → s.member = true → s.top = false → (∀ x ∈ s.group.rx, x.ctx ≠ m.ctx ∨ (x.kind ≠ 1 ∧ x.tag ≠ m.tag)) →
              let q := QueueId.fwd (Fin.ofNat 16 m.ctx)
              let pk : Packet := ⟨m.payload.take 64, m.payload.drop 64, none⟩
              (opOf pk.opcode = none → exec (.linkCmdMessage p fs) s
                = .next ((u.acked m).replyGen m.gen q pk .badOpcode 0 0 0))
              ∧ (∀ o f st, opOf pk.opcode = some o → forwardedEff m o = some f → (u.acked m).admission q o pk = some st →
                  exec (.linkCmdMessage p fs) s = .next ((u.acked m).replyGen m.gen q pk st 0 0 0))
              ∧ (∀ o f, opOf pk.opcode = some o → forwardedEff m o = some f → (u.acked m).waitsHbm q o pk = true →
                  exec (.linkCmdMessage p fs) s = .next (((u.acked m).hbmWait (pk.cls == 2)).keepRx m))
              ∧ (opOf pk.opcode = some .ctxOpen → (u.acked m).admission q .ctxOpen pk = none → pk.noAddrs = true →
                  s.env.envSet = true → s.env.trimLoaded = true → ∃ t : State, exec (.linkCmdMessage p fs) s = .next t
                    ∧ t.ctx m.ctx = { Ctx.reset with st := .opened } ∧ (∀ c, c ≠ m.ctx → t.ctx c = s.ctx c)
                    ∧ t.cmds = s.cmds ∧ t.host = s.host ∧ (s.dev.st = .ready → t.dev.st = .active)
                    ∧ t.group.held = s.group.held ++ [mkMsg 2 pk.ctxcls pk.tag.toNat
                        pk.epoch.toNat 0 s.topAddr s.self 0 0 0 s.self (statusEntry pk .ok 0 0 0 0 false)]))
          ∧ (k = 8 → ∃ t : State, exec (.linkCtrlMessage p fs) s = .next t ∧ t.cmds.map (·.ref) ⊆ s.cmds.map (·.ref)
              ∧ (Config.ctrlKind m.payload = 2 → t = (u.acked m).send (mkMsg 8 0 m.tag.toNat 0 0 m.src s.self 1 0 0 s.self
                  (Config.ctrlPayload 3 (leBytes 1 (gCode s.gstate)))))
              ∧ (let g := stateOf (Config.ctrlState m.payload)
                 Config.ctrlKind m.payload = 3 → t = { u.acked m with group := { (u.acked m).group with
                  polls := s.group.polls.erase m.src
                  silent := if g = .up then s.group.silent else s.group.silent.filter (· != m.src)
                  rings := if g = .up ∧ m.src ∈ s.group.silent then s.group.rings else setRing m.src g s.group.rings } })
              ∧ (let pair := pairOf p.val
                 let key := s.ringKey pair
                 let found := Config.ctrlMembers m.payload
                 Config.ctrlKind m.payload = 0 →
                  (found.head? ≠ some s.self →
                    let n := s.ctrlMsg (2 * pair + 1) 0 (addrBytes (found ++ [s.self]))
                    t = { u.acked m with
                      group := { (u.acked m).group with held := (u.acked m).group.held ++ [n] }
                      outs := if s.carries (2 * pair + 1) = true then .link (2 * pair + 1) n.flits :: (u.acked m).outs
                        else (u.acked m).outs })
                  ∧ (found.head? = some s.self → s.managesPair pair = true → pair ∉ s.group.fallen →
                    ringOf s.group.rings key ≠ some .up →
                    (found = s.ringOrder pair → t = { u.acked m with group := { (u.acked m).group with
                      rings := setRing key .up s.group.rings } })
                    ∧ (found ≠ s.ringOrder pair → t = { u.acked m with group := { (u.acked m).group with
                      fallen := s.group.fallen ++ [pair], rings := setRing key .degraded s.group.rings } })))
              ∧ (Config.ctrlKind m.payload = 6 → RingFalls (u.acked m) t p.val)
              ∧ (Config.ctrlKind m.payload = 1 ∨ 6 < Config.ctrlKind m.payload → t = u.acked m))))
  ∧ (∀ (s : State) (c : Fin 16) (tag : BitVec 16) (src step : Nat), (∀ k, k < 16 → (s.ctx k).swingCmd = none) →
      (s.expects? c.val tag src step = none → s.awaits c.val tag src step = false →
          exec (.messageTimeout c tag src step) s = .next s)
      ∧ (∀ (n : Msg) (why : Nat) (st : Status),
          (s.expects? c.val tag src step = none ∧ s.awaits c.val tag src step = true ∧ n = s.missing c.val tag src step
              ∧ why = 2 ∧ st = .timeout)
            ∨ (∃ f torn, s.expects? c.val tag src step = some ⟨n, f, torn⟩
                ∧ ((torn = true ∧ s.contributes n ∧ why = 1 ∧ st = .digestBad)
                  ∨ (¬ (torn = true ∧ s.contributes n) ∧ why = 2 ∧ st = .timeout))) →
          let rest := s.group.expects.filter (fun e => !n.same e.msg)
          (s.failedOnce n = false → ∃ t : State, exec (.messageTimeout c tag src step) s = .next t
            ∧ t.group.expects = rest ++ [⟨{ n with payload := [] }, true, false⟩]
            ∧ Signed s t 0x0A (s.failInfo n why none) ∧ t.cmds = s.cmds ∧ t.ctxs = s.ctxs ∧ t.host = s.host)
          ∧ (s.failedOnce n = true → ∃ t : State, exec (.messageTimeout c tag src step) s = .next t
            ∧ (n.kind = 7 → t.group.expects = rest ∧ t.cmds = s.cmds ∧ t.host = s.host ∧ t.ctxs = s.ctxs
                ∧ ∃ v, Signed s v 0x0A (s.failInfo n why none) ∧ t.sig = { v.sig with lost := v.sig.lost + 1 })
            ∧ (n.kind = 3 ∨ n.kind = 4 → ∀ d, s.msgCmd n = some d →
                t.cmds = (s.updCmd d.ref (fun x => { x with outcome := worse x.outcome st, ended := true })).cmds
                ∧ t.group.expects = rest ∧ Signed s t 0x0A (s.failInfo n why (some st)) ∧ t.host = s.host)
            ∧ (n.kind = 2 → ∀ d, s.cmds.find? (fun d => decide (d.ref.tag = n.tag)
                && ctxOf d.ref.q d.pkt == n.ctx && d.parts.contains n.src) = some d → s.cmd? d.ref = some d → d.localEnd = none →
                t.cmds = (s.updCmd d.ref (fun x => { x with
                  parts := x.parts.erase n.src, merged := Tbl.put x.merged n.src (statusEntry x.pkt st 0 0 0 0 false) })).cmds
                ∧ Signed s t 0x0A (s.failInfo n why (some st)) ∧ t.host = s.host ∧ t.ctxs = s.ctxs)
            ∧ (n.kind = 8 → ∀ d answers missing, s.cmds.filter (fun d => decide (d.ref.tag = n.tag)
                && (match d.work with | .groupStatus _ missing => missing.contains n.src | _ => false)) = [d] →
                d.work = .groupStatus answers missing → missing.erase n.src ≠ [] → (∀ y ∈ s.cmds, y.ref = d.ref → y = d) →
                t.cmds = (s.updCmd d.ref (fun x => { x with
                  work := .groupStatus (Tbl.put answers n.src (silentRecord n.src)) (missing.erase n.src) })).cmds
                ∧ Signed s t 0x0A (s.failInfo n why (some st)) ∧ t.host = s.host ∧ t.ctxs = s.ctxs)
            ∧ (n.kind ∉ [2, 3, 4, 7, 8] → t.cmds = s.cmds ∧ t.group.expects = rest ∧ t.host = s.host ∧ t.ctxs = s.ctxs))))

/-- O59. At the top manager of a group that is UP, a CTX_OPEN that passes the checks waits with the result of this part: a
CMD message with its packet goes to every other member and is held until its ACK; no context changes and no status is
written. With no swing in progress, a STATUS message of a member takes that member from the parts that are missing and
keeps its status entry. The last part of a CTX_OPEN that has succeeded everywhere opens the context here, makes a
READY device ACTIVE and writes the status OK with the results of this part and the modifiers of all parts; one that
failed before execution gives the command its status and opens nothing. When the parts of other commands are undone,
and which results a merged status holds where the spec leaves it, are choices of the model (log entries 52 and 56).
(10_links_groups_scaling R267, 10_links_groups_scaling R253, 10_links_groups_scaling R268, 07_commands_queues_states
R176) -/
def Obligations.ForwardedCommandsWaitForTheirMembers : Prop :=
  (∀ (s : State) (q : QueueId) (p : Packet), Presents s q .ctxOpen p → p.noAddrs = true → s.env.envSet = true →
      s.env.trimLoaded = true → s.parties q .ctxOpen ≠ [] → ∃ t : State, exec (.ctxOpen q) s = .next t
        ∧ t.ctxs = s.ctxs ∧ t.dev = s.dev
        ∧ t.cmds = s.cmds ++ [{ mkCmd s q p true .plain with parts := s.parties q .ctxOpen, localEnd := some (.ok, 0, 0) }]
        ∧ t.group.held = s.group.held ++ (s.parties q .ctxOpen).map (fun d =>
            mkMsg 1 p.ctxcls p.tag.toNat p.epoch.toNat 0 d s.self 0 0 0 s.self p.bytes)
        ∧ t.host = s.host ∧ t.seq = s.seq + 1)
  ∧ (∀ (s u : State) (p : Fin 4) (fs : List Flit) (m : Msg) (d : Cmd), (∀ c, c < 16 → (s.ctx c).swingCmd = none) →
      s.top = true → s.receiveMsg p.val 2 fs = (u, .whole m) → u.digestOk m = true →
      u.failedOnce m = false →
      s.cmds.find? (fun d => decide (d.ref.tag = m.tag) && ctxOf d.ref.q d.pkt == m.ctx && d.parts.contains m.src
        && d.pkt.opcode == field m.payload 6 1) = some d → s.cmd? d.ref = some d →
      (d.localEnd = none ∨ d.parts.erase m.src ≠ [] → exec (.linkStatusMessage p fs) s
          = .next ((u.acked m).updCmd d.ref (fun x => { x with
              parts := x.parts.erase m.src, merged := Tbl.put x.merged m.src (m.payload.take 16) })))
      ∧ (∀ r0 r1, d.parts = [m.src] → d.localEnd = some (.ok, r0, r1) → d.merged = [] → d.pkt.opcode = 0x08 →
          d.ref.q.isRing = true → Memory.wf s.host →
          let st := statusOf (field (m.payload.take 16) 2 1)
          (st = .ok → ∃ t v : State, exec (.linkStatusMessage p fs) s = .next t
            ∧ Answered v t d.ref.q d.pkt .ok
                (modBits d.sat d.folded d.patched ||| bitsOf (field (m.payload.take 16) 3 1) 0 3) r0 r1
            ∧ v.cmds = s.cmds.filter (fun x => x.ref ≠ d.ref) ∧ v.host = s.host ∧ v.arrs = s.arrs
            ∧ v.ctx (ctxOf d.ref.q d.pkt) = { Ctx.reset with st := .opened }
            ∧ (∀ c, c ≠ ctxOf d.ref.q d.pkt → v.ctx c = s.ctx c)
            ∧ v.dev = { s.dev with st := if s.dev.st = .ready then .active else s.dev.st })
          ∧ (statusRank st = 0 → ∃ t v : State, exec (.linkStatusMessage p fs) s = .next t
            ∧ Answered v t d.ref.q d.pkt st 0 r0 r1
            ∧ v.cmds = s.cmds.filter (fun x => x.ref ≠ d.ref) ∧ v.host = s.host ∧ v.arrs = s.arrs ∧ v.ctxs = s.ctxs
            ∧ v.dev = s.dev)))

/-- O60. A GROUP_CONFIG with a right table of 4,160 bytes, which has the POSITION, the levels and a number of devices that
it allows, makes the device a member with the system identity, the number of devices, the depth and the next hops of
the table, its rings FORMING but for one that is DEGRADED (the choice of log entries 63 and 89), opens the bypasses of
the pairs in use and answers OK; with length 0 it leaves the group, with POSITION 0 and the bypasses closed; a wrong
length or table answers BAD_PARAM, and E1 answers STATE, alone. A GROUP_STATUS of a device that reports itself alone
writes its summary and record and answers OK with 64; with others to ask it waits, with this record, and writes
nothing. A device that does not answer is reported with state 0xF; the last answer ends the command. The top manager
polls every manager of a ring; a poll not answered makes its ring DEGRADED. (10_links_groups_scaling R262,
10_links_groups_scaling R264, 10_links_groups_scaling R265, 10_links_groups_scaling R266, 10_links_groups_scaling
R274) -/
def Obligations.GroupTablesStatusAndPolls : Prop :=
  (∀ (s : State) (q : QueueId) (p : Packet) (a : Nat), Presents s q .groupConfig p → p.hostData = some a →
      let u := s.popFetched q
      let bs := Memory.readBytes s.host a 4160
      (p.length ≠ 0 → p.length ≠ 4160 → ∃ t, exec (.groupConfig q) s = .next t ∧ Answered u t q p .badParam 0 0 0)
      ∧ (p.length = 0 ∨ p.length = 4160 → s.env.env = 1 → ∃ t, exec (.groupConfig q) s = .next t
          ∧ Answered u t q p .state 0 0 0)
      ∧ (p.length = 0 → s.env.env ≠ 1 → ∃ t m, exec (.groupConfig q) s = .next t ∧ Answered m t q p .ok 0 0 0
          ∧ m.group = Group.reset ∧ m.env = { s.env with position := 0 } ∧ (∀ k, k < 4 → m.port k = (s.port k).close)
          ∧ m = { u with group := m.group, env := m.env, ports := m.ports })
      ∧ (p.length = 4160 → s.env.env ≠ 1 → s.tableOk bs = false → ∃ t, exec (.groupConfig q) s = .next t
          ∧ Answered u t q p .badParam 0 0 0)
      ∧ (s.tableOk bs = true → field bs 4 4 = s.env.position.toNat ∧ field bs 2 1 = posDepth s.env.position + 1
          ∧ posBlevel s.env.position ≤ posDepth s.env.position ∧ tableEntry bs s.self = 0xFE
          ∧ posAsize s.env.position + 1 ≤ field bs 0 2 ∧ 2 ≤ field bs 0 2 ∧ field bs 0 2 ≤ 512)
      ∧ (p.length = 4160 → s.env.env ≠ 1 → s.tableOk bs = true → ∃ t m, exec (.groupConfig q) s = .next t
          ∧ Answered m t q p .ok 0 0 0 ∧ m.group.configured = true ∧ m.group.sysId = BitVec.ofNat 64 (field bs 8 8)
          ∧ m.group.devices = field bs 0 2 ∧ m.group.depth = field bs 2 1 ∧ m.group.polls = [] ∧ m.group.held = []
          ∧ (∀ d, d < 4096 → m.group.nexthop.get hopDflt d = BitVec.ofNat 8 (tableEntry bs d))
          ∧ (∀ e ∈ m.group.rings, e.2 = .forming
              ∨ (e.2 = .degraded ∧ ringOf s.group.rings e.1 = some .degraded))
          ∧ m.group.silent = s.group.silent
          ∧ (∀ k, k < 4 → m.port k = if k < 2 ∨ posBlevel s.env.position ≠ 0 then (s.port k).openBypass else (s.port k).close)
          ∧ m = { u with group := m.group, ports := m.ports }))
  ∧ (∀ (s : State) (q : QueueId) (p : Packet) (a : Nat), Presents s q .groupStatus p → p.hostResult = some a →
      let others := s.subtree.filter (· ≠ s.self)
      let cmd := mkCmd s q p false (.groupStatus [(s.self, s.record)] others)
      let u := (s.popFetched q).enrol cmd
      (p.length < 32 + 32 * s.subtree.length → ∃ t, exec (.groupStatus q) s = .next t
        ∧ Answered (s.popFetched q) t q p .badParam 0 0 0)
      ∧ (32 + 32 * s.subtree.length ≤ p.length → others = [] → ∃ t, exec (.groupStatus q) s = .next t
          ∧ Ends { u.writeHost a (s.report [(s.self, s.record)]) with free := s.free + 1 } t cmd .ok 64 0)
      ∧ (32 + 32 * s.subtree.length ≤ p.length → others ≠ [] → ∃ t : State, exec (.groupStatus q) s = .next t
          ∧ t = { u with outs := t.outs, group := { s.group with held := t.group.held } }))
  ∧ (∀ (s : State) (r : CmdRef) (d : Nat) (x : Cmd) (answers : List (Nat × List Byte)) (missing : List Nat) (a : Nat),
      Memory.wf s.host → s.cmd? r = some x → (∀ y ∈ s.cmds, y.ref = r → y = x) → x.work = .groupStatus answers missing →
      x.pkt.hostResult = some a → x.lone → d ∈ missing →
      let z := { x with work := .groupStatus (Tbl.put answers d (silentRecord d)) (missing.erase d) }
      let u := { s with cmds := s.cmds.map (fun y => if y.ref = r then z else y) }
      (missing.erase d ≠ [] → exec (.groupStatusAnswerTimeout r d) s = .next u)
      ∧ (missing.erase d = [] → ∃ t, exec (.groupStatusAnswerTimeout r d) s = .next t
          ∧ Ends { u.writeHost a (s.report (Tbl.put answers d (silentRecord d))) with free := s.free + 1 } t z .ok
              (s.report (Tbl.put answers d (silentRecord d))).length 0))
  ∧ (∀ (s : State) (r : CmdRef) (d : Nat), s.cmd? r = none → exec (.groupStatusAnswerTimeout r d) s = .next s)
  ∧ (∀ s : State, (s.top = false → exec .groupPoll s = .next s)
      ∧ (s.top = true → ∃ t : State, exec .groupPoll s = .next t ∧ (∀ d ∈ s.managers, d ∈ t.group.polls)
          ∧ (∀ d ∈ s.group.polls, d ∈ t.group.polls)
          ∧ t = { s with group := { s.group with polls := t.group.polls, held := t.group.held }, outs := t.outs }))
  ∧ (∀ (s : State) (mgr : Nat),
      (mgr ∉ s.group.polls → exec (.groupPollTimeout mgr) s = .next s)
      ∧ (mgr ∈ s.group.polls → ∃ t : State, exec (.groupPollTimeout mgr) s = .next t
          ∧ t.group.polls = s.group.polls.erase mgr ∧ (∀ e ∈ t.group.rings, e.1 = mgr → e.2 = .degraded)
          ∧ (∀ k, k ≠ mgr → ringOf t.group.rings k = ringOf s.group.rings k)
          ∧ t.group.silent = mgr :: s.group.silent
          ∧ t = { s with group := { s.group with
              polls := t.group.polls, rings := t.group.rings, silent := t.group.silent } }))
end

