-- ==== Sys2Proof/Laws/Tables.lean ====
section
/-! SUPPORT. The laws of sparse tables and of byte memories: a read after a write, and that every operation keeps the canonical
form. -/
namespace Sys2Proof.Machine

variable {α : Type}

/-! ## Tables: reads -/

@[simp] theorem Tbl.find?_nil (k : Nat) : Tbl.find? ([] : Tbl α) k = none := rfl

@[simp] theorem Tbl.get_nil (d : Nat → α) (k : Nat) : Tbl.get d [] k = d k := rfl

theorem Tbl.find?_put_same (t : Tbl α) (k : Nat) (v : α) : Tbl.find? (Tbl.put t k v) k = some v := by
  induction t with
  | nil => simp [Tbl.put, Tbl.find?]
  | cons e t ih =>
    obtain ⟨k', v'⟩ := e
    simp only [Tbl.put]
    split
    · simp [Tbl.find?]
    · split
      · simp [Tbl.find?]
      · rename_i h
        have : ¬ k' = k := fun e => h e.symm
        simp [Tbl.find?, this, ih]

theorem Tbl.find?_put_other (t : Tbl α) (k j : Nat) (v : α) (h : j ≠ k) : Tbl.find? (Tbl.put t k v) j = Tbl.find? t j := by
  induction t with
  | nil => simp [Tbl.put, Tbl.find?, h.symm]
  | cons e t ih =>
    obtain ⟨k', v'⟩ := e
    simp only [Tbl.put]
    split
    · simp [Tbl.find?, h.symm]
    · split
      · rename_i e
        subst e
        simp [Tbl.find?, h.symm]
      · simp only [Tbl.find?, ih]

theorem Tbl.find?_none {t : Tbl α} {k : Nat} (h : ∀ e ∈ t, e.1 ≠ k) : Tbl.find? t k = none := by
  induction t with
  | nil => rfl
  | cons f t ih =>
    obtain ⟨k', v'⟩ := f
    have h1 : ¬ k' = k := h (k', v') (by simp)
    simp [Tbl.find?, h1, ih (fun e he => h e (List.mem_cons_of_mem _ he))]

theorem Tbl.find?_filter_keep (t : Tbl α) (p : Nat → Bool) (k : Nat) (h : p k = true) :
    Tbl.find? (t.filter (fun e => p e.1)) k = Tbl.find? t k := by
  induction t with
  | nil => rfl
  | cons f t ih =>
    obtain ⟨k', v'⟩ := f
    by_cases hk : k' = k
    · subst hk; simp [h, Tbl.find?]
    · by_cases hp : p k' = true <;> simp [hp, Tbl.find?, hk, ih]

theorem Tbl.find?_filter_drop (t : Tbl α) (p : Nat → Bool) (k : Nat) (h : p k = false) :
    Tbl.find? (t.filter (fun e => p e.1)) k = none := by
  apply Tbl.find?_none
  intro e he hk
  have := (List.mem_filter.1 he).2
  rw [hk, h] at this
  exact absurd this (by simp)

theorem Tbl.find?_filter_self (t : Tbl α) (k : Nat) : Tbl.find? (t.del k) k = none :=
  Tbl.find?_filter_drop t (fun x => decide (x ≠ k)) k (by simp)

theorem Tbl.find?_del_other (t : Tbl α) (k j : Nat) (h : j ≠ k) : Tbl.find? (t.del k) j = Tbl.find? t j :=
  Tbl.find?_filter_keep t (fun x => decide (x ≠ k)) j (by simp [h])

/-- A read of the key that was written finds the value written. -/
@[simp] theorem Tbl.get_set_same [DecidableEq α] (d : Nat → α) (t : Tbl α) (k : Nat) (v : α) :
    Tbl.get d (Tbl.set d t k v) k = v := by
  unfold Tbl.set Tbl.get
  split
  · rename_i h
    simp [Tbl.find?_filter_self, h]
  · simp [Tbl.find?_put_same]

/-- A write leaves every other key alone. -/
theorem Tbl.get_set_other [DecidableEq α] (d : Nat → α) (t : Tbl α) (k j : Nat) (v : α) (h : j ≠ k) :
    Tbl.get d (Tbl.set d t k v) j = Tbl.get d t j := by
  unfold Tbl.set Tbl.get
  split
  · rw [Tbl.find?_del_other _ _ _ h]
  · rw [Tbl.find?_put_other _ _ _ _ h]

/-! ## Tables: the canonical form -/

theorem Tbl.mem_put {t : Tbl α} {k : Nat} {v : α} {e : Nat × α} (h : e ∈ Tbl.put t k v) : e = (k, v) ∨ e ∈ t := by
  induction t with
  | nil => simpa [Tbl.put] using h
  | cons f t ih =>
    obtain ⟨k', v'⟩ := f
    simp only [Tbl.put] at h
    split at h
    · simpa using h
    · split at h
      · rcases List.mem_cons.1 h with h | h
        · exact Or.inl h
        · exact Or.inr (List.mem_cons_of_mem _ h)
      · rcases List.mem_cons.1 h with h | h
        · exact Or.inr (by simp [h])
        · rcases ih h with h | h
          · exact Or.inl h
          · exact Or.inr (List.mem_cons_of_mem _ h)

theorem Tbl.put_sorted {t : Tbl α} (k : Nat) (v : α) (h : t.Pairwise (fun a b => a.1 < b.1)) :
    (Tbl.put t k v).Pairwise (fun a b => a.1 < b.1) := by
  induction t with
  | nil => simp [Tbl.put]
  | cons f t ih =>
    obtain ⟨k', v'⟩ := f
    rw [List.pairwise_cons] at h
    simp only [Tbl.put]
    split
    · rename_i hk
      rw [List.pairwise_cons]
      refine ⟨?_, List.pairwise_cons.2 h⟩
      intro a ha
      rcases List.mem_cons.1 ha with ha | ha
      · subst ha; exact hk
      · exact Nat.lt_trans hk (h.1 a ha)
    · split
      · rename_i hk
        subst hk
        exact List.pairwise_cons.2 ⟨h.1, h.2⟩
      · rename_i h1 h2
        refine List.pairwise_cons.2 ⟨?_, ih h.2⟩
        intro a ha
        rcases Tbl.mem_put ha with ha | ha
        · subst ha; simp only; omega
        · exact h.1 a ha

theorem Tbl.wf_nil [DecidableEq α] (d : Nat → α) : Tbl.wf d [] := ⟨List.Pairwise.nil, fun _ h => absurd h (by simp)⟩

theorem Tbl.wf_filter [DecidableEq α] {d : Nat → α} {t : Tbl α} (p : Nat × α → Bool) (h : Tbl.wf d t) : Tbl.wf d (t.filter p) :=
  ⟨h.1.filter p, fun e he => h.2 e (List.mem_filter.1 he).1⟩

theorem Tbl.wf_del [DecidableEq α] {d : Nat → α} {t : Tbl α} (k : Nat) (h : Tbl.wf d t) : Tbl.wf d (t.del k) :=
  Tbl.wf_filter _ h

/-- Every write keeps the canonical form. -/
theorem Tbl.wf_set [DecidableEq α] {d : Nat → α} {t : Tbl α} (k : Nat) (v : α) (h : Tbl.wf d t) : Tbl.wf d (Tbl.set d t k v) := by
  unfold Tbl.set
  split
  · exact Tbl.wf_del k h
  · rename_i hv
    refine ⟨Tbl.put_sorted k v h.1, fun e he => ?_⟩
    rcases Tbl.mem_put he with he | he
    · subst he; exact hv
    · exact h.2 e he

/-- In a sorted table a listed entry is found. -/
theorem Tbl.find?_of_mem {t : Tbl α} (h : t.Pairwise (fun a b => a.1 < b.1)) {e : Nat × α} (he : e ∈ t) :
    Tbl.find? t e.1 = some e.2 := by
  induction t with
  | nil => simp at he
  | cons f t ih =>
    obtain ⟨k', v'⟩ := f
    rw [List.pairwise_cons] at h
    rcases List.mem_cons.1 he with he | he
    · subst he; simp [Tbl.find?]
    · have : ¬ k' = e.1 := Nat.ne_of_lt (h.1 e he)
      simp [Tbl.find?, this, ih h.2 he]

theorem Tbl.find?_append {t u : Tbl α} (k : Nat) : Tbl.find? (t ++ u) k = (Tbl.find? t k).or (Tbl.find? u k) := by
  induction t with
  | nil => simp
  | cons f t ih =>
    obtain ⟨k', v'⟩ := f
    by_cases h : k' = k <;> simp [Tbl.find?, h, ih]

/-! ## Byte memories -/

theorem Memory.wf_nil : Memory.wf [] := Tbl.wf_nil _

@[simp] theorem Memory.read_nil (a : Nat) : Memory.read [] a = 0 := rfl

/-- The byte written is the byte read. -/
@[simp] theorem Memory.read_write_same (m : Memory) (a : Nat) (b : BitVec 8) : Memory.read (Memory.write m a b) a = b :=
  Tbl.get_set_same _ _ _ _

/-- A write of a byte leaves every other address alone. -/
theorem Memory.read_write_other (m : Memory) (a x : Nat) (b : BitVec 8) (h : x ≠ a) :
    Memory.read (Memory.write m a b) x = Memory.read m x := Tbl.get_set_other _ _ _ _ _ h

theorem Memory.wf_write {m : Memory} (a : Nat) (b : BitVec 8) (h : Memory.wf m) : Memory.wf (Memory.write m a b) :=
  Tbl.wf_set a b h

theorem Memory.mem_cells {bs : List (BitVec 8)} {a : Nat} {e : Host.Cell} (h : e ∈ Memory.cells a bs) :
    a ≤ e.1 ∧ e.1 < a + bs.length ∧ e.2 ≠ 0 := by
  induction bs generalizing a with
  | nil => simp [Memory.cells] at h
  | cons b bs ih =>
    simp only [Memory.cells] at h
    split at h
    · obtain ⟨h1, h2, h3⟩ := ih h
      refine ⟨by omega, ?_, h3⟩
      simp only [List.length_cons]; omega
    · rename_i hb
      rcases List.mem_cons.1 h with h | h
      · rw [h]
        refine ⟨Nat.le_refl _, ?_, hb⟩
        simp only [List.length_cons]; omega
      · obtain ⟨h1, h2, h3⟩ := ih h
        refine ⟨by omega, ?_, h3⟩
        simp only [List.length_cons]; omega

theorem Memory.cells_sorted (bs : List (BitVec 8)) (a : Nat) :
    (Memory.cells a bs).Pairwise (fun x y : Host.Cell => x.1 < y.1) := by
  induction bs generalizing a with
  | nil => simp [Memory.cells]
  | cons b bs ih =>
    simp only [Memory.cells]
    split
    · exact ih _
    · refine List.pairwise_cons.2 ⟨fun e he => ?_, ih _⟩
      have := Memory.mem_cells he
      simp only; omega

/-- A write of a run of bytes keeps the canonical form. -/
theorem Memory.wf_writeBytes {m : Memory} (a : Nat) (bs : List (BitVec 8)) (h : Memory.wf m) :
    Memory.wf (Memory.writeBytes m a bs) := by
  unfold Memory.writeBytes
  constructor
  · rw [List.pairwise_append, List.pairwise_append]
    refine ⟨h.1.filter _, ⟨Memory.cells_sorted bs a, h.1.filter _, ?_⟩, ?_⟩
    · intro x hx y hy
      have hx := Memory.mem_cells hx
      have hy := (List.mem_filter.1 hy).2
      simp only [decide_eq_true_eq] at hy
      omega
    · intro x hx y hy
      have hx := (List.mem_filter.1 hx).2
      simp only [decide_eq_true_eq] at hx
      rcases List.mem_append.1 hy with hy | hy
      · have := Memory.mem_cells hy; omega
      · have hy := (List.mem_filter.1 hy).2
        simp only [decide_eq_true_eq] at hy
        omega
  · intro e he
    rcases List.mem_append.1 he with he | he
    · exact h.2 e (List.mem_filter.1 he).1
    · rcases List.mem_append.1 he with he | he
      · exact (Memory.mem_cells he).2.2
      · exact h.2 e (List.mem_filter.1 he).1

theorem Memory.find?_cells (bs : List (BitVec 8)) (a i : Nat) (h : i < bs.length) :
    (Tbl.find? (Memory.cells a bs) (a + i)).getD 0 = bs.getD i 0 := by
  induction bs generalizing a i with
  | nil => simp at h
  | cons b bs ih =>
    cases i with
    | zero =>
      simp only [Memory.cells, Nat.add_zero, List.getD_cons_zero]
      split
      · rename_i hb
        rw [Tbl.find?_none]
        · simp [hb]
        · intro e he
          have := Memory.mem_cells he
          omega
      · simp [Tbl.find?]
    | succ i =>
      have hi : i < bs.length := by simpa using h
      have e : a + (i + 1) = (a + 1) + i := by omega
      simp only [Memory.cells, List.getD_cons_succ]
      split
      · rw [e]; exact ih (a + 1) i hi
      · have : ¬ a = a + 1 + i := by omega
        rw [e]; simp only [Tbl.find?, this, if_false]; exact ih (a + 1) i hi

/-- A read inside a written run finds the byte written there. -/
theorem Memory.read_writeBytes_in (m : Memory) (a : Nat) (bs : List (BitVec 8)) (i : Nat) (h : i < bs.length) :
    Memory.read (Memory.writeBytes m a bs) (a + i) = bs.getD i 0 := by
  have h1 : (decide (a + i < a)) = false := by simp
  have h2 : (decide (a + bs.length ≤ a + i)) = false := by simp [h]
  unfold Memory.read Tbl.get Memory.writeBytes Memory.blank
  rw [Tbl.find?_append, Tbl.find?_append, Tbl.find?_filter_drop m (fun x => decide (x < a)) _ h1,
    Tbl.find?_filter_drop m (fun x => decide (a + bs.length ≤ x)) _ h2]
  simpa using Memory.find?_cells bs a i h

/-- A write of a run leaves every address outside it alone. -/
theorem Memory.read_writeBytes_out (m : Memory) (a : Nat) (bs : List (BitVec 8)) (x : Nat)
    (h : x < a ∨ a + bs.length ≤ x) : Memory.read (Memory.writeBytes m a bs) x = Memory.read m x := by
  have hc : Tbl.find? (Memory.cells a bs) x = none := by
    apply Tbl.find?_none
    intro e he
    have := Memory.mem_cells he
    omega
  unfold Memory.read Tbl.get Memory.writeBytes Memory.blank
  rw [Tbl.find?_append, Tbl.find?_append, hc]
  rcases h with h | h
  · rw [Tbl.find?_filter_keep m (fun y => decide (y < a)) x (by simp [h])]
    cases hf : Tbl.find? m x with
    | some v => simp
    | none =>
      have : (decide (a + bs.length ≤ x)) = false := by simp; omega
      rw [Tbl.find?_filter_drop m (fun y => decide (a + bs.length ≤ y)) x this]
      simp
  · have : (decide (x < a)) = false := by simp; omega
    rw [Tbl.find?_filter_drop m (fun y => decide (y < a)) x this,
      Tbl.find?_filter_keep m (fun y => decide (a + bs.length ≤ y)) x (by simp [h])]
    simp

@[simp] theorem Memory.length_scan (l : List Host.Cell) (a n : Nat) : (Memory.scan l a n).length = n := by
  induction n generalizing l a with
  | zero => simp [Memory.scan]
  | succ n ih =>
    cases l with
    | nil => simp [Memory.scan, ih]
    | cons f t =>
      obtain ⟨k, v⟩ := f
      simp only [Memory.scan]
      split <;> simp [ih]

@[simp] theorem Memory.length_readBytes (m : Memory) (a n : Nat) : (Memory.readBytes m a n).length = n :=
  Memory.length_scan _ _ _

theorem Memory.getElem_scan {l : List Host.Cell} (hs : l.Pairwise (fun x y => x.1 < y.1)) {a n i : Nat}
    (hb : ∀ e ∈ l, a ≤ e.1) (h : i < n) :
    (Memory.scan l a n)[i]? = some ((Tbl.find? l (a + i)).getD 0) := by
  induction n generalizing l a i with
  | zero => omega
  | succ n ih =>
    cases l with
    | nil =>
      cases i with
      | zero => simp [Memory.scan]
      | succ i => simpa [Memory.scan] using ih (l := []) (by simp) (by simp) (by omega)
    | cons f t =>
      obtain ⟨k, v⟩ := f
      have hs' := List.pairwise_cons.1 hs
      simp only [Memory.scan]
      split
      · rename_i hk
        subst hk
        cases i with
        | zero => simp [Tbl.find?]
        | succ i =>
          have : ¬ k = k + (i + 1) := by omega
          have e : k + (i + 1) = (k + 1) + i := by omega
          simp only [List.getElem?_cons_succ, Tbl.find?, this, if_false]
          rw [e]
          exact ih hs'.2 (fun e he => hs'.1 e he) (by omega)
      · rename_i hk
        have hk' : a < k := by have := hb (k, v) (by simp); simp only at this; omega
        cases i with
        | zero =>
          have : Tbl.find? ((k, v) :: t) (a + 0) = none := by
            apply Tbl.find?_none
            intro e he
            rcases List.mem_cons.1 he with he | he
            · subst he; simp only; omega
            · have := hs'.1 e he; simp only at this; omega
          rw [this]; simp
        | succ i =>
          have e : a + (i + 1) = (a + 1) + i := by omega
          simp only [List.getElem?_cons_succ]
          rw [e]
          refine ih hs (fun e he => ?_) (by omega)
          rcases List.mem_cons.1 he with he | he
          · subst he; exact hk'
          · have := hs'.1 e he; simp only at this; omega

theorem Tbl.find?_dropWhile {t : Tbl α} (hs : t.Pairwise (fun x y => x.1 < y.1)) {a k : Nat} (h : a ≤ k) :
    Tbl.find? (t.dropWhile (fun c => decide (c.1 < a))) k = Tbl.find? t k := by
  induction t with
  | nil => rfl
  | cons f t ih =>
    obtain ⟨k', v⟩ := f
    have hs' := List.pairwise_cons.1 hs
    by_cases hk : k' < a
    · have : ¬ k' = k := by omega
      simp [hk, Tbl.find?, this, ih hs'.2]
    · simp [hk]

theorem Tbl.dropWhile_ge {t : Tbl α} (hs : t.Pairwise (fun x y => x.1 < y.1)) (a : Nat) :
    ∀ e ∈ t.dropWhile (fun c => decide (c.1 < a)), a ≤ e.1 := by
  induction t with
  | nil => simp
  | cons f t ih =>
    obtain ⟨k', v⟩ := f
    have hs' := List.pairwise_cons.1 hs
    by_cases hk : k' < a
    · simpa [List.dropWhile_cons, hk] using ih hs'.2
    · intro e he
      simp only [List.dropWhile_cons, hk, decide_false, Bool.false_eq_true, if_false] at he
      rcases List.mem_cons.1 he with he | he
      · subst he; simp only; omega
      · have := hs'.1 e he; simp only at this; omega

/-- In a canonical memory, reading a run of bytes is reading each of its addresses. -/
theorem Memory.readBytes_eq {m : Memory} (h : Memory.wf m) (a n : Nat) :
    Memory.readBytes m a n = (List.range n).map (fun i => Memory.read m (a + i)) := by
  apply List.ext_getElem?
  intro i
  by_cases hi : i < n
  · unfold Memory.readBytes
    rw [Memory.getElem_scan (h.1.sublist (List.dropWhile_sublist _)) (Tbl.dropWhile_ge h.1 a) hi]
    simp [hi, Memory.read, Tbl.get, Memory.blank, Tbl.find?_dropWhile h.1]
  · rw [List.getElem?_eq_none (by simp; omega), List.getElem?_eq_none (by simp; omega)]

/-- A run just written reads back. -/
theorem Memory.readBytes_writeBytes {m : Memory} (h : Memory.wf m) (a : Nat) (bs : List (BitVec 8)) :
    Memory.readBytes (Memory.writeBytes m a bs) a bs.length = bs := by
  rw [Memory.readBytes_eq (Memory.wf_writeBytes a bs h)]
  apply List.ext_getElem?
  intro i
  by_cases hi : i < bs.length
  · simp [hi, Memory.read_writeBytes_in _ _ _ _ hi]
  · rw [List.getElem?_eq_none (by simp; omega), List.getElem?_eq_none (by omega)]

end Sys2Proof.Machine
end

