-- ==== Sys2Proof/Laws/State.lean ====
section
/-! SUPPORT. One lemma per home of a table and per update: what is read after a write, and what a write leaves alone. -/
namespace Sys2Proof.Machine

/-! ## queue -/
@[simp] theorem State.queue_setQueue_same (s : State) (k : QueueId) (x : Queue) : (s.setQueue k x).queue k = x := by
  simp [State.queue, State.setQueue]
theorem State.queue_setQueue_other (s : State) (j k : QueueId) (x : Queue) (h : qIdx j ≠ qIdx k) : (s.setQueue k x).queue j = s.queue j := by
  simp [State.queue, State.setQueue, Tbl.get_set_other _ _ _ _ _ h]
@[simp] theorem State.queue_modQueue_same (s : State) (k : QueueId) (f : Queue → Queue) : (s.modQueue k f).queue k = f (s.queue k) := by
  simp [State.modQueue]
theorem State.queue_modQueue_other (s : State) (j k : QueueId) (f : Queue → Queue) (h : qIdx j ≠ qIdx k) : (s.modQueue k f).queue j = s.queue j := by
  simp [State.modQueue, State.queue_setQueue_other _ _ _ _ h]
@[simp] theorem State.dev_setQueue (s : State) (k : QueueId) (x : Queue) : (s.setQueue k x).dev = s.dev := rfl
@[simp] theorem State.dev_modQueue (s : State) (k : QueueId) (f : Queue → Queue) : (s.modQueue k f).dev = s.dev := rfl
@[simp] theorem State.env_setQueue (s : State) (k : QueueId) (x : Queue) : (s.setQueue k x).env = s.env := rfl
@[simp] theorem State.env_modQueue (s : State) (k : QueueId) (f : Queue → Queue) : (s.modQueue k f).env = s.env := rfl
@[simp] theorem State.cfg_setQueue (s : State) (k : QueueId) (x : Queue) : (s.setQueue k x).cfg = s.cfg := rfl
@[simp] theorem State.cfg_modQueue (s : State) (k : QueueId) (f : Queue → Queue) : (s.modQueue k f).cfg = s.cfg := rfl
@[simp] theorem State.gov_setQueue (s : State) (k : QueueId) (x : Queue) : (s.setQueue k x).gov = s.gov := rfl
@[simp] theorem State.gov_modQueue (s : State) (k : QueueId) (f : Queue → Queue) : (s.modQueue k f).gov = s.gov := rfl
@[simp] theorem State.tel_setQueue (s : State) (k : QueueId) (x : Queue) : (s.setQueue k x).tel = s.tel := rfl
@[simp] theorem State.tel_modQueue (s : State) (k : QueueId) (f : Queue → Queue) : (s.modQueue k f).tel = s.tel := rfl
@[simp] theorem State.sec_setQueue (s : State) (k : QueueId) (x : Queue) : (s.setQueue k x).sec = s.sec := rfl
@[simp] theorem State.sec_modQueue (s : State) (k : QueueId) (f : Queue → Queue) : (s.modQueue k f).sec = s.sec := rfl
@[simp] theorem State.sig_setQueue (s : State) (k : QueueId) (x : Queue) : (s.setQueue k x).sig = s.sig := rfl
@[simp] theorem State.sig_modQueue (s : State) (k : QueueId) (f : Queue → Queue) : (s.modQueue k f).sig = s.sig := rfl
@[simp] theorem State.group_setQueue (s : State) (k : QueueId) (x : Queue) : (s.setQueue k x).group = s.group := rfl
@[simp] theorem State.group_modQueue (s : State) (k : QueueId) (f : Queue → Queue) : (s.modQueue k f).group = s.group := rfl
@[simp] theorem State.ports_setQueue (s : State) (k : QueueId) (x : Queue) : (s.setQueue k x).ports = s.ports := rfl
@[simp] theorem State.ports_modQueue (s : State) (k : QueueId) (f : Queue → Queue) : (s.modQueue k f).ports = s.ports := rfl
@[simp] theorem State.ctxs_setQueue (s : State) (k : QueueId) (x : Queue) : (s.setQueue k x).ctxs = s.ctxs := rfl
@[simp] theorem State.ctxs_modQueue (s : State) (k : QueueId) (f : Queue → Queue) : (s.modQueue k f).ctxs = s.ctxs := rfl
@[simp] theorem State.crews_setQueue (s : State) (k : QueueId) (x : Queue) : (s.setQueue k x).crews = s.crews := rfl
@[simp] theorem State.crews_modQueue (s : State) (k : QueueId) (f : Queue → Queue) : (s.modQueue k f).crews = s.crews := rfl
@[simp] theorem State.arrs_setQueue (s : State) (k : QueueId) (x : Queue) : (s.setQueue k x).arrs = s.arrs := rfl
@[simp] theorem State.arrs_modQueue (s : State) (k : QueueId) (f : Queue → Queue) : (s.modQueue k f).arrs = s.arrs := rfl
@[simp] theorem State.ves_setQueue (s : State) (k : QueueId) (x : Queue) : (s.setQueue k x).ves = s.ves := rfl
@[simp] theorem State.ves_modQueue (s : State) (k : QueueId) (f : Queue → Queue) : (s.modQueue k f).ves = s.ves := rfl
@[simp] theorem State.counters_setQueue (s : State) (k : QueueId) (x : Queue) : (s.setQueue k x).counters = s.counters := rfl
@[simp] theorem State.counters_modQueue (s : State) (k : QueueId) (f : Queue → Queue) : (s.modQueue k f).counters = s.counters := rfl
@[simp] theorem State.cmds_setQueue (s : State) (k : QueueId) (x : Queue) : (s.setQueue k x).cmds = s.cmds := rfl
@[simp] theorem State.cmds_modQueue (s : State) (k : QueueId) (f : Queue → Queue) : (s.modQueue k f).cmds = s.cmds := rfl
@[simp] theorem State.seq_setQueue (s : State) (k : QueueId) (x : Queue) : (s.setQueue k x).seq = s.seq := rfl
@[simp] theorem State.seq_modQueue (s : State) (k : QueueId) (f : Queue → Queue) : (s.modQueue k f).seq = s.seq := rfl
@[simp] theorem State.parts_setQueue (s : State) (k : QueueId) (x : Queue) : (s.setQueue k x).parts = s.parts := rfl
@[simp] theorem State.parts_modQueue (s : State) (k : QueueId) (f : Queue → Queue) : (s.modQueue k f).parts = s.parts := rfl
@[simp] theorem State.bowW_setQueue (s : State) (k : QueueId) (x : Queue) : (s.setQueue k x).bowW = s.bowW := rfl
@[simp] theorem State.bowW_modQueue (s : State) (k : QueueId) (f : Queue → Queue) : (s.modQueue k f).bowW = s.bowW := rfl
@[simp] theorem State.censusQ_setQueue (s : State) (k : QueueId) (x : Queue) : (s.setQueue k x).censusQ = s.censusQ := rfl
@[simp] theorem State.censusQ_modQueue (s : State) (k : QueueId) (f : Queue → Queue) : (s.modQueue k f).censusQ = s.censusQ := rfl
@[simp] theorem State.refreshQ_setQueue (s : State) (k : QueueId) (x : Queue) : (s.setQueue k x).refreshQ = s.refreshQ := rfl
@[simp] theorem State.refreshQ_modQueue (s : State) (k : QueueId) (f : Queue → Queue) : (s.modQueue k f).refreshQ = s.refreshQ := rfl
@[simp] theorem State.host_setQueue (s : State) (k : QueueId) (x : Queue) : (s.setQueue k x).host = s.host := rfl
@[simp] theorem State.host_modQueue (s : State) (k : QueueId) (f : Queue → Queue) : (s.modQueue k f).host = s.host := rfl
@[simp] theorem State.outs_setQueue (s : State) (k : QueueId) (x : Queue) : (s.setQueue k x).outs = s.outs := rfl
@[simp] theorem State.outs_modQueue (s : State) (k : QueueId) (f : Queue → Queue) : (s.modQueue k f).outs = s.outs := rfl
@[simp] theorem State.free_setQueue (s : State) (k : QueueId) (x : Queue) : (s.setQueue k x).free = s.free := rfl
@[simp] theorem State.free_modQueue (s : State) (k : QueueId) (f : Queue → Queue) : (s.modQueue k f).free = s.free := rfl
@[simp] theorem State.pending_setQueue (s : State) (k : QueueId) (x : Queue) : (s.setQueue k x).pending = s.pending := rfl
@[simp] theorem State.pending_modQueue (s : State) (k : QueueId) (f : Queue → Queue) : (s.modQueue k f).pending = s.pending := rfl
@[simp] theorem State.queue_setCtx (s : State) (j : QueueId) (k : Nat) (x : Ctx) : (s.setCtx k x).queue j = s.queue j := rfl
@[simp] theorem State.queue_modCtx (s : State) (j : QueueId) (k : Nat) (f : Ctx → Ctx) : (s.modCtx k f).queue j = s.queue j := rfl
@[simp] theorem State.queue_setCrew (s : State) (j : QueueId) (k : Nat) (x : Crew) : (s.setCrew k x).queue j = s.queue j := rfl
@[simp] theorem State.queue_modCrew (s : State) (j : QueueId) (k : Nat) (f : Crew → Crew) : (s.modCrew k f).queue j = s.queue j := rfl
@[simp] theorem State.queue_setArr (s : State) (j : QueueId) (k : Nat) (x : Arr) : (s.setArr k x).queue j = s.queue j := rfl
@[simp] theorem State.queue_modArr (s : State) (j : QueueId) (k : Nat) (f : Arr → Arr) : (s.modArr k f).queue j = s.queue j := rfl
@[simp] theorem State.queue_setVe (s : State) (j : QueueId) (k : Nat) (x : Ve) : (s.setVe k x).queue j = s.queue j := rfl
@[simp] theorem State.queue_modVe (s : State) (j : QueueId) (k : Nat) (f : Ve → Ve) : (s.modVe k f).queue j = s.queue j := rfl
@[simp] theorem State.queue_setPort (s : State) (j : QueueId) (k : Nat) (x : Port) : (s.setPort k x).queue j = s.queue j := rfl
@[simp] theorem State.queue_modPort (s : State) (j : QueueId) (k : Nat) (f : Port → Port) : (s.modPort k f).queue j = s.queue j := rfl
@[simp] theorem State.queue_setCounter (s : State) (j : QueueId) (k : Nat) (x : Dword) : (s.setCounter k x).queue j = s.queue j := rfl

/-! ## ctx -/
@[simp] theorem State.ctx_setCtx_same (s : State) (k : Nat) (x : Ctx) : (s.setCtx k x).ctx k = x := by
  simp [State.ctx, State.setCtx]
theorem State.ctx_setCtx_other (s : State) (j k : Nat) (x : Ctx) (h : j ≠ k) : (s.setCtx k x).ctx j = s.ctx j := by
  simp [State.ctx, State.setCtx, Tbl.get_set_other _ _ _ _ _ h]
@[simp] theorem State.ctx_modCtx_same (s : State) (k : Nat) (f : Ctx → Ctx) : (s.modCtx k f).ctx k = f (s.ctx k) := by
  simp [State.modCtx]
theorem State.ctx_modCtx_other (s : State) (j k : Nat) (f : Ctx → Ctx) (h : j ≠ k) : (s.modCtx k f).ctx j = s.ctx j := by
  simp [State.modCtx, State.ctx_setCtx_other _ _ _ _ h]
@[simp] theorem State.dev_setCtx (s : State) (k : Nat) (x : Ctx) : (s.setCtx k x).dev = s.dev := rfl
@[simp] theorem State.dev_modCtx (s : State) (k : Nat) (f : Ctx → Ctx) : (s.modCtx k f).dev = s.dev := rfl
@[simp] theorem State.env_setCtx (s : State) (k : Nat) (x : Ctx) : (s.setCtx k x).env = s.env := rfl
@[simp] theorem State.env_modCtx (s : State) (k : Nat) (f : Ctx → Ctx) : (s.modCtx k f).env = s.env := rfl
@[simp] theorem State.cfg_setCtx (s : State) (k : Nat) (x : Ctx) : (s.setCtx k x).cfg = s.cfg := rfl
@[simp] theorem State.cfg_modCtx (s : State) (k : Nat) (f : Ctx → Ctx) : (s.modCtx k f).cfg = s.cfg := rfl
@[simp] theorem State.gov_setCtx (s : State) (k : Nat) (x : Ctx) : (s.setCtx k x).gov = s.gov := rfl
@[simp] theorem State.gov_modCtx (s : State) (k : Nat) (f : Ctx → Ctx) : (s.modCtx k f).gov = s.gov := rfl
@[simp] theorem State.tel_setCtx (s : State) (k : Nat) (x : Ctx) : (s.setCtx k x).tel = s.tel := rfl
@[simp] theorem State.tel_modCtx (s : State) (k : Nat) (f : Ctx → Ctx) : (s.modCtx k f).tel = s.tel := rfl
@[simp] theorem State.sec_setCtx (s : State) (k : Nat) (x : Ctx) : (s.setCtx k x).sec = s.sec := rfl
@[simp] theorem State.sec_modCtx (s : State) (k : Nat) (f : Ctx → Ctx) : (s.modCtx k f).sec = s.sec := rfl
@[simp] theorem State.sig_setCtx (s : State) (k : Nat) (x : Ctx) : (s.setCtx k x).sig = s.sig := rfl
@[simp] theorem State.sig_modCtx (s : State) (k : Nat) (f : Ctx → Ctx) : (s.modCtx k f).sig = s.sig := rfl
@[simp] theorem State.group_setCtx (s : State) (k : Nat) (x : Ctx) : (s.setCtx k x).group = s.group := rfl
@[simp] theorem State.group_modCtx (s : State) (k : Nat) (f : Ctx → Ctx) : (s.modCtx k f).group = s.group := rfl
@[simp] theorem State.ports_setCtx (s : State) (k : Nat) (x : Ctx) : (s.setCtx k x).ports = s.ports := rfl
@[simp] theorem State.ports_modCtx (s : State) (k : Nat) (f : Ctx → Ctx) : (s.modCtx k f).ports = s.ports := rfl
@[simp] theorem State.queues_setCtx (s : State) (k : Nat) (x : Ctx) : (s.setCtx k x).queues = s.queues := rfl
@[simp] theorem State.queues_modCtx (s : State) (k : Nat) (f : Ctx → Ctx) : (s.modCtx k f).queues = s.queues := rfl
@[simp] theorem State.crews_setCtx (s : State) (k : Nat) (x : Ctx) : (s.setCtx k x).crews = s.crews := rfl
@[simp] theorem State.crews_modCtx (s : State) (k : Nat) (f : Ctx → Ctx) : (s.modCtx k f).crews = s.crews := rfl
@[simp] theorem State.arrs_setCtx (s : State) (k : Nat) (x : Ctx) : (s.setCtx k x).arrs = s.arrs := rfl
@[simp] theorem State.arrs_modCtx (s : State) (k : Nat) (f : Ctx → Ctx) : (s.modCtx k f).arrs = s.arrs := rfl
@[simp] theorem State.ves_setCtx (s : State) (k : Nat) (x : Ctx) : (s.setCtx k x).ves = s.ves := rfl
@[simp] theorem State.ves_modCtx (s : State) (k : Nat) (f : Ctx → Ctx) : (s.modCtx k f).ves = s.ves := rfl
@[simp] theorem State.counters_setCtx (s : State) (k : Nat) (x : Ctx) : (s.setCtx k x).counters = s.counters := rfl
@[simp] theorem State.counters_modCtx (s : State) (k : Nat) (f : Ctx → Ctx) : (s.modCtx k f).counters = s.counters := rfl
@[simp] theorem State.cmds_setCtx (s : State) (k : Nat) (x : Ctx) : (s.setCtx k x).cmds = s.cmds := rfl
@[simp] theorem State.cmds_modCtx (s : State) (k : Nat) (f : Ctx → Ctx) : (s.modCtx k f).cmds = s.cmds := rfl
@[simp] theorem State.seq_setCtx (s : State) (k : Nat) (x : Ctx) : (s.setCtx k x).seq = s.seq := rfl
@[simp] theorem State.seq_modCtx (s : State) (k : Nat) (f : Ctx → Ctx) : (s.modCtx k f).seq = s.seq := rfl
@[simp] theorem State.parts_setCtx (s : State) (k : Nat) (x : Ctx) : (s.setCtx k x).parts = s.parts := rfl
@[simp] theorem State.parts_modCtx (s : State) (k : Nat) (f : Ctx → Ctx) : (s.modCtx k f).parts = s.parts := rfl
@[simp] theorem State.bowW_setCtx (s : State) (k : Nat) (x : Ctx) : (s.setCtx k x).bowW = s.bowW := rfl
@[simp] theorem State.bowW_modCtx (s : State) (k : Nat) (f : Ctx → Ctx) : (s.modCtx k f).bowW = s.bowW := rfl
@[simp] theorem State.censusQ_setCtx (s : State) (k : Nat) (x : Ctx) : (s.setCtx k x).censusQ = s.censusQ := rfl
@[simp] theorem State.censusQ_modCtx (s : State) (k : Nat) (f : Ctx → Ctx) : (s.modCtx k f).censusQ = s.censusQ := rfl
@[simp] theorem State.refreshQ_setCtx (s : State) (k : Nat) (x : Ctx) : (s.setCtx k x).refreshQ = s.refreshQ := rfl
@[simp] theorem State.refreshQ_modCtx (s : State) (k : Nat) (f : Ctx → Ctx) : (s.modCtx k f).refreshQ = s.refreshQ := rfl
@[simp] theorem State.host_setCtx (s : State) (k : Nat) (x : Ctx) : (s.setCtx k x).host = s.host := rfl
@[simp] theorem State.host_modCtx (s : State) (k : Nat) (f : Ctx → Ctx) : (s.modCtx k f).host = s.host := rfl
@[simp] theorem State.outs_setCtx (s : State) (k : Nat) (x : Ctx) : (s.setCtx k x).outs = s.outs := rfl
@[simp] theorem State.outs_modCtx (s : State) (k : Nat) (f : Ctx → Ctx) : (s.modCtx k f).outs = s.outs := rfl
@[simp] theorem State.free_setCtx (s : State) (k : Nat) (x : Ctx) : (s.setCtx k x).free = s.free := rfl
@[simp] theorem State.free_modCtx (s : State) (k : Nat) (f : Ctx → Ctx) : (s.modCtx k f).free = s.free := rfl
@[simp] theorem State.pending_setCtx (s : State) (k : Nat) (x : Ctx) : (s.setCtx k x).pending = s.pending := rfl
@[simp] theorem State.pending_modCtx (s : State) (k : Nat) (f : Ctx → Ctx) : (s.modCtx k f).pending = s.pending := rfl
@[simp] theorem State.ctx_setQueue (s : State) (j : Nat) (k : QueueId) (x : Queue) : (s.setQueue k x).ctx j = s.ctx j := rfl
@[simp] theorem State.ctx_modQueue (s : State) (j : Nat) (k : QueueId) (f : Queue → Queue) : (s.modQueue k f).ctx j = s.ctx j := rfl
@[simp] theorem State.ctx_setCrew (s : State) (j : Nat) (k : Nat) (x : Crew) : (s.setCrew k x).ctx j = s.ctx j := rfl
@[simp] theorem State.ctx_modCrew (s : State) (j : Nat) (k : Nat) (f : Crew → Crew) : (s.modCrew k f).ctx j = s.ctx j := rfl
@[simp] theorem State.ctx_setArr (s : State) (j : Nat) (k : Nat) (x : Arr) : (s.setArr k x).ctx j = s.ctx j := rfl
@[simp] theorem State.ctx_modArr (s : State) (j : Nat) (k : Nat) (f : Arr → Arr) : (s.modArr k f).ctx j = s.ctx j := rfl
@[simp] theorem State.ctx_setVe (s : State) (j : Nat) (k : Nat) (x : Ve) : (s.setVe k x).ctx j = s.ctx j := rfl
@[simp] theorem State.ctx_modVe (s : State) (j : Nat) (k : Nat) (f : Ve → Ve) : (s.modVe k f).ctx j = s.ctx j := rfl
@[simp] theorem State.ctx_setPort (s : State) (j : Nat) (k : Nat) (x : Port) : (s.setPort k x).ctx j = s.ctx j := rfl
@[simp] theorem State.ctx_modPort (s : State) (j : Nat) (k : Nat) (f : Port → Port) : (s.modPort k f).ctx j = s.ctx j := rfl
@[simp] theorem State.ctx_setCounter (s : State) (j : Nat) (k : Nat) (x : Dword) : (s.setCounter k x).ctx j = s.ctx j := rfl

/-! ## crew -/
@[simp] theorem State.crew_setCrew_same (s : State) (k : Nat) (x : Crew) : (s.setCrew k x).crew k = x := by
  simp [State.crew, State.setCrew]
theorem State.crew_setCrew_other (s : State) (j k : Nat) (x : Crew) (h : j ≠ k) : (s.setCrew k x).crew j = s.crew j := by
  simp [State.crew, State.setCrew, Tbl.get_set_other _ _ _ _ _ h]
@[simp] theorem State.crew_modCrew_same (s : State) (k : Nat) (f : Crew → Crew) : (s.modCrew k f).crew k = f (s.crew k) := by
  simp [State.modCrew]
theorem State.crew_modCrew_other (s : State) (j k : Nat) (f : Crew → Crew) (h : j ≠ k) : (s.modCrew k f).crew j = s.crew j := by
  simp [State.modCrew, State.crew_setCrew_other _ _ _ _ h]
@[simp] theorem State.dev_setCrew (s : State) (k : Nat) (x : Crew) : (s.setCrew k x).dev = s.dev := rfl
@[simp] theorem State.dev_modCrew (s : State) (k : Nat) (f : Crew → Crew) : (s.modCrew k f).dev = s.dev := rfl
@[simp] theorem State.env_setCrew (s : State) (k : Nat) (x : Crew) : (s.setCrew k x).env = s.env := rfl
@[simp] theorem State.env_modCrew (s : State) (k : Nat) (f : Crew → Crew) : (s.modCrew k f).env = s.env := rfl
@[simp] theorem State.cfg_setCrew (s : State) (k : Nat) (x : Crew) : (s.setCrew k x).cfg = s.cfg := rfl
@[simp] theorem State.cfg_modCrew (s : State) (k : Nat) (f : Crew → Crew) : (s.modCrew k f).cfg = s.cfg := rfl
@[simp] theorem State.gov_setCrew (s : State) (k : Nat) (x : Crew) : (s.setCrew k x).gov = s.gov := rfl
@[simp] theorem State.gov_modCrew (s : State) (k : Nat) (f : Crew → Crew) : (s.modCrew k f).gov = s.gov := rfl
@[simp] theorem State.tel_setCrew (s : State) (k : Nat) (x : Crew) : (s.setCrew k x).tel = s.tel := rfl
@[simp] theorem State.tel_modCrew (s : State) (k : Nat) (f : Crew → Crew) : (s.modCrew k f).tel = s.tel := rfl
@[simp] theorem State.sec_setCrew (s : State) (k : Nat) (x : Crew) : (s.setCrew k x).sec = s.sec := rfl
@[simp] theorem State.sec_modCrew (s : State) (k : Nat) (f : Crew → Crew) : (s.modCrew k f).sec = s.sec := rfl
@[simp] theorem State.sig_setCrew (s : State) (k : Nat) (x : Crew) : (s.setCrew k x).sig = s.sig := rfl
@[simp] theorem State.sig_modCrew (s : State) (k : Nat) (f : Crew → Crew) : (s.modCrew k f).sig = s.sig := rfl
@[simp] theorem State.group_setCrew (s : State) (k : Nat) (x : Crew) : (s.setCrew k x).group = s.group := rfl
@[simp] theorem State.group_modCrew (s : State) (k : Nat) (f : Crew → Crew) : (s.modCrew k f).group = s.group := rfl
@[simp] theorem State.ports_setCrew (s : State) (k : Nat) (x : Crew) : (s.setCrew k x).ports = s.ports := rfl
@[simp] theorem State.ports_modCrew (s : State) (k : Nat) (f : Crew → Crew) : (s.modCrew k f).ports = s.ports := rfl
@[simp] theorem State.queues_setCrew (s : State) (k : Nat) (x : Crew) : (s.setCrew k x).queues = s.queues := rfl
@[simp] theorem State.queues_modCrew (s : State) (k : Nat) (f : Crew → Crew) : (s.modCrew k f).queues = s.queues := rfl
@[simp] theorem State.ctxs_setCrew (s : State) (k : Nat) (x : Crew) : (s.setCrew k x).ctxs = s.ctxs := rfl
@[simp] theorem State.ctxs_modCrew (s : State) (k : Nat) (f : Crew → Crew) : (s.modCrew k f).ctxs = s.ctxs := rfl
@[simp] theorem State.arrs_setCrew (s : State) (k : Nat) (x : Crew) : (s.setCrew k x).arrs = s.arrs := rfl
@[simp] theorem State.arrs_modCrew (s : State) (k : Nat) (f : Crew → Crew) : (s.modCrew k f).arrs = s.arrs := rfl
@[simp] theorem State.ves_setCrew (s : State) (k : Nat) (x : Crew) : (s.setCrew k x).ves = s.ves := rfl
@[simp] theorem State.ves_modCrew (s : State) (k : Nat) (f : Crew → Crew) : (s.modCrew k f).ves = s.ves := rfl
@[simp] theorem State.counters_setCrew (s : State) (k : Nat) (x : Crew) : (s.setCrew k x).counters = s.counters := rfl
@[simp] theorem State.counters_modCrew (s : State) (k : Nat) (f : Crew → Crew) : (s.modCrew k f).counters = s.counters := rfl
@[simp] theorem State.cmds_setCrew (s : State) (k : Nat) (x : Crew) : (s.setCrew k x).cmds = s.cmds := rfl
@[simp] theorem State.cmds_modCrew (s : State) (k : Nat) (f : Crew → Crew) : (s.modCrew k f).cmds = s.cmds := rfl
@[simp] theorem State.seq_setCrew (s : State) (k : Nat) (x : Crew) : (s.setCrew k x).seq = s.seq := rfl
@[simp] theorem State.seq_modCrew (s : State) (k : Nat) (f : Crew → Crew) : (s.modCrew k f).seq = s.seq := rfl
@[simp] theorem State.parts_setCrew (s : State) (k : Nat) (x : Crew) : (s.setCrew k x).parts = s.parts := rfl
@[simp] theorem State.parts_modCrew (s : State) (k : Nat) (f : Crew → Crew) : (s.modCrew k f).parts = s.parts := rfl
@[simp] theorem State.bowW_setCrew (s : State) (k : Nat) (x : Crew) : (s.setCrew k x).bowW = s.bowW := rfl
@[simp] theorem State.bowW_modCrew (s : State) (k : Nat) (f : Crew → Crew) : (s.modCrew k f).bowW = s.bowW := rfl
@[simp] theorem State.censusQ_setCrew (s : State) (k : Nat) (x : Crew) : (s.setCrew k x).censusQ = s.censusQ := rfl
@[simp] theorem State.censusQ_modCrew (s : State) (k : Nat) (f : Crew → Crew) : (s.modCrew k f).censusQ = s.censusQ := rfl
@[simp] theorem State.refreshQ_setCrew (s : State) (k : Nat) (x : Crew) : (s.setCrew k x).refreshQ = s.refreshQ := rfl
@[simp] theorem State.refreshQ_modCrew (s : State) (k : Nat) (f : Crew → Crew) : (s.modCrew k f).refreshQ = s.refreshQ := rfl
@[simp] theorem State.host_setCrew (s : State) (k : Nat) (x : Crew) : (s.setCrew k x).host = s.host := rfl
@[simp] theorem State.host_modCrew (s : State) (k : Nat) (f : Crew → Crew) : (s.modCrew k f).host = s.host := rfl
@[simp] theorem State.outs_setCrew (s : State) (k : Nat) (x : Crew) : (s.setCrew k x).outs = s.outs := rfl
@[simp] theorem State.outs_modCrew (s : State) (k : Nat) (f : Crew → Crew) : (s.modCrew k f).outs = s.outs := rfl
@[simp] theorem State.free_setCrew (s : State) (k : Nat) (x : Crew) : (s.setCrew k x).free = s.free := rfl
@[simp] theorem State.free_modCrew (s : State) (k : Nat) (f : Crew → Crew) : (s.modCrew k f).free = s.free := rfl
@[simp] theorem State.pending_setCrew (s : State) (k : Nat) (x : Crew) : (s.setCrew k x).pending = s.pending := rfl
@[simp] theorem State.pending_modCrew (s : State) (k : Nat) (f : Crew → Crew) : (s.modCrew k f).pending = s.pending := rfl
@[simp] theorem State.crew_setQueue (s : State) (j : Nat) (k : QueueId) (x : Queue) : (s.setQueue k x).crew j = s.crew j := rfl
@[simp] theorem State.crew_modQueue (s : State) (j : Nat) (k : QueueId) (f : Queue → Queue) : (s.modQueue k f).crew j = s.crew j := rfl
@[simp] theorem State.crew_setCtx (s : State) (j : Nat) (k : Nat) (x : Ctx) : (s.setCtx k x).crew j = s.crew j := rfl
@[simp] theorem State.crew_modCtx (s : State) (j : Nat) (k : Nat) (f : Ctx → Ctx) : (s.modCtx k f).crew j = s.crew j := rfl
@[simp] theorem State.crew_setArr (s : State) (j : Nat) (k : Nat) (x : Arr) : (s.setArr k x).crew j = s.crew j := rfl
@[simp] theorem State.crew_modArr (s : State) (j : Nat) (k : Nat) (f : Arr → Arr) : (s.modArr k f).crew j = s.crew j := rfl
@[simp] theorem State.crew_setVe (s : State) (j : Nat) (k : Nat) (x : Ve) : (s.setVe k x).crew j = s.crew j := rfl
@[simp] theorem State.crew_modVe (s : State) (j : Nat) (k : Nat) (f : Ve → Ve) : (s.modVe k f).crew j = s.crew j := rfl
@[simp] theorem State.crew_setPort (s : State) (j : Nat) (k : Nat) (x : Port) : (s.setPort k x).crew j = s.crew j := rfl
@[simp] theorem State.crew_modPort (s : State) (j : Nat) (k : Nat) (f : Port → Port) : (s.modPort k f).crew j = s.crew j := rfl
@[simp] theorem State.crew_setCounter (s : State) (j : Nat) (k : Nat) (x : Dword) : (s.setCounter k x).crew j = s.crew j := rfl

/-! ## arr -/
@[simp] theorem State.arr_setArr_same (s : State) (k : Nat) (x : Arr) : (s.setArr k x).arr k = x := by
  simp [State.arr, State.setArr]
theorem State.arr_setArr_other (s : State) (j k : Nat) (x : Arr) (h : j ≠ k) : (s.setArr k x).arr j = s.arr j := by
  simp [State.arr, State.setArr, Tbl.get_set_other _ _ _ _ _ h]
@[simp] theorem State.arr_modArr_same (s : State) (k : Nat) (f : Arr → Arr) : (s.modArr k f).arr k = f (s.arr k) := by
  simp [State.modArr]
theorem State.arr_modArr_other (s : State) (j k : Nat) (f : Arr → Arr) (h : j ≠ k) : (s.modArr k f).arr j = s.arr j := by
  simp [State.modArr, State.arr_setArr_other _ _ _ _ h]
@[simp] theorem State.dev_setArr (s : State) (k : Nat) (x : Arr) : (s.setArr k x).dev = s.dev := rfl
@[simp] theorem State.dev_modArr (s : State) (k : Nat) (f : Arr → Arr) : (s.modArr k f).dev = s.dev := rfl
@[simp] theorem State.env_setArr (s : State) (k : Nat) (x : Arr) : (s.setArr k x).env = s.env := rfl
@[simp] theorem State.env_modArr (s : State) (k : Nat) (f : Arr → Arr) : (s.modArr k f).env = s.env := rfl
@[simp] theorem State.cfg_setArr (s : State) (k : Nat) (x : Arr) : (s.setArr k x).cfg = s.cfg := rfl
@[simp] theorem State.cfg_modArr (s : State) (k : Nat) (f : Arr → Arr) : (s.modArr k f).cfg = s.cfg := rfl
@[simp] theorem State.gov_setArr (s : State) (k : Nat) (x : Arr) : (s.setArr k x).gov = s.gov := rfl
@[simp] theorem State.gov_modArr (s : State) (k : Nat) (f : Arr → Arr) : (s.modArr k f).gov = s.gov := rfl
@[simp] theorem State.tel_setArr (s : State) (k : Nat) (x : Arr) : (s.setArr k x).tel = s.tel := rfl
@[simp] theorem State.tel_modArr (s : State) (k : Nat) (f : Arr → Arr) : (s.modArr k f).tel = s.tel := rfl
@[simp] theorem State.sec_setArr (s : State) (k : Nat) (x : Arr) : (s.setArr k x).sec = s.sec := rfl
@[simp] theorem State.sec_modArr (s : State) (k : Nat) (f : Arr → Arr) : (s.modArr k f).sec = s.sec := rfl
@[simp] theorem State.sig_setArr (s : State) (k : Nat) (x : Arr) : (s.setArr k x).sig = s.sig := rfl
@[simp] theorem State.sig_modArr (s : State) (k : Nat) (f : Arr → Arr) : (s.modArr k f).sig = s.sig := rfl
@[simp] theorem State.group_setArr (s : State) (k : Nat) (x : Arr) : (s.setArr k x).group = s.group := rfl
@[simp] theorem State.group_modArr (s : State) (k : Nat) (f : Arr → Arr) : (s.modArr k f).group = s.group := rfl
@[simp] theorem State.ports_setArr (s : State) (k : Nat) (x : Arr) : (s.setArr k x).ports = s.ports := rfl
@[simp] theorem State.ports_modArr (s : State) (k : Nat) (f : Arr → Arr) : (s.modArr k f).ports = s.ports := rfl
@[simp] theorem State.queues_setArr (s : State) (k : Nat) (x : Arr) : (s.setArr k x).queues = s.queues := rfl
@[simp] theorem State.queues_modArr (s : State) (k : Nat) (f : Arr → Arr) : (s.modArr k f).queues = s.queues := rfl
@[simp] theorem State.ctxs_setArr (s : State) (k : Nat) (x : Arr) : (s.setArr k x).ctxs = s.ctxs := rfl
@[simp] theorem State.ctxs_modArr (s : State) (k : Nat) (f : Arr → Arr) : (s.modArr k f).ctxs = s.ctxs := rfl
@[simp] theorem State.crews_setArr (s : State) (k : Nat) (x : Arr) : (s.setArr k x).crews = s.crews := rfl
@[simp] theorem State.crews_modArr (s : State) (k : Nat) (f : Arr → Arr) : (s.modArr k f).crews = s.crews := rfl
@[simp] theorem State.ves_setArr (s : State) (k : Nat) (x : Arr) : (s.setArr k x).ves = s.ves := rfl
@[simp] theorem State.ves_modArr (s : State) (k : Nat) (f : Arr → Arr) : (s.modArr k f).ves = s.ves := rfl
@[simp] theorem State.counters_setArr (s : State) (k : Nat) (x : Arr) : (s.setArr k x).counters = s.counters := rfl
@[simp] theorem State.counters_modArr (s : State) (k : Nat) (f : Arr → Arr) : (s.modArr k f).counters = s.counters := rfl
@[simp] theorem State.cmds_setArr (s : State) (k : Nat) (x : Arr) : (s.setArr k x).cmds = s.cmds := rfl
@[simp] theorem State.cmds_modArr (s : State) (k : Nat) (f : Arr → Arr) : (s.modArr k f).cmds = s.cmds := rfl
@[simp] theorem State.seq_setArr (s : State) (k : Nat) (x : Arr) : (s.setArr k x).seq = s.seq := rfl
@[simp] theorem State.seq_modArr (s : State) (k : Nat) (f : Arr → Arr) : (s.modArr k f).seq = s.seq := rfl
@[simp] theorem State.parts_setArr (s : State) (k : Nat) (x : Arr) : (s.setArr k x).parts = s.parts := rfl
@[simp] theorem State.parts_modArr (s : State) (k : Nat) (f : Arr → Arr) : (s.modArr k f).parts = s.parts := rfl
@[simp] theorem State.bowW_setArr (s : State) (k : Nat) (x : Arr) : (s.setArr k x).bowW = s.bowW := rfl
@[simp] theorem State.bowW_modArr (s : State) (k : Nat) (f : Arr → Arr) : (s.modArr k f).bowW = s.bowW := rfl
@[simp] theorem State.censusQ_setArr (s : State) (k : Nat) (x : Arr) : (s.setArr k x).censusQ = s.censusQ := rfl
@[simp] theorem State.censusQ_modArr (s : State) (k : Nat) (f : Arr → Arr) : (s.modArr k f).censusQ = s.censusQ := rfl
@[simp] theorem State.refreshQ_setArr (s : State) (k : Nat) (x : Arr) : (s.setArr k x).refreshQ = s.refreshQ := rfl
@[simp] theorem State.refreshQ_modArr (s : State) (k : Nat) (f : Arr → Arr) : (s.modArr k f).refreshQ = s.refreshQ := rfl
@[simp] theorem State.host_setArr (s : State) (k : Nat) (x : Arr) : (s.setArr k x).host = s.host := rfl
@[simp] theorem State.host_modArr (s : State) (k : Nat) (f : Arr → Arr) : (s.modArr k f).host = s.host := rfl
@[simp] theorem State.outs_setArr (s : State) (k : Nat) (x : Arr) : (s.setArr k x).outs = s.outs := rfl
@[simp] theorem State.outs_modArr (s : State) (k : Nat) (f : Arr → Arr) : (s.modArr k f).outs = s.outs := rfl
@[simp] theorem State.free_setArr (s : State) (k : Nat) (x : Arr) : (s.setArr k x).free = s.free := rfl
@[simp] theorem State.free_modArr (s : State) (k : Nat) (f : Arr → Arr) : (s.modArr k f).free = s.free := rfl
@[simp] theorem State.pending_setArr (s : State) (k : Nat) (x : Arr) : (s.setArr k x).pending = s.pending := rfl
@[simp] theorem State.pending_modArr (s : State) (k : Nat) (f : Arr → Arr) : (s.modArr k f).pending = s.pending := rfl
@[simp] theorem State.arr_setQueue (s : State) (j : Nat) (k : QueueId) (x : Queue) : (s.setQueue k x).arr j = s.arr j := rfl
@[simp] theorem State.arr_modQueue (s : State) (j : Nat) (k : QueueId) (f : Queue → Queue) : (s.modQueue k f).arr j = s.arr j := rfl
@[simp] theorem State.arr_setCtx (s : State) (j : Nat) (k : Nat) (x : Ctx) : (s.setCtx k x).arr j = s.arr j := rfl
@[simp] theorem State.arr_modCtx (s : State) (j : Nat) (k : Nat) (f : Ctx → Ctx) : (s.modCtx k f).arr j = s.arr j := rfl
@[simp] theorem State.arr_setCrew (s : State) (j : Nat) (k : Nat) (x : Crew) : (s.setCrew k x).arr j = s.arr j := rfl
@[simp] theorem State.arr_modCrew (s : State) (j : Nat) (k : Nat) (f : Crew → Crew) : (s.modCrew k f).arr j = s.arr j := rfl
@[simp] theorem State.arr_setVe (s : State) (j : Nat) (k : Nat) (x : Ve) : (s.setVe k x).arr j = s.arr j := rfl
@[simp] theorem State.arr_modVe (s : State) (j : Nat) (k : Nat) (f : Ve → Ve) : (s.modVe k f).arr j = s.arr j := rfl
@[simp] theorem State.arr_setPort (s : State) (j : Nat) (k : Nat) (x : Port) : (s.setPort k x).arr j = s.arr j := rfl
@[simp] theorem State.arr_modPort (s : State) (j : Nat) (k : Nat) (f : Port → Port) : (s.modPort k f).arr j = s.arr j := rfl
@[simp] theorem State.arr_setCounter (s : State) (j : Nat) (k : Nat) (x : Dword) : (s.setCounter k x).arr j = s.arr j := rfl

/-! ## ve -/
@[simp] theorem State.ve_setVe_same (s : State) (k : Nat) (x : Ve) : (s.setVe k x).ve k = x := by
  simp [State.ve, State.setVe]
theorem State.ve_setVe_other (s : State) (j k : Nat) (x : Ve) (h : j ≠ k) : (s.setVe k x).ve j = s.ve j := by
  simp [State.ve, State.setVe, Tbl.get_set_other _ _ _ _ _ h]
@[simp] theorem State.ve_modVe_same (s : State) (k : Nat) (f : Ve → Ve) : (s.modVe k f).ve k = f (s.ve k) := by
  simp [State.modVe]
theorem State.ve_modVe_other (s : State) (j k : Nat) (f : Ve → Ve) (h : j ≠ k) : (s.modVe k f).ve j = s.ve j := by
  simp [State.modVe, State.ve_setVe_other _ _ _ _ h]
@[simp] theorem State.dev_setVe (s : State) (k : Nat) (x : Ve) : (s.setVe k x).dev = s.dev := rfl
@[simp] theorem State.dev_modVe (s : State) (k : Nat) (f : Ve → Ve) : (s.modVe k f).dev = s.dev := rfl
@[simp] theorem State.env_setVe (s : State) (k : Nat) (x : Ve) : (s.setVe k x).env = s.env := rfl
@[simp] theorem State.env_modVe (s : State) (k : Nat) (f : Ve → Ve) : (s.modVe k f).env = s.env := rfl
@[simp] theorem State.cfg_setVe (s : State) (k : Nat) (x : Ve) : (s.setVe k x).cfg = s.cfg := rfl
@[simp] theorem State.cfg_modVe (s : State) (k : Nat) (f : Ve → Ve) : (s.modVe k f).cfg = s.cfg := rfl
@[simp] theorem State.gov_setVe (s : State) (k : Nat) (x : Ve) : (s.setVe k x).gov = s.gov := rfl
@[simp] theorem State.gov_modVe (s : State) (k : Nat) (f : Ve → Ve) : (s.modVe k f).gov = s.gov := rfl
@[simp] theorem State.tel_setVe (s : State) (k : Nat) (x : Ve) : (s.setVe k x).tel = s.tel := rfl
@[simp] theorem State.tel_modVe (s : State) (k : Nat) (f : Ve → Ve) : (s.modVe k f).tel = s.tel := rfl
@[simp] theorem State.sec_setVe (s : State) (k : Nat) (x : Ve) : (s.setVe k x).sec = s.sec := rfl
@[simp] theorem State.sec_modVe (s : State) (k : Nat) (f : Ve → Ve) : (s.modVe k f).sec = s.sec := rfl
@[simp] theorem State.sig_setVe (s : State) (k : Nat) (x : Ve) : (s.setVe k x).sig = s.sig := rfl
@[simp] theorem State.sig_modVe (s : State) (k : Nat) (f : Ve → Ve) : (s.modVe k f).sig = s.sig := rfl
@[simp] theorem State.group_setVe (s : State) (k : Nat) (x : Ve) : (s.setVe k x).group = s.group := rfl
@[simp] theorem State.group_modVe (s : State) (k : Nat) (f : Ve → Ve) : (s.modVe k f).group = s.group := rfl
@[simp] theorem State.ports_setVe (s : State) (k : Nat) (x : Ve) : (s.setVe k x).ports = s.ports := rfl
@[simp] theorem State.ports_modVe (s : State) (k : Nat) (f : Ve → Ve) : (s.modVe k f).ports = s.ports := rfl
@[simp] theorem State.queues_setVe (s : State) (k : Nat) (x : Ve) : (s.setVe k x).queues = s.queues := rfl
@[simp] theorem State.queues_modVe (s : State) (k : Nat) (f : Ve → Ve) : (s.modVe k f).queues = s.queues := rfl
@[simp] theorem State.ctxs_setVe (s : State) (k : Nat) (x : Ve) : (s.setVe k x).ctxs = s.ctxs := rfl
@[simp] theorem State.ctxs_modVe (s : State) (k : Nat) (f : Ve → Ve) : (s.modVe k f).ctxs = s.ctxs := rfl
@[simp] theorem State.crews_setVe (s : State) (k : Nat) (x : Ve) : (s.setVe k x).crews = s.crews := rfl
@[simp] theorem State.crews_modVe (s : State) (k : Nat) (f : Ve → Ve) : (s.modVe k f).crews = s.crews := rfl
@[simp] theorem State.arrs_setVe (s : State) (k : Nat) (x : Ve) : (s.setVe k x).arrs = s.arrs := rfl
@[simp] theorem State.arrs_modVe (s : State) (k : Nat) (f : Ve → Ve) : (s.modVe k f).arrs = s.arrs := rfl
@[simp] theorem State.counters_setVe (s : State) (k : Nat) (x : Ve) : (s.setVe k x).counters = s.counters := rfl
@[simp] theorem State.counters_modVe (s : State) (k : Nat) (f : Ve → Ve) : (s.modVe k f).counters = s.counters := rfl
@[simp] theorem State.cmds_setVe (s : State) (k : Nat) (x : Ve) : (s.setVe k x).cmds = s.cmds := rfl
@[simp] theorem State.cmds_modVe (s : State) (k : Nat) (f : Ve → Ve) : (s.modVe k f).cmds = s.cmds := rfl
@[simp] theorem State.seq_setVe (s : State) (k : Nat) (x : Ve) : (s.setVe k x).seq = s.seq := rfl
@[simp] theorem State.seq_modVe (s : State) (k : Nat) (f : Ve → Ve) : (s.modVe k f).seq = s.seq := rfl
@[simp] theorem State.parts_setVe (s : State) (k : Nat) (x : Ve) : (s.setVe k x).parts = s.parts := rfl
@[simp] theorem State.parts_modVe (s : State) (k : Nat) (f : Ve → Ve) : (s.modVe k f).parts = s.parts := rfl
@[simp] theorem State.bowW_setVe (s : State) (k : Nat) (x : Ve) : (s.setVe k x).bowW = s.bowW := rfl
@[simp] theorem State.bowW_modVe (s : State) (k : Nat) (f : Ve → Ve) : (s.modVe k f).bowW = s.bowW := rfl
@[simp] theorem State.censusQ_setVe (s : State) (k : Nat) (x : Ve) : (s.setVe k x).censusQ = s.censusQ := rfl
@[simp] theorem State.censusQ_modVe (s : State) (k : Nat) (f : Ve → Ve) : (s.modVe k f).censusQ = s.censusQ := rfl
@[simp] theorem State.refreshQ_setVe (s : State) (k : Nat) (x : Ve) : (s.setVe k x).refreshQ = s.refreshQ := rfl
@[simp] theorem State.refreshQ_modVe (s : State) (k : Nat) (f : Ve → Ve) : (s.modVe k f).refreshQ = s.refreshQ := rfl
@[simp] theorem State.host_setVe (s : State) (k : Nat) (x : Ve) : (s.setVe k x).host = s.host := rfl
@[simp] theorem State.host_modVe (s : State) (k : Nat) (f : Ve → Ve) : (s.modVe k f).host = s.host := rfl
@[simp] theorem State.outs_setVe (s : State) (k : Nat) (x : Ve) : (s.setVe k x).outs = s.outs := rfl
@[simp] theorem State.outs_modVe (s : State) (k : Nat) (f : Ve → Ve) : (s.modVe k f).outs = s.outs := rfl
@[simp] theorem State.free_setVe (s : State) (k : Nat) (x : Ve) : (s.setVe k x).free = s.free := rfl
@[simp] theorem State.free_modVe (s : State) (k : Nat) (f : Ve → Ve) : (s.modVe k f).free = s.free := rfl
@[simp] theorem State.pending_setVe (s : State) (k : Nat) (x : Ve) : (s.setVe k x).pending = s.pending := rfl
@[simp] theorem State.pending_modVe (s : State) (k : Nat) (f : Ve → Ve) : (s.modVe k f).pending = s.pending := rfl
@[simp] theorem State.ve_setQueue (s : State) (j : Nat) (k : QueueId) (x : Queue) : (s.setQueue k x).ve j = s.ve j := rfl
@[simp] theorem State.ve_modQueue (s : State) (j : Nat) (k : QueueId) (f : Queue → Queue) : (s.modQueue k f).ve j = s.ve j := rfl
@[simp] theorem State.ve_setCtx (s : State) (j : Nat) (k : Nat) (x : Ctx) : (s.setCtx k x).ve j = s.ve j := rfl
@[simp] theorem State.ve_modCtx (s : State) (j : Nat) (k : Nat) (f : Ctx → Ctx) : (s.modCtx k f).ve j = s.ve j := rfl
@[simp] theorem State.ve_setCrew (s : State) (j : Nat) (k : Nat) (x : Crew) : (s.setCrew k x).ve j = s.ve j := rfl
@[simp] theorem State.ve_modCrew (s : State) (j : Nat) (k : Nat) (f : Crew → Crew) : (s.modCrew k f).ve j = s.ve j := rfl
@[simp] theorem State.ve_setArr (s : State) (j : Nat) (k : Nat) (x : Arr) : (s.setArr k x).ve j = s.ve j := rfl
@[simp] theorem State.ve_modArr (s : State) (j : Nat) (k : Nat) (f : Arr → Arr) : (s.modArr k f).ve j = s.ve j := rfl
@[simp] theorem State.ve_setPort (s : State) (j : Nat) (k : Nat) (x : Port) : (s.setPort k x).ve j = s.ve j := rfl
@[simp] theorem State.ve_modPort (s : State) (j : Nat) (k : Nat) (f : Port → Port) : (s.modPort k f).ve j = s.ve j := rfl
@[simp] theorem State.ve_setCounter (s : State) (j : Nat) (k : Nat) (x : Dword) : (s.setCounter k x).ve j = s.ve j := rfl

/-! ## port -/
@[simp] theorem State.port_setPort_same (s : State) (k : Nat) (x : Port) : (s.setPort k x).port k = x := by
  simp [State.port, State.setPort]
theorem State.port_setPort_other (s : State) (j k : Nat) (x : Port) (h : j ≠ k) : (s.setPort k x).port j = s.port j := by
  simp [State.port, State.setPort, Tbl.get_set_other _ _ _ _ _ h]
@[simp] theorem State.port_modPort_same (s : State) (k : Nat) (f : Port → Port) : (s.modPort k f).port k = f (s.port k) := by
  simp [State.modPort]
theorem State.port_modPort_other (s : State) (j k : Nat) (f : Port → Port) (h : j ≠ k) : (s.modPort k f).port j = s.port j := by
  simp [State.modPort, State.port_setPort_other _ _ _ _ h]
@[simp] theorem State.dev_setPort (s : State) (k : Nat) (x : Port) : (s.setPort k x).dev = s.dev := rfl
@[simp] theorem State.dev_modPort (s : State) (k : Nat) (f : Port → Port) : (s.modPort k f).dev = s.dev := rfl
@[simp] theorem State.env_setPort (s : State) (k : Nat) (x : Port) : (s.setPort k x).env = s.env := rfl
@[simp] theorem State.env_modPort (s : State) (k : Nat) (f : Port → Port) : (s.modPort k f).env = s.env := rfl
@[simp] theorem State.cfg_setPort (s : State) (k : Nat) (x : Port) : (s.setPort k x).cfg = s.cfg := rfl
@[simp] theorem State.cfg_modPort (s : State) (k : Nat) (f : Port → Port) : (s.modPort k f).cfg = s.cfg := rfl
@[simp] theorem State.gov_setPort (s : State) (k : Nat) (x : Port) : (s.setPort k x).gov = s.gov := rfl
@[simp] theorem State.gov_modPort (s : State) (k : Nat) (f : Port → Port) : (s.modPort k f).gov = s.gov := rfl
@[simp] theorem State.tel_setPort (s : State) (k : Nat) (x : Port) : (s.setPort k x).tel = s.tel := rfl
@[simp] theorem State.tel_modPort (s : State) (k : Nat) (f : Port → Port) : (s.modPort k f).tel = s.tel := rfl
@[simp] theorem State.sec_setPort (s : State) (k : Nat) (x : Port) : (s.setPort k x).sec = s.sec := rfl
@[simp] theorem State.sec_modPort (s : State) (k : Nat) (f : Port → Port) : (s.modPort k f).sec = s.sec := rfl
@[simp] theorem State.sig_setPort (s : State) (k : Nat) (x : Port) : (s.setPort k x).sig = s.sig := rfl
@[simp] theorem State.sig_modPort (s : State) (k : Nat) (f : Port → Port) : (s.modPort k f).sig = s.sig := rfl
@[simp] theorem State.group_setPort (s : State) (k : Nat) (x : Port) : (s.setPort k x).group = s.group := rfl
@[simp] theorem State.group_modPort (s : State) (k : Nat) (f : Port → Port) : (s.modPort k f).group = s.group := rfl
@[simp] theorem State.queues_setPort (s : State) (k : Nat) (x : Port) : (s.setPort k x).queues = s.queues := rfl
@[simp] theorem State.queues_modPort (s : State) (k : Nat) (f : Port → Port) : (s.modPort k f).queues = s.queues := rfl
@[simp] theorem State.ctxs_setPort (s : State) (k : Nat) (x : Port) : (s.setPort k x).ctxs = s.ctxs := rfl
@[simp] theorem State.ctxs_modPort (s : State) (k : Nat) (f : Port → Port) : (s.modPort k f).ctxs = s.ctxs := rfl
@[simp] theorem State.crews_setPort (s : State) (k : Nat) (x : Port) : (s.setPort k x).crews = s.crews := rfl
@[simp] theorem State.crews_modPort (s : State) (k : Nat) (f : Port → Port) : (s.modPort k f).crews = s.crews := rfl
@[simp] theorem State.arrs_setPort (s : State) (k : Nat) (x : Port) : (s.setPort k x).arrs = s.arrs := rfl
@[simp] theorem State.arrs_modPort (s : State) (k : Nat) (f : Port → Port) : (s.modPort k f).arrs = s.arrs := rfl
@[simp] theorem State.ves_setPort (s : State) (k : Nat) (x : Port) : (s.setPort k x).ves = s.ves := rfl
@[simp] theorem State.ves_modPort (s : State) (k : Nat) (f : Port → Port) : (s.modPort k f).ves = s.ves := rfl
@[simp] theorem State.counters_setPort (s : State) (k : Nat) (x : Port) : (s.setPort k x).counters = s.counters := rfl
@[simp] theorem State.counters_modPort (s : State) (k : Nat) (f : Port → Port) : (s.modPort k f).counters = s.counters := rfl
@[simp] theorem State.cmds_setPort (s : State) (k : Nat) (x : Port) : (s.setPort k x).cmds = s.cmds := rfl
@[simp] theorem State.cmds_modPort (s : State) (k : Nat) (f : Port → Port) : (s.modPort k f).cmds = s.cmds := rfl
@[simp] theorem State.seq_setPort (s : State) (k : Nat) (x : Port) : (s.setPort k x).seq = s.seq := rfl
@[simp] theorem State.seq_modPort (s : State) (k : Nat) (f : Port → Port) : (s.modPort k f).seq = s.seq := rfl
@[simp] theorem State.parts_setPort (s : State) (k : Nat) (x : Port) : (s.setPort k x).parts = s.parts := rfl
@[simp] theorem State.parts_modPort (s : State) (k : Nat) (f : Port → Port) : (s.modPort k f).parts = s.parts := rfl
@[simp] theorem State.bowW_setPort (s : State) (k : Nat) (x : Port) : (s.setPort k x).bowW = s.bowW := rfl
@[simp] theorem State.bowW_modPort (s : State) (k : Nat) (f : Port → Port) : (s.modPort k f).bowW = s.bowW := rfl
@[simp] theorem State.censusQ_setPort (s : State) (k : Nat) (x : Port) : (s.setPort k x).censusQ = s.censusQ := rfl
@[simp] theorem State.censusQ_modPort (s : State) (k : Nat) (f : Port → Port) : (s.modPort k f).censusQ = s.censusQ := rfl
@[simp] theorem State.refreshQ_setPort (s : State) (k : Nat) (x : Port) : (s.setPort k x).refreshQ = s.refreshQ := rfl
@[simp] theorem State.refreshQ_modPort (s : State) (k : Nat) (f : Port → Port) : (s.modPort k f).refreshQ = s.refreshQ := rfl
@[simp] theorem State.host_setPort (s : State) (k : Nat) (x : Port) : (s.setPort k x).host = s.host := rfl
@[simp] theorem State.host_modPort (s : State) (k : Nat) (f : Port → Port) : (s.modPort k f).host = s.host := rfl
@[simp] theorem State.outs_setPort (s : State) (k : Nat) (x : Port) : (s.setPort k x).outs = s.outs := rfl
@[simp] theorem State.outs_modPort (s : State) (k : Nat) (f : Port → Port) : (s.modPort k f).outs = s.outs := rfl
@[simp] theorem State.free_setPort (s : State) (k : Nat) (x : Port) : (s.setPort k x).free = s.free := rfl
@[simp] theorem State.free_modPort (s : State) (k : Nat) (f : Port → Port) : (s.modPort k f).free = s.free := rfl
@[simp] theorem State.pending_setPort (s : State) (k : Nat) (x : Port) : (s.setPort k x).pending = s.pending := rfl
@[simp] theorem State.pending_modPort (s : State) (k : Nat) (f : Port → Port) : (s.modPort k f).pending = s.pending := rfl
@[simp] theorem State.port_setQueue (s : State) (j : Nat) (k : QueueId) (x : Queue) : (s.setQueue k x).port j = s.port j := rfl
@[simp] theorem State.port_modQueue (s : State) (j : Nat) (k : QueueId) (f : Queue → Queue) : (s.modQueue k f).port j = s.port j := rfl
@[simp] theorem State.port_setCtx (s : State) (j : Nat) (k : Nat) (x : Ctx) : (s.setCtx k x).port j = s.port j := rfl
@[simp] theorem State.port_modCtx (s : State) (j : Nat) (k : Nat) (f : Ctx → Ctx) : (s.modCtx k f).port j = s.port j := rfl
@[simp] theorem State.port_setCrew (s : State) (j : Nat) (k : Nat) (x : Crew) : (s.setCrew k x).port j = s.port j := rfl
@[simp] theorem State.port_modCrew (s : State) (j : Nat) (k : Nat) (f : Crew → Crew) : (s.modCrew k f).port j = s.port j := rfl
@[simp] theorem State.port_setArr (s : State) (j : Nat) (k : Nat) (x : Arr) : (s.setArr k x).port j = s.port j := rfl
@[simp] theorem State.port_modArr (s : State) (j : Nat) (k : Nat) (f : Arr → Arr) : (s.modArr k f).port j = s.port j := rfl
@[simp] theorem State.port_setVe (s : State) (j : Nat) (k : Nat) (x : Ve) : (s.setVe k x).port j = s.port j := rfl
@[simp] theorem State.port_modVe (s : State) (j : Nat) (k : Nat) (f : Ve → Ve) : (s.modVe k f).port j = s.port j := rfl
@[simp] theorem State.port_setCounter (s : State) (j : Nat) (k : Nat) (x : Dword) : (s.setCounter k x).port j = s.port j := rfl

/-! ## counter -/
@[simp] theorem State.counter_setCounter_same (s : State) (k : Nat) (x : Dword) : (s.setCounter k x).counter k = x := by
  simp [State.counter, State.setCounter]
theorem State.counter_setCounter_other (s : State) (j k : Nat) (x : Dword) (h : j ≠ k) : (s.setCounter k x).counter j = s.counter j := by
  simp [State.counter, State.setCounter, Tbl.get_set_other _ _ _ _ _ h]
@[simp] theorem State.dev_setCounter (s : State) (k : Nat) (x : Dword) : (s.setCounter k x).dev = s.dev := rfl
@[simp] theorem State.env_setCounter (s : State) (k : Nat) (x : Dword) : (s.setCounter k x).env = s.env := rfl
@[simp] theorem State.cfg_setCounter (s : State) (k : Nat) (x : Dword) : (s.setCounter k x).cfg = s.cfg := rfl
@[simp] theorem State.gov_setCounter (s : State) (k : Nat) (x : Dword) : (s.setCounter k x).gov = s.gov := rfl
@[simp] theorem State.tel_setCounter (s : State) (k : Nat) (x : Dword) : (s.setCounter k x).tel = s.tel := rfl
@[simp] theorem State.sec_setCounter (s : State) (k : Nat) (x : Dword) : (s.setCounter k x).sec = s.sec := rfl
@[simp] theorem State.sig_setCounter (s : State) (k : Nat) (x : Dword) : (s.setCounter k x).sig = s.sig := rfl
@[simp] theorem State.group_setCounter (s : State) (k : Nat) (x : Dword) : (s.setCounter k x).group = s.group := rfl
@[simp] theorem State.ports_setCounter (s : State) (k : Nat) (x : Dword) : (s.setCounter k x).ports = s.ports := rfl
@[simp] theorem State.queues_setCounter (s : State) (k : Nat) (x : Dword) : (s.setCounter k x).queues = s.queues := rfl
@[simp] theorem State.ctxs_setCounter (s : State) (k : Nat) (x : Dword) : (s.setCounter k x).ctxs = s.ctxs := rfl
@[simp] theorem State.crews_setCounter (s : State) (k : Nat) (x : Dword) : (s.setCounter k x).crews = s.crews := rfl
@[simp] theorem State.arrs_setCounter (s : State) (k : Nat) (x : Dword) : (s.setCounter k x).arrs = s.arrs := rfl
@[simp] theorem State.ves_setCounter (s : State) (k : Nat) (x : Dword) : (s.setCounter k x).ves = s.ves := rfl
@[simp] theorem State.cmds_setCounter (s : State) (k : Nat) (x : Dword) : (s.setCounter k x).cmds = s.cmds := rfl
@[simp] theorem State.seq_setCounter (s : State) (k : Nat) (x : Dword) : (s.setCounter k x).seq = s.seq := rfl
@[simp] theorem State.parts_setCounter (s : State) (k : Nat) (x : Dword) : (s.setCounter k x).parts = s.parts := rfl
@[simp] theorem State.bowW_setCounter (s : State) (k : Nat) (x : Dword) : (s.setCounter k x).bowW = s.bowW := rfl
@[simp] theorem State.censusQ_setCounter (s : State) (k : Nat) (x : Dword) : (s.setCounter k x).censusQ = s.censusQ := rfl
@[simp] theorem State.refreshQ_setCounter (s : State) (k : Nat) (x : Dword) : (s.setCounter k x).refreshQ = s.refreshQ := rfl
@[simp] theorem State.host_setCounter (s : State) (k : Nat) (x : Dword) : (s.setCounter k x).host = s.host := rfl
@[simp] theorem State.outs_setCounter (s : State) (k : Nat) (x : Dword) : (s.setCounter k x).outs = s.outs := rfl
@[simp] theorem State.free_setCounter (s : State) (k : Nat) (x : Dword) : (s.setCounter k x).free = s.free := rfl
@[simp] theorem State.pending_setCounter (s : State) (k : Nat) (x : Dword) : (s.setCounter k x).pending = s.pending := rfl
@[simp] theorem State.counter_setQueue (s : State) (j : Nat) (k : QueueId) (x : Queue) : (s.setQueue k x).counter j = s.counter j := rfl
@[simp] theorem State.counter_modQueue (s : State) (j : Nat) (k : QueueId) (f : Queue → Queue) : (s.modQueue k f).counter j = s.counter j := rfl
@[simp] theorem State.counter_setCtx (s : State) (j : Nat) (k : Nat) (x : Ctx) : (s.setCtx k x).counter j = s.counter j := rfl
@[simp] theorem State.counter_modCtx (s : State) (j : Nat) (k : Nat) (f : Ctx → Ctx) : (s.modCtx k f).counter j = s.counter j := rfl
@[simp] theorem State.counter_setCrew (s : State) (j : Nat) (k : Nat) (x : Crew) : (s.setCrew k x).counter j = s.counter j := rfl
@[simp] theorem State.counter_modCrew (s : State) (j : Nat) (k : Nat) (f : Crew → Crew) : (s.modCrew k f).counter j = s.counter j := rfl
@[simp] theorem State.counter_setArr (s : State) (j : Nat) (k : Nat) (x : Arr) : (s.setArr k x).counter j = s.counter j := rfl
@[simp] theorem State.counter_modArr (s : State) (j : Nat) (k : Nat) (f : Arr → Arr) : (s.modArr k f).counter j = s.counter j := rfl
@[simp] theorem State.counter_setVe (s : State) (j : Nat) (k : Nat) (x : Ve) : (s.setVe k x).counter j = s.counter j := rfl
@[simp] theorem State.counter_modVe (s : State) (j : Nat) (k : Nat) (f : Ve → Ve) : (s.modVe k f).counter j = s.counter j := rfl
@[simp] theorem State.counter_setPort (s : State) (j : Nat) (k : Nat) (x : Port) : (s.setPort k x).counter j = s.counter j := rfl
@[simp] theorem State.counter_modPort (s : State) (j : Nat) (k : Nat) (f : Port → Port) : (s.modPort k f).counter j = s.counter j := rfl

/-! ## Host memory and what leaves the device -/
@[simp] theorem State.dev_writeHost (s : State) (a : Nat) (bs : List Byte) : (s.writeHost a bs).dev = s.dev := rfl
@[simp] theorem State.dev_out (s : State) (o : Out) : (s.out o).dev = s.dev := rfl
@[simp] theorem State.env_writeHost (s : State) (a : Nat) (bs : List Byte) : (s.writeHost a bs).env = s.env := rfl
@[simp] theorem State.env_out (s : State) (o : Out) : (s.out o).env = s.env := rfl
@[simp] theorem State.cfg_writeHost (s : State) (a : Nat) (bs : List Byte) : (s.writeHost a bs).cfg = s.cfg := rfl
@[simp] theorem State.cfg_out (s : State) (o : Out) : (s.out o).cfg = s.cfg := rfl
@[simp] theorem State.gov_writeHost (s : State) (a : Nat) (bs : List Byte) : (s.writeHost a bs).gov = s.gov := rfl
@[simp] theorem State.gov_out (s : State) (o : Out) : (s.out o).gov = s.gov := rfl
@[simp] theorem State.tel_writeHost (s : State) (a : Nat) (bs : List Byte) : (s.writeHost a bs).tel = s.tel := rfl
@[simp] theorem State.tel_out (s : State) (o : Out) : (s.out o).tel = s.tel := rfl
@[simp] theorem State.sec_writeHost (s : State) (a : Nat) (bs : List Byte) : (s.writeHost a bs).sec = s.sec := rfl
@[simp] theorem State.sec_out (s : State) (o : Out) : (s.out o).sec = s.sec := rfl
@[simp] theorem State.sig_writeHost (s : State) (a : Nat) (bs : List Byte) : (s.writeHost a bs).sig = s.sig := rfl
@[simp] theorem State.sig_out (s : State) (o : Out) : (s.out o).sig = s.sig := rfl
@[simp] theorem State.group_writeHost (s : State) (a : Nat) (bs : List Byte) : (s.writeHost a bs).group = s.group := rfl
@[simp] theorem State.group_out (s : State) (o : Out) : (s.out o).group = s.group := rfl
@[simp] theorem State.ports_writeHost (s : State) (a : Nat) (bs : List Byte) : (s.writeHost a bs).ports = s.ports := rfl
@[simp] theorem State.ports_out (s : State) (o : Out) : (s.out o).ports = s.ports := rfl
@[simp] theorem State.queues_writeHost (s : State) (a : Nat) (bs : List Byte) : (s.writeHost a bs).queues = s.queues := rfl
@[simp] theorem State.queues_out (s : State) (o : Out) : (s.out o).queues = s.queues := rfl
@[simp] theorem State.ctxs_writeHost (s : State) (a : Nat) (bs : List Byte) : (s.writeHost a bs).ctxs = s.ctxs := rfl
@[simp] theorem State.ctxs_out (s : State) (o : Out) : (s.out o).ctxs = s.ctxs := rfl
@[simp] theorem State.crews_writeHost (s : State) (a : Nat) (bs : List Byte) : (s.writeHost a bs).crews = s.crews := rfl
@[simp] theorem State.crews_out (s : State) (o : Out) : (s.out o).crews = s.crews := rfl
@[simp] theorem State.arrs_writeHost (s : State) (a : Nat) (bs : List Byte) : (s.writeHost a bs).arrs = s.arrs := rfl
@[simp] theorem State.arrs_out (s : State) (o : Out) : (s.out o).arrs = s.arrs := rfl
@[simp] theorem State.ves_writeHost (s : State) (a : Nat) (bs : List Byte) : (s.writeHost a bs).ves = s.ves := rfl
@[simp] theorem State.ves_out (s : State) (o : Out) : (s.out o).ves = s.ves := rfl
@[simp] theorem State.counters_writeHost (s : State) (a : Nat) (bs : List Byte) : (s.writeHost a bs).counters = s.counters := rfl
@[simp] theorem State.counters_out (s : State) (o : Out) : (s.out o).counters = s.counters := rfl
@[simp] theorem State.cmds_writeHost (s : State) (a : Nat) (bs : List Byte) : (s.writeHost a bs).cmds = s.cmds := rfl
@[simp] theorem State.cmds_out (s : State) (o : Out) : (s.out o).cmds = s.cmds := rfl
@[simp] theorem State.seq_writeHost (s : State) (a : Nat) (bs : List Byte) : (s.writeHost a bs).seq = s.seq := rfl
@[simp] theorem State.seq_out (s : State) (o : Out) : (s.out o).seq = s.seq := rfl
@[simp] theorem State.parts_writeHost (s : State) (a : Nat) (bs : List Byte) : (s.writeHost a bs).parts = s.parts := rfl
@[simp] theorem State.parts_out (s : State) (o : Out) : (s.out o).parts = s.parts := rfl
@[simp] theorem State.bowW_writeHost (s : State) (a : Nat) (bs : List Byte) : (s.writeHost a bs).bowW = s.bowW := rfl
@[simp] theorem State.bowW_out (s : State) (o : Out) : (s.out o).bowW = s.bowW := rfl
@[simp] theorem State.censusQ_writeHost (s : State) (a : Nat) (bs : List Byte) : (s.writeHost a bs).censusQ = s.censusQ := rfl
@[simp] theorem State.censusQ_out (s : State) (o : Out) : (s.out o).censusQ = s.censusQ := rfl
@[simp] theorem State.refreshQ_writeHost (s : State) (a : Nat) (bs : List Byte) : (s.writeHost a bs).refreshQ = s.refreshQ := rfl
@[simp] theorem State.refreshQ_out (s : State) (o : Out) : (s.out o).refreshQ = s.refreshQ := rfl
@[simp] theorem State.host_out (s : State) (o : Out) : (s.out o).host = s.host := rfl
@[simp] theorem State.outs_writeHost (s : State) (a : Nat) (bs : List Byte) : (s.writeHost a bs).outs = s.outs := rfl
@[simp] theorem State.free_writeHost (s : State) (a : Nat) (bs : List Byte) : (s.writeHost a bs).free = s.free := rfl
@[simp] theorem State.free_out (s : State) (o : Out) : (s.out o).free = s.free := rfl
@[simp] theorem State.pending_writeHost (s : State) (a : Nat) (bs : List Byte) : (s.writeHost a bs).pending = s.pending := rfl
@[simp] theorem State.pending_out (s : State) (o : Out) : (s.out o).pending = s.pending := rfl
@[simp] theorem State.queue_writeHost (s : State) (k : QueueId) (a : Nat) (bs : List Byte) : (s.writeHost a bs).queue k = s.queue k := rfl
@[simp] theorem State.queue_out (s : State) (k : QueueId) (o : Out) : (s.out o).queue k = s.queue k := rfl
@[simp] theorem State.ctx_writeHost (s : State) (k : Nat) (a : Nat) (bs : List Byte) : (s.writeHost a bs).ctx k = s.ctx k := rfl
@[simp] theorem State.ctx_out (s : State) (k : Nat) (o : Out) : (s.out o).ctx k = s.ctx k := rfl
@[simp] theorem State.crew_writeHost (s : State) (k : Nat) (a : Nat) (bs : List Byte) : (s.writeHost a bs).crew k = s.crew k := rfl
@[simp] theorem State.crew_out (s : State) (k : Nat) (o : Out) : (s.out o).crew k = s.crew k := rfl
@[simp] theorem State.arr_writeHost (s : State) (k : Nat) (a : Nat) (bs : List Byte) : (s.writeHost a bs).arr k = s.arr k := rfl
@[simp] theorem State.arr_out (s : State) (k : Nat) (o : Out) : (s.out o).arr k = s.arr k := rfl
@[simp] theorem State.ve_writeHost (s : State) (k : Nat) (a : Nat) (bs : List Byte) : (s.writeHost a bs).ve k = s.ve k := rfl
@[simp] theorem State.ve_out (s : State) (k : Nat) (o : Out) : (s.out o).ve k = s.ve k := rfl
@[simp] theorem State.port_writeHost (s : State) (k : Nat) (a : Nat) (bs : List Byte) : (s.writeHost a bs).port k = s.port k := rfl
@[simp] theorem State.port_out (s : State) (k : Nat) (o : Out) : (s.out o).port k = s.port k := rfl
@[simp] theorem State.counter_writeHost (s : State) (k : Nat) (a : Nat) (bs : List Byte) : (s.writeHost a bs).counter k = s.counter k := rfl
@[simp] theorem State.counter_out (s : State) (k : Nat) (o : Out) : (s.out o).counter k = s.counter k := rfl

/-! ## A fold of state changes -/
/-- What holds at the start and is kept by every change holds at the end. -/
theorem State.each_keeps {α : Type} {P : State → Prop} {f : State → α → State} (l : List α) {s : State} (h : P s)
    (hf : ∀ t x, P t → P (f t x)) : P (s.each l f) := by
  unfold State.each
  induction l generalizing s with
  | nil => exact h
  | cons x l ih => exact ih (hf s x h)

@[simp] theorem State.each_nil {α : Type} (s : State) (f : State → α → State) : s.each [] f = s := rfl
theorem State.each_cons {α : Type} (s : State) (x : α) (l : List α) (f : State → α → State) :
    s.each (x :: l) f = (f s x).each l f := rfl

end Sys2Proof.Machine
end

