-- ==== Sys2Proof/Laws/KeepsBase.lean ====
section
/-! SUPPORT. What every operation keeps: the relation Keeps is closed under each update of the state. -/
namespace Sys2Proof.Machine

theorem Keeps.refl (s : State) : Keeps s s := ⟨rfl, id, fun h => ⟨h, rfl⟩⟩

theorem Keeps.trans {a b c : State} (h : Keeps a b) (k : Keeps b c) : Keeps a c :=
  ⟨k.pending.trans h.pending, fun x => k.canonical (h.canonical x),
   fun x => ⟨(k.safe (h.safe x).1).1, (k.safe (h.safe x).1).2.trans (h.safe x).2⟩⟩

/-- An update that leaves the waiting commands, the host's memory and the tables alone, and the state and cause of the
device. -/
theorem K.gen {s0 s : State} (h : Keeps s0 s) {dev : Dev} {env : Env} {cfg : Cfg} {gov : Gov} {tel : Tel} {sec : Sec}
    {sig : Sig} {group : Group} {cmds : List Cmd} {seq : Nat} {parts : List Part} {bowW : List (Nat × Nat × Nat × F32)}
    {censusQ refreshQ : List Nat} {outs : List Out} {free : Nat}
    (hd : s.dev.st = .safe → dev.st = .safe ∧ dev.safeCause = s.dev.safeCause) :
    Keeps s0 ⟨dev, env, cfg, gov, tel, sec, sig, group, s.ports, s.queues, s.ctxs, s.crews, s.arrs, s.ves, s.counters, cmds,
      seq, parts, bowW, censusQ, refreshQ, s.host, outs, free, s.pending⟩ :=
  h.trans ⟨rfl, fun c => ⟨c.host, c.queues, c.ctxs, c.crews, c.arrs, c.ves, c.ports, c.counters⟩, hd⟩

theorem K.setQueue {s0 s : State} (h : Keeps s0 s) (q : QueueId) (x : Queue) : Keeps s0 (s.setQueue q x) :=
  h.trans ⟨rfl, fun c => ⟨c.host, Tbl.wf_set _ _ c.queues, c.ctxs, c.crews, c.arrs, c.ves, c.ports, c.counters⟩, fun h => ⟨h, rfl⟩⟩
theorem K.setCtx {s0 s : State} (h : Keeps s0 s) (k : Nat) (x : Ctx) : Keeps s0 (s.setCtx k x) :=
  h.trans ⟨rfl, fun c => ⟨c.host, c.queues, Tbl.wf_set _ _ c.ctxs, c.crews, c.arrs, c.ves, c.ports, c.counters⟩, fun h => ⟨h, rfl⟩⟩
theorem K.setCrew {s0 s : State} (h : Keeps s0 s) (k : Nat) (x : Crew) : Keeps s0 (s.setCrew k x) :=
  h.trans ⟨rfl, fun c => ⟨c.host, c.queues, c.ctxs, Tbl.wf_set _ _ c.crews, c.arrs, c.ves, c.ports, c.counters⟩, fun h => ⟨h, rfl⟩⟩
theorem K.setArr {s0 s : State} (h : Keeps s0 s) (k : Nat) (x : Arr) : Keeps s0 (s.setArr k x) :=
  h.trans ⟨rfl, fun c => ⟨c.host, c.queues, c.ctxs, c.crews, Tbl.wf_set _ _ c.arrs, c.ves, c.ports, c.counters⟩, fun h => ⟨h, rfl⟩⟩
theorem K.setVe {s0 s : State} (h : Keeps s0 s) (k : Nat) (x : Ve) : Keeps s0 (s.setVe k x) :=
  h.trans ⟨rfl, fun c => ⟨c.host, c.queues, c.ctxs, c.crews, c.arrs, Tbl.wf_set _ _ c.ves, c.ports, c.counters⟩, fun h => ⟨h, rfl⟩⟩
theorem K.setPort {s0 s : State} (h : Keeps s0 s) (k : Nat) (x : Port) : Keeps s0 (s.setPort k x) :=
  h.trans ⟨rfl, fun c => ⟨c.host, c.queues, c.ctxs, c.crews, c.arrs, c.ves, Tbl.wf_set _ _ c.ports, c.counters⟩, fun h => ⟨h, rfl⟩⟩
theorem K.setCounter {s0 s : State} (h : Keeps s0 s) (k : Nat) (v : Dword) : Keeps s0 (s.setCounter k v) :=
  h.trans ⟨rfl, fun c => ⟨c.host, c.queues, c.ctxs, c.crews, c.arrs, c.ves, c.ports, Tbl.wf_set _ _ c.counters⟩, fun h => ⟨h, rfl⟩⟩

theorem K.ite {s0 a b : State} {c : Prop} [Decidable c] (h : c → Keeps s0 a)
    (k : ¬c → Keeps s0 b) : Keeps s0 (if c then a else b) := by
  split
  · next e => exact h e
  · next e => exact k e

theorem K.each {s0 s : State} (h : Keeps s0 s) {α : Type} (l : List α) (f : State → α → State)
    (hf : ∀ t x, Keeps s0 t → Keeps s0 (f t x)) : Keeps s0 (s.each l f) :=
  State.each_keeps l h hf

/-- The same of a row's outcome: where it is a next state. -/
def KeepsO (s : State) : Host.Outcome State Fault Refusal → Prop
  | .next t => Keeps s t
  | _ => True

theorem KeepsO.next {s t : State} (h : Keeps s t) : KeepsO s (.next t) := h
theorem KeepsO.ite {s : State} {a b : Host.Outcome State Fault Refusal} {c : Prop} [Decidable c] (h : c → KeepsO s a)
    (k : ¬c → KeepsO s b) : KeepsO s (if c then a else b) := by
  split
  · next e => exact h e
  · next e => exact k e
theorem KeepsO.fault (s : State) (f : Fault) : KeepsO s (.fault f) := trivial

/-- The same of a state that may be answered. -/
def KeepsP (s : State) (o : Option State) : Prop := ∀ t, o = some t → Keeps s t

theorem KeepsP.none (s : State) : KeepsP s none := by intro t h; cases h
theorem KeepsP.some {s t : State} (h : Keeps s t) : KeepsP s (some t) := by intro u e; cases e; exact h
theorem KeepsP.ite {s : State} {a b : Option State} {c : Prop} [Decidable c] (h : c → KeepsP s a) (k : ¬c → KeepsP s b) :
    KeepsP s (if c then a else b) := by
  split
  · next e => exact h e
  · next e => exact k e

end Sys2Proof.Machine
end

