-- ==== Sys2Proof/Laws/KeepsOps.lean ====
section
/-! SUPPORT. What the operations and rows of Machine/Ops.lean keep. -/
set_option linter.unusedTactic false
set_option linter.unreachableTactic false
namespace Sys2Proof.Machine

theorem K.modArr {s0 s : State} (h : Keeps s0 s) (a : Nat) (f : Arr → Arr) : Keeps s0 (State.modArr s a f) := by
  unfold Sys2Proof.Machine.State.modArr
  repeat' (first | with_reducible assumption | with_reducible exact fun h => ⟨h, rfl⟩ | intro _ | with_reducible exact Keeps.refl _ | with_reducible apply K.ite | with_reducible apply K.setArr | split | dsimp only | with_reducible apply K.gen)
  all_goals simp_all

theorem K.modCrew {s0 s : State} (h : Keeps s0 s) (n : Nat) (f : Crew → Crew) : Keeps s0 (State.modCrew s n f) := by
  unfold Sys2Proof.Machine.State.modCrew
  repeat' (first | with_reducible assumption | with_reducible exact fun h => ⟨h, rfl⟩ | intro _ | with_reducible exact Keeps.refl _ | with_reducible apply K.ite | with_reducible apply K.setCrew | split | dsimp only | with_reducible apply K.gen)
  all_goals simp_all

theorem K.modCtx {s0 s : State} (h : Keeps s0 s) (c : Nat) (f : Ctx → Ctx) : Keeps s0 (State.modCtx s c f) := by
  unfold Sys2Proof.Machine.State.modCtx
  repeat' (first | with_reducible assumption | with_reducible exact fun h => ⟨h, rfl⟩ | intro _ | with_reducible exact Keeps.refl _ | with_reducible apply K.ite | with_reducible apply K.setCtx | split | dsimp only | with_reducible apply K.gen)
  all_goals simp_all

theorem K.modPort {s0 s : State} (h : Keeps s0 s) (p : Nat) (f : Port → Port) : Keeps s0 (State.modPort s p f) := by
  unfold Sys2Proof.Machine.State.modPort
  repeat' (first | with_reducible assumption | with_reducible exact fun h => ⟨h, rfl⟩ | intro _ | with_reducible exact Keeps.refl _ | with_reducible apply K.ite | with_reducible apply K.setPort | split | dsimp only | with_reducible apply K.gen)
  all_goals simp_all

theorem K.modVe {s0 s : State} (h : Keeps s0 s) (v : Nat) (f : Ve → Ve) : Keeps s0 (State.modVe s v f) := by
  unfold Sys2Proof.Machine.State.modVe
  repeat' (first | with_reducible assumption | with_reducible exact fun h => ⟨h, rfl⟩ | intro _ | with_reducible exact Keeps.refl _ | with_reducible apply K.ite | with_reducible apply K.setVe | split | dsimp only | with_reducible apply K.gen)
  all_goals simp_all

theorem K.modQueue {s0 s : State} (h : Keeps s0 s) (q : QueueId) (f : Queue → Queue) : Keeps s0 (State.modQueue s q f) := by
  unfold Sys2Proof.Machine.State.modQueue
  repeat' (first | with_reducible assumption | with_reducible exact fun h => ⟨h, rfl⟩ | intro _ | with_reducible exact Keeps.refl _ | with_reducible apply K.ite | with_reducible apply K.setQueue | split | dsimp only | with_reducible apply K.gen)
  all_goals simp_all

theorem K.writeHost {s0 s : State} (h : Keeps s0 s) (a : Nat) (bs : List Byte) : Keeps s0 (s.writeHost a bs) :=
  h.trans ⟨rfl, fun c => ⟨Memory.wf_writeBytes _ _ c.host, c.queues, c.ctxs, c.crews, c.arrs, c.ves, c.ports, c.counters⟩,
    fun h => ⟨h, rfl⟩⟩

theorem K.writeWork {s0 s : State} (h : Keeps s0 s) (c : Nat) (off : Nat) (bs : List Byte) : Keeps s0 (State.writeWork s c off bs) := by
  unfold Sys2Proof.Machine.State.writeWork
  repeat' (first | with_reducible assumption | with_reducible exact fun h => ⟨h, rfl⟩ | intro _ | with_reducible exact Keeps.refl _ | with_reducible apply K.ite | with_reducible apply K.modCtx | split | dsimp only | with_reducible apply K.gen)
  all_goals simp_all

theorem K.writeAt {s0 s : State} (h : Keeps s0 s) (c : Nat) (a : Addr) (bs : List Byte) : Keeps s0 (State.writeAt s c a bs) := by
  unfold Sys2Proof.Machine.State.writeAt
  repeat' (first | with_reducible assumption | with_reducible exact fun h => ⟨h, rfl⟩ | intro _ | with_reducible exact Keeps.refl _ | with_reducible apply K.ite | with_reducible apply K.writeHost | with_reducible apply K.writeWork | split | dsimp only | with_reducible apply K.gen)
  all_goals simp_all

theorem K.out {s0 s : State} (h : Keeps s0 s) (o : Out) : Keeps s0 (State.out s o) := by
  unfold Sys2Proof.Machine.State.out
  repeat' (first | with_reducible assumption | with_reducible exact fun h => ⟨h, rfl⟩ | intro _ | with_reducible exact Keeps.refl _ | with_reducible apply K.ite | split | dsimp only | with_reducible apply K.gen)
  all_goals simp_all

theorem K.raisePf {s0 s : State} (h : Keeps s0 s) (v : Nat) : Keeps s0 (State.raisePf s v) := by
  unfold Sys2Proof.Machine.State.raisePf
  repeat' (first | with_reducible assumption | with_reducible exact fun h => ⟨h, rfl⟩ | intro _ | with_reducible exact Keeps.refl _ | with_reducible apply K.ite | with_reducible apply K.out | split | dsimp only | with_reducible apply K.gen)
  all_goals simp_all

theorem K.raiseVf {s0 s : State} (h : Keeps s0 s) (n : Nat) (v : Nat) : Keeps s0 (State.raiseVf s n v) := by
  unfold Sys2Proof.Machine.State.raiseVf
  repeat' (first | with_reducible assumption | with_reducible exact fun h => ⟨h, rfl⟩ | intro _ | with_reducible exact Keeps.refl _ | with_reducible apply K.ite | with_reducible apply K.out | split | dsimp only | with_reducible apply K.gen)
  all_goals simp_all

theorem K.raiseCtx {s0 s : State} (h : Keeps s0 s) (c : Nat) (kind : Nat) : Keeps s0 (State.raiseCtx s c kind) := by
  unfold Sys2Proof.Machine.State.raiseCtx
  repeat' (first | with_reducible assumption | with_reducible exact fun h => ⟨h, rfl⟩ | intro _ | with_reducible exact Keeps.refl _ | with_reducible apply K.ite | with_reducible apply K.raisePf | with_reducible apply K.raiseVf | split | dsimp only | with_reducible apply K.gen)
  all_goals simp_all

theorem K.raiseQueue {s0 s : State} (h : Keeps s0 s) (q : QueueId) : Keeps s0 (State.raiseQueue s q) := by
  unfold Sys2Proof.Machine.State.raiseQueue
  repeat' (first | with_reducible assumption | with_reducible exact fun h => ⟨h, rfl⟩ | intro _ | with_reducible exact Keeps.refl _ | with_reducible apply K.ite | with_reducible apply K.raisePf | with_reducible apply K.raiseCtx | split | dsimp only | with_reducible apply K.gen)
  all_goals simp_all

theorem K.storeSig {s0 s : State} (h : Keeps s0 s) (b : List Byte) : Keeps s0 (State.storeSig s b) := by
  unfold Sys2Proof.Machine.State.storeSig
  repeat' (first | with_reducible assumption | with_reducible exact fun h => ⟨h, rfl⟩ | intro _ | with_reducible exact Keeps.refl _ | with_reducible apply K.ite | with_reducible apply K.raisePf | split | dsimp only | with_reducible apply K.gen)
  all_goals simp_all

theorem K.storeCopy {s0 s : State} (h : Keeps s0 s) (b : List Byte) : Keeps s0 (State.storeCopy s b) := by
  unfold Sys2Proof.Machine.State.storeCopy
  repeat' (first | with_reducible assumption | with_reducible exact fun h => ⟨h, rfl⟩ | intro _ | with_reducible exact Keeps.refl _ | with_reducible apply K.ite | with_reducible apply K.storeSig | split | dsimp only | with_reducible apply K.gen)
  all_goals simp_all

theorem K.fall {s0 s : State} (h : Keeps s0 s) (pair : Nat) : Keeps s0 (State.fall s pair) := by
  unfold Sys2Proof.Machine.State.fall
  repeat' (first | with_reducible assumption | with_reducible exact fun h => ⟨h, rfl⟩ | intro _ | with_reducible exact Keeps.refl _ | with_reducible apply K.ite | split | dsimp only | with_reducible apply K.gen)
  all_goals simp_all

theorem K.send {s0 s : State} (h : Keeps s0 s) (m : Msg) : Keeps s0 (State.send s m) := by
  unfold Sys2Proof.Machine.State.send
  repeat' (first | with_reducible assumption | with_reducible exact fun h => ⟨h, rfl⟩ | intro _ | with_reducible exact Keeps.refl _ | with_reducible apply K.ite | with_reducible apply K.out | split | dsimp only | with_reducible apply K.gen)
  all_goals simp_all

theorem K.emit {s0 s : State} (h : Keeps s0 s) (kind : Nat) (i : SigInfo) : Keeps s0 (State.emit s kind i) := by
  unfold Sys2Proof.Machine.State.emit
  repeat' (first | with_reducible assumption | with_reducible exact fun h => ⟨h, rfl⟩ | intro _ | with_reducible exact Keeps.refl _ | with_reducible apply K.ite | with_reducible apply K.storeSig | with_reducible apply K.send | split | dsimp only | with_reducible apply K.gen)
  all_goals simp_all

theorem K.writeStatus {s0 s : State} (h : Keeps s0 s) (q : QueueId) (pkt : Packet) (st : Status) (mod : Nat) (r0 : Nat) (r1 : Nat) : Keeps s0 (State.writeStatus s q pkt st mod r0 r1) := by
  unfold Sys2Proof.Machine.State.writeStatus
  repeat' (first | with_reducible assumption | with_reducible exact fun h => ⟨h, rfl⟩ | intro _ | with_reducible exact Keeps.refl _ | with_reducible apply K.ite | with_reducible apply K.setQueue | with_reducible apply K.writeHost | with_reducible apply K.raiseQueue | split | dsimp only | with_reducible apply K.gen)
  all_goals simp_all

theorem K.replyGen {s0 s : State} (h : Keeps s0 s) (gen : Nat) (q : QueueId) (pkt : Packet) (st : Status) (mod : Nat) (r0 : Nat) (r1 : Nat) : Keeps s0 (State.replyGen s gen q pkt st mod r0 r1) := by
  unfold Sys2Proof.Machine.State.replyGen
  repeat' (first | with_reducible assumption | with_reducible exact fun h => ⟨h, rfl⟩ | intro _ | with_reducible exact Keeps.refl _ | with_reducible apply K.ite | with_reducible apply K.send | with_reducible apply K.writeStatus | split | dsimp only | with_reducible apply K.gen)
  all_goals simp_all

theorem K.reply {s0 s : State} (h : Keeps s0 s) (q : QueueId) (pkt : Packet) (st : Status) (mod : Nat) (r0 : Nat) (r1 : Nat) : Keeps s0 (State.reply s q pkt st mod r0 r1) := by
  unfold Sys2Proof.Machine.State.reply
  repeat' (first | with_reducible assumption | with_reducible exact fun h => ⟨h, rfl⟩ | intro _ | with_reducible exact Keeps.refl _ | with_reducible apply K.ite | with_reducible apply K.replyGen | split | dsimp only | with_reducible apply K.gen)
  all_goals simp_all

theorem K.setCmd {s0 s : State} (h : Keeps s0 s) (c : Cmd) : Keeps s0 (State.setCmd s c) := by
  unfold Sys2Proof.Machine.State.setCmd
  repeat' (first | with_reducible assumption | with_reducible exact fun h => ⟨h, rfl⟩ | intro _ | with_reducible exact Keeps.refl _ | with_reducible apply K.ite | split | dsimp only | with_reducible apply K.gen)
  all_goals simp_all

theorem K.dropCmd {s0 s : State} (h : Keeps s0 s) (r : CmdRef) : Keeps s0 (State.dropCmd s r) := by
  unfold Sys2Proof.Machine.State.dropCmd
  repeat' (first | with_reducible assumption | with_reducible exact fun h => ⟨h, rfl⟩ | intro _ | with_reducible exact Keeps.refl _ | with_reducible apply K.ite | split | dsimp only | with_reducible apply K.gen)
  all_goals simp_all

theorem K.updCmd {s0 s : State} (h : Keeps s0 s) (r : CmdRef) (f : Cmd → Cmd) : Keeps s0 (State.updCmd s r f) := by
  unfold Sys2Proof.Machine.State.updCmd
  repeat' (first | with_reducible assumption | with_reducible exact fun h => ⟨h, rfl⟩ | intro _ | with_reducible exact Keeps.refl _ | with_reducible apply K.ite | split | dsimp only | with_reducible apply K.gen)
  all_goals simp_all

theorem K.eachArr {s0 s : State} (h : Keeps s0 s) (f : Arr → Arr) : Keeps s0 (State.eachArr s f) := by
  unfold Sys2Proof.Machine.State.eachArr
  repeat' (first | with_reducible assumption | with_reducible exact fun h => ⟨h, rfl⟩ | intro _ | with_reducible exact Keeps.refl _ | with_reducible apply K.ite | with_reducible apply K.each | with_reducible apply K.modArr | split | dsimp only | with_reducible apply K.gen)
  all_goals simp_all

theorem K.eachCrew {s0 s : State} (h : Keeps s0 s) (f : Crew → Crew) : Keeps s0 (State.eachCrew s f) := by
  unfold Sys2Proof.Machine.State.eachCrew
  repeat' (first | with_reducible assumption | with_reducible exact fun h => ⟨h, rfl⟩ | intro _ | with_reducible exact Keeps.refl _ | with_reducible apply K.ite | with_reducible apply K.each | with_reducible apply K.modCrew | split | dsimp only | with_reducible apply K.gen)
  all_goals simp_all

theorem K.eachVe {s0 s : State} (h : Keeps s0 s) (f : Ve → Ve) : Keeps s0 (State.eachVe s f) := by
  unfold Sys2Proof.Machine.State.eachVe
  repeat' (first | with_reducible assumption | with_reducible exact fun h => ⟨h, rfl⟩ | intro _ | with_reducible exact Keeps.refl _ | with_reducible apply K.ite | with_reducible apply K.each | with_reducible apply K.modVe | split | dsimp only | with_reducible apply K.gen)
  all_goals simp_all

theorem K.purge {s0 s : State} (h : Keeps s0 s) (r : CmdRef) : Keeps s0 (State.purge s r) := by
  unfold Sys2Proof.Machine.State.purge
  repeat' (first | with_reducible assumption | with_reducible exact fun h => ⟨h, rfl⟩ | intro _ | with_reducible exact Keeps.refl _ | with_reducible apply K.ite | with_reducible apply K.eachArr | with_reducible apply K.eachCrew | with_reducible apply K.eachVe | split | dsimp only | with_reducible apply K.gen)
  all_goals simp_all

theorem K.failCmd {s0 s : State} (h : Keeps s0 s) (r : CmdRef) (st : Status) : Keeps s0 (State.failCmd s r st) := by
  unfold Sys2Proof.Machine.State.failCmd
  repeat' (first | with_reducible assumption | with_reducible exact fun h => ⟨h, rfl⟩ | intro _ | with_reducible exact Keeps.refl _ | with_reducible apply K.ite | with_reducible apply K.updCmd | with_reducible apply K.purge | split | dsimp only | with_reducible apply K.gen)
  all_goals simp_all

theorem K.freeSlot {s0 s : State} (h : Keeps s0 s) (w : RunWork) : Keeps s0 (State.freeSlot s w) := by
  unfold Sys2Proof.Machine.State.freeSlot
  repeat' (first | with_reducible assumption | with_reducible exact fun h => ⟨h, rfl⟩ | intro _ | with_reducible exact Keeps.refl _ | with_reducible apply K.ite | with_reducible apply K.modCrew | split | dsimp only | with_reducible apply K.gen)
  all_goals simp_all

theorem K.openCtx {s0 s : State} (h : Keeps s0 s) (c : Nat) : Keeps s0 (State.openCtx s c) := by
  unfold Sys2Proof.Machine.State.openCtx
  repeat' (first | with_reducible assumption | with_reducible exact fun h => ⟨h, rfl⟩ | intro _ | with_reducible exact Keeps.refl _ | with_reducible apply K.ite | with_reducible apply K.setCtx | split | dsimp only | with_reducible apply K.gen)
  all_goals simp_all

theorem K.shutCtx {s0 s : State} (h : Keeps s0 s) (c : Nat) : Keeps s0 (State.shutCtx s c) := by
  unfold Sys2Proof.Machine.State.shutCtx
  repeat' (first | with_reducible assumption | with_reducible exact fun h => ⟨h, rfl⟩ | intro _ | with_reducible exact Keeps.refl _ | with_reducible apply K.ite | with_reducible apply K.modCtx | split | dsimp only | with_reducible apply K.gen)
  all_goals simp_all

theorem K.takeHold {s0 s : State} (h : Keeps s0 s) (op : Nat) (c : Nat) : Keeps s0 (State.takeHold s op c) := by
  unfold Sys2Proof.Machine.State.takeHold
  repeat' (first | with_reducible assumption | with_reducible exact fun h => ⟨h, rfl⟩ | intro _ | with_reducible exact Keeps.refl _ | with_reducible apply K.ite | with_reducible apply K.modCtx | with_reducible apply K.openCtx | with_reducible apply K.shutCtx | split | dsimp only | with_reducible apply K.gen)
  all_goals simp_all

theorem K.releaseHeld {s0 s : State} (h : Keeps s0 s) (c : Cmd) : Keeps s0 (State.releaseHeld s c) := by
  unfold Sys2Proof.Machine.State.releaseHeld
  repeat' (first | with_reducible assumption | with_reducible exact fun h => ⟨h, rfl⟩ | intro _ | with_reducible exact Keeps.refl _ | with_reducible apply K.ite | split | dsimp only | with_reducible apply K.gen)
  all_goals simp_all

theorem K.spoil {s0 s : State} (h : Keeps s0 s) (c : Cmd) (st : Status) : Keeps s0 (State.spoil s c st) := by
  unfold Sys2Proof.Machine.State.spoil
  repeat' (first | with_reducible assumption | with_reducible exact fun h => ⟨h, rfl⟩ | intro _ | with_reducible exact Keeps.refl _ | with_reducible apply K.ite | with_reducible apply K.writeAt | split | dsimp only | with_reducible apply K.gen)
  all_goals simp_all

theorem K.complete {s0 s : State} (h : Keeps s0 s) (c : Cmd) (st : Status) (r0 : Nat) (r1 : Nat) : Keeps s0 (State.complete s c st r0 r1) := by
  unfold Sys2Proof.Machine.State.complete
  repeat' (first | with_reducible assumption | with_reducible exact fun h => ⟨h, rfl⟩ | intro _ | with_reducible exact Keeps.refl _ | with_reducible apply K.ite | with_reducible apply K.replyGen | with_reducible apply K.dropCmd | with_reducible apply K.updCmd | with_reducible apply K.takeHold | with_reducible apply K.releaseHeld | with_reducible apply K.spoil | split | dsimp only | with_reducible apply K.gen)
  all_goals simp_all

theorem K.enrol {s0 s : State} (h : Keeps s0 s) (c : Cmd) : Keeps s0 (State.enrol s c) := by
  unfold Sys2Proof.Machine.State.enrol
  repeat' (first | with_reducible assumption | with_reducible exact fun h => ⟨h, rfl⟩ | intro _ | with_reducible exact Keeps.refl _ | with_reducible apply K.ite | split | dsimp only | with_reducible apply K.gen)
  all_goals simp_all

theorem K.done {s0 s : State} (h : Keeps s0 s) (q : QueueId) (p : Packet) (st : Status) (r0 : Nat) (r1 : Nat) : Keeps s0 (State.done s q p st r0 r1) := by
  unfold Sys2Proof.Machine.State.done
  repeat' (first | with_reducible assumption | with_reducible exact fun h => ⟨h, rfl⟩ | intro _ | with_reducible exact Keeps.refl _ | with_reducible apply K.ite | with_reducible apply K.reply | split | dsimp only | with_reducible apply K.gen)
  all_goals simp_all

theorem K.noteWork {s0 s : State} (h : Keeps s0 s) (c : Nat) (off : Nat) (n : Nat) (e : ParityErr) : Keeps s0 (State.noteWork s c off n e) := by
  unfold Sys2Proof.Machine.State.noteWork
  repeat' (first | with_reducible assumption | with_reducible exact fun h => ⟨h, rfl⟩ | intro _ | with_reducible exact Keeps.refl _ | with_reducible apply K.ite | with_reducible apply K.modCtx | split | dsimp only | with_reducible apply K.gen)
  all_goals simp_all

theorem K.noteReads {s0 s : State} (h : Keeps s0 s) (c : Nat) (rs : List (Nat × Nat)) (err : ParityErr) :
    Keeps s0 (s.noteReads c rs err) := by
  unfold State.noteReads
  split
  · exact h
  · dsimp only
    cases rangeAt rs _ with
    | none => exact h
    | some r => exact noteWork h c r.1 r.2 err

theorem K.noteBiv {s0 s : State} (h : Keeps s0 s) (c : Nat) (gen : Nat) (off : Nat) (n : Nat) (e : ParityErr) : Keeps s0 (State.noteBiv s c gen off n e) := by
  unfold Sys2Proof.Machine.State.noteBiv
  repeat' (first | with_reducible assumption | with_reducible exact fun h => ⟨h, rfl⟩ | intro _ | with_reducible exact Keeps.refl _ | with_reducible apply K.ite | with_reducible apply K.modCtx | split | dsimp only | with_reducible apply K.gen)
  all_goals simp_all

theorem K.eccReport {s0 s : State} (h : Keeps s0 s) : Keeps s0 (State.eccReport s) := by
  unfold Sys2Proof.Machine.State.eccReport
  repeat' (first | with_reducible assumption | with_reducible exact fun h => ⟨h, rfl⟩ | intro _ | with_reducible exact Keeps.refl _ | with_reducible apply K.ite | split | dsimp only | with_reducible apply K.gen)
  all_goals simp_all

theorem K.hbmWait {s0 s : State} (h : Keeps s0 s) (stern : Bool) : Keeps s0 (State.hbmWait s stern) := by
  unfold Sys2Proof.Machine.State.hbmWait
  repeat' (first | with_reducible assumption | with_reducible exact fun h => ⟨h, rfl⟩ | intro _ | with_reducible exact Keeps.refl _ | with_reducible apply K.ite | split | dsimp only | with_reducible apply K.gen)
  all_goals simp_all

theorem K.chargeHbm {s0 s : State} (h : Keeps s0 s) (stern : Bool) (bytes : Nat) : Keeps s0 (State.chargeHbm s stern bytes) := by
  unfold Sys2Proof.Machine.State.chargeHbm
  repeat' (first | with_reducible assumption | with_reducible exact fun h => ⟨h, rfl⟩ | intro _ | with_reducible exact Keeps.refl _ | with_reducible apply K.ite | with_reducible apply K.eccReport | split | dsimp only | with_reducible apply K.gen)
  all_goals simp_all

theorem K.drawHbm {s0 s : State} (h : Keeps s0 s) (stern : Bool) (bytes : Nat) : Keeps s0 (State.drawHbm s stern bytes).1 := by
  unfold Sys2Proof.Machine.State.drawHbm
  repeat' (first | with_reducible assumption | with_reducible exact fun h => ⟨h, rfl⟩ | intro _ | with_reducible exact Keeps.refl _ | with_reducible apply K.ite | with_reducible apply K.hbmWait | with_reducible apply K.chargeHbm | split | dsimp only | with_reducible apply K.gen)
  all_goals simp_all

theorem KP.drawHbm {s0 s t : State} {stern : Bool} {bytes : Nat} {o : Bool} (e : State.drawHbm s stern bytes = (t, o)) (h : Keeps s0 s) :
    Keeps s0 t := by
  have k := K.drawHbm h stern bytes
  rw [e] at k
  exact k

theorem K.freePages {s0 s : State} (h : Keeps s0 s) (c : Nat) (gen : Nat) (assigns : List Assign) (patchesToo : Bool) : Keeps s0 (State.freePages s c gen assigns patchesToo) := by
  unfold Sys2Proof.Machine.State.freePages
  repeat' (first | with_reducible assumption | with_reducible exact fun h => ⟨h, rfl⟩ | intro _ | with_reducible exact Keeps.refl _ | with_reducible apply K.ite | with_reducible apply K.each | with_reducible apply K.modCrew | with_reducible apply K.eachCrew | split | dsimp only | with_reducible apply K.gen)
  all_goals simp_all

theorem K.dropRoles {s0 s : State} (h : Keeps s0 s) (ys : List Assign) : Keeps s0 (State.dropRoles s ys) := by
  unfold Sys2Proof.Machine.State.dropRoles
  repeat' (first | with_reducible assumption | with_reducible exact fun h => ⟨h, rfl⟩ | intro _ | with_reducible exact Keeps.refl _ | with_reducible apply K.ite | with_reducible apply K.each | with_reducible apply K.modCrew | split | dsimp only | with_reducible apply K.gen)
  all_goals simp_all

theorem K.abortPitch {s0 s : State} (h : Keeps s0 s) (c : Nat) (mark : Bool) : Keeps s0 (State.abortPitch s c mark) := by
  unfold Sys2Proof.Machine.State.abortPitch
  repeat' (first | with_reducible assumption | with_reducible exact fun h => ⟨h, rfl⟩ | intro _ | with_reducible exact Keeps.refl _ | with_reducible apply K.ite | with_reducible apply K.each | with_reducible apply K.modArr | with_reducible apply K.modCtx | with_reducible apply K.freePages | with_reducible apply K.dropRoles | split | dsimp only | with_reducible apply K.gen)
  all_goals simp_all

theorem K.completeIf {s0 s : State} (h : Keeps s0 s) (r : CmdRef) (st : Status) (r0 : Nat) (r1 : Nat) : Keeps s0 (State.completeIf s r st r0 r1) := by
  unfold Sys2Proof.Machine.State.completeIf
  repeat' (first | with_reducible assumption | with_reducible exact fun h => ⟨h, rfl⟩ | intro _ | with_reducible exact Keeps.refl _ | with_reducible apply K.ite | with_reducible apply K.complete | split | dsimp only | with_reducible apply K.gen)
  all_goals simp_all

theorem K.endPitchCmds {s0 s : State} (h : Keeps s0 s) (c : Nat) (p : Pitch) (shardSt : Status) (commitSt : Status) (waitSt : Status) : Keeps s0 (State.endPitchCmds s c p shardSt commitSt waitSt) := by
  unfold Sys2Proof.Machine.State.endPitchCmds
  repeat' (first | with_reducible assumption | with_reducible exact fun h => ⟨h, rfl⟩ | intro _ | with_reducible exact Keeps.refl _ | with_reducible apply K.ite | with_reducible apply K.each | with_reducible apply K.complete | split | dsimp only | with_reducible apply K.gen)
  all_goals simp_all

theorem K.arrayOut {s0 s : State} (h : Keeps s0 s) (op : Nat) (f : Work → Work) : Keeps s0 (State.arrayOut s op f) := by
  unfold Sys2Proof.Machine.State.arrayOut
  repeat' (first | with_reducible assumption | with_reducible exact fun h => ⟨h, rfl⟩ | intro _ | with_reducible exact Keeps.refl _ | with_reducible apply K.ite | with_reducible apply K.each | with_reducible apply K.complete | split | dsimp only | with_reducible apply K.gen)
  all_goals simp_all

theorem K.arrayDone {s0 s : State} (h : Keeps s0 s) (op : Nat) (a : Nat) : Keeps s0 (State.arrayDone s op a) := by
  unfold Sys2Proof.Machine.State.arrayDone
  repeat' (first | with_reducible assumption | with_reducible exact fun h => ⟨h, rfl⟩ | intro _ | with_reducible exact Keeps.refl _ | with_reducible apply K.ite | with_reducible apply K.arrayOut | split | dsimp only | with_reducible apply K.gen)
  all_goals simp_all

theorem K.untreat {s0 s : State} (h : Keeps s0 s) (a : Nat) : Keeps s0 (State.untreat s a) := by
  unfold Sys2Proof.Machine.State.untreat
  repeat' (first | with_reducible assumption | with_reducible exact fun h => ⟨h, rfl⟩ | intro _ | with_reducible exact Keeps.refl _ | with_reducible apply K.ite | with_reducible apply K.arrayOut | split | dsimp only | with_reducible apply K.gen)
  all_goals simp_all

theorem K.bench {s0 s : State} (h : Keeps s0 s) (crew : Nat) (cause : Nat) : Keeps s0 (State.bench s crew cause) := by
  unfold Sys2Proof.Machine.State.bench
  repeat' (first | with_reducible assumption | with_reducible exact fun h => ⟨h, rfl⟩ | intro _ | with_reducible exact Keeps.refl _ | with_reducible apply K.ite | with_reducible apply K.each | with_reducible apply K.modArr | with_reducible apply K.modCrew | with_reducible apply K.emit | with_reducible apply K.failCmd | with_reducible apply K.abortPitch | with_reducible apply K.endPitchCmds | with_reducible apply K.untreat | split | dsimp only | with_reducible apply K.gen)
  all_goals simp_all

theorem K.crewParity {s0 s : State} (h : Keeps s0 s) (crew : Nat) : Keeps s0 (State.crewParity s crew) := by
  unfold Sys2Proof.Machine.State.crewParity
  repeat' (first | with_reducible assumption | with_reducible exact fun h => ⟨h, rfl⟩ | intro _ | with_reducible exact Keeps.refl _ | with_reducible apply K.ite | with_reducible apply K.modCrew | with_reducible apply K.bench | split | dsimp only | with_reducible apply K.gen)
  all_goals simp_all

theorem K.parityNote {s0 s : State} (h : Keeps s0 s) (ctx : Option Nat) (tag : Option Nat) (e : ParityErr) : Keeps s0 (State.parityNote s ctx tag e) := by
  unfold Sys2Proof.Machine.State.parityNote
  repeat' (first | with_reducible assumption | with_reducible exact fun h => ⟨h, rfl⟩ | intro _ | with_reducible exact Keeps.refl _ | with_reducible apply K.ite | with_reducible apply K.modVe | with_reducible apply K.emit | split | dsimp only | with_reducible apply K.gen)
  all_goals simp_all

theorem K.parityCrew {s0 s : State} (h : Keeps s0 s) (e : ParityErr) : Keeps s0 (State.parityCrew s e) := by
  unfold Sys2Proof.Machine.State.parityCrew
  repeat' (first | with_reducible assumption | with_reducible exact fun h => ⟨h, rfl⟩ | intro _ | with_reducible exact Keeps.refl _ | with_reducible apply K.ite | with_reducible apply K.crewParity | split | dsimp only | with_reducible apply K.gen)
  all_goals simp_all

theorem K.parityError {s0 s : State} (h : Keeps s0 s) (r : CmdRef) (e : ParityErr) : Keeps s0 (State.parityError s r e) := by
  unfold Sys2Proof.Machine.State.parityError
  repeat' (first | with_reducible assumption | with_reducible exact fun h => ⟨h, rfl⟩ | intro _ | with_reducible exact Keeps.refl _ | with_reducible apply K.ite | with_reducible apply K.failCmd | with_reducible apply K.parityNote | with_reducible apply K.parityCrew | split | dsimp only | with_reducible apply K.gen)
  all_goals simp_all

theorem K.assemblyError {s0 s : State} (h : Keeps s0 s) (r : CmdRef) (crew : Nat) (e : ParityErr) : Keeps s0 (State.assemblyError s r crew e) := by
  unfold Sys2Proof.Machine.State.assemblyError
  repeat' (first | with_reducible assumption | with_reducible exact fun h => ⟨h, rfl⟩ | intro _ | with_reducible exact Keeps.refl _ | with_reducible apply K.ite | with_reducible apply K.modCrew | with_reducible apply K.failCmd | with_reducible apply K.parityNote | split | dsimp only | with_reducible apply K.gen)
  all_goals simp_all

theorem K.closeBypasses {s0 s : State} (h : Keeps s0 s) : Keeps s0 (State.closeBypasses s) := by
  unfold Sys2Proof.Machine.State.closeBypasses
  repeat' (first | with_reducible assumption | with_reducible exact fun h => ⟨h, rfl⟩ | intro _ | with_reducible exact Keeps.refl _ | with_reducible apply K.ite | with_reducible apply K.each | with_reducible apply K.modPort | split | dsimp only | with_reducible apply K.gen)
  all_goals simp_all

theorem K.leaveRings {s0 s : State} (h : Keeps s0 s) : Keeps s0 (State.leaveRings s) := by
  unfold Sys2Proof.Machine.State.leaveRings
  repeat' (first | with_reducible assumption | with_reducible exact fun h => ⟨h, rfl⟩ | intro _ | with_reducible exact Keeps.refl _ | with_reducible apply K.ite | with_reducible apply K.each | with_reducible apply K.fall | split | dsimp only | with_reducible apply K.gen)
  all_goals simp_all

theorem K.stopWork {s0 s : State} (h : Keeps s0 s) : Keeps s0 (State.stopWork s) := by
  unfold Sys2Proof.Machine.State.stopWork
  repeat' (first | with_reducible assumption | with_reducible exact fun h => ⟨h, rfl⟩ | intro _ | with_reducible exact Keeps.refl _ | with_reducible apply K.ite | with_reducible apply K.eachArr | with_reducible apply K.eachCrew | with_reducible apply K.eachVe | split | dsimp only | with_reducible apply K.gen)
  all_goals simp_all

theorem K.faultAll {s0 s : State} (h : Keeps s0 s) : Keeps s0 (State.faultAll s) := by
  unfold Sys2Proof.Machine.State.faultAll
  repeat' (first | with_reducible assumption | with_reducible exact fun h => ⟨h, rfl⟩ | intro _ | with_reducible exact Keeps.refl _ | with_reducible apply K.ite | with_reducible apply K.each | with_reducible apply K.replyGen | with_reducible apply K.dropCmd | with_reducible apply K.releaseHeld | with_reducible apply K.spoil | split | dsimp only | with_reducible apply K.gen)
  all_goals simp_all

theorem K.enterSafe {s0 s : State} (h : Keeps s0 s) (cause : Nat) (endpoint : Bool) :
    Keeps s0 (s.enterSafe cause endpoint) := by
  unfold State.enterSafe
  split
  · exact h
  · split
    · exact K.emit h 0x16 _
    · next _ n =>
      have k : ∀ t, Keeps s0 t → Keeps s0 (if (t.queue .admin).evt1 then t
          else (t.modQueue .admin (fun q => { q with evt1 := true })).raisePf 1) := by
        intro t ht
        split
        · exact ht
        · exact K.raisePf (K.modQueue ht _ _) 1
      refine k _ (K.emit ?_ 0x16 _)
      have w : Keeps s0 { s with dev := { s.dev with
          st := .safe, safeCause := BitVec.ofNat 8 cause, faultN := true, locked := true, endpointFault := endpoint } } :=
        K.gen h fun e => absurd e n
      split
      · exact K.gen (K.closeBypasses (K.leaveRings (K.stopWork w))) fun h => ⟨h, rfl⟩
      · exact K.faultAll (K.closeBypasses (K.leaveRings (K.stopWork w)))

end Sys2Proof.Machine
end

