-- ==== Sys2Proof/Laws/KeepsTracking.lean ====
section
/-! SUPPORT. What the operations and rows of Machine/Tracking.lean keep. -/
set_option linter.unusedTactic false
set_option linter.unreachableTactic false
namespace Sys2Proof.Machine

theorem K.trkOut {s0 s : State} (h : Keeps s0 s) (a : Nat) (coef : Nat) (fitted : F32) (col : List Nat) : Keeps s0 (State.trkOut s a coef fitted col) := by
  unfold Sys2Proof.Machine.State.trkOut
  repeat' (first | with_reducible assumption | with_reducible exact fun h => ⟨h, rfl⟩ | intro _ | with_reducible exact Keeps.refl _ | with_reducible apply K.ite | with_reducible apply K.modArr | with_reducible apply K.emit | split | dsimp only | with_reducible apply K.gen)
  all_goals simp_all

theorem K.noteKEff {s0 s : State} (h : Keeps s0 s) (a : Nat) : Keeps s0 (State.noteKEff s a) := by
  unfold Sys2Proof.Machine.State.noteKEff
  repeat' (first | with_reducible assumption | with_reducible exact fun h => ⟨h, rfl⟩ | intro _ | with_reducible exact Keeps.refl _ | with_reducible apply K.ite | with_reducible apply K.modArr | with_reducible apply K.trkOut | split | dsimp only | with_reducible apply K.gen)
  all_goals simp_all

theorem K.bowUpdate {s0 s : State} (h : Keeps s0 s) (touched : Nat → Bool) : Keeps s0 (State.bowUpdate s touched) := by
  unfold Sys2Proof.Machine.State.bowUpdate
  repeat' (first | with_reducible assumption | with_reducible exact fun h => ⟨h, rfl⟩ | intro _ | with_reducible exact Keeps.refl _ | with_reducible apply K.ite | with_reducible apply K.each | split | dsimp only | with_reducible apply K.gen)
  all_goals simp_all

theorem K.bowFollow {s0 s : State} (h : Keeps s0 s) (old : State) : Keeps s0 (State.bowFollow s old) := by
  unfold Sys2Proof.Machine.State.bowFollow
  repeat' (first | with_reducible assumption | with_reducible exact fun h => ⟨h, rfl⟩ | intro _ | with_reducible exact Keeps.refl _ | with_reducible apply K.ite | with_reducible apply K.bowUpdate | split | dsimp only | with_reducible apply K.gen)
  all_goals simp_all

theorem K.trackingResetAll {s0 s : State} (h : Keeps s0 s) : Keeps s0 (State.trackingResetAll s) := by
  unfold Sys2Proof.Machine.State.trackingResetAll
  repeat' (first | with_reducible assumption | with_reducible exact fun h => ⟨h, rfl⟩ | intro _ | with_reducible exact Keeps.refl _ | with_reducible apply K.ite | with_reducible apply K.eachArr | with_reducible apply K.bowFollow | split | dsimp only | with_reducible apply K.gen)
  all_goals simp_all

theorem K.setDrift {s0 s : State} (h : Keeps s0 s) (a : Nat) (pct : Rat) : Keeps s0 (State.setDrift s a pct) := by
  unfold Sys2Proof.Machine.State.setDrift
  repeat' (first | with_reducible assumption | with_reducible exact fun h => ⟨h, rfl⟩ | intro _ | with_reducible exact Keeps.refl _ | with_reducible apply K.ite | with_reducible apply K.modArr | with_reducible apply K.emit | split | dsimp only | with_reducible apply K.gen)
  all_goals simp_all

theorem K.windowEnd {s0 s : State} (h : Keeps s0 s) (a : Nat) : Keeps s0 (State.windowEnd s a) := by
  unfold Sys2Proof.Machine.State.windowEnd
  repeat' (first | with_reducible assumption | with_reducible exact fun h => ⟨h, rfl⟩ | intro _ | with_reducible exact Keeps.refl _ | with_reducible apply K.ite | with_reducible apply K.setArr | with_reducible apply K.modArr | with_reducible apply K.out | with_reducible apply K.trkOut | with_reducible apply K.bowUpdate | with_reducible apply K.setDrift | split | dsimp only | with_reducible apply K.gen)
  all_goals simp_all

theorem K.columnFit {s0 s : State} (h : Keeps s0 s) (a : Nat) (col : Nat) : Keeps s0 (State.columnFit s a col) := by
  unfold Sys2Proof.Machine.State.columnFit
  repeat' (first | with_reducible assumption | with_reducible exact fun h => ⟨h, rfl⟩ | intro _ | with_reducible exact Keeps.refl _ | with_reducible apply K.ite | with_reducible apply K.setArr | with_reducible apply K.modArr | with_reducible apply K.trkOut | with_reducible apply K.bowFollow | split | dsimp only | with_reducible apply K.gen)
  all_goals simp_all

theorem K.execTempSample {s0 s : State} (h : Keeps s0 s) (ts : List (BitVec 16)) : KeepsO s0 (execTempSample ts s) := by
  unfold Sys2Proof.Machine.execTempSample
  repeat' (first | with_reducible exact KeepsO.fault _ _ | with_reducible apply KeepsO.next | with_reducible apply KeepsO.ite | with_reducible assumption | with_reducible exact fun h => ⟨h, rfl⟩ | intro _ | with_reducible exact Keeps.refl _ | with_reducible apply K.ite | split | dsimp only | with_reducible apply K.gen)
  all_goals simp_all

theorem K.execKappaUpdate {s0 s : State} (h : Keeps s0 s) (crew : Fin 256) (slot : Fin 17) : KeepsO s0 (execKappaUpdate crew slot s) := by
  unfold Sys2Proof.Machine.execKappaUpdate
  repeat' (first | with_reducible exact KeepsO.fault _ _ | with_reducible apply KeepsO.next | with_reducible apply KeepsO.ite | with_reducible assumption | with_reducible exact fun h => ⟨h, rfl⟩ | intro _ | with_reducible exact Keeps.refl _ | with_reducible apply K.ite | with_reducible apply K.windowEnd | split | dsimp only | with_reducible apply K.gen)
  all_goals simp_all

theorem K.execColumnTrackFit {s0 s : State} (h : Keeps s0 s) (crew : Fin 256) (slot : Fin 17) (col : Fin 512) : KeepsO s0 (execColumnTrackFit crew slot col s) := by
  unfold Sys2Proof.Machine.execColumnTrackFit
  repeat' (first | with_reducible exact KeepsO.fault _ _ | with_reducible apply KeepsO.next | with_reducible apply KeepsO.ite | with_reducible assumption | with_reducible exact fun h => ⟨h, rfl⟩ | intro _ | with_reducible exact Keeps.refl _ | with_reducible apply K.ite | with_reducible apply K.columnFit | split | dsimp only | with_reducible apply K.gen)
  all_goals simp_all

end Sys2Proof.Machine
end

