-- ==== Sys2Proof/Laws/KeepsRegisters.lean ====
section
/-! SUPPORT. What the operations and rows of Machine/Registers.lean keep. -/
set_option linter.unusedTactic false
set_option linter.unreachableTactic false
namespace Sys2Proof.Machine

theorem K.writeQcfg {s0 s : State} (h : Keeps s0 s) (q : QueueId) (v : Nat) : Keeps s0 (State.writeQcfg s q v) := by
  unfold Sys2Proof.Machine.State.writeQcfg
  repeat' (first | with_reducible assumption | with_reducible exact fun h => ⟨h, rfl⟩ | intro _ | with_reducible exact Keeps.refl _ | with_reducible apply K.ite | with_reducible apply K.setQueue | split | dsimp only | with_reducible apply K.gen)
  all_goals simp_all

theorem K.writeQueueReg {s0 s : State} (h : Keeps s0 s) (q : QueueId) (r : Nat) (w : Dword) : Keeps s0 (State.writeQueueReg s q r w) := by
  unfold Sys2Proof.Machine.State.writeQueueReg
  repeat' (first | with_reducible assumption | with_reducible exact fun h => ⟨h, rfl⟩ | intro _ | with_reducible exact Keeps.refl _ | with_reducible apply K.ite | with_reducible apply K.setQueue | with_reducible apply K.writeQcfg | split | dsimp only | with_reducible apply K.gen)
  all_goals simp_all

theorem K.firePf {s0 s : State} (h : Keeps s0 s) (v : Nat) : Keeps s0 (State.firePf s v) := by
  unfold Sys2Proof.Machine.State.firePf
  repeat' (first | with_reducible assumption | with_reducible exact fun h => ⟨h, rfl⟩ | intro _ | with_reducible exact Keeps.refl _ | with_reducible apply K.ite | with_reducible apply K.out | split | dsimp only | with_reducible apply K.gen)
  all_goals simp_all

theorem K.fireVf {s0 s : State} (h : Keeps s0 s) (n : Nat) (v : Nat) : Keeps s0 (State.fireVf s n v) := by
  unfold Sys2Proof.Machine.State.fireVf
  repeat' (first | with_reducible assumption | with_reducible exact fun h => ⟨h, rfl⟩ | intro _ | with_reducible exact Keeps.refl _ | with_reducible apply K.ite | with_reducible apply K.out | split | dsimp only | with_reducible apply K.gen)
  all_goals simp_all

theorem K.readDword {s0 s : State} (h : Keeps s0 s) (off : Nat) : Keeps s0 (s.readDword off).1 := by
  unfold State.readDword
  split
  · exact h
  · split
    · exact K.gen h fun h => ⟨h, rfl⟩
    · split
      · split
        · exact K.gen h fun h => ⟨h, rfl⟩
        · exact h
      · exact h

theorem K.readDwords {s0 : State} : ∀ (n : Nat) (s : State) (off : Nat), Keeps s0 s → Keeps s0 (State.readDwords n s off).1
  | 0, _, _, h => h
  | n + 1, s, off, h => K.readDwords n (s.readDword off).1 (off + 4) (K.readDword h off)

theorem K.writeCrewSine {s0 s : State} (h : Keeps s0 s) (crew : Nat) (v : Nat) : Keeps s0 (State.writeCrewSine s crew v) := by
  unfold Sys2Proof.Machine.State.writeCrewSine
  repeat' (first | with_reducible assumption | with_reducible exact fun h => ⟨h, rfl⟩ | intro _ | with_reducible exact Keeps.refl _ | with_reducible apply K.ite | with_reducible apply K.modCrew | split | dsimp only | with_reducible apply K.gen)
  all_goals simp_all

theorem K.writeTrkCtl {s0 s : State} (h : Keeps s0 s) (v : Nat) : Keeps s0 (State.writeTrkCtl s v) := by
  unfold Sys2Proof.Machine.State.writeTrkCtl
  repeat' (first | with_reducible assumption | with_reducible exact fun h => ⟨h, rfl⟩ | intro _ | with_reducible exact Keeps.refl _ | with_reducible apply K.ite | with_reducible apply K.eachArr | with_reducible apply K.bowFollow | split | dsimp only | with_reducible apply K.gen)
  all_goals simp_all

theorem K.writeArrReg {s0 s : State} (h : Keeps s0 s) (a : Nat) (r : Nat) (v : Nat) : Keeps s0 (State.writeArrReg s a r v) := by
  unfold Sys2Proof.Machine.State.writeArrReg
  repeat' (first | with_reducible assumption | with_reducible exact fun h => ⟨h, rfl⟩ | intro _ | with_reducible exact Keeps.refl _ | with_reducible apply K.ite | with_reducible apply K.modArr | split | dsimp only | with_reducible apply K.gen)
  all_goals simp_all

theorem K.writeCrewReg {s0 s : State} (h : Keeps s0 s) (n : Nat) (r : Nat) (v : Nat) : Keeps s0 (State.writeCrewReg s n r v) := by
  unfold Sys2Proof.Machine.State.writeCrewReg
  repeat' (first | with_reducible assumption | with_reducible exact fun h => ⟨h, rfl⟩ | intro _ | with_reducible exact Keeps.refl _ | with_reducible apply K.ite | with_reducible apply K.modCrew | with_reducible apply K.writeCrewSine | with_reducible apply K.writeArrReg | split | dsimp only | with_reducible apply K.gen)
  all_goals simp_all

theorem K.writeReg {s0 s : State} (h : Keeps s0 s) (off : Nat) (w : Dword) : Keeps s0 (State.writeReg s off w) := by
  unfold Sys2Proof.Machine.State.writeReg
  repeat' (first | with_reducible assumption | with_reducible exact fun h => ⟨h, rfl⟩ | intro _ | with_reducible exact Keeps.refl _ | with_reducible apply K.ite | with_reducible apply K.modPort | with_reducible apply K.firePf | with_reducible apply K.writeTrkCtl | with_reducible apply K.writeCrewReg | split | dsimp only | with_reducible apply K.gen)
  all_goals simp_all

theorem K.writeHeld {s0 s : State} (h : Keeps s0 s) (off : Nat) (w : Dword) : Keeps s0 (State.writeHeld s off w) := by
  unfold Sys2Proof.Machine.State.writeHeld
  repeat' (first | with_reducible assumption | with_reducible exact fun h => ⟨h, rfl⟩ | intro _ | with_reducible exact Keeps.refl _ | with_reducible apply K.ite | split | dsimp only | with_reducible apply K.gen)
  all_goals simp_all

theorem K.barWrite {s0 s : State} (h : Keeps s0 s) (fn : Nat) (bar4 : Bool) (off : Nat) (w : Dword) : Keeps s0 (State.barWrite s fn bar4 off w) := by
  unfold Sys2Proof.Machine.State.barWrite
  repeat' (first | with_reducible assumption | with_reducible exact fun h => ⟨h, rfl⟩ | intro _ | with_reducible exact Keeps.refl _ | with_reducible apply K.ite | with_reducible apply K.writeQueueReg | with_reducible apply K.fireVf | with_reducible apply K.writeReg | with_reducible apply K.writeHeld | split | dsimp only | with_reducible apply K.gen)
  all_goals simp_all

theorem K.writeDwords {s0 : State} : ∀ (ws : List (Dword × BitVec 4)) (s : State) (fn : Nat) (bar4 : Bool) (off : Nat),
    Keeps s0 s → Keeps s0 (State.writeDwords ws s fn bar4 off)
  | [], _, _, _, _, h => h
  | (w, be) :: t, s, fn, bar4, off, h => by
    unfold State.writeDwords
    refine K.writeDwords t _ fn bar4 (off + 4) ?_
    split
    · exact K.barWrite h fn bar4 off w
    · exact h

theorem K.execRegisterWrite {s0 s : State} (h : Keeps s0 s) (fn : Fin 17) (bar4 : Bool) (off : Nat)
    (ws : List (Dword × BitVec 4)) : KeepsO s0 (execRegisterWrite fn bar4 off ws s) :=
  K.writeDwords ws s fn.val bar4 (off / 4 * 4) h

theorem K.execSqDoorbell {s0 s : State} (h : Keeps s0 s) (q : QueueId) (v : Dword) : KeepsO s0 (execSqDoorbell q v s) := by
  unfold Sys2Proof.Machine.execSqDoorbell
  repeat' (first | with_reducible exact KeepsO.fault _ _ | with_reducible apply KeepsO.next | with_reducible apply KeepsO.ite | with_reducible assumption | with_reducible exact fun h => ⟨h, rfl⟩ | intro _ | with_reducible exact Keeps.refl _ | with_reducible apply K.ite | with_reducible apply K.writeQueueReg | split | dsimp only | with_reducible apply K.gen)
  all_goals simp_all

theorem K.execQueueEnable {s0 s : State} (h : Keeps s0 s) (q : QueueId) (v : Dword) : KeepsO s0 (execQueueEnable q v s) := by
  unfold Sys2Proof.Machine.execQueueEnable
  repeat' (first | with_reducible exact KeepsO.fault _ _ | with_reducible apply KeepsO.next | with_reducible apply KeepsO.ite | with_reducible assumption | with_reducible exact fun h => ⟨h, rfl⟩ | intro _ | with_reducible exact Keeps.refl _ | with_reducible apply K.ite | with_reducible apply K.writeQcfg | split | dsimp only | with_reducible apply K.gen)
  all_goals simp_all

theorem K.execQueueDisable {s0 s : State} (h : Keeps s0 s) (q : QueueId) (v : Dword) : KeepsO s0 (execQueueDisable q v s) := by
  unfold Sys2Proof.Machine.execQueueDisable
  repeat' (first | with_reducible exact KeepsO.fault _ _ | with_reducible apply KeepsO.next | with_reducible apply KeepsO.ite | with_reducible assumption | with_reducible exact fun h => ⟨h, rfl⟩ | intro _ | with_reducible exact Keeps.refl _ | with_reducible apply K.ite | with_reducible apply K.writeQcfg | split | dsimp only | with_reducible apply K.gen)
  all_goals simp_all

theorem K.execSecKeyInstall {s0 s : State} (h : Keeps s0 s) (slot : Fin 8) : KeepsO s0 (execSecKeyInstall slot s) := by
  unfold Sys2Proof.Machine.execSecKeyInstall
  repeat' (first | with_reducible exact KeepsO.fault _ _ | with_reducible apply KeepsO.next | with_reducible apply KeepsO.ite | with_reducible assumption | with_reducible exact fun h => ⟨h, rfl⟩ | intro _ | with_reducible exact Keeps.refl _ | with_reducible apply K.ite | with_reducible apply K.barWrite | split | dsimp only | with_reducible apply K.gen)
  all_goals simp_all

theorem K.execSecKeyRevoke {s0 s : State} (h : Keeps s0 s) (slot : Fin 8) : KeepsO s0 (execSecKeyRevoke slot s) := by
  unfold Sys2Proof.Machine.execSecKeyRevoke
  repeat' (first | with_reducible exact KeepsO.fault _ _ | with_reducible apply KeepsO.next | with_reducible apply KeepsO.ite | with_reducible assumption | with_reducible exact fun h => ⟨h, rfl⟩ | intro _ | with_reducible exact Keeps.refl _ | with_reducible apply K.ite | with_reducible apply K.barWrite | split | dsimp only | with_reducible apply K.gen)
  all_goals simp_all

theorem K.execSecKeyOpComplete {s0 s : State} (h : Keeps s0 s) : KeepsO s0 (execSecKeyOpComplete s) := by
  unfold Sys2Proof.Machine.execSecKeyOpComplete
  repeat' (first | with_reducible exact KeepsO.fault _ _ | with_reducible apply KeepsO.next | with_reducible apply KeepsO.ite | with_reducible assumption | with_reducible exact fun h => ⟨h, rfl⟩ | intro _ | with_reducible exact Keeps.refl _ | with_reducible apply K.ite | split | dsimp only | with_reducible apply K.gen)
  all_goals simp_all

theorem K.execTrackingReset {s0 s : State} (h : Keeps s0 s) (v : Dword) : KeepsO s0 (execTrackingReset v s) := by
  unfold Sys2Proof.Machine.execTrackingReset
  repeat' (first | with_reducible exact KeepsO.fault _ _ | with_reducible apply KeepsO.next | with_reducible apply KeepsO.ite | with_reducible assumption | with_reducible exact fun h => ⟨h, rfl⟩ | intro _ | with_reducible exact Keeps.refl _ | with_reducible apply K.ite | with_reducible apply K.barWrite | split | dsimp only | with_reducible apply K.gen)
  all_goals simp_all

theorem K.execSineRowModeEnable {s0 s : State} (h : Keeps s0 s) (crew : Fin 256) (v : Dword) : KeepsO s0 (execSineRowModeEnable crew v s) := by
  unfold Sys2Proof.Machine.execSineRowModeEnable
  repeat' (first | with_reducible exact KeepsO.fault _ _ | with_reducible apply KeepsO.next | with_reducible apply KeepsO.ite | with_reducible assumption | with_reducible exact fun h => ⟨h, rfl⟩ | intro _ | with_reducible exact Keeps.refl _ | with_reducible apply K.ite | with_reducible apply K.barWrite | split | dsimp only | with_reducible apply K.gen)
  all_goals simp_all

theorem K.execMgtSineEnable {s0 s : State} (h : Keeps s0 s) (v : Dword) : KeepsO s0 (execMgtSineEnable v s) := by
  unfold Sys2Proof.Machine.execMgtSineEnable
  repeat' (first | with_reducible exact KeepsO.fault _ _ | with_reducible apply KeepsO.next | with_reducible apply KeepsO.ite | with_reducible assumption | with_reducible exact fun h => ⟨h, rfl⟩ | intro _ | with_reducible exact Keeps.refl _ | with_reducible apply K.ite | with_reducible apply K.barWrite | split | dsimp only | with_reducible apply K.gen)
  all_goals simp_all

theorem K.execTimeLatchRead {s0 s : State} (h : Keeps s0 s) (off : Nat) (len : Nat) : KeepsO s0 (execTimeLatchRead off len s) := by
  unfold Sys2Proof.Machine.execTimeLatchRead
  repeat' (first | with_reducible exact KeepsO.fault _ _ | with_reducible apply KeepsO.next | with_reducible apply KeepsO.ite | with_reducible assumption | with_reducible exact fun h => ⟨h, rfl⟩ | intro _ | with_reducible exact Keeps.refl _ | with_reducible apply K.ite | with_reducible apply K.out | with_reducible apply K.readDwords | split | dsimp only | with_reducible apply K.gen)
  all_goals simp_all

theorem K.execTrngRead {s0 s : State} (h : Keeps s0 s) : KeepsO s0 (execTrngRead s) := by
  unfold Sys2Proof.Machine.execTrngRead
  repeat' (first | with_reducible exact KeepsO.fault _ _ | with_reducible apply KeepsO.next | with_reducible apply KeepsO.ite | with_reducible assumption | with_reducible exact fun h => ⟨h, rfl⟩ | intro _ | with_reducible exact Keeps.refl _ | with_reducible apply K.ite | with_reducible apply K.out | with_reducible apply K.readDword | split | dsimp only | with_reducible apply K.gen)
  all_goals simp_all

end Sys2Proof.Machine
end

