-- ==== Sys2Proof/Laws/KeepsQueues.lean ====
section
/-! SUPPORT. What the operations and rows of Machine/Queues.lean keep. -/
set_option linter.unusedTactic false
set_option linter.unreachableTactic false
namespace Sys2Proof.Machine

theorem K.popFetched {s0 s : State} (h : Keeps s0 s) (q : QueueId) : Keeps s0 (State.popFetched s q) := by
  unfold Sys2Proof.Machine.State.popFetched
  repeat' (first | with_reducible assumption | with_reducible exact fun h => ⟨h, rfl⟩ | intro _ | with_reducible exact Keeps.refl _ | with_reducible apply K.ite | with_reducible apply K.modQueue | split | dsimp only | with_reducible apply K.gen)
  all_goals simp_all

theorem K.examine {s0 s : State} (h : Keeps s0 s) (gen : Nat) (q : QueueId) (o : Op) (f : QueueId → Packet → State → State)
    (p : Packet) (hf : ∀ q p t, Keeps s0 t → Keeps s0 (f q p t)) : Keeps s0 (State.examine s gen q o f p) := by
  unfold State.examine
  split
  · exact K.replyGen h gen q p _ 0 0 0
  · exact hf q p s h

theorem K.packetRow {s0 s : State} (h : Keeps s0 s) (q : QueueId) (o : Op) (f : QueueId → Packet → State → State)
    (hf : ∀ q p t, Keeps s0 t → Keeps s0 (f q p t)) : Keeps s0 (State.packetRow s q o f) := by
  unfold State.packetRow
  split
  · exact h
  · split
    · split
      · exact K.hbmWait h _
      · exact K.examine (K.popFetched h q) 0 q o f _ hf
    · exact h

theorem K.packetParity {s0 s : State} (h : Keeps s0 s) (q : QueueId) (p : Packet) (e : ParityErr) : Keeps s0 (State.packetParity s q p e) := by
  unfold Sys2Proof.Machine.State.packetParity
  repeat' (first | with_reducible assumption | with_reducible exact fun h => ⟨h, rfl⟩ | intro _ | with_reducible exact Keeps.refl _ | with_reducible apply K.ite | with_reducible apply K.writeHost | with_reducible apply K.reply | with_reducible apply K.parityNote | with_reducible apply K.parityCrew | split | dsimp only | with_reducible apply K.gen)
  all_goals simp_all

theorem K.rejectUnknown {s0 : State} : ∀ (n : Nat) (s : State) (q : QueueId), Keeps s0 s →
    Keeps s0 (State.rejectUnknown n s q)
  | 0, _, _, h => h
  | n + 1, s, q, h => by
    unfold State.rejectUnknown
    split
    · exact h
    · split
      · refine K.rejectUnknown n _ q ?_
        split
        · split
          · exact K.reply (K.popFetched h q) q _ _ 0 0 0
          · exact K.packetParity (K.popFetched h q) q _ _
        · exact K.reply (K.popFetched h q) q _ _ 0 0 0
      · exact h

theorem K.sweep {s0 s : State} (h : Keeps s0 s) (q : QueueId) : Keeps s0 (s.sweep q) := K.rejectUnknown _ s q h

theorem K.fetch {s0 s : State} (h : Keeps s0 s) (q : QueueId) (err : Option ParityErr) : Keeps s0 (State.fetch s q err) := by
  unfold Sys2Proof.Machine.State.fetch
  repeat' (first | with_reducible assumption | with_reducible exact fun h => ⟨h, rfl⟩ | intro _ | with_reducible exact Keeps.refl _ | with_reducible apply K.ite | with_reducible apply K.setQueue | split | dsimp only | with_reducible apply K.gen)
  all_goals simp_all

theorem K.execSqEntryFetch {s0 s : State} (h : Keeps s0 s) (x0 : Checked QueueId) : KeepsO s0 (execSqEntryFetch x0 s) := by
  obtain ⟨r, err⟩ := x0
  rw [Sys2Proof.Machine.execSqEntryFetch]
  repeat' (first | with_reducible exact KeepsO.fault _ _ | with_reducible apply KeepsO.next | with_reducible apply KeepsO.ite | with_reducible assumption | with_reducible exact fun h => ⟨h, rfl⟩ | intro _ | with_reducible exact Keeps.refl _ | with_reducible apply K.ite | with_reducible apply K.sweep | with_reducible apply K.fetch | split | dsimp only | with_reducible apply K.gen)
  all_goals simp_all

theorem K.execCqDoorbell {s0 s : State} (h : Keeps s0 s) (q : QueueId) (v : Dword) : KeepsO s0 (execCqDoorbell q v s) := by
  unfold Sys2Proof.Machine.execCqDoorbell
  repeat' (first | with_reducible exact KeepsO.fault _ _ | with_reducible apply KeepsO.next | with_reducible apply KeepsO.ite | with_reducible assumption | with_reducible exact fun h => ⟨h, rfl⟩ | intro _ | with_reducible exact Keeps.refl _ | with_reducible apply K.ite | with_reducible apply K.writeQueueReg | with_reducible apply K.sweep | split | dsimp only | with_reducible apply K.gen)
  all_goals simp_all

theorem K.execRingReadError {s0 s : State} (h : Keeps s0 s) (q : QueueId) : KeepsO s0 (execRingReadError q s) := by
  unfold Sys2Proof.Machine.execRingReadError
  repeat' (first | with_reducible exact KeepsO.fault _ _ | with_reducible apply KeepsO.next | with_reducible apply KeepsO.ite | with_reducible assumption | with_reducible exact fun h => ⟨h, rfl⟩ | intro _ | with_reducible exact Keeps.refl _ | with_reducible apply K.ite | with_reducible apply K.setQueue | with_reducible apply K.emit | split | dsimp only | with_reducible apply K.gen)
  all_goals simp_all

theorem K.effNop {s0 s : State} (h : Keeps s0 s) (q : QueueId) (p : Packet) : Keeps s0 (effNop q p s) := by
  unfold Sys2Proof.Machine.effNop
  repeat' (first | with_reducible assumption | with_reducible exact fun h => ⟨h, rfl⟩ | intro _ | with_reducible exact Keeps.refl _ | with_reducible apply K.ite | with_reducible apply K.reply | with_reducible apply K.done | split | dsimp only | with_reducible apply K.gen)
  all_goals simp_all

theorem K.execNop {s0 s : State} (h : Keeps s0 s) (q : QueueId) : KeepsO s0 (execNop q s) := by
  unfold Sys2Proof.Machine.execNop
  repeat' (first | with_reducible exact KeepsO.fault _ _ | with_reducible apply KeepsO.next | with_reducible apply KeepsO.ite | with_reducible assumption | with_reducible exact fun h => ⟨h, rfl⟩ | intro _ | with_reducible exact Keeps.refl _ | with_reducible apply K.ite | with_reducible apply K.packetRow | with_reducible apply K.effNop | split | dsimp only | with_reducible apply K.gen)
  all_goals simp_all

theorem K.effIdentify {s0 s : State} (h : Keeps s0 s) (q : QueueId) (p : Packet) : Keeps s0 (effIdentify q p s) := by
  unfold Sys2Proof.Machine.effIdentify
  repeat' (first | with_reducible assumption | with_reducible exact fun h => ⟨h, rfl⟩ | intro _ | with_reducible exact Keeps.refl _ | with_reducible apply K.ite | with_reducible apply K.writeHost | with_reducible apply K.reply | with_reducible apply K.done | split | dsimp only | with_reducible apply K.gen)
  all_goals simp_all

theorem K.execIdentify {s0 s : State} (h : Keeps s0 s) (q : QueueId) : KeepsO s0 (execIdentify q s) := by
  unfold Sys2Proof.Machine.execIdentify
  repeat' (first | with_reducible exact KeepsO.fault _ _ | with_reducible apply KeepsO.next | with_reducible apply KeepsO.ite | with_reducible assumption | with_reducible exact fun h => ⟨h, rfl⟩ | intro _ | with_reducible exact Keeps.refl _ | with_reducible apply K.ite | with_reducible apply K.packetRow | with_reducible apply K.effIdentify | split | dsimp only | with_reducible apply K.gen)
  all_goals simp_all

theorem K.effFence {s0 s : State} (h : Keeps s0 s) (q : QueueId) (p : Packet) : Keeps s0 (effFence q p s) := by
  unfold Sys2Proof.Machine.effFence
  repeat' (first | with_reducible assumption | with_reducible exact fun h => ⟨h, rfl⟩ | intro _ | with_reducible exact Keeps.refl _ | with_reducible apply K.ite | with_reducible apply K.reply | with_reducible apply K.enrol | split | dsimp only | with_reducible apply K.gen)
  all_goals simp_all

theorem K.execFence {s0 s : State} (h : Keeps s0 s) (q : QueueId) : KeepsO s0 (execFence q s) := by
  unfold Sys2Proof.Machine.execFence
  repeat' (first | with_reducible exact KeepsO.fault _ _ | with_reducible apply KeepsO.next | with_reducible apply KeepsO.ite | with_reducible assumption | with_reducible exact fun h => ⟨h, rfl⟩ | intro _ | with_reducible exact Keeps.refl _ | with_reducible apply K.ite | with_reducible apply K.packetRow | with_reducible apply K.effFence | split | dsimp only | with_reducible apply K.gen)
  all_goals simp_all

theorem K.execFenceComplete {s0 s : State} (h : Keeps s0 s) (q : QueueId) : KeepsO s0 (execFenceComplete q s) := by
  unfold Sys2Proof.Machine.execFenceComplete
  repeat' (first | with_reducible exact KeepsO.fault _ _ | with_reducible apply KeepsO.next | with_reducible apply KeepsO.ite | with_reducible assumption | with_reducible exact fun h => ⟨h, rfl⟩ | intro _ | with_reducible exact Keeps.refl _ | with_reducible apply K.ite | with_reducible apply K.complete | split | dsimp only | with_reducible apply K.gen)
  all_goals simp_all

theorem K.statClear {s0 s : State} (h : Keeps s0 s) (c : Nat) (sel : Nat) : Keeps s0 (State.statClear s c sel) := by
  unfold Sys2Proof.Machine.State.statClear
  repeat' (first | with_reducible assumption | with_reducible exact fun h => ⟨h, rfl⟩ | intro _ | with_reducible exact Keeps.refl _ | with_reducible apply K.ite | with_reducible apply K.each | with_reducible apply K.modArr | with_reducible apply K.modCtx | split | dsimp only | with_reducible apply K.gen)
  all_goals simp_all

theorem K.effStatsRead {s0 s : State} (h : Keeps s0 s) (q : QueueId) (p : Packet) : Keeps s0 (effStatsRead q p s) := by
  unfold Sys2Proof.Machine.effStatsRead
  repeat' (first | with_reducible assumption | with_reducible exact fun h => ⟨h, rfl⟩ | intro _ | with_reducible exact Keeps.refl _ | with_reducible apply K.ite | with_reducible apply K.writeHost | with_reducible apply K.reply | with_reducible apply K.done | with_reducible apply K.statClear | split | dsimp only | with_reducible apply K.gen)
  all_goals simp_all

theorem K.execStatsRead {s0 s : State} (h : Keeps s0 s) (q : QueueId) : KeepsO s0 (execStatsRead q s) := by
  unfold Sys2Proof.Machine.execStatsRead
  repeat' (first | with_reducible exact KeepsO.fault _ _ | with_reducible apply KeepsO.next | with_reducible apply KeepsO.ite | with_reducible assumption | with_reducible exact fun h => ⟨h, rfl⟩ | intro _ | with_reducible exact Keeps.refl _ | with_reducible apply K.ite | with_reducible apply K.packetRow | with_reducible apply K.effStatsRead | split | dsimp only | with_reducible apply K.gen)
  all_goals simp_all

theorem K.effSignatureDrain {s0 s : State} (h : Keeps s0 s) (q : QueueId) (p : Packet) : Keeps s0 (effSignatureDrain q p s) := by
  unfold Sys2Proof.Machine.effSignatureDrain
  repeat' (first | with_reducible assumption | with_reducible exact fun h => ⟨h, rfl⟩ | intro _ | with_reducible exact Keeps.refl _ | with_reducible apply K.ite | with_reducible apply K.writeHost | with_reducible apply K.reply | with_reducible apply K.done | split | dsimp only | with_reducible apply K.gen)
  all_goals simp_all

theorem K.execSignatureDrain {s0 s : State} (h : Keeps s0 s) (q : QueueId) : KeepsO s0 (execSignatureDrain q s) := by
  unfold Sys2Proof.Machine.execSignatureDrain
  repeat' (first | with_reducible exact KeepsO.fault _ _ | with_reducible apply KeepsO.next | with_reducible apply KeepsO.ite | with_reducible assumption | with_reducible exact fun h => ⟨h, rfl⟩ | intro _ | with_reducible exact Keeps.refl _ | with_reducible apply K.ite | with_reducible apply K.packetRow | with_reducible apply K.effSignatureDrain | split | dsimp only | with_reducible apply K.gen)
  all_goals simp_all

theorem K.effTrackCtl {s0 s : State} (h : Keeps s0 s) (q : QueueId) (p : Packet) : Keeps s0 (effTrackCtl q p s) := by
  unfold Sys2Proof.Machine.effTrackCtl
  repeat' (first | with_reducible assumption | with_reducible exact fun h => ⟨h, rfl⟩ | intro _ | with_reducible exact Keeps.refl _ | with_reducible apply K.ite | with_reducible apply K.reply | with_reducible apply K.done | with_reducible apply K.writeTrkCtl | split | dsimp only | with_reducible apply K.gen)
  all_goals simp_all

theorem K.execTrackCtl {s0 s : State} (h : Keeps s0 s) (q : QueueId) : KeepsO s0 (execTrackCtl q s) := by
  unfold Sys2Proof.Machine.execTrackCtl
  repeat' (first | with_reducible exact KeepsO.fault _ _ | with_reducible apply KeepsO.next | with_reducible apply KeepsO.ite | with_reducible assumption | with_reducible exact fun h => ⟨h, rfl⟩ | intro _ | with_reducible exact Keeps.refl _ | with_reducible apply K.ite | with_reducible apply K.packetRow | with_reducible apply K.effTrackCtl | split | dsimp only | with_reducible apply K.gen)
  all_goals simp_all

end Sys2Proof.Machine
end

