-- ==== Sys2Proof/Laws/KeepsClock.lean ====
section
/-! SUPPORT. What the operations and rows of Machine/Clock.lean keep. -/
set_option linter.unusedTactic false
set_option linter.unreachableTactic false
namespace Sys2Proof.Machine

theorem K.tick {s0 s : State} (h : Keeps s0 s) : Keeps s0 (State.tick s) := by
  unfold Sys2Proof.Machine.State.tick
  repeat' (first | with_reducible assumption | with_reducible exact fun h => ⟨h, rfl⟩ | intro _ | with_reducible exact Keeps.refl _ | with_reducible apply K.ite | with_reducible apply K.eachArr | with_reducible apply K.eachCrew | split | dsimp only | with_reducible apply K.gen)
  all_goals simp_all

end Sys2Proof.Machine
end

