-- ==== Sys2Proof/Laws/KeepsBoot.lean ====
section
/-! SUPPORT. What the operations and rows of Machine/Boot.lean keep. -/
set_option linter.unusedTactic false
set_option linter.unreachableTactic false
namespace Sys2Proof.Machine

theorem K.execResetRelease {s0 s : State} (h : Keeps s0 s) (role : BitVec 2) (sb : BitVec 3) :
    KeepsO s0 (execResetRelease role sb s) := by
  unfold Sys2Proof.Machine.execResetRelease
  dsimp only
  split
  · exact K.gen h fun e => by simp [e]
  · exact h

theorem K.execPllLock {s0 s : State} (h : Keeps s0 s) : KeepsO s0 (execPllLock s) := by
  unfold Sys2Proof.Machine.execPllLock
  repeat' (first | with_reducible exact KeepsO.fault _ _ | with_reducible apply KeepsO.next | with_reducible apply KeepsO.ite | with_reducible assumption | with_reducible exact fun h => ⟨h, rfl⟩ | intro _ | with_reducible exact Keeps.refl _ | with_reducible apply K.ite | with_reducible apply K.out | split | dsimp only | with_reducible apply K.gen)
  all_goals simp_all

theorem K.execBistStageComplete {s0 s : State} (h : Keeps s0 s) (rd : BistReading) : KeepsO s0 (execBistStageComplete rd s) := by
  unfold Sys2Proof.Machine.execBistStageComplete
  repeat' (first | with_reducible exact KeepsO.fault _ _ | with_reducible apply KeepsO.next | with_reducible apply KeepsO.ite | with_reducible assumption | with_reducible exact fun h => ⟨h, rfl⟩ | intro _ | with_reducible exact Keeps.refl _ | with_reducible apply K.ite | split | dsimp only | with_reducible apply K.gen)
  all_goals simp_all

theorem K.execBootImageSelect {s0 s : State} (h : Keeps s0 s) : KeepsO s0 (execBootImageSelect s) := by
  unfold Sys2Proof.Machine.execBootImageSelect
  split
  · next c => exact K.gen h fun e => by simp [e] at c
  · exact h

theorem K.safeEvent {s0 s : State} (h : Keeps s0 s) (cause : Nat) (endpoint : Bool) : Keeps s0 (State.safeEvent s cause endpoint) := by
  unfold Sys2Proof.Machine.State.safeEvent
  repeat' (first | with_reducible assumption | with_reducible exact fun h => ⟨h, rfl⟩ | intro _ | with_reducible exact Keeps.refl _ | with_reducible apply K.ite | with_reducible apply K.enterSafe | split | dsimp only | with_reducible apply K.gen)
  all_goals simp_all

theorem K.execSharedFaultDetected {s0 s : State} (h : Keeps s0 s) (f : SharedFault) (endpoint : Bool) : KeepsO s0 (execSharedFaultDetected f endpoint s) := by
  unfold Sys2Proof.Machine.execSharedFaultDetected
  repeat' (first | with_reducible exact KeepsO.fault _ _ | with_reducible apply KeepsO.next | with_reducible apply KeepsO.ite | with_reducible assumption | with_reducible exact fun h => ⟨h, rfl⟩ | intro _ | with_reducible exact Keeps.refl _ | with_reducible apply K.ite | with_reducible apply K.safeEvent | split | dsimp only | with_reducible apply K.gen)
  all_goals simp_all

theorem K.execPllUnlock {s0 s : State} (h : Keeps s0 s) : KeepsO s0 (execPllUnlock s) := by
  unfold Sys2Proof.Machine.execPllUnlock
  repeat' (first | with_reducible exact KeepsO.fault _ _ | with_reducible apply KeepsO.next | with_reducible apply KeepsO.ite | with_reducible assumption | with_reducible exact fun h => ⟨h, rfl⟩ | intro _ | with_reducible exact Keeps.refl _ | with_reducible apply K.ite | with_reducible apply K.safeEvent | split | dsimp only | with_reducible apply K.gen)
  all_goals simp_all

theorem K.execRefclkLossTimeout {s0 s : State} (h : Keeps s0 s) : KeepsO s0 (execRefclkLossTimeout s) := by
  unfold Sys2Proof.Machine.execRefclkLossTimeout
  repeat' (first | with_reducible exact KeepsO.fault _ _ | with_reducible apply KeepsO.next | with_reducible apply KeepsO.ite | with_reducible assumption | with_reducible exact fun h => ⟨h, rfl⟩ | intro _ | with_reducible exact Keeps.refl _ | with_reducible apply K.ite | with_reducible apply K.safeEvent | split | dsimp only | with_reducible apply K.gen)
  all_goals simp_all

theorem K.execRailToleranceTimeout {s0 s : State} (h : Keeps s0 s) (x0 : RailFault) : KeepsO s0 (execRailToleranceTimeout x0 s) := by
  obtain ⟨rail, above⟩ := x0
  rw [Sys2Proof.Machine.execRailToleranceTimeout]
  repeat' (first | with_reducible exact KeepsO.fault _ _ | with_reducible apply KeepsO.next | with_reducible apply KeepsO.ite | with_reducible assumption | with_reducible exact fun h => ⟨h, rfl⟩ | intro _ | with_reducible exact Keeps.refl _ | with_reducible apply K.ite | with_reducible apply K.safeEvent | split | dsimp only | with_reducible apply K.gen)
  all_goals simp_all

theorem K.execOvertempTimeout {s0 s : State} (h : Keeps s0 s) : KeepsO s0 (execOvertempTimeout s) := by
  unfold Sys2Proof.Machine.execOvertempTimeout
  repeat' (first | with_reducible exact KeepsO.fault _ _ | with_reducible apply KeepsO.next | with_reducible apply KeepsO.ite | with_reducible assumption | with_reducible exact fun h => ⟨h, rfl⟩ | intro _ | with_reducible exact Keeps.refl _ | with_reducible apply K.ite | with_reducible apply K.safeEvent | split | dsimp only | with_reducible apply K.gen)
  all_goals simp_all

theorem K.execNocCreditWatchdog {s0 s : State} (h : Keeps s0 s) : KeepsO s0 (execNocCreditWatchdog s) := by
  unfold Sys2Proof.Machine.execNocCreditWatchdog
  repeat' (first | with_reducible exact KeepsO.fault _ _ | with_reducible apply KeepsO.next | with_reducible apply KeepsO.ite | with_reducible assumption | with_reducible exact fun h => ⟨h, rfl⟩ | intro _ | with_reducible exact Keeps.refl _ | with_reducible apply K.ite | with_reducible apply K.safeEvent | split | dsimp only | with_reducible apply K.gen)
  all_goals simp_all

theorem K.effSelftest {s0 s : State} (h : Keeps s0 s) (q : QueueId) (p : Packet) : Keeps s0 (effSelftest q p s) := by
  unfold Sys2Proof.Machine.effSelftest
  repeat' (first | with_reducible assumption | with_reducible exact fun h => ⟨h, rfl⟩ | intro _ | with_reducible exact Keeps.refl _ | with_reducible apply K.ite | with_reducible apply K.reply | with_reducible apply K.enrol | split | dsimp only | with_reducible apply K.gen)
  all_goals simp_all

theorem K.execSelftest {s0 s : State} (h : Keeps s0 s) (q : QueueId) : KeepsO s0 (execSelftest q s) := by
  unfold Sys2Proof.Machine.execSelftest
  repeat' (first | with_reducible exact KeepsO.fault _ _ | with_reducible apply KeepsO.next | with_reducible apply KeepsO.ite | with_reducible assumption | with_reducible exact fun h => ⟨h, rfl⟩ | intro _ | with_reducible exact Keeps.refl _ | with_reducible apply K.ite | with_reducible apply K.packetRow | with_reducible apply K.effSelftest | split | dsimp only | with_reducible apply K.gen)
  all_goals simp_all

theorem K.execSelftestComplete {s0 s : State} (h : Keeps s0 s) (rd : BistReading) : KeepsO s0 (execSelftestComplete rd s) := by
  unfold Sys2Proof.Machine.execSelftestComplete
  repeat' (first | with_reducible exact KeepsO.fault _ _ | with_reducible apply KeepsO.next | with_reducible apply KeepsO.ite | with_reducible assumption | with_reducible exact fun h => ⟨h, rfl⟩ | intro _ | with_reducible exact Keeps.refl _ | with_reducible apply K.ite | with_reducible apply K.complete | with_reducible apply K.safeEvent | split | dsimp only | with_reducible apply K.gen)
  all_goals simp_all

theorem K.effFwStage {s0 s : State} (h : Keeps s0 s) (q : QueueId) (p : Packet) : Keeps s0 (effFwStage q p s) := by
  unfold Sys2Proof.Machine.effFwStage
  repeat' (first | with_reducible assumption | with_reducible exact fun h => ⟨h, rfl⟩ | intro _ | with_reducible exact Keeps.refl _ | with_reducible apply K.ite | with_reducible apply K.reply | with_reducible apply K.done | with_reducible apply K.chargeHbm | split | dsimp only | with_reducible apply K.gen)
  all_goals simp_all

theorem K.execFwStage {s0 s : State} (h : Keeps s0 s) (q : QueueId) : KeepsO s0 (execFwStage q s) := by
  unfold Sys2Proof.Machine.execFwStage
  repeat' (first | with_reducible exact KeepsO.fault _ _ | with_reducible apply KeepsO.next | with_reducible apply KeepsO.ite | with_reducible assumption | with_reducible exact fun h => ⟨h, rfl⟩ | intro _ | with_reducible exact Keeps.refl _ | with_reducible apply K.ite | with_reducible apply K.packetRow | with_reducible apply K.effFwStage | split | dsimp only | with_reducible apply K.gen)
  all_goals simp_all

theorem K.effFwActivate {s0 s : State} (h : Keeps s0 s) (q : QueueId) (p : Packet) : Keeps s0 (effFwActivate q p s) := by
  unfold Sys2Proof.Machine.effFwActivate
  repeat' (first | with_reducible assumption | with_reducible exact fun h => ⟨h, rfl⟩ | intro _ | with_reducible exact Keeps.refl _ | with_reducible apply K.ite | with_reducible apply K.reply | with_reducible apply K.enrol | with_reducible apply K.chargeHbm | split | dsimp only | with_reducible apply K.gen)
  all_goals simp_all

theorem K.execFwActivate {s0 s : State} (h : Keeps s0 s) (q : QueueId) : KeepsO s0 (execFwActivate q s) := by
  unfold Sys2Proof.Machine.execFwActivate
  repeat' (first | with_reducible exact KeepsO.fault _ _ | with_reducible apply KeepsO.next | with_reducible apply KeepsO.ite | with_reducible assumption | with_reducible exact fun h => ⟨h, rfl⟩ | intro _ | with_reducible exact Keeps.refl _ | with_reducible apply K.ite | with_reducible apply K.packetRow | with_reducible apply K.effFwActivate | split | dsimp only | with_reducible apply K.gen)
  all_goals simp_all

theorem K.telemetry {s0 s : State} (h : Keeps s0 s) (r : Nat) (xs : List RailReading) : Keeps s0 (State.telemetry s r xs) := by
  unfold Sys2Proof.Machine.State.telemetry
  repeat' (first | with_reducible assumption | with_reducible exact fun h => ⟨h, rfl⟩ | intro _ | with_reducible exact Keeps.refl _ | with_reducible apply K.ite | with_reducible apply K.safeEvent | split | dsimp only | with_reducible apply K.gen)
  all_goals simp_all

theorem K.execRailTelemetryAvs {s0 s : State} (h : Keeps s0 s) (rs : List RailReading) : KeepsO s0 (execRailTelemetryAvs rs s) := by
  unfold Sys2Proof.Machine.execRailTelemetryAvs
  repeat' (first | with_reducible exact KeepsO.fault _ _ | with_reducible apply KeepsO.next | with_reducible apply KeepsO.ite | with_reducible assumption | with_reducible exact fun h => ⟨h, rfl⟩ | intro _ | with_reducible exact Keeps.refl _ | with_reducible apply K.ite | with_reducible apply K.telemetry | split | dsimp only | with_reducible apply K.gen)
  all_goals simp_all

theorem K.execRailTelemetryPmbus {s0 s : State} (h : Keeps s0 s) (rs : List RailReading) : KeepsO s0 (execRailTelemetryPmbus rs s) := by
  unfold Sys2Proof.Machine.execRailTelemetryPmbus
  repeat' (first | with_reducible exact KeepsO.fault _ _ | with_reducible apply KeepsO.next | with_reducible apply KeepsO.ite | with_reducible assumption | with_reducible exact fun h => ⟨h, rfl⟩ | intro _ | with_reducible exact Keeps.refl _ | with_reducible apply K.ite | with_reducible apply K.telemetry | split | dsimp only | with_reducible apply K.gen)
  all_goals simp_all

theorem K.execSmbMirrorReadFirst {s0 s : State} (h : Keeps s0 s) : KeepsO s0 (execSmbMirrorReadFirst s) := by
  unfold Sys2Proof.Machine.execSmbMirrorReadFirst
  repeat' (first | with_reducible exact KeepsO.fault _ _ | with_reducible apply KeepsO.next | with_reducible apply KeepsO.ite | with_reducible assumption | with_reducible exact fun h => ⟨h, rfl⟩ | intro _ | with_reducible exact Keeps.refl _ | with_reducible apply K.ite | with_reducible apply K.out | split | dsimp only | with_reducible apply K.gen)
  all_goals simp_all

theorem K.execSmbMirrorReadSecond {s0 s : State} (h : Keeps s0 s) : KeepsO s0 (execSmbMirrorReadSecond s) := by
  unfold Sys2Proof.Machine.execSmbMirrorReadSecond
  repeat' (first | with_reducible exact KeepsO.fault _ _ | with_reducible apply KeepsO.next | with_reducible apply KeepsO.ite | with_reducible assumption | with_reducible exact fun h => ⟨h, rfl⟩ | intro _ | with_reducible exact Keeps.refl _ | with_reducible apply K.ite | with_reducible apply K.out | split | dsimp only | with_reducible apply K.gen)
  all_goals simp_all

theorem K.execJtagInstruction {s0 s : State} (h : Keeps s0 s) (x0 : JtagEvent) : KeepsO s0 (execJtagInstruction x0 s) := by
  obtain ⟨op, trst⟩ := x0
  rw [Sys2Proof.Machine.execJtagInstruction]
  repeat' (first | with_reducible exact KeepsO.fault _ _ | with_reducible apply KeepsO.next | with_reducible apply KeepsO.ite | with_reducible assumption | with_reducible exact fun h => ⟨h, rfl⟩ | intro _ | with_reducible exact Keeps.refl _ | with_reducible apply K.ite | with_reducible apply K.out | split | dsimp only | with_reducible apply K.gen)
  all_goals simp_all

theorem K.execVirtualFunctionEnable {s0 s : State} (h : Keeps s0 s) (n : Fin 16) (en : Bool) (msix : Bool) : KeepsO s0 (execVirtualFunctionEnable n en msix s) := by
  unfold Sys2Proof.Machine.execVirtualFunctionEnable
  repeat' (first | with_reducible exact KeepsO.fault _ _ | with_reducible apply KeepsO.next | with_reducible apply KeepsO.ite | with_reducible assumption | with_reducible exact fun h => ⟨h, rfl⟩ | intro _ | with_reducible exact Keeps.refl _ | with_reducible apply K.ite | split | dsimp only | with_reducible apply K.gen)
  all_goals simp_all

theorem K.discard {s0 s : State} (h : Keeps s0 s) (q : QueueId) : Keeps s0 (State.discard s q) := by
  unfold Sys2Proof.Machine.State.discard
  repeat' (first | with_reducible assumption | with_reducible exact fun h => ⟨h, rfl⟩ | intro _ | with_reducible exact Keeps.refl _ | with_reducible apply K.ite | with_reducible apply K.each | with_reducible apply K.modQueue | with_reducible apply K.dropCmd | with_reducible apply K.purge | with_reducible apply K.freeSlot | split | dsimp only | with_reducible apply K.gen)
  all_goals simp_all

theorem K.execVfFlr {s0 s : State} (h : Keeps s0 s) (n : Fin 16) : KeepsO s0 (execVfFlr n s) := by
  unfold Sys2Proof.Machine.execVfFlr
  repeat' (first | with_reducible exact KeepsO.fault _ _ | with_reducible apply KeepsO.next | with_reducible apply KeepsO.ite | with_reducible assumption | with_reducible exact fun h => ⟨h, rfl⟩ | intro _ | with_reducible exact Keeps.refl _ | with_reducible apply K.ite | with_reducible apply K.modCtx | with_reducible apply K.discard | split | dsimp only | with_reducible apply K.gen)
  all_goals simp_all

end Sys2Proof.Machine
end

