-- ==== Sys2Proof/Laws/KeepsGovernor.lean ====
section
/-! SUPPORT. What the operations and rows of Machine/Governor.lean keep. -/
set_option linter.unusedTactic false
set_option linter.unreachableTactic false
namespace Sys2Proof.Machine

theorem K.execGovernorBudgetUpdate {s0 s : State} (h : Keeps s0 s) : KeepsO s0 (execGovernorBudgetUpdate s) := by
  unfold Sys2Proof.Machine.execGovernorBudgetUpdate
  repeat' (first | with_reducible exact KeepsO.fault _ _ | with_reducible apply KeepsO.next | with_reducible apply KeepsO.ite | with_reducible assumption | with_reducible exact fun h => ⟨h, rfl⟩ | intro _ | with_reducible exact Keeps.refl _ | with_reducible apply K.ite | split | dsimp only | with_reducible apply K.gen)
  all_goals simp_all

end Sys2Proof.Machine
end

