-- ==== Sys2Proof/Laws/KeepsEnvelope.lean ====
section
/-! SUPPORT. What the operations and rows of Machine/Envelope.lean keep. -/
set_option linter.unusedTactic false
set_option linter.unreachableTactic false
namespace Sys2Proof.Machine

theorem K.loadTrim {s0 s : State} (h : Keeps s0 s) (r : List Byte) (on : Nat → Bool) : Keeps s0 (State.loadTrim s r on) := by
  unfold Sys2Proof.Machine.State.loadTrim
  repeat' (first | with_reducible assumption | with_reducible exact fun h => ⟨h, rfl⟩ | intro _ | with_reducible exact Keeps.refl _ | with_reducible apply K.ite | with_reducible apply K.each | with_reducible apply K.modArr | with_reducible apply K.modCrew | split | dsimp only | with_reducible apply K.gen)
  all_goals simp_all

theorem K.setLantern {s0 s : State} (h : Keeps s0 s) (r : List Byte) (a : Nat) (pk : Nat) (live : F16) : Keeps s0 (State.setLantern s r a pk live) := by
  unfold Sys2Proof.Machine.State.setLantern
  repeat' (first | with_reducible assumption | with_reducible exact fun h => ⟨h, rfl⟩ | intro _ | with_reducible exact Keeps.refl _ | with_reducible apply K.ite | with_reducible apply K.modArr | with_reducible apply K.emit | split | dsimp only | with_reducible apply K.gen)
  all_goals simp_all

theorem K.lanterns {s0 s : State} (h : Keeps s0 s) (r : List Byte) (on : Nat → Bool) (live : Nat → Nat → F16) : Keeps s0 (State.lanterns s r on live) := by
  unfold Sys2Proof.Machine.State.lanterns
  repeat' (first | with_reducible assumption | with_reducible exact fun h => ⟨h, rfl⟩ | intro _ | with_reducible exact Keeps.refl _ | with_reducible apply K.ite | with_reducible apply K.each | with_reducible apply K.setLantern | split | dsimp only | with_reducible apply K.gen)
  all_goals simp_all

theorem K.takeAppendix {s0 s : State} (h : Keeps s0 s) (ap : List Byte) (a : Nat) : Keeps s0 (State.takeAppendix s ap a) := by
  unfold Sys2Proof.Machine.State.takeAppendix
  repeat' (first | with_reducible assumption | with_reducible exact fun h => ⟨h, rfl⟩ | intro _ | with_reducible exact Keeps.refl _ | with_reducible apply K.ite | with_reducible apply K.modArr | split | dsimp only | with_reducible apply K.gen)
  all_goals simp_all

theorem K.finishTrim {s0 s : State} (h : Keeps s0 s) (r : List Byte) (ap : List Byte) (live : Nat → Nat → F16) : Keeps s0 (State.finishTrim s r ap live) := by
  unfold Sys2Proof.Machine.State.finishTrim
  repeat' (first | with_reducible assumption | with_reducible exact fun h => ⟨h, rfl⟩ | intro _ | with_reducible exact Keeps.refl _ | with_reducible apply K.ite | with_reducible apply K.each | with_reducible apply K.emit | with_reducible apply K.chargeHbm | with_reducible apply K.lanterns | with_reducible apply K.takeAppendix | split | dsimp only | with_reducible apply K.gen)
  all_goals simp_all

theorem K.drawPass {s0 s : State} (h : Keeps s0 s) (on : Nat → Bool) : Keeps s0 (State.drawPass s on) := by
  unfold Sys2Proof.Machine.State.drawPass
  repeat' (first | with_reducible assumption | with_reducible exact fun h => ⟨h, rfl⟩ | intro _ | with_reducible exact Keeps.refl _ | with_reducible apply K.ite | split | dsimp only | with_reducible apply K.gen)
  all_goals simp_all

theorem K.effTrimLoad {s0 s : State} (h : Keeps s0 s) (q : QueueId) (p : Packet) : Keeps s0 (effTrimLoad q p s) := by
  unfold Sys2Proof.Machine.effTrimLoad
  repeat' (first | with_reducible assumption | with_reducible exact fun h => ⟨h, rfl⟩ | intro _ | with_reducible exact Keeps.refl _ | with_reducible apply K.ite | with_reducible apply K.reply | with_reducible apply K.eachArr | with_reducible apply K.enrol | with_reducible apply K.done | with_reducible apply K.bowFollow | with_reducible apply K.loadTrim | with_reducible apply K.finishTrim | with_reducible apply K.drawPass | split | dsimp only | with_reducible apply K.gen)
  all_goals simp_all

theorem K.execTrimLoad {s0 s : State} (h : Keeps s0 s) (q : QueueId) : KeepsO s0 (execTrimLoad q s) := by
  unfold Sys2Proof.Machine.execTrimLoad
  repeat' (first | with_reducible exact KeepsO.fault _ _ | with_reducible apply KeepsO.next | with_reducible apply KeepsO.ite | with_reducible assumption | with_reducible exact fun h => ⟨h, rfl⟩ | intro _ | with_reducible exact Keeps.refl _ | with_reducible apply K.ite | with_reducible apply K.packetRow | with_reducible apply K.effTrimLoad | split | dsimp only | with_reducible apply K.gen)
  all_goals simp_all

theorem K.execLanternPassComplete {s0 s : State} (h : Keeps s0 s) (means : List (Nat × F16)) : KeepsO s0 (execLanternPassComplete means s) := by
  unfold Sys2Proof.Machine.execLanternPassComplete
  repeat' (first | with_reducible exact KeepsO.fault _ _ | with_reducible apply KeepsO.next | with_reducible apply KeepsO.ite | with_reducible assumption | with_reducible exact fun h => ⟨h, rfl⟩ | intro _ | with_reducible exact Keeps.refl _ | with_reducible apply K.ite | with_reducible apply K.complete | with_reducible apply K.hbmWait | with_reducible apply K.finishTrim | split | dsimp only | with_reducible apply K.gen)
  all_goals simp_all

theorem K.effTrimRead {s0 s : State} (h : Keeps s0 s) (q : QueueId) (p : Packet) : Keeps s0 (effTrimRead q p s) := by
  unfold Sys2Proof.Machine.effTrimRead
  repeat' (first | with_reducible assumption | with_reducible exact fun h => ⟨h, rfl⟩ | intro _ | with_reducible exact Keeps.refl _ | with_reducible apply K.ite | with_reducible apply K.writeHost | with_reducible apply K.reply | with_reducible apply K.done | with_reducible apply K.chargeHbm | split | dsimp only | with_reducible apply K.gen)
  all_goals simp_all

theorem K.execTrimRead {s0 s : State} (h : Keeps s0 s) (q : QueueId) : KeepsO s0 (execTrimRead q s) := by
  unfold Sys2Proof.Machine.execTrimRead
  repeat' (first | with_reducible exact KeepsO.fault _ _ | with_reducible apply KeepsO.next | with_reducible apply KeepsO.ite | with_reducible assumption | with_reducible exact fun h => ⟨h, rfl⟩ | intro _ | with_reducible exact Keeps.refl _ | with_reducible apply K.ite | with_reducible apply K.packetRow | with_reducible apply K.effTrimRead | split | dsimp only | with_reducible apply K.gen)
  all_goals simp_all

theorem K.clearDie {s0 s : State} (h : Keeps s0 s) (d : Nat) : Keeps s0 (State.clearDie s d) := by
  unfold Sys2Proof.Machine.State.clearDie
  repeat' (first | with_reducible assumption | with_reducible exact fun h => ⟨h, rfl⟩ | intro _ | with_reducible exact Keeps.refl _ | with_reducible apply K.ite | with_reducible apply K.each | with_reducible apply K.eachVe | split | dsimp only | with_reducible apply K.gen)
  all_goals simp_all

theorem K.powerDown {s0 s : State} (h : Keeps s0 s) (d : Nat) : Keeps s0 (s.powerDown d) := by
  unfold State.powerDown
  refine K.each ?_ _ _ fun t c k => K.setCrew k c _
  exact (K.clearDie h d).trans ⟨rfl, fun c => ⟨c.host, c.queues, c.ctxs, c.crews, Tbl.wf_filter _ c.arrs, Tbl.wf_filter _ c.ves, c.ports,
    Tbl.wf_filter _ c.counters⟩, fun h => ⟨h, rfl⟩⟩

theorem K.powerUp {s0 s : State} (h : Keeps s0 s) (d : Nat) : Keeps s0 (State.powerUp s d) := by
  unfold Sys2Proof.Machine.State.powerUp
  repeat' (first | with_reducible assumption | with_reducible exact fun h => ⟨h, rfl⟩ | intro _ | with_reducible exact Keeps.refl _ | with_reducible apply K.ite | with_reducible apply K.chargeHbm | with_reducible apply K.loadTrim | with_reducible apply K.lanterns | with_reducible apply K.drawPass | split | dsimp only | with_reducible apply K.gen)
  all_goals simp_all

theorem K.setEnvelope {s0 s : State} (h : Keeps s0 s) (e : Nat) : Keeps s0 (State.setEnvelope s e) := by
  unfold Sys2Proof.Machine.State.setEnvelope
  repeat' (first | with_reducible assumption | with_reducible exact fun h => ⟨h, rfl⟩ | intro _ | with_reducible exact Keeps.refl _ | with_reducible apply K.ite | with_reducible apply K.each | with_reducible apply K.closeBypasses | with_reducible apply K.powerDown | with_reducible apply K.powerUp | split | dsimp only | with_reducible apply K.gen)
  all_goals simp_all

theorem K.effSetEnvelope {s0 s : State} (h : Keeps s0 s) (q : QueueId) (p : Packet) : Keeps s0 (effSetEnvelope q p s) := by
  unfold Sys2Proof.Machine.effSetEnvelope
  repeat' (first | with_reducible assumption | with_reducible exact fun h => ⟨h, rfl⟩ | intro _ | with_reducible exact Keeps.refl _ | with_reducible apply K.ite | with_reducible apply K.reply | with_reducible apply K.done | with_reducible apply K.setEnvelope | split | dsimp only | with_reducible apply K.gen)
  all_goals simp_all

theorem K.execSetEnvelope {s0 s : State} (h : Keeps s0 s) (q : QueueId) : KeepsO s0 (execSetEnvelope q s) := by
  unfold Sys2Proof.Machine.execSetEnvelope
  repeat' (first | with_reducible exact KeepsO.fault _ _ | with_reducible apply KeepsO.next | with_reducible apply KeepsO.ite | with_reducible assumption | with_reducible exact fun h => ⟨h, rfl⟩ | intro _ | with_reducible exact Keeps.refl _ | with_reducible apply K.ite | with_reducible apply K.packetRow | with_reducible apply K.setEnvelope | with_reducible apply K.effSetEnvelope | split | dsimp only | with_reducible apply K.gen)
  all_goals simp_all

theorem K.effSetEnvironment {s0 s : State} (h : Keeps s0 s) (q : QueueId) (p : Packet) : Keeps s0 (effSetEnvironment q p s) := by
  unfold Sys2Proof.Machine.effSetEnvironment
  repeat' (first | with_reducible assumption | with_reducible exact fun h => ⟨h, rfl⟩ | intro _ | with_reducible exact Keeps.refl _ | with_reducible apply K.ite | with_reducible apply K.reply | with_reducible apply K.done | with_reducible apply K.setEnvelope | split | dsimp only | with_reducible apply K.gen)
  all_goals simp_all

theorem K.execSetEnvironment {s0 s : State} (h : Keeps s0 s) (q : QueueId) : KeepsO s0 (execSetEnvironment q s) := by
  unfold Sys2Proof.Machine.execSetEnvironment
  repeat' (first | with_reducible exact KeepsO.fault _ _ | with_reducible apply KeepsO.next | with_reducible apply KeepsO.ite | with_reducible assumption | with_reducible exact fun h => ⟨h, rfl⟩ | intro _ | with_reducible exact Keeps.refl _ | with_reducible apply K.ite | with_reducible apply K.packetRow | with_reducible apply K.effSetEnvironment | split | dsimp only | with_reducible apply K.gen)
  all_goals simp_all

end Sys2Proof.Machine
end

