-- ==== Sys2Proof/Laws/KeepsContexts.lean ====
section
/-! SUPPORT. What the operations and rows of Machine/Contexts.lean keep. -/
set_option linter.unusedTactic false
set_option linter.unreachableTactic false
namespace Sys2Proof.Machine

theorem K.sendCmds {s0 s : State} (h : Keeps s0 s) (p : Packet) (gen : Nat) (dsts : List Nat) (extra : Nat → List Byte) : Keeps s0 (State.sendCmds s p gen dsts extra) := by
  unfold Sys2Proof.Machine.State.sendCmds
  repeat' (first | with_reducible assumption | with_reducible exact fun h => ⟨h, rfl⟩ | intro _ | with_reducible exact Keeps.refl _ | with_reducible apply K.ite | with_reducible apply K.each | with_reducible apply K.send | split | dsimp only | with_reducible apply K.gen)
  all_goals simp_all

theorem K.launchTo {s0 s : State} (h : Keeps s0 s) (ds : List Nat) (c : Cmd) (extra : Nat → List Byte) : Keeps s0 (State.launchTo s ds c extra) := by
  unfold Sys2Proof.Machine.State.launchTo
  repeat' (first | with_reducible assumption | with_reducible exact fun h => ⟨h, rfl⟩ | intro _ | with_reducible exact Keeps.refl _ | with_reducible apply K.ite | with_reducible apply K.enrol | with_reducible apply K.sendCmds | split | dsimp only | with_reducible apply K.gen)
  all_goals simp_all

theorem K.launch {s0 s : State} (h : Keeps s0 s) (o : Op) (c : Cmd) (extra : Nat → List Byte) : Keeps s0 (State.launch s o c extra) := by
  unfold Sys2Proof.Machine.State.launch
  repeat' (first | with_reducible assumption | with_reducible exact fun h => ⟨h, rfl⟩ | intro _ | with_reducible exact Keeps.refl _ | with_reducible apply K.ite | with_reducible apply K.launchTo | split | dsimp only | with_reducible apply K.gen)
  all_goals simp_all

theorem K.finish {s0 s : State} (h : Keeps s0 s) (o : Op) (q : QueueId) (p : Packet) (blocks : Bool) (r0 : Nat) (extra : Nat → List Byte) : Keeps s0 (State.finish s o q p blocks r0 extra) := by
  unfold Sys2Proof.Machine.State.finish
  repeat' (first | with_reducible assumption | with_reducible exact fun h => ⟨h, rfl⟩ | intro _ | with_reducible exact Keeps.refl _ | with_reducible apply K.ite | with_reducible apply K.takeHold | with_reducible apply K.complete | with_reducible apply K.done | with_reducible apply K.launch | split | dsimp only | with_reducible apply K.gen)
  all_goals simp_all

theorem K.effCtxOpen {s0 s : State} (h : Keeps s0 s) (q : QueueId) (p : Packet) : Keeps s0 (effCtxOpen q p s) := by
  unfold Sys2Proof.Machine.effCtxOpen
  repeat' (first | with_reducible assumption | with_reducible exact fun h => ⟨h, rfl⟩ | intro _ | with_reducible exact Keeps.refl _ | with_reducible apply K.ite | with_reducible apply K.reply | with_reducible apply K.finish | split | dsimp only | with_reducible apply K.gen)
  all_goals simp_all

theorem K.execCtxOpen {s0 s : State} (h : Keeps s0 s) (q : QueueId) : KeepsO s0 (execCtxOpen q s) := by
  unfold Sys2Proof.Machine.execCtxOpen
  repeat' (first | with_reducible exact KeepsO.fault _ _ | with_reducible apply KeepsO.next | with_reducible apply KeepsO.ite | with_reducible assumption | with_reducible exact fun h => ⟨h, rfl⟩ | intro _ | with_reducible exact Keeps.refl _ | with_reducible apply K.ite | with_reducible apply K.packetRow | with_reducible apply K.effCtxOpen | split | dsimp only | with_reducible apply K.gen)
  all_goals simp_all

theorem K.swingCheck {s0 s : State} (h : Keeps s0 s) (c : Nat) : Keeps s0 (State.swingCheck s c) := by
  unfold Sys2Proof.Machine.State.swingCheck
  repeat' (first | with_reducible assumption | with_reducible exact fun h => ⟨h, rfl⟩ | intro _ | with_reducible exact Keeps.refl _ | with_reducible apply K.ite | with_reducible apply K.modCtx | with_reducible apply K.takeHold | with_reducible apply K.complete | split | dsimp only | with_reducible apply K.gen)
  all_goals simp_all

theorem K.settle {s0 s : State} (h : Keeps s0 s) : Keeps s0 (State.settle s) := by
  unfold Sys2Proof.Machine.State.settle
  repeat' (first | with_reducible assumption | with_reducible exact fun h => ⟨h, rfl⟩ | intro _ | with_reducible exact Keeps.refl _ | with_reducible apply K.ite | with_reducible apply K.each | with_reducible apply K.swingCheck | split | dsimp only | with_reducible apply K.gen)
  all_goals simp_all

theorem K.effCtxClose {s0 s : State} (h : Keeps s0 s) (q : QueueId) (p : Packet) : Keeps s0 (effCtxClose q p s) := by
  unfold Sys2Proof.Machine.effCtxClose
  repeat' (first | with_reducible assumption | with_reducible exact fun h => ⟨h, rfl⟩ | intro _ | with_reducible exact Keeps.refl _ | with_reducible apply K.ite | with_reducible apply K.modCtx | with_reducible apply K.reply | with_reducible apply K.launch | with_reducible apply K.swingCheck | split | dsimp only | with_reducible apply K.gen)
  all_goals simp_all

theorem K.execCtxClose {s0 s : State} (h : Keeps s0 s) (q : QueueId) : KeepsO s0 (execCtxClose q s) := by
  unfold Sys2Proof.Machine.execCtxClose
  repeat' (first | with_reducible exact KeepsO.fault _ _ | with_reducible apply KeepsO.next | with_reducible apply KeepsO.ite | with_reducible assumption | with_reducible exact fun h => ⟨h, rfl⟩ | intro _ | with_reducible exact Keeps.refl _ | with_reducible apply K.ite | with_reducible apply K.packetRow | with_reducible apply K.effCtxClose | split | dsimp only | with_reducible apply K.gen)
  all_goals simp_all

theorem K.freeGen {s0 s : State} (h : Keeps s0 s) (c : Nat) (g : Generation) : Keeps s0 (State.freeGen s c g) := by
  unfold Sys2Proof.Machine.State.freeGen
  repeat' (first | with_reducible assumption | with_reducible exact fun h => ⟨h, rfl⟩ | intro _ | with_reducible exact Keeps.refl _ | with_reducible apply K.ite | with_reducible apply K.each | with_reducible apply K.modArr | with_reducible apply K.freePages | with_reducible apply K.untreat | split | dsimp only | with_reducible apply K.gen)
  all_goals simp_all

theorem K.closeCtx {s0 s : State} (h : Keeps s0 s) (c : Nat) : Keeps s0 (State.closeCtx s c) := by
  unfold Sys2Proof.Machine.State.closeCtx
  repeat' (first | with_reducible assumption | with_reducible exact fun h => ⟨h, rfl⟩ | intro _ | with_reducible exact Keeps.refl _ | with_reducible apply K.ite | with_reducible apply K.each | with_reducible apply K.modCrew | with_reducible apply K.modCtx | with_reducible apply K.abortPitch | with_reducible apply K.endPitchCmds | with_reducible apply K.freeGen | split | dsimp only | with_reducible apply K.gen)
  all_goals simp_all

theorem K.execCtxCloseComplete {s0 s : State} (h : Keeps s0 s) (c : Fin 16) : KeepsO s0 (execCtxCloseComplete c s) := by
  unfold Sys2Proof.Machine.execCtxCloseComplete
  repeat' (first | with_reducible exact KeepsO.fault _ _ | with_reducible apply KeepsO.next | with_reducible apply KeepsO.ite | with_reducible assumption | with_reducible exact fun h => ⟨h, rfl⟩ | intro _ | with_reducible exact Keeps.refl _ | with_reducible apply K.ite | with_reducible apply K.shutCtx | with_reducible apply K.complete | with_reducible apply K.closeCtx | split | dsimp only | with_reducible apply K.gen)
  all_goals simp_all

end Sys2Proof.Machine
end

