-- ==== Sys2Proof/Laws/KeepsAdmission.lean ====
section
/-! SUPPORT. What the operations and rows of Machine/Admission.lean keep. -/
set_option linter.unusedTactic false
set_option linter.unreachableTactic false
namespace Sys2Proof.Machine

theorem K.leaveArr {s0 s : State} (h : Keeps s0 s) (live : List Assign) (y : Assign) : Keeps s0 (State.leaveArr s live y) := by
  unfold Sys2Proof.Machine.State.leaveArr
  repeat' (first | with_reducible assumption | with_reducible exact fun h => ⟨h, rfl⟩ | intro _ | with_reducible exact Keeps.refl _ | with_reducible apply K.ite | with_reducible apply K.modArr | with_reducible apply K.untreat | split | dsimp only | with_reducible apply K.gen)
  all_goals simp_all

theorem K.retire {s0 s : State} (h : Keeps s0 s) (c : Nat) : Keeps s0 (State.retire s c) := by
  unfold Sys2Proof.Machine.State.retire
  repeat' (first | with_reducible assumption | with_reducible exact fun h => ⟨h, rfl⟩ | intro _ | with_reducible exact Keeps.refl _ | with_reducible apply K.ite | with_reducible apply K.each | with_reducible apply K.modCtx | with_reducible apply K.freePages | with_reducible apply K.dropRoles | with_reducible apply K.leaveArr | split | dsimp only | with_reducible apply K.gen)
  all_goals simp_all

theorem K.takeTables {s0 : State} {c gen : Nat} {m : Manifest} : ∀ (ys : List Assign) (s : State) {r : State × List Assign},
    State.takeTables c gen m ys s = some r → Keeps s0 s → Keeps s0 r.1
  | [], s, r, e, h => by
    simp only [State.takeTables, Option.some.injEq] at e
    exact e ▸ h
  | y :: ys, s, r, e, h => by
    unfold State.takeTables at e
    split at e
    · cases e
    · split at e
      · cases e
      · split at e
        · cases e
        · next k =>
          have z := K.takeTables ys _ k (K.setCrew h _ _)
          cases e
          exact z

theorem K.takeTiles {s0 : State} {c gen : Nat} {m : Manifest} {ys : List Assign} : ∀ (l : List (Nat × Nat)) (s : State)
    {r : State × List (Nat × Nat)}, State.takeTiles c gen m ys l s = some r → Keeps s0 s → Keeps s0 r.1
  | [], s, r, e, h => by
    simp only [State.takeTiles, Option.some.injEq] at e
    exact e ▸ h
  | (j, k) :: t, s, r, e, h => by
    unfold State.takeTiles at e
    split at e
    · cases e
    · split at e
      · cases e
      · next k =>
        have z := K.takeTiles t _ k (K.setCrew h _ _)
        split at e <;> cases e <;> exact z

theorem K.reserve {s0 s : State} (h : Keeps s0 s) (c : Nat) (p : Nat × Nat) : Keeps s0 (State.reserve s c p) := by
  unfold Sys2Proof.Machine.State.reserve
  repeat' (first | with_reducible assumption | with_reducible exact fun h => ⟨h, rfl⟩ | intro _ | with_reducible exact Keeps.refl _ | with_reducible apply K.ite | with_reducible apply K.modCrew | split | dsimp only | with_reducible apply K.gen)
  all_goals simp_all

theorem K.takeArr {s0 s : State} (h : Keeps s0 s) (y : Assign) : Keeps s0 (State.takeArr s y) := by
  unfold Sys2Proof.Machine.State.takeArr
  repeat' (first | with_reducible assumption | with_reducible exact fun h => ⟨h, rfl⟩ | intro _ | with_reducible exact Keeps.refl _ | with_reducible apply K.ite | with_reducible apply K.modCrew | split | dsimp only | with_reducible apply K.gen)
  all_goals simp_all

theorem K.giveRoles {s0 : State} : ∀ (ys : List Assign) (s : State), Keeps s0 s → Keeps s0 (State.giveRoles ys s)
  | a :: b :: t, s, h => by
    unfold State.giveRoles
    split
    · exact K.giveRoles t _ (K.modCrew h _ _)
    · exact K.giveRoles (b :: t) s h
  | [], s, h => by simpa [State.giveRoles] using h
  | [a], s, h => by simpa [State.giveRoles] using h

theorem K.admitPackage {s0 s t : State} {c gen : Nat} {m : Manifest} {nstage timeoutMs : Nat}
    (e : s.admitPackage c gen m nstage timeoutMs = some t) (h : Keeps s0 s) : Keeps s0 t := by
  unfold State.admitPackage at e
  dsimp only at e
  split at e
  · cases e
  · split at e
    · cases e
    · next k =>
      split at e
      · cases e
      · next l =>
        have u := K.takeTiles _ _ l (K.takeTables _ _ k (K.retire h c))
        split at e
        · cases e
        · cases e
          refine K.modCtx (K.giveRoles _ _ (K.each (K.each ?_ _ _ fun t p k => K.reserve k c p) _ _
            fun t y k => K.takeArr k y)) _ _
          exact K.gen u fun h => ⟨h, rfl⟩

end Sys2Proof.Machine
end

