-- ==== Sys2Proof/Laws/KeepsShards.lean ====
section
/-! SUPPORT. What the operations and rows of Machine/Shards.lean keep. -/
set_option linter.unusedTactic false
set_option linter.unreachableTactic false
namespace Sys2Proof.Machine

theorem K.deliverCodes {s0 s : State} (h : Keeps s0 s) (c : Nat) (g : Generation) (entry : Nat) (row0 : Nat) (codes : List Nat) : Keeps s0 (State.deliverCodes s c g entry row0 codes) := by
  unfold Sys2Proof.Machine.State.deliverCodes
  repeat' (first | with_reducible assumption | with_reducible exact fun h => ⟨h, rfl⟩ | intro _ | with_reducible exact Keeps.refl _ | with_reducible apply K.ite | with_reducible apply K.each | with_reducible apply K.modArr | split | dsimp only | with_reducible apply K.gen)
  all_goals simp_all

theorem K.deliverPages {s0 s : State} (h : Keeps s0 s) (g : Generation) (entry : Nat) (page : Assign → Nat) (bs : List Byte) : Keeps s0 (State.deliverPages s g entry page bs) := by
  unfold Sys2Proof.Machine.State.deliverPages
  repeat' (first | with_reducible assumption | with_reducible exact fun h => ⟨h, rfl⟩ | intro _ | with_reducible exact Keeps.refl _ | with_reducible apply K.ite | with_reducible apply K.each | with_reducible apply K.modCrew | split | dsimp only | with_reducible apply K.gen)
  all_goals simp_all

theorem K.deliver {s0 s : State} (h : Keeps s0 s) (c : Nat) (g : Generation) (sh : List Byte) : Keeps s0 (State.deliver s c g sh) := by
  unfold Sys2Proof.Machine.State.deliver
  repeat' (first | with_reducible assumption | with_reducible exact fun h => ⟨h, rfl⟩ | intro _ | with_reducible exact Keeps.refl _ | with_reducible apply K.ite | with_reducible apply K.modCtx | with_reducible apply K.writeWork | with_reducible apply K.chargeHbm | with_reducible apply K.deliverCodes | with_reducible apply K.deliverPages | split | dsimp only | with_reducible apply K.gen)
  all_goals simp_all

theorem K.packEntry {s0 s : State} (h : Keeps s0 s) (c : Nat) (p : Pitch) (entry : Nat) (layer : Nat) (sb : List Byte) : Keeps s0 (State.packEntry s c p entry layer sb) := by
  unfold Sys2Proof.Machine.State.packEntry
  repeat' (first | with_reducible assumption | with_reducible exact fun h => ⟨h, rfl⟩ | intro _ | with_reducible exact Keeps.refl _ | with_reducible apply K.ite | with_reducible apply K.deliverCodes | with_reducible apply K.deliverPages | split | dsimp only | with_reducible apply K.gen)
  all_goals simp_all

end Sys2Proof.Machine
end

