-- ==== Sys2Proof/Laws/KeepsPitch.lean ====
section
/-! SUPPORT. What the operations and rows of Machine/Pitch.lean keep. -/
set_option linter.unusedTactic false
set_option linter.unreachableTactic false
namespace Sys2Proof.Machine

theorem K.endRetrim {s0 s : State} (h : Keeps s0 s) (c : Nat) (r : CmdRef) : Keeps s0 (State.endRetrim s c r) := by
  unfold Sys2Proof.Machine.State.endRetrim
  repeat' (first | with_reducible assumption | with_reducible exact fun h => ⟨h, rfl⟩ | intro _ | with_reducible exact Keeps.refl _ | with_reducible apply K.ite | with_reducible apply K.each | with_reducible apply K.updCmd | with_reducible apply K.purge | with_reducible apply K.complete | with_reducible apply K.done | split | dsimp only | with_reducible apply K.gen)
  all_goals simp_all

theorem K.readManifest {s0 s : State} (h : Keeps s0 s) (src : Source) : Keeps s0 (State.readManifest s src) := by
  unfold Sys2Proof.Machine.State.readManifest
  repeat' (first | with_reducible assumption | with_reducible exact fun h => ⟨h, rfl⟩ | intro _ | with_reducible exact Keeps.refl _ | with_reducible apply K.ite | with_reducible apply K.chargeHbm | split | dsimp only | with_reducible apply K.gen)
  all_goals simp_all

theorem K.readAtBegin {s0 s : State} (h : Keeps s0 s) (q : QueueId) (p : Packet) : Keeps s0 (State.readAtBegin s q p) := by
  unfold Sys2Proof.Machine.State.readAtBegin
  repeat' (first | with_reducible assumption | with_reducible exact fun h => ⟨h, rfl⟩ | intro _ | with_reducible exact Keeps.refl _ | with_reducible apply K.ite | with_reducible apply K.readManifest | split | dsimp only | with_reducible apply K.gen)
  all_goals simp_all

theorem K.beginPitch {s0 s : State} (h : Keeps s0 s) (q : QueueId) (p : Packet) (gen : Nat) (src : Source) : Keeps s0 (State.beginPitch s q p gen src) := by
  unfold Sys2Proof.Machine.State.beginPitch
  repeat' (first | with_reducible assumption | with_reducible exact fun h => ⟨h, rfl⟩ | intro _ | with_reducible exact Keeps.refl _ | with_reducible apply K.ite | with_reducible apply K.takeHold | with_reducible apply K.complete | with_reducible apply K.done | with_reducible apply K.chargeHbm | with_reducible apply K.launch | with_reducible apply K.endRetrim | split | dsimp only | with_reducible apply K.gen)
  all_goals simp_all

theorem K.effPitchBegin {s0 s : State} (h : Keeps s0 s) (adopt : Nat) (q : QueueId) (p : Packet) : Keeps s0 (effPitchBegin adopt q p s) := by
  unfold Sys2Proof.Machine.effPitchBegin
  repeat' (first | with_reducible assumption | with_reducible exact fun h => ⟨h, rfl⟩ | intro _ | with_reducible exact Keeps.refl _ | with_reducible apply K.ite | with_reducible apply K.reply | with_reducible apply K.parityNote | with_reducible refine K.admitPackage (by with_reducible assumption) ?_ | with_reducible apply K.readAtBegin | with_reducible apply K.beginPitch | split | dsimp only | with_reducible apply K.gen)
  all_goals simp_all

theorem K.execPitchBegin {s0 s : State} (h : Keeps s0 s) (q : QueueId) : KeepsO s0 (execPitchBegin q s) := by
  unfold Sys2Proof.Machine.execPitchBegin
  repeat' (first | with_reducible exact KeepsO.fault _ _ | with_reducible apply KeepsO.next | with_reducible apply KeepsO.ite | with_reducible assumption | with_reducible exact fun h => ⟨h, rfl⟩ | intro _ | with_reducible exact Keeps.refl _ | with_reducible apply K.ite | with_reducible apply K.packetRow | with_reducible apply K.effPitchBegin | split | dsimp only | with_reducible apply K.gen)
  all_goals simp_all

theorem K.abortWith {s0 s : State} (h : Keeps s0 s) (c : Nat) (mark : Bool) (shardSt : Status) (commitSt : Status) (waitSt : Status) : Keeps s0 (State.abortWith s c mark shardSt commitSt waitSt) := by
  unfold Sys2Proof.Machine.State.abortWith
  repeat' (first | with_reducible assumption | with_reducible exact fun h => ⟨h, rfl⟩ | intro _ | with_reducible exact Keeps.refl _ | with_reducible apply K.ite | with_reducible apply K.abortPitch | with_reducible apply K.endPitchCmds | split | dsimp only | with_reducible apply K.gen)
  all_goals simp_all

theorem K.startShard {s0 s : State} (h : Keeps s0 s) (x : Cmd) : Keeps s0 (State.startShard s x) := by
  unfold Sys2Proof.Machine.State.startShard
  repeat' (first | with_reducible assumption | with_reducible exact fun h => ⟨h, rfl⟩ | intro _ | with_reducible exact Keeps.refl _ | with_reducible apply K.ite | with_reducible apply K.modCtx | with_reducible apply K.dropCmd | with_reducible apply K.complete | with_reducible apply K.chargeHbm | with_reducible apply K.completeIf | with_reducible apply K.parityError | with_reducible apply K.abortWith | split | dsimp only | with_reducible apply K.gen)
  all_goals simp_all

theorem K.nextShards {s0 : State} : ∀ (l : List Cmd) (c : Nat) (s : State), Keeps s0 s → Keeps s0 (State.nextShards l c s)
  | [], _, _, h => h
  | x :: xs, c, s, h => by
    unfold State.nextShards
    split
    · split
      · exact h
      · split
        · split
          · exact K.hbmWait h _
          · exact K.nextShards xs c _ (K.startShard h _)
        · exact K.nextShards xs c s h
    · refine K.nextShards xs c _ ?_
      split
      · exact K.startShard h _
      · exact h

theorem K.shardLane {s0 s : State} (h : Keeps s0 s) (c : Nat) : Keeps s0 (s.shardLane c) := K.nextShards _ c s h

theorem K.effPitchShard {s0 s : State} (h : Keeps s0 s) (q : QueueId) (p : Packet) : Keeps s0 (effPitchShard q p s) := by
  unfold Sys2Proof.Machine.effPitchShard
  repeat' (first | with_reducible assumption | with_reducible exact fun h => ⟨h, rfl⟩ | intro _ | with_reducible exact Keeps.refl _ | with_reducible apply K.ite | with_reducible apply K.reply | with_reducible apply K.enrol | with_reducible apply K.shardLane | split | dsimp only | with_reducible apply K.gen)
  all_goals simp_all

theorem K.execPitchShard {s0 s : State} (h : Keeps s0 s) (q : QueueId) : KeepsO s0 (execPitchShard q s) := by
  unfold Sys2Proof.Machine.execPitchShard
  repeat' (first | with_reducible exact KeepsO.fault _ _ | with_reducible apply KeepsO.next | with_reducible apply KeepsO.ite | with_reducible assumption | with_reducible exact fun h => ⟨h, rfl⟩ | intro _ | with_reducible exact Keeps.refl _ | with_reducible apply K.ite | with_reducible apply K.packetRow | with_reducible apply K.effPitchShard | split | dsimp only | with_reducible apply K.gen)
  all_goals simp_all

theorem K.noteSource {s0 s : State} (h : Keeps s0 s) (c : Nat) (p : Packet) (e : ParityErr) : Keeps s0 (State.noteSource s c p e) := by
  unfold Sys2Proof.Machine.State.noteSource
  repeat' (first | with_reducible assumption | with_reducible exact fun h => ⟨h, rfl⟩ | intro _ | with_reducible exact Keeps.refl _ | with_reducible apply K.ite | with_reducible apply K.noteWork | split | dsimp only | with_reducible apply K.gen)
  all_goals simp_all

theorem K.execPitchShardComplete {s0 s : State} (h : Keeps s0 s) (x0 : Checked (Fin 16)) : KeepsO s0 (execPitchShardComplete x0 s) := by
  obtain ⟨r, err⟩ := x0
  rw [Sys2Proof.Machine.execPitchShardComplete]
  repeat' (first | with_reducible exact KeepsO.fault _ _ | with_reducible apply KeepsO.next | with_reducible apply KeepsO.ite | with_reducible assumption | with_reducible exact fun h => ⟨h, rfl⟩ | intro _ | with_reducible exact Keeps.refl _ | with_reducible apply K.ite | with_reducible apply K.modCtx | with_reducible apply K.complete | with_reducible apply K.hbmWait | with_reducible apply K.completeIf | with_reducible apply K.parityError | with_reducible apply K.deliver | with_reducible apply K.shardLane | with_reducible apply K.noteSource | split | dsimp only | with_reducible apply K.gen)
  all_goals simp_all

theorem K.packError {s0 s : State} (h : Keeps s0 s) (c : Nat) (p : Pitch) (entry : Nat) (e : ParityErr) : Keeps s0 (State.packError s c p entry e) := by
  unfold Sys2Proof.Machine.State.packError
  repeat' (first | with_reducible assumption | with_reducible exact fun h => ⟨h, rfl⟩ | intro _ | with_reducible exact Keeps.refl _ | with_reducible apply K.ite | with_reducible apply K.modCtx | with_reducible apply K.parityNote | with_reducible apply K.parityCrew | with_reducible apply K.abortWith | split | dsimp only | with_reducible apply K.gen)
  all_goals simp_all

theorem K.execPackConversion {s0 s : State} (h : Keeps s0 s) (x0 : Checked (Fin 16)) (x1 : Nat) : KeepsO s0 (execPackConversion x0 x1 s) := by
  obtain ⟨r, err⟩ := x0
  rw [Sys2Proof.Machine.execPackConversion]
  repeat' (first | with_reducible exact KeepsO.fault _ _ | with_reducible apply KeepsO.next | with_reducible apply KeepsO.ite | with_reducible assumption | with_reducible exact fun h => ⟨h, rfl⟩ | intro _ | with_reducible exact Keeps.refl _ | with_reducible apply K.ite | with_reducible apply K.modCtx | with_reducible apply K.packEntry | with_reducible apply K.packError | split | dsimp only | with_reducible apply K.gen)
  all_goals simp_all

theorem K.effPitchCommit {s0 s : State} (h : Keeps s0 s) (q : QueueId) (p : Packet) : Keeps s0 (effPitchCommit q p s) := by
  unfold Sys2Proof.Machine.effPitchCommit
  repeat' (first | with_reducible assumption | with_reducible exact fun h => ⟨h, rfl⟩ | intro _ | with_reducible exact Keeps.refl _ | with_reducible apply K.ite | with_reducible apply K.modCtx | with_reducible apply K.reply | with_reducible apply K.complete | with_reducible apply K.launch | with_reducible apply K.abortWith | split | dsimp only | with_reducible apply K.gen)
  all_goals simp_all

theorem K.execPitchCommit {s0 s : State} (h : Keeps s0 s) (q : QueueId) : KeepsO s0 (execPitchCommit q s) := by
  unfold Sys2Proof.Machine.execPitchCommit
  repeat' (first | with_reducible exact KeepsO.fault _ _ | with_reducible apply KeepsO.next | with_reducible apply KeepsO.ite | with_reducible assumption | with_reducible exact fun h => ⟨h, rfl⟩ | intro _ | with_reducible exact Keeps.refl _ | with_reducible apply K.ite | with_reducible apply K.packetRow | with_reducible apply K.effPitchCommit | split | dsimp only | with_reducible apply K.gen)
  all_goals simp_all

theorem K.bindAll {s0 s : State} (h : Keeps s0 s) (c : Nat) (g : Generation) : Keeps s0 (State.bindAll s c g) := by
  unfold Sys2Proof.Machine.State.bindAll
  repeat' (first | with_reducible assumption | with_reducible exact fun h => ⟨h, rfl⟩ | intro _ | with_reducible exact Keeps.refl _ | with_reducible apply K.ite | with_reducible apply K.each | with_reducible apply K.modArr | with_reducible apply K.modCrew | split | dsimp only | with_reducible apply K.gen)
  all_goals simp_all

theorem K.execPitchCommitComplete {s0 s : State} (h : Keeps s0 s) (c : Fin 16) : KeepsO s0 (execPitchCommitComplete c s) := by
  unfold Sys2Proof.Machine.execPitchCommitComplete
  repeat' (first | with_reducible exact KeepsO.fault _ _ | with_reducible apply KeepsO.next | with_reducible apply KeepsO.ite | with_reducible assumption | with_reducible exact fun h => ⟨h, rfl⟩ | intro _ | with_reducible exact Keeps.refl _ | with_reducible apply K.ite | with_reducible apply K.modCtx | with_reducible apply K.complete | with_reducible apply K.bindAll | split | dsimp only | with_reducible apply K.gen)
  all_goals simp_all

theorem K.effPitchAbort {s0 s : State} (h : Keeps s0 s) (q : QueueId) (p : Packet) : Keeps s0 (effPitchAbort q p s) := by
  unfold Sys2Proof.Machine.effPitchAbort
  repeat' (first | with_reducible assumption | with_reducible exact fun h => ⟨h, rfl⟩ | intro _ | with_reducible exact Keeps.refl _ | with_reducible apply K.ite | with_reducible apply K.reply | with_reducible apply K.finish | with_reducible apply K.abortWith | split | dsimp only | with_reducible apply K.gen)
  all_goals simp_all

theorem K.execPitchAbort {s0 s : State} (h : Keeps s0 s) (q : QueueId) : KeepsO s0 (execPitchAbort q s) := by
  unfold Sys2Proof.Machine.execPitchAbort
  repeat' (first | with_reducible exact KeepsO.fault _ _ | with_reducible apply KeepsO.next | with_reducible apply KeepsO.ite | with_reducible assumption | with_reducible exact fun h => ⟨h, rfl⟩ | intro _ | with_reducible exact Keeps.refl _ | with_reducible apply K.ite | with_reducible apply K.packetRow | with_reducible apply K.effPitchAbort | split | dsimp only | with_reducible apply K.gen)
  all_goals simp_all

theorem K.ptimeoutEvent {s0 s : State} (h : Keeps s0 s) (c : Fin 16) : Keeps s0 (State.ptimeoutEvent s c) := by
  unfold Sys2Proof.Machine.State.ptimeoutEvent
  repeat' (first | with_reducible assumption | with_reducible exact fun h => ⟨h, rfl⟩ | intro _ | with_reducible exact Keeps.refl _ | with_reducible apply K.ite | with_reducible apply K.modQueue | with_reducible apply K.raiseCtx | split | dsimp only | with_reducible apply K.gen)
  all_goals simp_all

theorem K.pitchTimeout {s0 s : State} (h : Keeps s0 s) (c : Fin 16) (gen : Nat) : Keeps s0 (State.pitchTimeout s c gen) := by
  unfold Sys2Proof.Machine.State.pitchTimeout
  repeat' (first | with_reducible assumption | with_reducible exact fun h => ⟨h, rfl⟩ | intro _ | with_reducible exact Keeps.refl _ | with_reducible apply K.ite | with_reducible apply K.emit | with_reducible apply K.abortWith | with_reducible apply K.ptimeoutEvent | split | dsimp only | with_reducible apply K.gen)
  all_goals simp_all

theorem K.execPitchTimeout {s0 s : State} (h : Keeps s0 s) (c : Fin 16) : KeepsO s0 (execPitchTimeout c s) := by
  unfold Sys2Proof.Machine.execPitchTimeout
  repeat' (first | with_reducible exact KeepsO.fault _ _ | with_reducible apply KeepsO.next | with_reducible apply KeepsO.ite | with_reducible assumption | with_reducible exact fun h => ⟨h, rfl⟩ | intro _ | with_reducible exact Keeps.refl _ | with_reducible apply K.ite | with_reducible apply K.reply | with_reducible apply K.sendCmds | with_reducible apply K.pitchTimeout | split | dsimp only | with_reducible apply K.gen)
  all_goals simp_all

theorem K.undo {s0 s : State} (h : Keeps s0 s) (c : Cmd) : Keeps s0 (State.undo s c) := by
  unfold Sys2Proof.Machine.State.undo
  repeat' (first | with_reducible assumption | with_reducible exact fun h => ⟨h, rfl⟩ | intro _ | with_reducible exact Keeps.refl _ | with_reducible apply K.ite | with_reducible apply K.spoil | with_reducible apply K.sendCmds | with_reducible apply K.abortWith | split | dsimp only | with_reducible apply K.gen)
  all_goals simp_all

theorem K.finishParts {s0 s : State} (h : Keeps s0 s) (r : CmdRef) : Keeps s0 (State.finishParts s r) := by
  unfold Sys2Proof.Machine.State.finishParts
  repeat' (first | with_reducible assumption | with_reducible exact fun h => ⟨h, rfl⟩ | intro _ | with_reducible exact Keeps.refl _ | with_reducible apply K.ite | with_reducible apply K.complete | with_reducible apply K.undo | split | dsimp only | with_reducible apply K.gen)
  all_goals simp_all

theorem K.dropWrite {s0 s : State} (h : Keeps s0 s) (off : Nat) : Keeps s0 (State.dropWrite s off) := by
  unfold Sys2Proof.Machine.State.dropWrite
  repeat' (first | with_reducible assumption | with_reducible exact fun h => ⟨h, rfl⟩ | intro _ | with_reducible exact Keeps.refl _ | with_reducible apply K.ite | with_reducible apply K.emit | split | dsimp only | with_reducible apply K.gen)
  all_goals simp_all

theorem K.execPitchWindowWrite {s0 s : State} (h : Keeps s0 s) (fn : Fin 17) (off : Nat) (data : List Byte) : KeepsO s0 (execPitchWindowWrite fn off data s) := by
  unfold Sys2Proof.Machine.execPitchWindowWrite
  repeat' (first | with_reducible exact KeepsO.fault _ _ | with_reducible apply KeepsO.next | with_reducible apply KeepsO.ite | with_reducible assumption | with_reducible exact fun h => ⟨h, rfl⟩ | intro _ | with_reducible exact Keeps.refl _ | with_reducible apply K.ite | with_reducible apply K.modCtx | with_reducible apply K.chargeHbm | with_reducible apply K.dropWrite | split | dsimp only | with_reducible apply K.gen)
  all_goals simp_all

end Sys2Proof.Machine
end

