-- ==== Sys2Proof/Laws/KeepsSwing.lean ====
section
/-! SUPPORT. What the operations and rows of Machine/Swing.lean keep. -/
set_option linter.unusedTactic false
set_option linter.unreachableTactic false
namespace Sys2Proof.Machine

theorem K.effSwing {s0 s : State} (h : Keeps s0 s) (q : QueueId) (p : Packet) : Keeps s0 (effSwing q p s) := by
  unfold Sys2Proof.Machine.effSwing
  repeat' (first | with_reducible assumption | with_reducible exact fun h => ⟨h, rfl⟩ | intro _ | with_reducible exact Keeps.refl _ | with_reducible apply K.ite | with_reducible apply K.modCtx | with_reducible apply K.reply | with_reducible apply K.bowUpdate | with_reducible apply K.launch | with_reducible apply K.swingCheck | split | dsimp only | with_reducible apply K.gen)
  all_goals simp_all

theorem K.execSwing {s0 s : State} (h : Keeps s0 s) (q : QueueId) : KeepsO s0 (execSwing q s) := by
  unfold Sys2Proof.Machine.execSwing
  repeat' (first | with_reducible exact KeepsO.fault _ _ | with_reducible apply KeepsO.next | with_reducible apply KeepsO.ite | with_reducible assumption | with_reducible exact fun h => ⟨h, rfl⟩ | intro _ | with_reducible exact Keeps.refl _ | with_reducible apply K.ite | with_reducible apply K.packetRow | with_reducible apply K.effSwing | split | dsimp only | with_reducible apply K.gen)
  all_goals simp_all

theorem K.execArraySwing {s0 s : State} (h : Keeps s0 s) (crew : Fin 256) (slot : Fin 17) : KeepsO s0 (execArraySwing crew slot s) := by
  unfold Sys2Proof.Machine.execArraySwing
  repeat' (first | with_reducible exact KeepsO.fault _ _ | with_reducible apply KeepsO.next | with_reducible apply KeepsO.ite | with_reducible assumption | with_reducible exact fun h => ⟨h, rfl⟩ | intro _ | with_reducible exact Keeps.refl _ | with_reducible apply K.ite | with_reducible apply K.modArr | with_reducible apply K.arrayDone | with_reducible apply K.swingCheck | split | dsimp only | with_reducible apply K.gen)
  all_goals simp_all

end Sys2Proof.Machine
end

