-- ==== Sys2Proof/Laws/KeepsWritePath.lean ====
section
/-! SUPPORT. What the operations and rows of Machine/WritePath.lean keep. -/
set_option linter.unusedTactic false
set_option linter.unreachableTactic false
namespace Sys2Proof.Machine

theorem K.addPatches {s0 s : State} (h : Keeps s0 s) (a : Nat) (plane : Bool) (cb4 : Bool) (keep : Bool) (new : List (List Byte)) : Keeps s0 (State.addPatches s a plane cb4 keep new) := by
  unfold Sys2Proof.Machine.State.addPatches
  repeat' (first | with_reducible assumption | with_reducible exact fun h => ⟨h, rfl⟩ | intro _ | with_reducible exact Keeps.refl _ | with_reducible apply K.ite | with_reducible apply K.modArr | with_reducible apply K.modCrew | with_reducible apply K.emit | split | dsimp only | with_reducible apply K.gen)
  all_goals simp_all

theorem K.endRow {s0 s : State} (h : Keeps s0 s) (a : Nat) (ly : Layer) (plane : Bool) (p : Plane) (g : Prog) (row : Nat) (reads : List Nat) : Keeps s0 (State.endRow s a ly plane p g row reads) := by
  unfold Sys2Proof.Machine.State.endRow
  repeat' (first | with_reducible assumption | with_reducible exact fun h => ⟨h, rfl⟩ | intro _ | with_reducible exact Keeps.refl _ | with_reducible apply K.ite | with_reducible apply K.each | with_reducible apply K.modArr | with_reducible apply K.emit | with_reducible apply K.addPatches | split | dsimp only | with_reducible apply K.gen)
  all_goals simp_all

theorem K.pitchSlot {s0 s : State} (h : Keeps s0 s) (a : Nat) (g : Prog) (row : Nat) (reads : List Nat) : Keeps s0 (State.pitchSlot s a g row reads) := by
  unfold Sys2Proof.Machine.State.pitchSlot
  repeat' (first | with_reducible assumption | with_reducible exact fun h => ⟨h, rfl⟩ | intro _ | with_reducible exact Keeps.refl _ | with_reducible apply K.ite | with_reducible apply K.modArr | with_reducible apply K.out | with_reducible apply K.endRow | split | dsimp only | with_reducible apply K.gen)
  all_goals simp_all

theorem K.execPitchSlot {s0 s : State} (h : Keeps s0 s) (crew : Fin 256) (slot : Fin 17) (reads : List Nat) : KeepsO s0 (execPitchSlot crew slot reads s) := by
  unfold Sys2Proof.Machine.execPitchSlot
  repeat' (first | with_reducible exact KeepsO.fault _ _ | with_reducible apply KeepsO.next | with_reducible apply KeepsO.ite | with_reducible assumption | with_reducible exact fun h => ⟨h, rfl⟩ | intro _ | with_reducible exact Keeps.refl _ | with_reducible apply K.ite | with_reducible apply K.pitchSlot | split | dsimp only | with_reducible apply K.gen)
  all_goals simp_all

end Sys2Proof.Machine
end

