-- ==== Sys2Proof/Laws/KeepsMaintenance.lean ====
section
/-! SUPPORT. What the operations and rows of Machine/Maintenance.lean keep. -/
set_option linter.unusedTactic false
set_option linter.unreachableTactic false
namespace Sys2Proof.Machine

theorem K.queueCensus {s0 s : State} (h : Keeps s0 s) (a : Nat) : Keeps s0 (State.queueCensus s a) := by
  unfold Sys2Proof.Machine.State.queueCensus
  repeat' (first | with_reducible assumption | with_reducible exact fun h => ⟨h, rfl⟩ | intro _ | with_reducible exact Keeps.refl _ | with_reducible apply K.ite | split | dsimp only | with_reducible apply K.gen)
  all_goals simp_all

theorem K.urgentCensus {s0 s : State} (h : Keeps s0 s) (a : Nat) : Keeps s0 (State.urgentCensus s a) := by
  unfold Sys2Proof.Machine.State.urgentCensus
  repeat' (first | with_reducible assumption | with_reducible exact fun h => ⟨h, rfl⟩ | intro _ | with_reducible exact Keeps.refl _ | with_reducible apply K.ite | split | dsimp only | with_reducible apply K.gen)
  all_goals simp_all

theorem K.queueRefresh {s0 s : State} (h : Keeps s0 s) (a : Nat) : Keeps s0 (State.queueRefresh s a) := by
  unfold Sys2Proof.Machine.State.queueRefresh
  repeat' (first | with_reducible assumption | with_reducible exact fun h => ⟨h, rfl⟩ | intro _ | with_reducible exact Keeps.refl _ | with_reducible apply K.ite | split | dsimp only | with_reducible apply K.gen)
  all_goals simp_all

theorem K.treat {s0 s : State} (h : Keeps s0 s) (q : QueueId) (p : Packet) (queue : State → Nat → State)
    (hf : ∀ t a, Keeps s0 t → Keeps s0 (queue t a)) : Keeps s0 (State.treat s q p queue) := by
  unfold State.treat
  split
  · exact K.reply h q p _ 0 0 0
  · dsimp only
    split
    · exact K.done h q p _ _ _
    · exact K.enrol (K.each h _ _ hf) _

theorem K.effRefresh {s0 s : State} (h : Keeps s0 s) (q : QueueId) (p : Packet) : Keeps s0 (effRefresh q p s) := by
  unfold Sys2Proof.Machine.effRefresh
  repeat' (first | with_reducible assumption | with_reducible exact fun h => ⟨h, rfl⟩ | intro _ | with_reducible exact Keeps.refl _ | with_reducible apply K.ite | with_reducible apply K.queueRefresh | with_reducible apply K.treat | split | dsimp only | with_reducible apply K.gen)
  all_goals simp_all

theorem K.execRefresh {s0 s : State} (h : Keeps s0 s) (q : QueueId) : KeepsO s0 (execRefresh q s) := by
  unfold Sys2Proof.Machine.execRefresh
  repeat' (first | with_reducible exact KeepsO.fault _ _ | with_reducible apply KeepsO.next | with_reducible apply KeepsO.ite | with_reducible assumption | with_reducible exact fun h => ⟨h, rfl⟩ | intro _ | with_reducible exact Keeps.refl _ | with_reducible apply K.ite | with_reducible apply K.packetRow | with_reducible apply K.effRefresh | split | dsimp only | with_reducible apply K.gen)
  all_goals simp_all

theorem K.effCensus {s0 s : State} (h : Keeps s0 s) (q : QueueId) (p : Packet) : Keeps s0 (effCensus q p s) := by
  unfold Sys2Proof.Machine.effCensus
  repeat' (first | with_reducible assumption | with_reducible exact fun h => ⟨h, rfl⟩ | intro _ | with_reducible exact Keeps.refl _ | with_reducible apply K.ite | with_reducible apply K.queueCensus | with_reducible apply K.treat | split | dsimp only | with_reducible apply K.gen)
  all_goals simp_all

theorem K.execCensus {s0 s : State} (h : Keeps s0 s) (q : QueueId) : KeepsO s0 (execCensus q s) := by
  unfold Sys2Proof.Machine.execCensus
  repeat' (first | with_reducible exact KeepsO.fault _ _ | with_reducible apply KeepsO.next | with_reducible apply KeepsO.ite | with_reducible assumption | with_reducible exact fun h => ⟨h, rfl⟩ | intro _ | with_reducible exact Keeps.refl _ | with_reducible apply K.ite | with_reducible apply K.packetRow | with_reducible apply K.effCensus | split | dsimp only | with_reducible apply K.gen)
  all_goals simp_all

theorem K.execRefreshStart {s0 s : State} (h : Keeps s0 s) (crew : Fin 256) (slot : Fin 17) : KeepsO s0 (execRefreshStart crew slot s) := by
  unfold Sys2Proof.Machine.execRefreshStart
  repeat' (first | with_reducible exact KeepsO.fault _ _ | with_reducible apply KeepsO.next | with_reducible apply KeepsO.ite | with_reducible assumption | with_reducible exact fun h => ⟨h, rfl⟩ | intro _ | with_reducible exact Keeps.refl _ | with_reducible apply K.ite | with_reducible apply K.modArr | split | dsimp only | with_reducible apply K.gen)
  all_goals simp_all

theorem K.execCensusStart {s0 s : State} (h : Keeps s0 s) (crew : Fin 256) (slot : Fin 17) : KeepsO s0 (execCensusStart crew slot s) := by
  unfold Sys2Proof.Machine.execCensusStart
  repeat' (first | with_reducible exact KeepsO.fault _ _ | with_reducible apply KeepsO.next | with_reducible apply KeepsO.ite | with_reducible assumption | with_reducible exact fun h => ⟨h, rfl⟩ | intro _ | with_reducible exact Keeps.refl _ | with_reducible apply K.ite | with_reducible apply K.modArr | split | dsimp only | with_reducible apply K.gen)
  all_goals simp_all

theorem K.execScheduledCensusDue {s0 s : State} (h : Keeps s0 s) : KeepsO s0 (execScheduledCensusDue s) := by
  unfold Sys2Proof.Machine.execScheduledCensusDue
  repeat' (first | with_reducible exact KeepsO.fault _ _ | with_reducible apply KeepsO.next | with_reducible apply KeepsO.ite | with_reducible assumption | with_reducible exact fun h => ⟨h, rfl⟩ | intro _ | with_reducible exact Keeps.refl _ | with_reducible apply K.ite | with_reducible apply K.each | with_reducible apply K.queueCensus | split | dsimp only | with_reducible apply K.gen)
  all_goals simp_all

theorem K.refreshSlot {s0 s : State} (h : Keeps s0 s) (a : Nat) (row : Nat) (reads : List Nat) : Keeps s0 (State.refreshSlot s a row reads) := by
  unfold Sys2Proof.Machine.State.refreshSlot
  repeat' (first | with_reducible assumption | with_reducible exact fun h => ⟨h, rfl⟩ | intro _ | with_reducible exact Keeps.refl _ | with_reducible apply K.ite | with_reducible apply K.modArr | split | dsimp only | with_reducible apply K.gen)
  all_goals simp_all

theorem K.censusSlot {s0 s : State} (h : Keeps s0 s) (a : Nat) (reads : List Nat) : Keeps s0 (State.censusSlot s a reads) := by
  unfold Sys2Proof.Machine.State.censusSlot
  repeat' (first | with_reducible assumption | with_reducible exact fun h => ⟨h, rfl⟩ | intro _ | with_reducible exact Keeps.refl _ | with_reducible apply K.ite | with_reducible apply K.modArr | split | dsimp only | with_reducible apply K.gen)
  all_goals simp_all

theorem K.execMaintenanceSlot {s0 s : State} (h : Keeps s0 s) (crew : Fin 256) (slot : Fin 17) (reads : List Nat) : KeepsO s0 (execMaintenanceSlot crew slot reads s) := by
  unfold Sys2Proof.Machine.execMaintenanceSlot
  repeat' (first | with_reducible exact KeepsO.fault _ _ | with_reducible apply KeepsO.next | with_reducible apply KeepsO.ite | with_reducible assumption | with_reducible exact fun h => ⟨h, rfl⟩ | intro _ | with_reducible exact Keeps.refl _ | with_reducible apply K.ite | with_reducible apply K.refreshSlot | with_reducible apply K.censusSlot | split | dsimp only | with_reducible apply K.gen)
  all_goals simp_all

theorem K.execRefreshComplete {s0 s : State} (h : Keeps s0 s) (crew : Fin 256) (slot : Fin 17) : KeepsO s0 (execRefreshComplete crew slot s) := by
  unfold Sys2Proof.Machine.execRefreshComplete
  repeat' (first | with_reducible exact KeepsO.fault _ _ | with_reducible apply KeepsO.next | with_reducible apply KeepsO.ite | with_reducible assumption | with_reducible exact fun h => ⟨h, rfl⟩ | intro _ | with_reducible exact Keeps.refl _ | with_reducible apply K.ite | with_reducible apply K.modArr | with_reducible apply K.arrayDone | split | dsimp only | with_reducible apply K.gen)
  all_goals simp_all

theorem K.censusResult {s0 s : State} (h : Keeps s0 s) (a : Nat) : Keeps s0 (State.censusResult s a) := by
  unfold Sys2Proof.Machine.State.censusResult
  repeat' (first | with_reducible assumption | with_reducible exact fun h => ⟨h, rfl⟩ | intro _ | with_reducible exact Keeps.refl _ | with_reducible apply K.ite | with_reducible apply K.modArr | with_reducible apply K.emit | with_reducible apply K.addPatches | split | dsimp only | with_reducible apply K.gen)
  all_goals simp_all

theorem K.execCensusComplete {s0 s : State} (h : Keeps s0 s) (crew : Fin 256) (slot : Fin 17) : KeepsO s0 (execCensusComplete crew slot s) := by
  unfold Sys2Proof.Machine.execCensusComplete
  repeat' (first | with_reducible exact KeepsO.fault _ _ | with_reducible apply KeepsO.next | with_reducible apply KeepsO.ite | with_reducible assumption | with_reducible exact fun h => ⟨h, rfl⟩ | intro _ | with_reducible exact Keeps.refl _ | with_reducible apply K.ite | with_reducible apply K.modArr | with_reducible apply K.arrayDone | with_reducible apply K.censusResult | split | dsimp only | with_reducible apply K.gen)
  all_goals simp_all

end Sys2Proof.Machine
end

