-- ==== Sys2Proof/Laws/KeepsAssembly.lean ====
section
/-! SUPPORT. What the operations and rows of Machine/Assembly.lean keep. -/
set_option linter.unusedTactic false
set_option linter.unreachableTactic false
namespace Sys2Proof.Machine

theorem K.clearCounter {s0 s : State} (h : Keeps s0 s) (k : Option Nat) : Keeps s0 (State.clearCounter s k) := by
  unfold Sys2Proof.Machine.State.clearCounter
  repeat' (first | with_reducible assumption | with_reducible exact fun h => ⟨h, rfl⟩ | intro _ | with_reducible exact Keeps.refl _ | with_reducible apply K.ite | with_reducible apply K.setCounter | split | dsimp only | with_reducible apply K.gen)
  all_goals simp_all

theorem K.bump {s0 s : State} (h : Keeps s0 s) (k : Option Nat) : Keeps s0 (State.bump s k) := by
  unfold Sys2Proof.Machine.State.bump
  repeat' (first | with_reducible assumption | with_reducible exact fun h => ⟨h, rfl⟩ | intro _ | with_reducible exact Keeps.refl _ | with_reducible apply K.ite | with_reducible apply K.setCounter | split | dsimp only | with_reducible apply K.gen)
  all_goals simp_all

theorem K.countErrs {s0 s : State} (h : Keeps s0 s) (c : Nat) (slot : Nat) (es : List (F32 × Bool)) : Keeps s0 (State.countErrs s c slot es) := by
  unfold Sys2Proof.Machine.State.countErrs
  repeat' (first | with_reducible assumption | with_reducible exact fun h => ⟨h, rfl⟩ | intro _ | with_reducible exact Keeps.refl _ | with_reducible apply K.ite | with_reducible apply K.modCtx | split | dsimp only | with_reducible apply K.gen)
  all_goals simp_all

theorem K.countConv {s0 s : State} (h : Keeps s0 s) (c : Nat) (ly : Layer) (ys : List F32) (codes : List (Nat × Bool)) : Keeps s0 (State.countConv s c ly ys codes) := by
  unfold Sys2Proof.Machine.State.countConv
  repeat' (first | with_reducible assumption | with_reducible exact fun h => ⟨h, rfl⟩ | intro _ | with_reducible exact Keeps.refl _ | with_reducible apply K.ite | with_reducible apply K.countErrs | split | dsimp only | with_reducible apply K.gen)
  all_goals simp_all

theorem K.updRun {s0 s : State} (h : Keeps s0 s) (r : CmdRef) (f : RunWork → RunWork) : Keeps s0 (State.updRun s r f) := by
  unfold Sys2Proof.Machine.State.updRun
  repeat' (first | with_reducible assumption | with_reducible exact fun h => ⟨h, rfl⟩ | intro _ | with_reducible exact Keeps.refl _ | with_reducible apply K.ite | with_reducible apply K.updCmd | split | dsimp only | with_reducible apply K.gen)
  all_goals simp_all

theorem K.runMsg {s0 s : State} (h : Keeps s0 s) (c : Cmd) (kind : Nat) (dst : Nat) (step : Nat) (claim : Nat) (payload : List Byte) : Keeps s0 (State.runMsg s c kind dst step claim payload) := by
  unfold Sys2Proof.Machine.State.runMsg
  repeat' (first | with_reducible assumption | with_reducible exact fun h => ⟨h, rfl⟩ | intro _ | with_reducible exact Keeps.refl _ | with_reducible apply K.ite | with_reducible apply K.send | split | dsimp only | with_reducible apply K.gen)
  all_goals simp_all

theorem K.writeOut {s0 s : State} (h : Keeps s0 s) (c : Cmd) (b : OutBlock) : Keeps s0 (State.writeOut s c b) := by
  unfold Sys2Proof.Machine.State.writeOut
  repeat' (first | with_reducible assumption | with_reducible exact fun h => ⟨h, rfl⟩ | intro _ | with_reducible exact Keeps.refl _ | with_reducible apply K.ite | with_reducible apply K.writeHost | with_reducible apply K.writeWork | with_reducible apply K.updCmd | with_reducible apply K.hbmWait | with_reducible apply K.chargeHbm | with_reducible apply K.bump | with_reducible apply K.updRun | with_reducible apply K.runMsg | split | dsimp only | with_reducible apply K.gen)
  all_goals simp_all

theorem K.flushOut {s0 s : State} (h : Keeps s0 s) (r : CmdRef) : Keeps s0 (State.flushOut s r) := by
  unfold Sys2Proof.Machine.State.flushOut
  repeat' (first | with_reducible assumption | with_reducible exact fun h => ⟨h, rfl⟩ | intro _ | with_reducible exact Keeps.refl _ | with_reducible apply K.ite | with_reducible apply K.each | with_reducible apply K.updRun | with_reducible apply K.writeOut | split | dsimp only | with_reducible apply K.gen)
  all_goals simp_all

theorem K.headersPassed {s0 s : State} (h : Keeps s0 s) (r : CmdRef) (t : TileId) : Keeps s0 (State.headersPassed s r t) := by
  unfold Sys2Proof.Machine.State.headersPassed
  repeat' (first | with_reducible assumption | with_reducible exact fun h => ⟨h, rfl⟩ | intro _ | with_reducible exact Keeps.refl _ | with_reducible apply K.ite | with_reducible apply K.updRun | with_reducible apply K.flushOut | split | dsimp only | with_reducible apply K.gen)
  all_goals simp_all

theorem K.putOut {s0 s : State} (h : Keeps s0 s) (c : Cmd) (second : Bool) (b : OutBlock) : Keeps s0 (State.putOut s c second b) := by
  unfold Sys2Proof.Machine.State.putOut
  repeat' (first | with_reducible assumption | with_reducible exact fun h => ⟨h, rfl⟩ | intro _ | with_reducible exact Keeps.refl _ | with_reducible apply K.ite | with_reducible apply K.updRun | with_reducible apply K.writeOut | split | dsimp only | with_reducible apply K.gen)
  all_goals simp_all

theorem K.signalTrim {s0 s : State} (h : Keeps s0 s) (c : Cmd) (w : RunWork) : Keeps s0 (State.signalTrim s c w) := by
  unfold Sys2Proof.Machine.State.signalTrim
  repeat' (first | with_reducible assumption | with_reducible exact fun h => ⟨h, rfl⟩ | intro _ | with_reducible exact Keeps.refl _ | with_reducible apply K.ite | with_reducible apply K.bump | split | dsimp only | with_reducible apply K.gen)
  all_goals simp_all

theorem K.convert {s0 s : State} (h : Keeps s0 s) (c : Cmd) (w : RunWork) (y : Assign) (p : Part) : Keeps s0 (State.convert s c w y p) := by
  unfold Sys2Proof.Machine.State.convert
  repeat' (first | with_reducible assumption | with_reducible exact fun h => ⟨h, rfl⟩ | intro _ | with_reducible exact Keeps.refl _ | with_reducible apply K.ite | with_reducible apply K.countConv | with_reducible apply K.updRun | with_reducible apply K.putOut | with_reducible apply K.signalTrim | split | dsimp only | with_reducible apply K.gen)
  all_goals simp_all

theorem K.combOut {s0 s : State} (h : Keeps s0 s) (c : Cmd) (w : RunWork) (y : Assign) (p : Part) : Keeps s0 (State.combOut s c w y p) := by
  unfold Sys2Proof.Machine.State.combOut
  repeat' (first | with_reducible assumption | with_reducible exact fun h => ⟨h, rfl⟩ | intro _ | with_reducible exact Keeps.refl _ | with_reducible apply K.ite | with_reducible apply K.updRun | with_reducible apply K.convert | split | dsimp only | with_reducible apply K.gen)
  all_goals simp_all

theorem K.combDone {s0 s : State} (h : Keeps s0 s) (c : Cmd) (w : RunWork) (y : Assign) (e : CombEntry) : Keeps s0 (State.combDone s c w y e) := by
  unfold Sys2Proof.Machine.State.combDone
  repeat' (first | with_reducible assumption | with_reducible exact fun h => ⟨h, rfl⟩ | intro _ | with_reducible exact Keeps.refl _ | with_reducible apply K.ite | with_reducible apply K.modCrew | with_reducible apply K.combOut | split | dsimp only | with_reducible apply K.gen)
  all_goals simp_all

theorem K.combine {s0 s : State} (h : Keeps s0 s) (p : Part) : Keeps s0 (State.combine s p) := by
  unfold Sys2Proof.Machine.State.combine
  repeat' (first | with_reducible assumption | with_reducible exact fun h => ⟨h, rfl⟩ | intro _ | with_reducible exact Keeps.refl _ | with_reducible apply K.ite | with_reducible apply K.modCrew | with_reducible apply K.combOut | with_reducible apply K.combDone | split | dsimp only | with_reducible apply K.gen)
  all_goals simp_all

theorem K.crewPart {s0 s : State} (h : Keeps s0 s) (c : Cmd) (w : RunWork) (g : Generation) (dst : Nat) (p : Part) : Keeps s0 (State.crewPart s c w g dst p) := by
  unfold Sys2Proof.Machine.State.crewPart
  repeat' (first | with_reducible assumption | with_reducible exact fun h => ⟨h, rfl⟩ | intro _ | with_reducible exact Keeps.refl _ | with_reducible apply K.ite | with_reducible apply K.updRun | split | dsimp only | with_reducible apply K.gen)
  all_goals simp_all

theorem K.remotePart {s0 s : State} (h : Keeps s0 s) (c : Cmd) (w : RunWork) (g : Generation) (p : Part) : Keeps s0 (State.remotePart s c w g p) := by
  unfold Sys2Proof.Machine.State.remotePart
  repeat' (first | with_reducible assumption | with_reducible exact fun h => ⟨h, rfl⟩ | intro _ | with_reducible exact Keeps.refl _ | with_reducible apply K.ite | with_reducible apply K.each | with_reducible apply K.updRun | with_reducible apply K.runMsg | split | dsimp only | with_reducible apply K.gen)
  all_goals simp_all

theorem K.putPart {s0 s : State} (h : Keeps s0 s) (c : Cmd) (w : RunWork) (p : Part) : Keeps s0 (State.putPart s c w p) := by
  unfold Sys2Proof.Machine.State.putPart
  repeat' (first | with_reducible assumption | with_reducible exact fun h => ⟨h, rfl⟩ | intro _ | with_reducible exact Keeps.refl _ | with_reducible apply K.ite | with_reducible apply K.combine | with_reducible apply K.crewPart | with_reducible apply K.remotePart | split | dsimp only | with_reducible apply K.gen)
  all_goals simp_all

theorem K.execPartialArrival {s0 s : State} (h : Keeps s0 s) (r : CmdRef) (second : Bool) (vec : Nat) (split : Nat) (sl : Nat) (err : Option ParityErr) : KeepsO s0 (execPartialArrival r second vec split sl err s) := by
  unfold Sys2Proof.Machine.execPartialArrival
  repeat' (first | with_reducible exact KeepsO.fault _ _ | with_reducible apply KeepsO.next | with_reducible apply KeepsO.ite | with_reducible assumption | with_reducible exact fun h => ⟨h, rfl⟩ | intro _ | with_reducible exact Keeps.refl _ | with_reducible apply K.ite | with_reducible apply K.parityError | with_reducible apply K.settle | with_reducible apply K.combine | split | dsimp only | with_reducible apply K.gen)
  all_goals simp_all

end Sys2Proof.Machine
end

