-- ==== Sys2Proof/Laws/KeepsStrokes.lean ====
section
/-! SUPPORT. What the operations and rows of Machine/Strokes.lean keep. -/
set_option linter.unusedTactic false
set_option linter.unreachableTactic false
namespace Sys2Proof.Machine

theorem K.satcalEvent {s0 s : State} (h : Keeps s0 s) (c : Nat) : Keeps s0 (State.satcalEvent s c) := by
  unfold Sys2Proof.Machine.State.satcalEvent
  repeat' (first | with_reducible assumption | with_reducible exact fun h => ⟨h, rfl⟩ | intro _ | with_reducible exact Keeps.refl _ | with_reducible apply K.ite | with_reducible apply K.modQueue | with_reducible apply K.raiseCtx | split | dsimp only | with_reducible apply K.gen)
  all_goals simp_all

theorem K.saturation {s0 s : State} (h : Keeps s0 s) (a : Nat) (n : Nat) : Keeps s0 (State.saturation s a n) := by
  unfold Sys2Proof.Machine.State.saturation
  repeat' (first | with_reducible assumption | with_reducible exact fun h => ⟨h, rfl⟩ | intro _ | with_reducible exact Keeps.refl _ | with_reducible apply K.ite | with_reducible apply K.modArr | with_reducible apply K.emit | with_reducible apply K.satcalEvent | split | dsimp only | with_reducible apply K.gen)
  all_goals simp_all

theorem K.setJob {s0 s : State} (h : Keeps s0 s) (home : Nat) (j : Job) : Keeps s0 (State.setJob s home j) := by
  unfold Sys2Proof.Machine.State.setJob
  repeat' (first | with_reducible assumption | with_reducible exact fun h => ⟨h, rfl⟩ | intro _ | with_reducible exact Keeps.refl _ | with_reducible apply K.ite | with_reducible apply K.modArr | split | dsimp only | with_reducible apply K.gen)
  all_goals simp_all

theorem K.finishJob {s0 s : State} (h : Keeps s0 s) (home : Nat) (j : Job) : Keeps s0 (State.finishJob s home j) := by
  unfold Sys2Proof.Machine.State.finishJob
  repeat' (first | with_reducible assumption | with_reducible exact fun h => ⟨h, rfl⟩ | intro _ | with_reducible exact Keeps.refl _ | with_reducible apply K.ite | with_reducible apply K.modArr | with_reducible apply K.modCrew | with_reducible apply K.putPart | split | dsimp only | with_reducible apply K.gen)
  all_goals simp_all

theorem K.putJob {s0 s : State} (h : Keeps s0 s) (home : Nat) (j : Job) : Keeps s0 (State.putJob s home j) := by
  unfold Sys2Proof.Machine.State.putJob
  repeat' (first | with_reducible assumption | with_reducible exact fun h => ⟨h, rfl⟩ | intro _ | with_reducible exact Keeps.refl _ | with_reducible apply K.ite | with_reducible apply K.complete | with_reducible apply K.setJob | with_reducible apply K.finishJob | split | dsimp only | with_reducible apply K.gen)
  all_goals simp_all

theorem K.combReserve {s0 s : State} (h : Keeps s0 s) (j : Job) : Keeps s0 (State.combReserve s j) := by
  unfold Sys2Proof.Machine.State.combReserve
  repeat' (first | with_reducible assumption | with_reducible exact fun h => ⟨h, rfl⟩ | intro _ | with_reducible exact Keeps.refl _ | with_reducible apply K.ite | with_reducible apply K.modCrew | split | dsimp only | with_reducible apply K.gen)
  all_goals simp_all

theorem K.skipZero {s0 : State} {a : Nat} : ∀ (n : Nat) (s : State) {t : State} {o : Option (Job × Req × List Nat)},
    State.skipZero a n s = (t, o) → Keeps s0 s → Keeps s0 t
  | 0, s, t, o, e, h => by cases e; exact h
  | n + 1, s, t, o, e, h => by
    unfold State.skipZero at e
    split at e
    · cases e; exact h
    · split at e
      · cases e; exact h
      · dsimp only at e
        split at e
        · cases e; exact h
        · split at e
          · exact K.skipZero n _ e (K.putJob (K.combReserve h _) _ _)
          · cases e; exact h

theorem K.startShot {s0 s : State} (h : Keeps s0 s) (a : Nat) (home : Nat) (r : CmdRef) (vec : Nat) (split : Nat) (q : Req) (warm : Bool) (codes : List Nat) (chk : List F32) : Keeps s0 (State.startShot s a home r vec split q warm codes chk) := by
  unfold Sys2Proof.Machine.State.startShot
  repeat' (first | with_reducible assumption | with_reducible exact fun h => ⟨h, rfl⟩ | intro _ | with_reducible exact Keeps.refl _ | with_reducible apply K.ite | with_reducible apply K.modArr | with_reducible apply K.noteKEff | split | dsimp only | with_reducible apply K.gen)
  all_goals simp_all

theorem K.strokeNow {s0 s : State} (h : Keeps s0 s) (a : Nat) (j : Job) (q : Req) (xs : List Nat) : Keeps s0 (State.strokeNow s a j q xs) := by
  unfold Sys2Proof.Machine.State.strokeNow
  repeat' (first | with_reducible assumption | with_reducible exact fun h => ⟨h, rfl⟩ | intro _ | with_reducible exact Keeps.refl _ | with_reducible apply K.ite | with_reducible apply K.setJob | with_reducible apply K.combReserve | with_reducible apply K.startShot | split | dsimp only | with_reducible apply K.gen)
  all_goals simp_all

theorem K.execStroke {s0 s : State} (h : Keeps s0 s) (crew : Fin 256) (slot : Fin 17) : KeepsO s0 (execStroke crew slot s) := by
  unfold Sys2Proof.Machine.execStroke
  repeat' (first | with_reducible exact KeepsO.fault _ _ | with_reducible apply KeepsO.next | with_reducible apply KeepsO.ite | with_reducible assumption | with_reducible exact fun h => ⟨h, rfl⟩ | intro _ | with_reducible exact Keeps.refl _ | with_reducible apply K.ite | with_reducible apply K.settle | with_reducible refine K.skipZero _ _ (by with_reducible assumption) ?_ | with_reducible apply K.strokeNow | split | dsimp only | with_reducible apply K.gen)
  all_goals simp_all

theorem K.startReplay {s0 s : State} (h : Keeps s0 s) (a : Nat) (p : Replay) : Keeps s0 (State.startReplay s a p) := by
  unfold Sys2Proof.Machine.State.startReplay
  repeat' (first | with_reducible assumption | with_reducible exact fun h => ⟨h, rfl⟩ | intro _ | with_reducible exact Keeps.refl _ | with_reducible apply K.ite | with_reducible apply K.modArr | with_reducible apply K.putJob | with_reducible apply K.startShot | split | dsimp only | with_reducible apply K.gen)
  all_goals simp_all

theorem K.execFoldReplay {s0 s : State} (h : Keeps s0 s) (crew : Fin 256) (slot : Fin 17) : KeepsO s0 (execFoldReplay crew slot s) := by
  unfold Sys2Proof.Machine.execFoldReplay
  repeat' (first | with_reducible exact KeepsO.fault _ _ | with_reducible apply KeepsO.next | with_reducible apply KeepsO.ite | with_reducible assumption | with_reducible exact fun h => ⟨h, rfl⟩ | intro _ | with_reducible exact Keeps.refl _ | with_reducible apply K.ite | with_reducible apply K.settle | with_reducible apply K.startReplay | split | dsimp only | with_reducible apply K.gen)
  all_goals simp_all

theorem K.execCheckReplay {s0 s : State} (h : Keeps s0 s) (crew : Fin 256) (slot : Fin 17) : KeepsO s0 (execCheckReplay crew slot s) := by
  unfold Sys2Proof.Machine.execCheckReplay
  repeat' (first | with_reducible exact KeepsO.fault _ _ | with_reducible apply KeepsO.next | with_reducible apply KeepsO.ite | with_reducible assumption | with_reducible exact fun h => ⟨h, rfl⟩ | intro _ | with_reducible exact Keeps.refl _ | with_reducible apply K.ite | with_reducible apply K.modCrew | with_reducible apply K.startReplay | split | dsimp only | with_reducible apply K.gen)
  all_goals simp_all

theorem K.askFold {s0 s : State} (h : Keeps s0 s) (sh : Shot) (j : Job) : Keeps s0 (State.askFold s sh j) := by
  unfold Sys2Proof.Machine.State.askFold
  repeat' (first | with_reducible assumption | with_reducible exact fun h => ⟨h, rfl⟩ | intro _ | with_reducible exact Keeps.refl _ | with_reducible apply K.ite | with_reducible apply K.modArr | with_reducible apply K.updCmd | with_reducible apply K.updRun | with_reducible apply K.setJob | split | dsimp only | with_reducible apply K.gen)
  all_goals simp_all

theorem K.askCheck {s0 s : State} (h : Keeps s0 s) (sh : Shot) (j : Job) (chk : List F32) : Keeps s0 (State.askCheck s sh j chk) := by
  unfold Sys2Proof.Machine.State.askCheck
  repeat' (first | with_reducible assumption | with_reducible exact fun h => ⟨h, rfl⟩ | intro _ | with_reducible exact Keeps.refl _ | with_reducible apply K.ite | with_reducible apply K.modArr | with_reducible apply K.updCmd | with_reducible apply K.updRun | split | dsimp only | with_reducible apply K.gen)
  all_goals simp_all

theorem K.checkFailed {s0 s : State} (h : Keeps s0 s) (a : Nat) (sh : Shot) (chk : List F32) : Keeps s0 (State.checkFailed s a sh chk) := by
  unfold Sys2Proof.Machine.State.checkFailed
  repeat' (first | with_reducible assumption | with_reducible exact fun h => ⟨h, rfl⟩ | intro _ | with_reducible exact Keeps.refl _ | with_reducible apply K.ite | with_reducible apply K.modCrew | with_reducible apply K.emit | with_reducible apply K.failCmd | with_reducible apply K.urgentCensus | split | dsimp only | with_reducible apply K.gen)
  all_goals simp_all

theorem K.acceptStroke {s0 s : State} (h : Keeps s0 s) (a : Nat) (sh : Shot) (j : Job) (cols : List Int) (terms : List (Nat × Rat)) (sat : Bool) : Keeps s0 (State.acceptStroke s a sh j cols terms sat) := by
  unfold Sys2Proof.Machine.State.acceptStroke
  repeat' (first | with_reducible assumption | with_reducible exact fun h => ⟨h, rfl⟩ | intro _ | with_reducible exact Keeps.refl _ | with_reducible apply K.ite | with_reducible apply K.emit | with_reducible apply K.updCmd | with_reducible apply K.updRun | with_reducible apply K.putJob | split | dsimp only | with_reducible apply K.gen)
  all_goals simp_all

theorem K.strokeOutcome {s0 s : State} (h : Keeps s0 s) (a : Nat) (sh : Shot) (raw : List Nat) : Keeps s0 (State.strokeOutcome s a sh raw) := by
  unfold Sys2Proof.Machine.State.strokeOutcome
  repeat' (first | with_reducible assumption | with_reducible exact fun h => ⟨h, rfl⟩ | intro _ | with_reducible exact Keeps.refl _ | with_reducible apply K.ite | with_reducible apply K.askFold | with_reducible apply K.askCheck | with_reducible apply K.checkFailed | with_reducible apply K.acceptStroke | split | dsimp only | with_reducible apply K.gen)
  all_goals simp_all

theorem K.scanEnd {s0 s : State} (h : Keeps s0 s) (a : Nat) (sh : Shot) (dev : List Int) (dup : Option Nat) : Keeps s0 (State.scanEnd s a sh dev dup) := by
  unfold Sys2Proof.Machine.State.scanEnd
  repeat' (first | with_reducible assumption | with_reducible exact fun h => ⟨h, rfl⟩ | intro _ | with_reducible exact Keeps.refl _ | with_reducible apply K.ite | with_reducible apply K.modArr | with_reducible apply K.assemblyError | with_reducible apply K.saturation | with_reducible apply K.strokeOutcome | split | dsimp only | with_reducible apply K.gen)
  all_goals simp_all

theorem K.execStrokeScanEnd {s0 s : State} (h : Keeps s0 s) (crew : Fin 256) (slot : Fin 17) (dev : List Int) (dup : Option Nat) : KeepsO s0 (execStrokeScanEnd crew slot dev dup s) := by
  unfold Sys2Proof.Machine.execStrokeScanEnd
  repeat' (first | with_reducible exact KeepsO.fault _ _ | with_reducible apply KeepsO.next | with_reducible apply KeepsO.ite | with_reducible assumption | with_reducible exact fun h => ⟨h, rfl⟩ | intro _ | with_reducible exact Keeps.refl _ | with_reducible apply K.ite | with_reducible apply K.settle | with_reducible apply K.scanEnd | split | dsimp only | with_reducible apply K.gen)
  all_goals simp_all

theorem K.keepWarm {s0 s : State} (h : Keeps s0 s) (a : Nat) (w : List (Req × List Nat) × BitVec 16) : Keeps s0 (State.keepWarm s a w) := by
  unfold Sys2Proof.Machine.State.keepWarm
  repeat' (first | with_reducible assumption | with_reducible exact fun h => ⟨h, rfl⟩ | intro _ | with_reducible exact Keeps.refl _ | with_reducible apply K.ite | with_reducible apply K.modArr | with_reducible apply K.startShot | split | dsimp only | with_reducible apply K.gen)
  all_goals simp_all

theorem K.execKeepWarmStroke {s0 s : State} (h : Keeps s0 s) (crew : Fin 256) (slot : Fin 17) : KeepsO s0 (execKeepWarmStroke crew slot s) := by
  unfold Sys2Proof.Machine.execKeepWarmStroke
  repeat' (first | with_reducible exact KeepsO.fault _ _ | with_reducible apply KeepsO.next | with_reducible apply KeepsO.ite | with_reducible assumption | with_reducible exact fun h => ⟨h, rfl⟩ | intro _ | with_reducible exact Keeps.refl _ | with_reducible apply K.ite | with_reducible apply K.keepWarm | split | dsimp only | with_reducible apply K.gen)
  all_goals simp_all

theorem K.execSineTestStroke {s0 s : State} (h : Keeps s0 s) (crew : Fin 256) (dev : List Int) : KeepsO s0 (execSineTestStroke crew dev s) := by
  unfold Sys2Proof.Machine.execSineTestStroke
  repeat' (first | with_reducible exact KeepsO.fault _ _ | with_reducible apply KeepsO.next | with_reducible apply KeepsO.ite | with_reducible assumption | with_reducible exact fun h => ⟨h, rfl⟩ | intro _ | with_reducible exact Keeps.refl _ | with_reducible apply K.ite | with_reducible apply K.modCrew | split | dsimp only | with_reducible apply K.gen)
  all_goals simp_all

end Sys2Proof.Machine
end

