-- ==== Sys2Proof/Laws/KeepsEngines.lean ====
section
/-! SUPPORT. What the operations and rows of Machine/Engines.lean keep. -/
set_option linter.unusedTactic false
set_option linter.unreachableTactic false
namespace Sys2Proof.Machine

theorem K.feedVe {s0 : State} : ∀ (n : Nat) (r : CmdRef) (s : State), Keeps s0 s → Keeps s0 (State.feedVe n r s)
  | 0, _, _, h => h
  | n + 1, r, s, h => by
    unfold State.feedVe
    dsimp only
    refine K.ite (fun _ => h) fun _ => K.feedVe n r _ (K.updRun ?_ _ _)
    exact K.gen (K.each h _ _ fun t e k => K.modVe k _ _) fun h => ⟨h, rfl⟩

theorem K.feedAll {s0 : State} : ∀ (l : List CmdRef) (s : State), Keeps s0 s → Keeps s0 (State.feedAll l s)
  | [], _, h => h
  | r :: t, s, h => by
    unfold State.feedAll
    dsimp only
    exact K.ite (fun _ => K.feedAll t _ (K.feedVe 128 r s h)) fun _ => K.feedVe 128 r s h

theorem K.feed {s0 s : State} (h : Keeps s0 s) : Keeps s0 s.feed := K.feedAll _ s h

theorem K.convertWaiting {s0 s : State} (h : Keeps s0 s) (r : CmdRef) (g : Generation) (p : Part) : Keeps s0 (State.convertWaiting s r g p) := by
  unfold Sys2Proof.Machine.State.convertWaiting
  repeat' (first | with_reducible assumption | with_reducible exact fun h => ⟨h, rfl⟩ | intro _ | with_reducible exact Keeps.refl _ | with_reducible apply K.ite | with_reducible apply K.convert | split | dsimp only | with_reducible apply K.gen)
  all_goals simp_all

theorem K.putDelta {s0 s : State} (h : Keeps s0 s) (r : CmdRef) (v : Nat) (part : Nat) : Keeps s0 (State.putDelta s r v part) := by
  unfold Sys2Proof.Machine.State.putDelta
  repeat' (first | with_reducible assumption | with_reducible exact fun h => ⟨h, rfl⟩ | intro _ | with_reducible exact Keeps.refl _ | with_reducible apply K.ite | with_reducible apply K.each | with_reducible apply K.updRun | with_reducible apply K.convertWaiting | split | dsimp only | with_reducible apply K.gen)
  all_goals simp_all

theorem K.layerStats {s0 s : State} (h : Keeps s0 s) (c : Cmd) (w : RunWork) (g : Generation) : Keeps s0 (State.layerStats s c w g) := by
  unfold Sys2Proof.Machine.State.layerStats
  repeat' (first | with_reducible assumption | with_reducible exact fun h => ⟨h, rfl⟩ | intro _ | with_reducible exact Keeps.refl _ | with_reducible apply K.ite | with_reducible apply K.countErrs | split | dsimp only | with_reducible apply K.gen)
  all_goals simp_all

theorem K.putOutput {s0 s : State} (h : Keeps s0 s) (v : Nat) (d : Desc) (c : Cmd) (w : RunWork) (g : Generation) : Keeps s0 (State.putOutput s v d c w g) := by
  unfold Sys2Proof.Machine.State.putOutput
  repeat' (first | with_reducible assumption | with_reducible exact fun h => ⟨h, rfl⟩ | intro _ | with_reducible exact Keeps.refl _ | with_reducible apply K.ite | with_reducible apply K.modVe | with_reducible apply K.writeHost | with_reducible apply K.writeWork | with_reducible apply K.out | with_reducible apply K.updCmd | with_reducible apply K.chargeHbm | with_reducible apply K.updRun | with_reducible apply K.runMsg | with_reducible apply K.layerStats | split | dsimp only | with_reducible apply K.gen)
  all_goals simp_all

theorem K.putLayer {s0 s : State} (h : Keeps s0 s) (v : Nat) (d : Desc) (part : Nat) : Keeps s0 (State.putLayer s v d part) := by
  unfold Sys2Proof.Machine.State.putLayer
  repeat' (first | with_reducible assumption | with_reducible exact fun h => ⟨h, rfl⟩ | intro _ | with_reducible exact Keeps.refl _ | with_reducible apply K.ite | with_reducible apply K.updRun | with_reducible apply K.putOutput | split | dsimp only | with_reducible apply K.gen)
  all_goals simp_all

theorem K.noteTile {s0 s : State} (h : Keeps s0 s) (c : Nat) (gen : Nat) (t : VeTile) (e : ParityErr) : Keeps s0 (State.noteTile s c gen t e) := by
  unfold Sys2Proof.Machine.State.noteTile
  repeat' (first | with_reducible assumption | with_reducible exact fun h => ⟨h, rfl⟩ | intro _ | with_reducible exact Keeps.refl _ | with_reducible apply K.ite | with_reducible apply K.noteWork | with_reducible apply K.noteBiv | split | dsimp only | with_reducible apply K.gen)
  all_goals simp_all

theorem K.fillTiles {s0 s : State} (h : Keeps s0 s) (v : Nat) (i : Nat) (d : Desc) (w : RunWork) (own : VeTile) (inp : VeTile) : Keeps s0 (State.fillTiles s v i d w own inp) := by
  unfold Sys2Proof.Machine.State.fillTiles
  repeat' (first | with_reducible assumption | with_reducible exact fun h => ⟨h, rfl⟩ | intro _ | with_reducible exact Keeps.refl _ | with_reducible apply K.ite | with_reducible apply K.each | with_reducible apply K.modVe | split | dsimp only | with_reducible apply K.gen)
  all_goals simp_all

theorem K.execVeFetchStart {s0 s : State} (h : Keeps s0 s) (x0 : Checked (Fin 32)) : KeepsO s0 (execVeFetchStart x0 s) := by
  obtain ⟨r, err⟩ := x0
  rw [Sys2Proof.Machine.execVeFetchStart]
  repeat' (first | with_reducible exact KeepsO.fault _ _ | with_reducible apply KeepsO.next | with_reducible apply KeepsO.ite | with_reducible assumption | with_reducible exact fun h => ⟨h, rfl⟩ | intro _ | with_reducible exact Keeps.refl _ | with_reducible apply K.ite | with_reducible apply K.drawHbm | with_reducible refine KP.drawHbm (by with_reducible assumption) ?_ | with_reducible apply K.parityError | with_reducible apply K.settle | with_reducible apply K.noteTile | with_reducible apply K.fillTiles | split | dsimp only | with_reducible apply K.gen)
  all_goals simp_all

theorem K.execVeDescriptorExecute {s0 s : State} (h : Keeps s0 s) (v : Fin 32) (err : Option ParityErr) : KeepsO s0 (execVeDescriptorExecute v err s) := by
  unfold Sys2Proof.Machine.execVeDescriptorExecute
  repeat' (first | with_reducible exact KeepsO.fault _ _ | with_reducible apply KeepsO.next | with_reducible apply KeepsO.ite | with_reducible assumption | with_reducible exact fun h => ⟨h, rfl⟩ | intro _ | with_reducible exact Keeps.refl _ | with_reducible apply K.ite | with_reducible apply K.modVe | with_reducible apply K.parityError | with_reducible apply K.settle | split | dsimp only | with_reducible apply K.gen)
  all_goals simp_all

theorem K.putPartOf {s0 s : State} (h : Keeps s0 s) (v : Nat) (d : Desc) : Keeps s0 (State.putPartOf s v d) := by
  unfold Sys2Proof.Machine.State.putPartOf
  repeat' (first | with_reducible assumption | with_reducible exact fun h => ⟨h, rfl⟩ | intro _ | with_reducible exact Keeps.refl _ | with_reducible apply K.ite | with_reducible apply K.updRun | with_reducible apply K.putDelta | with_reducible apply K.putLayer | split | dsimp only | with_reducible apply K.gen)
  all_goals simp_all

theorem K.execVeDescriptorComplete {s0 s : State} (h : Keeps s0 s) (v : Fin 32) : KeepsO s0 (execVeDescriptorComplete v s) := by
  unfold Sys2Proof.Machine.execVeDescriptorComplete
  repeat' (first | with_reducible exact KeepsO.fault _ _ | with_reducible apply KeepsO.next | with_reducible apply KeepsO.ite | with_reducible assumption | with_reducible exact fun h => ⟨h, rfl⟩ | intro _ | with_reducible exact Keeps.refl _ | with_reducible apply K.ite | with_reducible apply K.modVe | with_reducible apply K.hbmWait | with_reducible apply K.settle | with_reducible apply K.retire | with_reducible apply K.bump | with_reducible apply K.feed | with_reducible apply K.putPartOf | split | dsimp only | with_reducible apply K.gen)
  all_goals simp_all

theorem K.execAeHbmWriteComplete {s0 s : State} (h : Keeps s0 s) (x0 : Checked (Fin 32)) : KeepsO s0 (execAeHbmWriteComplete x0 s) := by
  obtain ⟨r, err⟩ := x0
  rw [Sys2Proof.Machine.execAeHbmWriteComplete]
  repeat' (first | with_reducible exact KeepsO.fault _ _ | with_reducible apply KeepsO.next | with_reducible apply KeepsO.ite | with_reducible assumption | with_reducible exact fun h => ⟨h, rfl⟩ | intro _ | with_reducible exact Keeps.refl _ | with_reducible apply K.ite | with_reducible apply K.modVe | with_reducible apply K.parityError | with_reducible apply K.settle | with_reducible apply K.bump | split | dsimp only | with_reducible apply K.gen)
  all_goals simp_all

end Sys2Proof.Machine
end

