-- ==== Sys2Proof/Laws/KeepsDataflow.lean ====
section
/-! SUPPORT. What the operations and rows of Machine/Dataflow.lean keep. -/
set_option linter.unusedTactic false
set_option linter.unreachableTactic false
namespace Sys2Proof.Machine

theorem K.benchCheck {s0 s : State} (h : Keeps s0 s) (r : CmdRef) : Keeps s0 (State.benchCheck s r) := by
  unfold Sys2Proof.Machine.State.benchCheck
  repeat' (first | with_reducible assumption | with_reducible exact fun h => ⟨h, rfl⟩ | intro _ | with_reducible exact Keeps.refl _ | with_reducible apply K.ite | with_reducible apply K.failCmd | split | dsimp only | with_reducible apply K.gen)
  all_goals simp_all

theorem K.runEmpty {s0 s : State} (h : Keeps s0 s) (q : QueueId) (p : Packet) (gen : Nat) (ds : List Nat) : Keeps s0 (State.runEmpty s q p gen ds) := by
  unfold Sys2Proof.Machine.State.runEmpty
  repeat' (first | with_reducible assumption | with_reducible exact fun h => ⟨h, rfl⟩ | intro _ | with_reducible exact Keeps.refl _ | with_reducible apply K.ite | with_reducible apply K.replyGen | with_reducible apply K.complete | with_reducible apply K.launchTo | with_reducible apply K.settle | split | dsimp only | with_reducible apply K.gen)
  all_goals simp_all

theorem K.effRun {s0 s : State} (h : Keeps s0 s) (adopt : Option Nat) (q : QueueId) (p : Packet) : Keeps s0 (effRun adopt q p s) := by
  unfold Sys2Proof.Machine.effRun
  repeat' (first | with_reducible assumption | with_reducible exact fun h => ⟨h, rfl⟩ | intro _ | with_reducible exact Keeps.refl _ | with_reducible apply K.ite | with_reducible apply K.modCtx | with_reducible apply K.replyGen | with_reducible apply K.launchTo | with_reducible apply K.settle | with_reducible apply K.benchCheck | with_reducible apply K.runEmpty | split | dsimp only | with_reducible apply K.gen)
  all_goals simp_all

theorem K.execRun {s0 s : State} (h : Keeps s0 s) (q : QueueId) : KeepsO s0 (execRun q s) := by
  unfold Sys2Proof.Machine.execRun
  repeat' (first | with_reducible exact KeepsO.fault _ _ | with_reducible apply KeepsO.next | with_reducible apply KeepsO.ite | with_reducible assumption | with_reducible exact fun h => ⟨h, rfl⟩ | intro _ | with_reducible exact Keeps.refl _ | with_reducible apply K.ite | with_reducible apply K.packetRow | with_reducible apply K.effRun | split | dsimp only | with_reducible apply K.gen)
  all_goals simp_all

theorem K.sendInputs {s0 s : State} (h : Keeps s0 s) (c : Cmd) (w : RunWork) : Keeps s0 (State.sendInputs s c w) := by
  unfold Sys2Proof.Machine.State.sendInputs
  repeat' (first | with_reducible assumption | with_reducible exact fun h => ⟨h, rfl⟩ | intro _ | with_reducible exact Keeps.refl _ | with_reducible apply K.ite | with_reducible apply K.each | with_reducible apply K.send | with_reducible apply K.chargeHbm | with_reducible apply K.parityError | with_reducible apply K.runMsg | split | dsimp only | with_reducible apply K.gen)
  all_goals simp_all

theorem K.dispatchArray {s0 s t : State} {c : Cmd} {w : RunWork} {g : Generation} (e : s.dispatchArray c w g = some t)
    (h : Keeps s0 s) : Keeps s0 t := by
  suffices k : KeepsP s0 (s.dispatchArray c w g) from k t e
  unfold State.dispatchArray
  dsimp only
  refine KeepsP.ite (fun _ => KeepsP.some (K.feed (K.sendInputs (K.updRun (K.clearCounter h _) _ _) _ _))) fun _ => ?_
  split
  · split
    · exact KeepsP.none _
    · exact KeepsP.ite (fun _ => KeepsP.none _) fun _ =>
        KeepsP.some (K.feed (K.sendInputs (K.updRun (K.modCrew (K.clearCounter h _) _ _) _ _) _ _))
  · exact KeepsP.some (K.sendInputs (K.updRun (K.clearCounter h _) _ _) _ _)

theorem K.dispatchBivouac {s0 s t : State} {c : Cmd} {w : RunWork} {g : Generation} (e : s.dispatchBivouac c w g = some t)
    (h : Keeps s0 s) : Keeps s0 t := by
  suffices k : KeepsP s0 (s.dispatchBivouac c w g) from k t e
  unfold State.dispatchBivouac
  dsimp only
  refine KeepsP.ite (fun _ => KeepsP.some (K.sendInputs (K.updRun h _ _) _ _)) fun _ =>
    KeepsP.ite (fun _ => KeepsP.some (K.failCmd h _ _)) fun _ => ?_
  split
  · exact KeepsP.none _
  · refine KeepsP.ite (fun _ => KeepsP.none _) fun _ => KeepsP.some (K.feed (K.sendInputs (K.updRun ?_ _ _) _ _))
    exact K.gen (K.clearCounter h _) fun h => ⟨h, rfl⟩

theorem K.execRunDispatch {s0 s : State} (h : Keeps s0 s) (r : CmdRef) : KeepsO s0 (execRunDispatch r s) := by
  unfold Sys2Proof.Machine.execRunDispatch
  split
  · exact h
  · split
    · next w g _ _ =>
      refine KeepsO.ite (fun _ => h) fun _ => KeepsO.ite (fun _ => KeepsO.next (K.hbmWait h _)) fun _ => KeepsO.next ?_
      cases e : (if w.layer.isArray then s.dispatchArray _ w g else s.dispatchBivouac _ w g) with
      | none => exact h
      | some t =>
        split at e
        · exact K.dispatchArray e h
        · exact K.dispatchBivouac e h
    · exact h

theorem K.dropT3 {s0 s : State} (h : Keeps s0 s) (r : CmdRef) (next : Nat) : Keeps s0 (State.dropT3 s r next) := by
  unfold Sys2Proof.Machine.State.dropT3
  repeat' (first | with_reducible assumption | with_reducible exact fun h => ⟨h, rfl⟩ | intro _ | with_reducible exact Keeps.refl _ | with_reducible apply K.ite | with_reducible apply K.updRun | split | dsimp only | with_reducible apply K.gen)
  all_goals simp_all

theorem K.staleTile {s0 s : State} (h : Keeps s0 s) (c : Cmd) (y : Assign) : Keeps s0 (State.staleTile s c y) := by
  unfold Sys2Proof.Machine.State.staleTile
  repeat' (first | with_reducible assumption | with_reducible exact fun h => ⟨h, rfl⟩ | intro _ | with_reducible exact Keeps.refl _ | with_reducible apply K.ite | with_reducible apply K.emit | with_reducible apply K.failCmd | split | dsimp only | with_reducible apply K.gen)
  all_goals simp_all

theorem K.unboundTile {s0 s : State} (h : Keeps s0 s) (c : Cmd) (y : Assign) : Keeps s0 (State.unboundTile s c y) := by
  unfold Sys2Proof.Machine.State.unboundTile
  repeat' (first | with_reducible assumption | with_reducible exact fun h => ⟨h, rfl⟩ | intro _ | with_reducible exact Keeps.refl _ | with_reducible apply K.ite | with_reducible apply K.emit | with_reducible apply K.failCmd | split | dsimp only | with_reducible apply K.gen)
  all_goals simp_all

theorem K.placeVector {s0 s : State} (h : Keeps s0 s) (c : Cmd) (w : RunWork) (g : Generation) (t : TileId) (ys : List Assign) (v : Nat) : Keeps s0 (State.placeVector s c w g t ys v) := by
  unfold Sys2Proof.Machine.State.placeVector
  repeat' (first | with_reducible assumption | with_reducible exact fun h => ⟨h, rfl⟩ | intro _ | with_reducible exact Keeps.refl _ | with_reducible apply K.ite | with_reducible apply K.each | with_reducible apply K.modArr | with_reducible apply K.modCrew | split | dsimp only | with_reducible apply K.gen)
  all_goals simp_all

theorem K.takeTile {s0 s : State} (h : Keeps s0 s) (c : Cmd) (w : RunWork) (g : Generation) (t : TileId) : Keeps s0 (State.takeTile s c w g t) := by
  unfold Sys2Proof.Machine.State.takeTile
  repeat' (first | with_reducible assumption | with_reducible exact fun h => ⟨h, rfl⟩ | intro _ | with_reducible exact Keeps.refl _ | with_reducible apply K.ite | with_reducible apply K.each | with_reducible apply K.failCmd | with_reducible apply K.headersPassed | with_reducible apply K.staleTile | with_reducible apply K.unboundTile | with_reducible apply K.placeVector | split | dsimp only | with_reducible apply K.gen)
  all_goals simp_all

theorem K.deliverTile {s0 s : State} (h : Keeps s0 s) (c : Cmd) (w : RunWork) (g : Generation) (t : TileId) : Keeps s0 (State.deliverTile s c w g t) := by
  unfold Sys2Proof.Machine.State.deliverTile
  repeat' (first | with_reducible assumption | with_reducible exact fun h => ⟨h, rfl⟩ | intro _ | with_reducible exact Keeps.refl _ | with_reducible apply K.ite | with_reducible apply K.updRun | with_reducible apply K.dropT3 | with_reducible apply K.takeTile | split | dsimp only | with_reducible apply K.gen)
  all_goals simp_all

theorem K.execTileArrival {s0 s : State} (h : Keeps s0 s) (r : CmdRef) (crew : Fin 256) (err : Option ParityErr) :
    KeepsO s0 (execTileArrival r crew err s) := by
  unfold Sys2Proof.Machine.execTileArrival
  split
  · exact h
  · next c _ =>
    split
    · split
      · exact h
      · next t _ =>
        refine KeepsO.ite (fun _ => h) fun _ => ?_
        dsimp only
        have d := K.drawHbm h (c.pkt.cls == 2)
        refine KeepsO.ite (fun _ => d _) fun _ => ?_
        split
        · exact K.settle (K.parityError (d _) r _)
        · exact K.settle (K.parityError (K.noteReads (d _) _ _ _) r _)
        · exact K.settle (K.deliverTile (d _) _ _ _ _)
    · exact h

theorem K.addClaim {s0 s : State} (h : Keeps s0 s) (home : Nat) (k : Nat) : Keeps s0 (State.addClaim s home k) := by
  unfold Sys2Proof.Machine.State.addClaim
  repeat' (first | with_reducible assumption | with_reducible exact fun h => ⟨h, rfl⟩ | intro _ | with_reducible exact Keeps.refl _ | with_reducible apply K.ite | with_reducible apply K.modCrew | split | dsimp only | with_reducible apply K.gen)
  all_goals simp_all

theorem K.execClaimFetchAdd {s0 s : State} (h : Keeps s0 s) (r : CmdRef) (rep : Fin 16) : KeepsO s0 (execClaimFetchAdd r rep s) := by
  unfold Sys2Proof.Machine.execClaimFetchAdd
  repeat' (first | with_reducible exact KeepsO.fault _ _ | with_reducible apply KeepsO.next | with_reducible apply KeepsO.ite | with_reducible assumption | with_reducible exact fun h => ⟨h, rfl⟩ | intro _ | with_reducible exact Keeps.refl _ | with_reducible apply K.ite | with_reducible apply K.settle | with_reducible apply K.updRun | with_reducible apply K.addClaim | split | dsimp only | with_reducible apply K.gen)
  all_goals simp_all

theorem K.acceptClaim {s0 s : State} (h : Keeps s0 s) (c : Cmd) (w : RunWork) (home : Nat) (page : Nat) (rep : Nat) (k : Nat) : Keeps s0 (State.acceptClaim s c w home page rep k) := by
  unfold Sys2Proof.Machine.State.acceptClaim
  repeat' (first | with_reducible assumption | with_reducible exact fun h => ⟨h, rfl⟩ | intro _ | with_reducible exact Keeps.refl _ | with_reducible apply K.ite | with_reducible apply K.each | with_reducible apply K.modCrew | with_reducible apply K.updRun | with_reducible apply K.writeOut | split | dsimp only | with_reducible apply K.gen)
  all_goals simp_all

theorem K.dupClaim {s0 s : State} (h : Keeps s0 s) (c : Cmd) (home : Nat) (rep : Nat) (k : Nat) (first : Nat) : Keeps s0 (State.dupClaim s c home rep k first) := by
  unfold Sys2Proof.Machine.State.dupClaim
  repeat' (first | with_reducible assumption | with_reducible exact fun h => ⟨h, rfl⟩ | intro _ | with_reducible exact Keeps.refl _ | with_reducible apply K.ite | with_reducible apply K.modCrew | with_reducible apply K.emit | with_reducible apply K.updRun | split | dsimp only | with_reducible apply K.gen)
  all_goals simp_all

theorem K.execClaimResultsArrival {s0 s : State} (h : Keeps s0 s) (x0 : Checked CmdRef) (x1 : Dword) : KeepsO s0 (execClaimResultsArrival x0 x1 s) := by
  obtain ⟨r, err⟩ := x0
  rw [Sys2Proof.Machine.execClaimResultsArrival]
  repeat' (first | with_reducible exact KeepsO.fault _ _ | with_reducible apply KeepsO.next | with_reducible apply KeepsO.ite | with_reducible assumption | with_reducible exact fun h => ⟨h, rfl⟩ | intro _ | with_reducible exact Keeps.refl _ | with_reducible apply K.ite | with_reducible apply K.parityError | with_reducible apply K.settle | with_reducible apply K.acceptClaim | with_reducible apply K.dupClaim | split | dsimp only | with_reducible apply K.gen)
  all_goals simp_all

theorem K.execClaimRecovery {s0 s : State} (h : Keeps s0 s) (r : CmdRef) : KeepsO s0 (execClaimRecovery r s) := by
  unfold Sys2Proof.Machine.execClaimRecovery
  repeat' (first | with_reducible exact KeepsO.fault _ _ | with_reducible apply KeepsO.next | with_reducible apply KeepsO.ite | with_reducible assumption | with_reducible exact fun h => ⟨h, rfl⟩ | intro _ | with_reducible exact Keeps.refl _ | with_reducible apply K.ite | with_reducible apply K.each | with_reducible apply K.modCrew | with_reducible apply K.emit | with_reducible apply K.updRun | split | dsimp only | with_reducible apply K.gen)
  all_goals simp_all

theorem K.execClaimWatchdogExpiry {s0 s : State} (h : Keeps s0 s) (r : CmdRef) (rep : Fin 16) : KeepsO s0 (execClaimWatchdogExpiry r rep s) := by
  unfold Sys2Proof.Machine.execClaimWatchdogExpiry
  repeat' (first | with_reducible exact KeepsO.fault _ _ | with_reducible apply KeepsO.next | with_reducible apply KeepsO.ite | with_reducible assumption | with_reducible exact fun h => ⟨h, rfl⟩ | intro _ | with_reducible exact Keeps.refl _ | with_reducible apply K.ite | with_reducible apply K.each | with_reducible apply K.bench | with_reducible apply K.settle | split | dsimp only | with_reducible apply K.gen)
  all_goals simp_all

theorem K.execSequencerStallTimeout {s0 s : State} (h : Keeps s0 s) (crew : Fin 256) : KeepsO s0 (execSequencerStallTimeout crew s) := by
  unfold Sys2Proof.Machine.execSequencerStallTimeout
  repeat' (first | with_reducible exact KeepsO.fault _ _ | with_reducible apply KeepsO.next | with_reducible apply KeepsO.ite | with_reducible assumption | with_reducible exact fun h => ⟨h, rfl⟩ | intro _ | with_reducible exact Keeps.refl _ | with_reducible apply K.ite | with_reducible apply K.bench | with_reducible apply K.settle | split | dsimp only | with_reducible apply K.gen)
  all_goals simp_all

theorem K.unwait {s0 s : State} (h : Keeps s0 s) (k : Option Nat) : Keeps s0 (State.unwait s k) := by
  unfold Sys2Proof.Machine.State.unwait
  repeat' (first | with_reducible assumption | with_reducible exact fun h => ⟨h, rfl⟩ | intro _ | with_reducible exact Keeps.refl _ | with_reducible apply K.ite | with_reducible apply K.each | with_reducible apply K.modVe | split | dsimp only | with_reducible apply K.gen)
  all_goals simp_all

theorem K.endRun {s0 s : State} (h : Keeps s0 s) (c : Cmd) (w : RunWork) : Keeps s0 (State.endRun s c w) := by
  unfold Sys2Proof.Machine.State.endRun
  repeat' (first | with_reducible assumption | with_reducible exact fun h => ⟨h, rfl⟩ | intro _ | with_reducible exact Keeps.refl _ | with_reducible apply K.ite | with_reducible apply K.purge | with_reducible apply K.freeSlot | with_reducible apply K.spoil | with_reducible apply K.complete | with_reducible apply K.settle | with_reducible apply K.feed | with_reducible apply K.unwait | split | dsimp only | with_reducible apply K.gen)
  all_goals simp_all

theorem K.lateError {s0 s : State} (h : Keeps s0 s) (r : CmdRef) (err : Option ParityErr) : Keeps s0 (s.lateError r err) := by
  cases err with
  | none => exact h
  | some e => exact K.parityError h r e

theorem K.execRunComplete {s0 s : State} (h : Keeps s0 s) (x0 : Checked CmdRef) : KeepsO s0 (execRunComplete x0 s) := by
  obtain ⟨r, err⟩ := x0
  rw [Sys2Proof.Machine.execRunComplete]
  repeat' (first | with_reducible exact KeepsO.fault _ _ | with_reducible apply KeepsO.next | with_reducible apply KeepsO.ite | with_reducible assumption | with_reducible exact fun h => ⟨h, rfl⟩ | intro _ | with_reducible exact Keeps.refl _ | with_reducible apply K.ite | with_reducible apply K.endRun | with_reducible apply K.lateError | split | dsimp only | with_reducible apply K.gen)
  all_goals simp_all

end Sys2Proof.Machine
end

