-- ==== Sys2Proof/Laws/KeepsBow.lean ====
section
/-! SUPPORT. What the operations and rows of Machine/Bow.lean keep. -/
set_option linter.unusedTactic false
set_option linter.unreachableTactic false
namespace Sys2Proof.Machine

theorem K.effRunBow {s0 s : State} (h : Keeps s0 s) (q : QueueId) (p : Packet) : Keeps s0 (effRunBow q p s) := by
  unfold Sys2Proof.Machine.effRunBow
  repeat' (first | with_reducible assumption | with_reducible exact fun h => ⟨h, rfl⟩ | intro _ | with_reducible exact Keeps.refl _ | with_reducible apply K.ite | with_reducible apply K.reply | with_reducible apply K.enrol | with_reducible apply K.settle | with_reducible apply K.benchCheck | split | dsimp only | with_reducible apply K.gen)
  all_goals simp_all

theorem K.execRunBow {s0 s : State} (h : Keeps s0 s) (q : QueueId) : KeepsO s0 (execRunBow q s) := by
  unfold Sys2Proof.Machine.execRunBow
  repeat' (first | with_reducible exact KeepsO.fault _ _ | with_reducible apply KeepsO.next | with_reducible apply KeepsO.ite | with_reducible assumption | with_reducible exact fun h => ⟨h, rfl⟩ | intro _ | with_reducible exact Keeps.refl _ | with_reducible apply K.ite | with_reducible apply K.packetRow | with_reducible apply K.effRunBow | split | dsimp only | with_reducible apply K.gen)
  all_goals simp_all

theorem K.disagree {s0 s : State} (h : Keeps s0 s) (c : Cmd) (w : RunWork) (g : Generation) (o : OutBlock) (e : Nat × FV × FV) : Keeps s0 (State.disagree s c w g o e) := by
  unfold Sys2Proof.Machine.State.disagree
  repeat' (first | with_reducible assumption | with_reducible exact fun h => ⟨h, rfl⟩ | intro _ | with_reducible exact Keeps.refl _ | with_reducible apply K.ite | with_reducible apply K.each | with_reducible apply K.emit | with_reducible apply K.failCmd | with_reducible apply K.urgentCensus | split | dsimp only | with_reducible apply K.gen)
  all_goals simp_all

theorem K.compareTwins {s0 s : State} (h : Keeps s0 s) (c : Cmd) (w : RunWork) (g : Generation) (o : OutBlock) : Keeps s0 (State.compareTwins s c w g o) := by
  unfold Sys2Proof.Machine.State.compareTwins
  repeat' (first | with_reducible assumption | with_reducible exact fun h => ⟨h, rfl⟩ | intro _ | with_reducible exact Keeps.refl _ | with_reducible apply K.ite | with_reducible apply K.updRun | with_reducible apply K.disagree | split | dsimp only | with_reducible apply K.gen)
  all_goals simp_all

theorem K.execTwinBlockArrival {s0 s : State} (h : Keeps s0 s) (x0 : Checked CmdRef) (x1 : Bool) : KeepsO s0 (execTwinBlockArrival x0 x1 s) := by
  obtain ⟨r, err⟩ := x0
  rw [Sys2Proof.Machine.execTwinBlockArrival]
  repeat' (first | with_reducible exact KeepsO.fault _ _ | with_reducible apply KeepsO.next | with_reducible apply KeepsO.ite | with_reducible assumption | with_reducible exact fun h => ⟨h, rfl⟩ | intro _ | with_reducible exact Keeps.refl _ | with_reducible apply K.ite | with_reducible apply K.settle | with_reducible apply K.updRun | with_reducible apply K.lateError | with_reducible apply K.compareTwins | split | dsimp only | with_reducible apply K.gen)
  all_goals simp_all

theorem K.releaseBlocks {s0 s : State} (h : Keeps s0 s) (c : Cmd) (w : RunWork) : Keeps s0 (State.releaseBlocks s c w) := by
  unfold Sys2Proof.Machine.State.releaseBlocks
  repeat' (first | with_reducible assumption | with_reducible exact fun h => ⟨h, rfl⟩ | intro _ | with_reducible exact Keeps.refl _ | with_reducible apply K.ite | with_reducible apply K.each | with_reducible apply K.writeHost | with_reducible apply K.updCmd | split | dsimp only | with_reducible apply K.gen)
  all_goals simp_all

theorem K.execRunBowComplete {s0 s : State} (h : Keeps s0 s) (x0 : Checked CmdRef) : KeepsO s0 (execRunBowComplete x0 s) := by
  obtain ⟨r, err⟩ := x0
  rw [Sys2Proof.Machine.execRunBowComplete]
  repeat' (first | with_reducible exact KeepsO.fault _ _ | with_reducible apply KeepsO.next | with_reducible apply KeepsO.ite | with_reducible assumption | with_reducible exact fun h => ⟨h, rfl⟩ | intro _ | with_reducible exact Keeps.refl _ | with_reducible apply K.ite | with_reducible apply K.endRun | with_reducible apply K.lateError | with_reducible apply K.releaseBlocks | split | dsimp only | with_reducible apply K.gen)
  all_goals simp_all

theorem K.exchange {s0 s : State} (h : Keeps s0 s) (crew : Nat) (l : Nat) (m : Nat) : Keeps s0 (State.exchange s crew l m) := by
  unfold Sys2Proof.Machine.State.exchange
  repeat' (first | with_reducible assumption | with_reducible exact fun h => ⟨h, rfl⟩ | intro _ | with_reducible exact Keeps.refl _ | with_reducible apply K.ite | with_reducible apply K.modArr | with_reducible apply K.modCrew | split | dsimp only | with_reducible apply K.gen)
  all_goals simp_all

theorem K.execTwinRoleExchange {s0 s : State} (h : Keeps s0 s) (crew : Fin 256) (l : Fin 16) : KeepsO s0 (execTwinRoleExchange crew l s) := by
  unfold Sys2Proof.Machine.execTwinRoleExchange
  repeat' (first | with_reducible exact KeepsO.fault _ _ | with_reducible apply KeepsO.next | with_reducible apply KeepsO.ite | with_reducible assumption | with_reducible exact fun h => ⟨h, rfl⟩ | intro _ | with_reducible exact Keeps.refl _ | with_reducible apply K.ite | with_reducible apply K.exchange | split | dsimp only | with_reducible apply K.gen)
  all_goals simp_all

theorem K.execTwinAbsentTimeout {s0 s : State} (h : Keeps s0 s) (r : CmdRef) : KeepsO s0 (execTwinAbsentTimeout r s) := by
  unfold Sys2Proof.Machine.execTwinAbsentTimeout
  repeat' (first | with_reducible exact KeepsO.fault _ _ | with_reducible apply KeepsO.next | with_reducible apply KeepsO.ite | with_reducible assumption | with_reducible exact fun h => ⟨h, rfl⟩ | intro _ | with_reducible exact Keeps.refl _ | with_reducible apply K.ite | with_reducible apply K.each | with_reducible apply K.bench | with_reducible apply K.settle | split | dsimp only | with_reducible apply K.gen)
  all_goals simp_all

end Sys2Proof.Machine
end

