-- ==== Sys2Proof/Laws/KeepsRetrim.lean ====
section
/-! SUPPORT. What the operations and rows of Machine/Retrim.lean keep. -/
set_option linter.unusedTactic false
set_option linter.unreachableTactic false
namespace Sys2Proof.Machine

theorem K.startStep {s0 s : State} (h : Keeps s0 s) (c : Cmd) (w : RunWork) (g : Generation) (t : TrimWork) : Keeps s0 (State.startStep s c w g t) := by
  unfold Sys2Proof.Machine.State.startStep
  repeat' (first | with_reducible assumption | with_reducible exact fun h => ⟨h, rfl⟩ | intro _ | with_reducible exact Keeps.refl _ | with_reducible apply K.ite | with_reducible apply K.setCounter | with_reducible apply K.updCmd | with_reducible apply K.chargeHbm | with_reducible apply K.parityError | with_reducible apply K.feed | split | dsimp only | with_reducible apply K.gen)
  all_goals simp_all

theorem K.seedVes {s0 s : State} (h : Keeps s0 s) (seed : Nat) : Keeps s0 (State.seedVes s seed) := by
  unfold Sys2Proof.Machine.State.seedVes
  repeat' (first | with_reducible assumption | with_reducible exact fun h => ⟨h, rfl⟩ | intro _ | with_reducible exact Keeps.refl _ | with_reducible apply K.ite | with_reducible apply K.each | with_reducible apply K.modVe | split | dsimp only | with_reducible apply K.gen)
  all_goals simp_all

theorem K.startTrim {s0 s : State} (h : Keeps s0 s) (c : Nat) : Keeps s0 (State.startTrim s c) := by
  unfold Sys2Proof.Machine.State.startTrim
  repeat' (first | with_reducible assumption | with_reducible exact fun h => ⟨h, rfl⟩ | intro _ | with_reducible exact Keeps.refl _ | with_reducible apply K.ite | with_reducible apply K.done | with_reducible apply K.hbmWait | with_reducible apply K.startStep | with_reducible apply K.seedVes | split | dsimp only | with_reducible apply K.gen)
  all_goals simp_all

theorem K.updateBlock {s0 s : State} (h : Keeps s0 s) (c : Nat) (lo : Nat) (h : List Byte) (ly : Layer) (lr : F32) (sr : Bool) (b : Nat) (gs : List F32) : Keeps s0 (State.updateBlock s c lo h ly lr sr b gs) := by
  unfold Sys2Proof.Machine.State.updateBlock
  repeat' (first | with_reducible assumption | with_reducible exact fun h => ⟨h, rfl⟩ | intro _ | with_reducible exact Keeps.refl _ | with_reducible apply K.ite | with_reducible apply K.modVe | with_reducible apply K.writeWork | split | dsimp only | with_reducible apply K.gen)
  all_goals simp_all

theorem K.updateBlocks {s0 : State} {c lo : Nat} {h : List Byte} {ly : Layer} {lr : F32} {sr : Bool} :
    ∀ (n b : Nat) (gs : List F32) (s : State), Keeps s0 s → Keeps s0 (State.updateBlocks c lo h ly lr sr n b gs s)
  | 0, _, _, _, k => k
  | n + 1, b, gs, s, k => by
    unfold State.updateBlocks
    exact K.ite (fun _ => k) fun _ => K.updateBlocks n (b + 1) _ _ (K.updateBlock k _ _ _ _ _ _ _ _)

theorem K.trimUpdate {s0 s : State} (h : Keeps s0 s) (c : Cmd) (w : RunWork) (g : Generation) (t : TrimWork) :
    Keeps s0 (s.trimUpdate c w g t) := by
  unfold State.trimUpdate
  dsimp only
  split
  · exact h
  · exact K.ite (fun _ => h) fun _ => K.writeWork (K.chargeHbm (K.updateBlocks _ _ _ _ (K.chargeHbm h _ _)) _ _) _ _ _

theorem K.forwardTo {s0 s : State} (h : Keeps s0 s) (q : QueueId) (p : Packet) (blocks : Bool) (gen : Nat) (d : Nat) : Keeps s0 (State.forwardTo s q p blocks gen d) := by
  unfold Sys2Proof.Machine.State.forwardTo
  repeat' (first | with_reducible assumption | with_reducible exact fun h => ⟨h, rfl⟩ | intro _ | with_reducible exact Keeps.refl _ | with_reducible apply K.ite | with_reducible apply K.complete | with_reducible apply K.enrol | with_reducible apply K.sendCmds | split | dsimp only | with_reducible apply K.gen)
  all_goals simp_all

theorem K.effRetrimStep {s0 s : State} (h : Keeps s0 s) (q : QueueId) (p : Packet) : Keeps s0 (effRetrimStep q p s) := by
  unfold Sys2Proof.Machine.effRetrimStep
  repeat' (first | with_reducible assumption | with_reducible exact fun h => ⟨h, rfl⟩ | intro _ | with_reducible exact Keeps.refl _ | with_reducible apply K.ite | with_reducible apply K.reply | with_reducible apply K.enrol | with_reducible apply K.benchCheck | with_reducible apply K.startTrim | with_reducible apply K.forwardTo | split | dsimp only | with_reducible apply K.gen)
  all_goals simp_all

theorem K.execRetrimStep {s0 s : State} (h : Keeps s0 s) (q : QueueId) : KeepsO s0 (execRetrimStep q s) := by
  unfold Sys2Proof.Machine.execRetrimStep
  repeat' (first | with_reducible exact KeepsO.fault _ _ | with_reducible apply KeepsO.next | with_reducible apply KeepsO.ite | with_reducible assumption | with_reducible exact fun h => ⟨h, rfl⟩ | intro _ | with_reducible exact Keeps.refl _ | with_reducible apply K.ite | with_reducible apply K.packetRow | with_reducible apply K.effRetrimStep | split | dsimp only | with_reducible apply K.gen)
  all_goals simp_all

theorem K.endTrim {s0 s : State} (h : Keeps s0 s) (c : Cmd) (t : TrimWork) (done : Nat) : Keeps s0 (State.endTrim s c t done) := by
  unfold Sys2Proof.Machine.State.endTrim
  repeat' (first | with_reducible assumption | with_reducible exact fun h => ⟨h, rfl⟩ | intro _ | with_reducible exact Keeps.refl _ | with_reducible apply K.ite | with_reducible apply K.updCmd | with_reducible apply K.purge | with_reducible apply K.complete | with_reducible apply K.done | with_reducible apply K.finishParts | with_reducible apply K.startTrim | split | dsimp only | with_reducible apply K.gen)
  all_goals simp_all

theorem K.execRetrimTrainingStep {s0 s : State} (h : Keeps s0 s) (x0 : Checked CmdRef) : KeepsO s0 (execRetrimTrainingStep x0 s) := by
  obtain ⟨r, err⟩ := x0
  rw [Sys2Proof.Machine.execRetrimTrainingStep]
  repeat' (first | with_reducible exact KeepsO.fault _ _ | with_reducible apply KeepsO.next | with_reducible apply KeepsO.ite | with_reducible assumption | with_reducible exact fun h => ⟨h, rfl⟩ | intro _ | with_reducible exact Keeps.refl _ | with_reducible apply K.ite | with_reducible apply K.done | with_reducible apply K.noteReads | with_reducible apply K.hbmWait | with_reducible apply K.parityError | with_reducible apply K.settle | with_reducible apply K.updRun | with_reducible apply K.startTrim | with_reducible apply K.trimUpdate | with_reducible apply K.endTrim | split | dsimp only | with_reducible apply K.gen)
  all_goals simp_all

theorem K.resetMoments {s0 s : State} (h : Keeps s0 s) (c : Nat) (base : Nat) (p : Nat) (idx : Nat) : Keeps s0 (State.resetMoments s c base p idx) := by
  unfold Sys2Proof.Machine.State.resetMoments
  repeat' (first | with_reducible assumption | with_reducible exact fun h => ⟨h, rfl⟩ | intro _ | with_reducible exact Keeps.refl _ | with_reducible apply K.ite | with_reducible apply K.each | with_reducible apply K.writeWork | split | dsimp only | with_reducible apply K.gen)
  all_goals simp_all

theorem K.trimAction {s0 s : State} (h : Keeps s0 s) (c : Nat) (lo : Nat) (h : List Byte) (ly : Layer) (discard : Bool) : Keeps s0 (State.trimAction s c lo h ly discard) := by
  unfold Sys2Proof.Machine.State.trimAction
  repeat' (first | with_reducible assumption | with_reducible exact fun h => ⟨h, rfl⟩ | intro _ | with_reducible exact Keeps.refl _ | with_reducible apply K.ite | with_reducible apply K.writeWork | with_reducible apply K.discard | with_reducible apply K.resetMoments | split | dsimp only | with_reducible apply K.gen)
  all_goals simp_all

theorem K.effRetrimApply {s0 s : State} (h : Keeps s0 s) (q : QueueId) (p : Packet) : Keeps s0 (effRetrimApply q p s) := by
  unfold Sys2Proof.Machine.effRetrimApply
  repeat' (first | with_reducible assumption | with_reducible exact fun h => ⟨h, rfl⟩ | intro _ | with_reducible exact Keeps.refl _ | with_reducible apply K.ite | with_reducible apply K.reply | with_reducible apply K.done | with_reducible apply K.chargeHbm | with_reducible apply K.packetParity | with_reducible apply K.forwardTo | with_reducible apply K.trimAction | split | dsimp only | with_reducible apply K.gen)
  all_goals simp_all

theorem K.execRetrimApply {s0 s : State} (h : Keeps s0 s) (q : QueueId) : KeepsO s0 (execRetrimApply q s) := by
  unfold Sys2Proof.Machine.execRetrimApply
  repeat' (first | with_reducible exact KeepsO.fault _ _ | with_reducible apply KeepsO.next | with_reducible apply KeepsO.ite | with_reducible assumption | with_reducible exact fun h => ⟨h, rfl⟩ | intro _ | with_reducible exact Keeps.refl _ | with_reducible apply K.ite | with_reducible apply K.packetRow | with_reducible apply K.effRetrimApply | split | dsimp only | with_reducible apply K.gen)
  all_goals simp_all

end Sys2Proof.Machine
end

