-- ==== Sys2Proof/Laws/KeepsLinks.lean ====
section
/-! SUPPORT. What the operations and rows of Machine/Links.lean keep. -/
set_option linter.unusedTactic false
set_option linter.unreachableTactic false
namespace Sys2Proof.Machine

theorem K.relay {s0 s : State} (h : Keeps s0 s) (p : Nat) (f : Flit) : Keeps s0 (State.relay s p f) := by
  unfold Sys2Proof.Machine.State.relay
  repeat' (first | with_reducible assumption | with_reducible exact fun h => ⟨h, rfl⟩ | intro _ | with_reducible exact Keeps.refl _ | with_reducible apply K.ite | with_reducible apply K.modPort | with_reducible apply K.out | split | dsimp only | with_reducible apply K.gen)
  all_goals simp_all

theorem K.receive {s0 : State} {p : Nat} : ∀ (fs : List Flit) (s : State) {t : State} {l : List Flit},
    State.receive p fs s = (t, l) → Keeps s0 s → Keeps s0 t
  | [], s, t, l, e, h => by cases e; exact h
  | f :: fs, s, t, l, e, h => by
    unfold State.receive at e
    dsimp only at e
    split at e
    · exact K.receive fs _ e (K.modPort h _ _)
    · split at e
      · exact K.receive fs _ e (K.relay (K.modPort h _ _) _ _)
      · cases e
        exact K.receive fs _ rfl (K.modPort h _ _)

theorem K.through {s0 s : State} (h : Keeps s0 s) (p : Nat) (fs : List Flit) : Keeps s0 (State.through s p fs) := by
  unfold Sys2Proof.Machine.State.through
  repeat' (first | with_reducible assumption | with_reducible exact fun h => ⟨h, rfl⟩ | intro _ | with_reducible exact Keeps.refl _ | with_reducible apply K.ite | with_reducible apply K.out | split | dsimp only | with_reducible apply K.gen)
  all_goals simp_all

theorem K.receiveMsg {s0 s : State} (h : Keeps s0 s) (p k : Nat) (fs : List Flit) : Keeps s0 (s.receiveMsg p k fs).1 := by
  unfold State.receiveMsg
  split
  · exact K.through h _ _
  · split
    · exact h
    · dsimp only
      repeat' split
      all_goals exact K.receive (t := (State.receive p fs s).1) fs s rfl h

theorem K.execLinkIdleFlit {s0 s : State} (h : Keeps s0 s) (p : Fin 4) (f : Flit) : KeepsO s0 (execLinkIdleFlit p f s) := by
  unfold Sys2Proof.Machine.execLinkIdleFlit
  repeat' (first | with_reducible exact KeepsO.fault _ _ | with_reducible apply KeepsO.next | with_reducible apply KeepsO.ite | with_reducible assumption | with_reducible exact fun h => ⟨h, rfl⟩ | intro _ | with_reducible exact Keeps.refl _ | with_reducible apply K.ite | with_reducible apply K.modPort | with_reducible apply K.through | split | dsimp only | with_reducible apply K.gen)
  all_goals simp_all

theorem K.ack {s0 s : State} (h : Keeps s0 s) (m : Msg) : Keeps s0 (State.ack s m) := by
  unfold Sys2Proof.Machine.State.ack
  repeat' (first | with_reducible assumption | with_reducible exact fun h => ⟨h, rfl⟩ | intro _ | with_reducible exact Keeps.refl _ | with_reducible apply K.ite | with_reducible apply K.send | split | dsimp only | with_reducible apply K.gen)
  all_goals simp_all

theorem K.resend {s0 s : State} (h : Keeps s0 s) (m : Msg) : Keeps s0 (State.resend s m) := by
  unfold Sys2Proof.Machine.State.resend
  repeat' (first | with_reducible assumption | with_reducible exact fun h => ⟨h, rfl⟩ | intro _ | with_reducible exact Keeps.refl _ | with_reducible apply K.ite | with_reducible apply K.modPort | with_reducible apply K.send | split | dsimp only | with_reducible apply K.gen)
  all_goals simp_all

theorem K.forget {s0 s : State} (h : Keeps s0 s) (m : Msg) : Keeps s0 (State.forget s m) := by
  unfold Sys2Proof.Machine.State.forget
  repeat' (first | with_reducible assumption | with_reducible exact fun h => ⟨h, rfl⟩ | intro _ | with_reducible exact Keeps.refl _ | with_reducible apply K.ite | split | dsimp only | with_reducible apply K.gen)
  all_goals simp_all

theorem K.expect {s0 s : State} (h : Keeps s0 s) (m : Msg) (failed : Bool) (torn : Bool) : Keeps s0 (State.expect s m failed torn) := by
  unfold Sys2Proof.Machine.State.expect
  repeat' (first | with_reducible assumption | with_reducible exact fun h => ⟨h, rfl⟩ | intro _ | with_reducible exact Keeps.refl _ | with_reducible apply K.ite | with_reducible apply K.forget | split | dsimp only | with_reducible apply K.gen)
  all_goals simp_all

theorem K.tear {s0 s : State} (h : Keeps s0 s) (m : Msg) : Keeps s0 (State.tear s m) := by
  unfold Sys2Proof.Machine.State.tear
  repeat' (first | with_reducible assumption | with_reducible exact fun h => ⟨h, rfl⟩ | intro _ | with_reducible exact Keeps.refl _ | with_reducible apply K.ite | with_reducible apply K.expect | split | dsimp only | with_reducible apply K.gen)
  all_goals simp_all

theorem K.failSig {s0 s : State} (h : Keeps s0 s) (id : Nat) (c : Nat) (tag : BitVec 16) (sender : Nat) (step : Nat) (why : Nat) (st : Option Status) : Keeps s0 (State.failSig s id c tag sender step why st) := by
  unfold Sys2Proof.Machine.State.failSig
  repeat' (first | with_reducible assumption | with_reducible exact fun h => ⟨h, rfl⟩ | intro _ | with_reducible exact Keeps.refl _ | with_reducible apply K.ite | with_reducible apply K.emit | split | dsimp only | with_reducible apply K.gen)
  all_goals simp_all

theorem K.ctrlOn {s0 s : State} (h : Keeps s0 s) (p : Nat) (kind : Nat) (bs : List Byte) : Keeps s0 (State.ctrlOn s p kind bs) := by
  unfold Sys2Proof.Machine.State.ctrlOn
  repeat' (first | with_reducible assumption | with_reducible exact fun h => ⟨h, rfl⟩ | intro _ | with_reducible exact Keeps.refl _ | with_reducible apply K.ite | with_reducible apply K.out | split | dsimp only | with_reducible apply K.gen)
  all_goals simp_all

theorem K.degrade {s0 s : State} (h : Keeps s0 s) (p : Nat) : Keeps s0 (State.degrade s p) := by
  unfold Sys2Proof.Machine.State.degrade
  repeat' (first | with_reducible assumption | with_reducible exact fun h => ⟨h, rfl⟩ | intro _ | with_reducible exact Keeps.refl _ | with_reducible apply K.ite | with_reducible apply K.fall | with_reducible apply K.ctrlOn | split | dsimp only | with_reducible apply K.gen)
  all_goals simp_all

theorem K.sendHeld {s0 s : State} (h : Keeps s0 s) (p : Nat) : Keeps s0 (State.sendHeld s p) := by
  unfold Sys2Proof.Machine.State.sendHeld
  repeat' (first | with_reducible assumption | with_reducible exact fun h => ⟨h, rfl⟩ | intro _ | with_reducible exact Keeps.refl _ | with_reducible apply K.ite | with_reducible apply K.each | with_reducible apply K.out | split | dsimp only | with_reducible apply K.gen)
  all_goals simp_all

theorem K.discover {s0 s : State} (h : Keeps s0 s) (pair : Nat) : Keeps s0 (State.discover s pair) := by
  unfold Sys2Proof.Machine.State.discover
  repeat' (first | with_reducible assumption | with_reducible exact fun h => ⟨h, rfl⟩ | intro _ | with_reducible exact Keeps.refl _ | with_reducible apply K.ite | with_reducible apply K.ctrlOn | split | dsimp only | with_reducible apply K.gen)
  all_goals simp_all

theorem K.execPortTrainingComplete {s0 s : State} (h : Keeps s0 s) (p : Fin 4) (peer : Nat) (sysId : Qword) : KeepsO s0 (execPortTrainingComplete p peer sysId s) := by
  unfold Sys2Proof.Machine.execPortTrainingComplete
  repeat' (first | with_reducible exact KeepsO.fault _ _ | with_reducible apply KeepsO.next | with_reducible apply KeepsO.ite | with_reducible assumption | with_reducible exact fun h => ⟨h, rfl⟩ | intro _ | with_reducible exact Keeps.refl _ | with_reducible apply K.ite | with_reducible apply K.modPort | with_reducible apply K.degrade | with_reducible apply K.sendHeld | with_reducible apply K.discover | split | dsimp only | with_reducible apply K.gen)
  all_goals simp_all

theorem K.execPortTrainingRetry {s0 s : State} (h : Keeps s0 s) (p : Fin 4) : KeepsO s0 (execPortTrainingRetry p s) := by
  unfold Sys2Proof.Machine.execPortTrainingRetry
  repeat' (first | with_reducible exact KeepsO.fault _ _ | with_reducible apply KeepsO.next | with_reducible apply KeepsO.ite | with_reducible assumption | with_reducible exact fun h => ⟨h, rfl⟩ | intro _ | with_reducible exact Keeps.refl _ | with_reducible apply K.ite | with_reducible apply K.modPort | split | dsimp only | with_reducible apply K.gen)
  all_goals simp_all

theorem K.execPortLinkLoss {s0 s : State} (h : Keeps s0 s) (p : Fin 4) : KeepsO s0 (execPortLinkLoss p s) := by
  unfold Sys2Proof.Machine.execPortLinkLoss
  repeat' (first | with_reducible exact KeepsO.fault _ _ | with_reducible apply KeepsO.next | with_reducible apply KeepsO.ite | with_reducible assumption | with_reducible exact fun h => ⟨h, rfl⟩ | intro _ | with_reducible exact Keeps.refl _ | with_reducible apply K.ite | with_reducible apply K.modPort | with_reducible apply K.degrade | split | dsimp only | with_reducible apply K.gen)
  all_goals simp_all

theorem K.receiveOne {s0 s : State} (h : Keeps s0 s) (p k : Nat) (f : Flit) : Keeps s0 (s.receiveOne p k f).1 := by
  unfold State.receiveOne
  split
  · exact K.through h _ _
  · split
    · exact h
    · exact K.receive [f] s rfl h

theorem KP.receiveOne {s0 s t : State} {p k : Nat} {f : Flit} {o : Bool} (e : s.receiveOne p k f = (t, o)) (h : Keeps s0 s) :
    Keeps s0 t := by
  have x := K.receiveOne h p k f
  rw [e] at x
  exact x

theorem K.execLinkAck {s0 s : State} (h : Keeps s0 s) (p : Fin 4) (f : Flit) : KeepsO s0 (execLinkAck p f s) := by
  unfold Sys2Proof.Machine.execLinkAck
  repeat' (first | with_reducible exact KeepsO.fault _ _ | with_reducible apply KeepsO.next | with_reducible apply KeepsO.ite | with_reducible assumption | with_reducible exact fun h => ⟨h, rfl⟩ | intro _ | with_reducible exact Keeps.refl _ | with_reducible apply K.ite | with_reducible apply K.receiveOne | with_reducible refine KP.receiveOne (by with_reducible assumption) ?_ | split | dsimp only | with_reducible apply K.gen)
  all_goals simp_all

theorem K.execLinkResend {s0 s : State} (h : Keeps s0 s) (p : Fin 4) (f : Flit) : KeepsO s0 (execLinkResend p f s) := by
  unfold Sys2Proof.Machine.execLinkResend
  repeat' (first | with_reducible exact KeepsO.fault _ _ | with_reducible apply KeepsO.next | with_reducible apply KeepsO.ite | with_reducible assumption | with_reducible exact fun h => ⟨h, rfl⟩ | intro _ | with_reducible exact Keeps.refl _ | with_reducible apply K.ite | with_reducible apply K.out | with_reducible apply K.receiveOne | with_reducible refine KP.receiveOne (by with_reducible assumption) ?_ | split | dsimp only | with_reducible apply K.gen)
  all_goals simp_all

end Sys2Proof.Machine
end

