-- ==== Sys2Proof/Laws/KeepsGroups.lean ====
section
/-! SUPPORT. What the operations and rows of Machine/Groups.lean keep. -/
set_option linter.unusedTactic false
set_option linter.unreachableTactic false
namespace Sys2Proof.Machine

theorem K.loadGroup {s0 s : State} (h : Keeps s0 s) (bs : List Byte) : Keeps s0 (State.loadGroup s bs) := by
  unfold Sys2Proof.Machine.State.loadGroup
  repeat' (first | with_reducible assumption | with_reducible exact fun h => ⟨h, rfl⟩ | intro _ | with_reducible exact Keeps.refl _ | with_reducible apply K.ite | with_reducible apply K.each | with_reducible apply K.modPort | split | dsimp only | with_reducible apply K.gen)
  all_goals simp_all

theorem K.leaveGroup {s0 s : State} (h : Keeps s0 s) : Keeps s0 (State.leaveGroup s) := by
  unfold Sys2Proof.Machine.State.leaveGroup
  repeat' (first | with_reducible assumption | with_reducible exact fun h => ⟨h, rfl⟩ | intro _ | with_reducible exact Keeps.refl _ | with_reducible apply K.ite | with_reducible apply K.closeBypasses | split | dsimp only | with_reducible apply K.gen)
  all_goals simp_all

theorem K.effGroupConfig {s0 s : State} (h : Keeps s0 s) (q : QueueId) (p : Packet) : Keeps s0 (effGroupConfig q p s) := by
  unfold Sys2Proof.Machine.effGroupConfig
  repeat' (first | with_reducible assumption | with_reducible exact fun h => ⟨h, rfl⟩ | intro _ | with_reducible exact Keeps.refl _ | with_reducible apply K.ite | with_reducible apply K.reply | with_reducible apply K.done | with_reducible apply K.loadGroup | with_reducible apply K.leaveGroup | split | dsimp only | with_reducible apply K.gen)
  all_goals simp_all

theorem K.execGroupConfig {s0 s : State} (h : Keeps s0 s) (q : QueueId) : KeepsO s0 (execGroupConfig q s) := by
  unfold Sys2Proof.Machine.execGroupConfig
  repeat' (first | with_reducible exact KeepsO.fault _ _ | with_reducible apply KeepsO.next | with_reducible apply KeepsO.ite | with_reducible assumption | with_reducible exact fun h => ⟨h, rfl⟩ | intro _ | with_reducible exact Keeps.refl _ | with_reducible apply K.ite | with_reducible apply K.packetRow | with_reducible apply K.effGroupConfig | split | dsimp only | with_reducible apply K.gen)
  all_goals simp_all

theorem K.endReport {s0 s : State} (h : Keeps s0 s) (r : CmdRef) : Keeps s0 (State.endReport s r) := by
  unfold Sys2Proof.Machine.State.endReport
  repeat' (first | with_reducible assumption | with_reducible exact fun h => ⟨h, rfl⟩ | intro _ | with_reducible exact Keeps.refl _ | with_reducible apply K.ite | with_reducible apply K.writeHost | with_reducible apply K.complete | split | dsimp only | with_reducible apply K.gen)
  all_goals simp_all

theorem K.effGroupStatus {s0 s : State} (h : Keeps s0 s) (q : QueueId) (p : Packet) : Keeps s0 (effGroupStatus q p s) := by
  unfold Sys2Proof.Machine.effGroupStatus
  repeat' (first | with_reducible assumption | with_reducible exact fun h => ⟨h, rfl⟩ | intro _ | with_reducible exact Keeps.refl _ | with_reducible apply K.ite | with_reducible apply K.each | with_reducible apply K.send | with_reducible apply K.reply | with_reducible apply K.enrol | with_reducible apply K.endReport | split | dsimp only | with_reducible apply K.gen)
  all_goals simp_all

theorem K.execGroupStatus {s0 s : State} (h : Keeps s0 s) (q : QueueId) : KeepsO s0 (execGroupStatus q s) := by
  unfold Sys2Proof.Machine.execGroupStatus
  repeat' (first | with_reducible exact KeepsO.fault _ _ | with_reducible apply KeepsO.next | with_reducible apply KeepsO.ite | with_reducible assumption | with_reducible exact fun h => ⟨h, rfl⟩ | intro _ | with_reducible exact Keeps.refl _ | with_reducible apply K.ite | with_reducible apply K.packetRow | with_reducible apply K.effGroupStatus | split | dsimp only | with_reducible apply K.gen)
  all_goals simp_all

theorem K.takeRecord {s0 s : State} (h : Keeps s0 s) (r : CmdRef) (a : Nat) (rec' : List Byte) : Keeps s0 (State.takeRecord s r a rec') := by
  unfold Sys2Proof.Machine.State.takeRecord
  repeat' (first | with_reducible assumption | with_reducible exact fun h => ⟨h, rfl⟩ | intro _ | with_reducible exact Keeps.refl _ | with_reducible apply K.ite | with_reducible apply K.updCmd | with_reducible apply K.endReport | split | dsimp only | with_reducible apply K.gen)
  all_goals simp_all

theorem K.execGroupStatusAnswerTimeout {s0 s : State} (h : Keeps s0 s) (r : CmdRef) (addr : Nat) : KeepsO s0 (execGroupStatusAnswerTimeout r addr s) := by
  unfold Sys2Proof.Machine.execGroupStatusAnswerTimeout
  repeat' (first | with_reducible exact KeepsO.fault _ _ | with_reducible apply KeepsO.next | with_reducible apply KeepsO.ite | with_reducible assumption | with_reducible exact fun h => ⟨h, rfl⟩ | intro _ | with_reducible exact Keeps.refl _ | with_reducible apply K.ite | with_reducible apply K.takeRecord | split | dsimp only | with_reducible apply K.gen)
  all_goals simp_all

theorem K.endReports {s0 s : State} (h : Keeps s0 s) (m : Msg) (st : Status) : Keeps s0 (State.endReports s m st) := by
  unfold Sys2Proof.Machine.State.endReports
  repeat' (first | with_reducible assumption | with_reducible exact fun h => ⟨h, rfl⟩ | intro _ | with_reducible exact Keeps.refl _ | with_reducible apply K.ite | with_reducible apply K.each | with_reducible apply K.complete | with_reducible apply K.takeRecord | split | dsimp only | with_reducible apply K.gen)
  all_goals simp_all

theorem K.endServed {s0 s : State} (h : Keeps s0 s) (m : Msg) (st : Status) : Keeps s0 (State.endServed s m st) := by
  unfold Sys2Proof.Machine.State.endServed
  repeat' (first | with_reducible assumption | with_reducible exact fun h => ⟨h, rfl⟩ | intro _ | with_reducible exact Keeps.refl _ | with_reducible apply K.ite | with_reducible apply K.updCmd | with_reducible apply K.failCmd | with_reducible apply K.finishParts | with_reducible apply K.endReports | split | dsimp only | with_reducible apply K.gen)
  all_goals simp_all

theorem K.msgFailed {s0 s : State} (h : Keeps s0 s) (m : Msg) (why : Nat) : Keeps s0 (State.msgFailed s m why) := by
  unfold Sys2Proof.Machine.State.msgFailed
  repeat' (first | with_reducible assumption | with_reducible exact fun h => ⟨h, rfl⟩ | intro _ | with_reducible exact Keeps.refl _ | with_reducible apply K.ite | with_reducible apply K.resend | with_reducible apply K.forget | with_reducible apply K.expect | with_reducible apply K.failSig | with_reducible apply K.endServed | split | dsimp only | with_reducible apply K.gen)
  all_goals simp_all

theorem K.noteReplay {s0 s : State} (h : Keeps s0 s) (m : Msg) : Keeps s0 (State.noteReplay s m) := by
  unfold Sys2Proof.Machine.State.noteReplay
  repeat' (first | with_reducible assumption | with_reducible exact fun h => ⟨h, rfl⟩ | intro _ | with_reducible exact Keeps.refl _ | with_reducible apply K.ite | with_reducible apply K.updCmd | split | dsimp only | with_reducible apply K.gen)
  all_goals simp_all

theorem K.takeMsg {s0 s : State} (h : Keeps s0 s) (m : Msg) (f : State → State) (hf : ∀ t, Keeps s0 t → Keeps s0 (f t)) :
    Keeps s0 (s.takeMsg m f) := by
  unfold State.takeMsg
  exact K.ite (fun _ => hf _ (K.ack (K.forget (K.noteReplay h _) _) _)) fun _ => K.msgFailed h m 0

theorem K.takeGot {s0 s : State} (h : Keeps s0 s) (g : Got) (f : Msg → State → State)
    (hf : ∀ m t, Keeps s0 t → Keeps s0 (f m t)) : Keeps s0 (s.takeGot g f) := by
  unfold State.takeGot
  split
  · exact h
  · exact K.takeMsg h _ _ (hf _)
  · exact K.tear h _

theorem K.execMessageTimeout {s0 s : State} (h : Keeps s0 s) (c : Fin 16) (tag : BitVec 16) (src : Nat) (step : Nat) : KeepsO s0 (execMessageTimeout c tag src step s) := by
  unfold Sys2Proof.Machine.execMessageTimeout
  repeat' (first | with_reducible exact KeepsO.fault _ _ | with_reducible apply KeepsO.next | with_reducible apply KeepsO.ite | with_reducible assumption | with_reducible exact fun h => ⟨h, rfl⟩ | intro _ | with_reducible exact Keeps.refl _ | with_reducible apply K.ite | with_reducible apply K.settle | with_reducible apply K.msgFailed | split | dsimp only | with_reducible apply K.gen)
  all_goals simp_all

theorem K.keepRx {s0 s : State} (h : Keeps s0 s) (m : Msg) : Keeps s0 (State.keepRx s m) := by
  unfold Sys2Proof.Machine.State.keepRx
  repeat' (first | with_reducible assumption | with_reducible exact fun h => ⟨h, rfl⟩ | intro _ | with_reducible exact Keeps.refl _ | with_reducible apply K.ite | split | dsimp only | with_reducible apply K.gen)
  all_goals simp_all

theorem K.runData {s0 s : State} (h : Keeps s0 s) (c : Cmd) (w : RunWork) (m : Msg) : Keeps s0 (State.runData s c w m) := by
  unfold Sys2Proof.Machine.State.runData
  repeat' (first | with_reducible assumption | with_reducible exact fun h => ⟨h, rfl⟩ | intro _ | with_reducible exact Keeps.refl _ | with_reducible apply K.ite | with_reducible apply K.each | with_reducible apply K.writeHost | with_reducible apply K.writeWork | with_reducible apply K.hbmWait | with_reducible apply K.chargeHbm | with_reducible apply K.updRun | with_reducible apply K.keepRx | split | dsimp only | with_reducible apply K.gen)
  all_goals simp_all

theorem K.runPart {s0 s : State} (h : Keeps s0 s) (c : Cmd) (w : RunWork) (g : Generation) (m : Msg) : Keeps s0 (State.runPart s c w g m) := by
  unfold Sys2Proof.Machine.State.runPart
  repeat' (first | with_reducible assumption | with_reducible exact fun h => ⟨h, rfl⟩ | intro _ | with_reducible exact Keeps.refl _ | with_reducible apply K.ite | with_reducible apply K.each | with_reducible apply K.updRun | with_reducible apply K.combine | split | dsimp only | with_reducible apply K.gen)
  all_goals simp_all

theorem K.serve {s0 s : State} (h : Keeps s0 s) (m : Msg) : Keeps s0 (State.serve s m) := by
  unfold Sys2Proof.Machine.State.serve
  repeat' (first | with_reducible assumption | with_reducible exact fun h => ⟨h, rfl⟩ | intro _ | with_reducible exact Keeps.refl _ | with_reducible apply K.ite | with_reducible apply K.updCmd | with_reducible apply K.runData | with_reducible apply K.runPart | split | dsimp only | with_reducible apply K.gen)
  all_goals simp_all

theorem K.takeData {s0 s : State} (h : Keeps s0 s) (g : Got) : Keeps s0 (State.takeData s g) := by
  unfold Sys2Proof.Machine.State.takeData
  repeat' (first | with_reducible assumption | with_reducible exact fun h => ⟨h, rfl⟩ | intro _ | with_reducible exact Keeps.refl _ | with_reducible apply K.ite | with_reducible apply K.takeMsg | with_reducible apply K.takeGot | with_reducible apply K.keepRx | with_reducible apply K.serve | split | dsimp only | with_reducible apply K.gen)
  all_goals simp_all

theorem K.drainRx {s0 s : State} (h : Keeps s0 s) (c : Nat) (tag : BitVec 16) : Keeps s0 (State.drainRx s c tag) := by
  unfold Sys2Proof.Machine.State.drainRx
  repeat' (first | with_reducible assumption | with_reducible exact fun h => ⟨h, rfl⟩ | intro _ | with_reducible exact Keeps.refl _ | with_reducible apply K.ite | with_reducible apply K.each | with_reducible apply K.takeData | split | dsimp only | with_reducible apply K.gen)
  all_goals simp_all

theorem K.execLinkDataMessage {s0 s : State} (h : Keeps s0 s) (p : Fin 4) (fs : List Flit) : KeepsO s0 (execLinkDataMessage p fs s) := by
  unfold Sys2Proof.Machine.execLinkDataMessage
  repeat' (first | with_reducible exact KeepsO.fault _ _ | with_reducible apply KeepsO.next | with_reducible apply KeepsO.ite | with_reducible assumption | with_reducible exact fun h => ⟨h, rfl⟩ | intro _ | with_reducible exact Keeps.refl _ | with_reducible apply K.ite | with_reducible apply K.settle | with_reducible apply K.receiveMsg | with_reducible apply K.takeData | split | dsimp only | with_reducible apply K.gen)
  all_goals simp_all

theorem K.execLinkPartMessage {s0 s : State} (h : Keeps s0 s) (p : Fin 4) (fs : List Flit) : KeepsO s0 (execLinkPartMessage p fs s) := by
  unfold Sys2Proof.Machine.execLinkPartMessage
  repeat' (first | with_reducible exact KeepsO.fault _ _ | with_reducible apply KeepsO.next | with_reducible apply KeepsO.ite | with_reducible assumption | with_reducible exact fun h => ⟨h, rfl⟩ | intro _ | with_reducible exact Keeps.refl _ | with_reducible apply K.ite | with_reducible apply K.settle | with_reducible apply K.receiveMsg | with_reducible apply K.takeData | split | dsimp only | with_reducible apply K.gen)
  all_goals simp_all

theorem K.contribute {s0 s : State} (h : Keeps s0 s) (c : Cmd) : Keeps s0 (State.contribute s c) := by
  unfold Sys2Proof.Machine.State.contribute
  repeat' (first | with_reducible assumption | with_reducible exact fun h => ⟨h, rfl⟩ | intro _ | with_reducible exact Keeps.refl _ | with_reducible apply K.ite | with_reducible apply K.each | with_reducible apply K.send | with_reducible apply K.updCmd | with_reducible apply K.hbmWait | with_reducible apply K.chargeHbm | with_reducible apply K.parityError | split | dsimp only | with_reducible apply K.gen)
  all_goals simp_all

theorem K.effCollective {s0 s : State} (h : Keeps s0 s) (adopt : Option Nat) (q : QueueId) (p : Packet) : Keeps s0 (effCollective adopt q p s) := by
  unfold Sys2Proof.Machine.effCollective
  repeat' (first | with_reducible assumption | with_reducible exact fun h => ⟨h, rfl⟩ | intro _ | with_reducible exact Keeps.refl _ | with_reducible apply K.ite | with_reducible apply K.replyGen | with_reducible apply K.launchTo | with_reducible apply K.contribute | split | dsimp only | with_reducible apply K.gen)
  all_goals simp_all

theorem K.execCollective {s0 s : State} (h : Keeps s0 s) (q : QueueId) : KeepsO s0 (execCollective q s) := by
  unfold Sys2Proof.Machine.execCollective
  repeat' (first | with_reducible exact KeepsO.fault _ _ | with_reducible apply KeepsO.next | with_reducible apply KeepsO.ite | with_reducible assumption | with_reducible exact fun h => ⟨h, rfl⟩ | intro _ | with_reducible exact Keeps.refl _ | with_reducible apply K.ite | with_reducible apply K.packetRow | with_reducible apply K.effCollective | split | dsimp only | with_reducible apply K.gen)
  all_goals simp_all

theorem K.collWrite {s0 s : State} (h : Keeps s0 s) (c : Cmd) (got : List (Nat × List Byte)) : Keeps s0 (State.collWrite s c got) := by
  unfold Sys2Proof.Machine.State.collWrite
  repeat' (first | with_reducible assumption | with_reducible exact fun h => ⟨h, rfl⟩ | intro _ | with_reducible exact Keeps.refl _ | with_reducible apply K.ite | with_reducible apply K.writeAt | with_reducible apply K.chargeHbm | split | dsimp only | with_reducible apply K.gen)
  all_goals simp_all

theorem K.collError {s0 s : State} (h : Keeps s0 s) (c : Cmd) (e : ParityErr) : Keeps s0 (State.collError s c e) := by
  unfold Sys2Proof.Machine.State.collError
  repeat' (first | with_reducible assumption | with_reducible exact fun h => ⟨h, rfl⟩ | intro _ | with_reducible exact Keeps.refl _ | with_reducible apply K.ite | with_reducible apply K.noteWork | with_reducible apply K.parityError | split | dsimp only | with_reducible apply K.gen)
  all_goals simp_all

theorem K.execCollectiveComplete {s0 s : State} (h : Keeps s0 s) (x0 : Checked CmdRef) : KeepsO s0 (execCollectiveComplete x0 s) := by
  obtain ⟨r, err⟩ := x0
  rw [Sys2Proof.Machine.execCollectiveComplete]
  repeat' (first | with_reducible exact KeepsO.fault _ _ | with_reducible apply KeepsO.next | with_reducible apply KeepsO.ite | with_reducible assumption | with_reducible exact fun h => ⟨h, rfl⟩ | intro _ | with_reducible exact Keeps.refl _ | with_reducible apply K.ite | with_reducible apply K.spoil | with_reducible apply K.complete | with_reducible apply K.hbmWait | with_reducible apply K.settle | with_reducible apply K.collWrite | with_reducible apply K.collError | split | dsimp only | with_reducible apply K.gen)
  all_goals simp_all

theorem K.forwardedEff {s0 : State} {m : Msg} {o : Op} {f : QueueId → Packet → State → State} (e : forwardedEff m o = some f)
    (q : QueueId) (p : Packet) (t : State) (h : Keeps s0 t) : Keeps s0 (f q p t) := by
  unfold Sys2Proof.Machine.forwardedEff at e
  split at e <;> cases e
  · exact K.effCtxOpen h q p
  · exact K.effCtxClose h q p
  · exact K.effPitchBegin h m.gen q p
  · exact K.effPitchCommit h q p
  · exact K.effPitchAbort h q p
  · exact K.effSwing h q p
  · exact K.effRun h (some m.gen) q p
  · exact K.effCollective h (some m.gen) q p
  · exact K.effRetrimStep h q p
  · exact K.effRetrimApply h q p

theorem K.runCmd {s0 s : State} (h : Keeps s0 s) (m : Msg) : Keeps s0 (s.runCmd m) := by
  unfold State.runCmd
  dsimp only
  split
  · exact K.replyGen h _ _ _ _ _ _ _
  · next o f e =>
    refine K.ite (fun _ => K.keepRx (K.hbmWait h _) _) fun _ => K.drainRx (K.examine h _ _ _ _ _ ?_) _ _
    simp only [Option.bind_eq_some_iff, Option.map_eq_some_iff] at e
    obtain ⟨o', _, f', e, k⟩ := e
    cases k
    exact K.forwardedEff e

theorem K.execLinkCmdMessage {s0 s : State} (h : Keeps s0 s) (p : Fin 4) (fs : List Flit) : KeepsO s0 (execLinkCmdMessage p fs s) := by
  unfold Sys2Proof.Machine.execLinkCmdMessage
  repeat' (first | with_reducible exact KeepsO.fault _ _ | with_reducible apply KeepsO.next | with_reducible apply KeepsO.ite | with_reducible assumption | with_reducible exact fun h => ⟨h, rfl⟩ | intro _ | with_reducible exact Keeps.refl _ | with_reducible apply K.ite | with_reducible apply K.settle | with_reducible apply K.receiveMsg | with_reducible apply K.takeGot | with_reducible apply K.runCmd | split | dsimp only | with_reducible apply K.gen)
  all_goals simp_all

theorem K.groupTimeout {s0 s : State} (h : Keeps s0 s) (m : Msg) : Keeps s0 (State.groupTimeout s m) := by
  unfold Sys2Proof.Machine.State.groupTimeout
  repeat' (first | with_reducible assumption | with_reducible exact fun h => ⟨h, rfl⟩ | intro _ | with_reducible exact Keeps.refl _ | with_reducible apply K.ite | with_reducible apply K.sendCmds | with_reducible apply K.abortWith | with_reducible apply K.ptimeoutEvent | split | dsimp only | with_reducible apply K.gen)
  all_goals simp_all

theorem K.takeStatus {s0 s : State} (h : Keeps s0 s) (m : Msg) : Keeps s0 (State.takeStatus s m) := by
  unfold Sys2Proof.Machine.State.takeStatus
  repeat' (first | with_reducible assumption | with_reducible exact fun h => ⟨h, rfl⟩ | intro _ | with_reducible exact Keeps.refl _ | with_reducible apply K.ite | with_reducible apply K.updCmd | with_reducible apply K.finishParts | with_reducible apply K.groupTimeout | split | dsimp only | with_reducible apply K.gen)
  all_goals simp_all

theorem K.execLinkStatusMessage {s0 s : State} (h : Keeps s0 s) (p : Fin 4) (fs : List Flit) : KeepsO s0 (execLinkStatusMessage p fs s) := by
  unfold Sys2Proof.Machine.execLinkStatusMessage
  repeat' (first | with_reducible exact KeepsO.fault _ _ | with_reducible apply KeepsO.next | with_reducible apply KeepsO.ite | with_reducible assumption | with_reducible exact fun h => ⟨h, rfl⟩ | intro _ | with_reducible exact Keeps.refl _ | with_reducible apply K.ite | with_reducible apply K.settle | with_reducible apply K.receiveMsg | with_reducible apply K.takeGot | with_reducible apply K.takeStatus | split | dsimp only | with_reducible apply K.gen)
  all_goals simp_all

theorem K.execLinkSigMessage {s0 s : State} (h : Keeps s0 s) (p : Fin 4) (fs : List Flit) : KeepsO s0 (execLinkSigMessage p fs s) := by
  unfold Sys2Proof.Machine.execLinkSigMessage
  repeat' (first | with_reducible exact KeepsO.fault _ _ | with_reducible apply KeepsO.next | with_reducible apply KeepsO.ite | with_reducible assumption | with_reducible exact fun h => ⟨h, rfl⟩ | intro _ | with_reducible exact Keeps.refl _ | with_reducible apply K.ite | with_reducible apply K.storeCopy | with_reducible apply K.receiveMsg | with_reducible apply K.takeGot | split | dsimp only | with_reducible apply K.gen)
  all_goals simp_all

theorem K.execGroupPoll {s0 s : State} (h : Keeps s0 s) : KeepsO s0 (execGroupPoll s) := by
  unfold Sys2Proof.Machine.execGroupPoll
  repeat' (first | with_reducible exact KeepsO.fault _ _ | with_reducible apply KeepsO.next | with_reducible apply KeepsO.ite | with_reducible assumption | with_reducible exact fun h => ⟨h, rfl⟩ | intro _ | with_reducible exact Keeps.refl _ | with_reducible apply K.ite | with_reducible apply K.each | with_reducible apply K.send | split | dsimp only | with_reducible apply K.gen)
  all_goals simp_all

theorem K.execGroupPollTimeout {s0 s : State} (h : Keeps s0 s) (mgr : Nat) : KeepsO s0 (execGroupPollTimeout mgr s) := by
  unfold Sys2Proof.Machine.execGroupPollTimeout
  repeat' (first | with_reducible exact KeepsO.fault _ _ | with_reducible apply KeepsO.next | with_reducible apply KeepsO.ite | with_reducible assumption | with_reducible exact fun h => ⟨h, rfl⟩ | intro _ | with_reducible exact Keeps.refl _ | with_reducible apply K.ite | split | dsimp only | with_reducible apply K.gen)
  all_goals simp_all

theorem K.discovery {s0 s : State} (h : Keeps s0 s) (p : Nat) (m : Msg) : Keeps s0 (State.discovery s p m) := by
  unfold Sys2Proof.Machine.State.discovery
  repeat' (first | with_reducible assumption | with_reducible exact fun h => ⟨h, rfl⟩ | intro _ | with_reducible exact Keeps.refl _ | with_reducible apply K.ite | with_reducible apply K.fall | with_reducible apply K.ctrlOn | split | dsimp only | with_reducible apply K.gen)
  all_goals simp_all

theorem K.pollAnswer {s0 s : State} (h : Keeps s0 s) (m : Msg) : Keeps s0 (State.pollAnswer s m) := by
  unfold Sys2Proof.Machine.State.pollAnswer
  repeat' (first | with_reducible assumption | with_reducible exact fun h => ⟨h, rfl⟩ | intro _ | with_reducible exact Keeps.refl _ | with_reducible apply K.ite | split | dsimp only | with_reducible apply K.gen)
  all_goals simp_all

theorem K.takeCtrl {s0 s : State} (h : Keeps s0 s) (p : Nat) (m : Msg) : Keeps s0 (State.takeCtrl s p m) := by
  unfold Sys2Proof.Machine.State.takeCtrl
  repeat' (first | with_reducible assumption | with_reducible exact fun h => ⟨h, rfl⟩ | intro _ | with_reducible exact Keeps.refl _ | with_reducible apply K.ite | with_reducible apply K.each | with_reducible apply K.send | with_reducible apply K.degrade | with_reducible apply K.takeRecord | with_reducible apply K.discovery | with_reducible apply K.pollAnswer | split | dsimp only | with_reducible apply K.gen)
  all_goals simp_all

theorem K.execLinkCtrlMessage {s0 s : State} (h : Keeps s0 s) (p : Fin 4) (fs : List Flit) : KeepsO s0 (execLinkCtrlMessage p fs s) := by
  unfold Sys2Proof.Machine.execLinkCtrlMessage
  repeat' (first | with_reducible exact KeepsO.fault _ _ | with_reducible apply KeepsO.next | with_reducible apply KeepsO.ite | with_reducible assumption | with_reducible exact fun h => ⟨h, rfl⟩ | intro _ | with_reducible exact Keeps.refl _ | with_reducible apply K.ite | with_reducible apply K.receiveMsg | with_reducible apply K.takeGot | with_reducible apply K.takeCtrl | split | dsimp only | with_reducible apply K.gen)
  all_goals simp_all

end Sys2Proof.Machine
end

