-- ==== Sys2Proof/Laws/KeepsResume.lean ====
section
/-! SUPPORT. What the operations and rows of Machine/Resume.lean keep. -/
set_option linter.unusedTactic false
set_option linter.unreachableTactic false
namespace Sys2Proof.Machine

theorem K.takeRx {s0 s : State} (h : Keeps s0 s) (m : Msg) : Keeps s0 (State.takeRx s m) := by
  unfold Sys2Proof.Machine.State.takeRx
  repeat' (first | with_reducible assumption | with_reducible exact fun h => ⟨h, rfl⟩ | intro _ | with_reducible exact Keeps.refl _ | with_reducible apply K.ite | with_reducible apply K.serve | with_reducible apply K.runCmd | split | dsimp only | with_reducible apply K.gen)
  all_goals simp_all

theorem K.resume {s0 s : State} (h : Keeps s0 s) : Keeps s0 (State.resume s) := by
  unfold Sys2Proof.Machine.State.resume
  repeat' (first | with_reducible assumption | with_reducible exact fun h => ⟨h, rfl⟩ | intro _ | with_reducible exact Keeps.refl _ | with_reducible apply K.ite | with_reducible apply K.each | with_reducible apply K.settle | with_reducible apply K.shardLane | with_reducible apply K.flushOut | with_reducible apply K.startTrim | with_reducible apply K.contribute | with_reducible apply K.takeRx | split | dsimp only | with_reducible apply K.gen)
  all_goals simp_all

theorem K.execGovernorEpoch {s0 s : State} (h : Keeps s0 s) : KeepsO s0 (execGovernorEpoch s) := by
  unfold Sys2Proof.Machine.execGovernorEpoch
  repeat' (first | with_reducible exact KeepsO.fault _ _ | with_reducible apply KeepsO.next | with_reducible apply KeepsO.ite | with_reducible assumption | with_reducible exact fun h => ⟨h, rfl⟩ | intro _ | with_reducible exact Keeps.refl _ | with_reducible apply K.ite | with_reducible apply K.resume | split | dsimp only | with_reducible apply K.gen)
  all_goals simp_all

end Sys2Proof.Machine
end

