-- ==== Sys2Proof/Laws/Shared.lean ====
section
/-! SUPPORT. What each shared operation over HBM tokens, completion and rings can do: one lemma an operation. -/
namespace Sys2Proof.Machine

/-! ## HBM transfers (R302, R304) -/

/-- A transfer inside a row's effect changes the governor and the ECC counters alone. -/
theorem State.chargeHbm_frame (s : State) (stern : Bool) (n : Nat) :
    s.chargeHbm stern n = { s with gov := s.gov.chargePool stern (hbmTokens n), tel := s.eccReport.tel } := rfl

@[simp] theorem State.host_chargeHbm (s : State) (b : Bool) (n : Nat) : (s.chargeHbm b n).host = s.host := rfl
@[simp] theorem State.cmds_chargeHbm (s : State) (b : Bool) (n : Nat) : (s.chargeHbm b n).cmds = s.cmds := rfl
@[simp] theorem State.dev_chargeHbm (s : State) (b : Bool) (n : Nat) : (s.chargeHbm b n).dev = s.dev := rfl
@[simp] theorem State.env_chargeHbm (s : State) (b : Bool) (n : Nat) : (s.chargeHbm b n).env = s.env := rfl
@[simp] theorem State.outs_chargeHbm (s : State) (b : Bool) (n : Nat) : (s.chargeHbm b n).outs = s.outs := rfl
@[simp] theorem State.sig_chargeHbm (s : State) (b : Bool) (n : Nat) : (s.chargeHbm b n).sig = s.sig := rfl
@[simp] theorem State.ctx_chargeHbm (s : State) (b : Bool) (n k : Nat) : (s.chargeHbm b n).ctx k = s.ctx k := rfl
@[simp] theorem State.arr_chargeHbm (s : State) (b : Bool) (n k : Nat) : (s.chargeHbm b n).arr k = s.arr k := rfl
@[simp] theorem State.crew_chargeHbm (s : State) (b : Bool) (n k : Nat) : (s.chargeHbm b n).crew k = s.crew k := rfl
@[simp] theorem State.ve_chargeHbm (s : State) (b : Bool) (n k : Nat) : (s.chargeHbm b n).ve k = s.ve k := rfl
@[simp] theorem State.queue_chargeHbm (s : State) (b : Bool) (n : Nat) (q : QueueId) : (s.chargeHbm b n).queue q = s.queue q := rfl

/-- A transfer that waits for its tokens: made or not, it changes the governor and the ECC counters alone; not made, no ECC
counter; one of no bytes is made and changes nothing. -/
theorem State.drawHbm_cases (s : State) (stern : Bool) (n : Nat) :
    (∃ g x, s.drawHbm stern n = ({ s with gov := g, tel := x }, true))
      ∨ (n ≠ 0 ∧ ∃ g, s.drawHbm stern n = ({ s with gov := g }, false)) := by
  unfold State.drawHbm
  split
  · exact .inl ⟨s.gov, s.tel, rfl⟩
  · next h =>
    split
    · exact .inl ⟨_, _, rfl⟩
    · exact .inr ⟨h, _, rfl⟩

/-- A class whose pool is open makes its transfer, and one whose pool is not waits. -/
theorem State.drawHbm_open (s : State) (b : Bool) (n : Nat) (h0 : n ≠ 0) (h : s.hbmOpen b = true) :
    s.drawHbm b n = (s.chargeHbm b n, true) := by unfold State.drawHbm; rw [if_neg h0, if_pos h]
theorem State.drawHbm_wait (s : State) (b : Bool) (n : Nat) (h0 : n ≠ 0) (h : s.hbmOpen b = false) :
    s.drawHbm b n = (s.hbmWait b, false) := by unfold State.drawHbm; rw [if_neg h0, if_neg (by simp [h])]

/-- Waiting changes the governor's marks alone, and no transfer that waits opens the pool. -/
theorem State.hbmWait_frame (s : State) (b : Bool) : s.hbmWait b = { s with gov := s.gov.wait b } := rfl
theorem State.hbmOpen_hbmWait (s : State) (a b : Bool) : (s.hbmWait a).hbmOpen b = s.hbmOpen b := by
  simp only [State.hbmWait_frame, State.hbmOpen, Gov.drawPool, Gov.wait]
  cases a <;> cases b <;> simp <;> split <;> rfl

/-- Every token of a transfer or slot under way is drawn or owed, and the pool and the write allowance never go below 0 by them. -/
theorem Gov.chargePool_eng (g : Gov) (n : Nat) :
    (g.chargePool false n).drawn + (g.chargePool false n).owedEng = g.drawn + g.owedEng + n
      ∧ (g.chargePool false n).pool + (g.chargePool false n).drawn = g.pool + g.drawn := by
  simp only [Gov.chargePool, Bool.false_eq_true, if_false]
  omega
theorem Gov.chargePool_stern (g : Gov) (n : Nat) :
    (g.chargePool true n).drawn + (g.chargePool true n).owedStern = g.drawn + g.owedStern + n
      ∧ (g.chargePool true n).pool + (g.chargePool true n).drawn = g.pool + g.drawn := by
  simp only [Gov.chargePool, if_true]
  omega
theorem Gov.chargeWrite_pays (g : Gov) (n : Nat) :
    (g.chargeWrite n).drawn + (g.chargeWrite n).owedWr = g.drawn + g.owedWr + n
      ∧ (g.chargeWrite n).wrAllow + (g.chargeWrite n).drawn = g.wrAllow + g.drawn := by
  simp only [Gov.chargeWrite]
  omega

/-! ## Completion (R177, R182, R184) -/

/-- CTX_OPEN taking hold: the context is new and OPEN, a READY device is ACTIVE, no other context and nothing else changes. -/
theorem State.openCtx_frame (s : State) (c : Nat) :
    (s.openCtx c).ctx c = { Ctx.reset with st := .opened } ∧ (∀ k, k ≠ c → (s.openCtx c).ctx k = s.ctx k)
      ∧ (s.openCtx c).dev = { s.dev with st := if s.dev.st = .ready then .active else s.dev.st }
      ∧ s.openCtx c = { s with ctxs := (s.openCtx c).ctxs, dev := (s.openCtx c).dev } := by
  refine ⟨?_, fun k h => ?_, rfl, rfl⟩
  · show (s.setCtx c { Ctx.reset with st := .opened }).ctx c = _
    simp
  · show (s.setCtx c { Ctx.reset with st := .opened }).ctx k = _
    rw [State.ctx_setCtx_other s k c _ h]

/-- Taking hold changes the contexts and the state of the device alone, and of the contexts only the command's. -/
theorem State.takeHold_frame (s : State) (op c : Nat) :
    (∃ x y, s.takeHold op c = { s with ctxs := x, dev := { s.dev with st := y } })
      ∧ ∀ k, k ≠ c → (s.takeHold op c).ctx k = s.ctx k := by
  unfold State.takeHold
  split
  · exact ⟨⟨_, _, rfl⟩, (s.openCtx_frame c).2.1⟩
  · split
    · exact ⟨⟨_, _, rfl⟩, fun k h => State.ctx_setCtx_other s k c _ h⟩
    · split
      · exact ⟨⟨_, s.dev.st, rfl⟩, fun k h => State.ctx_setCtx_other s k c _ h⟩
      · exact ⟨⟨s.ctxs, s.dev.st, rfl⟩, fun _ _ => rfl⟩

/-! ## Rings (R266) -/

/-- What leaves on the other port of a pair when its ring falls. -/
theorem State.degrade_eq (s : State) (p : Nat) (m : s.member = true) (f : pairOf p ∉ s.group.fallen) :
    s.degrade p = State.fall (let o := if p % 2 = 0 then p + 1 else p - 1
      { s with
        group := { s.group with held := s.group.held ++ [s.ctrlMsg o 6 []] }
        outs := if (s.port o).up then .link o (s.ctrlMsg o 6 []).flits :: s.outs else s.outs }) (pairOf p) := by
  have o : pairOf (if p % 2 = 0 then p + 1 else p - 1) = pairOf p := by unfold pairOf; split <;> omega
  have c : s.carries (if p % 2 = 0 then p + 1 else p - 1) = (s.port (if p % 2 = 0 then p + 1 else p - 1)).up := by
    simp [State.carries, o, f]
  unfold State.degrade State.ctrlOn
  rw [if_neg (by simp [m, f])]
  dsimp only
  rw [c]
  congr 1
  cases (s.port (if p % 2 = 0 then p + 1 else p - 1)).up <;> rfl

/-- A device that learns that a ring has fallen does nothing but what RingFalls says. -/
theorem RingFalls.degrade (s : State) (p : Nat) : RingFalls s (s.degrade p) p := by
  by_cases m : s.member = true
  · by_cases f : pairOf p ∈ s.group.fallen
    · have e : s.degrade p = s := by unfold State.degrade; rw [if_pos (by simp [f])]
      rw [e]
      exact ⟨fun _ => ⟨rfl, rfl⟩, fun _ h => absurd f h, rfl⟩
    · rw [s.degrade_eq p m f]
      refine ⟨fun h => h.elim (fun h => by simp [m] at h) (fun h => absurd h f), fun _ _ => ⟨?_, rfl, rfl, rfl⟩, rfl⟩
      show (if s.group.fallen.contains (pairOf p) then _ else _) = _
      rw [if_neg (by simp [f])]
  · have e : s.degrade p = s := by unfold State.degrade; rw [if_pos (by simp [m])]
    rw [e]
    exact ⟨fun _ => ⟨rfl, rfl⟩, fun h => absurd h m, rfl⟩

end Sys2Proof.Machine
end

