-- ==== Sys2Proof/Laws/Status.lean ====
section
/-! SUPPORT. What writing a status entry does, and which packet a row examines. -/
namespace Sys2Proof.Machine

theorem qIdx_inj {a b : QueueId} (ha : qIdx a < 33) (h : qIdx a = qIdx b) : a = b := by
  cases a <;> cases b <;> simp only [qIdx] at h ha <;> first | rfl | omega | skip
  all_goals congr 1; apply Fin.ext; omega

theorem QueueId.isRing_iff {q : QueueId} (h : q.isRing = true) : qIdx q < 33 := by
  cases q <;> simp only [qIdx, QueueId.isRing, Bool.false_eq_true] at * <;> omega

@[simp] theorem length_leBytes (n v : Nat) : (leBytes n v).length = n := by
  induction n generalizing v with
  | zero => rfl
  | succ n ih => simp [leBytes, ih]

@[simp] theorem statusEntry_length (p : Packet) (st : Status) (mod h r0 r1 : Nat) (ph : Bool) :
    (statusEntry p st mod h r0 r1 ph).length = 16 := by
  simp [statusEntry]

/-! ## Interrupts -/

theorem State.raisePf_cases (s : State) (v : Nat) :
    s.raisePf v = s ∨ (∃ x, s.raisePf v = { s with dev := { s.dev with pba := x } })
      ∨ s.raisePf v = { s with outs := .msix 0 v :: s.outs } := by
  unfold State.raisePf
  split
  · exact .inl rfl
  · split
    · exact .inr (.inl ⟨_, rfl⟩)
    · exact .inr (.inr rfl)

theorem State.raiseVf_cases (s : State) (n v : Nat) :
    s.raiseVf n v = s ∨ (∃ x, s.raiseVf n v = { s with dev := { s.dev with vfPba := x } })
      ∨ s.raiseVf n v = { s with outs := .msix n v :: s.outs } := by
  unfold State.raiseVf
  split
  · exact .inl rfl
  · split
    · exact .inr (.inl ⟨_, rfl⟩)
    · exact .inr (.inr rfl)

theorem State.raisePf_raised (s : State) (v : Nat) : Raised s (s.raisePf v) 0 v := by
  unfold State.raisePf
  constructor <;> simp +contextual [State.vectorMasked, State.out]

theorem State.raiseVf_raised (s : State) {n : Nat} (hn : n ≠ 0) (v : Nat) : Raised s (s.raiseVf n v) n v := by
  unfold State.raiseVf
  constructor <;> simp +contextual [State.vectorMasked, State.out, hn]

/-- A queue's completion vector is raised. -/
theorem State.raiseQueue_raised (s : State) {q : QueueId} (hq : q.isRing = true) :
    Raised s (s.raiseQueue q) (s.vectorOf q).1 (s.vectorOf q).2 := by
  cases q with
  | admin => exact s.raisePf_raised 0
  | ctx c =>
    simp only [State.raiseQueue, State.raiseCtx, State.vectorOf]
    split
    · exact s.raiseVf_raised (by omega) _
    · exact s.raisePf_raised _
  | bow c =>
    simp only [State.raiseQueue, State.raiseCtx, State.vectorOf]
    split
    · exact s.raiseVf_raised (by omega) _
    · exact s.raisePf_raised _
  | fwd c => simp [QueueId.isRing] at hq

/-- Raising a vector asks only for the interrupt state of the device that raises it. -/
theorem Raised.of_eq {m s t : State} {fn v : Nat} (h : Raised s t fn v) (hd : s.dev = m.dev) (ho : s.outs = m.outs) :
    Raised m t fn v := by
  obtain ⟨a, b, c⟩ := h
  unfold State.vectorMasked at b c
  rw [hd, ho] at a b c
  exact ⟨a, b, c⟩

/-- What raising a queue's completion vector can change. -/
theorem State.raiseQueue_frame (s : State) (q : QueueId) :
    ∃ o x y, s.raiseQueue q = { s with outs := o, dev := { s.dev with pba := x, vfPba := y } } := by
  have pf : ∀ v, ∃ o x y, s.raisePf v = { s with outs := o, dev := { s.dev with pba := x, vfPba := y } } := by
    intro v
    obtain e | ⟨x, e⟩ | e := s.raisePf_cases v
    · exact ⟨s.outs, s.dev.pba, s.dev.vfPba, e⟩
    · exact ⟨s.outs, x, s.dev.vfPba, e⟩
    · exact ⟨_, s.dev.pba, s.dev.vfPba, e⟩
  have vf : ∀ n v, ∃ o x y, s.raiseVf n v = { s with outs := o, dev := { s.dev with pba := x, vfPba := y } } := by
    intro n v
    obtain e | ⟨y, e⟩ | e := s.raiseVf_cases n v
    · exact ⟨s.outs, s.dev.pba, s.dev.vfPba, e⟩
    · exact ⟨s.outs, s.dev.pba, y, e⟩
    · exact ⟨_, s.dev.pba, s.dev.vfPba, e⟩
  have cx : ∀ c k, ∃ o x y, s.raiseCtx c k = { s with outs := o, dev := { s.dev with pba := x, vfPba := y } } := by
    intro c k
    unfold State.raiseCtx
    split
    · exact vf _ _
    · exact pf _
  unfold State.raiseQueue
  split
  · exact pf 0
  · exact cx _ _
  · exact cx _ _
  · exact ⟨s.outs, s.dev.pba, s.dev.vfPba, rfl⟩

/-! ## The status entry -/

/-- A status entry written on a ring, and nothing else. -/
theorem Answered.reply {m : State} (h : Memory.wf m.host) {q : QueueId} (hq : q.isRing = true) (p : Packet) (st : Status)
    (mod r0 r1 : Nat) : Answered m (m.reply q p st mod r0 r1) q p st mod r0 r1 := by
  have e : m.reply q p st mod r0 r1 = m.writeStatus q p st mod r0 r1 := by
    cases q <;> simp only [State.reply, State.replyGen, QueueId.isRing, Bool.false_eq_true] at *
  rw [e]
  unfold State.writeStatus
  extract_lets x en s1 wrap s2
  have hs2 : s2.host = Memory.writeBytes m.host (m.statusAddr q) en := rfl
  have key : ∀ t : State, (∃ o a b, t = { s2 with outs := o, dev := { s2.dev with pba := a, vfPba := b } }) →
      (p.irq = false → statusGood st = true → t.outs = m.outs ∧ t.dev = m.dev) →
      (p.irq = true ∨ statusGood st = false → Raised m t (m.vectorOf q).1 (m.vectorOf q).2) → Answered m t q p st mod r0 r1 := by
    rintro t ⟨o, a, b, rfl⟩ hquiet hloud
    refine ⟨?_, ?_, ?_, ?_, hquiet, hloud, rfl⟩
    · show Memory.readBytes s2.host _ _ = _
      rw [hs2]
      have := Memory.readBytes_writeBytes h (m.statusAddr q) en
      rwa [show en.length = 16 from statusEntry_length _ _ _ _ _ _ _] at this
    · intro a ha
      show Memory.read s2.host a = _
      rw [hs2]
      refine Memory.read_writeBytes_out _ _ _ _ ?_
      rw [show en.length = 16 from statusEntry_length _ _ _ _ _ _ _]
      exact ha
    · show s2.queue q = _
      exact State.queue_setQueue_same _ _ _
    · intro k hk
      show s2.queue k = _
      exact State.queue_setQueue_other _ _ _ _ fun e => hk (qIdx_inj (QueueId.isRing_iff hq) e.symm).symm
  split
  · next c =>
    refine key _ (State.raiseQueue_frame s2 q) ?_ fun _ => (State.raiseQueue_raised s2 hq).of_eq rfl rfl
    intro h1 h2
    simp [h1, h2] at c
  · next c =>
    refine key _ ⟨s2.outs, s2.dev.pba, s2.dev.vfPba, rfl⟩ (fun _ _ => ⟨rfl, rfl⟩) ?_
    intro h1
    simp only [Bool.or_eq_true, Bool.not_eq_true', not_or] at c
    obtain h1 | h1 := h1
    · exact absurd h1 c.1
    · exact absurd h1 c.2

theorem Answered.done {m : State} (h : Memory.wf m.host) {q : QueueId} (hq : q.isRing = true) (p : Packet) (st : Status)
    (r0 r1 : Nat) : Answered m (m.done q p st r0 r1) q p st 0 r0 r1 := by
  have a := Answered.reply h hq p st 0 r0 r1
  refine ⟨a.entry, a.others, a.ring, a.queues, a.quiet,
    fun h => ⟨(a.loud h).faulty, (a.loud h).sent, (a.loud h).pends⟩, ?_⟩
  have r := a.rest
  unfold State.done
  rw [r]

/-- The same where the header of a STATUS message would carry a generation: on a ring it makes no difference. -/
theorem State.replyGen_ring {m : State} {q : QueueId} (hq : q.isRing = true) (g : Nat) (p : Packet) (st : Status)
    (mod r0 r1 : Nat) : m.replyGen g q p st mod r0 r1 = m.reply q p st mod r0 r1 := by
  cases q <;> simp only [State.reply, State.replyGen, QueueId.isRing, Bool.false_eq_true] at *

/-- The status of a command that waits for no member is its own. -/
theorem State.outcomeOf_alone (s : State) {c : Cmd} (hc : c.merged = []) (st : Status) : (s.outcomeOf c st).1 = st := by
  unfold State.outcomeOf firstRefusal
  simp only [hc, mergeParts, firstRefusal, partStatuses, List.map_nil, Tbl.put, List.find?_cons, List.find?_nil, List.foldl_nil]
  by_cases h : statusRank st == 0 <;> simp [h]

/-- An opcode without an effect at completion holds nothing. -/
theorem State.takeHold_none (s : State) {op : Nat} (h : op ∉ [0x08, 0x09, 0x10, 0x12, 0x14]) (c : Nat) : s.takeHold op c = s := by
  unfold State.takeHold
  simp only [List.mem_cons, List.not_mem_nil, or_false, not_or] at h
  obtain ⟨a, b, d, e, f⟩ := h
  simp [a, b, d, e, f]

/-- A command that waits for no member, and whose opcode has no effect at completion, is answered and gone. -/
theorem State.complete_lone {m : State} {c : Cmd} (hc : c.lone) (st : Status) (r0 r1 : Nat) :
    m.complete c st r0 r1 = ((m.dropCmd c.ref).releaseHeld c).reply c.ref.q c.pkt st
      (if statusRank st = 0 ∨ st = .okEmpty then 0 else modBits c.sat c.folded c.patched) r0 r1 := by
  obtain ⟨⟨hq, hp, hm⟩, ho⟩ := hc
  have e : m.outcomeOf c st = (st, (m.outcomeOf c st).2) := Prod.ext (m.outcomeOf_alone hm st) rfl
  unfold State.complete
  rw [if_neg (by simp [hp]), e, hm]
  dsimp only [List.foldl_nil]
  rw [if_pos rfl, State.takeHold_none _ ho, ite_self, State.replyGen_ring hq]
  rfl

/-- A command that waits for no member completes with one status entry. -/
theorem Ends.complete {m : State} (h : Memory.wf m.host) {c : Cmd} (hc : c.lone) (st : Status) (r0 r1 : Nat) :
    Ends m (m.complete c st r0 r1) c st r0 r1 := by
  unfold Ends
  rw [State.complete_lone hc]
  exact Answered.reply (m := (m.dropCmd c.ref).releaseHeld c) h hc.1.1 c.pkt st _ r0 r1

/-! ## The packet that a row examines -/

theorem State.admission_popFetched (s : State) (k q : QueueId) (o : Op) (p : Packet) :
    (s.popFetched k).admission q o p = s.admission q o p := rfl

theorem State.packetRow_offers {s : State} {q : QueueId} {o : Op} {p : Packet} (h : Offers s q o p)
    (f : QueueId → Packet → State → State) : s.packetRow q o f = f q p (s.popFetched q) := by
  obtain ⟨a, b, c, d, w⟩ := h
  have w : s.waitsHbm q o p = false := by
    unfold State.waitsHbm
    cases m : s.movesHbm o p with
    | false => rfl
    | true => simp [w m]
  unfold State.packetRow
  split
  · next e => simp [e] at a
  · next x _ e =>
    rw [e] at a
    cases a
    simp only [b, c, and_self, if_true, w, Bool.false_eq_true, if_false, State.examine, State.admission_popFetched, d]

end Sys2Proof.Machine
end

