-- ==== Sys2Proof/Tests/Slice0.lean ====
section
/-! SUPPORT. Tests. For every statement with hypotheses a named theorem gives a concrete state and operands that meet them, and,
where it is small, what the row answers there; every check of Instr.wf has an ill-formed term that it refuses; a few worked
examples of the spec follow. Each test names the obligation it belongs to, or the rule of spec/ the expected result is taken from. -/
namespace Sys2Proof.Tests
set_option Elab.async false
open Sys2Proof Sys2Proof.Machine

/-! ## Small states -/

/-- Bytes with little-endian fields (offset, size, value) written into zeros. -/
def bytesOf (n : Nat) (fs : List (Nat × Nat × Nat)) : List Byte :=
  fs.foldl (fun b f => b.take f.1 ++ leBytes f.2.1 f.2.2 ++ b.drop (f.1 + f.2.1)) (List.replicate n 0)

/-- A packet with opcode, CTXCLS, TAG and further fields (R172). -/
def pkt (o : Op) (cc tag : Nat) (fs : List (Nat × Nat × Nat)) : Packet :=
  ⟨bytesOf 64 ((0, 1, o.code) :: (1, 1, cc) :: (2, 2, tag) :: fs), [], none⟩

/-- A device that is up and READY at E4, with its environment set, its trim record loaded, and tokens in its pool. -/
def up : State :=
  { State.reset with
    dev := { Dev.reset with st := .ready, released := true, pllLocked := true, faultN := false, locked := true, trngOk := true }
    env := { Env.reset with envSet := true, trimLoaded := true, env := 4, bootEnv := 4 }
    gov := { Gov.reset with budget := 1000000, pool := 1000000, poolFull := 1000000, wrAllow := 1000000, sternAllow := 1000000 } }

/-- The same device, ACTIVE. -/
def act : State := { up with dev := { up.dev with st := .active } }

/-- A queue, enabled, whose next fetched entry is the packet. -/
def offer (s : State) (q : QueueId) (p : Packet) : State :=
  s.modQueue q (fun x => { x with enable := true, cqBase := 0x10000, fetched := [p] })

/-- The next state of an outcome, if it is one. -/
def nextOf (o : Host.Outcome State Fault Refusal) : Option State :=
  match o with
  | .next t => some t
  | _ => none

/-- The status code, MOD without the phase, and the two results of the status entry that the tests' queues expect next. -/
def answerOf (o : Host.Outcome State Fault Refusal) : Option (Nat × Nat × Nat × Nat) :=
  (nextOf o).map (fun t => (field (Memory.readBytes t.host 0x10002 1) 0 1, field (Memory.readBytes t.host 0x10003 1) 0 1 % 128,
    field (Memory.readBytes t.host 0x10008 4) 0 4, field (Memory.readBytes t.host 0x1000C 4) 0 4))

/-- A question to the next state; false where there is none. -/
def after (o : Host.Outcome State Fault Refusal) (f : State → Bool) : Bool :=
  match o with
  | .next t => f t
  | _ => false

/-- What `Presents` says, as a decidable statement. -/
abbrev Shown (s : State) (q : QueueId) (o : Op) (p : Packet) : Prop :=
  Memory.wf s.host ∧ q.isRing = true ∧ (s.queue q).fetched.head? = some p ∧ p.opcode = o.code ∧ s.examinable q = true
    ∧ s.admission q o p = none ∧ (s.movesHbm o p = true → s.hbmOpen (p.cls == 2) = true)

theorem shown_presents (s : State) (q : QueueId) (o : Op) (p : Packet) : Shown s q o p → Presents s q o p :=
  fun h => ⟨h.1, h.2.1, h.2.2.1, h.2.2.2.1, h.2.2.2.2.1, h.2.2.2.2.2.1, h.2.2.2.2.2.2⟩

/-- What `Canonical` says, as a decidable statement. -/
abbrev Canon (s : State) : Prop :=
  Memory.wf s.host ∧ Tbl.wf Queue.dflt s.queues ∧ Tbl.wf Ctx.dflt s.ctxs ∧ Tbl.wf Crew.dflt s.crews ∧ Tbl.wf Arr.reset s.arrs
    ∧ Tbl.wf Ve.dflt s.ves ∧ Tbl.wf Port.dflt s.ports ∧ Tbl.wf counterDflt s.counters

theorem canon_canonical (s : State) : Canon s → Canonical s :=
  fun h => ⟨h.1, h.2.1, h.2.2.1, h.2.2.2.1, h.2.2.2.2.1, h.2.2.2.2.2.1, h.2.2.2.2.2.2.1, h.2.2.2.2.2.2.2⟩



/-- What `Cmd.alone` and `Cmd.lone` say, as decidable statements. -/
abbrev Alone (c : Cmd) : Prop := c.ref.q.isRing = true ∧ c.parts = [] ∧ c.merged = []
abbrev Lone (c : Cmd) : Prop := Alone c ∧ c.pkt.opcode ∉ [0x08, 0x09, 0x10, 0x12, 0x14]

/-- No command in flight has descriptors still to write, as a decidable statement. -/
abbrev Plain (s : State) : Prop := (s.cmds.all (fun y => s.rowOf y.ref == [])) = true
theorem plain_of (s : State) (h : Plain s) : ∀ y ∈ s.cmds, s.rowOf y.ref = [] := by
  intro y hy
  simpa using List.all_eq_true.mp h y hy

/-- An error of a hop of the fabric. -/
def err0 : ParityErr := ⟨0x1000, 0⟩

/-! ## Step, idle, ill-formed terms, reset (O1 to O6) -/

/-- O1: the command at the front is taken, the rest waits. -/
theorem test_step_front : ({ up with pending := [.mgtSineEnable 7, .trngRead] } : State).pending = .mgtSineEnable 7 :: [.trngRead]
    ∧ after (step { up with pending := [.mgtSineEnable 7, .trngRead] }) (fun t => t.pending == [.trngRead] && t.cfg.sineEn) = true := by
  decide +kernel

/-- O2: the hypotheses hold of a device that is up, and 5 ns pass. -/
theorem test_idle : Canonical up ∧ up.pending = [] ∧ up.dev.released = true
    ∧ after (step up) (fun t => t.dev.timeBase == 5) = true :=
  ⟨canon_canonical _ (by decide +kernel), by decide +kernel⟩
theorem test_idle_before_release : Canonical State.reset ∧ State.reset.dev.released = false :=
  ⟨canon_canonical _ (by decide +kernel), by decide +kernel⟩

/-- O3, and the checks of Instr.wf: each refuses an ill-formed term. -/
theorem test_wf_refuses :
    Instr.wf (.nop (.fwd 0)) = false ∧ Instr.wf (.sqDoorbell (.fwd 3) 0) = false ∧ Instr.wf (.packConversion ⟨0, none⟩ 65536) = false
    ∧ Instr.wf (.lanternPassComplete [(69632, 0)]) = false ∧ Instr.wf (.timeLatchRead 0x700004 4) = false
    ∧ Instr.wf (.timeLatchRead 0x6FFFFC 4) = false ∧ Instr.wf (.registerWrite 0 false 2 [(0, 0xF)]) = false
    ∧ Instr.wf (.registerWrite 0 false 0 []) = false ∧ Instr.wf (.pitchWindowWrite 0 0 []) = false
    ∧ Instr.wf (.tempSample [0, 0, 0, 0, 0, 0]) = false ∧ Instr.wf (.railTelemetryAvs [none]) = false
    ∧ Instr.wf (.railTelemetryPmbus []) = false ∧ Instr.wf (.strokeScanEnd 0 0 [0] none) = false
    ∧ Instr.wf (.sineTestStroke 0 []) = false
    ∧ Instr.wf (.pitchSlot 0 0 [1]) = false ∧ Instr.wf (.maintenanceSlot 0 0 []) = false
    ∧ Instr.wf (.portTrainingComplete 0 4096 0) = false ∧ Instr.wf (.linkIdleFlit 0 ⟨[], [], 0, 0, false⟩) = false
    ∧ Instr.wf (.linkDataMessage 0 []) = false ∧ Instr.wf (.linkDataMessage 0 [⟨[], [], 0, 0, false⟩]) = false
    ∧ Instr.wf (.messageTimeout 0 0 4096 0) = false ∧ Instr.wf (.messageTimeout 0 0 0 65536) = false
    ∧ Instr.wf (.runComplete ⟨⟨.admin, 0⟩, some ⟨0xA000, 0⟩⟩) = false ∧ Instr.wf (.veFetchStart ⟨0, some ⟨0x6020, 0⟩⟩) = false
    ∧ Instr.wf (.selftestComplete ⟨true, true, true, [⟨0, 0, false, [], [], []⟩], [], []⟩) = false
    ∧ Instr.wf (.groupPollTimeout 4096) = false ∧ Instr.wf (.groupStatusAnswerTimeout ⟨.admin, 0⟩ 4096) = false := by
  decide +kernel
theorem test_wf_accepts : Instr.wf (.timeLatchRead 0x6FFFFC 8) = true ∧ Instr.wf (.tempSample [0, 0, 0, 0, 0, 0, 0]) = true
    ∧ Instr.wf (.maintenanceSlot 0 0 (List.replicate 520 0)) = true ∧ Instr.wf (.run (.ctx 15)) = true := by decide +kernel

/-- O4 and O6: a device in SAFE whose next command resets nothing. -/
def safeState : State := { act with dev := { act.dev with st := .safe, safeCause := 6, faultN := true }, pending := [.pllLock] }
theorem test_safe_stays : Canonical safeState ∧ safeState.dev.st = .safe
    ∧ (∀ c, safeState.pending.head? = some c → resets c = false)
    ∧ after (step safeState) (fun t => t.dev.st == .safe && t.dev.safeCause == 6) = true :=
  ⟨canon_canonical _ (by decide +kernel), rfl, by intro c h; cases h; rfl, by decide +kernel⟩

/-! ## Checks, NOP, IDENTIFY, statistics, signatures (O7 to O11) -/

/-- O7: the reserved bits of CTXCLS are set, so the packet fails check 3 with BAD_PARAM. -/
theorem test_check_fails : let p := pkt .nop 0xD0 5 []
    let s := offer up .admin p
    Memory.wf s.host ∧ (s.queue .admin).fetched.head? = some p ∧ p.opcode = Op.nop.code ∧ s.examinable .admin = true
    ∧ s.admission .admin .nop p = some .badParam ∧ answerOf (exec (.nop .admin) s) = some (0x11, 0, 0, 0) := by decide +kernel
/-- O7: another opcode is next. -/
theorem test_other_opcode : let s := offer up .admin (pkt .nop 0x10 5 [])
    (s.queue .admin).fetched.head?.all (fun p => p.opcode != Op.fence.code) = true
    ∧ after (exec (.fence .admin) s) (· == s) = true := by decide +kernel

/-- O8: RUN fails in SAFE; a CLOSING context refuses a PITCH_BEGIN with STATE. -/
theorem test_safe_refuses_run : safeState.dev.st = .safe ∧ safeState.admission (.ctx 0) .run (pkt .run 0x10 1 []) = some .fault
    ∧ safeState.admission .admin .nop (pkt .nop 0x10 1 []) = none := by decide +kernel
def closing : State := act.modCtx 3 (fun x => { x with st := .closing })
theorem test_closing_refuses : let p := pkt .pitchBegin 0x13 1 []
    (closing.ctx 3).st = .closing ∧ closing.dev.st ≠ .safe ∧ Op.queueOk .pitchBegin (.ctx 3) = true
    ∧ Op.classOk .pitchBegin p.cls = true ∧ p.headerRsvOk = true ∧ p.paramRsvOk .pitchBegin = true
    ∧ p.batchFieldsOk .pitchBegin = true ∧ addrRsvOk p.dataAddr = true ∧ addrRsvOk p.resultAddr = true ∧ p.ctx = 3
    ∧ closing.cmds.any (fun x => decide (x.ref = ⟨.ctx 3, p.tag⟩)) = false
    ∧ closing.admission (.ctx 3) .pitchBegin p = some .state := by decide +kernel

/-- O9: NOP with and without a length. -/
theorem test_nop : let p := pkt .nop 0x10 7 []
    Presents (offer up .admin p) .admin .nop p ∧ answerOf (exec (.nop .admin) (offer up .admin p)) = some (0, 0, 0, 0) :=
  ⟨shown_presents _ _ _ _ (by decide +kernel), by decide +kernel⟩
theorem test_nop_length : let p := pkt .nop 0x10 7 [(8, 4, 1)]
    Presents (offer up .admin p) .admin .nop p ∧ answerOf (exec (.nop .admin) (offer up .admin p)) = some (0x11, 0, 0, 0) :=
  ⟨shown_presents _ _ _ _ (by decide +kernel), by decide +kernel⟩
/-- O9: IDENTIFY at the least capacity, and one byte below it. -/
theorem test_identify : let p := pkt .identify 0x10 7 [(8, 4, 4096), (24, 8, 0x20000)]
    Presents (offer up .admin p) .admin .identify p ∧ p.hostResult = some 0x20000 ∧ 4096 ≤ p.length :=
  ⟨shown_presents _ _ _ _ (by decide +kernel), by decide +kernel⟩
theorem test_identify_short : let p := pkt .identify 0x10 7 [(8, 4, 4095), (24, 8, 0x20000)]
    Presents (offer up .admin p) .admin .identify p ∧ p.hostResult = some 0x20000 ∧ p.length < 4096
    ∧ answerOf (exec (.identify .admin) (offer up .admin p)) = some (0x11, 0, 0, 0) :=
  ⟨shown_presents _ _ _ _ (by decide +kernel), by decide +kernel⟩

/-- O10: the drop counter, read and cleared. -/
def dropped : State := { up with env := { up.env with p2pDrop := 9 } }
theorem test_stats_drop : let p := pkt .statsRead 0x10 7 [(4, 2, 4), (8, 4, 4), (24, 8, 0x20000), (32, 1, 3)]
    let s := offer dropped .admin p
    Presents s .admin .statsRead p ∧ p.hostResult = some 0x20000 ∧ p.param 32 1 = 3 ∧ p.clear = true
    ∧ (s.statBytes 0 3).length ≤ p.length
    ∧ after (exec (.statsRead .admin) s) (fun t => t.env.p2pDrop == 0 && Memory.readBytes t.host 0x20000 4 == [9, 0, 0, 0]) = true :=
  ⟨shown_presents _ _ _ _ (by decide +kernel), by decide +kernel⟩
theorem test_stats_short : let p := pkt .statsRead 0x10 7 [(8, 4, 3), (24, 8, 0x20000), (32, 1, 3)]
    let s := offer dropped .admin p
    Presents s .admin .statsRead p ∧ p.length < (s.statBytes 0 3).length
    ∧ answerOf (exec (.statsRead .admin) s) = some (0x11, 0, 0, 0) :=
  ⟨shown_presents _ _ _ _ (by decide +kernel), by decide +kernel⟩
theorem test_stats_slots : let p := pkt .statsRead 0x12 7 [(4, 2, 4), (8, 4, 4096), (24, 8, 0x20000), (32, 1, 2)]
    let s := offer (act.modCtx 2 (fun x => { x with st := .opened, slots := [(1, ⟨1, 2, 3, 4⟩)] })) (.ctx 2) p
    Presents s (.ctx 2) .statsRead p ∧ p.hostResult = some 0x20000 ∧ p.clear = true
    ∧ after (exec (.statsRead (.ctx 2)) s) (fun t => (t.ctx 2).slots.isEmpty
        && field (Memory.readBytes t.host 0x20010 16) 4 4 == 2) = true :=
  ⟨shown_presents _ _ _ _ (by decide +kernel), by decide +kernel⟩

/-- O11: two slots of three signatures; a length that is no multiple of 256. -/
def signed3 : State := { up with sig := ⟨[[1], [2], [3]], 0, 3, []⟩ }
theorem test_drain : let p := pkt .signatureDrain 0x10 7 [(8, 4, 512), (24, 8, 0x20000)]
    Presents (offer signed3 .admin p) .admin .signatureDrain p ∧ p.hostResult = some 0x20000 ∧ p.length % 256 = 0
    ∧ answerOf (exec (.signatureDrain .admin) (offer signed3 .admin p)) = some (0, 0, 2, 1) :=
  ⟨shown_presents _ _ _ _ (by decide +kernel), by decide +kernel⟩
theorem test_drain_length : let p := pkt .signatureDrain 0x10 7 [(8, 4, 513), (24, 8, 0x20000)]
    Presents (offer signed3 .admin p) .admin .signatureDrain p ∧ p.length % 256 ≠ 0
    ∧ answerOf (exec (.signatureDrain .admin) (offer signed3 .admin p)) = some (0x11, 0, 0, 0) :=
  ⟨shown_presents _ _ _ _ (by decide +kernel), by decide +kernel⟩

/-! ## Environment, contexts, pitching, swing (O12 to O21) -/

/-- O12: legal fields with both halves selected, and a POLICY out of its ranges. -/
theorem test_track : let p := pkt .trackCtl 0x10 7 [(32, 4, 5), (36, 4, 0x00880208), (40, 1, 3)]
    let s := offer (act.modArr 20 (fun x => { x with kappa := 0, conv := true })) .admin p
    Presents s .admin .trackCtl p ∧ p.noAddrs = true ∧ p.param 40 1 < 4 ∧ bitOf (p.param 32 4) 2 = true
    ∧ Canonical s ∧ (bitOf (p.param 40 1) 1 = true → policyOk (p.param 36 4) = true)
    ∧ after (exec (.trackCtl .admin) s) (fun t => t.arr 20 == Arr.reset 20) = true :=
  ⟨shown_presents _ _ _ _ (by decide +kernel), by decide +kernel, by decide +kernel, by decide +kernel,
    canon_canonical _ (by decide +kernel), by decide +kernel, by decide +kernel⟩
theorem test_track_policy : let p := pkt .trackCtl 0x10 7 [(36, 4, 0xFFFFFFFF), (40, 1, 2)]
    let s := offer act .admin p
    Presents s .admin .trackCtl p ∧ p.noAddrs = true ∧ bitOf (p.param 40 1) 1 = true ∧ policyOk (p.param 36 4) = false
    ∧ answerOf (exec (.trackCtl .admin) s) = some (0x11, 0, 0, 0) :=
  ⟨shown_presents _ _ _ _ (by decide +kernel), by decide +kernel⟩
theorem test_track_register : Canonical up ∧ up.barLive = true := ⟨canon_canonical _ (by decide +kernel), by decide +kernel⟩

/-- O13: E4 to E1 is allowed here, E4 above the boot envelope is not, 5 is no envelope. -/
theorem test_envelope : let p := pkt .setEnvelope 0x10 7 [(32, 1, 1)]
    let s := offer up .admin p
    Presents s .admin .setEnvelope p ∧ p.noAddrs = true ∧ s.envelopeOk 1 = true
    ∧ after (exec (.setEnvelope .admin) s) (fun t => t.env.env == 1) = true :=
  ⟨shown_presents _ _ _ _ (by decide +kernel), by decide +kernel⟩
def bootE1 : State := { up with env := { up.env with env := 1, bootEnv := 1 } }
theorem test_envelope_refused : let p := pkt .setEnvelope 0x10 7 [(32, 1, 4)]
    let s := offer bootE1 .admin p
    Presents s .admin .setEnvelope p ∧ p.noAddrs = true ∧ s.envelopeOk 4 = false
    ∧ answerOf (exec (.setEnvelope .admin) s) = some (0x12, 0, 0, 0) :=
  ⟨shown_presents _ _ _ _ (by decide +kernel), by decide +kernel⟩
theorem test_envelope_five : let p := pkt .setEnvelope 0x10 7 [(32, 1, 5)]
    Presents (offer up .admin p) .admin .setEnvelope p ∧ p.noAddrs = true ∧ 4 < p.param 32 1
    ∧ answerOf (exec (.setEnvelope .admin) (offer up .admin p)) = some (0x11, 0, 0, 0) :=
  ⟨shown_presents _ _ _ _ (by decide +kernel), by decide +kernel⟩
theorem test_environment : let p := pkt .setEnvironment 0x10 7 [(32, 8, 77), (40, 2, 300), (42, 1, 4), (43, 1, 1), (44, 4, 0)]
    let s := offer up .admin p
    Presents s .admin .setEnvironment p ∧ p.noAddrs = true ∧ 1 ≤ p.param 42 1 ∧ p.param 42 1 ≤ 4 ∧ p.param 43 1 ≤ 1
    ∧ posRole (BitVec.ofNat 32 (p.param 44 4)) ≠ 3 ∧ bitsOf (p.param 44 4) 29 3 = 0 ∧ s.envelopeOk (p.param 42 1) = true
    ∧ s.member = false ∧ after (exec (.setEnvironment .admin) s) (fun t => t.dev.timeBase == 77 && t.env.mode) = true :=
  ⟨shown_presents _ _ _ _ (by decide +kernel), by decide +kernel⟩
/-- O13: SET_ENVIRONMENT with an envelope above the boot envelope, with the role 3 of POSITION, and at a member that would move. -/
theorem test_environment_refused : let p := pkt .setEnvironment 0x10 7 [(32, 8, 77), (40, 2, 300), (42, 1, 4), (44, 4, 0)]
    let r := pkt .setEnvironment 0x10 7 [(42, 1, 4), (44, 4, 3)]
    let s := offer bootE1 .admin p
    Presents s .admin .setEnvironment p ∧ p.noAddrs = true ∧ posRole (BitVec.ofNat 32 (p.param 44 4)) ≠ 3 ∧ s.envelopeOk 4 = false
    ∧ answerOf (exec (.setEnvironment .admin) s) = some (0x12, 0, 0, 0)
    ∧ posRole (BitVec.ofNat 32 (r.param 44 4)) = 3 ∧ answerOf (exec (.setEnvironment .admin) (offer up .admin r)) = some (0x11, 0, 0, 0) :=
  ⟨shown_presents _ _ _ _ (by decide +kernel), by decide +kernel⟩
theorem test_environment_moved : let s := { up with env := { up.env with position := 65 }, group := { Group.reset with configured := true } }
    let p := pkt .setEnvironment 0x10 7 [(42, 1, 4), (44, 4, 129)]
    s.member = true ∧ BitVec.ofNat 32 (p.param 44 4) ≠ s.env.position ∧ bitsOf (p.param 44 4) 29 3 = 0
    ∧ answerOf (exec (.setEnvironment .admin) (offer s .admin p)) = some (0x12, 0, 0, 0) := by decide +kernel
theorem test_die_off : let s := up.modArr (arrIdx 64 0) (fun x => { x with kappa := 0 })
    Canonical s ∧ diePowered s.env.env 1 = true ∧ diePowered 1 1 = false ∧ (s.setEnvelope 1).arr (arrIdx 64 0) = Arr.reset (arrIdx 64 0) :=
  ⟨canon_canonical _ (by decide +kernel), by decide +kernel⟩

/-- O14: CTX_OPEN on a READY device; without the environment it answers STATE. -/
theorem test_open : let p := pkt .ctxOpen 0x14 7 []
    let s := offer up .admin p
    Presents s .admin .ctxOpen p ∧ p.noAddrs = true ∧ s.env.envSet = true ∧ s.env.trimLoaded = true ∧ s.parties .admin .ctxOpen = []
    ∧ after (exec (.ctxOpen .admin) s) (fun t => t.dev.st == .active && (t.ctx 4).st == .opened) = true :=
  ⟨shown_presents _ _ _ _ (by decide +kernel), by decide +kernel⟩
theorem test_open_early : let p := pkt .ctxOpen 0x14 7 []
    let s := offer { up with env := { up.env with trimLoaded := false } } .admin p
    Presents s .admin .ctxOpen p ∧ p.noAddrs = true ∧ s.env.trimLoaded = false
    ∧ answerOf (exec (.ctxOpen .admin) s) = some (0x12, 0, 0, 0) :=
  ⟨shown_presents _ _ _ _ (by decide +kernel), by decide +kernel⟩

/-- A manifest with one array layer of 4 by 4 weights on one array, and one shard. -/
def layer0 : Layer := ⟨bytesOf 256 [(0, 1, 1), (1, 1, 1), (3, 1, 0x14), (4, 1, 1), (8, 4, 4), (12, 4, 4), (16, 1, 0), (17, 1, 1),
  (18, 1, 0), (84, 4, 1), (88, 2, 2), (90, 2, 1), (96, 4, 1)]⟩
def man0 : Manifest := ⟨bytesOf 128 [(44, 2, 1), (52, 4, 4096)], [layer0], [bytesOf 8 []], [bytesOf 64 [(8, 4, 64), (12, 1, 1)]]⟩
def assign0 : Assign := ⟨0, 0, 0, 0, false, false, false, 17, 18⟩
def gen0 : Generation := ⟨1, man0, [assign0], [(0, 1), (1, 0), (2, 0), (3, 0)], 0, 0, [], [], [], []⟩
def pitch0 : Pitch := ⟨gen0, [], 4, [], 16, 16, 0, 0, 10000, true, true, none, none, [], none⟩
/-- Context 2 pitches generation 1 onto array 0 of crew 0. -/
def pitching : State := act.modCtx 2 (fun x => { x with st := .pitching, pitch := some pitch0 })
/-- Context 2 runs generation 1. -/
def live : State :=
  (act.modCtx 2 (fun x => { x with st := .live, live := 1, adm := 1, gens := [gen0], w0 := 1 })).modCrew 0
    (fun x => x.setBinding 0 false (bindingOf 2 1 layer0 assign0))

/-- O15: CTX_CLOSE, and its completion with nothing else in flight. -/
theorem test_close : let p := pkt .ctxClose 0x12 7 []
    let s := offer live .admin p
    Presents s .admin .ctxClose p ∧ p.noAddrs = true ∧ s.parties .admin .ctxClose = []
    ∧ after (exec (.ctxClose .admin) s) (fun t => (t.ctx 2).st == .closing && t.cmds.length == 1) = true :=
  ⟨shown_presents _ _ _ _ (by decide +kernel), by decide +kernel⟩
def closeCmd0 : Cmd := mkCmd live .admin (pkt .ctxClose 0x12 7 []) false .close
def closing2 : State :=
  { (live.modCtx 2 (fun x => { x with st := .closing, closeCmd := some ⟨.admin, 7⟩ })).modQueue .admin
      (fun x => { x with enable := true, cqBase := 0x10000 }) with cmds := [closeCmd0] }
theorem test_close_complete : Memory.wf closing2.host ∧ (closing2.ctx 2).st = .closing ∧ closing2.dev.st ≠ .safe
    ∧ closing2.closeWaits 2 = false ∧ (closing2.ctx 2).closeCmd = some ⟨.admin, 7⟩ ∧ closing2.cmd? ⟨.admin, 7⟩ = some closeCmd0
    ∧ Alone closeCmd0 ∧ (closing2.ctx 2).pitch = none
    ∧ (∀ y ∈ closing2.cmds, y.isShard 2 = false ∧ y.pkt.opcode ≠ 0x33 ∧ y.pkt.opcode ≠ 0x34)
    ∧ (∀ k, k < 16 → k ≠ 2 → (closing2.ctx k).st = .closed)
    ∧ after (exec (.ctxCloseComplete 2) closing2) (fun t => (t.ctx 2).st == .closed && t.dev.st == .ready) = true
    ∧ answerOf (exec (.ctxCloseComplete 2) closing2) = some (0, 0, 0, 0) := by decide +kernel

/-- O17: a shard whose length is wrong, an index accepted before, one that waits behind another, and a completion. -/
def shardPkt : Packet := pkt .pitchShard 0x12 9 [(8, 4, 65), (16, 8, 0x40000), (32, 2, 1), (36, 4, 0)]
theorem test_shard_length : let s := offer pitching (.ctx 2) shardPkt
    Presents s (.ctx 2) .pitchShard shardPkt ∧ (s.ctx 2).pitch = some pitch0 ∧ shardPkt.param 32 2 = pitch0.g.gen
    ∧ shardPkt.param 36 4 < pitch0.g.man.nshard ∧ shardPkt.resultAddr = 0
    ∧ shardSource s 2 pitch0 shardPkt = some (.host 0x40000) ∧ pitch0.exec = none ∧ pitch0.commit = none
    ∧ (s.ctx 2).st ≠ .committed ∧ (∀ x ∈ s.cmds, x.isShard 2 = false ∧ x.ref ≠ ⟨.ctx 2, 9⟩)
    ∧ shardPkt.length ≠ stLen (pitch0.g.man.shards.getD 0 [])
    ∧ answerOf (exec (.pitchShard (.ctx 2)) s) = some (0x16, 0, 0, 0) :=
  ⟨shown_presents _ _ _ _ (by decide +kernel), by decide +kernel⟩
theorem test_shard_again : let pt := { pitch0 with accepted := [(0, [])] }
    let s := offer (pitching.modCtx 2 (fun x => { x with pitch := some pt })) (.ctx 2) shardPkt
    Presents s (.ctx 2) .pitchShard shardPkt ∧ pt.accepted.any (fun e => e.1 == 0) = true
    ∧ answerOf (exec (.pitchShard (.ctx 2)) s) = some (0, 0, 0, 0) :=
  ⟨shown_presents _ _ _ _ (by decide +kernel), by decide +kernel⟩
def shardCmd : Cmd := mkCmd pitching (.ctx 2) { shardPkt with bytes := bytesOf 64 [(0, 1, 0x11), (1, 1, 0x12), (2, 2, 3), (32, 2, 1)] } false (.shard 0)
def executing : State :=
  { (pitching.modCtx 2 (fun x => { x with pitch := some { pitch0 with
        accepted := [(0, bytesOf 64 [(12, 1, 7)])], exec := some ⟨.ctx 2, 3⟩, timerOn := false } })).modQueue (.ctx 2)
      (fun x => { x with enable := true, cqBase := 0x10000 }) with cmds := [shardCmd] }
theorem test_shard_waits : let s := offer executing (.ctx 2) shardPkt
    Presents s (.ctx 2) .pitchShard shardPkt ∧ ((s.ctx 2).pitch.bind (·.exec)).isSome = true
    ∧ after (exec (.pitchShard (.ctx 2)) s) (fun t => t.cmds.length == 2) = true :=
  ⟨shown_presents _ _ _ _ (by decide +kernel), by decide +kernel⟩
theorem test_shard_complete : Canonical executing ∧ executing.cmd? ⟨.ctx 2, 3⟩ = some shardCmd ∧ Alone shardCmd
    ∧ (∀ y ∈ executing.cmds, y.isShard 2 = true → y.ref = ⟨.ctx 2, 3⟩)
    ∧ after (exec (.pitchShardComplete ⟨2, none⟩) executing) (fun t => t.cmds.isEmpty && (match (t.ctx 2).pitch with
        | some p => p.timerOn && p.exec.isNone
        | none => false)) = true :=
  ⟨canon_canonical _ (by decide +kernel), by decide +kernel⟩
/-- O17: a dword of the source in which HBM has found an error; contents of the right digest that are those of no shard. -/
theorem test_shard_parity : let p := pkt .pitchShard 0x12 9 [(8, 4, 64), (16, 8, 2 ^ 63), (32, 2, 1), (36, 4, 0)]
    let s := offer (pitching.modCtx 2 (fun x => { x with w0 := 1, bad := [(8, err0)] })) (.ctx 2) p
    Presents s (.ctx 2) .pitchShard p ∧ shardSource s 2 pitch0 p = some (.work 0) ∧ s.sourceErr 2 (.work 0) p.length = some err0
    ∧ crewHop (bitsOf err0.hop.toNat 12 4) = false ∧ answerOf (exec (.pitchShard (.ctx 2)) s) = some (0x22, 0, 0, 0)
    ∧ after (exec (.pitchShard (.ctx 2)) s) (fun t => t.sig.seq == 1) = true :=
  ⟨shown_presents _ _ _ _ (by decide +kernel), by decide +kernel⟩
def zeroShard : List Byte :=
  bytesOf 16 [(8, 4, 64), (12, 1, 1)]
    ++ beBytes 48 0xc516aa8d3b457c636c6826937099c0d23a13f2c3701a388b3c8fe4bc2073281b0c4462610369884c4ababa8e97b6debe
theorem test_shard_contents : let p := pkt .pitchShard 0x12 9 [(8, 4, 64), (16, 8, 0x40000), (32, 2, 1), (36, 4, 0)]
    let pt := { pitch0 with g := { gen0 with man := { man0 with shards := [zeroShard] } } }
    let s := offer (pitching.modCtx 2 (fun x => { x with pitch := some pt })) (.ctx 2) p
    Presents s (.ctx 2) .pitchShard p ∧ p.length = stLen (pt.g.man.shards.getD 0 []) ∧ shardSource s 2 pt p = some (.host 0x40000)
    ∧ sha384 (s.readAt 2 (.host 0x40000) p.length) = stDigest (pt.g.man.shards.getD 0 [])
    ∧ (s.popFetched (.ctx 2)).shardContent 2 pt 0 (s.readAt 2 (.host 0x40000) p.length) = none
    ∧ (∀ x ∈ s.cmds, x.inContext 2 = false ∨ x.pkt.opcode ≠ 0x10)
    ∧ answerOf (exec (.pitchShard (.ctx 2)) s) = some (0x11, 0, 0, 0)
    ∧ after (exec (.pitchShard (.ctx 2)) s) (fun t => (t.ctx 2).st == .opened && (t.ctx 2).pitch.isNone && !(t.ctx 2).abortMark) = true :=
  ⟨shown_presents _ _ _ _ (by decide +kernel), by decide +kernel⟩
/-- An entry of a portable package whose shards are there: four rows of weights, and the scales of its slice. -/
def packPitch : Pitch :=
  { pitch0 with
    g := { gen0 with man := { man0 with hdr := bytesOf 128 [(6, 1, 1), (44, 2, 1), (52, 4, 4096)] } }
    accepted := [(0, bytesOf 256 [(12, 1, 6), (30, 2, 4)]), (1, bytesOf 256 [(12, 1, 5)])] }
theorem test_pack : let s := pitching.modCtx 2 (fun x => { x with pitch := some packPitch })
    packPitch.g.man.entries.find? (fun e => e.1 == 0) = some (0, 0) ∧ packPitch.g.man.portable = true
    ∧ packPitch.packed.contains 0 = false ∧ portableReady packPitch 0 0 = true ∧ packPitch.commit = none
    ∧ packPitch.g.man.entries.find? (fun e => e.1 == 9) = none
    ∧ after (exec (.packConversion ⟨2, some err0⟩ 0) s) (fun t => t.sig.seq == 1 && (match (t.ctx 2).pitch with
        | some p => p.accepted.map (·.1) == [1]
        | none => false)) = true := by decide +kernel
theorem test_pack_not_portable : (pitching.ctx 2).pitch = some pitch0
    ∧ pitch0.g.man.entries.find? (fun e => e.1 == 0) = some (0, 0) ∧ pitch0.g.man.portable = false
    ∧ after (exec (.packConversion ⟨2, none⟩ 0) pitching) (· == pitching) = true := by decide +kernel

/-- O18: shards missing; all there and every array programmed. -/
theorem test_commit_missing : missingShards pitch0 = [0] ∧ pitching.commitCheck pitch0 = some (.shardMissing, 1, 0) := by decide +kernel
/-- O18: the PITCH_COMMIT that finds the shard missing aborts the pitch. -/
theorem test_commit_fails : let p := pkt .pitchCommit 0x12 5 [(32, 2, 1)]
    let s := offer pitching (.ctx 2) p
    Presents s (.ctx 2) .pitchCommit p ∧ (s.ctx 2).pitch = some pitch0 ∧ s.parties (.ctx 2) .pitchCommit = []
    ∧ s.commitCheck pitch0 = some (.shardMissing, 1, 0) ∧ pitch0.commit = none ∧ pitch0.exec = none ∧ s.cmds = []
    ∧ answerOf (exec (.pitchCommit (.ctx 2)) s) = some (0x17, 0, 1, 0)
    ∧ after (exec (.pitchCommit (.ctx 2)) s) (fun t => (t.ctx 2).st == .opened && (t.ctx 2).pitch.isNone && !(t.ctx 2).abortMark) = true :=
  ⟨shown_presents _ _ _ _ (by decide +kernel), by decide +kernel⟩
def commitCmd : Cmd := { mkCmd act (.ctx 2) (pkt .pitchCommit 0x12 5 [(32, 2, 1)]) false .commit with gen := 1 }
def committing : State :=
  { ((act.modCtx 2 (fun x => { x with
        st := .committing, pitch := some { pitch0 with timerOn := false, commit := some ⟨.ctx 2, 5⟩ } })).modArr 0
      (fun x => { x with prog := some ⟨2, 1, 0, 0, [], 0, 0, [], [], []⟩ })).modQueue (.ctx 2)
        (fun x => { x with enable := true, cqBase := 0x10000 }) with cmds := [commitCmd] }
theorem test_commit_complete : Memory.wf committing.host ∧ committing.cmd? ⟨.ctx 2, 5⟩ = some commitCmd ∧ Alone commitCmd
    ∧ committing.programmed 2 gen0 = true
    ∧ after (exec (.pitchCommitComplete 2) committing) (fun t => (t.ctx 2).st == .committed && t.cmds.isEmpty
        && (t.crew 0).binding 0 false == bindingOf 2 1 layer0 assign0) = true := by decide +kernel
theorem test_commit_unprogrammed : let s := committing.modArr 0 (fun x => { x with prog := none })
    s.programmed 2 gen0 = false ∧ after (exec (.pitchCommitComplete 2) s) (· == s) = true := by decide +kernel
/-- O18: the checks of PITCH_COMMIT pass where the manifest has no entry that is not complete and its key is there. -/
def man1 : Manifest := { man0 with layers := [⟨bytesOf 256 [(0, 1, 2), (1, 1, 1), (4, 1, 1), (8, 4, 1), (12, 4, 1), (96, 4, 1)]⟩], places := [] }
def pitch1 : Pitch := { pitch0 with g := { gen0 with man := man1, assigns := [] }, accepted := [(0, [])] }
theorem test_commit : let p := pkt .pitchCommit 0x12 5 [(32, 2, 1)]
    let s := offer { pitching.modCtx 2 (fun x => { x with pitch := some pitch1 }) with
      sec := { Sec.reset with keys := [(0, some ⟨[], bytesOf 8 []⟩)] } } (.ctx 2) p
    Presents s (.ctx 2) .pitchCommit p ∧ (s.ctx 2).pitch = some pitch1 ∧ p.noAddrs = true ∧ p.param 32 2 = pitch1.g.gen
    ∧ s.parties (.ctx 2) .pitchCommit = [] ∧ s.commitCheck pitch1 = none
    ∧ after (exec (.pitchCommit (.ctx 2)) s) (fun t => (t.ctx 2).st == .committing) = true :=
  ⟨shown_presents _ _ _ _ (by decide +kernel), by decide +kernel⟩

/-- O19: an abort without a live generation, and the timer. -/
theorem test_abort : let p := pkt .pitchAbort 0x12 5 [(32, 2, 1)]
    let s := offer pitching (.ctx 2) p
    Presents s (.ctx 2) .pitchAbort p ∧ (s.ctx 2).pitch = some pitch0 ∧ p.noAddrs = true ∧ p.param 32 2 = pitch0.g.gen
    ∧ s.parties (.ctx 2) .pitchAbort = [] ∧ (∀ x ∈ s.cmds, x.isShard 2 = false)
    ∧ after (exec (.pitchAbort (.ctx 2)) s) (fun t => (t.ctx 2).st == .opened && (t.ctx 2).aborted == 1) = true :=
  ⟨shown_presents _ _ _ _ (by decide +kernel), by decide +kernel⟩
theorem test_timeout : (pitching.ctx 2).pitch = some pitch0 ∧ pitching.member = false ∧ pitch0.timerOn = true
    ∧ pitching.cmds = [] ∧ after (exec (.pitchTimeout 2) pitching) (fun t => (t.ctx 2).abortMark && (t.queue (.ctx 2)).evt0
        && t.sig.seq == 1) = true := by decide +kernel

/-- O20: a write that ends at the end of its slot, and one that goes past it. -/
theorem test_window : pitching.barLive = true ∧ (pitching.ctx 2).st.inPitch = true ∧ 3 < pitch0.nstage
    ∧ Memory.wf pitch0.stage ∧ 0x23FFFFFE % 2 ^ 32 / 2 ^ 28 = 2
    ∧ after (exec (.pitchWindowWrite 0 0x23FFFFFE [1, 2]) pitching) (fun t => (match (t.ctx 2).pitch with
        | some p => Memory.readBytes p.stage (windowKey 3 0xFFFFFE) 2 == [1, 2]
        | none => false)) = true := by decide +kernel
theorem test_window_past : after (exec (.pitchWindowWrite 0 0x23FFFFFE [1, 2, 3]) pitching) (fun t =>
    t.env.p2pDrop == 1 && t.sig.seq == 1 && t.ctxs == pitching.ctxs) = true := by decide +kernel
theorem test_window_vf : let s := { pitching with dev := { pitching.dev with vfEn := 4 } }
    s.dev.vfEn.getLsbD (3 - 1) = true ∧ after (exec (.pitchWindowWrite 3 0 [9]) s) (fun t => t.env.p2pDrop == 0) = true := by
  decide +kernel

/-- O21: SWING of the committed generation while its array has not swung, and the swing of the array. -/
def committed : State :=
  (act.modCtx 2 (fun x => { x with st := .committed, pitch := some { pitch0 with g := { gen0 with assigns := [{ assign0 with plane := true }] } } })).modCrew 0
    (fun x => x.setBinding 0 true (bindingOf 2 1 layer0 assign0))
theorem test_swing : let p := pkt .swing 0x12 6 [(32, 2, 1)]
    let s := offer committed (.ctx 2) p
    Canonical s ∧ Presents s (.ctx 2) .swing p ∧ p.noAddrs = true ∧ s.parties (.ctx 2) .swing = []
    ∧ (s.ctx 2).generation 1 = none ∧ (∀ x ∈ s.cmds, x.ref ≠ ⟨.ctx 2, 6⟩) ∧ s.swung { assign0 with plane := true } = false
    ∧ after (exec (.swing (.ctx 2)) s) (fun t => (t.ctx 2).st == .draining && (t.ctx 2).adm == 1 && t.cmds.length == 1) = true :=
  ⟨canon_canonical _ (by decide +kernel), shown_presents _ _ _ _ (by decide +kernel), by decide +kernel⟩
def swinging : State :=
  { committed.modCtx 2 (fun x => { x with
      st := .draining, adm := 1, gens := [{ gen0 with assigns := [{ assign0 with plane := true }] }], pitch := none,
      swingCmd := some ⟨.ctx 2, 6⟩ }) with cmds := [{ mkCmd act (.ctx 2) (pkt .swing 0x12 6 [(32, 2, 1)]) false .swing with gen := 1 }] }
theorem test_array_swing : swinging.isSpare 0 = false ∧ (swinging.crew 0).benched = false ∧ swinging.dev.st = .active
    ∧ (swinging.swingTarget 0 0).isSome = true ∧ swinging.swingReady 2 0 0 = true
    ∧ after (exec (.arraySwing 0 0) swinging) (fun t => (t.arr 0).ground && (t.arr 0).rate == 1 && (t.ctx 2).st == .live
        && (t.ctx 2).live == 1) = true := by decide +kernel
theorem test_array_swing_spare : swinging.isSpare (arrIdx 0 16) = true
    ∧ after (exec (.arraySwing 0 16) swinging) (· == swinging) = true := by decide +kernel

/-- O16: a signed manifest of one bivouac-tier layer and one shard. Its publisher's key point is chosen after the text, so that
the signature has r = s = the digest; the KEY_ID in the slot is the one that the manifest names. -/
def sigManifest : List Byte :=
  bytesOf 128 [(0, 4, 0x464D5A56), (4, 2, 1), (16, 2, 0x09A4), (20, 4, 544), (24, 4, 1), (28, 4, 1), (32, 4, 128), (40, 4, 384),
      (44, 2, 1), (48, 4, 1), (52, 4, 4096), (56, 8, 2)]
    ++ bytesOf 256 [(0, 1, 2), (1, 1, 1), (4, 1, 1), (8, 4, 1), (12, 4, 1), (88, 2, 2), (96, 4, 1), (100, 4, 1)]
    ++ bytesOf 64 [(8, 4, 64), (12, 1, 3)]
    ++ beBytes 48 0xeb5cbc061a1acb020cd7934980542c1dd440fa49c07582bf121fc3c3fc376b6d602c0f48abf6023629d79a4ff3020ef9
    ++ beBytes 48 0xeb5cbc061a1acb020cd7934980542c1dd440fa49c07582bf121fc3c3fc376b6d602c0f48abf6023629d79a4ff3020ef9
def sigPoint : List Byte :=
  4 :: beBytes 48 0x2bc412bf2df4f82f1a89149b815725f7fbfb0590503586697a02f89381bf26f6aa996683905fbce48a261f0ead2597b6
    ++ beBytes 48 0x93131b38435d7706924a4ad33e173a173a55d2e2373df296b44a6d954976b989faa72d79ede91dda17d968b9be885ee5
def beginPkt : Packet := pkt .pitchBegin 0x12 4 [(8, 4, 544), (16, 8, 0x40000)]
def opened : State :=
  { act.modCtx 2 (fun x => { x with st := .opened }) with
    host := Memory.writeBytes [] 0x40000 sigManifest
    sec := { Sec.reset with keys := [(0, some ⟨sigPoint, bytesOf 8 []⟩)] } }
theorem test_begin_presents : Canonical (offer opened (.ctx 2) beginPkt)
    ∧ Presents (offer opened (.ctx 2) beginPkt) (.ctx 2) .pitchBegin beginPkt
    ∧ beginPkt.param 32 1 ≤ 16 ∧ beginPkt.resultAddr = 0
    ∧ pitchSource (offer opened (.ctx 2) beginPkt) (.ctx 2) beginPkt = some ⟨.host 0x40000, 544⟩ :=
  ⟨canon_canonical _ (by decide +kernel), shown_presents _ _ _ _ (by decide +kernel), by decide +kernel⟩
theorem test_begin_signed : signedOk sigPoint sigManifest = true := by decide +kernel
theorem test_begin_limits : (manifestOf sigManifest 544).any (fun m => m.limitsOk false && decide (field m.hdr 16 2 = 0x09A4)
    && decide (field m.hdr 18 1 ≤ stepping)) = true := by decide +kernel
theorem test_begin_fits : (manifestOf sigManifest 544).any (fun m =>
    (((offer opened (.ctx 2) beginPkt).popFetched (.ctx 2)).admitPackage 2 1 m 4 10000).isSome) = true := by decide +kernel
theorem test_begin_ok : answerOf (exec (.pitchBegin (.ctx 2)) (offer opened (.ctx 2) beginPkt)) = some (0, 0, 1, 0) := by
  decide +kernel
/-- O16: a key slot without a key, and bytes that are no manifest. -/
theorem test_begin_no_key : answerOf (exec (.pitchBegin (.ctx 2)) (offer { opened with sec := Sec.reset } (.ctx 2) beginPkt))
    = some (0x15, 0, 0, 0) := by decide +kernel
theorem test_begin_no_manifest : answerOf (exec (.pitchBegin (.ctx 2)) (offer { opened with host := [] } (.ctx 2) beginPkt))
    = some (0x11, 0, 0, 0) := by decide +kernel
/-- O16: NSTAGE above 16; a result address; an error that HBM has found in the source. -/
theorem test_begin_fields : let p := pkt .pitchBegin 0x12 4 [(8, 4, 544), (16, 8, 0x40000), (32, 1, 17)]
    let s := offer opened (.ctx 2) p
    Presents s (.ctx 2) .pitchBegin p ∧ 16 < p.param 32 1 ∧ answerOf (exec (.pitchBegin (.ctx 2)) s) = some (0x11, 0, 0, 0) :=
  ⟨shown_presents _ _ _ _ (by decide +kernel), by decide +kernel⟩
theorem test_begin_parity : let p := pkt .pitchBegin 0x12 4 [(8, 4, 544), (16, 8, 2 ^ 63)]
    let s := offer (opened.modCtx 2 (fun x => { x with w0 := 1, bad := [(8, err0)] })) (.ctx 2) p
    Presents s (.ctx 2) .pitchBegin p ∧ pitchSource s (.ctx 2) p = some ⟨.work 0, 544⟩ ∧ s.sourceErr 2 (.work 0) 544 = some err0
    ∧ answerOf (exec (.pitchBegin (.ctx 2)) s) = some (0x22, 0, 0, 0) :=
  ⟨shown_presents _ _ _ _ (by decide +kernel), by decide +kernel⟩
/-- O16: every granule is taken, so the package does not fit. -/
theorem test_begin_no_fit : (manifestOf sigManifest 544).any (fun m =>
    (((offer (opened.modCtx 5 (fun x => { x with w0 := 12032, w1 := 12288 })) (.ctx 2) beginPkt).popFetched (.ctx 2)).admitPackage
      2 1 m 4 10000).isNone) = true := by decide +kernel

/-! ## RUN, RUN_BOW, FENCE, COLLECTIVE (O22 to O28) -/

/-- A RUN of layer 0 on context 2: inputs in working space, outputs to host memory. -/
def runPkt : Packet := pkt .run 0x12 8 [(8, 4, 18), (16, 8, 2 ^ 63), (24, 8, 0x30000), (52, 4, 18)]
theorem test_run : let s := offer live (.ctx 2) runPkt
    Presents s (.ctx 2) .run runPkt ∧ s.parties (.ctx 2) .run = [] ∧ (s.ctx 2).stamp runPkt.epoch = some 1
    ∧ (s.ctx 2).generation 1 = some gen0 ∧ gen0.man.shapeCheck runPkt = none ∧ (∀ k, k < 16 → (s.ctx k).swingCmd = none)
    ∧ layer0.shapeEmpty runPkt = false ∧ s.rangeCheck 2 layer0 runPkt = true ∧ (∀ x ∈ s.cmds, x.ref ≠ ⟨.ctx 2, 8⟩)
    ∧ after (exec (.run (.ctx 2)) s) (fun t => t.cmds.map (·.gen) == [1] && (t.ctx 2).batch == some (0, 1)) = true :=
  ⟨shown_presents _ _ _ _ (by decide +kernel), by decide +kernel⟩
/-- O22: END_BATCH closes the batch; another EPOCH than that of the open batch answers STATE; a benched crew fails the command. -/
theorem test_run_end_batch : let p := pkt .run 0x12 8 [(4, 2, 1), (6, 2, 7), (8, 4, 18), (16, 8, 2 ^ 63), (24, 8, 0x30000), (52, 4, 18)]
    let s := offer (live.modCtx 2 (fun x => { x with batch := some (7, 1) })) (.ctx 2) p
    Presents s (.ctx 2) .run p ∧ (s.ctx 2).stamp p.epoch = some 1
    ∧ after (exec (.run (.ctx 2)) s) (fun t => (t.ctx 2).batch == none && t.cmds.length == 1) = true :=
  ⟨shown_presents _ _ _ _ (by decide +kernel), by decide +kernel⟩
theorem test_run_epoch : let s := offer (live.modCtx 2 (fun x => { x with batch := some (7, 1) })) (.ctx 2) runPkt
    Presents s (.ctx 2) .run runPkt ∧ (s.ctx 2).stamp runPkt.epoch = none
    ∧ answerOf (exec (.run (.ctx 2)) s) = some (0x12, 0, 0, 0) :=
  ⟨shown_presents _ _ _ _ (by decide +kernel), by decide +kernel⟩
theorem test_run_benched : let s := offer (live.modCrew 0 (fun x => { x with benched := true })) (.ctx 2) runPkt
    Presents s (.ctx 2) .run runPkt
    ∧ after (exec (.run (.ctx 2)) s) (fun t => t.cmds.map (fun c => (c.ended, c.outcome)) == [(true, .checkFail)]) = true :=
  ⟨shown_presents _ _ _ _ (by decide +kernel), by decide +kernel⟩
/-- O22 with a dynamic dimension of one bucket, 4: 5 is over it, 0 is empty. -/
def layerD : Layer := ⟨bytesOf 256 [(0, 1, 1), (1, 1, 1), (3, 1, 4), (4, 1, 1), (5, 1, 1), (8, 4, 4), (12, 4, 4), (17, 1, 1),
  (84, 4, 1), (88, 2, 2), (90, 2, 1), (96, 4, 1), (104, 4, 4)]⟩
def genD : Generation := { gen0 with man := { man0 with layers := [layerD] } }
def liveD : State := live.modCtx 2 (fun x => { x with gens := [genD] })
theorem test_run_over : let p := pkt .run 0x12 8 [(8, 4, 90), (16, 8, 2 ^ 63), (24, 8, 0x30000), (36, 4, 5), (52, 4, 90)]
    let s := offer liveD (.ctx 2) p
    Presents s (.ctx 2) .run p ∧ genD.man.shapeCheck p = some .shapeOver
    ∧ answerOf (exec (.run (.ctx 2)) s) = some (0x13, 0, 0, 0) :=
  ⟨shown_presents _ _ _ _ (by decide +kernel), by decide +kernel⟩
theorem test_run_empty : let p := pkt .run 0x12 8 [(16, 8, 2 ^ 63), (24, 8, 0x30000)]
    let s := offer liveD (.ctx 2) p
    Presents s (.ctx 2) .run p ∧ genD.man.shapeCheck p = none ∧ layerD.shapeEmpty p = true
    ∧ answerOf (exec (.run (.ctx 2)) s) = some (1, 0, 0, 0) :=
  ⟨shown_presents _ _ _ _ (by decide +kernel), by decide +kernel⟩
/-- O22: a LENGTH that is not that of the vectors. -/
theorem test_run_length : let p := pkt .run 0x12 8 [(8, 4, 19), (16, 8, 2 ^ 63), (24, 8, 0x30000), (52, 4, 18)]
    let s := offer live (.ctx 2) p
    Presents s (.ctx 2) .run p ∧ layer0.shapeEmpty p = false ∧ s.rangeCheck 2 layer0 p = false
    ∧ answerOf (exec (.run (.ctx 2)) s) = some (0x11, 0, 0, 0) :=
  ⟨shown_presents _ _ _ _ (by decide +kernel), by decide +kernel⟩

/-- A RUN in flight on its generation, with its progress. -/
def runCmd (w : RunWork) : Cmd := { mkCmd live (.ctx 2) runPkt false (.run w) with gen := 1 }
def work0 : RunWork := RunWork.start 0 layer0 1 []
def tile0 : TileId := ⟨0, 0, 0, 1, 0, 0, false⟩
def work1 : RunWork := { work0 with dispatched := true, b3 := 1, b2 := 1, toSend := [tile0], due := 1, unchecked := [(0, 0)] }
def running (w : RunWork) : State :=
  { live.modQueue (.ctx 2) (fun x => { x with enable := true, cqBase := 0x10000 }) with cmds := [runCmd w] }
def run2 : CmdRef := ⟨.ctx 2, 8⟩

/-- O23. -/
theorem test_dispatch : let s := running work0
    s.cmd? run2 = some (runCmd work0) ∧ s.runGen (runCmd work0) = some gen0 ∧ work0.trim = none ∧ work0.dispatched = false
    ∧ s.dev.st = .active ∧ s.member = false ∧ layer0.isArray = true ∧ layer0.nrep ≤ 1 ∧ s.adapterOn 2 gen0 0 = false
    ∧ Plain s ∧ after (exec (.runDispatch run2) s) (· == running { work1 with counter := some 0 }) = true := by decide +kernel
theorem test_dispatch_twice : let s := running work1
    work1.dispatched = true ∧ after (exec (.runDispatch run2) s) (· == s) = true := by decide +kernel
/-- O23 with two replicas: the counter slot of the home crew. -/
def layerR : Layer := ⟨bytesOf 256 [(0, 1, 1), (1, 1, 1), (3, 1, 4), (4, 1, 2), (8, 4, 4), (12, 4, 4), (17, 1, 1), (84, 4, 2),
  (88, 2, 3), (90, 2, 1), (96, 4, 1)]⟩
def genR : Generation :=
  { gen0 with
    man := { man0 with layers := [layerR], places := [bytesOf 8 [], bytesOf 8 [(6, 1, 1)]] }
    assigns := [assign0, { assign0 with entry := 1, crew := 1 }], maps := [(0, 30)] }
def workR : RunWork := RunWork.start 0 layerR 1 []
def workR1 : RunWork := { workR with dispatched := true, b3 := 1, b2 := 1, due := 1, unchecked := [(0, 0)], g := 1, limit := 1, slot := some (0, 0), counter := some 0 }
def runningR (w : RunWork) : State := (running w).modCtx 2 (fun x => { x with gens := [genR] })
theorem test_dispatch_replicated : let s := runningR workR
    s.cmd? run2 = some (runCmd workR) ∧ s.runGen (runCmd workR) = some genR ∧ 1 < layerR.nrep
    ∧ homeCrew genR.man genR.assigns 0 = some 0 ∧ genR.maps.find? (fun e => e.1 == 0) = some (0, 30)
    ∧ (s.crew 0).freeCounter = some 0 ∧ Plain s ∧ s.bitmapBusy (runCmd workR) workR = false ∧ s.adapterOn 2 genR 0 = false
    ∧ Memory.wf (s.crew 0).sram
    ∧ after (exec (.runDispatch run2) s) (fun t => t.cmds == [runCmd workR1]
        && Memory.readBytes (t.crew 0).sram 0x100 16 == [0, 0, 0, 0, 1, 0, 0, 0, 8, 0, 0x82, 2, 30, 0, 0, 0]) = true := by
  decide +kernel
/-- O23: every counter slot of the home crew is busy. -/
def counters32 : List Byte := (List.range 32).flatMap (fun _ => bytesOf 16 [(10, 1, 0x80)])
theorem test_dispatch_no_counter : let s := (runningR workR).modCrew 0 (fun x => { x with sram := Memory.writeBytes x.sram 0x100 counters32 })
    (s.crew 0).freeCounter = none ∧ after (exec (.runDispatch run2) s) (· == s) = true := by decide +kernel
/-- O23, a bivouac-tier layer: a free engine, and none. -/
def layerV : Layer := ⟨bytesOf 256 [(0, 1, 2), (1, 1, 1), (4, 1, 1), (8, 4, 4), (12, 4, 4), (96, 4, 1)]⟩
def genV : Generation := { gen0 with man := { man0 with layers := [layerV], places := [] }, assigns := [] }
def runningV : State := (running (RunWork.start 0 layerV 1 [])).modCtx 2 (fun x => { x with gens := [genV] })
theorem test_dispatch_bivouac : runningV.runGen (runCmd (RunWork.start 0 layerV 1 [])) = some genV
    ∧ layerV.isArray = false ∧ layerV.bivHere = true ∧ runningV.dev.st = .active ∧ runningV.ves = [] := by decide +kernel
theorem test_dispatch_bivouac_wait : let w := RunWork.start 0 layerV 1 []
    runningV.waitOf (runCmd w) { w with dispatched := true, due := runningV.dueRemote (runCmd w) w, remote := false } = some none
    ∧ w.veNext = 0 ∧ ∀ y ∈ runningV.cmds, y.ref ≠ run2 → runningV.rowOf y.ref = [] := by decide +kernel
theorem layerVes_ne_nil (s : State) (h : (List.range 4).filter (diePowered s.env.env) ≠ []) : s.layerVes ≠ [] := by
  unfold State.layerVes
  split
  · contradiction
  · simp
theorem test_dispatch_bivouac_room : runningV.layerVes ≠ [] ∧ ∀ u ∈ runningV.layerVes, (runningV.ve u).room = true :=
  ⟨layerVes_ne_nil _ (by decide +kernel), fun u _ => by simp [State.ve, test_dispatch_bivouac.2.2.2.2, Ve.room, Ve.dflt, Ve.reset]⟩
/-- O23: every ring is full, or no die is powered. -/
def fullDesc : Desc :=
  { ref := run2, ctx := 2, stern := false, idx := 0, wait := none, signal := none, hbmSignal := none, own := (0, 0), inp := (0, 0)
    resident := false, release := true, freeInp := true, fetched := false, started := false, done := 0, bursts := 1, blk := (34, 34)
    last := true, op := .layer 0 }
theorem test_dispatch_ring_full : let s := { runningV with ves := (List.range 32).map (fun u => (u, { Ve.dflt u with ring := [fullDesc] })) }
    ∀ u, u < 32 → (s.ve u).room = false := by decide +kernel

/-- O24: complete, not complete, and failed. -/
theorem test_run_complete : let w := { work1 with toSend := [], due := 0 }
    let s := running w
    s.cmd? run2 = some (runCmd w) ∧ w.trim = none ∧ (runCmd w).localEnd = none ∧ Lone (runCmd w) ∧ Canonical s ∧ Plain s
    ∧ s.unwait w.counter = s
    ∧ (∀ k, k < 16 → (s.ctx k).swingCmd = none) ∧ w.layer.isBow = false ∧ s.runEnded (runCmd w) w = true
    ∧ answerOf (exec (.runComplete ⟨run2, none⟩) s) = some (0, 0, 0, 0)
    ∧ after (exec (.runComplete ⟨run2, some err0⟩) s) (fun t => t.sig.seq == 1 && t.cmds == []) = true :=
  ⟨by decide +kernel, by decide +kernel, by decide +kernel, by decide +kernel, canon_canonical _ (by decide +kernel), by decide +kernel⟩
theorem test_run_incomplete : (running work1).runEnded (runCmd work1) work1 = false
    ∧ after (exec (.runComplete ⟨run2, none⟩) (running work1)) (· == running work1) = true := by decide +kernel

/-- A bow-class layer on a pair of crews, each with a stroke array and a standby array. -/
def layerB : Layer := ⟨bytesOf 256 [(0, 1, 1), (3, 1, 4), (4, 1, 1), (8, 4, 4), (12, 4, 4), (17, 1, 1), (84, 4, 1), (88, 2, 2),
  (90, 2, 1), (96, 4, 1)]⟩
def genB : Generation :=
  { gen0 with
    man := { man0 with layers := [layerB] }
    assigns := [assign0, { assign0 with l := 1, standby := true }, { assign0 with crew := 64, second := true },
      { assign0 with crew := 64, l := 1, second := true, standby := true }] }
def bowLive : State :=
  { ((live.modCtx 2 (fun x => { x with gens := [genB], pairs := [(0, 64)] })).modCrew 0 (fun x => { x with
        resv := some ⟨false, 2, 64, 2⟩ })).modCrew 64 (fun x => { x with resv := some ⟨true, 2, 0, 2⟩ }) with
    bowW := [(2, 1, 0, 0x3F800000)] }
/-- O25: the input of 18 bytes in one extension entry. -/
def bowPkt : Packet := ⟨bytesOf 64 [(0, 1, 0x21), (1, 1, 2), (2, 2, 8), (8, 4, 18), (24, 8, 0x30000), (34, 1, 1), (36, 4, 18)], List.replicate 64 1, none⟩
theorem test_bow : let s := offer bowLive (.bow 2) bowPkt
    Presents s (.bow 2) .runBow bowPkt ∧ (s.ctx 2).generation (s.ctx 2).adm = some genB
    ∧ s.bowLayer 2 genB bowPkt = some layerB ∧ (∀ k, k < 16 → (s.ctx k).swingCmd = none) ∧ (∀ x ∈ s.cmds, x.ref ≠ ⟨.bow 2, 8⟩)
    ∧ after (exec (.runBow (.bow 2)) s) (fun t => t.cmds.length == 1) = true :=
  ⟨shown_presents _ _ _ _ (by decide +kernel), by decide +kernel⟩
theorem test_bow_capacity : let p := { bowPkt with bytes := bytesOf 64 [(0, 1, 0x21), (1, 1, 2), (2, 2, 8), (8, 4, 18), (24, 8, 0x30000), (34, 1, 1), (36, 4, 17)] }
    let s := offer bowLive (.bow 2) p
    Presents s (.bow 2) .runBow p ∧ s.bowLayer 2 genB p = none ∧ answerOf (exec (.runBow (.bow 2)) s) = some (0x11, 0, 0, 0) :=
  ⟨shown_presents _ _ _ _ (by decide +kernel), by decide +kernel⟩

/-- O24, O26: a RUN_BOW whose block has come from one twin. -/
def block (v : Nat) : OutBlock := ⟨0, 0, 0, 0, bytesOf 18 [(2, 1, v)]⟩
def bowCmd (w : RunWork) : Cmd := { mkCmd bowLive (.bow 2) bowPkt false (.run w) with gen := 1 }
def bowWork : RunWork := { RunWork.start 0 layerB 1 [] with dispatched := true, b3 := 1, b2 := 1, due := 1, remote := true, winW := 0x3F800000 }
def bowRun (w : RunWork) : State :=
  { bowLive.modQueue (.bow 2) (fun x => { x with enable := true, cqBase := 0x10000 }) with cmds := [bowCmd w] }
def bow2 : CmdRef := ⟨.bow 2, 8⟩
theorem test_twin_first : let w := { bowWork with fly0 := [block 1] }
    (bowRun w).cmd? bow2 = some (bowCmd w) ∧ (bowRun w).runGen (bowCmd w) = some genB ∧ (bowCmd w).ended = false
    ∧ (∀ k, k < 16 → ((bowRun w).ctx k).swingCmd = none) ∧ w.arr1.find? (OutBlock.sameBlock (block 1)) = none
    ∧ after (exec (.twinBlockArrival ⟨bow2, none⟩ false) (bowRun w)) (· == bowRun { bowWork with arr0 := [block 1] }) = true := by
  decide +kernel
/-- O26: 1 and 2 lie within W = 1 plus the spacing 1; 1 and 4 do not. -/
theorem test_twin_agree : let w := { bowWork with fly0 := [block 1], arr1 := [block 2] }
    firstDisagree layerB w.winW (block 1).bytes (block 2).bytes = none
    ∧ after (exec (.twinBlockArrival ⟨bow2, none⟩ false) (bowRun w)) (fun t => t.cmds.map (fun c => match c.work with
        | .run v => v.due
        | _ => 9) == [0]) = true := by decide +kernel
theorem test_twin_disagree : let w := { bowWork with fly0 := [block 1], arr1 := [block 4] }
    (firstDisagree layerB w.winW (block 1).bytes (block 4).bytes).isSome = true
    ∧ after (exec (.twinBlockArrival ⟨bow2, none⟩ false) (bowRun w)) (fun t => t.cmds.map (fun c => (c.ended, c.outcome)) == [(true, .checkFail)]
        && t.sig.seq == 1 && t.censusQ.contains 0) = true := by decide +kernel
/-- O26: a parity error in a block. -/
theorem test_twin_parity : let w := { bowWork with fly0 := [block 1] }
    (bowCmd w).ended = false ∧ w.fly0 ≠ [] ∧ after (exec (.twinBlockArrival ⟨bow2, some err0⟩ false) (bowRun w))
      (fun t => t.sig.seq == 1 && t.cmds.map (fun c => (c.ended, c.outcome)) == [(true, .parity)]) = true := by decide +kernel
theorem test_twin_second : let w := { bowWork with fly1 := [block 1] }
    w.arr0.find? (OutBlock.sameBlock (block 1)) = none
    ∧ after (exec (.twinBlockArrival ⟨bow2, none⟩ true) (bowRun w)) (· == bowRun { bowWork with arr1 := [block 1] }) = true := by decide +kernel
theorem test_bow_complete : let w := { bowWork with agreed := [block 3], due := 0 }
    let s := bowRun w
    s.cmd? bow2 = some (bowCmd w) ∧ w.layer.isBow = true ∧ (bowCmd w).ended = false ∧ s.runEnded (bowCmd w) w = true
    ∧ addrOf bowPkt.resultAddr = some (.host 0x30000) ∧ Lone (bowCmd w) ∧ Plain s ∧ Canonical s ∧ spoils (bowCmd w).outcome = false
    ∧ answerOf (exec (.runBowComplete ⟨bow2, none⟩) s) = some (0, 0, 18, 0)
    ∧ after (exec (.runBowComplete ⟨bow2, none⟩) s) (fun t => Memory.read t.host 0x30002 == 3) = true :=
  ⟨by decide +kernel, by decide +kernel, by decide +kernel, by decide +kernel, by decide +kernel, by decide +kernel,
    by decide +kernel, canon_canonical _ (by decide +kernel), by decide +kernel⟩
/-- O24: a RUN_BOW that failed. -/
theorem test_bow_failed : let x := { bowCmd bowWork with ended := true, outcome := .checkFail }
    let s := { bowRun bowWork with cmds := [x] }
    s.cmd? bow2 = some x ∧ bowWork.layer.isBow = true ∧ x.localEnd = none ∧ Lone x ∧ Canonical s ∧ Plain s
    ∧ (∀ k, k < 16 → (s.ctx k).swingCmd = none) :=
  ⟨by decide +kernel, by decide +kernel, by decide +kernel, by decide +kernel, canon_canonical _ (by decide +kernel), by decide +kernel⟩
/-- O26: roles of the entry on crew 0; an array between the strokes of a vector keeps its role. -/
theorem test_roles : bowLive.entryArrs 0 0 = some (0, 1) ∧ bowLive.crewUp 0 = true ∧ (bowLive.arr 0).betweenVectors = true
    ∧ (bowLive.arr 1).betweenVectors = true ∧ bowLive.entryArrs 5 0 = none
    ∧ after (exec (.twinRoleExchange 0 0) bowLive) (fun t => (t.crew 0).resv == some ⟨false, 2, 64, 1⟩) = true := by decide +kernel
def busyJob : Job := ⟨bow2, 0, 0, 0, 0, false, false, 1, false, [], ⟨1, 1, [], []⟩, ⟨1, 1, [], []⟩, true, [], []⟩
theorem test_roles_busy : let s := bowLive.modArr 1 (fun x => { x with jobs := [busyJob] })
    (s.arr 1).betweenVectors = false ∧ after (exec (.twinRoleExchange 0 0) s) (· == s) = true := by decide +kernel

/-- O27. -/
theorem test_fence : let p := pkt .fence 0x10 7 []
    Presents (offer up .admin p) .admin .fence p ∧ p.noAddrs = true
    ∧ after (exec (.fence .admin) (offer up .admin p)) (fun t => t.cmds.length == 1 && !t.examinable .admin) = true :=
  ⟨shown_presents _ _ _ _ (by decide +kernel), by decide +kernel⟩
def fenceCmd : Cmd := { mkCmd live (.ctx 2) (pkt .fence 0x12 7 []) true .fence with seq := 1 }
theorem test_fence_waits : let s := { running work1 with cmds := [runCmd work1, fenceCmd] }
    Memory.wf s.host ∧ Lone fenceCmd ∧ fenceCmd.ref.q = .ctx 2
    ∧ s.cmds.find? (fun c => decide (c.ref.q = .ctx 2) && decide (c.work = .fence)) = some fenceCmd
    ∧ (∃ c ∈ s.cmds, c.ref.q = .ctx 2 ∧ c.seq < fenceCmd.seq)
    ∧ after (exec (.fenceComplete (.ctx 2)) s) (· == s) = true := by decide +kernel
theorem test_fence_done : let s := { running work1 with cmds := [fenceCmd] }
    (∀ c ∈ s.cmds, c.ref.q = .ctx 2 → fenceCmd.seq ≤ c.seq)
    ∧ answerOf (exec (.fenceComplete (.ctx 2)) s) = some (0, 0, 0, 0) := by decide +kernel

/-- O28: a gather of this device alone, and one whose COLL_ID is 0. -/
def collPkt (coll : Nat) : Packet := pkt .collective 0x12 6 [(8, 4, 4), (16, 8, 2 ^ 63), (24, 8, 2 ^ 63 + 64), (32, 1, 1), (36, 4, coll)]
theorem test_collective : let s := offer (live.writeWork 2 0 [1, 2, 3, 4]) (.ctx 2) (collPkt 5)
    Presents s (.ctx 2) .collective (collPkt 5) ∧ s.member = false ∧ s.collOk 2 (collPkt 5) = true
    ∧ (∀ x ∈ s.cmds, x.ref ≠ ⟨.ctx 2, 6⟩) ∧ addrOf (collPkt 5).dataAddr = some (.work 0) ∧ badIn (s.ctx 2).bad 0 (collPkt 5).length = none
    ∧ after (exec (.collective (.ctx 2)) s) (fun t => t.cmds.map (fun c => match c.work with
        | .coll got _ => got
        | _ => []) == [[(0, [1, 2, 3, 4])]]) = true :=
  ⟨shown_presents _ _ _ _ (by decide +kernel), by decide +kernel⟩
theorem test_collective_bad : let s := offer live (.ctx 2) (collPkt 0)
    Presents s (.ctx 2) .collective (collPkt 0) ∧ s.collOk 2 (collPkt 0) = false
    ∧ answerOf (exec (.collective (.ctx 2)) s) = some (0x11, 0, 0, 0) :=
  ⟨shown_presents _ _ _ _ (by decide +kernel), by decide +kernel⟩
def collCmd (got : List (Nat × List Byte)) : Cmd := mkCmd live (.ctx 2) (collPkt 5) false (.coll got true)
def coll2 : CmdRef := ⟨.ctx 2, 6⟩
theorem test_collective_complete : let s := { running work0 with cmds := [collCmd [(0, [1, 2, 3, 4])]] }
    Canonical s ∧ s.cmd? coll2 = some (collCmd [(0, [1, 2, 3, 4])]) ∧ Lone (collCmd [(0, [1, 2, 3, 4])])
    ∧ s.collIn (collCmd [(0, [1, 2, 3, 4])]) [(0, [1, 2, 3, 4])] = true ∧ Memory.wf (s.ctx 2).work
    ∧ answerOf (exec (.collectiveComplete ⟨coll2, none⟩) s) = some (0, 0, 4, 0)
    ∧ after (exec (.collectiveComplete ⟨coll2, none⟩) s) (fun t => Memory.readBytes (t.ctx 2).work 64 4 == [1, 2, 3, 4]) = true
    ∧ after (exec (.collectiveComplete ⟨coll2, some err0⟩) s) (fun t => t.sig.seq == 1 && t.cmds.all (·.ended)) = true :=
  ⟨canon_canonical _ (by decide +kernel), by decide +kernel⟩
theorem test_collective_waits : let s := { running work0 with cmds := [collCmd []] }
    s.collIn (collCmd []) [] = false ∧ after (exec (.collectiveComplete ⟨coll2, none⟩) s) (· == s) = true := by decide +kernel
/-- O28: one that failed. -/
theorem test_collective_failed : let x := { collCmd [] with ended := true, outcome := .digestBad }
    let s := { running work0 with cmds := [x] }
    Canonical s ∧ s.cmd? coll2 = some x ∧ Lone x ∧ (∀ k, k < 16 → (s.ctx k).swingCmd = none)
    ∧ answerOf (exec (.collectiveComplete ⟨coll2, none⟩) s) = some (0x21, 0, 0, 0) :=
  ⟨canon_canonical _ (by decide +kernel), by decide +kernel⟩

/-! ## Trim, maintenance, training, firmware (O29 to O36) -/

/-- O29: a record of 20 bytes whose form is wrong, and a LENGTH that fits neither a record nor a record with an appendix. The key
of the factory is a constant that no proof can see, so no signed record is written out here. -/
def trimHost : State := { up with host := Memory.writeBytes [] 0x40000 (bytesOf 20 [(16, 4, 20)]) }
theorem test_trim_form : let p := pkt .trimLoad 0x10 7 [(8, 4, 20), (16, 8, 0x40000)]
    let s := offer trimHost .admin p
    Canonical s ∧ Presents s .admin .trimLoad p ∧ p.hostData = some 0x40000 ∧ p.length = field (Memory.readBytes s.host 0x40000 20) 16 4
    ∧ trimForm (Memory.readBytes s.host 0x40000 20) = false ∧ answerOf (exec (.trimLoad .admin) s) = some (0x11, 0, 0, 0) :=
  ⟨canon_canonical _ (by decide +kernel), shown_presents _ _ _ _ (by decide +kernel), by decide +kernel⟩
theorem test_trim_length : let p := pkt .trimLoad 0x10 7 [(8, 4, 21), (16, 8, 0x40000)]
    let s := offer trimHost .admin p
    Presents s .admin .trimLoad p ∧ p.length ≠ 20 ∧ p.length ≠ 20 + appendixLen
    ∧ answerOf (exec (.trimLoad .admin) s) = some (0x11, 0, 0, 0) :=
  ⟨shown_presents _ _ _ _ (by decide +kernel), by decide +kernel⟩

/-- O30. -/
def trimCmd : Cmd := mkCmd up .admin (pkt .trimLoad 0x10 7 []) true (.trim [1] [])
theorem test_lantern : let s := { up with cmds := [trimCmd] }
    Canonical s ∧ Lone trimCmd ∧ trimCmd.work = .trim [1] []
    ∧ s.cmds.find? (fun c => match c.work with | .trim _ _ => true | _ => false) = some trimCmd :=
  ⟨canon_canonical _ (by decide +kernel), by decide +kernel⟩
theorem test_no_lantern_pass : (∀ c ∈ (running work1).cmds, (match c.work with | .trim _ _ => true | _ => false) = false)
    ∧ after (exec (.lanternPassComplete []) (running work1)) (· == running work1) = true := by decide +kernel
/-- O30: the factory value of an empty record is 0; 1.0 microsiemens is kept, 1.5 gives way. -/
theorem test_lantern_values : f16Finite 0x3C00 = true ∧ absQ (f16Q 0x3C00 - f16Q (trimLantern [] 3 0 2)) ≤ 1
    ∧ ((up.setLantern [] 3 2 0x3C00).arr 3).lan.get zero16 2 = 0x3C00 ∧ 1 < absQ (f16Q 0x3E00 - f16Q (trimLantern [] 3 0 2))
    ∧ ((up.setLantern [] 3 2 0x3E00).arr 3).lanBad = true := by decide +kernel
theorem test_trim_read : let p := pkt .trimRead 0x10 7 [(8, 4, 13653040 + 9208912), (24, 8, 0x100000)]
    Presents (offer up .admin p) .admin .trimRead p ∧ p.hostResult = some 0x100000 ∧ trimLen + appendixLen ≤ p.length
    ∧ up.env.trimLoaded = true :=
  ⟨shown_presents _ _ _ _ (by decide +kernel), by decide +kernel⟩
theorem test_trim_read_early : let p := pkt .trimRead 0x10 7 [(8, 4, 13653040 + 9208912), (24, 8, 0x100000)]
    let s := offer { up with env := { up.env with trimLoaded := false } } .admin p
    Presents s .admin .trimRead p ∧ answerOf (exec (.trimRead .admin) s) = some (0x12, 0, 0, 0) :=
  ⟨shown_presents _ _ _ _ (by decide +kernel), by decide +kernel⟩
theorem test_trim_read_short : let p := pkt .trimRead 0x10 7 [(8, 4, 13653040 + 9208911), (24, 8, 0x100000)]
    Presents (offer up .admin p) .admin .trimRead p ∧ answerOf (exec (.trimRead .admin) (offer up .admin p)) = some (0x11, 0, 0, 0) :=
  ⟨shown_presents _ _ _ _ (by decide +kernel), by decide +kernel⟩

/-- O31: the array of context 2 is treated; on a device without generations nothing is. -/
theorem test_refresh : let p := pkt .refresh 0x22 7 []
    let s := offer live .admin p
    Presents s .admin .refresh p ∧ p.noAddrs = true ∧ s.treatArrs .admin p = [0]
    ∧ after (exec (.refresh .admin) s) (fun t => t.refreshQ == [0] && t.cmds.length == 1) = true :=
  ⟨shown_presents _ _ _ _ (by decide +kernel), by decide +kernel⟩
theorem test_refresh_none : let p := pkt .refresh 0x2F 7 []
    let s := offer act .admin p
    Presents s .admin .refresh p ∧ p.noAddrs = true ∧ s.treatArrs .admin p = []
    ∧ answerOf (exec (.refresh .admin) s) = some (0, 0, 0, 0) :=
  ⟨shown_presents _ _ _ _ (by decide +kernel), by decide +kernel⟩
/-- O31, R234: the array lies on a benched crew. -/
theorem test_refresh_benched : let p := pkt .refresh 0x22 7 []
    let s := offer (live.modCrew 0 (fun x => { x with benched := true })) .admin p
    Presents s .admin .refresh p ∧ s.treatArrs .admin p = [0] ∧ s.crewUp 0 = false
    ∧ answerOf (exec (.refresh .admin) s) = some (0x20, 0, 0, 0) :=
  ⟨shown_presents _ _ _ _ (by decide +kernel), by decide +kernel⟩
theorem test_census : let p := pkt .census 0x2F 7 []
    let s := offer live .admin p
    Presents s .admin .census p ∧ p.noAddrs = true ∧ s.treatArrs .admin p = [0]
    ∧ after (exec (.census .admin) s) (fun t => t.censusQ == [0] && t.cmds.length == 1) = true :=
  ⟨shown_presents _ _ _ _ (by decide +kernel), by decide +kernel⟩
theorem test_census_none : let p := pkt .census 0x25 7 []
    let s := offer (live.modCtx 5 (fun x => { x with st := .live })) .admin p
    Presents s .admin .census p ∧ s.treatArrs .admin p = [] ∧ answerOf (exec (.census .admin) s) = some (0, 0, 0, 0) :=
  ⟨shown_presents _ _ _ _ (by decide +kernel), by decide +kernel⟩
theorem test_scheduled : live.cfg.censusH ≠ 0 ∧ live.env.envSet = true ∧ live.dev.st = .active
    ∧ after (exec .scheduledCensusDue live) (fun t => t.censusQ == [0]) = true
    ∧ after (exec .scheduledCensusDue up) (· == up) = true := by decide +kernel

/-- O32: an array that is queued starts; one that is not, does not; both treatments end. -/
theorem test_refresh_start : let s := { live with refreshQ := [0] }
    s.mayTreat 0 = true ∧ (s.arr 0).refresh = false ∧ 0 ∈ s.refreshQ
    ∧ after (exec (.refreshStart 0 0) s) (fun t => (t.arr 0).refresh && t.refreshQ.isEmpty) = true := by decide +kernel
theorem test_refresh_no_start : live.driftAtThr 0 = false ∧ live.refreshQ = []
    ∧ after (exec (.refreshStart 0 0) live) (· == live) = true := by decide +kernel
theorem test_drift_threshold : (live.modArr 0 (fun x => { x with drift := 800 })).driftAtThr 0 = true
    ∧ (live.modArr 0 (fun x => { x with drift := 799 })).driftAtThr 0 = false := by decide +kernel
theorem test_census_start : let s := { live with censusQ := [0] }
    s.mayTreat 0 = true ∧ s.nextCensus 0 = some 0
    ∧ after (exec (.censusStart 0 0) s) (fun t => (t.arr 0).census && t.censusQ.isEmpty) = true := by decide +kernel
def refreshCmd (o : Op) : Cmd := mkCmd live .admin (pkt o 0x22 7 []) false (.arrays [0] 1)
def treated (o : Op) (f : Arr → Arr) : State :=
  { (live.modArr 0 f).modQueue .admin (fun x => { x with enable := true, cqBase := 0x10000 }) with cmds := [refreshCmd o] }
theorem test_refresh_complete : let s := treated .refresh (fun x => { x with refresh := true })
    (s.arr 0).refresh = true ∧ (s.arr 0).maint.rows = [] ∧ Memory.wf s.host ∧ s.cmds = [refreshCmd .refresh]
    ∧ Lone (refreshCmd .refresh) ∧ (refreshCmd .refresh).pkt.opcode = 0x33 ∧ (refreshCmd .refresh).work = .arrays [0] 1
    ∧ answerOf (exec (.refreshComplete 0 0) s) = some (0, 0, 1, 0) := by decide +kernel
theorem test_refresh_rows_left : let s := treated .refresh (fun x => { x with refresh := true, maint := { x.maint with rows := [5] } })
    after (exec (.refreshComplete 0 0) s) (· == s) = true := by decide +kernel
theorem test_census_complete : let s := treated .census (fun x => { x with census := true, maint := { x.maint with censusRow := 512 } })
    Canonical s ∧ (s.arr 0).census = true ∧ 512 ≤ (s.arr 0).maint.censusRow ∧ Lone (refreshCmd .census)
    ∧ (refreshCmd .census).pkt.opcode = 0x34 :=
  ⟨canon_canonical _ (by decide +kernel), by decide +kernel⟩
theorem test_census_rows_left : let s := treated .census (fun x => { x with census := true, maint := { x.maint with censusRow := 511 } })
    after (exec (.censusComplete 0 0) s) (· == s) = true := by decide +kernel

/-- O33: a census row and a refresh row that lies within tolerance, with tokens and without. -/
def slots (tok : Nat) (f : Arr → Arr) : State := { live.modArr 0 f with gov := { Gov.reset with wrAllow := tok } }
def reads0 : List Nat := List.replicate 520 128
theorem test_census_slot : let s := slots 4 (fun x => { x with census := true })
    s.slotOpen 0 = true ∧ (s.arr 0).limitRefresh = false ∧ (s.arr 0).pitchWaits = false ∧ (s.arr 0).spaced s.cfg.space.toNat = true
    ∧ (s.arr 0).census = true ∧ reads0.length = 520
    ∧ after (exec (.maintenanceSlot 0 0 reads0) s) (fun t => (t.arr 0).maint.censusRow == 1 && t.gov.wrAllow == 0) = true := by
  decide +kernel
theorem test_census_slot_short : let s := slots 3 (fun x => { x with census := true })
    s.gov.wrAllow < 4 ∧ after (exec (.maintenanceSlot 0 0 reads0) s) (fun t => (t.arr 0).maint.censusRow == 0 && t.gov.write) = true := by
  decide +kernel
theorem test_refresh_slot : let s := slots 4 (fun x => { x with refresh := true, maint := { x.maint with rows := [7, 8] } })
    (s.arr 0).census = false ∧ (s.arr 0).refresh = true ∧ (s.arr 0).maint.rows = 7 :: [8] ∧ (s.arr 0).limitRefresh = false
    ∧ after (exec (.maintenanceSlot 0 0 (List.replicate 512 128 ++ (List.range 8).map (fun k => nominalTarget (lanternLevel k)))) s)
        (fun t => (t.arr 0).maint.rows == [8]) = true := by decide +kernel
theorem test_slot_closed : (act.modCrew 0 (fun x => { x with benched := true })).slotOpen 0 = false
    ∧ live.slotOpen 0 = true ∧ (live.arr 0).census = false ∧ (live.arr 0).refresh = false
    ∧ after (exec (.maintenanceSlot 0 0 reads0) live) (· == live) = true ∧ (live.arr 0).prog = none := by decide +kernel
theorem test_pitch_slot : let g : Prog := ⟨2, 1, 0, 0, [3, 4], 2, 0, [], [], []⟩
    let s := slots 4 (fun x => { x with prog := some g })
    let reads := List.replicate 512 128 ++ (List.range 8).map (fun k => nominalTarget (lanternLevel k))
    s.slotOpen 0 = true ∧ (s.arr 0).limitRefresh = false ∧ (s.arr 0).spaced s.cfg.space.toNat = true ∧ (s.arr 0).prog = some g
    ∧ s.pitchTurn g = true ∧ g.rows = 3 :: [4] ∧ g.stuck = [] ∧ g.slots + 1 < 25 ∧ g.pulses = [] ∧ reads.length = 520
    ∧ (∀ e ∈ reads.zipIdx, outside (((s.arr 0).plane (!(s.arr 0).ground)).cellTarget 3 e.2) e.1 = false)
    ∧ after (exec (.pitchSlot 0 0 reads) s) (fun t => (match (t.arr 0).prog with
        | some h => h.rows == [4] && h.left == 1
        | none => false)) = true := by decide +kernel

/-- O33: an entry whose shards arrived earlier has rows to program on array 1. -/
theorem test_pitch_turn : let g : Prog := ⟨2, 1, 0, 0, [3], 1, 0, [], [], []⟩
    let p := { pitch0 with
      g := { gen0 with assigns := [assign0, { assign0 with entry := 1, l := 1 }] }
      accepted := [(1, bytesOf 64 [(24, 4, 1)]), (0, bytesOf 64 [])] }
    let s := ((slots 4 (fun x => { x with prog := some g })).modArr 1 (fun x => { x with prog := some { g with entry := 1 } })).modCtx 2
      (fun x => { x with pitch := some p })
    (s.arr 0).prog = some g ∧ g.rows = 3 :: [] ∧ s.pitchTurn g = false ∧ s.slotOpen 0 = true
    ∧ after (exec (.pitchSlot 0 0 reads0) s) (· == s) = true := by decide +kernel
/-- O33: a refresh at the drift limit, of a row of the fly plane whose lantern cells are within tolerance. -/
theorem test_limit_slot : let s := slots 4 (fun x => { x with limit := true, refresh := true, drift := 1000, maint := { x.maint with rows := [512] } })
    s.slotOpen 0 = true ∧ (s.arr 0).limitRefresh = true ∧ (s.arr 0).refresh = true
    ∧ after (exec (.maintenanceSlot 0 0 (List.replicate 512 9999 ++ (List.range 8).map (fun k => nominalTarget (lanternLevel k)))) s)
        (fun t => (t.arr 0).maint.rows == [] && (t.arr 0).verify == verifySlot) = true := by decide +kernel

/-- O33: another array of the crew is in a slot of class 1 or 2 (log entry 126). -/
theorem test_writer_busy : let g : Prog := ⟨2, 1, 0, 0, [3], 1, 0, [], [], []⟩
    let s (b : Bool) := (slots 4 (fun x => { x with limit := true, refresh := true, drift := 1000, maint := { x.maint with rows := [512] } })).modArr 1
      (fun x => { x with verify := 16, writing := b })
    let p := (slots 4 (fun x => { x with prog := some g })).modArr 1 (fun x => { x with verify := 16, writing := true })
    (s true).writerFree 0 = false ∧ (s false).writerFree 0 = true ∧ live.writerFree 0 = true ∧ p.writerFree 0 = false
    ∧ ((s true).arr 0).limitRefresh = true ∧ after (exec (.maintenanceSlot 0 0 reads0) (s true)) (· == s true) = true
    ∧ after (exec (.pitchSlot 0 0 reads0) p) (· == p) = true := by decide +kernel

/-- O34: a generation with a retrim region of layer 0. -/
def genT : Generation := { gen0 with regions := [(0, 0, 0x20000)] }
def liveT : State := (live.modCtx 2 (fun x => { x with gens := [genT] })).writeWork 2 0 (bytesOf 48 [(8, 1, 1), (10, 2, 1), (12, 4, 1)])
def stepPkt (n lr : Nat) : Packet := pkt .retrimStep 0x22 5 [(34, 2, n), (40, 4, lr)]
def stepCmd (w : RunWork) : Cmd := { mkCmd liveT (.ctx 2) (stepPkt 1 0x3F800000) false (.run w) with gen := 1 }
def workT (t : TrimWork) : RunWork := { RunWork.start 0 layer0 0 [] with trim := some t }
def step2 : CmdRef := ⟨.ctx 2, 5⟩
theorem test_retrim : let p := stepPkt 1024 0x3F800000
    let s := offer liveT (.ctx 2) p
    Presents s (.ctx 2) .retrimStep p ∧ s.top = false ∧ (s.ctx 2).generation (s.ctx 2).live = some genT
    ∧ s.trimTarget (.ctx 2) genT 0 = some (layer0, s.self) ∧ p.noAddrs = true ∧ 1 ≤ p.param 34 2 ∧ p.param 34 2 ≤ 1024
    ∧ f32Finite (BitVec.ofNat 32 (p.param 40 4)) = true ∧ 0 < f32Q (BitVec.ofNat 32 (p.param 40 4)) ∧ p.param 44 1 ≤ 1
    ∧ (∀ x ∈ s.cmds, x.ref ≠ ⟨.ctx 2, 5⟩ ∧ x.trim? = none) ∧ (∀ k, k < 256 → (s.crew k).benched = false) ∧ (s.ctx 2).bad = []
    ∧ after (exec (.retrimStep (.ctx 2)) s) (fun t => t.cmds.map (fun c => match c.work with
        | .run w => (w.dispatched, w.n)
        | _ => (false, 0)) == [(true, 1)]) = true :=
  ⟨shown_presents _ _ _ _ (by decide +kernel), by decide +kernel⟩
theorem test_retrim_fields : let p := stepPkt 1025 0x3F800000
    let s := offer liveT (.ctx 2) p
    Presents s (.ctx 2) .retrimStep p ∧ 1024 < p.param 34 2 ∧ answerOf (exec (.retrimStep (.ctx 2)) s) = some (0x11, 0, 0, 0) :=
  ⟨shown_presents _ _ _ _ (by decide +kernel), by decide +kernel⟩
theorem test_retrim_waits : let p := pkt .retrimStep 0x22 6 [(34, 2, 1), (40, 4, 0x3F800000)]
    let y := stepCmd { workT ⟨0, [], [], none, 0⟩ with dispatched := true }
    let s := offer { liveT with cmds := [y] } (.ctx 2) p
    Presents s (.ctx 2) .retrimStep p ∧ s.cmds.find? (fun x => x.inContext 2 && x.trim?.isSome && !x.ended) = some y
    ∧ after (exec (.retrimStep (.ctx 2)) s) (fun t => t.cmds.length == 2 && t.cmds.head? == some y) = true :=
  ⟨shown_presents _ _ _ _ (by decide +kernel), by decide +kernel⟩
def trainingT (t : TrimWork) : State :=
  { liveT.modQueue (.ctx 2) (fun x => { x with enable := true, cqBase := 0x10000 }) with
    cmds := [stepCmd { workT t with dispatched := true, n := 1, due := 0 }] }
/-- The error in HBM that the reads of an update meet (O34). -/
def badTrain (s : State) (x : Cmd) (w : RunWork) : Option ParityErr :=
  (s.updateReads x w genT).findSome? (fun e => badIn (s.ctx 2).bad e.1 e.2)
theorem test_training_ends : let t : TrimWork := ⟨0, [(0, 0, [0, 0, 0, 0])], [0], none, 0⟩
    let x := stepCmd { workT t with dispatched := true, n := 1, due := 0 }
    Canonical (trainingT t) ∧ (trainingT t).cmd? step2 = some x ∧ (trainingT t).runGen x = some genT ∧ Lone x ∧ t.stop = none
    ∧ (∀ k, k < 16 → ((trainingT t).ctx k).swingCmd = none) ∧ (∀ y ∈ (trainingT t).cmds, y.ref ≠ step2 → y.trim? = none)
    ∧ x.ended = false ∧ x.pkt.param 34 2 ≤ t.done + 1 ∧ t.ves = 0 ∧ badTrain (trainingT t) x { workT t with dispatched := true, n := 1 } = none
    ∧ answerOf (exec (.retrimTrainingStep ⟨step2, none⟩) (trainingT t)) = some (0, 0, 1, 0)
    ∧ crewHop (bitsOf err0.hop.toNat 12 4) = false ∧ (trainingT t).hbmOpen true = true
    ∧ after (exec (.retrimTrainingStep ⟨step2, some err0⟩) (trainingT t)) (fun u => u.sig.seq == 1
        && u.cmds.map (fun c => (c.ended, c.outcome)) == [(true, .parity)]) = true :=
  ⟨canon_canonical _ (by decide +kernel), by decide +kernel⟩

/-- O34: a failed command, one with steps left, one whose slices are due, and a dword of the moments with an error. -/
def trainX (n : Nat) (fin : Bool) (due : Nat) : Cmd :=
  { stepCmd { workT ⟨0, [(0, 0, [0, 0, 0, 0])], [0], none, 0⟩ with dispatched := true, n := 1, due := due } with
    pkt := stepPkt n 0x3F800000, ended := fin }
def trainS (n : Nat) (fin : Bool) (due : Nat) : State := { trainingT ⟨0, [], [], none, 0⟩ with cmds := [trainX n fin due] }
theorem test_training_cases : let e := trainS 1 true 0
    let m := trainS 2 false 0
    let d := trainS 1 false 1
    let b := m.modCtx 2 (fun x => { x with bad := [(12288, err0)] })
    (∀ s ∈ [e, m, d, b], (s.cmd? step2).isSome = true ∧ (∀ k, k < 16 → (s.ctx k).swingCmd = none)) ∧ (trainX 1 true 0).ended = true
    ∧ answerOf (exec (.retrimTrainingStep ⟨step2, none⟩) e) = some (0, 0, 0, 0)
    ∧ (trainX 2 false 0).pkt.param 34 2 = 2 ∧ after (exec (.retrimTrainingStep ⟨step2, none⟩) d) (· == d) = true
    ∧ (match (trainX 2 false 0).work with
      | .run w => badTrain b (trainX 2 false 0) w == some err0 && (badTrain m (trainX 2 false 0) w).isNone
      | _ => false) = true
    ∧ after (exec (.retrimTrainingStep ⟨step2, none⟩) b) (fun u => u.sig.seq == 1 && u.cmds.all (·.ended)) = true := by decide +kernel

/-- O34: the last step of a RETRIM_STEP that a PITCH_BEGIN waits for, and the next steps of one that goes on. -/
def waitBegin : Cmd := { mkCmd liveT (.ctx 2) (pkt .pitchBegin 0x12 9 []) false .plain with gen := 2 }
def trainStop (fin : Bool) : Cmd :=
  { stepCmd { workT ⟨0, [(0, 0, [0, 0, 0, 0])], [0], some ⟨.ctx 2, 9⟩, 0⟩ with dispatched := true, n := 1, due := 0 } with
    pkt := stepPkt 2 0x3F800000, ended := fin }
def stopping (fin : Bool) : State := { trainingT ⟨0, [], [], none, 0⟩ with cmds := [trainStop fin, waitBegin] }
theorem test_training_stops (fin : Bool) : Canonical (stopping fin) ∧ (stopping fin).cmd? step2 = some (trainStop fin)
    ∧ (stopping fin).runGen (trainStop fin) = some genT ∧ Lone (trainStop fin) ∧ (trainStop fin).ended = fin
    ∧ (trainStop fin).trim?.map (fun e => (e.stop, e.ves)) = some (some waitBegin.ref, 0) ∧ waitBegin.ref ≠ step2
    ∧ (stopping fin).cmd? waitBegin.ref = some waitBegin ∧ Alone waitBegin ∧ waitBegin.pkt.opcode = 0x10
    ∧ (∀ k, k < 16 → ((stopping fin).ctx k).swingCmd = none) ∧ (∀ z ∈ (stopping fin).cmds, z.ref ≠ step2 → z.trim? = none)
    ∧ (match (trainStop fin).work with
      | .run w => w.dispatched && w.due == 0 && (badTrain (stopping fin) (trainStop fin) w).isNone
      | _ => false) = true
    ∧ after (exec (.retrimTrainingStep ⟨step2, none⟩) (stopping fin)) (fun t => t.cmds == []
        && (Memory.readBytes t.host 0x10002 1 == [0]) && (Memory.readBytes t.host 0x10012 1 == [0])) = true := by
  cases fin
  · exact ⟨canon_canonical _ (by decide +kernel), by decide +kernel⟩
  · exact ⟨canon_canonical _ (by decide +kernel), by decide +kernel⟩

/-- O35: apply and discard, a batch that is open, a wrong action. -/
def applyPkt (a : Nat) : Packet := pkt .retrimApply 0x22 5 [(34, 1, a)]
theorem test_apply : let s := offer liveT (.ctx 2) (applyPkt 0)
    Presents s (.ctx 2) .retrimApply (applyPkt 0) ∧ s.top = false ∧ s.trimTarget (.ctx 2) genT 0 = some (layer0, s.self)
    ∧ (applyPkt 0).noAddrs = true ∧ (s.ctx 2).batch = none ∧ s.runs 2 1 0 = false ∧ (s.trimRegion 2 genT 0).isSome = true
    ∧ Memory.wf (s.ctx 2).work
    ∧ after (exec (.retrimApply (.ctx 2)) s) (fun t => Memory.read (t.ctx 2).work 9 == 1) = true :=
  ⟨shown_presents _ _ _ _ (by decide +kernel), by decide +kernel⟩
theorem test_apply_batch : let s := offer (liveT.modCtx 2 (fun x => { x with batch := some (0, 1) })) (.ctx 2) (applyPkt 1)
    Presents s (.ctx 2) .retrimApply (applyPkt 1) ∧ (s.ctx 2).batch.isSome = true
    ∧ answerOf (exec (.retrimApply (.ctx 2)) s) = some (0x12, 0, 0, 0) :=
  ⟨shown_presents _ _ _ _ (by decide +kernel), by decide +kernel⟩
/-- O35: a dword of the parameters in training in which HBM has found an error. -/
theorem test_apply_parity : let s := offer (liveT.modCtx 2 (fun x => { x with bad := [(8192, err0)] })) (.ctx 2) (applyPkt 0)
    Presents s (.ctx 2) .retrimApply (applyPkt 0) ∧ (s.trimRegion 2 genT 0).map (fun e => badIn (s.ctx 2).bad
        (e.1 + trainOfs (paramCount (rgRank e.2) layer0)) (2 * paramCount (rgRank e.2) layer0)) = some (some err0)
    ∧ crewHop (bitsOf err0.hop.toNat 12 4) = false ∧ answerOf (exec (.retrimApply (.ctx 2)) s) = some (0x22, 0, 0, 0) :=
  ⟨shown_presents _ _ _ _ (by decide +kernel), by decide +kernel⟩
theorem test_apply_action : let s := offer liveT (.ctx 2) (applyPkt 2)
    Presents s (.ctx 2) .retrimApply (applyPkt 2) ∧ 1 < (applyPkt 2).param 34 1
    ∧ answerOf (exec (.retrimApply (.ctx 2)) s) = some (0x11, 0, 0, 0) :=
  ⟨shown_presents _ _ _ _ (by decide +kernel), by decide +kernel⟩

/-- O36: the last bytes of an image, one byte too many, an image that is incomplete, and the end of the programming. -/
def stagePkt (n : Nat) : Packet := pkt .fwStage 0x10 7 [(8, 4, n), (16, 8, 0x40000), (32, 4, 6), (36, 4, 10)]
def stageHost : State := { up with host := [(0x40000, 5), (0x40003, 6)] }
theorem test_stage : let s := offer stageHost .admin (stagePkt 4)
    Presents s .admin .fwStage (stagePkt 4) ∧ (stagePkt 4).hostData = some 0x40000 ∧ Memory.wf s.env.fwBytes
    ∧ 1 ≤ (stagePkt 4).length ∧ 6 + (stagePkt 4).length ≤ 10
    ∧ answerOf (exec (.fwStage .admin) s) = some (0, 0, 4, 0)
    ∧ after (exec (.fwStage .admin) s) (fun t => t.env.fwBytes == [(6, 5), (9, 6)]) = true :=
  ⟨shown_presents _ _ _ _ (by decide +kernel), by decide +kernel⟩
theorem test_stage_over : let s := offer stageHost .admin (stagePkt 5)
    Presents s .admin .fwStage (stagePkt 5) ∧ 10 < 6 + (stagePkt 5).length
    ∧ answerOf (exec (.fwStage .admin) s) = some (0x11, 0, 0, 0) :=
  ⟨shown_presents _ _ _ _ (by decide +kernel), by decide +kernel⟩
theorem test_activate_incomplete : let p := pkt .fwActivate 0x10 7 []
    let s := offer { up with env := { up.env with fwTotal := 10, fwCover := [(6, 10)] } } .admin p
    Presents s .admin .fwActivate p ∧ p.noAddrs = true ∧ s.env.fwComplete = false
    ∧ answerOf (exec (.fwActivate .admin) s) = some (0x11, 0, 0, 0) :=
  ⟨shown_presents _ _ _ _ (by decide +kernel), by decide +kernel⟩
def flashCmd : Cmd := mkCmd up .admin (pkt .fwActivate 0x10 7 []) true (.flash [9, 8])
theorem test_flash : let s := { up with cmds := [flashCmd] }
    Memory.wf s.host ∧ Memory.wf s.dev.flash ∧ Lone flashCmd ∧ flashCmd.work = .flash [9, 8]
    ∧ s.cmds.find? (fun c => match c.work with | .flash _ => true | _ => false) = some flashCmd
    ∧ after (exec .flashProgrammingComplete s) (fun t => t.dev.st == .resetHold && t.cmds.isEmpty) = true := by decide +kernel

/-! ## Queues, keys, registers, resets, boot, faults, governor (O37 to O48) -/

/-- O37: tails at the ends of a ring of 64 entries, a head that passes the status tail, and the SIZE field. -/
def ringUp : State := up.modQueue .admin (fun x => { x with enable := true, cqTail := 2, unread := 2 })
theorem test_tail : ringUp.barLive = true ∧ (ringUp.queue .admin).enable = true
    ∧ after (exec (.sqDoorbell .admin 63) ringUp) (fun t => (t.queue .admin).sqTail == 63 && !(t.queue .admin).dbErr) = true
    ∧ after (exec (.sqDoorbell .admin 64) ringUp) (fun t => (t.queue .admin).sqTail == 0 && (t.queue .admin).dbErr) = true := by
  decide +kernel
theorem test_head : (ringUp.queue .admin).fetched = []
    ∧ after (exec (.cqDoorbell .admin 2) ringUp) (fun t => (t.queue .admin).cqHead == 2 && (t.queue .admin).unread == 0) = true
    ∧ after (exec (.cqDoorbell .admin 3) ringUp) (fun t => (t.queue .admin).cqHead == 0 && (t.queue .admin).dbErr) = true := by
  decide +kernel
theorem test_enable : up.idleQueue .admin = true
    ∧ after (exec (.queueEnable .admin 12) up) (fun t => (t.queue .admin).enable && (t.queue .admin).size == 12) = true
    ∧ after (exec (.queueEnable .admin 13) up) (fun t => (t.queue .admin).enable && (t.queue .admin).size == 6) = true
    ∧ after (exec (.queueDisable .admin 12) ringUp) (fun t => !(t.queue .admin).enable && (t.queue .admin).size == 6) = true := by
  decide +kernel
theorem test_queues_off : State.reset.barLive = false := by decide +kernel

/-- O38: the last entry of the ring, an opcode that the table does not have, and a ring that fails. -/
def ringOf2 (op : Nat) : State :=
  { up.modQueue .admin (fun x => { x with enable := true, cqBase := 0x10000, sqBase := 0x8000, sqHead := 63, sqTail := 0 }) with
    host := Memory.writeBytes [] (0x8000 + 64 * 63) (bytesOf 64 [(0, 1, op), (1, 1, 0x10), (2, 2, 3)]) }
theorem test_fetch : let s := ringOf2 1
    Canonical s ∧ s.serving = true ∧ (s.queue .admin).enable = true ∧ (s.queue .admin).avail ≠ 0
    ∧ extOf .admin (Memory.readBytes s.host (0x8000 + 64 * 63) 64) = 0
    ∧ after (exec (.sqEntryFetch ⟨.admin, none⟩) s) (fun t => (t.queue .admin).sqHead == 0 && (t.queue .admin).fetched.length == 1) = true :=
  ⟨canon_canonical _ (by decide +kernel), by decide +kernel⟩
theorem test_fetch_unknown : let s := ringOf2 0xEE
    Canonical s ∧ (s.queue .admin).fetched = [] ∧ opOf 0xEE = none ∧ s.examinable .admin = true
    ∧ answerOf (exec (.sqEntryFetch ⟨.admin, none⟩) s) = some (0x10, 0, 0, 0) :=
  ⟨canon_canonical _ (by decide +kernel), by decide +kernel⟩
/-- O38: the buffers find a parity error in the entry. -/
theorem test_fetch_parity : let s := ringOf2 1
    (s.queue .admin).fetched = [] ∧ s.examinable .admin = true ∧ crewHop (bitsOf err0.hop.toNat 12 4) = false
    ∧ answerOf (exec (.sqEntryFetch ⟨.admin, some err0⟩) s) = some (0x22, 0, 0, 0)
    ∧ after (exec (.sqEntryFetch ⟨.admin, some err0⟩) s) (fun t => t.sig.seq == 1) = true := by decide +kernel
theorem test_ring_error : after (exec (.ringReadError .admin) (ringOf2 1)) (fun t => !(t.queue .admin).enable
    && (t.queue .admin).ringErr && t.sig.seq == 1) = true := by decide +kernel
theorem test_fetch_empty : (ringUp.queue .admin).avail = 0 ∧ (ringUp.queue .admin).fetched = []
    ∧ after (exec (.sqEntryFetch ⟨.admin, none⟩) ringUp) (· == ringUp) = true := by decide +kernel

/-- O39: the install of the generator point in slot 7, of bytes that are no point, and a revoke. -/
def gPoint : List Byte :=
  4 :: beBytes 48 0xAA87CA22BE8B05378EB1C71EF320AD746E1D3B628BA79B9859F741E082542A385502F25DBF55296C3A545E3872760AB7
    ++ beBytes 48 0x3617DE4A96262C6F5D9E98BF9292DC29F8F41DBD289A147CE9DA3113B5F0B8C00A60B1CE1D7E819D7A431D7C90EA0E5F
def keyState (op : Option (Nat × Option (List Byte))) : State := { up with sec := { Sec.reset with busy := true, op := op } }
theorem test_key_command : up.barLive = true ∧ up.sec.busy = false ∧ (keyState none).sec.busy = true
    ∧ after (exec (.secKeyInstall 7) up) (fun t => t.sec.busy && t.sec.op == some (7, some (List.replicate 97 0))) = true
    ∧ after (exec (.secKeyRevoke 7) (keyState none)) (· == keyState none) = true := by decide +kernel
theorem test_key_install : pointOf gPoint ≠ none ∧ (keyState (some (7, some gPoint))).sec.revoked.getLsbD 7 = false
    ∧ after (exec .secKeyOpComplete (keyState (some (7, some gPoint)))) (fun t => !t.sec.busy && !t.sec.err
        && (t.sec.keys.get (fun _ => none) 7).any (fun k => k.point == gPoint)) = true := by decide +kernel
theorem test_key_bad : pointOf (List.replicate 97 0) = none
    ∧ after (exec .secKeyOpComplete (keyState (some (7, some (List.replicate 97 0))))) (fun t => t.sec.err && t.sec.keys.isEmpty) = true := by
  decide +kernel
theorem test_key_revoke : after (exec .secKeyOpComplete (keyState (some (7, none)))) (fun t => t.sec.revoked == 0x80) = true
    ∧ after (exec .secKeyOpComplete up) (· == up) = true := by decide +kernel

/-- O40: row mode on a free array, refused on an array in use, and the bin of a test stroke at its limit. -/
theorem test_sine : act.barLive = true ∧ diePowered act.env.env (crewDie 255) = true ∧ act.sineRefused 255 16 = true
    ∧ act.sineRefused 255 3 = false ∧ (act.crew 255).sine.en = false
    ∧ after (exec (.sineRowModeEnable 255 0x301) act) (fun t => (t.crew 255).sine.en && (t.crew 255).sine.slot == 3) = true
    ∧ after (exec (.sineRowModeEnable 255 0x1001) act) (fun t => !(t.crew 255).sine.en && (t.crew 255).sine.refused) = true := by
  decide +kernel
theorem test_sine_die_off : diePowered bootE1.env.env (crewDie 255) = false
    ∧ after (exec (.sineRowModeEnable 255 1) bootE1) (· == bootE1) = true := by decide +kernel
def sineOn : State := act.modCrew 9 (fun x => { x with sine := { x.sine with en := true, hist := true }, hist := [(5, 0xFFFF)] })
theorem test_sine_hist : (sineOn.crew 9).sine.en = true ∧ sineOn.crewUp 9 = true ∧ (sineOn.crew 9).sine.hist = true
    ∧ after (exec (.sineTestStroke 8 [5, 6, 7, 8, 9, 10, 11, 12]) sineOn) (· == sineOn) = true := by decide +kernel
/-- O40, R44, R49: with EN = 0 the pin carries 512; A = 0 at the lowest sample; a quarter turn after phase 0 the sample is the highest. -/
theorem test_sine_sample : act.testAout = some 512 ∧ State.reset.testAout = none ∧ sineScaled (BitVec.ofNat 24 (2 ^ 22)) 256 = 1023
    ∧ sineScaled (BitVec.ofNat 24 (3 * 2 ^ 22)) 256 = 0 ∧ (Sine.reset.amp).toNat ≤ 256
    ∧ after (exec (.mgtSineEnable 0x01000000) act) (fun t => t.cfg.sineEn && t.testAout == some (sineScaled 0 256)) = true := by
  decide +kernel

/-- O41. -/
theorem test_time : let s := { up with dev := { up.dev with timeBase := 0x1122334455667788 } }
    s.barLive = true ∧ after (exec (.timeLatchRead 0x700000 4) s) (fun t => t.dev.timeHi == 0x11223344
        && t.outs == [.readData [0x88, 0x77, 0x66, 0x55]]) = true := by decide +kernel
theorem test_reads_held : State.reset.dev.st = .resetHold ∧ State.reset.dev.st ≠ .off ∧ up.dev.trngOk = true ∧ State.reset.dev.endpointFault = false
    ∧ after (exec .trngRead State.reset) (fun t => t.outs == [.readData [0, 0, 0, 0]]) = true := by decide +kernel
theorem test_mirror : signed3.sig.mirror = []
    ∧ after (exec .smbMirrorReadSecond { up with sig := ⟨[], 0, 0, [[1], [2]]⟩ }) (fun t => t.sig.mirror == [[2]]
        && t.outs == [.smbBlock 0x58 (List.replicate 128 0)]) = true
    ∧ after (exec .smbMirrorReadFirst { up with sig := ⟨[], 0, 0, [[1], [2]]⟩, dev := { up.dev with sbAddr := 5 } }) (fun t => t.sig.mirror == [[1], [2]]
        && t.outs == [.smbBlock 0x5D (1 :: List.replicate 127 0)]) = true := by decide +kernel
def off : State := { State.reset with dev := { Dev.reset with st := .off } }
theorem test_jtag : up.dev.perst = true ∧ up.dev.devRst = false
    ∧ after (exec (.jtagInstruction ⟨.extest, true⟩) up) (fun t => t.dev.jtag == .idcode && t.outs == [.jtag false none]) = true
    ∧ after (exec (.jtagInstruction ⟨.bypass, true⟩) up) (fun t => t.dev.jtag == .bypass && t.outs == [.jtag true none]) = true
    ∧ after (exec (.jtagInstruction ⟨.idcode, true⟩) up) (fun t => t.outs == [.jtag true (some 0x109A447B)]) = true
    ∧ after (exec (.jtagInstruction ⟨.bypass, true⟩) off) (· == off) = true := by decide +kernel

/-- O42: COX_TWIN_CFG at the ends of its ranges, ARR_SLEW of a held array, FORCEBH in RESET_HOLD. -/
theorem test_twin_cfg : up.barLive = true
    ∧ after (exec (.registerWrite 0 false 0x40 [(0x400003, 0xF)]) up) (fun t => t.cfg.maxPairs == 64 && t.cfg.twinK == 3) = true
    ∧ after (exec (.registerWrite 0 false 0x40 [(0x410002, 0xF)]) up) (· == up) = true
    ∧ after (exec (.registerWrite 0 false 0x40 [(0x400003, 0x7)]) up) (· == up) = true := by decide +kernel
theorem test_slew : live.held 0 = true ∧ diePowered live.env.env (crewDie 0) = true ∧ live.held (arrIdx 0 1) = false
    ∧ after (exec (.registerWrite 0 false 0x1000010 [(0x25, 0xF)]) live) (· == live) = true
    ∧ after (exec (.registerWrite 0 false 0x1000810 [(0x25, 0xF)]) live) (fun t => (t.arr 1).step == 5 && (t.arr 1).rate == 2) = true
    ∧ after (exec (.registerWrite 0 false 0x1000810 [(0x20, 0xF)]) live) (· == live) = true := by decide +kernel
/-- O42: the other fields at the ends of their ranges, and a read-only register. -/
theorem test_fields : act.barLive = true
    ∧ after (exec (.registerWrite 0 false 0x640004 [(0x640050, 0xF)]) act) (fun t => t.cfg.margin == 100 && t.cfg.wrcap == 80) = true
    ∧ after (exec (.registerWrite 0 false 0x640004 [(0x650051, 0xF)]) act) (· == act) = true
    ∧ after (exec (.registerWrite 0 false 0x680004 [(0x01080F13, 0xF)]) act) (fun t => t.cfg.censusH == 1 && t.cfg.thr == 19) = true
    ∧ after (exec (.registerWrite 0 false 0x680004 [(0x01080F14, 0xF)]) act) (· == act) = true
    ∧ after (exec (.registerWrite 0 false 0x50 [(0xFFFFFFFF, 0xF)]) act) (· == act) = true
    ∧ after (exec (.registerWrite 0 false 0x1009200 [(0x8123, 0xF)]) act) (fun t => (t.crew 0).coefAddr == 0x123) = true
    ∧ after (exec (.registerWrite 0 false 0x100005C [(4096, 0xF)]) act) (fun t => (t.arr 0).satThr == 4096) = true := by decide +kernel
theorem test_force_bh : let s := { State.reset with dev := { Dev.reset with released := true } }
    s.dev.st = .resetHold ∧ after (exec (.registerWrite 0 false 0x54 [(1, 0xF)]) s) (fun t => t.dev.forceBh) = true
    ∧ after (exec (.registerWrite 0 false 0x40 [(0x400003, 0xF)]) s) (· == s) = true := by decide +kernel

/-- O43, O44: a pulse of 200 ns resets, one of 199 ns does not; a device that is OFF stays OFF until the release. -/
def dirty : State :=
  { live with sig := ⟨[[1]], 2, 3, [[1]]⟩, tel := { Tel.reset with nocBowWait := 9 }, env := { live.env with p2pDrop := 4 } }
theorem test_reset_pulse : dirty.dev.st ≠ .off
    ∧ after (exec (.perstAssert 200) dirty) (fun t => t.dev.st == .resetHold && t.sig.store.isEmpty && t.sig.lost == 0
        && t.env.p2pDrop == 0 && t.tel == Tel.reset && t.ctxs.isEmpty) = true
    ∧ after (exec (.devRstAssert 199) dirty) (· == dirty) = true := by decide +kernel
theorem test_release : off.dev.st = .off ∧ State.reset.dev.st = .resetHold ∧ State.reset.dev.released = false ∧ up.dev.st ≠ .off
    ∧ after (exec (.resetRelease 2 5) State.reset) (fun t => t.dev.released && t.env.env == 3 && t.dev.bistStage == 1) = true
    ∧ after (exec (.resetRelease 2 5) { State.reset with dev := { Dev.reset with st := .safe, safeCause := 6 } }) (fun t => t.dev.released
        && t.dev.st == .safe && t.dev.safeCause == 6) = true
    ∧ after (exec (.resetRelease 2 5) up) (· == up) = true := by decide +kernel

/-- O45: BIST at its last stage of E1 and of E4, and a boot without firmware. -/
def good : BistReading := ⟨true, true, true, [], [], []⟩
def bist (e stage : Nat) (done : Bool) : State :=
  { State.reset with
    dev := { Dev.reset with released := true, pllLocked := true, bistStage := BitVec.ofNat 3 stage, bistDone := done, bistPass := done }
    env := { Env.reset with env := e, bootEnv := e } }
theorem test_bist : (bist 1 4 false).dev.st = .resetHold
    ∧ after (exec (.bistStageComplete good) (bist 1 4 false)) (fun t => t.dev.bistPass) = true
    ∧ after (exec (.bistStageComplete good) (bist 4 4 false)) (fun t => t.dev.bistStage == 5 && !t.dev.bistDone) = true
    ∧ after (exec (.bistStageComplete { good with trained := false }) (bist 4 2 false)) (fun t => t.dev.bistDone && !t.dev.bistPass && t.sig.mirror.length == 1) = true
    ∧ after (exec (.bistStageComplete good) up) (· == up) = true := by decide +kernel
theorem test_boot_blank : (bist 4 5 true).dev.bistPass = true ∧ (bist 4 5 true).dev.pllLocked = true
    ∧ newest ((bist 4 5 true).dev.image 1 false) ((bist 4 5 true).dev.image 1 true) = none
    ∧ after (exec .bootImageSelect (bist 4 5 true)) (fun t => t.dev.st == .boathouse && t.dev.bcause == 3 && !t.dev.faultN) = true := by
  decide +kernel
/-- O45: a code of stage 3 out of its range, and a port with 64 corrected codewords, fail their stages; a port that E2 does not use
does not. -/
def badPort (k : Nat) : BistReading := { good with ports := [⟨3, k, 0⟩] }
theorem test_bist_readings : bistPasses { good with arrays := [⟨0, 0, false, [], [], [337]⟩] } 15 15 3 = false
    ∧ bistPasses { good with arrays := [⟨255, 0, false, [], [], [337]⟩] } 1 0 3 = true
    ∧ bistPasses (badPort 63) 15 15 5 = true ∧ bistPasses (badPort 64) 15 15 5 = false := by decide +kernel
theorem test_pll : let s := { State.reset with dev := { Dev.reset with released := true } }
    s.dev.pllLocked = false ∧ s.dev.released = true
    ∧ after (exec .pllLock s) (fun t => t.dev.pllLocked && t.outs == [.avsTarget 1 900, .avsTarget 0 750]) = true
    ∧ after (exec .pllLock up) (· == up) = true := by decide +kernel

/-- O46: the reset of virtual function 3 ends its command and leaves the one of the admin queue. -/
theorem test_vf_flr : let s := { running work1 with cmds := [runCmd work1, closeCmd0] }
    s.dev.st ≠ .off ∧ after (exec (.vfFlr 2) s) (fun t => t.cmds == [closeCmd0] && !(t.queue (.ctx 2)).enable
        && (t.ctx 2).st == .closing) = true := by decide +kernel
theorem test_vf_enable : after (exec (.virtualFunctionEnable 15 true false) up) (fun t => t.dev.vfEn == 0x8000 && t.dev.vfMsix == 0) = true := by
  decide +kernel

/-- O47: a fault while a FENCE is in flight, one while a REFRESH is, a second one in SAFE, and a self-test. -/
theorem test_fault : let s := { running work1 with cmds := [fenceCmd] }
    Canonical s ∧ s.dev.released = true ∧ s.dev.st ≠ .off ∧ s.dev.st ≠ .safe ∧ s.dev.pllLocked = true ∧ s.tel.fails.length = 6
    ∧ s.cmds = [fenceCmd] ∧ fenceCmd.ref.q.isRing = true
    ∧ answerOf (exec (.sharedFaultDetected .hbmFault false) s) = some (0, 0, 0, 0)
    ∧ after (exec (.sharedFaultDetected .hbmFault false) s) (fun t => t.dev.st == .safe && t.dev.safeCause == 5 && t.cmds.isEmpty) = true :=
  ⟨canon_canonical _ (by decide +kernel), by decide +kernel⟩
theorem test_fault_refresh : let x := { refreshCmd .refresh with ref := ⟨.ctx 2, 7⟩ }
    let s := { running work1 with cmds := [x] }
    answerOf (exec (.sharedFaultDetected .hbmFault false) s) = some (0x30, 0, 0, 0) ∧ x.work ≠ .fence := by decide +kernel
theorem test_overtemp : let s (x : Nat) : State := { up with tel := { Tel.reset with temps := [0, BitVec.ofNat 16 x, 0, 0, 0] } }
    (s 2080).tel.hottest ≤ 2080 ∧ 2080 < (s 2081).tel.hottest ∧ after (exec .overtempTimeout (s 2080)) (· == s 2080) = true
    ∧ after (exec .overtempTimeout (s 2081)) (fun t => t.dev.safeCause == 8) = true := by decide +kernel
theorem test_rail_tolerance : State.reset.dev.released = false ∧ up.dev.released = true
    ∧ after (exec (.railToleranceTimeout ⟨0, true⟩) State.reset) (· == State.reset) = true
    ∧ after (exec (.railToleranceTimeout ⟨5, false⟩) safeState) (· == safeState) = true
    ∧ after (exec (.railToleranceTimeout ⟨5, true⟩) safeState) (fun t => t.dev.safeCause == 6 && t.sig.seq == 1) = true := by decide +kernel
theorem test_fault_again : safeState.dev.st = .safe ∧ safeState.dev.released = true
    ∧ after (exec (.sharedFaultDetected .lockstepA false) safeState) (fun t => t.dev.safeCause == 6 && t.sig.seq == 1) = true := by
  decide +kernel
theorem test_telemetry_third : let s := { up with tel := { Tel.reset with fails := [2, 0, 0, 0, 0, 0] } }
    s.tel.fails.getD 0 0 = 2 ∧ s.tel.fails.length = 6
    ∧ after (exec (.railTelemetryAvs [none, none]) s) (fun t => t.dev.st == .safe && t.dev.safeCause == 7) = true := by decide +kernel
theorem test_selftest : let p := pkt .selftest 0x10 7 []
    Presents (offer up .admin p) .admin .selftest p ∧ p.noAddrs = true
    ∧ after (exec (.selftest .admin) (offer up .admin p)) (fun t => t.cmds.length == 1) = true :=
  ⟨shown_presents _ _ _ _ (by decide +kernel), by decide +kernel⟩
def selftestCmd : Cmd := mkCmd up .admin (pkt .selftest 0x10 7 []) true .selftest
def selftesting : State := { up.modQueue .admin (fun x => { x with enable := true, cqBase := 0x10000 }) with cmds := [selftestCmd] }
theorem test_selftest_ends : Canonical selftesting ∧ Lone selftestCmd
    ∧ selftesting.cmds.find? (fun c => decide (c.work = .selftest)) = some selftestCmd
    ∧ selftesting.selftestOk good = true ∧ selftesting.selftestOk (badPort 64) = false
    ∧ answerOf (exec (.selftestComplete good) selftesting) = some (0, 0, 0, 0)
    ∧ after (exec (.selftestComplete (badPort 64)) selftesting) (fun t => t.dev.st == .safe && t.dev.safeCause == 9) = true :=
  ⟨canon_canonical _ (by decide +kernel), by decide +kernel⟩

/-- O48: 100 W of margin-free budget, the epoch, a hot die at 125 degC and at 130 degC. -/
theorem test_temps : up.dev.pllLocked = true ∧ [1, 2, 3, 4, 5, 6, 7].length = 7
    ∧ after (exec (.tempSample [1, 2, 3, 4, 5, 6, 7]) up) (fun t => t.tel.temps == [1, 2, 3, 4, 5] && t.tel.hbmTemps == [6, 7]) = true
    ∧ after (exec (.tempSample [1, 2, 3, 4, 5, 6, 7]) State.reset) (· == State.reset) = true := by decide +kernel
theorem test_rails : Tel.reset.volts.length = 6 ∧ Tel.reset.amps.length = 6 ∧ up.tel.fails.getD 2 0 ≠ 2 ∧ up.tel.fails.getD 3 0 ≠ 2
    ∧ up.dev.released = true
    ∧ after (exec (.railTelemetryAvs [some (7, 8), some (9, 10)]) up) (fun t => t.tel.volts == [7, 9, 0, 0, 0, 0]
        && t.tel.amps == [8, 10, 0, 0, 0, 0]) = true := by decide +kernel
theorem test_governor : up.barLive = true ∧ State.reset.barLive = false
    ∧ after (exec .governorBudgetUpdate up) (fun t => t.gov.budget == (160 * 100000 - 20 * 10000) / 10) = true
    ∧ after (exec .governorEpoch { up with gov := { Gov.reset with budget := 1000, deficit := 300, engDrawn := 500 } })
        (fun t => t.gov.pool == 700 && t.gov.sternAllow == 200) = true := by decide +kernel
theorem test_governor_hot : let s (x : Nat) : State := { up with
      gov := { Gov.reset with budget := 1000 }, tel := { Tel.reset with temps := [0, BitVec.ofNat 16 x, 0, 0, 0] } }
    (s 2000).tel.hottest ≤ 2000 ∧ 2000 < (s 2016).tel.hottest ∧ (s 2016).tel.hottest < 2080 ∧ 2080 ≤ (s 2080).tel.hottest
    ∧ after (exec .governorEpoch (s 2016)) (fun t => t.gov.hot && t.gov.pool == 800) = true
    ∧ after (exec .governorEpoch (s 2000)) (fun t => !t.gov.hot && t.gov.pool == 1000) = true
    ∧ after (exec .governorEpoch (s 2080)) (fun t => t.gov.hot && t.gov.pool == 0) = true := by decide +kernel

/-! ## Strokes, tiles, partials, claims, engines (O49 to O56) -/

/-- A vector of the RUN held in crew 0, its job on array 0, and its row 0 programmed to 2.0 microsiemens; only the code of row 0 is listed. -/
def codes0 : List Nat := [1]
def req0 : Req := ⟨false, 0, 1, false, false⟩
def job0 : Job := ⟨run2, 0, 0, 0, 0, false, false, 1, false, [req0], ⟨1, 1, [], []⟩, ⟨1, 1, [], []⟩, false, [], []⟩
def vec0 : TileVec := ⟨run2, 1, false, 0, 0, 0, 0, codes0, [0]⟩
def cells0 : Tbl Nat := (List.range 520).map (fun c => (c, 129))
def striking (f : Arr → Arr) : State :=
  { ((running { work1 with toSend := [] }).modCrew 0 (fun x => { x with tiles := [vec0] })).modArr 0
      (fun x => f { x with jobs := [job0], p0 := { x.p0 with cells := cells0 } }) with gov := { Gov.reset with pool := 21 } }
theorem test_stroke : let s := striking id
    (∀ c, c < 16 → (s.ctx c).swingCmd = none) ∧ s.slotFree 0 = true ∧ (s.arr 0).replays = [] ∧ (s.arr 0).limitRefresh = false
    ∧ s.nextJob 0 = some job0 ∧ job0.todo = req0 :: [] ∧ s.combRoom job0 = true
    ∧ (∃ x ∈ req0.codes job0.eight (s.jobCodes 0 job0), x ≠ 0) ∧ (s.strokeTokens 0 job0.stern).2 = true
    ∧ after (exec (.stroke 0 0) s) (fun t => (t.arr 0).shots.length == 1 && t.gov.pool == 0) = true := by decide +kernel
theorem test_stroke_tokens : let s := { striking id with gov := { Gov.reset with pool := 20 } }
    (s.strokeTokens 0 job0.stern).2 = false ∧ after (exec (.stroke 0 0) s) (fun t => (t.arr 0).shots.isEmpty && t.gov.eng) = true := by
  decide +kernel
def replay0 (check : Bool) : Replay := ⟨0, run2, 0, 0, { req0 with isCheck := check, isFold := !check }, []⟩
theorem test_replays : let s (b : Bool) := striking (fun x => { x with replays := [replay0 b] })
    (s true).slotFree 0 = true ∧ (s true).replayReady 0 (replay0 true) = true ∧ (s false).replayReady 0 (replay0 false) = true
    ∧ (s true).job? 0 run2 0 0 = some job0
    ∧ after (exec (.stroke 0 0) (s true)) (fun t => (t.arr 0).shots.isEmpty && (t.arr 0).replays.length == 1) = true ∧ after (exec (.foldReplay 0 0) (s true)) (fun t => (t.arr 0).shots.isEmpty && (t.arr 0).replays.length == 1) = true
    ∧ after (exec (.checkReplay 0 0) (s false)) (fun t => (t.arr 0).shots.isEmpty && (t.arr 0).replays.length == 1) = true
    ∧ after (exec (.checkReplay 0 0) (s true)) (fun t => (t.arr 0).shots.length == 1 && (t.crew 0).chkReplays == 1) = true
    ∧ after (exec (.foldReplay 0 0) (s false)) (fun t => (t.arr 0).shots.length == 1 && (t.crew 0).chkReplays == 0) = true := by
  decide +kernel
/-- O49: the array holds another generation than that of the replay's stamp. -/
theorem test_replay_stale : let s := (striking (fun x => { x with replays := [replay0 true] })).modCrew 0 (fun x =>
      x.setBinding 0 false (bindingOf 2 2 layer0 assign0))
    s.replayReady 0 (replay0 true) = false ∧ s.slotFree 0 = true
    ∧ after (exec (.checkReplay 0 0) s) (· == s) = true := by decide +kernel
theorem test_keep_warm : live.slotOpen 0 = true ∧ live.warmable 0 = true ∧ act.warmable 0 = false
    ∧ after (exec (.keepWarmStroke 0 0) act) (· == act) = true := by decide +kernel

/-- O50: the scan of a stroke of that job. No row code is listed, so the ideal codes are 0 and the codes are the deviations. -/
def shot0 (q : Req) (warm : Bool) : Shot := ⟨0, run2, 0, 0, q, false, warm, [], 1, 6, [], none⟩
def scanning (q : Req) (warm auto : Bool) : State :=
  striking (fun x => { x with shots := [shot0 q warm], jobs := [{ job0 with todo := [], started := true }], auto := auto })
def dev0 (first rest : Int) : List Int := List.replicate 1 first ++ List.replicate 511 rest ++ List.replicate 64 0
/-- O50: the sum 0 is the predicted one; 511 columns of 10 codes lie outside the window of 104,267 units (R226). -/
theorem test_scan_passes : let s := scanning req0 false false
    let j : Job := { job0 with todo := [], started := true }
    (dev0 0 0).length = 576 ∧ (s.arr 0).shots = [shot0 req0 false] ∧ s.cmd? run2 = some (runCmd { work1 with toSend := [] })
    ∧ (runCmd { work1 with toSend := [] }).ended = false ∧ s.job? 0 run2 0 0 = some j ∧ (s.placeOf 0 false).isSome = true
    ∧ (j.acc false).fold = 1 := by decide +kernel
theorem test_scan_completes : after (exec (.strokeScanEnd 0 0 (dev0 0 0) none) (scanning req0 false false))
    (fun t => (t.arr 0).shots.isEmpty && (t.arr 0).jobs.isEmpty && (t.arr 0).replays.isEmpty) = true := by decide +kernel
theorem test_scan_asks_check : after (exec (.strokeScanEnd 0 0 (dev0 500 10) none) (scanning req0 false false))
    (fun t => (t.arr 0).jobs.length == 1 && (t.arr 0).replays.map (fun p => p.req.isCheck) == [true]
      && t.cmds.map (fun c => c.replays) == [1]) = true := by decide +kernel
theorem test_scan_folds : after (exec (.strokeScanEnd 0 0 (dev0 1023 10) none) (scanning req0 false true))
    (fun t => (t.arr 0).replays.map (fun p => (p.req.fold, p.req.isFold)) == [(2, true), (2, true)]
      && t.cmds.map (fun c => (c.folded, c.outcome)) == [(true, .okReplayed)] && (t.arr 0).satStrokes == 1) = true := by decide +kernel
theorem test_scan_warm : ((scanning req0 true false).arr 0).shots = [shot0 req0 true] ∧ (shot0 req0 true).warm = true := by decide +kernel
theorem test_scan_nothing : (live.arr 0).shots = []
    ∧ after (exec (.strokeScanEnd 0 0 (dev0 0 0) none) live) (· == live) = true := by decide +kernel
/-- R226, worked example "what the window sees": 6 * sqrt(7,544,220,718) = 521,145 units. -/
theorem test_window_example : roundEven (f32Q (checkWindow ⟨bytesOf 256 [(16, 1, 2)]⟩ 6 0x3F000000 142049280 3840)) = 521145 := by
  decide +kernel

/-- O49: a refresh at the drift limit holds STROKE back, but not in a reserved crew. -/
theorem test_stroke_limit : let s := striking (fun x => { x with limit := true, refresh := true, drift := 1000, maint := { x.maint with rows := [5] } })
    (s.arr 0).limitRefresh = true ∧ (s.crew 0).resv = none ∧ after (exec (.stroke 0 0) s) (· == s) = true
    ∧ ((s.modCrew 0 (fun x => { x with resv := some ⟨false, 2, 64, 2⟩ })).crew 0).resv ≠ none := by decide +kernel
/-- O49: keep-warm strokes of array 0, whose generator stands at 1: the first row group, with tokens and without; a group that waits;
and a generator at 0, which no run reaches. -/
def warming (tok : Nat) (f : Arr → Arr) : State := { live.modArr 0 f with gov := { Gov.reset with pool := tok, sternAllow := tok } }
theorem test_keep_warm_slot : let s := warming 21 id
    s.slotOpen 0 = true ∧ s.slotFree 0 = true ∧ s.warmable 0 = true ∧ (s.arr 0).warm = [] ∧ (s.gov.drawPool true 21).2 = true
    ∧ ((warming 20 id).gov.drawPool true 21).2 = false := by decide +kernel
theorem test_keep_warm_next : let s := warming 21 (fun x => { x with warm := [({ req0 with grp := 1 }, [3])] })
    (s.arr 0).warm = ({ req0 with grp := 1 }, [3]) :: []
    ∧ after (exec (.keepWarmStroke 0 0) s) (fun t => (t.arr 0).shots.map (·.codes) == [[3]] && (t.arr 0).warm.isEmpty) = true
    ∧ after (exec (.keepWarmStroke 0 0) (warming 21 (fun x => { x with lfsr := 0 }))) (fun t => (t.arr 0).shots.isEmpty) = true := by
  decide +kernel
/-- O50: the stroke of a check replay (its codes and its window are those of the tests above), and a twin's vector whose replay is
spent. -/
theorem test_scan_check_replay : let s := scanning { req0 with isCheck := true } false false
    (s.arr 0).shots = [shot0 { req0 with isCheck := true } false] ∧ (s.job? 0 run2 0 0).isSome = true := by decide +kernel
theorem test_scan_spent : let w := { work1 with toSend := [], spent := [(0, false)] }
    let s := { (scanning req0 false true).modCrew 0 (fun x => { x with resv := some ⟨false, 2, 64, 2⟩ }) with cmds := [runCmd w] }
    (s.crew (0 / 17)).resv.isSome = true ∧ (runCmd w).spent 0 false = true := by decide +kernel

/-- O51: a window with 512 valid codes and a quotient of 0.8, one with 511, and a column fit at its limits. -/
def win0 (n : Nat) : Window := ⟨256, n, 8, 10, 1, 6400, 256⟩
def windowed (w : Window) : State := act.modArr 3 (fun x => { x with wins := [w] })
theorem test_kappa : let s := { windowed (win0 512) with env := { act.env with trimLoaded := false } }
    (s.arr 3).wins = [win0 512] ∧ s.dev.st ≠ .safe ∧ s.updating = true ∧ 512 ≤ ((s.arr 3).carry.join (win0 512)).valid
    ∧ ((s.arr 3).carry.join (win0 512)).sumEE ≠ 0
    ∧ after (exec (.kappaUpdate 0 3) s) (fun t => (t.arr 3).kappa == 0x3F4CCCCD && (t.arr 3).kUpdates == 1 && (t.arr 3).limit) = true := by
  decide +kernel
theorem test_kappa_carried : let s := { windowed (win0 511) with env := { act.env with trimLoaded := false } }
    ((s.arr 3).carry.join (win0 511)).valid < 512
    ∧ after (exec (.kappaUpdate 0 3) s) (fun t => (t.arr 3).kappa == 0x3F800000 && (t.arr 3).carry.valid == 511) = true
    ∧ (act.arr 3).wins = [] ∧ after (exec (.kappaUpdate 0 3) act) (· == act) = true := by decide +kernel
theorem test_kappa_frozen : let s := { windowed (win0 512) with
      cfg := { act.cfg with freeze := true }, env := { act.env with trimLoaded := false } }
    s.updating = false ∧ after (exec (.kappaUpdate 0 3) s) (fun t => (t.arr 3).kappa == 0x3F800000 && (t.arr 3).wins.isEmpty) = true := by
  decide +kernel
/-- O51: 64 reads with d = l + 9, so that the offset lies outside its range: 9 codes. -/
def set0 (lmax : Rat) : ColSet := ⟨64, 64 * 109, 64 * 100, 64 * 12000 , 64 * 11019, 0, lmax, false, false⟩
theorem test_column_fit : let s := act.modArr 3 (fun x => { x with fits := [(511, set0 64)] })
    (s.arr 3).fits.find? (fun e => e.1 == 511) = some (511, set0 64) ∧ s.updating = true ∧ ¬ (set0 64).lmax - (set0 64).lmin < 64
    ∧ ((set0 64).n : Rat) * (set0 64).sdd - (set0 64).sd * (set0 64).sd ≠ 0
    ∧ ((set0 64).n : Rat) * (set0 64).sdl - (set0 64).sd * (set0 64).sl ≠ 0
    ∧ after (exec (.columnTrackFit 0 3 511) s) (fun t => (t.arr 3).fits.isEmpty && (t.arr 3).trkOut) = true := by decide +kernel
theorem test_column_fit_range : let s := act.modArr 3 (fun x => { x with fits := [(511, set0 63)] })
    (set0 63).lmax - (set0 63).lmin < 64
    ∧ after (exec (.columnTrackFit 0 3 511) s) (fun t => (t.arr 3).tTrim.isEmpty && (t.arr 3).fits.isEmpty) = true
    ∧ after (exec (.columnTrackFit 0 3 510) s) (· == s) = true := by decide +kernel

/-- O52: the tile of the RUN, with inputs whose header is that of layer 0; a wrong header; an unbound array; a newer generation. -/
def arriving : State := { running work1 with gov := { Gov.reset with pool := 1000 } }
theorem test_tile : let s := arriving
    (∀ c, c < 16 → (s.ctx c).swingCmd = none) ∧ s.cmd? run2 = some (runCmd work1) ∧ s.runGen (runCmd work1) = some gen0
    ∧ work1.toSend.find? (fun t => t.crew == 0) = some tile0 ∧ (runCmd work1).ended = false ∧ (s.crew 0).benched = false
    ∧ s.dev.st = .active ∧ work1.hasInputs tile0 = true ∧ s.tileRoom (runCmd work1) work1 gen0 tile0 = true
    ∧ s.t3Room (runCmd work1) work1 gen0 (t3Need gen0 work1 tile0) = true ∧ work1.outWait = []
    ∧ (s.drawHbm ((runCmd work1).pkt.cls == 2) (sumNat ((s.tileReads (runCmd work1) work1 gen0 tile0).map (·.2)))).2 = true
    ∧ (s.tileReads (runCmd work1) work1 gen0 tile0).findSome? (fun e => badIn (s.ctx 2).bad e.1 e.2) = none
    ∧ (∀ y ∈ s.strokeArrs work1 gen0 0 0 0, s.boundTo (runCmd work1) y = .ok) ∧ s.headersOk (runCmd work1) work1 tile0 = true
    ∧ after (exec (.tileArrival run2 0 none) s) (fun t => (t.crew 0).tiles.length == 1 && (t.arr 0).jobs.length == 1) = true
    ∧ after (exec (.tileArrival run2 1 none) s) (· == s) = true := by decide +kernel
theorem test_tile_header : let s := arriving.writeWork 2 0 [1]
    s.headersOk (runCmd work1) work1 tile0 = false
    ∧ after (exec (.tileArrival run2 0 none) s) (fun t => t.cmds.map (fun c => (c.ended, c.outcome)) == [(true, .badParam)]) = true := by
  decide +kernel
theorem test_tile_unbound : let s := arriving.modCrew 0 (fun x => { x with sram := [] })
    s.boundTo (runCmd work1) assign0 = .mismatch
    ∧ after (exec (.tileArrival run2 0 none) s) (fun t => t.cmds.map (fun c => (c.ended, c.outcome)) == [(true, .parity)] && t.sig.seq == 1) = true := by
  decide +kernel
theorem test_tile_stale : let s := arriving.modCrew 0 (fun x => x.setBinding 0 false (bindingOf 2 2 layer0 assign0))
    s.boundTo (runCmd work1) assign0 = .stale
    ∧ after (exec (.tileArrival run2 0 none) s) (fun t => t.cmds.map (fun c => (c.ended, c.outcome)) == [(true, .checkFail)] && t.sig.seq == 1) = true := by
  decide +kernel
theorem test_tile_parity : after (exec (.tileArrival run2 0 (some ⟨1, 2⟩)) arriving) (fun t =>
    t.cmds.map (fun c => (c.ended, c.outcome)) == [(true, .parity)] && decide (0 < t.sig.seq)) = true := by decide +kernel

/-- O52: the tokens of the T3 tile are short; a dword of the input has an error in HBM. -/
theorem test_tile_tokens : after (exec (.tileArrival run2 0 none) { running work1 with gov := Gov.reset }) (fun t => (t.crew 0).tiles.isEmpty && t.gov.eng
      && t.cmds == (running work1).cmds) = true
    ∧ after (exec (.tileArrival run2 0 none) (arriving.modCtx 2 (fun x => { x with bad := [(8, err0)] }))) (fun t => t.sig.seq == 1
      && t.cmds.map (fun c => (c.ended, c.outcome)) == [(true, .parity)]) = true := by decide +kernel

/-- O53: a layer of three splits, one awaited, one early, and the last one. -/
def layerS : Layer := ⟨bytesOf 256 [(0, 1, 1), (1, 1, 1), (3, 1, 4), (4, 1, 1), (8, 4, 1500), (12, 4, 1), (17, 1, 1), (84, 4, 3),
  (88, 2, 2), (90, 2, 1), (96, 4, 1)]⟩
def genS : Generation :=
  { gen0 with
    man := { man0 with layers := [layerS], places := [bytesOf 8 [], bytesOf 8 [(2, 2, 1)], bytesOf 8 [(2, 2, 2)]] }
    assigns := [assign0, { assign0 with entry := 1, l := 1 }, { assign0 with entry := 2, l := 2 }] }
def workS : RunWork := { RunWork.start 0 layerS 1 [] with dispatched := true, b3 := 1, b2 := 1, due := 1 }
def part (sp v : Nat) : Part := ⟨run2, false, 0, sp, 0, 0, [v], 0, []⟩
def comb0 (next : Nat) : CombEntry := ⟨run2, false, 0, 0, 0, next, [5], [], []⟩
def combining (next sp : Nat) : State :=
  { ((running workS).modCtx 2 (fun x => { x with gens := [genS] })).modCrew 0 (fun x => { x with comb := [comb0 next], combVecs := [⟨run2, false, 0, 0, 1, 1, true⟩] }) with
    parts := [part sp 7] }
theorem test_partial_next : let s := combining 1 1
    s.parts.find? (fun q => decide (q.ref = run2) && q.second == false && q.vec == 0 && q.split == 1 && q.slice == 0) = some (part 1 7)
    ∧ s.cmd? run2 = some (runCmd workS) ∧ s.runGen (runCmd workS) = some genS ∧ combAssign genS 0 0 0 false = some assign0
    ∧ (comb0 1).is (part 1 7) = true ∧ (s.crew 0).comb = [comb0 1] ∧ (s.crew 0).combVecs.any (fun f => f.is (part 1 7)) = true ∧ layerS.splits ≠ 1 ∧ (part 1 7).split + 1 < layerS.splits
    ∧ after (exec (.partialArrival run2 false 0 1 0 none) s) (fun t => (t.crew 0).comb == [{ comb0 2 with sums := [12] }]
        && t.parts.isEmpty) = true := by decide +kernel
theorem test_partial_early : let s := combining 0 2
    (comb0 0).next < (part 2 7).split ∧ (part 2 7).split < layerS.splits
    ∧ after (exec (.partialArrival run2 false 0 2 0 none) s) (fun t => (t.crew 0).comb.map (fun e => e.held.length) == [1]) = true := by
  decide +kernel
theorem test_partial_last : let s := combining 2 2
    (part 2 7).split + 1 = layerS.splits ∧ workS.adapter = false ∧ workS.unchecked = [] ∧ workS.deltas = [] ∧ workS.trim = none ∧ workS.layer.isBow = false
    ∧ workS.layer.nrep ≤ 1 ∧ Memory.wf s.host ∧ s.addrDev runPkt.resultAddr = s.self
    ∧ s.localAddr runPkt.resultAddr = some (.host 0x30000)
    ∧ after (exec (.partialArrival run2 false 0 2 0 none) s) (fun t => (t.crew 0).comb.isEmpty && t.cmds.map (fun c => c.written) == [18]) = true := by
  decide +kernel
theorem test_partial_unknown : let s := combining 2 2
    after (exec (.partialArrival run2 false 1 2 0 none) s) (· == s) = true := by decide +kernel
theorem test_partial_parity : after (exec (.partialArrival run2 false 0 2 0 (some ⟨1, 2⟩)) (combining 2 2)) (fun t =>
    t.cmds.map (fun c => c.ended) == [true] && decide (0 < t.sig.seq)) = true := by decide +kernel

/-- O54: a claim below LIMIT and one at it; the results of a claim, once and again; the recovery. -/
def claiming (next : Nat) (w : RunWork) : State :=
  (runningR w).modCrew 0 (fun x => { x with sram := Memory.writeBytes x.sram 0x100 (counterSlot next 1 8 2 2 30) })
theorem test_claim : let s := claiming 0 workR1
    s.cmd? run2 = some (runCmd workR1) ∧ s.runGen (runCmd workR1) = some genR ∧ workR1.slot = some (0, 0)
    ∧ (1 : Nat) < layerR.nrep ∧ 1 ∉ workR1.stopped ∧ s.repBenched genR 0 1 = false ∧ s.repIdle (runCmd workR1) workR1 genR 1 = true
    ∧ Memory.wf (s.crew 0).sram ∧ s.nextClaim 0 0 < workR1.limit
    ∧ after (exec (.claimFetchAdd run2 1) s) (fun t => t.nextClaim 0 0 == 1 && t.cmds.map (fun c => match c.work with
        | .run w => (w.claims, w.toSend.length)
        | _ => ([], 0)) == [([(1, 0)], 1)]) = true := by decide +kernel
theorem test_claim_limit : let s := claiming 1 workR1
    workR1.limit ≤ s.nextClaim 0 0 ∧ after (exec (.claimFetchAdd run2 1) s) (fun t => t.cmds.map (fun c => match c.work with
        | .run w => w.stopped
        | _ => []) == [[1]]) = true := by decide +kernel
def heldWork (taken : List (Nat × Nat)) : RunWork :=
  { workR1 with unchecked := [], claims := [(1, 0)], held := [⟨0, 0, 1, 0, bytesOf 18 [(2, 1, 3)]⟩], taken := taken }
theorem test_claim_results : let s := claiming 1 (heldWork [])
    s.cmd? run2 = some (runCmd (heldWork [])) ∧ (1, 0) ∈ (heldWork []).claims ∧ (heldWork []).claimIn genR 1 0 = true
    ∧ genR.maps.find? (fun e => e.1 == 0) = some (0, 30) ∧ s.addrDev runPkt.resultAddr = s.self
    ∧ after (exec (.claimResultsArrival ⟨run2, none⟩ 0x10000000) s) (fun t => t.claimSet 0 30 0 && Memory.read t.host 0x30002 == 3
        && t.cmds.map (fun c => c.written) == [18] && t.counter 0 == 1) = true
    ∧ after (exec (.claimResultsArrival ⟨run2, some err0⟩ 0x10000000) s) (fun t => t.sig.seq == 1 && t.cmds.all (·.ended)) = true := by decide +kernel
theorem test_claim_again : let s := claiming 1 (heldWork [(0, 0)])
    (heldWork [(0, 0)]).taken.find? (fun e => e.1 == 0) = some (0, 0)
    ∧ after (exec (.claimResultsArrival ⟨run2, none⟩ 0x10000000) s) (fun t => (t.crew 0).dup && (t.crew 0).dupn == 1 && t.host.isEmpty
        && t.sig.seq == 1) = true := by decide +kernel
theorem test_claim_recovery : let w := { workR1 with claims := [], stopped := [0, 1] }
    let s := claiming 1 w
    workR1.limit ≤ s.nextClaim 0 0 ∧ (List.range 1).filter (fun i => !s.claimSet 0 30 i && !w.claims.contains (0, i)) = [0]
    ∧ after (exec (.claimRecovery run2) s) (fun t => (t.crew 0).recov == 1 && t.sig.seq == 1 && t.cmds.map (fun c => match c.work with
        | .run v => v.claims
        | _ => []) == [[(0, 0)]]) = true := by decide +kernel

/-- O55. -/
theorem test_claim_watchdog : let s := claiming 1 (heldWork [])
    (∃ e ∈ (heldWork []).claims, e.1 = 1) ∧ after (exec (.claimWatchdogExpiry run2 1) s) (fun t => (t.crew 1).benched
        && (t.crew 1).cause == 1 && !(t.crew 0).benched) = true
    ∧ (∀ e ∈ (heldWork []).claims, e.1 ≠ 0) ∧ after (exec (.claimWatchdogExpiry run2 0) s) (· == s) = true := by decide +kernel
theorem test_twin_absent : let w := { bowWork with arr0 := [block 1] }
    (bowCmd w).ended = false ∧ w.layer.isBow = true
    ∧ after (exec (.twinAbsentTimeout bow2) (bowRun w)) (fun t => (t.crew 64).benched && (t.crew 64).cause == 3 && !(t.crew 0).benched) = true := by
  decide +kernel
theorem test_stall : let s := (running work1).modArr 0 (fun x => { x with jobs := [job0] })
    s.crewUp 0 = true ∧ s.crewWaiting 0 = true ∧ s.crewWaiting 1 = false
    ∧ after (exec (.sequencerStallTimeout 0) s) (fun t => (t.crew 0).benched && (t.crew 0).cause == 4) = true
    ∧ after (exec (.sequencerStallTimeout 1) s) (· == s) = true := by decide +kernel

/-- O56: a descriptor is fetched, starts, ends; tokens that are short; the last part of a layer; a write that completes. -/
def desc0 (f st : Bool) : Desc := { fullDesc with signal := some 5, fetched := f, started := st, bursts := if st then 0 else 1 }
def veWork (k : Nat) : RunWork :=
  { RunWork.start 0 layerV 1 [] with dispatched := true, due := 1, veNext := 1, shape := ⟨(List.range k).map (· + 3), 0, 18, 64, 1⟩ }
def genW : Generation := { genV with biv := [(1, 7)] }
def engine (f st : Bool) (pool k : Nat) : State :=
  { ((running (veWork k)).modCtx 2 (fun x => { x with gens := [genW] })).modVe 3 (fun x => { x with ring := [desc0 f st] }) with
    gov := { Gov.reset with pool := pool } }
theorem test_ve_fetch : let s := engine false false 1000 1
    let x := runCmd (veWork 1)
    let w := veWork 1
    let d := desc0 false false
    (s.ve 3).ring.zipIdx.find? (fun e => !e.1.fetched) = some (d, 0) ∧ s.cmd? d.ref = some x ∧ s.runGen x = some genW ∧ w.shape.ves.Nodup
    ∧ s.dev.st = .active ∧ (s.ve 3).inReach d = true ∧ s.counterMet d = true ∧ (s.ve 3).mayServe d = true ∧ w.inputThere d.op = true
    ∧ (s.ve 3).stagingUsed + (s.ownFor 3 d x w).bytes.length + (s.inputFor 3 d x w genW).bytes.length ≤ 2 ^ 20
    ∧ s.siblings 3 w (s.inputFor 3 d x w genW) = []
    ∧ (s.drawHbm false ((s.ownFor 3 d x w).drawn + (s.inputFor 3 d x w genW).drawn)).2 = true
    ∧ s.tileErr 2 genW (s.ownFor 3 d x w) = none ∧ s.tileErr 2 genW (s.inputFor 3 d x w genW) = none
    ∧ after (exec (.veFetchStart ⟨3, none⟩) s) (fun t => (t.ve 3).ring.map (·.fetched) == [true]
        && (t.ve 3).tiles.map (fun e => (e.shared, e.bytes.length)) == [(false, 18), (true, 64)]) = true
    ∧ after (exec (.veFetchStart ⟨4, none⟩) s) (· == s) = true := by decide +kernel
/-- O56: two engines work on the layer; the tile of the weights goes to both, once the other is due to read it. -/
theorem test_ve_multicast : let s := engine false false 1000 2
    let u := s.modVe 4 (fun x => { x with ring := [{ desc0 false false with op := .layer 1 }] })
    let inp := s.inputFor 3 (desc0 false false) (runCmd (veWork 2)) (veWork 2) genW
    u.siblings 3 (veWork 2) inp = [4] ∧ u.mayReceive (desc0 false false) inp.bytes.length 4 = true
    ∧ s.mayReceive (desc0 false false) inp.bytes.length 4 = false
    ∧ after (exec (.veFetchStart ⟨3, none⟩) s) (· == s) = true
    ∧ after (exec (.veFetchStart ⟨3, none⟩) u) (fun t => (t.ve 4).tiles.map (fun e => (e.shared, e.bytes.length)) == [(true, 64)]
        && (t.ve 4).ring == (u.ve 4).ring) = true := by decide +kernel
theorem test_ve_fetch_fails : after (exec (.veFetchStart ⟨3, none⟩) ((engine false false 1000 1).modCtx 2 (fun x => { x with
      bad := [(8, err0)] }))) (fun t => t.sig.seq == 1
      && t.cmds.all (·.ended)) = true
    ∧ after (exec (.veFetchStart ⟨3, none⟩) (engine false false 0 1)) (fun t => (t.ve 3).ring == [desc0 false false] && t.gov.eng) = true := by
  decide +kernel
theorem test_ve_execute : let s := engine true false 430 1
    ((s.ve 3).ring.zipIdx.find? (fun e => e.1.started)).or (s.ve 3).next = some (desc0 true false, 0) ∧ (desc0 true false).bursts ≠ 0
    ∧ s.counterMet (desc0 true false) = true
    ∧ (s.gov.drawPool (desc0 true false).stern 430).2 = true ∧ ((engine true false 429 1).gov.drawPool false 430).2 = false
    ∧ after (exec (.veDescriptorExecute 3 none) s) (fun t => (t.ve 3).ring == [{ desc0 true true with done := 1 }] && t.gov.pool == 0) = true
    ∧ after (exec (.veDescriptorExecute 3 (some ⟨0x9003, 0⟩)) s) (fun t => (t.ve 3).resErr == 1 && t.sig.seq == 1) = true
    ∧ after (exec (.veDescriptorExecute 3 none) (engine true false 429 1)) (fun t => (t.ve 3).ring == [desc0 true false] && t.gov.eng) = true := by
  decide +kernel
/-- O56, R119: the second burst holds the second 34-byte block of each tile. -/
theorem test_ve_burst : let bs (b : Nat) : List Byte := (List.range 68).map (fun i => BitVec.ofNat 8 (i + b))
    let s := (engine true false 430 1).modVe 3 (fun x => { x with
      ring := [{ desc0 true false with done := 1 }], ctx := 2, tiles := [⟨run2, false, (0, 0), bs 0⟩, ⟨run2, true, (0, 0), bs 100⟩] })
    after (exec (.veDescriptorExecute 3 none) s) (fun t => (t.ve 3).regs == (bs 0).drop 34 ++ (bs 100).drop 34) = true := by
  decide +kernel
theorem test_ve_complete : let s := engine true true 0 2
    Memory.wf s.host ∧ Plain s ∧ (s.ve 3).ring.zipIdx.find? (fun e => e.1.started && e.1.bursts == 0) = some (desc0 true true, 0)
    ∧ (∀ c, c < 16 → (s.ctx c).swingCmd = none) ∧ (desc0 true true).last = true ∧ (veWork 2).veParts.length + 1 < (veWork 2).shape.ves.length
    ∧ after (exec (.veDescriptorComplete 3) s) (fun t => (t.ve 3).ring.isEmpty && t.counter 5 == 1 && t.cmds.map (fun c => match c.work with
        | .run w => w.veParts
        | _ => []) == [[(0, 0)]]) = true
    ∧ after (exec (.veDescriptorComplete 3) (engine true false 0 1)) (· == engine true false 0 1) = true := by decide +kernel
theorem test_ve_last : let s := engine true true 0 1
    Plain s ∧ s.cmds = [runCmd (veWork 1)] ∧ (veWork 1).shape.ves.length ≤ (veWork 1).veParts.length + 1
      ∧ s.addrDev runPkt.resultAddr = s.self ∧ s.localAddr runPkt.resultAddr = some (.host 0x30000) := by decide +kernel
/-- O56: a descriptor that is not the last of its part, and the last ones of a training step and of an adapter's vector. -/
theorem test_ve_parts : let put (d : Desc) (s : State) : State := s.modVe 3 (fun x => { x with ring := [d] })
    let t : TrimWork := ⟨0, [], [0], none, 1⟩
    let s := engine true true 0 1
    let a := { engine true true 0 2 with cmds := [runCmd { veWork 2 with layer := layer0 }] }.modCtx 2 (fun x => { x with gens := [genT] })
    after (exec (.veDescriptorComplete 3) (put { desc0 true true with last := false } s)) (fun u => u.cmds == s.cmds && u.counter 5 == 1) = true
    ∧ Plain (put { desc0 true true with op := .train 0 } { s with cmds := [runCmd { veWork 1 with trim := some t }] })
    ∧ after (exec (.veDescriptorComplete 3) (put { desc0 true true with op := .train 0 } { s with
        cmds := [runCmd { veWork 1 with trim := some t }] })) (fun u => u.cmds.map (fun c => (c.trim?.map (·.ves))) == [some 0]) = true
    ∧ Plain (put { desc0 true true with op := .adapter 0 1 } a) ∧ regionOf genT 0 ≠ none
    ∧ after (exec (.veDescriptorComplete 3) (put { desc0 true true with op := .adapter 0 1 } a)) (fun u => u.cmds.map (fun c => match c.work with
        | .run w => w.veParts
        | _ => []) == [[(0, 1)]]) = true := by decide +kernel
theorem test_hbm_write : let s := act.modVe 3 (fun x => { x with writes := [(run2, some 9), (run2, none)] })
    (s.ve 3).writes = (run2, some 9) :: [(run2, none)]
    ∧ after (exec (.aeHbmWriteComplete ⟨3, none⟩) s) (fun t => (t.ve 3).writes == [(run2, none)] && t.counter 9 == 1) = true
    ∧ after (exec (.aeHbmWriteComplete ⟨3, some err0⟩) s) (fun t => t.sig.seq == 1) = true
    ∧ after (exec (.aeHbmWriteComplete ⟨4, none⟩) s) (· == s) = true := by decide +kernel

/-! ## Links and groups (O57 to O60) -/

/-- A system of two devices in one ring: address 0 is the top manager, address 1 the other member. -/
def grpPos (a : Nat) : Dword := BitVec.ofNat 32 (1 + (if a = 0 then 32 else 0) + 64 * a + 2 ^ 23)
def grpOf (a : Nat) : State :=
  let s := { act with
    env := { act.env with position := grpPos a }
    group := { Group.reset with
      configured := true, sysId := 5, devices := 2, depth := 1, nexthop := (if a = 0 then [(0, 0xFE), (1, 1)] else [(0, 0), (1, 0xFE)]) } }
  (s.setPort 0 { Port.reset with up := true, bypass := false }).setPort 1 { Port.reset with up := true, bypass := false }
def grp : State := grpOf 0
def mem1 : State := grpOf 1
/-- The one flit of a short message (R252, R254). -/
def flitOf (m : Msg) : Flit :=
  let pl := m.payload ++ List.replicate (1088 - m.payload.length) 0
  let f : Flit := ⟨[], pl, 0, 0, false⟩
  let h := bytesOf 32 [(0, 1, m.ctxcls.toNat), (1, 1, m.kind + 0x30 + 64 * m.level), (2, 2, m.tag.toNat), (4, 2, m.epoch.toNat), (6, 2, m.gen),
    (8, 4, m.claim.toNat), (12, 2, m.dst), (14, 2, m.src), (16, 2, m.step), (18, 2, m.payload.length), (20, 4, m.digest.toNat),
    (24, 5, wordParity f.payload)]
  ⟨h.take 31 ++ [0xFF ^^^ xorBytes h], pl, 0, 0, false⟩

/-- O57. -/
theorem test_port_trains : let s := grp.setPort 1 { Port.reset with bypass := false, training := true }
    (s.port 1).bypass = false ∧ (s.port 1).training = true ∧ s.peerOk 1 1 5 = true ∧ s.peerOk 1 2 5 = false ∧ s.peerOk 1 1 6 = false
    ∧ mem1.managesPair 0 = false ∧ s.managesPair 0 = true ∧ (s.port 0).up = true ∧ ringOf s.group.rings (s.ringKey 0) ≠ some .up
    ∧ after (exec (.portTrainingComplete 1 1 5) s) (fun t => (t.port 1).up && !(t.port 1).training) = true
    ∧ after (exec (.portTrainingComplete 1 1 6) s) (fun t => (t.port 1).peerBad && (t.port 1).training && !(t.port 1).up) = true := by
  decide +kernel
theorem test_port_untrained : (grp.port 1).training = false ∧ (State.reset.port 1).bypass = true
    ∧ after (exec (.portTrainingComplete 1 1 5) grp) (· == grp) = true := by decide +kernel
theorem test_port_retry : let s := grp.setPort 1 { Port.reset with bypass := false }
    (s.port 1).bypass = false ∧ (s.port 1).up = false ∧ (grp.port 1).up = true
    ∧ after (exec (.portTrainingRetry 1) s) (fun t => (t.port 1).training) = true
    ∧ after (exec (.portTrainingRetry 1) grp) (· == grp) = true := by decide +kernel
theorem test_port_loss : let s := { grp with group := { grp.group with rings := [(0, .up)] } }
    (s.port 1).up = true ∧ (s.port 2).up = false
    ∧ after (exec (.portLinkLoss 1) s) (fun t => !(t.port 1).up && (t.port 1).training && (t.port 1).downs == 1
        && t.group.rings == [(0, .degraded)] && t.group.fallen == [0] && t.outs.length == 1) = true
    ∧ after (exec (.portLinkLoss 2) s) (· == s) = true := by decide +kernel
/-- A held copy for device 1, its ACK and its RESEND, and an ACK for another device. -/
def copy1 : Msg := mkMsg 3 2 7 0 1 1 0 4 0 0 0 [1, 2]
def holding : State := { grp with group := { grp.group with held := [copy1] } }
def ackFlit : Flit := flitOf (copy1.answer 5 1)
def resendFlit : Flit := flitOf (copy1.answer 6 1)
def passing : Flit := flitOf { copy1.answer 5 0 with dst := 1 }
def badFlit : Flit := { ackFlit with hdr := List.replicate 32 0, corr := 3 }
theorem test_ack : (holding.port 1).up = true ∧ flOk ackFlit = true ∧ flDst ackFlit = holding.self ∧ flKind ackFlit = 5
    ∧ flDst passing ≠ holding.self ∧ flOk passing = true ∧ holding.hop (flDst passing) = some 1
    ∧ after (exec (.linkAck 1 ackFlit) holding) (fun t => t.group.held.isEmpty) = true
    ∧ after (exec (.linkAck 0 passing) holding) (fun t => t.outs == [.flit 1 passing] && t.group.held == [copy1]) = true
    ∧ (holding.port 2).bypass = true ∧ after (exec (.linkAck 2 ackFlit) holding) (fun t => t.outs == [.link 3 [ackFlit]] && t.group.held == [copy1]) = true := by
  decide +kernel
/-- A device sends nothing but IDLE flits on a ring that it knows to be DEGRADED. -/
theorem test_degraded_ring : let s := { holding with group := { holding.group with fallen := [0] } }
    (s.port 0).up = true ∧ holding.carries 1 = true ∧ s.carries 1 = false
    ∧ after (exec (.linkAck 0 passing) s) (fun t => t.outs.isEmpty) = true
    ∧ after (exec (.linkResend 1 resendFlit) s) (fun t => t.outs.isEmpty) = true := by decide +kernel
theorem test_resend : flOk resendFlit = true ∧ flDst resendFlit = holding.self ∧ flKind resendFlit = 6
    ∧ after (exec (.linkResend 1 resendFlit) holding) (fun t => t.outs == [.link 1 [flitOf copy1]] && t.group.held == [copy1]) = true := by
  decide +kernel
theorem test_idle_flit : flOk badFlit = false ∧ after (exec (.linkIdleFlit 1 badFlit) holding) (fun t => (t.port 1).parErr == 1
      && (t.port 1).fecCorr == 3 && (t.port 1).fecUncorr == 0) = true
    ∧ after (exec (.linkAck 1 badFlit) holding) (fun t => t.group.held == [copy1]) = true := by decide +kernel

/-- O58: a message of one flit; a copy of a signature, with the right digest and with a wrong one. -/
def sigMsg : Msg := mkMsg 7 0 9 0 0 0 1 0 0 0 1 (bytesOf 64 [(0, 1, 7)])
def shortMsg : Msg := mkMsg 7 0 9 0 0 0 1 0 0 0 1 [7]
def wrong : Msg := { shortMsg with digest := 0 }
theorem test_message : (∀ h ∈ [flitOf shortMsg], flOk h = true ∧ flDst h = grp.self) ∧ wholeMsg [flitOf shortMsg] = true
    ∧ msgOf (flitOf shortMsg) [flitOf shortMsg] = shortMsg
    ∧ (grp.receiveMsg 1 7 [flitOf shortMsg]).2 = .whole shortMsg ∧ grp.digestOk shortMsg = true
    ∧ grp.failedOnce shortMsg = false ∧ grp.top = true ∧ (∀ c, c < 16 → (grp.ctx c).swingCmd = none)
    ∧ after (exec (.linkSigMessage 1 [flitOf shortMsg]) grp) (fun t => t.sig.store == [[7]] && t.outs.length == 1) = true
    ∧ after (exec (.linkSigMessage 2 [flitOf shortMsg]) grp) (fun t => t.sig.store.isEmpty && t.outs == [.link 3 [flitOf shortMsg]]) = true := by decide +kernel
theorem test_digest : let i := Instr.linkSigMessage 1 [flitOf wrong]
    (grp.receiveMsg 1 7 [flitOf wrong]).2 = .whole wrong ∧ grp.digestOk wrong = false
    ∧ after (exec i grp) (fun t => t.group.expects == [⟨{ wrong with payload := [] }, true, false⟩] && t.sig.seq == 1 && (t.port 1).resend == 1) = true := by
  decide +kernel
/-- A message of two flits, of which the second has failed its checks; one whose only flit has failed its word parity; and one of whose
flits no header is right. It is missing, and fails at its timeout. -/
def spoiled : Flit := { flitOf shortMsg with payload := List.replicate 1088 1 }
def tornSig : Expect := ⟨{ shortMsg with payload := [] }, false, true⟩
theorem test_torn : let fs := [flitOf shortMsg, badFlit]
    (grp.port 1).up = true ∧ (grp.port 1).bypass = false ∧ (∀ h ∈ fs, flOk h = true → flDst h = grp.self)
    ∧ fs.filter flOk = flitOf shortMsg :: [] ∧ (grp.receiveMsg 1 7 fs).2 = .torn (msgOf (flitOf shortMsg) [flitOf shortMsg])
    ∧ [spoiled].filter flOk = [] ∧ hdrOk spoiled = true ∧ flDst spoiled = grp.self ∧ flKind spoiled = 7
    ∧ after (exec (.linkSigMessage 1 [spoiled]) grp) (fun t => t.group.expects.map (fun e => (e.failed, e.torn, e.msg.tag))
        == [(false, true, 9)] && t.sig.seq == 0 && t.outs.isEmpty) = true
    ∧ hdrOk badFlit = false ∧ (grp.receiveMsg 1 7 [badFlit]).2 = .nothing := by decide +kernel
theorem test_torn_late : let s := { grp with group := { grp.group with expects := [tornSig] } }
    s.expects? 0 9 1 0 = some tornSig
    ∧ after (exec (.messageTimeout 0 9 1 0) s) (fun t => t.group.expects == [⟨tornSig.msg, true, false⟩] && t.sig.seq == 1
        && (t.port 1).resend == 1) = true := by decide +kernel
/-- R252, R254: the flit that the device sends of a short message is the one written out here from the header's fields. -/
theorem test_flits : shortMsg.flits = [flitOf shortMsg] := by decide +kernel
/-- A flit for a device without a hop is lost and counted; a closed port takes nothing. -/
theorem test_relay : let far := flitOf { copy1.answer 5 0 with dst := 9 }
    let s := holding.setPort 1 { Port.reset with bypass := false }
    flOk far = true ∧ flDst far ≠ holding.self ∧ holding.hop (flDst far) = none
    ∧ after (exec (.linkAck 0 far) holding) (fun t => t.outs.isEmpty && (t.port 0).parErr == 1) = true
    ∧ (s.port 1).bypass = false ∧ (s.port 1).up = false ∧ after (exec (.linkAck 1 ackFlit) s) (· == s) = true := by decide +kernel
/-- A message of two flits whose indices are out of order is none. -/
theorem test_order : wholeMsg [flitOf shortMsg, flitOf shortMsg] = false := by decide +kernel
/-- DATA and PART messages that no command here awaits yet. -/
def dataMsg (k : Nat) : Msg := mkMsg k 2 8 0 1 0 1 1 0 0 1 [1, 2]
theorem test_data_waits : grp.msgCmd (dataMsg 3) = none ∧ grp.msgCmd (dataMsg 4) = none ∧ grp.digestOk (dataMsg 3) = true
    ∧ grp.digestOk (dataMsg 4) = true
    ∧ after (exec (.linkDataMessage 1 [flitOf (dataMsg 3)]) grp) (fun t => t.group.rx == [dataMsg 3]) = true
    ∧ after (exec (.linkPartMessage 1 [flitOf (dataMsg 4)]) grp) (fun t => t.group.rx == [dataMsg 4]) = true := by decide +kernel
/-- A member that is not the top manager takes no status; a manager takes no command. -/
theorem test_not_for_it : mem1.top = false ∧ (mem1.receiveMsg 0 2 [flitOf (mkMsg 2 0 9 0 0 1 0 0 0 0 0 [0])]).2 = .whole (mkMsg 2 0 9 0 0 1 0 0 0 0 0 [0])
    ∧ mem1.digestOk (mkMsg 2 0 9 0 0 1 0 0 0 0 0 [0]) = true
    ∧ after (exec (.linkStatusMessage 0 [flitOf (mkMsg 2 0 9 0 0 1 0 0 0 0 0 [0])]) mem1) (fun t => t.cmds.isEmpty && t.outs.length == 1) = true
    ∧ grp.top = true ∧ after (exec (.linkCmdMessage 1 [flitOf (mkMsg 1 0 9 0 0 0 1 0 0 0 1 [0])]) grp) (fun t =>
        t.ctxs.isEmpty && t.outs.length == 1) = true := by decide +kernel
/-- Contributions and inputs of commands that are here. -/
def gcollPkt : Packet := pkt .collective 2 8 [(8, 4, 2), (16, 8, 2 ^ 63 + 2 ^ 50), (24, 8, 2 ^ 63), (32, 1, 1), (36, 4, 3), (40, 4, 100)]
def gcollCmd : Cmd := { mkCmd grp (.ctx 2) gcollPkt false (.coll [] true) with gen := 1 }
def collS : State := { grp with cmds := [gcollCmd] }
def collMsg : Msg := mkMsg 3 2 8 0 1 0 1 1 0 3 1 [1, 2]
theorem test_contribution : collS.msgCmd collMsg = some gcollCmd ∧ collS.digestOk collMsg = true
    ∧ (collS.receiveMsg 1 3 [flitOf collMsg]).2 = .whole collMsg
    ∧ after (exec (.linkDataMessage 1 [flitOf collMsg]) collS) (fun t => t.cmds.map (·.work) == [.coll [(1, [1, 2])] true]) = true := by
  decide +kernel
/-- The members of the group run generation 1 of context 2; the inputs of the RUN are in device 1. -/
def grpLive : State := { live with env := grp.env, group := grp.group, ports := grp.ports }
def grpRunPkt : Packet := pkt .run 0x12 8 [(8, 4, 18), (16, 8, 2 ^ 63 + 2 ^ 50), (24, 8, 0x30000), (52, 4, 18)]
def grpRunCmd : Cmd := { mkCmd grpLive (.ctx 2) grpRunPkt false (.run work0) with gen := 1 }
def grpRun : State := { grpLive with cmds := [grpRunCmd] }
theorem test_input : grpRun.msgCmd (dataMsg 3) = some grpRunCmd ∧ grpRun.runGen grpRunCmd = some gen0 ∧ (1, 1) ∉ work0.arrived
    ∧ grpRun.isInput grpRunCmd work0 1 1 = true ∧ grpRun.digestOk (dataMsg 3) = true
    ∧ after (exec (.linkDataMessage 1 [flitOf (dataMsg 3)]) grpRun) (fun t => t.cmds.map (fun c => match c.work with
        | .run w => w.inputs
        | _ => []) == [[(0, [1, 2])]]) = true := by decide +kernel
theorem test_part : grpRun.msgCmd (dataMsg 4) = some grpRunCmd ∧ grpRunCmd.ended = false ∧ grpRun.cmd? grpRunCmd.ref = some grpRunCmd
    ∧ (grpRun.receiveMsg 1 4 [flitOf (dataMsg 4)]).2 = .whole (dataMsg 4) ∧ grpRun.digestOk (dataMsg 4) = true := by decide +kernel
theorem test_part_again : let c := { grpRunCmd with work := .run { work0 with arrived := [(1, 1)] } }
    let s := { grpRun with cmds := [c] }
    s.msgCmd (dataMsg 4) = some c
    ∧ after (exec (.linkPartMessage 1 [flitOf (dataMsg 4)]) s) (fun t => t.cmds == [c] && t.outs.length == 1) = true := by decide +kernel
/-- CMD messages: a CTX_OPEN, an unknown opcode, a CTX_OPEN that a check refuses. Their digests are checked in four parts. -/
def openPkt : Packet := pkt .ctxOpen 0x14 7 []
def oddPkt : Packet := ⟨bytesOf 64 [(0, 1, 0xEE), (1, 1, 4)], [], none⟩
def refusedPkt : Packet := pkt .ctxOpen 0x24 7 []
def openMsg : Msg := ⟨1, openPkt.ctxcls, openPkt.tag, 0, 0, 0, 1, 0, 0, 0, openPkt.bytes, 0xA4DD98F6⟩
theorem test_openMsg_digest : mem1.digestOk openMsg = true := by
  have h0 : ([0, 0, 0, 0, 7, 0, 0, 0, 0, 0, 0, 0, 4, 0, 0, 0, 8, 20, 7, 0] : List Byte).foldl crcByte 0xFFFFFFFF#32 = 0xD58E9487#32 := by decide +kernel
  have h1 : ([0, 0, 0, 0, 0, 0, 0, 0, 0, 0, 0, 0, 0, 0, 0, 0, 0, 0, 0, 0] : List Byte).foldl crcByte 0xD58E9487#32 = 0x79F618DA#32 := by decide +kernel
  have h2 : ([0, 0, 0, 0, 0, 0, 0, 0, 0, 0, 0, 0, 0, 0, 0, 0, 0, 0, 0, 0] : List Byte).foldl crcByte 0x79F618DA#32 = 0x915AF913#32 := by decide +kernel
  have h3 : ([0, 0, 0, 0, 0, 0, 0, 0, 0, 0, 0, 0, 0, 0, 0, 0, 0, 0, 0, 0] : List Byte).foldl crcByte 0x915AF913#32 = 0x5B226709#32 := by decide +kernel
  have e : digestPrefix 0 7 0 0 0 4 0 ++ openPkt.bytes
      = ([0, 0, 0, 0, 7, 0, 0, 0, 0, 0, 0, 0, 4, 0, 0, 0, 8, 20, 7, 0] : List Byte)
        ++ ([0, 0, 0, 0, 0, 0, 0, 0, 0, 0, 0, 0, 0, 0, 0, 0, 0, 0, 0, 0] : List Byte)
        ++ ([0, 0, 0, 0, 0, 0, 0, 0, 0, 0, 0, 0, 0, 0, 0, 0, 0, 0, 0, 0] : List Byte)
        ++ ([0, 0, 0, 0, 0, 0, 0, 0, 0, 0, 0, 0, 0, 0, 0, 0, 0, 0, 0, 0] : List Byte) := by decide +kernel
  have x : mem1.expected openMsg = ⟨0, 0, 0, 0, 0⟩ := by decide +kernel
  have z : mem1.stepOk openMsg = true := by decide +kernel
  have y : openMsg.digest = 0xA4DD98F6#32 ∧ openMsg.tag.toNat = 7 ∧ openMsg.step = 0 ∧ openMsg.gen = 0 ∧ openMsg.ctx = 4 ∧ openMsg.payload = openPkt.bytes := by
    decide +kernel
  simp only [State.digestOk, x, z, y, crc32c, e, List.foldl_append, h0, h1, h2, h3]
  decide
def oddMsg : Msg := ⟨1, oddPkt.ctxcls, oddPkt.tag, 0, 0, 0, 1, 0, 0, 0, oddPkt.bytes, 0xC98A5F61⟩
theorem test_oddMsg_digest : mem1.digestOk oddMsg = true := by
  have h0 : ([0, 0, 0, 0, 0, 0, 0, 0, 0, 0, 0, 0, 4, 0, 0, 0, 238, 4, 0, 0] : List Byte).foldl crcByte 0xFFFFFFFF#32 = 0xE0DB7C71#32 := by decide +kernel
  have h1 : ([0, 0, 0, 0, 0, 0, 0, 0, 0, 0, 0, 0, 0, 0, 0, 0, 0, 0, 0, 0] : List Byte).foldl crcByte 0xE0DB7C71#32 = 0x8D1DE866#32 := by decide +kernel
  have h2 : ([0, 0, 0, 0, 0, 0, 0, 0, 0, 0, 0, 0, 0, 0, 0, 0, 0, 0, 0, 0] : List Byte).foldl crcByte 0x8D1DE866#32 = 0x43934BA4#32 := by decide +kernel
  have h3 : ([0, 0, 0, 0, 0, 0, 0, 0, 0, 0, 0, 0, 0, 0, 0, 0, 0, 0, 0, 0] : List Byte).foldl crcByte 0x43934BA4#32 = 0x3675A09E#32 := by decide +kernel
  have e : digestPrefix 0 0 0 0 0 4 0 ++ oddPkt.bytes
      = ([0, 0, 0, 0, 0, 0, 0, 0, 0, 0, 0, 0, 4, 0, 0, 0, 238, 4, 0, 0] : List Byte)
        ++ ([0, 0, 0, 0, 0, 0, 0, 0, 0, 0, 0, 0, 0, 0, 0, 0, 0, 0, 0, 0] : List Byte)
        ++ ([0, 0, 0, 0, 0, 0, 0, 0, 0, 0, 0, 0, 0, 0, 0, 0, 0, 0, 0, 0] : List Byte)
        ++ ([0, 0, 0, 0, 0, 0, 0, 0, 0, 0, 0, 0, 0, 0, 0, 0, 0, 0, 0, 0] : List Byte) := by decide +kernel
  have x : mem1.expected oddMsg = ⟨0, 0, 0, 0, 0⟩ := by decide +kernel
  have z : mem1.stepOk oddMsg = true := by decide +kernel
  have y : oddMsg.digest = 0xC98A5F61#32 ∧ oddMsg.tag.toNat = 0 ∧ oddMsg.step = 0 ∧ oddMsg.gen = 0 ∧ oddMsg.ctx = 4 ∧ oddMsg.payload = oddPkt.bytes := by
    decide +kernel
  simp only [State.digestOk, x, z, y, crc32c, e, List.foldl_append, h0, h1, h2, h3]
  decide
def refusedMsg : Msg := ⟨1, refusedPkt.ctxcls, refusedPkt.tag, 0, 0, 0, 1, 0, 0, 0, refusedPkt.bytes, 0x07C72C9E⟩
theorem test_refusedMsg_digest : mem1.digestOk refusedMsg = true := by
  have h0 : ([0, 0, 0, 0, 7, 0, 0, 0, 0, 0, 0, 0, 4, 0, 0, 0, 8, 36, 7, 0] : List Byte).foldl crcByte 0xFFFFFFFF#32 = 0x44681219#32 := by decide +kernel
  have h1 : ([0, 0, 0, 0, 0, 0, 0, 0, 0, 0, 0, 0, 0, 0, 0, 0, 0, 0, 0, 0] : List Byte).foldl crcByte 0x44681219#32 = 0xB438DD23#32 := by decide +kernel
  have h2 : ([0, 0, 0, 0, 0, 0, 0, 0, 0, 0, 0, 0, 0, 0, 0, 0, 0, 0, 0, 0] : List Byte).foldl crcByte 0xB438DD23#32 = 0x801D71A8#32 := by decide +kernel
  have h3 : ([0, 0, 0, 0, 0, 0, 0, 0, 0, 0, 0, 0, 0, 0, 0, 0, 0, 0, 0, 0] : List Byte).foldl crcByte 0x801D71A8#32 = 0xF838D361#32 := by decide +kernel
  have e : digestPrefix 0 7 0 0 0 4 0 ++ refusedPkt.bytes
      = ([0, 0, 0, 0, 7, 0, 0, 0, 0, 0, 0, 0, 4, 0, 0, 0, 8, 36, 7, 0] : List Byte)
        ++ ([0, 0, 0, 0, 0, 0, 0, 0, 0, 0, 0, 0, 0, 0, 0, 0, 0, 0, 0, 0] : List Byte)
        ++ ([0, 0, 0, 0, 0, 0, 0, 0, 0, 0, 0, 0, 0, 0, 0, 0, 0, 0, 0, 0] : List Byte)
        ++ ([0, 0, 0, 0, 0, 0, 0, 0, 0, 0, 0, 0, 0, 0, 0, 0, 0, 0, 0, 0] : List Byte) := by decide +kernel
  have x : mem1.expected refusedMsg = ⟨0, 0, 0, 0, 0⟩ := by decide +kernel
  have z : mem1.stepOk refusedMsg = true := by decide +kernel
  have y : refusedMsg.digest = 0x07C72C9E#32 ∧ refusedMsg.tag.toNat = 7 ∧ refusedMsg.step = 0 ∧ refusedMsg.gen = 0 ∧ refusedMsg.ctx = 4 ∧ refusedMsg.payload = refusedPkt.bytes := by
    decide +kernel
  simp only [State.digestOk, x, z, y, crc32c, e, List.foldl_append, h0, h1, h2, h3]
  decide
theorem test_forwarded : (mem1.receiveMsg 0 1 [flitOf openMsg]).2 = .whole openMsg ∧ mem1.member = true ∧ mem1.top = false
    ∧ mem1.group.rx = [] ∧ opOf openPkt.opcode = some .ctxOpen ∧ (mem1.acked openMsg).admission (.fwd 4) .ctxOpen openPkt = none
    ∧ openPkt.noAddrs = true ∧ mem1.env.envSet = true ∧ mem1.env.trimLoaded = true ∧ mem1.hop mem1.topAddr = some 0
    ∧ after (.next (mem1.runCmd openMsg)) (fun t => (t.ctx 4).st == .opened
        && t.group.held.map (fun x => (x.kind, x.dst, x.payload)) == [(2, 0, statusEntry openPkt .ok 0 0 0 0 false)]) = true := by
  decide +kernel
theorem test_forwarded_unknown : opOf oddPkt.opcode = none ∧ (mem1.receiveMsg 0 1 [flitOf oddMsg]).2 = .whole oddMsg := by
  decide +kernel
theorem test_forwarded_refused : (forwardedEff refusedMsg .ctxOpen).isSome = true
    ∧ (mem1.acked refusedMsg).admission (.fwd 4) .ctxOpen refusedPkt = some .badParam
    ∧ (mem1.receiveMsg 0 1 [flitOf refusedMsg]).2 = .whole refusedMsg := by decide +kernel
/-- A CTRL message; what its payload is stays open (log entry 76). -/
theorem test_ctrl : let m := mkMsg 8 0 9 0 0 0 1 0 0 0 1 [5]
    (grp.receiveMsg 1 8 [flitOf m]).2 = .whole m ∧ grp.digestOk m = true ∧ grp.failedOnce m = false := by decide +kernel
/-- A message awaited too long, for the first and for the second time; the part of a member. -/
def lateMsg : Msg := grpRun.missing 2 8 1 1
def lateRun (again : Bool) : State :=
  { grpRun with group := { grpRun.group with expects := if again then [⟨lateMsg, true, false⟩] else [] } }
theorem test_late : let s := lateRun false
    (∀ d ∈ s.cmds, d.pkt.ctx = ctxOf d.ref.q d.pkt) ∧ s.expects? 2 8 1 1 = none ∧ s.awaits 2 8 1 1 = true ∧ s.awaits 3 8 1 1 = false
    ∧ after (exec (.messageTimeout 2 8 1 1) s) (fun t => t.group.expects == [⟨lateMsg, true, false⟩] && t.sig.seq == 1
        && (t.port 1).resend == 1) = true := by decide +kernel
theorem test_late_again : let s := lateRun true
    s.expects? 2 8 1 1 = some ⟨lateMsg, true, false⟩ ∧ lateMsg.kind ≠ 7
    ∧ s.cmds.find? (fun d => decide (d.ref.tag = 8) && ctxOf d.ref.q d.pkt == 2
        && (match d.work with | .run _ => true | .coll _ _ => true | _ => false)) = some grpRunCmd
    ∧ after (exec (.messageTimeout 2 8 1 1) s) (fun t => t.group.expects.isEmpty
        && t.cmds.map (fun c => (c.ended, c.outcome)) == [(true, .timeout)]) = true := by decide +kernel
def openCmd (le : Option (Status × Nat × Nat)) : Cmd := { mkCmd grp .admin openPkt true .plain with parts := [1], localEnd := le }
def opening (le : Option (Status × Nat × Nat)) : State :=
  { grp.modQueue .admin (fun x => { x with enable := true, cqBase := 0x10000 }) with
    cmds := [openCmd le] }
theorem test_late_part : let n := (opening none).missing 4 7 1 0
    let s := { opening none with group := { grp.group with expects := [⟨n, true, false⟩] } }
    s.expects? 4 7 1 0 = some ⟨n, true, false⟩ ∧ n.kind ≠ 7
    ∧ s.cmds.find? (fun d => decide (d.ref.tag = 7) && ctxOf d.ref.q d.pkt == 4 && d.parts.contains 1)
        = some (openCmd none) ∧ s.cmd? (openCmd none).ref = some (openCmd none) ∧ (openCmd none).localEnd = none
    ∧ after (exec (.messageTimeout 4 7 1 0) s) (fun t => t.cmds.map (fun c => (c.parts, c.merged))
        == [([], [(1, statusEntry openPkt .timeout 0 0 0 0 false)])]) = true := by decide +kernel
/-- A SIG message that fails for the second time is lost. -/
theorem test_late_sig : let s := { grp with group := { grp.group with expects := [⟨tornSig.msg, true, false⟩] } }
    s.expects? 0 9 1 0 = some ⟨tornSig.msg, true, false⟩ ∧ tornSig.msg.kind = 7
    ∧ after (exec (.messageTimeout 0 9 1 0) s) (fun t => t.group.expects == [] && t.cmds == [] && t.sig.lost == 1) = true := by decide +kernel

/-- O59: a CTX_OPEN at the top manager; the STATUS message of the last part. -/
theorem test_open_forwarded : let s := offer grp .admin openPkt
    Presents s .admin .ctxOpen openPkt ∧ openPkt.noAddrs = true ∧ s.env.envSet = true ∧ s.env.trimLoaded = true
    ∧ s.parties .admin .ctxOpen = [1]
    ∧ after (exec (.ctxOpen .admin) s) (fun t => (t.ctx 4).st == .closed && t.cmds == [openCmd (some (.ok, 0, 0))]
        && t.group.held.map (fun x => (x.kind, x.dst, x.payload)) == [(1, 1, openPkt.bytes)] && t.host.isEmpty) = true :=
  ⟨shown_presents _ _ _ _ (by decide +kernel), by decide +kernel⟩
def statusMsg : Msg := mkMsg 2 0x14 7 0 0 0 1 0 0 0 1 (statusEntry openPkt .ok 0 0 0 0 false)
theorem test_status_waits : let s := opening none
    s.top = true ∧ (s.receiveMsg 1 2 [flitOf statusMsg]).2 = .whole statusMsg ∧ s.digestOk statusMsg = true
    ∧ s.cmds.find? (fun d => decide (d.ref.tag = 7) && ctxOf d.ref.q d.pkt == 4 && d.parts.contains 1
        && d.pkt.opcode == field statusMsg.payload 6 1) = some (openCmd none)
    ∧ after (exec (.linkStatusMessage 1 [flitOf statusMsg]) s) (fun t => t.cmds.map (·.parts) == [[]]) = true := by decide +kernel
theorem test_status_last : let s := opening (some (.ok, 0, 0))
    s.top = true ∧ (s.receiveMsg 1 2 [flitOf statusMsg]).2 = .whole statusMsg ∧ s.digestOk statusMsg = true
    ∧ (openCmd (some (.ok, 0, 0))).pkt.opcode = 0x08 ∧ statusOf (field (statusMsg.payload.take 16) 2 1) = .ok
    ∧ answerOf (exec (.linkStatusMessage 1 [flitOf statusMsg]) s) = some (0, 0, 0, 0) := by decide +kernel

/-- O59: a part that a check refused. -/
theorem test_status_refused : let m := mkMsg 2 0x14 7 0 0 0 1 0 0 0 1 (statusEntry openPkt .state 0 0 0 0 false)
    let s := opening (some (.ok, 0, 0))
    (s.receiveMsg 1 2 [flitOf m]).2 = .whole m ∧ s.digestOk m = true ∧ statusRank (statusOf (field (m.payload.take 16) 2 1)) = 0
    ∧ answerOf (exec (.linkStatusMessage 1 [flitOf m]) s) = some (0x12, 0, 0, 0)
    ∧ after (exec (.linkStatusMessage 1 [flitOf m]) s) (fun t => (t.ctx 4).st == .closed) = true := by decide +kernel

/-- O60. -/
def cfgPkt (n : Nat) : Packet := pkt .groupConfig 0x10 7 [(8, 4, n), (16, 8, 0x40000)]
def tableHead : List Byte :=
  leBytes 2 2 ++ leBytes 1 1 ++ leBytes 1 0 ++ leBytes 4 (grpPos 0).toNat ++ leBytes 8 5 ++ List.replicate 48 0 ++ [0xFE, 1]
def table : List Byte := tableHead ++ List.replicate 4094 0xFF
def alone0 : State := { up with env := { up.env with position := grpPos 0 } }
def tabled : State := { alone0 with host := Memory.writeBytes [] 0x40000 table }
theorem table_entry (a : Nat) (h : 2 ≤ a) (g : a < 4096) : tableEntry table a = 0xFF := by
  have e : table.drop (64 + a) = List.replicate (4094 - (a - 2)) 0xFF := by
    have l : tableHead.length = 66 := by decide +kernel
    rw [table, List.drop_append, List.drop_of_length_le (by omega), l, List.drop_replicate, List.nil_append]
    congr 1
    omega
  have n : 4094 - (a - 2) = (4094 - (a - 2) - 1) + 1 := by omega
  rw [tableEntry, field, e, n, List.replicate_succ]
  rfl
theorem table_devices : tableDevices table = [0, 1] := by
  have r : List.range 4096 = [0, 1] ++ (List.range 4094).map (2 + ·) := List.range_add (n := 2) (m := 4094)
  have z : ((List.range 4094).map (2 + ·)).filter (fun a => tableEntry table a ≠ 0xFF) = [] := by
    rw [List.filter_eq_nil_iff]
    intro x hx
    obtain ⟨y, hy, rfl⟩ := List.mem_map.mp hx
    have := List.mem_range.mp hy
    simp [table_entry (2 + y) (by omega) (by omega)]
  rw [tableDevices, r, List.filter_append, z]
  decide +kernel
theorem table_ok : alone0.tableOk table = true := by
  simp only [State.tableOk, table_devices]
  decide +kernel
theorem test_group_table : let s := offer tabled .admin (cfgPkt 4160)
    Presents s .admin .groupConfig (cfgPkt 4160) ∧ (cfgPkt 4160).hostData = some 0x40000 ∧ s.env.env ≠ 1
    ∧ s.tableOk (Memory.readBytes s.host 0x40000 4160) = true := by
  have w : Memory.wf tabled.host := Memory.wf_writeBytes _ _ Memory.wf_nil
  have len : table.length = 4160 := by
    have l : tableHead.length = 66 := by decide +kernel
    rw [table, List.length_append, List.length_replicate, l]
  have r : Memory.readBytes tabled.host 0x40000 4160 = table := by
    have h := Memory.readBytes_writeBytes Memory.wf_nil 0x40000 table
    rw [len] at h
    exact h
  refine ⟨⟨w, by decide +kernel, by decide +kernel, by decide +kernel, by decide +kernel, by decide +kernel⟩, by decide +kernel,
    by decide +kernel, ?_⟩
  have x : (offer tabled .admin (cfgPkt 4160)).host = tabled.host := rfl
  rw [x, r]
  exact table_ok
theorem test_group_length : Presents (offer alone0 .admin (cfgPkt 5)) .admin .groupConfig (cfgPkt 5) ∧ (cfgPkt 5).hostData = some 0x40000
    ∧ answerOf (exec (.groupConfig .admin) (offer alone0 .admin (cfgPkt 5))) = some (0x11, 0, 0, 0) :=
  ⟨shown_presents _ _ _ _ (by decide +kernel), by decide +kernel⟩
theorem test_group_e1 : Presents (offer bootE1 .admin (cfgPkt 0)) .admin .groupConfig (cfgPkt 0) ∧ bootE1.env.env = 1
    ∧ answerOf (exec (.groupConfig .admin) (offer bootE1 .admin (cfgPkt 0))) = some (0x12, 0, 0, 0) :=
  ⟨shown_presents _ _ _ _ (by decide +kernel), by decide +kernel⟩
theorem test_group_left : let s := offer { grp with dev := { grp.dev with st := .ready } } .admin (cfgPkt 0)
    Presents s .admin .groupConfig (cfgPkt 0) ∧ s.env.env ≠ 1 ∧ answerOf (exec (.groupConfig .admin) s) = some (0, 0, 0, 0)
    ∧ after (exec (.groupConfig .admin) s) (fun t => t.env.position == 0 && !t.group.configured && (t.port 1).bypass) = true :=
  ⟨shown_presents _ _ _ _ (by decide +kernel), by decide +kernel⟩
theorem test_group_bad : let s := offer alone0 .admin (cfgPkt 4160)
    Presents s .admin .groupConfig (cfgPkt 4160) ∧ s.tableOk (Memory.readBytes s.host 0x40000 4160) = false
    ∧ answerOf (exec (.groupConfig .admin) s) = some (0x11, 0, 0, 0) :=
  ⟨shown_presents _ _ _ _ (by decide +kernel), by decide +kernel⟩
theorem test_status_alone : let p := pkt .groupStatus 0x10 7 [(8, 4, 64), (24, 8, 0x30000)]
    let s := offer up .admin p
    Presents s .admin .groupStatus p ∧ p.hostResult = some 0x30000 ∧ 32 + 32 * s.subtree.length ≤ p.length
    ∧ s.subtree.filter (· ≠ s.self) = [] :=
  ⟨shown_presents _ _ _ _ (by decide +kernel), by decide +kernel⟩
theorem test_status_short : let p := pkt .groupStatus 0x10 7 [(8, 4, 63), (24, 8, 0x30000)]
    let s := offer up .admin p
    Presents s .admin .groupStatus p ∧ p.length < 32 + 32 * s.subtree.length
    ∧ answerOf (exec (.groupStatus .admin) s) = some (0x11, 0, 0, 0) :=
  ⟨shown_presents _ _ _ _ (by decide +kernel), by decide +kernel⟩
def reportPkt : Packet := pkt .groupStatus 0x10 7 [(8, 4, 96), (24, 8, 0x30000)]
theorem test_status_asks : let s := offer grp .admin reportPkt
    Presents s .admin .groupStatus reportPkt ∧ reportPkt.hostResult = some 0x30000 ∧ 32 + 32 * s.subtree.length ≤ reportPkt.length
    ∧ s.subtree.filter (· ≠ s.self) = [1] :=
  ⟨shown_presents _ _ _ _ (by decide +kernel), by decide +kernel⟩
def reportCmd (missing : List Nat) : Cmd := mkCmd grp .admin reportPkt false (.groupStatus [(0, silentRecord 0)] missing)
def reporting (missing : List Nat) : State := { grp with cmds := [reportCmd missing] }
theorem test_answer_late : let x := reportCmd [1, 2]
    let s := reporting [1, 2]
    Memory.wf s.host ∧ s.cmd? x.ref = some x ∧ (∀ y ∈ s.cmds, y.ref = x.ref → y = x) ∧ Lone x ∧ reportPkt.hostResult = some 0x30000
    ∧ 1 ∈ [1, 2] ∧ ([1, 2].erase 1) ≠ [] ∧ s.cmd? ⟨.admin, 9⟩ = none
    ∧ after (exec (.groupStatusAnswerTimeout x.ref 1) s) (fun t => t.cmds.map (·.work)
        == [.groupStatus [(0, silentRecord 0), (1, silentRecord 1)] [2]]) = true := by decide +kernel
theorem test_answer_last : let x := reportCmd [1]
    let s := (reporting [1]).modQueue .admin (fun q => { q with enable := true, cqBase := 0x10000 })
    s.cmd? x.ref = some x ∧ ([1].erase 1) = ([] : List Nat)
    ∧ answerOf (exec (.groupStatusAnswerTimeout x.ref 1) s) = some (0, 0, 96, 0) := by decide +kernel
theorem test_poll : let s := { grpOf 0 with group := { grp.group with nexthop := [(0, 0xFE), (8, 1)], rings := [(0, .up), (8, .up)] } }
    s.top = true ∧ mem1.top = false ∧ s.managers.contains 8 = true
    ∧ after (exec .groupPoll s) (fun t => t.group.polls.contains 8) = true
    ∧ after (exec .groupPoll mem1) (· == mem1) = true := by decide +kernel
theorem test_poll_late : let s := { grp with group := { grp.group with polls := [8], rings := [(0, .up), (8, .up)] } }
    8 ∈ s.group.polls ∧ 9 ∉ s.group.polls
    ∧ after (exec (.groupPollTimeout 8) s) (fun t => t.group.polls.isEmpty && t.group.rings == [(0, .up), (8, .degraded)]) = true
    ∧ after (exec (.groupPollTimeout 9) s) (· == s) = true := by decide +kernel

/-! ## Clauses added in the fourth sitting -/

/-- O7, O9, R203: a NOP with IRQ = 1 whose vector is masked pends; unmasked it is sent; so too the vector of a virtual function. -/
theorem test_irq_masked : let p := pkt .nop 0x10 7 [(4, 2, 2)]
    let s := offer up .admin p
    Presents s .admin .nop p ∧ p.irq = true ∧ s.vectorOf .admin = (0, 0) ∧ s.vectorMasked 0 0 = true ∧ s.dev.endpointFault = false
    ∧ after (exec (.nop .admin) s) (fun t => t.outs.isEmpty && t.dev.pba == 1) = true :=
  ⟨shown_presents _ _ _ _ (by decide +kernel), by decide +kernel⟩
def open1 : State := { act with dev := { act.dev with msix := [(44, 0)], vfTable := [(60, 0)], vfEn := 2, vfMsix := 2 } }
theorem test_irq_sent : let p := pkt .nop 0x10 7 [(4, 2, 2)]
    let s := { act with dev := { act.dev with msix := [(12, 0)] } }
    s.vectorMasked 0 0 = false ∧ open1.vectorMasked 0 2 = false
    ∧ after (exec (.nop .admin) (offer s .admin p)) (fun t => t.outs == [.msix 0 0] && t.dev == s.dev) = true
    ∧ after (exec (.nop (.ctx 0)) (offer open1 (.ctx 0) p)) (fun t => t.outs == [.msix 0 2] && t.dev == open1.dev) = true
    ∧ open1.vectorOf (.bow 1) = (2, 1) ∧ open1.vectorMasked 2 1 = true ∧ open1.vectorOf (.bow 0) = (0, 18)
    ∧ after (exec (.nop (.bow 1)) (offer open1 (.bow 1) (pkt .nop 0x01 7 [(4, 2, 2)]))) (fun t => t.outs.isEmpty
        && t.dev == { open1.dev with vfPba := 16 }) = true := by decide +kernel

/-- O13: the RUN of a bivouac-tier layer on VE 8 of die 1, which E1 leaves without power, is to be dispatched again. -/
def veWork8 : RunWork := { RunWork.start 0 layerV 1 [] with dispatched := true, due := 1, veNext := 1, shape := ⟨[8], 0, 18, 64, 1⟩ }
def engine8 : State :=
  ((running veWork8).modCtx 2 (fun x => { x with gens := [{ genV with biv := [(1, 7)] }] })).modVe 8 (fun x => { x with
    ring := [{ fullDesc with signal := some 70 }] })
theorem test_die_leaves : Canonical engine8 ∧ diePowered engine8.env.env 1 = true ∧ diePowered 1 1 = false
    ∧ (∀ k, k < 1 → diePowered engine8.env.env k = true → diePowered 1 k = true) ∧ engine8.leavesVes 1 (runCmd veWork8) = true
    ∧ runCmd veWork8 ∈ engine8.cmds ∧ ((engine8.setEnvelope 1).ve 8).ring = []
    ∧ (engine8.setEnvelope 1).cmds.map (fun c => match c.work with
        | .run w => w.dispatched
        | _ => true) = [false] :=
  ⟨canon_canonical _ (by decide +kernel), by decide +kernel⟩
/-- O13, R357: array (64, 0), of a die that E4 powers again, in BOATHOUSE. -/
theorem test_die_again : let s := { bootE1 with dev := { bootE1.dev with st := .boathouse } }
    arrIdx 64 0 < 4352 ∧ diePowered s.env.env (crewDie (arrIdx 64 0 / 17)) = false ∧ diePowered 4 (crewDie (arrIdx 64 0 / 17)) = true
    ∧ s.env.trimLoaded = true := by decide +kernel

/-- O16, R269: two members whose manifests differ in CLASS; the top manager answers with the address of the other one. -/
def otherManifest : List Byte := sigManifest.take 129 ++ [0] ++ sigManifest.drop 130
def groupIdx : List Byte := bytesOf 16 [(0, 2, 0), (4, 4, 544), (8, 8, 0x40000)] ++ bytesOf 16 [(0, 2, 1), (4, 4, 544), (8, 8, 0x41000)]
def grpPit (other : List Byte) : State :=
  { grp.modCtx 2 (fun x => { x with st := .opened }) with
    host := Memory.writeBytes (Memory.writeBytes (Memory.writeBytes [] 0x40000 sigManifest) 0x41000 other) 0x42000 groupIdx
    sec := { Sec.reset with keys := [(0, some ⟨sigPoint, bytesOf 8 []⟩)] } }
def topBegin : Packet := pkt .pitchBegin 0x12 4 [(8, 4, 32), (16, 8, 0x42000)]
theorem test_begin_differs : let s := offer (grpPit otherManifest) (.ctx 2) topBegin
    Presents s (.ctx 2) .pitchBegin topBegin ∧ s.top = true ∧ s.pitchRead (.ctx 2) topBegin = some ⟨.host 0x42000, 32⟩
    ∧ pitchSource s (.ctx 2) topBegin = some ⟨.host 0x40000, 544⟩ ∧ topBegin.param 32 1 ≤ 16 ∧ topBegin.resultAddr = 0
    ∧ (manifestOf sigManifest 544).bind (s.differs (.ctx 2) topBegin) = some 1
    ∧ (manifestOf sigManifest 544).any (fun m => m.limitsOk true) = true :=
  ⟨shown_presents _ _ _ _ (by decide +kernel), by decide +kernel⟩
theorem test_begin_differs_answer : answerOf (exec (.pitchBegin (.ctx 2)) (offer (grpPit otherManifest) (.ctx 2) topBegin))
    = some (0x11, 0, 0, 1) := by decide +kernel
/-- O16: a source in working space that is too short for the manifest: the read draws its tokens, and BAD_PARAM follows. -/
theorem test_begin_source : let p := pkt .pitchBegin 0x12 4 [(8, 4, 544), (16, 8, 0x42000)]
    let s := offer (grpPit sigManifest) (.ctx 2) p
    Presents s (.ctx 2) .pitchBegin p ∧ pitchSource s (.ctx 2) p = none ∧ s.pitchRead (.ctx 2) p = some ⟨.host 0x42000, 544⟩
    ∧ answerOf (exec (.pitchBegin (.ctx 2)) s) = some (0x11, 0, 0, 0) :=
  ⟨shown_presents _ _ _ _ (by decide +kernel), by decide +kernel⟩

/-- O17: a source in working space, and data for HBM, while the pool takes no transfer. -/
theorem test_shard_tokens : let p := pkt .pitchShard 0x12 9 [(8, 4, 64), (16, 8, 2 ^ 63), (32, 2, 1), (36, 4, 0)]
    let s := { offer (pitching.modCtx 2 (fun x => { x with w0 := 1 })) (.ctx 2) p with gov := Gov.reset }
    Presents s (.ctx 2) .pitchShard p ∧ shardSource s 2 pitch0 p = some (.work 0) ∧ s.hbmOpen false = false
    ∧ after (exec (.pitchShard (.ctx 2)) s) (fun t => t.cmds.length == 1 && t.gov.eng && t.ctxs == s.ctxs) = true :=
  ⟨shown_presents _ _ _ _ (by decide +kernel), by decide +kernel⟩
theorem test_shard_complete_tokens : let s := { executing.modCtx 2 (fun x => { x with pitch := some { pitch0 with
        accepted := [(0, bytesOf 64 [(12, 1, 4)])], exec := some ⟨.ctx 2, 3⟩, timerOn := false } }) with gov := Gov.reset }
    shardToHbm (bytesOf 64 [(12, 1, 4)]) = true ∧ s.hbmOpen false = false ∧ shardToHbm (bytesOf 64 [(12, 1, 7)]) = true
    ∧ after (exec (.pitchShardComplete ⟨2, none⟩) s) (fun t => t.cmds == s.cmds && t.ctxs == s.ctxs && t.gov.eng) = true := by decide +kernel

/-- O26: the copy of the second twin comes last: agreement, and disagreement. -/
theorem test_twin_second_agrees : let w := { bowWork with fly1 := [block 2], arr0 := [block 1] }
    firstDisagree layerB w.winW (block 1).bytes (block 2).bytes = none ∧ w.arr0.find? (OutBlock.sameBlock (block 2)) = some (block 1)
    ∧ w.arr1.find? (OutBlock.sameBlock (block 2)) = none
    ∧ after (exec (.twinBlockArrival ⟨bow2, none⟩ true) (bowRun w)) (fun t => t.cmds.map (fun c => match c.work with
        | .run v => (v.due, v.agreed)
        | _ => (9, [])) == [(0, [block 1])]) = true := by decide +kernel
theorem test_twin_second_disagrees : let w := { bowWork with fly1 := [block 4], arr0 := [block 1] }
    (firstDisagree layerB w.winW (block 1).bytes (block 4).bytes).isSome = true
    ∧ after (exec (.twinBlockArrival ⟨bow2, none⟩ true) (bowRun w)) (fun t => t.cmds.map (fun c => (c.ended, c.outcome)) == [(true, .checkFail)]
        && t.sig.seq == 1 && t.censusQ.contains 0) = true := by decide +kernel

/-- O28: the pool takes no read of the own contribution, and no write of what has come. -/
theorem test_collective_tokens : let s := { offer (live.writeWork 2 0 [1, 2, 3, 4]) (.ctx 2) (collPkt 5) with gov := Gov.reset }
    Presents s (.ctx 2) .collective (collPkt 5) ∧ s.hbmOpen ((collPkt 5).cls == 2) = false
    ∧ after (exec (.collective (.ctx 2)) s) (fun t => t.cmds.map (fun c => match c.work with
        | .coll got sent => (got, sent)
        | _ => ([], true)) == [([], false)]) = true :=
  ⟨shown_presents _ _ _ _ (by decide +kernel), by decide +kernel⟩
theorem test_collective_write_waits : let x := collCmd [(0, [1, 2, 3, 4])]
    let s := { running work0 with cmds := [x], gov := Gov.reset }
    s.self ∈ s.collTo x.pkt ∧ s.hbmOpen (x.pkt.cls == 2) = false ∧ s.collIn x [(0, [1, 2, 3, 4])] = true
    ∧ after (exec (.collectiveComplete ⟨coll2, none⟩) s) (fun t => t == s.hbmWait false) = true := by decide +kernel
theorem test_collective_unread : let x := { collCmd [] with work := .coll [] false }
    let s := { running work0 with cmds := [x], gov := Gov.reset }
    after (exec (.collectiveComplete ⟨coll2, none⟩) s) (· == s) = true := by decide +kernel

/-- O30: the pass waits for its write tokens, then for the pool; a record of one byte with the appendix that belongs to it. -/
def goodAppendix : List Byte :=
  List.replicate 8 0 ++ (leBytes 8 Config.serial.toNat ++ (List.replicate 16 0 ++ sha384 (sha384 [])))
theorem test_lantern_owed : let s := { up with cmds := [trimCmd], gov := { up.gov with owedWr := 1 } }
    let p := { up with cmds := [trimCmd], gov := Gov.reset }
    s.gov.owedWr ≠ 0 ∧ after (exec (.lanternPassComplete []) s) (· == s) = true
    ∧ p.gov.owedWr = 0 ∧ p.hbmOpen false = false ∧ after (exec (.lanternPassComplete []) p) (fun t => t == p.hbmWait false) = true
    ∧ up.gov.owedWr = 0 ∧ up.hbmOpen false = true := by decide +kernel
theorem leBytes_len (n v : Nat) : (leBytes n v).length = n := by
  induction n generalizing v with
  | zero => rfl
  | succ n ih => simp [leBytes, ih]
theorem leNat_leBytes (n v : Nat) (h : v < 256 ^ n) : leNat (leBytes n v) = v := by
  induction n generalizing v with
  | zero => simp [leBytes, leNat]; omega
  | succ n ih =>
    have k : v / 256 < 256 ^ n := by rw [Nat.pow_succ] at h; omega
    simp [leBytes, leNat, ih _ k]
    omega
theorem test_lantern_appendix : goodAppendix ≠ [] ∧ appendixOk [1] goodAppendix = true := by
  have n : (sha384 (sha384 [])).length = 48 := by decide +kernel
  have l := leBytes_len 8 Config.serial.toNat
  have f : field goodAppendix 8 8 = Config.serial.toNat := by
    rw [goodAppendix, field, List.drop_append_of_le_length (by simp), List.drop_of_length_le (by simp), List.nil_append,
      List.take_append_of_le_length (by omega), List.take_of_length_le (by omega)]
    exact leNat_leBytes 8 _ (by have := Config.serial.isLt; simpa using this)
  have d : slice goodAppendix 32 48 = sha384 (sha384 []) := by
    simp [goodAppendix, slice, List.drop_append, l, n, List.take_of_length_le]
  have z : goodAppendix.drop 80 = [] := List.drop_of_length_le (by simp [goodAppendix, l, n])
  refine ⟨by simp [goodAppendix], ?_⟩
  simp [appendixOk, f, d, z]

/-- O32: a census that has read all its rows waits for the end of the vector of its array. -/
theorem test_census_mid_vector : let s := treated .census (fun x => { x with
      census := true, maint := { x.maint with censusRow := 512 }, jobs := [{ job0 with started := true }] })
    (s.arr 0).midVector = true ∧ after (exec (.censusComplete 0 0) s) (· == s) = true
    ∧ ((treated .census (fun x => { x with census := true })).arr 0).midVector = false := by decide +kernel

/-- O33: pitch slots of row 3 of array 0: one cell outside its window takes a pulse. -/
def prog3 (pulses : Tbl Nat) (stuck : List (Nat × Nat)) : Prog := ⟨2, 1, 0, 0, [3, 4], 2, 0, pulses, stuck, []⟩
def readAt (es : List (Nat × Nat)) : List Nat :=
  es.foldl (fun l e => l.set e.1 e.2) (List.replicate 512 128 ++ (List.range 8).map (fun k => nominalTarget (lanternLevel k)))
def progSlot (tok : Nat) (ly : Layer) (targets : Tbl Nat) (g : Prog) : State :=
  { (pitching.modCtx 2 (fun x => { x with pitch := some { pitch0 with g := { gen0 with man := { man0 with layers := [ly] } } } })).modArr 0
      (fun x => { x with prog := some g, p1 := { x.p1 with target := targets } }) with gov := { Gov.reset with wrAllow := tok } }
def outside3 (s : State) (reads : List Nat) : List Nat :=
  (List.range 520).filter (fun c => outside (((s.arr 0).plane (!(s.arr 0).ground)).cellTarget 3 c) (reads.getD c 0))
theorem test_pitch_pulse : let g := prog3 [] []
    let s := progSlot 5 layer0 [] g
    s.slotOpen 0 = true ∧ (s.arr 0).limitRefresh = false ∧ (s.arr 0).spaced s.cfg.space.toNat = true ∧ s.writerFree 0 = true
    ∧ (s.arr 0).prog = some g ∧ (s.arr 0).ground = false ∧ s.pitchTurn g = true ∧ outside3 s (readAt [(5, 300)]) = [5]
    ∧ g.pulses.get zeroNat 5 < 24 ∧ g.slots + 1 < 25 ∧ (readAt [(5, 300)]).length = 520
    ∧ after (exec (.pitchSlot 0 0 (readAt [(5, 300)])) s) (fun t => (t.arr 0).prog == some { g with slots := 1, pulses := [(5, 1)] }
        && t.gov.wrAllow == 0 && (t.arr 0).verify == verifySlot) = true
    ∧ after (exec (.pitchSlot 0 0 (readAt [(5, 300)])) { s with gov := { Gov.reset with wrAllow := 4 } }) (fun t =>
        (t.arr 0).prog == some g && t.gov.write) = true := by decide +kernel
/-- O33, R101: the high cell 6 of output column 3, level 3 of the value 55, is stuck at level 2: its low cell 7 gets the level 15. -/
def layer8 : Layer := ⟨bytesOf 256 [(0, 1, 1), (1, 1, 1), (3, 1, 4), (4, 1, 1), (8, 4, 4), (12, 4, 4), (16, 1, 2), (17, 1, 1), (84, 4, 1),
  (88, 2, 2), (90, 2, 1), (96, 4, 1)]⟩
theorem test_pitch_stuck_high : let g := prog3 [(6, 24)] []
    let s := progSlot 4 layer8 [(1542, 3), (1543, 7)] g
    let reads := readAt [(6, nominalTarget 2), (7, nominalTarget 7)]
    (s.progLayer g).w8 = true ∧ g.stuck = [] ∧ g.intend = [] ∧ outside3 s reads = [6] ∧ 24 ≤ g.pulses.get zeroNat 6
    ∧ ((s.arr 0).plane true).levelOf (nominalTarget 2) = 2
    ∧ (clampInt 0 15 ((16 * 3 + 7 : Nat) - 16 * (2 : Int))).toNat = 15
    ∧ outside (((s.arr 0).plane true).levelTarget 15) (nominalTarget 7) = true
    ∧ after (exec (.pitchSlot 0 0 reads) s) (fun t => (t.arr 0).prog == some { g with
          slots := 1, pulses := ((t.arr 0).prog.map (·.pulses)).getD [], stuck := [(6, nominalTarget 2)], intend := [(3, 55)] }
        && ((t.arr 0).prog.map (·.pulses)).any (fun y => y.get zeroNat 7 == 0)
        && ((t.arr 0).plane true).target.get zeroNat 1543 == 15 && ((t.arr 0).plane true).target.get zeroNat 1542 == 3
        && t.gov == (s.gov.drawWrite 4).1) = true := by decide +kernel
/-- O33, R101, R104: the row ends with cell 9, level 3, stuck at level 5: the patch entry has the delta -2. -/
theorem test_pitch_stuck_ends : let g := prog3 [] [(9, nominalTarget 5)]
    let s := progSlot 4 layer0 [(1545, 3)] g
    let reads := readAt [(9, nominalTarget 5)]
    outside3 s reads = [9] ∧ g.stuck = [(9, nominalTarget 5)] ∧ (s.progLayer g).w8 = false ∧ (s.progLayer g).cb4 = false
    ∧ Memory.wf (s.crew 0).sram ∧ ((s.crew 0).patches 0 true).length < 64 ∧ residual layer0 ((s.arr 0).plane true) g 3 9 = -2
    ∧ after (exec (.pitchSlot 0 0 reads) s) (fun t => ((t.arr 0).prog.map (fun y => (y.rows, y.left, y.stuck))) == some ([4], 1, [])
        && ((t.arr 0).plane true).stuck == [3 * 520 + 9] && t.sig.seq == 1
        && (t.crew 0).patches 0 true == [patchEntry 3 9 (deltaBits false (-2))] && t.cmds == s.cmds) = true := by decide +kernel
/-- O33: the same of an 8-bit weight whose residual is 0 after the neighbour has taken what was missing. -/
theorem test_pitch_stuck_none : let g := { prog3 [] [(6, nominalTarget 2)] with intend := [(3, 47)] }
    let s := progSlot 4 layer8 [(1542, 3), (1543, 15)] g
    let reads := readAt [(6, nominalTarget 2), (7, nominalTarget 15)]
    outside3 s reads = [6] ∧ residual layer8 ((s.arr 0).plane true) g 3 6 = 0
    ∧ after (exec (.pitchSlot 0 0 reads) s) (fun t => ((t.arr 0).prog.map (fun y => (y.rows, y.left, y.stuck))) == some ([4], 1, [])
        && ((t.arr 0).plane true).stuck == [3 * 520 + 6] && t.sig.seq == 1 && t.crews == s.crews) = true := by decide +kernel

/-- O34: the pool takes no read of a training step. -/
theorem test_training_tokens : let s := { trainS 2 false 0 with gov := Gov.reset }
    let p := stepPkt 1024 0x3F800000
    let r := { offer liveT (.ctx 2) p with gov := Gov.reset }
    s.hbmOpen true = false ∧ after (exec (.retrimTrainingStep ⟨step2, none⟩) s) (fun t => t == s.hbmWait true) = true
    ∧ Presents r (.ctx 2) .retrimStep p ∧ after (exec (.retrimStep (.ctx 2)) r) (fun t => t.gov.stern && t.cmds.length == 1
        && t.ves == r.ves) = true :=
  ⟨by decide +kernel, by decide +kernel, shown_presents _ _ _ _ (by decide +kernel), by decide +kernel⟩

/-- O35: a discard resets the moments of the one block of parameters. -/
theorem test_discard : let n := paramCount 1 layer0
    after (exec (.retrimApply (.ctx 2)) (offer liveT (.ctx 2) (applyPkt 1))) (fun t =>
      Memory.readBytes (t.ctx 2).work (momOfs n + cb8Block 0) 34 == packBlock 10 0 0 (List.replicate (blockElems n 0) 128)
      && Memory.readBytes (t.ctx 2).work (varOfs n + cb8Block 0) 34 == packBlock 10 0 0 (List.replicate (blockElems n 0) 0)) = true := by decide +kernel

/-- O38: a RUN_BOW with one extension entry, which the tail covers and does not yet cover; an entry with an error in SAFE. -/
def bowRing (tail : Nat) : State :=
  { bowLive.modQueue (.bow 2) (fun x => { x with enable := true, cqBase := 0x10000, sqBase := 0x8000, sqHead := 63, sqTail := BitVec.ofNat 12 tail }) with
    host := Memory.writeBytes (Memory.writeBytes [] (0x8000 + 64 * 63) bowPkt.bytes) 0x8000 (List.replicate 64 1) }
theorem test_fetch_extension : extOf (.bow 2) bowPkt.bytes = 1 ∧ (bowRing 1).serving = true ∧ ((bowRing 1).queue (.bow 2)).avail = 2
    ∧ ((bowRing 0).queue (.bow 2)).avail = 1
    ∧ after (exec (.sqEntryFetch ⟨.bow 2, none⟩) (bowRing 0)) (· == bowRing 0) = true
    ∧ after (exec (.sqEntryFetch ⟨.bow 2, none⟩) (bowRing 1)) (fun t => (t.queue (.bow 2)).fetched == [bowPkt]
        && (t.queue (.bow 2)).sqHead == 1) = true := by decide +kernel
theorem test_fetch_safe : let s := { ringOf2 0x33 with dev := safeState.dev }
    s.dev.st = .safe ∧ Packet.safeOp ⟨Memory.readBytes s.host (0x8000 + 64 * 63) 64, [], some err0⟩ = false ∧ s.examinable .admin = true
    ∧ answerOf (exec (.sqEntryFetch ⟨.admin, some err0⟩) s) = some (0x30, 0, 0, 0)
    ∧ after (exec (.sqEntryFetch ⟨.admin, some err0⟩) s) (fun t => t.sig.seq == 0) = true
    ∧ answerOf (exec (.sqEntryFetch ⟨.admin, some err0⟩) { ringOf2 1 with dev := safeState.dev }) = some (0x22, 0, 0, 0) := by decide +kernel

/-- O41: registers of a powered crew and of one without power. -/
theorem test_register_reads : let s := act.modCrew 9 (fun x => { x with benched := true, cause := 3, parn := 7, coefAddr := 4097 })
    let t := s.modArr (arrIdx 9 4) (fun x => { x with conv := true, limit := true })
    t.barLive = true ∧ diePowered t.env.env (crewDie 9) = true ∧ (t.crew 9).healthLost = false ∧ (t.crew 9).coefAddr.toNat / 1024 ≤ 16
    ∧ (t.crew 9).coefAddr.toNat % 1024 ≤ 519 ∧ t.barRead 0 false 0x1099308 = 0x83000007#32
    ∧ t.barRead 0 false 0x1092040 = 0x80000001#32
    ∧ bootE1.barLive = true ∧ diePowered bootE1.env.env (crewDie 64) = false := by decide +kernel

/-- O43: the restart when the flash has been programmed. -/
theorem test_reset_restart : let s := { dirty with cmds := [flashCmd] }
    s.dev.st ≠ .off ∧ flashCmd ∈ s.cmds ∧ flashCmd.work = .flash [9, 8]
    ∧ after (exec .flashProgrammingComplete s) (fun t => t.dev.st == .resetHold && t.sig.store.isEmpty && t.sig.lost == 0
        && t.env.p2pDrop == 0 && t.tel == Tel.reset && t.gov == Gov.reset) = true := by decide +kernel

/-- O47: the causes of a signature in SAFE; O48: an epoch with nothing in flight changes the governor alone. -/
theorem test_epoch_quiet : up.cmds = [] ∧ up.group.rx = [] ∧ (∀ c, c < 16 → (up.ctx c).swingCmd = none)
    ∧ after (exec .governorEpoch up) (fun t => t == { up with gov := t.gov }) = true := by decide +kernel
/-- O48: tokens owed for a transfer and for slots are taken from the epoch's parts. -/
theorem test_epoch_owed : let s := { up with gov := { Gov.reset with budget := 1000, owedWr := 300, owedEng := 100 } }
    after (exec .governorEpoch s) (fun t => t.gov.owedWr == 0 && t.gov.owedEng == 0 && t.gov.wrAllow == 0 && t.gov.pool == 600
      && t.gov.drawn == 400) = true := by decide +kernel

/-- O49, R33: the row group of the odd rows holds zeros alone; the group of the even rows strokes in its slot. -/
def req2 (g : Nat) : Req := ⟨false, g, 2, false, false⟩
def jobSkip : Job := { job0 with todo := [req2 1, req2 0], hi := ⟨2, 2, [], []⟩, lo := ⟨2, 2, [], []⟩ }
theorem test_stroke_skips : let s := striking (fun x => { x with jobs := [jobSkip] })
    let z := ({ jobSkip with todo := [req2 0] } : Job).accept (req2 1) [] []
    s.slotFree 0 = true ∧ (s.arr 0).replays = [] ∧ (s.arr 0).limitRefresh = false ∧ s.nextJob 0 = some jobSkip ∧ s.combRoom jobSkip = true
    ∧ (∀ x ∈ (req2 1).codes false (s.jobCodes 0 jobSkip), x = 0) ∧ (∃ x ∈ (req2 0).codes false (s.jobCodes 0 jobSkip), x ≠ 0)
    ∧ (s.strokeTokens 0 false).2 = true ∧ (z.acc false).left = 1
    ∧ after (exec (.stroke 0 0) s) (fun t => (t.arr 0).shots.map (·.req) == [req2 0] && t.gov == (s.strokeTokens 0 false).1
        && (t.arr 0).jobs == [{ z with
            todo := [], started := true, patches := s.patchList 0, patches2 := s.patchList (s.replayArr 0) }]
        && t.parts == s.parts && t.cmds == s.cmds) = true := by decide +kernel

/-- O50, R62: the last stroke of the vector of a split, whose combiner is on the same crew: its partial of column 0 is sent. -/
def scanSplit (auto : Bool) (j : Job) (q : Req) : State :=
  { ((running { workS with toSend := [] }).modCtx 2 (fun x => { x with gens := [genS] })).modCrew 0 (fun x => { x with tiles := [vec0] }) with
    gov := { Gov.reset with pool := 21 } }.modArr 0 (fun x => { x with
      jobs := [j], p0 := { x.p0 with cells := cells0 }, shots := [shot0 q false], auto := auto })
theorem test_scan_sends : let j : Job := { job0 with todo := [], started := true }
    let s := scanSplit false j req0
    let z := j.accept req0 ((List.range 512).map (fun _ => 0)) []
    (s.placeOf 0 false).isSome = true ∧ s.cmd? run2 = some (runCmd { workS with toSend := [] }) ∧ s.job? 0 run2 0 0 = some j
    ∧ z.complete = true ∧ s.runGen (runCmd workS) = some genS ∧ s.assignOf genS 0 = some assign0
    ∧ combAssign genS 0 0 0 false = some assign0 ∧ layerS.splits ≠ 1 ∧ assign0.crew = 0 / 17 ∧ layerS.sliceCols 0 = 1
    ∧ after (exec (.strokeScanEnd 0 0 (dev0 0 0) none) s) (fun t => (t.arr 0).jobs.isEmpty
        && t.parts.map (fun p => (p.split, p.crew, p.words)) == [(0, 0, [toTwos 64 (128 * (-1))])]) = true := by decide +kernel
/-- O50, R36, SAT: a saturated code without automatic fold is accepted, and marks the command. -/
theorem test_scan_saturates : let j : Job := { job0 with todo := [req0], started := true, lo := ⟨1, 2, [], []⟩ }
    let s := scanSplit false j req0
    (s.arr 0).auto = false ∧ (j.accept req0 ((List.range 512).map (fun _ => 0)) []).complete = false ∧ (j.acc false).fold = 1
    ∧ (List.range 512).any (fun c => rawCode (s.idealCode 0 false [] c) ((dev0 1023 10).getD c 0) == 1023) = true
    ∧ after (exec (.strokeScanEnd 0 0 (dev0 1023 10) none) s) (fun t => t.cmds.map (fun c => (c.sat, c.folded, c.outcome))
        == [(true, false, .ok)] && (t.arr 0).satStrokes == 1 && (t.arr 0).jobs.map (fun k => (k.acc false).left) == [1]) = true := by
  decide +kernel

/-- O54: two results of one claim are held; each goes to the place of its vector and slice. -/
def heldTwo : RunWork :=
  { heldWork [] with held := [⟨0, 0, 1, 0, bytesOf 18 [(2, 1, 3)]⟩, ⟨1, 0, 1, 0, bytesOf 18 [(2, 1, 4)]⟩] }
theorem test_claim_two : let out := heldTwo.held.filter (heldTwo.ofClaim 1 0)
    let at' := fun o : OutBlock => 0x30000 + o.vec * layerR.outBytes + o.off
    (∀ o ∈ out, o.off = layerR.sliceOfs o.slice)
    ∧ out.Pairwise (fun o q => at' o + o.bytes.length ≤ at' q ∨ at' q + q.bytes.length ≤ at' o)
    ∧ after (exec (.claimResultsArrival ⟨run2, none⟩ 0x10000000) (claiming 1 heldTwo)) (fun t => out.all (fun o =>
        Memory.readBytes t.host (0x30000 + o.vec * layerR.outBytes + layerR.sliceOfs o.slice) o.bytes.length == o.bytes)) = true := by
  decide +kernel

/-- O56: an engine of a die without power. -/
theorem test_ve_unpowered : let s := { (engine true false 430 1) with env := { up.env with env := 1 } }.modVe 8 (fun x => { x with
      ring := [desc0 true false] })
    let f := s.modVe 8 (fun x => { x with ring := [desc0 false false] })
    diePowered s.env.env (8 / 8) = false ∧ ((s.ve 8).ring.zipIdx.find? (fun e => e.1.started)).or (s.ve 8).next = some (desc0 true false, 0)
    ∧ after (exec (.veDescriptorExecute 8 none) s) (· == s) = true ∧ after (exec (.veFetchStart ⟨8, none⟩) f) (· == f) = true := by
  decide +kernel
/-- O56: the result of the last part goes to working space, and the pool takes no transfer. -/
def toWork : Packet := pkt .run 0x12 8 [(8, 4, 18), (16, 8, 2 ^ 63), (24, 8, 2 ^ 63 + 4096), (52, 4, 18)]
theorem test_ve_put_waits : let s := { engine true true 0 1 with cmds := [{ runCmd (veWork 1) with pkt := toWork }] }
    s.putsHbm (desc0 true true) = true ∧ s.hbmOpen false = false ∧ (engine true true 0 1).putsHbm (desc0 true true) = false
    ∧ after (exec (.veDescriptorComplete 3) s) (fun t => t == s.hbmWait false) = true := by decide +kernel
/-- O56, R279: the last part of an adapter's correction; the slice that waits is corrected and goes to host memory. -/
def adapterWork : RunWork :=
  { RunWork.start 0 layer0 1 [] with
    dispatched := true, due := 1, veNext := 1, adapter := true, convWait := [⟨run2, false, 0, 0, 0, 0, [100, 0, 0, 0], 0, []⟩], shape := ⟨[3], 0, 18, 64, 1⟩ }
def adapterS : State :=
  { ((running adapterWork).modCtx 2 (fun x => { x with gens := [genT] })).modVe 3 (fun x => { x with
      ring := [{ desc0 true true with op := .adapter 0 0 }] }) with gov := Gov.reset }
theorem test_ve_adapter : let p : Part := ⟨run2, false, 0, 0, 0, 0, [100, 0, 0, 0], 0, []⟩
    let s := adapterS
    Plain s ∧ Memory.wf s.host ∧ (∀ c, c < 16 → (s.ctx c).swingCmd = none) ∧ (regionOf genT 0).isSome = true
    ∧ s.runGen (runCmd adapterWork) = some genT ∧ s.putsHbm { desc0 true true with op := .adapter 0 0 } = false
    ∧ adapterWork.shape.ves.length ≤ ((adapterWork.veParts ++ [(0, 0)]).filter (fun (e : Nat × Nat) => e.1 == 0)).length
    ∧ adapterWork.trim = none ∧ adapterWork.layer.isBow = false ∧ adapterWork.layer.nrep ≤ 1 ∧ adapterWork.unchecked = []
    ∧ adapterWork.convWait.filter (fun q => q.vec == 0) = [p] ∧ adapterWork.deltas.isEmpty = true
    ∧ combAssign genT 0 0 0 false = some assign0 ∧ s.addrDev runPkt.resultAddr = s.self
    ∧ s.localAddr runPkt.resultAddr = some (.host 0x30000)
    ∧ after (exec (.veDescriptorComplete 3) s) (fun t => (t.ve 3).ring.isEmpty && t.counter 5 == 1 && t.free == s.free + 1
        && t.cmds.map (fun c => c.written) == [18]) = true := by decide +kernel

/-- O58: a contribution whose digest is wrong for the second time ends its COLLECTIVE. -/
def wrongMsg : Msg := { collMsg with digest := collMsg.digest + 1 }
theorem test_digest_again : let s := { collS with group := { collS.group with expects := [⟨{ wrongMsg with payload := [] }, true, false⟩] } }
    (s.receiveMsg 1 3 [flitOf wrongMsg]).2 = .whole wrongMsg ∧ s.digestOk wrongMsg = false ∧ s.failedOnce wrongMsg = true
    ∧ s.msgCmd wrongMsg = some gcollCmd
    ∧ after (exec (.linkDataMessage 1 [flitOf wrongMsg]) s) (fun t => t.group.expects.isEmpty && t.sig.seq == 1
        && t.cmds.map (fun c => (c.ended, c.outcome)) == [(true, .digestBad)]) = true := by decide +kernel
/-- O58: a forwarded RETRIM_APPLY at a member whose pool takes no transfer waits. Its digest is checked in four parts. -/
def memLive : State := { live with env := mem1.env, group := mem1.group, ports := mem1.ports, gov := Gov.reset }
def applyFwd : Packet := pkt .retrimApply 0x22 7 []
def applyMsg : Msg := ⟨1, applyFwd.ctxcls, applyFwd.tag, 0, 0, 0, 1, 0, 0, 0, applyFwd.bytes, 0xC4409C92⟩
theorem test_applyMsg_digest : memLive.digestOk applyMsg = true := by
  have h0 : ([0, 0, 0, 0, 7, 0, 0, 0, 0, 0, 0, 0, 2, 0, 0, 0, 57, 34, 7, 0] : List Byte).foldl crcByte 0xFFFFFFFF#32 = 0xC5B89323#32 := by decide +kernel
  have h1 : ([0, 0, 0, 0, 0, 0, 0, 0, 0, 0, 0, 0, 0, 0, 0, 0, 0, 0, 0, 0] : List Byte).foldl crcByte 0xC5B89323#32 = 0x7E2B921B#32 := by decide +kernel
  have h2 : ([0, 0, 0, 0, 0, 0, 0, 0, 0, 0, 0, 0, 0, 0, 0, 0, 0, 0, 0, 0] : List Byte).foldl crcByte 0x7E2B921B#32 = 0xE0D9E780#32 := by decide +kernel
  have h3 : ([0, 0, 0, 0, 0, 0, 0, 0, 0, 0, 0, 0, 0, 0, 0, 0, 0, 0, 0, 0] : List Byte).foldl crcByte 0xE0D9E780#32 = 0x3BBF636D#32 := by decide +kernel
  have e : digestPrefix 0 7 0 0 0 2 0 ++ applyFwd.bytes
      = ([0, 0, 0, 0, 7, 0, 0, 0, 0, 0, 0, 0, 2, 0, 0, 0, 57, 34, 7, 0] : List Byte)
        ++ ([0, 0, 0, 0, 0, 0, 0, 0, 0, 0, 0, 0, 0, 0, 0, 0, 0, 0, 0, 0] : List Byte)
        ++ ([0, 0, 0, 0, 0, 0, 0, 0, 0, 0, 0, 0, 0, 0, 0, 0, 0, 0, 0, 0] : List Byte)
        ++ ([0, 0, 0, 0, 0, 0, 0, 0, 0, 0, 0, 0, 0, 0, 0, 0, 0, 0, 0, 0] : List Byte) := by decide +kernel
  have x : memLive.expected applyMsg = ⟨0, 0, 0, 0, 0⟩ := by decide +kernel
  have z : memLive.stepOk applyMsg = true := by decide +kernel
  have y : applyMsg.digest = 0xC4409C92#32 ∧ applyMsg.tag.toNat = 7 ∧ applyMsg.step = 0 ∧ applyMsg.gen = 0 ∧ applyMsg.ctx = 2 ∧ applyMsg.payload = applyFwd.bytes := by
    decide +kernel
  simp only [State.digestOk, x, z, y, crc32c, e, List.foldl_append, h0, h1, h2, h3]
  decide
theorem test_forwarded_waits : (memLive.receiveMsg 0 1 [flitOf applyMsg]).2 = .whole applyMsg ∧ memLive.member = true ∧ memLive.top = false
    ∧ memLive.group.rx = [] ∧ opOf applyFwd.opcode = some .retrimApply ∧ (forwardedEff applyMsg .retrimApply).isSome = true
    ∧ (memLive.acked applyMsg).waitsHbm (.fwd 2) .retrimApply applyFwd = true
    ∧ after (.next (memLive.runCmd applyMsg)) (fun t => t.group.rx == [applyMsg] && t.gov.stern) = true := by decide +kernel
/-- O58: torn flits of a contribution, at its timeout, for the first and for the second time. -/
theorem test_torn_contribution : let n := { collMsg with payload := [] }
    let s (again : Bool) : State := { collS with group := { collS.group with expects := [⟨n, again, true⟩] } }
    (s false).expects? 2 8 1 1 = some ⟨n, false, true⟩ ∧ n.kind = 3 ∧ (s false).msgCmd n = some gcollCmd
    ∧ gcollCmd.work = .coll [] true ∧ (s false).failedOnce n = false ∧ (s true).failedOnce n = true
    ∧ after (exec (.messageTimeout 2 8 1 1) (s false)) (fun t => t.group.expects == [⟨n, true, false⟩] && t.sig.seq == 1
        && t.cmds == [gcollCmd]) = true
    ∧ after (exec (.messageTimeout 2 8 1 1) (s true)) (fun t => t.group.expects.isEmpty && t.sig.seq == 1
        && t.cmds.map (fun c => (c.ended, c.outcome)) == [(true, .digestBad)]) = true := by decide +kernel
/-- O58: a partial that has not come for the second time; a record of a GROUP_STATUS; a message that serves no command here. -/
theorem test_late_partial : let n := { dataMsg 4 with payload := [] }
    let s := { grpRun with group := { grpRun.group with expects := [⟨n, true, false⟩] } }
    s.expects? 2 8 1 1 = some ⟨n, true, false⟩ ∧ s.failedOnce n = true ∧ s.msgCmd n = some grpRunCmd ∧ n.kind = 4
    ∧ after (exec (.messageTimeout 2 8 1 1) s) (fun t => t.group.expects.isEmpty && t.sig.seq == 1
        && t.cmds.map (fun c => (c.ended, c.outcome)) == [(true, .timeout)]) = true := by decide +kernel
theorem test_late_record : let n : Msg := mkMsg 8 0 7 0 0 0 1 0 0 0 1 []
    let s := { reporting [1, 2] with group := { grp.group with expects := [⟨n, true, false⟩] } }
    s.expects? 0 7 1 0 = some ⟨n, true, false⟩ ∧ s.failedOnce n = true ∧ n.kind = 8 ∧ (reportCmd [1, 2]).work = .groupStatus [(0, silentRecord 0)] [1, 2]
    ∧ s.cmds.filter (fun d => decide (d.ref.tag = n.tag)
        && (match d.work with | .groupStatus _ missing => missing.contains n.src | _ => false)) = [reportCmd [1, 2]]
    ∧ after (exec (.messageTimeout 0 7 1 0) s) (fun t => t.cmds.map (·.work)
        == [.groupStatus [(0, silentRecord 0), (1, silentRecord 1)] [2]] && t.sig.seq == 1) = true := by decide +kernel
theorem test_late_other : let n : Msg := mkMsg 1 0 7 0 0 0 1 0 0 0 1 []
    let s := { reporting [1, 2] with group := { grp.group with expects := [⟨n, true, false⟩] } }
    s.expects? 0 7 1 0 = some ⟨n, true, false⟩ ∧ s.failedOnce n = true
    ∧ after (exec (.messageTimeout 0 7 1 0) s) (fun t => t.cmds == s.cmds && t.group.expects.isEmpty) = true := by decide +kernel

/-- O60, R257, R265: what a right table says. -/
theorem test_table_fields : alone0.tableOk table = true ∧ field table 2 1 = posDepth alone0.env.position + 1 ∧ 2 ≤ field table 0 2 :=
  ⟨table_ok, by decide +kernel⟩

end Sys2Proof.Tests
end

/-! PROOFS for the family 00_scope: what every step keeps, and what the device holds right after reset. -/

/-! ## What a row keeps -/
section
namespace Sys2Proof.Machine

/-- Every row but those that reset the device keeps the waiting commands, the canonical form and SAFE with its cause: the
law of each row, over the dispatch. -/
theorem K.exec {s0 s : State} (h : Keeps s0 s) (i : Instr) (hi : resets i = false) : KeepsO s0 (exec i s) :=
  match i with
  | .nop q => K.execNop h q
  | .identify q => K.execIdentify h q
  | .setEnvironment q => K.execSetEnvironment h q
  | .setEnvelope q => K.execSetEnvelope h q
  | .ctxOpen q => K.execCtxOpen h q
  | .ctxClose q => K.execCtxClose h q
  | .ctxCloseComplete c => K.execCtxCloseComplete h c
  | .pitchBegin q => K.execPitchBegin h q
  | .pitchShard q => K.execPitchShard h q
  | .pitchShardComplete c => K.execPitchShardComplete h c
  | .packConversion c entry => K.execPackConversion h c entry
  | .pitchCommit q => K.execPitchCommit h q
  | .pitchCommitComplete c => K.execPitchCommitComplete h c
  | .pitchAbort q => K.execPitchAbort h q
  | .pitchTimeout c => K.execPitchTimeout h c
  | .swing q => K.execSwing h q
  | .arraySwing crew slot => K.execArraySwing h crew slot
  | .run q => K.execRun h q
  | .runDispatch r => K.execRunDispatch h r
  | .runComplete r => K.execRunComplete h r
  | .runBow q => K.execRunBow h q
  | .runBowComplete r => K.execRunBowComplete h r
  | .collective q => K.execCollective h q
  | .collectiveComplete r => K.execCollectiveComplete h r
  | .fence q => K.execFence h q
  | .fenceComplete q => K.execFenceComplete h q
  | .trimLoad q => K.execTrimLoad h q
  | .lanternPassComplete means => K.execLanternPassComplete h means
  | .trimRead q => K.execTrimRead h q
  | .trackCtl q => K.execTrackCtl h q
  | .refresh q => K.execRefresh h q
  | .census q => K.execCensus h q
  | .retrimStep q => K.execRetrimStep h q
  | .retrimTrainingStep r => K.execRetrimTrainingStep h r
  | .retrimApply q => K.execRetrimApply h q
  | .statsRead q => K.execStatsRead h q
  | .signatureDrain q => K.execSignatureDrain h q
  | .groupConfig q => K.execGroupConfig h q
  | .groupStatus q => K.execGroupStatus h q
  | .fwStage q => K.execFwStage h q
  | .fwActivate q => K.execFwActivate h q
  | .selftest q => K.execSelftest h q
  | .selftestComplete rd => K.execSelftestComplete h rd
  | .sqDoorbell q v => K.execSqDoorbell h q v
  | .cqDoorbell q v => K.execCqDoorbell h q v
  | .queueEnable q v => K.execQueueEnable h q v
  | .queueDisable q v => K.execQueueDisable h q v
  | .sqEntryFetch q => K.execSqEntryFetch h q
  | .ringReadError q => K.execRingReadError h q
  | .secKeyInstall slot => K.execSecKeyInstall h slot
  | .secKeyRevoke slot => K.execSecKeyRevoke h slot
  | .secKeyOpComplete => K.execSecKeyOpComplete h
  | .trackingReset v => K.execTrackingReset h v
  | .sineRowModeEnable crew v => K.execSineRowModeEnable h crew v
  | .mgtSineEnable v => K.execMgtSineEnable h v
  | .timeLatchRead off len => K.execTimeLatchRead h off len
  | .trngRead => K.execTrngRead h
  | .registerWrite fn bar4 off ws => K.execRegisterWrite h fn bar4 off ws
  | .pitchWindowWrite fn off data => K.execPitchWindowWrite h fn off data
  | .resetRelease role sb => K.execResetRelease h role sb
  | .perstAssert _ => nomatch hi
  | .devRstAssert _ => nomatch hi
  | .pfFlr => nomatch hi
  | .vfFlr n => K.execVfFlr h n
  | .pcieDlDown => nomatch hi
  | .powerLoss => nomatch hi
  | .pllLock => K.execPllLock h
  | .bistStageComplete rd => K.execBistStageComplete h rd
  | .bootImageSelect => K.execBootImageSelect h
  | .sharedFaultDetected f endpoint => K.execSharedFaultDetected h f endpoint
  | .pllUnlock => K.execPllUnlock h
  | .refclkLossTimeout => K.execRefclkLossTimeout h
  | .railToleranceTimeout rail => K.execRailToleranceTimeout h rail
  | .overtempTimeout => K.execOvertempTimeout h
  | .nocCreditWatchdog => K.execNocCreditWatchdog h
  | .tempSample ts => K.execTempSample h ts
  | .governorBudgetUpdate => K.execGovernorBudgetUpdate h
  | .governorEpoch => K.execGovernorEpoch h
  | .railTelemetryAvs rs => K.execRailTelemetryAvs h rs
  | .railTelemetryPmbus rs => K.execRailTelemetryPmbus h rs
  | .stroke crew slot => K.execStroke h crew slot
  | .strokeScanEnd crew slot dev dup => K.execStrokeScanEnd h crew slot dev dup
  | .checkReplay crew slot => K.execCheckReplay h crew slot
  | .foldReplay crew slot => K.execFoldReplay h crew slot
  | .keepWarmStroke crew slot => K.execKeepWarmStroke h crew slot
  | .sineTestStroke crew dev => K.execSineTestStroke h crew dev
  | .pitchSlot crew slot reads => K.execPitchSlot h crew slot reads
  | .refreshStart crew slot => K.execRefreshStart h crew slot
  | .censusStart crew slot => K.execCensusStart h crew slot
  | .scheduledCensusDue => K.execScheduledCensusDue h
  | .maintenanceSlot crew slot reads => K.execMaintenanceSlot h crew slot reads
  | .refreshComplete crew slot => K.execRefreshComplete h crew slot
  | .censusComplete crew slot => K.execCensusComplete h crew slot
  | .kappaUpdate crew slot => K.execKappaUpdate h crew slot
  | .columnTrackFit crew slot col => K.execColumnTrackFit h crew slot col
  | .tileArrival r crew err => K.execTileArrival h r crew err
  | .claimFetchAdd r rep => K.execClaimFetchAdd h r rep
  | .claimResultsArrival r tag => K.execClaimResultsArrival h r tag
  | .claimRecovery r => K.execClaimRecovery h r
  | .partialArrival r second vec split slice err => K.execPartialArrival h r second vec split slice err
  | .veFetchStart v => K.execVeFetchStart h v
  | .veDescriptorExecute v err => K.execVeDescriptorExecute h v err
  | .veDescriptorComplete v => K.execVeDescriptorComplete h v
  | .twinBlockArrival r second => K.execTwinBlockArrival h r second
  | .twinRoleExchange crew l => K.execTwinRoleExchange h crew l
  | .claimWatchdogExpiry r rep => K.execClaimWatchdogExpiry h r rep
  | .twinAbsentTimeout r => K.execTwinAbsentTimeout h r
  | .sequencerStallTimeout crew => K.execSequencerStallTimeout h crew
  | .portTrainingComplete p peer sysId => K.execPortTrainingComplete h p peer sysId
  | .portTrainingRetry p => K.execPortTrainingRetry h p
  | .portLinkLoss p => K.execPortLinkLoss h p
  | .linkIdleFlit p f => K.execLinkIdleFlit h p f
  | .linkCmdMessage p fs => K.execLinkCmdMessage h p fs
  | .linkStatusMessage p fs => K.execLinkStatusMessage h p fs
  | .linkDataMessage p fs => K.execLinkDataMessage h p fs
  | .linkPartMessage p fs => K.execLinkPartMessage h p fs
  | .linkAck p f => K.execLinkAck h p f
  | .linkResend p f => K.execLinkResend h p f
  | .linkSigMessage p fs => K.execLinkSigMessage h p fs
  | .linkCtrlMessage p fs => K.execLinkCtrlMessage h p fs
  | .messageTimeout c tag src step => K.execMessageTimeout h c tag src step
  | .groupPoll => K.execGroupPoll h
  | .groupPollTimeout mgr => K.execGroupPollTimeout h mgr
  | .smbMirrorReadFirst => K.execSmbMirrorReadFirst h
  | .smbMirrorReadSecond => K.execSmbMirrorReadSecond h
  | .jtagInstruction op => K.execJtagInstruction h op
  | .flashProgrammingComplete => nomatch hi
  | .aeHbmWriteComplete v => K.execAeHbmWriteComplete h v
  | .groupStatusAnswerTimeout r addr => K.execGroupStatusAnswerTimeout h r addr
  | .virtualFunctionEnable n en msix => K.execVirtualFunctionEnable h n en msix

theorem keeps_of_exec {i : Instr} {s t : State} (hi : resets i = false) (e : exec i s = .next t) : Keeps s t := by
  have h := K.exec (Keeps.refl s) i hi
  rwa [e] at h

end Sys2Proof.Machine
end

/-! ## What a reset keeps: the waiting commands and the canonical form, but not SAFE -/
section
namespace Sys2Proof.Machine

/-- The part of `Keeps` that the rows that reset the device share with the others. -/
structure KeepsForm (s t : State) : Prop where
  pending : t.pending = s.pending
  canonical : Canonical s → Canonical t

theorem KeepsForm.refl (s : State) : KeepsForm s s := ⟨rfl, id⟩

theorem KeepsForm.trans {a b c : State} (h : KeepsForm a b) (k : KeepsForm b c) : KeepsForm a c :=
  ⟨k.pending.trans h.pending, fun x => k.canonical (h.canonical x)⟩

theorem Keeps.form {s t : State} (h : Keeps s t) : KeepsForm s t := ⟨h.pending, h.canonical⟩

/-- The form does not speak of the device part. -/
theorem KeepsForm.setDev (s : State) (d : Dev) : KeepsForm s { s with dev := d } :=
  ⟨rfl, fun c => ⟨c.host, c.queues, c.ctxs, c.crews, c.arrs, c.ves, c.ports, c.counters⟩⟩

theorem KeepsForm.ite {s a b : State} {c : Prop} [Decidable c] (h : KeepsForm s a) (k : KeepsForm s b) :
    KeepsForm s (if c then a else b) := by
  split
  · exact h
  · exact k

/-- A reset empties every table of the device and leaves host memory and the waiting commands as they are. -/
theorem KeepsForm.resetAll (s : State) (keepCfg keepLink : Bool) : KeepsForm s (s.resetAll keepCfg keepLink) :=
  ⟨rfl, fun c => ⟨c.host, Tbl.wf_nil _, Tbl.wf_nil _, Tbl.wf_nil _, Tbl.wf_nil _, Tbl.wf_nil _, Tbl.wf_nil _, Tbl.wf_nil _⟩⟩

/-- The end of a firmware activation, where one is under way: the flash is written, the command completes, the device
restarts (R317, R318). -/
theorem keepsForm_of_flashProgrammingComplete {s t : State} (e : execFlashProgrammingComplete s = .next t) :
    KeepsForm s t := by
  unfold execFlashProgrammingComplete at e
  split at e
  · cases e; exact KeepsForm.refl s
  · next c _ =>
    split at e
    · cases e
      exact ((KeepsForm.setDev s _).trans (K.complete (Keeps.refl _) c .ok 0 0).form).trans (KeepsForm.resetAll _ true true)
    · cases e; exact KeepsForm.refl s

theorem keepsForm_of_resets {i : Instr} {s t : State} (hi : resets i = true) (e : exec i s = .next t) : KeepsForm s t := by
  cases i with
  | perstAssert ns =>
    cases e
    exact KeepsForm.ite (KeepsForm.refl s) ((KeepsForm.setDev s _).trans (KeepsForm.resetAll _ false false))
  | devRstAssert ns =>
    cases e
    exact KeepsForm.ite (KeepsForm.refl s) ((KeepsForm.setDev s _).trans (KeepsForm.resetAll _ true true))
  | pfFlr => cases e; exact KeepsForm.ite (KeepsForm.refl s) (KeepsForm.resetAll s false true)
  | pcieDlDown => cases e; exact KeepsForm.ite (KeepsForm.refl s) (KeepsForm.resetAll s true true)
  | powerLoss => cases e; exact (KeepsForm.resetAll s false false).trans (KeepsForm.setDev _ _)
  | flashProgrammingComplete => exact keepsForm_of_flashProgrammingComplete e
  | _ => cases hi

theorem keepsForm_of_exec {i : Instr} {s t : State} (e : exec i s = .next t) : KeepsForm s t := by
  cases hi : resets i with
  | false => exact (keeps_of_exec hi e).form
  | true => exact keepsForm_of_resets hi e

/-- The waiting commands are no part of the canonical form. -/
theorem Canonical.setPending {s : State} (c : Canonical s) (l : List Instr) : Canonical { s with pending := l } :=
  ⟨c.host, c.queues, c.ctxs, c.crews, c.arrs, c.ves, c.ports, c.counters⟩

theorem canonical_of_step {s t : State} (c : Canonical s) (e : step s = .next t) : Canonical t := by
  unfold step at e
  split at e
  · cases e; exact (K.tick (Keeps.refl s)).canonical c
  · next i rest _ => exact (keepsForm_of_exec e).canonical (c.setPending rest)

/-- Settles O4: the law of each row for those that do not reset, and that of a reset for the others; a cycle on the empty
queue by the law of the tick. -/
theorem canonicalFormIsKept : Obligations.CanonicalFormIsKept := by
  unfold Obligations.CanonicalFormIsKept
  exact ⟨fun _ _ c e => canonical_of_step c e, fun _ _ _ e => (keepsForm_of_exec e).pending⟩

end Sys2Proof.Machine
end

/-! ## The state after reset: every table is empty, so an entry reads as its reset record -/
section
namespace Sys2Proof.Machine

theorem canonical_reset : Canonical State.reset :=
  ⟨Memory.wf_nil, Tbl.wf_nil _, Tbl.wf_nil _, Tbl.wf_nil _, Tbl.wf_nil _, Tbl.wf_nil _, Tbl.wf_nil _, Tbl.wf_nil _⟩

@[simp] theorem State.ctx_reset (c : Nat) : State.reset.ctx c = Ctx.reset := rfl
@[simp] theorem State.crew_reset (n : Nat) : State.reset.crew n = Crew.reset := rfl
@[simp] theorem State.arr_reset (a : Nat) : State.reset.arr a = Arr.reset a := rfl
@[simp] theorem State.ve_reset (v : Nat) : State.reset.ve v = Ve.reset := rfl
@[simp] theorem State.port_reset (p : Nat) : State.reset.port p = Port.reset := rfl
@[simp] theorem State.queue_reset (q : QueueId) : State.reset.queue q = Queue.reset := rfl

theorem State.outstanding_reset (q : QueueId) : State.reset.outstanding q = 0 := rfl

/-- PCI_QCFG after reset: not enabled, idle, the kind of the page, ring size 6 (R168, R169). -/
theorem State.qcfg_reset {q : QueueId} {k : Nat} (h : qKind q = k) : State.reset.qcfg q = word (2 ^ 30 + at_ k 16 + 6) := by
  simp [State.qcfg, State.idleQueue, State.outstanding_reset, bitAt, Queue.reset, h]

/-- COX_CHIP_ID, COX_TWIN_CFG and COX_SAFE after reset (R209, R245). -/
theorem State.coxRegs_reset :
    State.reset.reg 0x000000 = 0x09A41140#32 ∧ State.reset.reg 0x000040 = 0x00200006#32 ∧ State.reset.reg 0x00004C = 0#32 :=
  ⟨rfl, rfl, rfl⟩

/-- CRW_SPARE, CRW_RESV and CRW_CHECK of a crew after reset; no crew is benched (R42, R208, R232, R235). -/
theorem Crew.regs_reset : Crew.reset.spareReg = 0x10#32 ∧ Crew.reset.resvReg = 0#32 ∧ Crew.reset.checkReg = 0#32
    ∧ Crew.reset.benched = false := ⟨rfl, rfl, rfl, rfl⟩

/-- ARR_SLEW, ARR_FOLD, ARR_BANK and kappa of an array after reset (R25, R34, R38). -/
theorem Arr.regs_reset (a : Nat) : (Arr.reset a).step = 4 ∧ (Arr.reset a).rate = 0 ∧ (Arr.reset a).foldReg = 0#32
    ∧ (Arr.reset a).bankReg = 0#32 ∧ (Arr.reset a).kappa = 0x3F800000#32 := ⟨rfl, rfl, rfl, rfl, rfl⟩

/-- Settles O5: every table is empty, so each record and register is that of the reset record. -/
theorem resetLeavesTheSpecifiedState : Obligations.ResetLeavesTheSpecifiedState := by
  unfold Obligations.ResetLeavesTheSpecifiedState
  obtain ⟨hid, htwin, hsafe⟩ := State.coxRegs_reset
  have hadmin : State.reset.qcfg .admin = 0x40000006#32 := (State.qcfg_reset (k := 0) rfl).trans (by decide)
  have hctx (c : Fin 16) : State.reset.qcfg (.ctx c) = 0x40010006#32 := (State.qcfg_reset (k := 1) rfl).trans (by decide)
  have hbow (c : Fin 16) : State.reset.qcfg (.bow c) = 0x40020006#32 := (State.qcfg_reset (k := 2) rfl).trans (by decide)
  simp only [State.crew_reset, State.arr_reset, State.ve_reset, State.port_reset]
  exact ⟨canonical_reset, rfl, rfl, rfl, rfl, rfl, rfl, rfl, rfl, State.ctx_reset, hadmin,
    fun c => ⟨hctx c, hbow c⟩, hid, htwin, hsafe, fun _ => Crew.regs_reset, Arr.regs_reset, fun _ => rfl, fun _ => rfl⟩

end Sys2Proof.Machine
end

/-! PROOFS for the family 02_arrays_and_strokes: the sine generators, the strokes and the ends of their scans. -/

/-! ## The sine sample and row mode (R44, R45) -/
section
namespace Sys2Proof.Machine

/-- The quarter table holds no entry above 511 (R44): all 1,024 of them. -/
theorem quarterSine_le : ∀ i, i < 1024 → quarterSine i ≤ 511 := by decide +kernel

theorem bitsOf_lt (v lo len : Nat) : bitsOf v lo len < 2 ^ len := Nat.mod_lt _ (Nat.two_pow_pos len)

theorem sineSample_le (p : BitVec 24) : sineSample p ≤ 1023 := by
  have hi : bitsOf p.toNat 12 10 < 1024 := bitsOf_lt _ 12 10
  have hq : ∀ i, i < 1024 → quarterSine i ≤ 511 := quarterSine_le
  simp only [sineSample]
  generalize bitsOf p.toNat 22 2 = q
  generalize bitsOf p.toNat 12 10 = i at hi
  have h : quarterSine (if q = 1 ∨ q = 3 then 1023 - i else i) ≤ 511 := hq _ (by split <;> omega)
  split <;> omega

/-- An amplitude of at most 256 keeps the scaled sample within the 10 bits of the converter. -/
theorem sineScaled_le (p : BitVec 24) {amp : BitVec 9} (h : amp.toNat ≤ 256) : sineScaled p amp ≤ 1023 := by
  have hs := sineSample_le p
  simp only [sineScaled]
  generalize sineSample p = v at hs
  generalize amp.toNat = m at h
  have hm : ((v : Int) - 512) * (m : Int) ≤ 511 * 256 := by nlinarith
  omega

theorem sumNat_eq_sum (l : List Nat) : sumNat l = l.sum := by
  rw [sumNat, List.sum_eq_foldl]

/-- A value spread over `n` rows, each taking the quotient of its turn, adds up to the value. -/
theorem sum_spread (n : Nat) (hn : 0 < n) (A : Nat) : ((List.range n).map (fun k => (A + k) / n)).sum = A := by
  induction A with
  | zero => exact List.sum_eq_zero (by simpa using fun k hk => Nat.div_eq_of_lt (by omega))
  | succ A ih =>
    have shift : ((List.range n).map (fun k => (A + 1 + k) / n)).sum + A / n
        = ((List.range n).map (fun k => (A + k) / n)).sum + (A + n) / n := by
      have next (k : Nat) : A + 1 + k = A + (k + 1) := by omega
      simp only [next, ← List.sum_range_succ (fun k => (A + k) / n)]
      rw [List.sum_range_succ' (fun k => (A + k) / n), Nat.add_zero, Nat.add_comm]
    rw [ih, Nat.add_div_right A hn] at shift
    omega

theorem Sine.rowCount_pos (x : Sine) : 0 < x.rowCount := Nat.mul_pos (by omega) (Nat.two_pow_pos _)

theorem Sine.rowCode_clamped (x : Sine) (p : BitVec 24) {k : Nat} (h : x.rowCount ≤ k) : x.rowCode p k = 0 :=
  if_neg (Nat.not_lt.2 h)

/-- The codes of the driven rows add up to A (R45). -/
theorem Sine.sum_rowCode (x : Sine) (p : BitVec 24) :
    sumNat ((List.range x.rowCount).map (x.rowCode p)) = sineScaled p x.amp * 15 * x.rowCount / 1024 := by
  have driven : (List.range x.rowCount).map (x.rowCode p)
      = (List.range x.rowCount).map (fun k => (sineScaled p x.amp * 15 * x.rowCount / 1024 + k) / x.rowCount) :=
    List.map_congr_left fun k hk => if_pos (List.mem_range.1 hk)
  rw [sumNat_eq_sum, driven, sum_spread _ x.rowCount_pos]

theorem Sine.rowCode_le (x : Sine) (p : BitVec 24) (h : x.amp.toNat ≤ 256) (k : Nat) : x.rowCode p k ≤ 15 := by
  have hs := sineScaled_le p h
  have hn := x.rowCount_pos
  simp only [Sine.rowCode]
  generalize sineScaled p x.amp = v at hs
  generalize x.rowCount = n at hn
  split
  · next hk =>
    have hA : v * 15 * n / 1024 < 15 * n := Nat.div_lt_of_lt_mul (by nlinarith)
    exact Nat.lt_succ_iff.1 (Nat.div_lt_of_lt_mul (by omega))
  · omega

end Sys2Proof.Machine
end

/-! ## The sine registers and TEST_AOUT (R46 to R49, R345) -/
section
namespace Sys2Proof.Machine

theorem bitOf_or_one (v : Dword) : bitOf (v ||| 1#32).toNat 0 = true := by
  simp [bitOf, Nat.or_mod_two_eq_one]

/-- EN = 1 in a write leaves the other fields of the word. -/
theorem bitsOf_or_one (v : Dword) {lo : Nat} (h : 0 < lo) (len : Nat) :
    bitsOf (v ||| 1#32).toNat lo len = bitsOf v.toNat lo len := by
  have h1 : 1 / 2 ^ lo = 0 := Nat.div_eq_of_lt (Nat.one_lt_two_pow (by omega))
  simp only [bitsOf, BitVec.toNat_or, ← Nat.shiftRight_eq_div_pow, Nat.shiftRight_or_distrib] at *
  simp [h1]

theorem State.not_off_of_barLive {s : State} (h : s.barLive = true) :
    s.dev.st ≠ .off ∧ s.dev.st ≠ .resetHold ∧ s.dev.endpointFault = false := by
  simpa [State.barLive, State.alive, and_assoc] using h

/-- A write of the physical function through BAR0 reaches its register while the device answers. -/
theorem State.barWrite_pf {s : State} (h : s.barLive = true) (off : Nat) (w : Dword) :
    s.barWrite 0 false off w = s.writeReg off w := by
  obtain ⟨hoff, hhold, hend⟩ := State.not_off_of_barLive h
  simp [State.barWrite, hoff, hhold, hend]

theorem State.writeReg_sineCtl (s : State) (w : Dword) :
    s.writeReg 0x700404 w = { s with cfg := s.cfg.writeSine w.toNat } := rfl

theorem State.writeReg_crewSine (s : State) (crew : Fin 256) (w : Dword) :
    s.writeReg (0x1009104 + 0x10000 * crew.val) w
      = if diePowered s.env.env (crewDie crew.val) then s.writeCrewSine crew.val w.toNat else s := by
  have hn : (0x1009104 + 0x10000 * crew.val - 0x1000000) / 0x10000 = crew.val := by omega
  have hr : (0x1009104 + 0x10000 * crew.val) % 0x10000 = 0x9104 := by omega
  simp only [State.writeReg]
  rw [if_neg (by omega), if_neg (by omega), if_neg (by omega), if_neg (by omega), if_pos (by omega), hn, hr]
  rfl

theorem State.testAout_none_iff (s : State) : s.testAout = none ↔ s.dev.st = .off ∨ s.dev.st = .resetHold := by
  unfold State.testAout
  split
  · next h => simpa using h
  · next h => split <;> simpa using h

theorem State.testAout_up {s : State} (ho : s.dev.st ≠ .off) (hr : s.dev.st ≠ .resetHold) :
    s.testAout = if s.cfg.sineEn then some (sineScaled s.cfg.sinePhase s.cfg.sineAmp) else some 512 :=
  if_neg (by simp [ho, hr])

/-- MGT_SINE_CTL with EN = 1: the register is written, and the pin carries the sample of its phase. -/
theorem mgtSineEnable_spec (s : State) (v : Dword) (h : s.barLive = true) : ∃ t : State, exec (.mgtSineEnable v) s = .next t
    ∧ t = { s with cfg := s.cfg.writeSine (v ||| 1#32).toNat } ∧ t.cfg.sineEn = true
    ∧ t.testAout = some (sineScaled (if s.cfg.sineEn then s.cfg.sinePhase else 0) t.cfg.sineAmp) := by
  obtain ⟨ho, hr, -⟩ := State.not_off_of_barLive h
  have en : (s.cfg.writeSine (v ||| 1#32).toNat).sineEn = true := bitOf_or_one v
  have ph : (s.cfg.writeSine (v ||| 1#32).toNat).sinePhase = if s.cfg.sineEn then s.cfg.sinePhase else 0 := by
    simp only [Cfg.writeSine, bitOf_or_one]
    cases s.cfg.sineEn <;> rfl
  have up := State.testAout_up (s := { s with cfg := s.cfg.writeSine (v ||| 1#32).toNat }) ho hr
  rw [if_pos en, ph] at up
  exact ⟨_, congrArg Host.Outcome.next (State.barWrite_pf h 0x700404 _), rfl, en, up⟩

/-- CRW_SINE_CTL with EN = 1, on a powered die and on one without power. -/
theorem exec_sineRowModeEnable (s : State) (crew : Fin 256) (v : Dword) (h : s.barLive = true) :
    exec (.sineRowModeEnable crew v) s
      = .next (if diePowered s.env.env (crewDie crew.val) then s.writeCrewSine crew.val (v ||| 1#32).toNat else s) :=
  congrArg Host.Outcome.next ((State.barWrite_pf h _ _).trans (s.writeReg_crewSine crew _))

/-- What a write of CRW_SINE_CTL with EN = 1 leaves in the crew: EN where it is not refused, REFUSED where it is (R46, R47). -/
theorem Crew.writeSine_en (c : Crew) (v : Dword) (no : Bool) : (c.writeSine (v ||| 1#32).toNat no).sine.en = !no := by
  simp only [Crew.writeSine, bitOf_or_one, Bool.true_and]

theorem Crew.writeSine_refused (c : Crew) (v : Dword) : (c.writeSine (v ||| 1#32).toNat true).sine.refused = true := by
  simp only [Crew.writeSine, bitOf_or_one, Bool.true_and, Bool.or_true]

theorem Crew.writeSine_slot (c : Crew) (v : Dword) (no : Bool) (h : bitsOf v.toNat 8 5 ≤ 16) :
    (c.writeSine (v ||| 1#32).toNat no).sine.slot = BitVec.ofNat 5 (bitsOf v.toNat 8 5) := by
  simp only [Crew.writeSine, bitsOf_or_one v (lo := 8) (by omega)]
  exact if_pos h

theorem State.writeCrewSine_same (s : State) (n v : Nat) : (s.writeCrewSine n v).crew n = (s.crew n).writeSine v
    (s.sineRefused n (if bitsOf v 8 5 ≤ 16 then bitsOf v 8 5 else (s.crew n).sine.slot.toNat)) :=
  State.crew_modCrew_same _ _ _

theorem State.writeCrewSine_other (s : State) {n k : Nat} (v : Nat) (h : k ≠ n) : (s.writeCrewSine n v).crew k = s.crew k :=
  State.crew_modCrew_other _ _ _ _ h

end Sys2Proof.Machine
end

/-! ## Test strokes (R46) -/
section
namespace Sys2Proof.Machine

theorem rawCode_lt (i d : Int) : rawCode i d < 1024 := by
  unfold rawCode clampInt
  omega

/-- One count in the bin of an ADC. -/
def countBin (t : Tbl Nat) (e : Nat × Nat) : Tbl Nat :=
  t.set zeroNat (e.2 * 1024 + e.1) (satAdd 16 (t.get zeroNat (e.2 * 1024 + e.1)) 1)

/-- The codes of the ADCs from `m` on count one each in the bin of their ADC. -/
theorem get_countBin (codes : List Nat) (hc : ∀ x ∈ codes, x < 1024) (m : Nat) (t : Tbl Nat) {k c : Nat} (hc' : c < 1024) :
    ((codes.zipIdx m).foldl countBin t).get zeroNat (k * 1024 + c)
      = if m ≤ k ∧ codes[k - m]? = some c then satAdd 16 (t.get zeroNat (k * 1024 + c)) 1
        else t.get zeroNat (k * 1024 + c) := by
  induction codes generalizing m t with
  | nil => simp
  | cons x xs ih =>
    have hx : x < 1024 := hc x (by simp)
    rw [List.zipIdx_cons, List.foldl_cons, ih (fun y hy => hc y (by simp [hy]))]
    by_cases hkey : k * 1024 + c = m * 1024 + x
    · obtain ⟨rfl, rfl⟩ : k = m ∧ c = x := by omega
      rw [if_neg (by omega), if_pos (by simp), countBin]
      exact Tbl.get_set_same _ _ _ _
    · have other : (countBin t (x, m)).get zeroNat (k * 1024 + c) = t.get zeroNat (k * 1024 + c) :=
        Tbl.get_set_other _ _ _ _ _ hkey
      rw [other]
      obtain hk | rfl | hk := Nat.lt_trichotomy k m
      · rw [if_neg (by omega), if_neg (by omega)]
      · rw [if_neg (by omega), if_neg (by simp; omega)]
      · have hs : k - m = k - (m + 1) + 1 := by omega
        rw [hs, List.getElem?_cons_succ]
        simp only [show m ≤ k from by omega, show m + 1 ≤ k from by omega, true_and]

/-- The codes that the data ADCs show in a test stroke of an array. -/
def State.testCodes (s : State) (a : Nat) (dev : List Int) : List Nat :=
  dev.zipIdx.map (fun e => rawCode (s.testIdeal a (64 * e.2)) e.1)

theorem State.testCodes_lt (s : State) (a : Nat) (dev : List Int) : ∀ x ∈ s.testCodes a dev, x < 1024 := by
  intro x hx
  obtain ⟨e, -, rfl⟩ := List.mem_map.1 hx
  exact rawCode_lt _ _

theorem State.testCodes_getElem? (s : State) (a : Nat) (dev : List Int) {k : Nat} (h : k < dev.length) :
    (s.testCodes a dev)[k]? = some (rawCode (s.testIdeal a (64 * k)) (dev.getD k 0)) := by
  simp [State.testCodes, h]

/-- The crew of a test stroke with its histograms counted. -/
def Crew.countCodes (codes : List Nat) (x : Crew) : Crew := { x with hist := codes.zipIdx.foldl countBin x.hist }

theorem exec_sineTestStroke_off (s : State) (crew : Fin 256) {dev : List Int} (h : dev.length = 8)
    (off : (s.crew crew.val).sine.en = false ∨ s.crewUp crew.val = false ∨ (s.crew crew.val).sine.hist = false) :
    exec (.sineTestStroke crew dev) s = .next s := by
  show execSineTestStroke crew dev s = _
  simp only [execSineTestStroke, h, ne_eq, not_true_eq_false, if_false]
  obtain off | off | off := off <;> simp [off]

theorem exec_sineTestStroke_hist (s : State) (crew : Fin 256) {dev : List Int} (h : dev.length = 8)
    (en : (s.crew crew.val).sine.en = true) (up : s.crewUp crew.val = true) (hist : (s.crew crew.val).sine.hist = true) :
    exec (.sineTestStroke crew dev) s = .next (s.modCrew crew.val
      (Crew.countCodes (s.testCodes (arrIdx crew.val (s.crew crew.val).sine.slot.toNat) dev))) := by
  show execSineTestStroke crew dev s = _
  simp only [execSineTestStroke, h, en, up, hist, ne_eq, not_true_eq_false, if_false, Bool.not_true, Bool.or_self,
    Bool.false_eq_true]
  rfl

/-- Settles O40: a write reaches its register alone (R46 to R49); the rows share out A (R45); each ADC counts in its own bin. -/
theorem sineGeneratorsAndTestStrokes : Obligations.SineGeneratorsAndTestStrokes := by
  unfold Obligations.SineGeneratorsAndTestStrokes
  refine ⟨mgtSineEnable_spec, fun s => ⟨s.testAout_none_iff, fun ho hr en => ?_⟩, fun x p h => ?_, fun s crew v h => ?_,
    fun s crew dev h => ?_⟩
  · rw [State.testAout_up ho hr, en]
    rfl
  · exact ⟨x.sum_rowCode p, fun k => ⟨x.rowCode_le p h k, x.rowCode_clamped p⟩⟩
  · rw [exec_sineRowModeEnable s crew v h]
    refine ⟨fun hd => ⟨s.writeCrewSine crew.val (v ||| 1#32).toNat, by rw [if_pos hd], fun k hk => ?_, ?_, rfl, ?_, ?_⟩,
      fun hd => by rw [hd]; rfl⟩
    · exact s.writeCrewSine_other _ hk
    · rw [s.writeCrewSine_same]
      rfl
    · intro no
      rw [s.writeCrewSine_same, bitsOf_or_one v (by omega), no]
      exact ⟨Crew.writeSine_refused _ v, Crew.writeSine_en _ v true⟩
    · intro yes hslot _
      rw [s.writeCrewSine_same, bitsOf_or_one v (by omega), if_pos hslot, yes]
      exact ⟨Crew.writeSine_en _ v false, Crew.writeSine_slot _ v false hslot⟩
  · intro a code
    refine ⟨exec_sineTestStroke_off s crew h, fun en up hist => ⟨_, exec_sineTestStroke_hist s crew h en up hist,
      fun k c hk hc => ?_, ?_, fun k hk => State.crew_modCrew_other _ _ _ _ hk, rfl⟩⟩
    · have own : (s.testCodes a dev)[k]? = some (code k) := s.testCodes_getElem? a dev (by omega)
      rw [State.crew_modCrew_same]
      exact (get_countBin _ (s.testCodes_lt a dev) 0 _ hc).trans (by simp [own, eq_comm])
    · rw [State.crew_modCrew_same]
      rfl

end Sys2Proof.Machine
end

/-! ## Settling and signatures: what they leave alone -/
section
namespace Sys2Proof.Machine

theorem arrIdx_div (k : Fin 256) (m : Fin 17) : arrIdx k.val m.val / 17 = k.val := by
  unfold arrIdx
  omega

theorem State.swingCheck_still {s : State} {c : Nat} (h : (s.ctx c).swingCmd = none) : s.swingCheck c = s := by
  simp only [State.swingCheck, h]

/-- With no swing in progress settling changes nothing. -/
theorem State.settle_still {s : State} (h : ∀ c, c < 16 → (s.ctx c).swingCmd = none) : s.settle = s := by
  have still (l : List Nat) (hl : ∀ c ∈ l, c < 16) : s.each l State.swingCheck = s := by
    induction l with
    | nil => rfl
    | cons c l ih =>
      rw [State.each_cons, State.swingCheck_still (h c (hl c (by simp)))]
      exact ih fun d hd => hl d (by simp [hd])
  exact still _ fun c hc => List.mem_range.1 hc

theorem State.ctx_of_ctxs {s t : State} (h : t.ctxs = s.ctxs) (c : Nat) : t.ctx c = s.ctx c := by rw [State.ctx, h, State.ctx]

/-- Settling asks for the contexts alone. -/
theorem State.settle_still_of_ctxs {s t : State} (h : ∀ c, c < 16 → (s.ctx c).swingCmd = none) (e : t.ctxs = s.ctxs) :
    t.settle = t := State.settle_still fun c hc => by rw [State.ctx_of_ctxs e, h c hc]

/-- From `s` to `t` nothing has changed but arrays, rings, and what a failure signature or an event reaches (R204, R239 to
R242, R275): the store, the held messages, interrupts and what leaves the device. -/
structure Aside (s t : State) : Prop where
  rest : t = { s with arrs := t.arrs, queues := t.queues, sig := t.sig, group := t.group, outs := t.outs, dev := t.dev }

theorem Aside.refl (s : State) : Aside s s := ⟨rfl⟩

theorem Aside.trans {s t u : State} (h : Aside s t) (k : Aside t u) : Aside s u := by
  refine ⟨k.rest.trans ?_⟩
  rw [h.rest]

namespace Aside
variable {s t : State} (h : Aside s t)
include h

theorem env : t.env = s.env := (congrArg State.env h.rest :)
theorem cfg : t.cfg = s.cfg := (congrArg State.cfg h.rest :)
theorem gov : t.gov = s.gov := (congrArg State.gov h.rest :)
theorem tel : t.tel = s.tel := (congrArg State.tel h.rest :)
theorem ctxs : t.ctxs = s.ctxs := (congrArg State.ctxs h.rest :)
theorem crews : t.crews = s.crews := (congrArg State.crews h.rest :)
theorem cmds : t.cmds = s.cmds := (congrArg State.cmds h.rest :)
theorem parts : t.parts = s.parts := (congrArg State.parts h.rest :)
theorem censusQ : t.censusQ = s.censusQ := (congrArg State.censusQ h.rest :)
theorem host : t.host = s.host := (congrArg State.host h.rest :)
theorem crew (n : Nat) : t.crew n = s.crew n := by rw [State.crew, h.crews, State.crew]

end Aside

theorem Aside.modArr (s : State) (a : Nat) (f : Arr → Arr) : Aside s (s.modArr a f) := ⟨rfl⟩
theorem Aside.modQueue (s : State) (q : QueueId) (f : Queue → Queue) : Aside s (s.modQueue q f) := ⟨rfl⟩

/-- What a signature reaches, and no array and no ring. -/
theorem State.emit_frame (s : State) (kind : Nat) (i : SigInfo) : ∃ x g o d,
    s.emit kind i = { s with sig := x, group := g, outs := o, dev := d } ∧ x.seq = s.sig.seq + 1 := by
  have pf (u : State) (v : Nat) : ∃ o d, u.raisePf v = { u with outs := o, dev := d } := by
    obtain e | ⟨x, e⟩ | e := u.raisePf_cases v <;> exact ⟨_, _, e⟩
  have store (u : State) (b : List Byte) : ∃ x o d, u.storeSig b = { u with sig := x, outs := o, dev := d }
      ∧ x.seq = u.sig.seq := by
    unfold State.storeSig
    split
    · exact ⟨_, _, _, rfl, rfl⟩
    · dsimp only
      split
      · obtain ⟨o, d, e⟩ := pf { u with sig := { u.sig with store := u.sig.store ++ [b], lost := 0 } } 1
        exact ⟨_, _, _, e, rfl⟩
      · exact ⟨_, _, _, rfl, rfl⟩
  have sent (u : State) (m : Msg) : ∃ g o, u.send m = { u with group := g, outs := o } := by
    have held : ∃ g, (if m.kind = 5 ∨ m.kind = 6 then u
        else { u with group := { u.group with held := u.group.held ++ [m] } }) = { u with group := g } := by
      split <;> exact ⟨_, rfl⟩
    obtain ⟨g, e⟩ := held
    unfold State.send
    dsimp only
    rw [e]
    split
    · exact ⟨g, _, rfl⟩
    · split <;> exact ⟨g, _, rfl⟩
  unfold State.emit
  obtain ⟨x, o, d, e, hx⟩ := store { s with sig := { s.sig with seq := s.sig.seq + 1, mirror := pushMirror s.sig.mirror (s.sigBytes kind i) } }
    (s.sigBytes kind i)
  dsimp only
  rw [e]
  split
  · obtain ⟨g, o, e⟩ := sent _ _
    exact ⟨_, _, _, _, e, hx⟩
  · exact ⟨_, _, _, _, rfl, hx⟩

theorem Aside.emit (s : State) (kind : Nat) (i : SigInfo) : Aside s (s.emit kind i) := by
  obtain ⟨x, g, o, d, e, -⟩ := s.emit_frame kind i
  rw [e]
  exact ⟨rfl⟩

@[simp] theorem State.arr_emit (s : State) (kind : Nat) (i : SigInfo) (b : Nat) : (s.emit kind i).arr b = s.arr b := by
  obtain ⟨x, g, o, d, e, -⟩ := s.emit_frame kind i
  rw [e]
  rfl

@[simp] theorem State.queues_emit (s : State) (kind : Nat) (i : SigInfo) : (s.emit kind i).queues = s.queues := by
  obtain ⟨x, g, o, d, e, -⟩ := s.emit_frame kind i
  rw [e]

theorem State.sig_seq_emit (s : State) (kind : Nat) (i : SigInfo) : (s.emit kind i).sig.seq = s.sig.seq + 1 := by
  obtain ⟨x, g, o, d, e, hx⟩ := s.emit_frame kind i
  rw [e]
  exact hx

end Sys2Proof.Machine
end

/-! ## The start of a slot (R86, R87, R228) -/
section
namespace Sys2Proof.Machine

theorem Aside.trkOut (s : State) (a c : Nat) (f : F32) (l : List Nat) : Aside s (s.trkOut a c f l) :=
  (Aside.modArr s a _).trans (Aside.emit _ _ _)

theorem Aside.noteKEff (s : State) (a : Nat) : Aside s (s.noteKEff a) := by
  simp only [State.noteKEff]
  split
  · exact Aside.modArr s a _
  · split
    · exact Aside.modArr s a _
    · exact (Aside.trkOut s a _ _ _).trans (Aside.modArr _ a _)

@[simp] theorem State.queues_noteKEff (s : State) (a : Nat) : (s.noteKEff a).queues = s.queues := by
  simp only [State.noteKEff]
  split
  · rfl
  · split
    · rfl
    · exact State.queues_emit _ _ _

theorem State.arr_noteKEff_other (s : State) {a b : Nat} (h : b ≠ a) : (s.noteKEff a).arr b = s.arr b := by
  simp only [State.noteKEff]
  split
  · exact State.arr_modArr_other _ _ _ _ h
  · split
    · exact State.arr_modArr_other _ _ _ _ h
    · rw [State.arr_modArr_other _ _ _ _ h]
      exact (State.arr_emit _ _ _ _).trans (State.arr_modArr_other _ _ _ _ h)

/-- A slot that starts with a clamped kappa_eff marks its array, and changes nothing else of it. -/
theorem State.arr_noteKEff (s : State) (a : Nat) :
    ∃ x y, (s.noteKEff a).arr a = { s.arr a with trkOut := x, effClamp := y } := by
  simp only [State.noteKEff]
  split
  · exact ⟨_, _, State.arr_modArr_same _ _ _⟩
  · split
    · exact ⟨_, _, State.arr_modArr_same _ _ _⟩
    · refine ⟨true, true, ?_⟩
      rw [State.arr_modArr_same, State.trkOut, State.arr_emit, State.arr_modArr_same]

/-- kappa_eff of an array follows from its kappa, its window temperature and what the device knows of temperatures (R87). -/
theorem State.kEff_congr {s t : State} {a : Nat} (hc : t.cfg = s.cfg) (he : t.env = s.env) (ht : t.tel = s.tel)
    (hk : (t.arr a).kappa = (s.arr a).kappa) (hw : (t.arr a).tWin = (s.arr a).tWin) : t.kEff a = s.kEff a := by
  simp only [State.kEff, State.kEffRaw, State.pFactor, State.tNow, hc, he, ht, hk, hw]

/-- A slot has started on array `a`: the stroke `sh` is the last in flight, the array is marked where kappa_eff was clamped, and
of the rest only what a signature reaches has changed. -/
structure SlotStarts (s t : State) (a : Nat) (sh : Shot) : Prop where
  aside : Aside s t
  queues : t.queues = s.queues
  others : ∀ b, b ≠ a → t.arr b = s.arr b
  own : t.arr a = { s.arr a with
    verify := 0, shots := (s.arr a).shots ++ [sh], sinceMaint := (s.arr a).sinceMaint + 1
    trkOut := (t.arr a).trkOut, effClamp := (t.arr a).effClamp }

theorem State.startShot_starts (s : State) (a home : Nat) (r : CmdRef) (vec split : Nat) (q : Req) (warm : Bool) (codes : List Nat)
    (chk : List F32) : SlotStarts s (s.startShot a home r vec split q warm codes chk) a
      ⟨home, r, vec, split, q, (s.arr a).ground, warm, codes, s.kEff a, s.cfg.kc, chk, none⟩ := by
  have aside := Aside.noteKEff s a
  obtain ⟨x, y, own⟩ := s.arr_noteKEff a
  have eff : (s.noteKEff a).kEff a = s.kEff a :=
    State.kEff_congr aside.cfg aside.env aside.tel (congrArg Arr.kappa own :) (congrArg Arr.tWin own :)
  refine ⟨?_, s.queues_noteKEff a, fun b hb => ?_, ?_⟩
  · dsimp only [State.startShot]
    exact aside.trans (Aside.modArr _ a _)
  · exact (State.arr_modArr_other _ _ _ _ hb).trans (s.arr_noteKEff_other hb)
  · simp only [State.startShot, State.arr_modArr_same, eff, aside.cfg, own]

end Sys2Proof.Machine
end

/-! ## Jobs -/
section
namespace Sys2Proof.Machine

/-- Settling a row group touches the sums of one nibble. -/
theorem Job.accept_frame (j : Job) (q : Req) (cols : List Int) (terms : List (Nat × Rat)) :
    j.accept q cols terms = { j with hi := (j.accept q cols terms).hi, lo := (j.accept q cols terms).lo } := by
  simp only [Job.accept, Job.setAcc]
  split <;> rfl

theorem Job.acc_accept (j : Job) (q : Req) (cols : List Int) (terms : List (Nat × Rat)) :
    (j.accept q cols terms).acc q.high = { j.acc q.high with
      left := (j.acc q.high).left - 1, sums := addLists (j.acc q.high).sums cols, terms := (j.acc q.high).terms ++ terms } := by
  simp only [Job.accept, Job.setAcc, Job.acc]
  split <;> simp_all

theorem addLists_nil (l : List Int) : addLists l [] = l := by cases l <;> rfl

/-- Two jobs with the same key: command, vector and split. -/
theorem Job.is_self (j : Job) : j.is j.ref j.vec j.split = true := by simp [Job.is]

theorem Job.is_iff {j : Job} {r : CmdRef} {vec split : Nat} :
    j.is r vec split = true ↔ j.ref = r ∧ j.vec = vec ∧ j.split = split := by
  simp [Job.is, and_assoc]

/-- A job takes the place of those with its key. -/
def Job.replaces (j x : Job) : Job := if x.is j.ref j.vec j.split then j else x

theorem State.arr_setJob_same (s : State) (a : Nat) (j : Job) :
    (s.setJob a j).arr a = { s.arr a with jobs := (s.arr a).jobs.map j.replaces } := State.arr_modArr_same _ _ _

theorem State.arr_setJob_other (s : State) {a b : Nat} (j : Job) (h : b ≠ a) : (s.setJob a j).arr b = s.arr b :=
  State.arr_modArr_other _ _ _ _ h

/-- Replacing twice leaves the later job. -/
theorem Job.map_replaces_replaces {j z : Job} (h : z.is j.ref j.vec j.split = true) (l : List Job) :
    (l.map z.replaces).map j.replaces = l.map j.replaces := by
  obtain ⟨hr, hv, hs⟩ := Job.is_iff.1 h
  rw [List.map_map]
  refine List.map_congr_left fun x _ => ?_
  simp only [Function.comp, Job.replaces, hr, hv, hs]
  by_cases hx : x.is j.ref j.vec j.split = true
  · simp only [if_pos hx, if_pos h]
  · simp only [if_neg hx]

/-- In a list where jobs with the key of `j` are replaced, a search that found `j` finds the job in its place. -/
theorem Job.find?_replaces {p : Job → Bool} {j z : Job} (hz : p z = true) (hj : j.is z.ref z.vec z.split = true) :
    ∀ {l : List Job}, l.find? p = some j → (l.map z.replaces).find? p = some z
  | x :: xs, h => by
    rw [List.map_cons, List.find?_cons, Job.replaces]
    by_cases hx : x.is z.ref z.vec z.split = true
    · rw [if_pos hx, hz]
    · rw [if_neg hx]
      cases hp : p x with
      | true =>
        rw [List.find?_cons, hp] at h
        cases h
        exact absurd hj hx
      | false =>
        rw [List.find?_cons, hp] at h
        exact Job.find?_replaces hz hj h

theorem Job.find?_replaces_none {p : Job → Bool} {z : Job} (hz : p z = false) {l : List Job} (h : l.find? p = none) :
    (l.map z.replaces).find? p = none := by
  rw [List.find?_eq_none] at *
  intro x hx
  obtain ⟨y, hy, rfl⟩ := List.mem_map.1 hx
  unfold Job.replaces
  split
  · simp [hz]
  · exact h y hy

/-- A job with strokes to make, whose stamp is the ground plane's. -/
def State.waiting (s : State) (a : Nat) (j : Job) : Bool := !j.todo.isEmpty && s.jobReady a j

/-- Engine class before stern class, each in order of arrival (R121, R219). -/
theorem State.nextJob_eq (s : State) (a : Nat) : s.nextJob a
    = ((s.arr a).jobs.find? (fun j => s.waiting a j && !j.stern)).or ((s.arr a).jobs.find? (s.waiting a)) := by
  have eng : ((s.arr a).jobs.filter (s.waiting a)).find? (fun j => !j.stern)
      = (s.arr a).jobs.find? (fun j => s.waiting a j && !j.stern) := by
    rw [List.find?_filter]
    congr
    funext j
    simp
  rw [← eng, ← List.head?_filter (p := s.waiting a)]
  show (match ((s.arr a).jobs.filter (s.waiting a)).find? (fun j => !j.stern) with
    | some j => some j
    | none => ((s.arr a).jobs.filter (s.waiting a)).head?) = _
  cases ((s.arr a).jobs.filter (s.waiting a)).find? (fun j => !j.stern) <;> rfl

theorem State.mem_of_nextJob {s : State} {a : Nat} {j : Job} (h : s.nextJob a = some j) : j ∈ (s.arr a).jobs := by
  rw [State.nextJob_eq, Option.or_eq_some_iff] at h
  obtain h | ⟨-, h⟩ := h <;> exact List.mem_of_find?_eq_some h

/-- The job that strokes next stays next when it takes its own place with strokes still to make. -/
theorem State.nextJob_replaces {s t : State} {a : Nat} {j z : Job} (h : s.nextJob a = some j)
    (hjobs : (t.arr a).jobs = (s.arr a).jobs.map z.replaces) (hready : ∀ x, t.jobReady a x = s.jobReady a x)
    (hkey : j.is z.ref z.vec z.split = true) (hgen : z.gen = j.gen) (hst : z.stern = j.stern) (htodo : z.todo ≠ []) :
    t.nextJob a = some z := by
  have hw : t.waiting a = s.waiting a := by
    funext x
    simp only [State.waiting, hready]
  obtain ⟨hr, -, -⟩ := Job.is_iff.1 hkey
  have hzj : s.jobReady a z = s.jobReady a j := by simp only [State.jobReady, hgen, hr]
  rw [State.nextJob_eq] at h ⊢
  rw [hjobs, hw]
  obtain h | ⟨hn, h⟩ := Option.or_eq_some_iff.1 h
  · have hp := List.find?_some h
    simp only [State.waiting, Bool.and_eq_true] at hp
    rw [Job.find?_replaces (by simp [State.waiting, htodo, hzj, hst, hp.1.2, hp.2]) hkey h]
    rfl
  · have hp := List.find?_some h
    have hs : j.stern = true := by
      have := List.find?_eq_none.1 hn j (List.mem_of_find?_eq_some h)
      simpa [hp] using this
    rw [Job.find?_replaces_none (by simp [hst, hs]) hn, Option.none_or]
    simp only [State.waiting, Bool.and_eq_true] at hp
    exact Job.find?_replaces (by simp [State.waiting, htodo, hzj, hp.2]) hkey h

end Sys2Proof.Machine
end

/-! ## What a stroke changes, and what it reads as before -/
section
namespace Sys2Proof.Machine

/-- From `s` to `t` nothing has changed but the jobs, strokes and slot marks of array `a`, the governor, the words promised in
combiners (log entry 48), and what a signature reaches. -/
structure Strokes (s t : State) (a : Nat) : Prop where
  rest : t = { s with
    gov := t.gov, crews := t.crews, arrs := t.arrs, sig := t.sig, group := t.group, outs := t.outs, dev := t.dev }
  crews : ∀ n, t.crew n = { s.crew n with combVecs := (t.crew n).combVecs }
  others : ∀ b, b ≠ a → t.arr b = s.arr b
  own : t.arr a = { s.arr a with
    verify := (t.arr a).verify, sinceMaint := (t.arr a).sinceMaint, jobs := (t.arr a).jobs, shots := (t.arr a).shots
    trkOut := (t.arr a).trkOut, effClamp := (t.arr a).effClamp }

theorem Strokes.trans {s t u : State} {a : Nat} (h : Strokes s t a) (k : Strokes t u a) : Strokes s u a := by
  refine ⟨k.rest.trans ?_, fun n => (k.crews n).trans ?_, fun b hb => (k.others b hb).trans (h.others b hb), k.own.trans ?_⟩
  · rw [h.rest]
  · rw [h.crews n]
  · rw [h.own]

theorem Strokes.setGov (s : State) (g : Gov) (a : Nat) : Strokes s { s with gov := g } a :=
  ⟨rfl, fun _ => rfl, fun _ _ => rfl, rfl⟩

theorem Strokes.setJob (s : State) (a : Nat) (j : Job) : Strokes s (s.setJob a j) a :=
  ⟨rfl, fun _ => rfl, fun _ hb => s.arr_setJob_other j hb, by rw [s.arr_setJob_same]⟩

theorem SlotStarts.strokes {s t : State} {a : Nat} {sh : Shot} (h : SlotStarts s t a sh) : Strokes s t a := by
  refine ⟨h.aside.rest.trans ?_, fun n => by rw [h.aside.crew], h.others, h.own.trans ?_⟩
  · rw [h.queues, h.aside.gov, h.aside.crews]
  · rw [h.own]

theorem Crew.combPromise_frame (p : Part) (w n : Nat) (x : Crew) :
    x.combPromise p w n = { x with combVecs := (x.combPromise p w n).combVecs } := by
  unfold Crew.combPromise
  split <;> rfl

theorem Crew.any_combPromise (p : Part) (w n : Nat) (x : Crew) :
    (x.combPromise p w n).combVecs.any (fun e => e.is p) = true := by
  unfold Crew.combPromise
  split
  · next h => exact h
  · simp [CombVec.is]

@[simp] theorem State.gov_combReserve (s : State) (j : Job) : (s.combReserve j).gov = s.gov := by
  unfold State.combReserve
  split <;> rfl

@[simp] theorem State.arr_combReserve (s : State) (j : Job) (b : Nat) : (s.combReserve j).arr b = s.arr b := by
  unfold State.combReserve
  split <;> rfl

theorem Strokes.combReserve (s : State) (a : Nat) (j : Job) : Strokes s (s.combReserve j) a := by
  unfold State.combReserve
  split
  · exact ⟨rfl, fun _ => rfl, fun _ _ => rfl, rfl⟩
  · next crew words slices _ =>
    refine ⟨rfl, fun n => ?_, fun _ _ => rfl, rfl⟩
    by_cases hn : n = crew
    · rw [hn, State.crew_modCrew_same]
      exact Crew.combPromise_frame _ _ _ _
    · rw [State.crew_modCrew_other _ _ _ _ hn]

namespace Strokes
variable {s t : State} {a : Nat} (h : Strokes s t a)
include h

theorem env : t.env = s.env := (congrArg State.env h.rest :)
theorem cfg : t.cfg = s.cfg := (congrArg State.cfg h.rest :)
theorem tel : t.tel = s.tel := (congrArg State.tel h.rest :)
theorem queues : t.queues = s.queues := (congrArg State.queues h.rest :)
theorem ctxs : t.ctxs = s.ctxs := (congrArg State.ctxs h.rest :)
theorem cmds : t.cmds = s.cmds := (congrArg State.cmds h.rest :)
theorem parts : t.parts = s.parts := (congrArg State.parts h.rest :)
theorem host : t.host = s.host := (congrArg State.host h.rest :)

theorem ctx (c : Nat) : t.ctx c = s.ctx c := State.ctx_of_ctxs h.ctxs c
theorem sram (n : Nat) : (t.crew n).sram = (s.crew n).sram := (congrArg Crew.sram (h.crews n) :)
theorem spare (n : Nat) : (t.crew n).spare = (s.crew n).spare := (congrArg Crew.spare (h.crews n) :)
theorem resv (n : Nat) : (t.crew n).resv = (s.crew n).resv := (congrArg Crew.resv (h.crews n) :)
theorem tiles (n : Nat) : (t.crew n).tiles = (s.crew n).tiles := (congrArg Crew.tiles (h.crews n) :)

theorem ground (b : Nat) : (t.arr b).ground = (s.arr b).ground := by
  by_cases hb : b = a
  · rw [hb]
    exact (congrArg Arr.ground h.own :)
  · rw [h.others b hb]

theorem kEff : t.kEff a = s.kEff a :=
  State.kEff_congr h.cfg h.env h.tel (congrArg Arr.kappa h.own :) (congrArg Arr.tWin h.own :)

theorem logicalArr (b : Nat) : t.logicalArr b = s.logicalArr b := by simp only [State.logicalArr, h.spare]
theorem physArr (n l : Nat) : t.physArr n l = s.physArr n l := by simp only [State.physArr, h.spare]
theorem patchList (b : Nat) : t.patchList b = s.patchList b := by
  simp only [State.patchList, Crew.patches, h.sram, h.logicalArr, h.ground]
theorem groundBinding (b : Nat) : t.groundBinding b = s.groundBinding b := by
  simp only [State.groundBinding, Crew.binding, h.sram, h.logicalArr, h.ground]
theorem jobReady (b : Nat) (j : Job) : t.jobReady b j = s.jobReady b j := by simp only [State.jobReady, h.groundBinding]
theorem jobCodes (b : Nat) (j : Job) : t.jobCodes b j = s.jobCodes b j := by simp only [State.jobCodes, h.tiles]
theorem placeOf (b : Nat) (p : Bool) : t.placeOf b p = s.placeOf b p := by
  have hb : (t.crew (b / 17)).binding (t.logicalArr b) p = (s.crew (b / 17)).binding (s.logicalArr b) p := by
    simp only [Crew.binding, h.sram, h.logicalArr]
  unfold State.placeOf
  rw [hb, h.logicalArr]
  simp only [h.ctx]
theorem replayArr (b : Nat) : t.replayArr b = s.replayArr b := by
  simp only [State.replayArr, h.resv, h.placeOf, h.ground, h.physArr]
theorem cmd? (r : CmdRef) : t.cmd? r = s.cmd? r := by simp only [State.cmd?, h.cmds]
theorem runGen (c : Cmd) : t.runGen c = s.runGen c := by simp only [State.runGen, h.ctx]
theorem combOf (j : Job) : t.combOf j = s.combOf j := by simp only [State.combOf, h.cmd?, h.runGen]
theorem strokeTokens (hg : t.gov = s.gov) (b : Nat) (stern : Bool) : t.strokeTokens b stern = s.strokeTokens b stern := by
  simp only [State.strokeTokens, h.resv, hg]

end Strokes

end Sys2Proof.Machine
end

/-! ## The stroke of a row group, and the skip of one (R30, R33, R106) -/
section
namespace Sys2Proof.Machine

/-- A job whose next row group strokes: the first stroke fixes its patch lists (R106). -/
def State.begun (s : State) (a : Nat) (j : Job) : Job :=
  { j with
    todo := j.todo.drop 1, started := true
    patches := if j.started then j.patches else s.patchList a
    patches2 := if j.started then j.patches2 else s.patchList (s.replayArr a) }

theorem State.strokeNow_short {s : State} {a : Nat} {j : Job} (h : (s.strokeTokens a j.stern).2 = false) (q : Req)
    (xs : List Nat) : s.strokeNow a j q xs = { s with gov := (s.strokeTokens a j.stern).1 } := by
  simp only [State.strokeNow, h, Bool.false_eq_true, if_false]

/-- With its tokens the row group is in flight, and the job has begun. -/
theorem State.strokeNow_granted {s : State} {a : Nat} {j : Job} (h : (s.strokeTokens a j.stern).2 = true) (q : Req)
    (xs : List Nat) : Strokes s (s.strokeNow a j q xs) a ∧ (s.strokeNow a j q xs).gov = (s.strokeTokens a j.stern).1
      ∧ ((s.strokeNow a j q xs).arr a).shots = (s.arr a).shots
          ++ [⟨a, j.ref, j.vec, j.split, q, (s.arr a).ground, false, xs, s.kEff a, s.cfg.kc, [], none⟩]
      ∧ ((s.strokeNow a j q xs).arr a).jobs = (s.arr a).jobs.map (s.begun a j).replaces := by
  let v := { s with gov := (s.strokeTokens a j.stern).1 }
  let u := (v.combReserve (s.begun a j)).setJob a (s.begun a j)
  have e : s.strokeNow a j q xs = u.startShot a a j.ref j.vec j.split q false xs [] := by
    simp only [State.strokeNow, h, if_true]
    rfl
  have reserved := (Strokes.setGov s (s.strokeTokens a j.stern).1 a).trans (Strokes.combReserve v a (s.begun a j))
  have before : Strokes s u a := reserved.trans (Strokes.setJob _ a _)
  have starts := u.startShot_starts a a j.ref j.vec j.split q false xs []
  rw [e]
  refine ⟨before.trans starts.strokes, ?_, ?_, ?_⟩
  · exact starts.aside.gov.trans (v.gov_combReserve _)
  · rw [(congrArg Arr.shots starts.own :), before.ground, before.kEff, before.cfg, State.arr_setJob_same, State.arr_combReserve]
    rfl
  · rw [(congrArg Arr.jobs starts.own :), State.arr_setJob_same, State.arr_combReserve]
    rfl

/-! ### The search for the row group that strokes -/

theorem State.skipZero_stroke {s : State} {a : Nat} {j : Job} {q : Req} {rest : List Req} (n : Nat) (hj : s.nextJob a = some j)
    (ht : j.todo = q :: rest) (hr : s.combRoom j = true) (hx : ∃ x ∈ q.codes j.eight (s.jobCodes a j), x ≠ 0) :
    State.skipZero a (n + 1) s = (s, some (j, q, q.codes j.eight (s.jobCodes a j))) := by
  have hx : (q.codes j.eight (s.jobCodes a j)).all (· == 0) = false := by simpa using hx
  simp only [State.skipZero, hj, ht, hr, hx, Bool.not_true, Bool.false_eq_true, if_false]

/-- The job whose next row group `q` is skipped, with the row groups `rest` after it. -/
def Job.skipped (j : Job) (q : Req) (rest : List Req) : Job := ({ j with todo := rest } : Job).accept q [] []

theorem Job.skipped_frame (j : Job) (q : Req) (rest : List Req) :
    j.skipped q rest = { j with todo := rest, hi := (j.skipped q rest).hi, lo := (j.skipped q rest).lo } :=
  Job.accept_frame _ _ _ _

/-- A row group is skipped without codes: one less is missing, and the sums stay (R33). -/
theorem Job.acc_skipped (j : Job) (q : Req) (rest : List Req) : ((j.skipped q rest).acc q.high).left = (j.acc q.high).left - 1
    ∧ ((j.skipped q rest).acc q.high).sums = (j.acc q.high).sums := by
  have acc := Job.acc_accept { j with todo := rest } q [] []
  exact ⟨(congrArg NibAcc.left acc :), (congrArg NibAcc.sums acc :).trans (addLists_nil _)⟩

/-- A job that is still the one of `j`'s vector: its strokes and its sums alone may differ. -/
def Job.Continues (z j : Job) : Prop := z = { j with todo := z.todo, hi := z.hi, lo := z.lo }

theorem Job.continues_skipped (j : Job) (q : Req) (rest : List Req) : (j.skipped q rest).Continues j :=
  (j.skipped_frame q rest).trans (by rw [(congrArg Job.todo (j.skipped_frame q rest) :)])

theorem Job.continues_accept (j : Job) (q : Req) (cols : List Int) (terms : List (Nat × Rat)) :
    (j.accept q cols terms).Continues j :=
  (j.accept_frame q cols terms).trans (by rw [(congrArg Job.todo (j.accept_frame q cols terms) :)])

namespace Job.Continues
variable {j z : Job} (h : z.Continues j)
include h

theorem ref : z.ref = j.ref := (congrArg Job.ref h :)
theorem vec : z.vec = j.vec := (congrArg Job.vec h :)
theorem split : z.split = j.split := (congrArg Job.split h :)
theorem slice : z.slice = j.slice := (congrArg Job.slice h :)
theorem rep : z.rep = j.rep := (congrArg Job.rep h :)
theorem second : z.second = j.second := (congrArg Job.second h :)
theorem gen : z.gen = j.gen := (congrArg Job.gen h :)
theorem stern : z.stern = j.stern := (congrArg Job.stern h :)
theorem eight : z.eight = j.eight := (congrArg Job.eight h :)
theorem started : z.started = j.started := (congrArg Job.started h :)
theorem patches : z.patches = j.patches := (congrArg Job.patches h :)
theorem patches2 : z.patches2 = j.patches2 := (congrArg Job.patches2 h :)
theorem part : z.part = j.part := (congrArg Job.part h :)
theorem key : j.is z.ref z.vec z.split = true := Job.is_iff.2 ⟨h.ref.symm, h.vec.symm, h.split.symm⟩
theorem key' : z.is j.ref j.vec j.split = true := Job.is_iff.2 ⟨h.ref, h.vec, h.split⟩
theorem combOf (s : State) : s.combOf z = s.combOf j := by rw [h]; rfl
theorem jobCodes (s : State) (a : Nat) : s.jobCodes a z = s.jobCodes a j := by rw [h]; rfl

end Job.Continues

theorem State.skipZero_skip {s : State} {a : Nat} {j : Job} {q : Req} {rest : List Req} (n : Nat) (hj : s.nextJob a = some j)
    (ht : j.todo = q :: rest) (hr : s.combRoom j = true) (hx : ∀ x ∈ q.codes j.eight (s.jobCodes a j), x = 0) :
    State.skipZero a (n + 1) s = State.skipZero a n ((s.combReserve j).putJob a (j.skipped q rest)) := by
  have hx : (q.codes j.eight (s.jobCodes a j)).all (· == 0) = true := by simpa using hx
  simp only [State.skipZero, hj, ht, hr, hx, Bool.not_true, Bool.false_eq_true, if_false, if_true]
  rfl

theorem State.putJob_open (s : State) (a : Nat) {j : Job} (h : j.complete = false) : s.putJob a j = s.setJob a j := by
  simp only [State.putJob, h, Bool.false_eq_true, if_false]

/-- The array has at least as many strokes to make as one of its jobs. -/
theorem Arr.todo_le_todoCount {x : Arr} {j : Job} (h : j ∈ x.jobs) : j.todo.length ≤ x.todoCount := by
  rw [Arr.todoCount, sumNat_eq_sum]
  exact List.single_le_sum (by simp) _ (List.mem_map_of_mem h)

/-- A vector that has its words in the combiner finds room there (R130). -/
theorem State.combRoom_combReserve (s : State) (j : Job) : (s.combReserve j).combRoom j = true := by
  have hc : (s.combReserve j).combOf j = s.combOf j := (Strokes.combReserve s 0 j).combOf j
  unfold State.combRoom
  rw [hc]
  unfold State.combReserve
  split
  · rfl
  · simp [Crew.any_combPromise]

/-- After a skip the next row group of the same vector is looked at. -/
theorem State.nextJob_skipped {s : State} {a : Nat} {j z : Job} (hj : s.nextJob a = some j) (hz : z.Continues j)
    (ht : z.todo ≠ []) : ((s.combReserve j).setJob a z).nextJob a = some z := by
  have strokes := (Strokes.combReserve s a j).trans (Strokes.setJob _ a z)
  have jobs : (((s.combReserve j).setJob a z).arr a).jobs = (s.arr a).jobs.map z.replaces := by
    rw [State.arr_setJob_same, State.arr_combReserve]
  exact State.nextJob_replaces hj jobs (strokes.jobReady a) hz.key hz.gen hz.stern ht

theorem State.combRoom_skipped (s : State) (a : Nat) {j z : Job} (hz : z.Continues j) :
    ((s.combReserve j).setJob a z).combRoom z = true := by
  have hc : ((s.combReserve j).setJob a z).combOf z = (s.combReserve j).combOf j :=
    ((Strokes.setJob (s.combReserve j) a z).combOf z).trans (hz.combOf _)
  have room := s.combRoom_combReserve j
  unfold State.combRoom at *
  rw [hc, hz.part, hz.started]
  exact room

/-! ### The row -/

theorem exec_stroke_shut {s : State} {k : Fin 256} {m : Fin 17}
    (h : s.slotFree (arrIdx k.val m.val) = false ∨ (s.arr (arrIdx k.val m.val)).replays ≠ []
      ∨ ((s.arr (arrIdx k.val m.val)).limitRefresh = true ∧ (s.crew k.val).resv = none)) :
    exec (.stroke k m) s = .next s := by
  show execStroke k m s = _
  unfold execStroke
  dsimp only
  rw [if_pos]
  obtain h | h | ⟨h, hr⟩ := h
  · simp [h]
  · simp [h]
  · simp [h, hr]

/-- With a free slot and nothing before it, the row group that the search finds strokes. -/
theorem exec_stroke_open {s u : State} {k : Fin 256} {m : Fin 17} {j : Job} {q : Req} {xs : List Nat}
    (still : ∀ c, c < 16 → (s.ctx c).swingCmd = none) (free : s.slotFree (arrIdx k.val m.val) = true)
    (idle : (s.arr (arrIdx k.val m.val)).replays = [])
    (lim : (s.arr (arrIdx k.val m.val)).limitRefresh = false ∨ (s.crew k.val).resv ≠ none)
    (found : State.skipZero (arrIdx k.val m.val) ((s.arr (arrIdx k.val m.val)).todoCount + 1) s = (u, some (j, q, xs)))
    (hu : u.ctxs = s.ctxs) :
    exec (.stroke k m) s = .next (u.strokeNow (arrIdx k.val m.val) j q xs) := by
  show execStroke k m s = _
  unfold execStroke
  dsimp only
  rw [if_neg, found]
  · dsimp only
    rw [State.settle_still_of_ctxs still hu]
  · obtain lim | lim := lim
    · simp [free, idle, lim]
    · simp [free, idle, lim]

/-- The next row group with a nibble that is not 0 strokes: the first part of O49. -/
theorem stroke_first {s : State} {k : Fin 256} {m : Fin 17} {j : Job} {q : Req} {rest : List Req}
    (still : ∀ c, c < 16 → (s.ctx c).swingCmd = none) (free : s.slotFree (arrIdx k.val m.val) = true)
    (idle : (s.arr (arrIdx k.val m.val)).replays = [])
    (lim : (s.arr (arrIdx k.val m.val)).limitRefresh = false ∨ (s.crew k.val).resv ≠ none)
    (hj : s.nextJob (arrIdx k.val m.val) = some j) (ht : j.todo = q :: rest) (hr : s.combRoom j = true)
    (hx : ∃ x ∈ q.codes j.eight (s.jobCodes (arrIdx k.val m.val) j), x ≠ 0) :
    exec (.stroke k m) s = .next (s.strokeNow (arrIdx k.val m.val) j q
      (q.codes j.eight (s.jobCodes (arrIdx k.val m.val) j))) :=
  exec_stroke_open still free idle lim (State.skipZero_stroke _ hj ht hr hx) rfl

/-- A row group of zeros is skipped, and the next one of the vector strokes. -/
theorem stroke_second {s : State} {k : Fin 256} {m : Fin 17} {j z : Job} {q q2 : Req} {rest : List Req}
    (still : ∀ c, c < 16 → (s.ctx c).swingCmd = none) (free : s.slotFree (arrIdx k.val m.val) = true)
    (idle : (s.arr (arrIdx k.val m.val)).replays = [])
    (lim : (s.arr (arrIdx k.val m.val)).limitRefresh = false ∨ (s.crew k.val).resv ≠ none)
    (hj : s.nextJob (arrIdx k.val m.val) = some j) (ht : j.todo = q :: q2 :: rest) (hr : s.combRoom j = true)
    (h0 : ∀ x ∈ q.codes j.eight (s.jobCodes (arrIdx k.val m.val) j), x = 0)
    (hx : ∃ x ∈ q2.codes j.eight (s.jobCodes (arrIdx k.val m.val) j), x ≠ 0) (hz : z = j.skipped q (q2 :: rest)) :
    exec (.stroke k m) s = .next (((s.combReserve j).setJob (arrIdx k.val m.val) z).strokeNow (arrIdx k.val m.val) z q2
      (q2.codes j.eight (s.jobCodes (arrIdx k.val m.val) j))) := by
  have cont : z.Continues j := hz ▸ j.continues_skipped q _
  have todo : z.todo = q2 :: rest := hz ▸ (congrArg Job.todo (j.skipped_frame q _) :)
  have strokes := (Strokes.combReserve s (arrIdx k.val m.val) j).trans (Strokes.setJob _ _ z)
  have codes : ((s.combReserve j).setJob (arrIdx k.val m.val) z).jobCodes (arrIdx k.val m.val) z
      = s.jobCodes (arrIdx k.val m.val) j := (strokes.jobCodes _ z).trans (cont.jobCodes s _)
  have fuel := Arr.todo_le_todoCount (State.mem_of_nextJob hj)
  refine exec_stroke_open still free idle lim ?_ strokes.ctxs
  obtain ⟨n, hn⟩ : ∃ n, (s.arr (arrIdx k.val m.val)).todoCount = n + 1 := ⟨_, (Nat.sub_add_cancel (by simp [ht] at fuel; omega)).symm⟩
  rw [hn, State.skipZero_skip _ hj ht hr h0, ← hz, State.putJob_open _ _ (by simp [Job.complete, todo]),
    State.skipZero_stroke n (State.nextJob_skipped hj cont (by simp [todo])) todo (s.combRoom_skipped _ cont)
      (by rw [codes, cont.eight]; exact hx), codes, cont.eight]

/-- The job that has begun after a skip. -/
theorem State.map_begun_continues (s : State) (a : Nat) {j z : Job} {q : Req} {rest : List Req} (hz : z.Continues j)
    (ht : z.todo = q :: rest) (l : List Job) : l.map (s.begun a z).replaces
      = l.map (fun x => if x.is j.ref j.vec j.split then
          { z with
            todo := rest, started := true
            patches := if j.started then j.patches else s.patchList a
            patches2 := if j.started then j.patches2 else s.patchList (s.replayArr a) }
        else x) := by
  refine List.map_congr_left fun x _ => ?_
  unfold Job.replaces State.begun
  rw [ht, hz.ref, hz.vec, hz.split, hz.started, hz.patches, hz.patches2]
  rfl

/-- What the stroke after a skip leaves: with its tokens the second row group is in flight. -/
theorem State.strokeNow_skipped {s : State} {a : Nat} {j z : Job} (hz : z.Continues j)
    (h : (s.strokeTokens a j.stern).2 = true) (q : Req) (xs : List Nat) :
    ∃ t, ((s.combReserve j).setJob a z).strokeNow a z q xs = t ∧ Strokes s t a ∧ t.gov = (s.strokeTokens a j.stern).1
      ∧ (t.arr a).shots = (s.arr a).shots
          ++ [⟨a, j.ref, j.vec, j.split, q, (s.arr a).ground, false, xs, s.kEff a, s.cfg.kc, [], none⟩]
      ∧ (t.arr a).jobs = (s.arr a).jobs.map (s.begun a z).replaces := by
  have before := (Strokes.combReserve s a j).trans (Strokes.setJob _ a z)
  have tokens : ((s.combReserve j).setJob a z).strokeTokens a z.stern = s.strokeTokens a j.stern := by
    rw [hz.stern]
    exact before.strokeTokens (s.gov_combReserve j) a j.stern
  have arr : ((s.combReserve j).setJob a z).arr a = { s.arr a with jobs := (s.arr a).jobs.map z.replaces } := by
    rw [State.arr_setJob_same, State.arr_combReserve]
  have begun : ((s.combReserve j).setJob a z).begun a z = s.begun a z := by
    simp only [State.begun, before.patchList, before.replayArr]
  obtain ⟨strokes, gov, shots, jobs⟩ := State.strokeNow_granted (by rw [tokens, h]) q xs
  refine ⟨_, rfl, before.trans strokes, gov.trans (by rw [tokens]), ?_, ?_⟩
  · rw [shots, arr, before.kEff, before.cfg, hz.ref, hz.vec, hz.split]
  · rw [jobs, arr, begun]
    exact Job.map_replaces_replaces (j := s.begun a z) z.is_self _

end Sys2Proof.Machine
end

/-! ## Replays (R36, R37, R229, R232) -/
section
namespace Sys2Proof.Machine

/-- The first waiting replay leaves its array's queue. -/
def Arr.popReplay (x : Arr) : Arr := { x with replays := x.replays.drop 1 }

/-- The first waiting replay of an array has left the queue and drawn its tokens. -/
def State.replayTaken (s : State) (a : Nat) : State :=
  { s.modArr a Arr.popReplay with
    gov := if (s.crew (a / 17)).resv.isSome then s.gov.drawBow 21 else s.gov.drawReplay 21 }

theorem State.arr_replayTaken (s : State) (a : Nat) :
    (s.replayTaken a).arr a = { s.arr a with replays := (s.arr a).replays.drop 1 } :=
  s.arr_modArr_same a Arr.popReplay

theorem State.arr_replayTaken_other (s : State) {a b : Nat} (h : b ≠ a) : (s.replayTaken a).arr b = s.arr b :=
  s.arr_modArr_other b a Arr.popReplay h

/-- A replay with a nibble that is not 0 strokes. -/
theorem State.startReplay_eq {s : State} {a : Nat} {p : Replay} {j : Job} (hj : s.job? p.home p.ref p.vec p.split = some j)
    (hx : ∃ x ∈ p.req.codes j.eight (s.jobCodes p.home j), x ≠ 0) :
    s.startReplay a p = (s.replayTaken a).startShot a p.home p.ref p.vec p.split p.req false
      (p.req.codes j.eight (s.jobCodes p.home j)) p.chk := by
  have jobs (b : Nat) : ((s.modArr a Arr.popReplay).arr b).jobs = (s.arr b).jobs := by
    by_cases hb : b = a
    · rw [hb, State.arr_modArr_same]
      rfl
    · rw [State.arr_modArr_other _ _ _ _ hb]
  have hj : (s.modArr a Arr.popReplay).job? p.home p.ref p.vec p.split = some j := by
    rw [State.job?, jobs]
    exact hj
  have hx : (p.req.codes j.eight (s.jobCodes p.home j)).all (· == 0) = false := by simpa using hx
  unfold State.startReplay
  dsimp only
  change (match (s.modArr a Arr.popReplay).job? p.home p.ref p.vec p.split with | none => _ | some j => _) = _
  rw [hj]
  exact if_neg (by rw [Bool.not_eq_true]; exact hx)

theorem State.startReplay_starts {s : State} {a : Nat} {p : Replay} {ps : List Replay} {j : Job} (hp : (s.arr a).replays = p :: ps)
    (hj : s.job? p.home p.ref p.vec p.split = some j) (hx : ∃ x ∈ p.req.codes j.eight (s.jobCodes p.home j), x ≠ 0) :
    Aside (s.replayTaken a) (s.startReplay a p) ∧ ((s.startReplay a p).arr a).replays = ps
      ∧ ((s.startReplay a p).arr a).shots = (s.arr a).shots ++ [⟨p.home, p.ref, p.vec, p.split, p.req, (s.arr a).ground, false,
          p.req.codes j.eight (s.jobCodes p.home j), s.kEff a, s.cfg.kc, p.chk, none⟩]
      ∧ ∀ b, b ≠ a → (s.startReplay a p).arr b = s.arr b := by
  have starts := (s.replayTaken a).startShot_starts a p.home p.ref p.vec p.split p.req false
    (p.req.codes j.eight (s.jobCodes p.home j)) p.chk
  rw [← State.startReplay_eq hj hx] at starts
  have taken := s.arr_replayTaken a
  have eff : (s.replayTaken a).kEff a = s.kEff a :=
    State.kEff_congr rfl rfl rfl (congrArg Arr.kappa taken :) (congrArg Arr.tWin taken :)
  refine ⟨starts.aside, ?_, ?_, fun b hb => (starts.others b hb).trans (s.arr_replayTaken_other hb)⟩
  · rw [(congrArg Arr.replays starts.own :), taken, hp]
    rfl
  · rw [(congrArg Arr.shots starts.own :), taken, eff]
    rfl

theorem exec_replay_nil {s : State} {k : Fin 256} {m : Fin 17} (h : (s.arr (arrIdx k.val m.val)).replays = []) :
    exec (.foldReplay k m) s = .next s ∧ exec (.checkReplay k m) s = .next s := by
  constructor
  · show execFoldReplay k m s = _
    simp only [execFoldReplay, h]
  · show execCheckReplay k m s = _
    simp only [execCheckReplay, h]

theorem exec_foldReplay {s : State} {k : Fin 256} {m : Fin 17} {p : Replay} {ps : List Replay}
    (h : (s.arr (arrIdx k.val m.val)).replays = p :: ps) : exec (.foldReplay k m) s
      = .next (if s.slotFree (arrIdx k.val m.val) && !p.req.isCheck && s.replayReady (arrIdx k.val m.val) p then
          (s.startReplay (arrIdx k.val m.val) p).settle else s) := by
  show execFoldReplay k m s = _
  simp only [execFoldReplay, h]

/-- CRW_CHECK counts a check replay (R232). -/
def Crew.countReplay (x : Crew) : Crew := { x with chkReplays := BitVec.ofNat 16 (satAdd 16 x.chkReplays.toNat 1) }

theorem exec_checkReplay {s : State} {k : Fin 256} {m : Fin 17} {p : Replay} {ps : List Replay}
    (h : (s.arr (arrIdx k.val m.val)).replays = p :: ps) : exec (.checkReplay k m) s
      = .next (if s.slotFree (arrIdx k.val m.val) && p.req.isCheck && s.replayReady (arrIdx k.val m.val) p then
          (s.modCrew k.val Crew.countReplay).startReplay (arrIdx k.val m.val) p else s) := by
  show execCheckReplay k m s = _
  simp only [execCheckReplay, h]
  rfl

/-- A replay that may not start, or of the other kind, changes nothing. -/
theorem exec_replay_shut {s : State} {k : Fin 256} {m : Fin 17} {p : Replay} {ps : List Replay}
    (h : (s.arr (arrIdx k.val m.val)).replays = p :: ps)
    (shut : s.slotFree (arrIdx k.val m.val) = false ∨ s.replayReady (arrIdx k.val m.val) p = false) :
    exec (.foldReplay k m) s = .next s ∧ exec (.checkReplay k m) s = .next s := by
  rw [exec_foldReplay h, exec_checkReplay h]
  obtain shut | shut := shut <;> simp [shut]

/-- The state in which a replay starts: a check replay has been counted in its crew. -/
def State.replayCounted (s : State) (k : Nat) (p : Replay) : State :=
  if p.req.isCheck then s.modCrew k Crew.countReplay else s

theorem State.replayCounted_frame (s : State) (k : Nat) (p : Replay) :
    s.replayCounted k p = { s with crews := (s.replayCounted k p).crews } := by
  unfold State.replayCounted
  split <;> rfl

theorem State.crew_replayCounted (s : State) (k : Nat) (p : Replay) (n : Nat) :
    (s.replayCounted k p).crew n = { s.crew n with chkReplays := ((s.replayCounted k p).crew n).chkReplays } := by
  unfold State.replayCounted
  split
  · by_cases hn : n = k
    · rw [hn, State.crew_modCrew_same]
      rfl
    · rw [State.crew_modCrew_other _ _ _ _ hn]
  · rfl

theorem State.chkReplays_replayCounted (s : State) (k : Nat) (p : Replay) : ((s.replayCounted k p).crew k).chkReplays
    = if p.req.isCheck then BitVec.ofNat 16 (satAdd 16 (s.crew k).chkReplays.toNat 1) else (s.crew k).chkReplays := by
  unfold State.replayCounted
  split
  · rw [State.crew_modCrew_same]
    rfl
  · rfl

/-- A replay that may start does so, whichever of the two rows is its own. -/
theorem exec_replay_starts {s : State} {k : Fin 256} {m : Fin 17} {p : Replay} {ps : List Replay} {j : Job}
    (still : ∀ c, c < 16 → (s.ctx c).swingCmd = none) (hp : (s.arr (arrIdx k.val m.val)).replays = p :: ps)
    (free : s.slotFree (arrIdx k.val m.val) = true) (ready : s.replayReady (arrIdx k.val m.val) p = true)
    (hj : s.job? p.home p.ref p.vec p.split = some j) (hx : ∃ x ∈ p.req.codes j.eight (s.jobCodes p.home j), x ≠ 0) :
    exec (if p.req.isCheck then .checkReplay k m else .foldReplay k m) s
      = .next ((s.replayCounted k.val p).startReplay (arrIdx k.val m.val) p) := by
  unfold State.replayCounted
  cases hc : p.req.isCheck with
  | true => simp [exec_checkReplay hp, free, ready, hc]
  | false =>
    have aside := (State.startReplay_starts hp hj hx).1
    simp [exec_foldReplay hp, free, ready, hc, State.settle_still_of_ctxs still aside.ctxs]

/-- What a replay leaves that starts: the stroke in flight, its tokens drawn, its crew's count. -/
theorem State.startReplay_counted {s : State} {a k : Nat} {p : Replay} {ps : List Replay} {j : Job}
    (hp : (s.arr a).replays = p :: ps) (hj : s.job? p.home p.ref p.vec p.split = some j)
    (hx : ∃ x ∈ p.req.codes j.eight (s.jobCodes p.home j), x ≠ 0) :
    ∃ t, (s.replayCounted k p).startReplay a p = t ∧ (t.arr a).replays = ps
      ∧ (t.arr a).shots = (s.arr a).shots ++ [⟨p.home, p.ref, p.vec, p.split, p.req, (s.arr a).ground, false,
          p.req.codes j.eight (s.jobCodes p.home j), s.kEff a, s.cfg.kc, p.chk, none⟩]
      ∧ t.gov = (if (s.crew (a / 17)).resv.isSome then s.gov.drawBow 21 else s.gov.drawReplay 21)
      ∧ (t.crew k).chkReplays = (if p.req.isCheck then BitVec.ofNat 16 (satAdd 16 (s.crew k).chkReplays.toNat 1)
          else (s.crew k).chkReplays)
      ∧ (∀ b, b ≠ a → t.arr b = s.arr b) ∧ t.cmds = s.cmds ∧ t.ctxs = s.ctxs ∧ t.host = s.host := by
  have frame := s.replayCounted_frame k p
  have arr (b : Nat) : (s.replayCounted k p).arr b = s.arr b := by rw [frame]; rfl
  have codes : (s.replayCounted k p).jobCodes p.home j = s.jobCodes p.home j := by
    simp only [State.jobCodes, (congrArg Crew.tiles (s.crew_replayCounted k p (p.home / 17)) :)]
  have resv : ((s.replayCounted k p).crew (a / 17)).resv = (s.crew (a / 17)).resv :=
    (congrArg Crew.resv (s.crew_replayCounted k p (a / 17)) :)
  have gov : (s.replayCounted k p).gov = s.gov := (congrArg State.gov frame :)
  have eff : (s.replayCounted k p).kEff a = s.kEff a := by rw [frame]; rfl
  obtain ⟨aside, replays, shots, others⟩ := State.startReplay_starts (s := s.replayCounted k p) (by rw [arr, hp])
    (by rw [State.job?, arr]; exact hj) (by rw [codes]; exact hx)
  refine ⟨_, rfl, replays, ?_, aside.gov.trans ?_, ?_, fun b hb => (others b hb).trans (arr b),
    aside.cmds.trans (congrArg State.cmds frame :), aside.ctxs.trans (congrArg State.ctxs frame :),
    aside.host.trans (congrArg State.host frame :)⟩
  · rw [shots, arr, codes, eff, (congrArg State.cfg frame :)]
  · rw [State.replayTaken, resv, gov]
  · rw [aside.crew]
    exact s.chkReplays_replayCounted k p

end Sys2Proof.Machine
end

/-! ## Keep-warm strokes (R91) -/
section
namespace Sys2Proof.Machine

theorem Arr.nextWarm_going {x : Arr} {e : Req × List Nat} {rest : List (Req × List Nat)} (h : x.warm = e :: rest) :
    x.nextWarm = (e :: rest, x.lfsr) := by simp [Arr.nextWarm, h]

theorem Arr.nextWarm_new {x : Arr} (h : x.warm = []) :
    x.nextWarm = (warmGroups (foldOf x.fold.toNat) (lfsrRows 512 x.lfsr).1, (lfsrRows 512 x.lfsr).2) := by
  simp [Arr.nextWarm, h]

/-- The next row group of a keep-warm stroke: that of the one in progress, or the first of a new one. -/
theorem Arr.nextWarm_cons {x : Arr} {e : Req × List Nat} {rest : List (Req × List Nat)} {v : BitVec 16}
    (h : (x.warm = e :: rest ∧ v = x.lfsr) ∨ (x.warm = []
      ∧ warmGroups (foldOf x.fold.toNat) (lfsrRows 512 x.lfsr).1 = e :: rest ∧ v = (lfsrRows 512 x.lfsr).2)) :
    x.nextWarm = (e :: rest, v) := by
  obtain ⟨going, hv⟩ | ⟨idle, new, hv⟩ := h
  · rw [Arr.nextWarm_going going, hv]
  · rw [Arr.nextWarm_new idle, new, hv]

theorem exec_keepWarm_shut {s : State} {k : Fin 256} {m : Fin 17}
    (h : s.slotOpen (arrIdx k.val m.val) = false ∨ s.slotFree (arrIdx k.val m.val) = false
      ∨ s.warmable (arrIdx k.val m.val) = false) : exec (.keepWarmStroke k m) s = .next s := by
  show execKeepWarmStroke k m s = _
  unfold execKeepWarmStroke
  obtain h | h | h := h <;> simp [h]

theorem exec_keepWarm_open {s : State} {k : Fin 256} {m : Fin 17} (ho : s.slotOpen (arrIdx k.val m.val) = true)
    (hf : s.slotFree (arrIdx k.val m.val) = true) (hw : s.warmable (arrIdx k.val m.val) = true) :
    exec (.keepWarmStroke k m) s = .next (s.keepWarm (arrIdx k.val m.val) (s.arr (arrIdx k.val m.val)).nextWarm) := by
  show execKeepWarmStroke k m s = _
  simp [execKeepWarmStroke, ho, hf, hw]

theorem State.keepWarm_nil (s : State) (a : Nat) (v : BitVec 16) :
    s.keepWarm a ([], v) = s.modArr a (fun x => { x with lfsr := v }) := rfl

theorem State.keepWarm_short {s : State} {a : Nat} (h : (s.strokeTokens a true).2 = false) (e : Req × List Nat)
    (rest : List (Req × List Nat)) (v : BitVec 16) :
    s.keepWarm a (e :: rest, v) = { s with gov := (s.strokeTokens a true).1 } := by
  simp only [State.keepWarm, h, Bool.false_eq_true, if_false]

/-- The generator and the row groups of a keep-warm stroke that are still to come. -/
def Arr.setWarm (v : BitVec 16) (rest : List (Req × List Nat)) (x : Arr) : Arr := { x with lfsr := v, warm := rest }

/-- With its tokens the next row group of a keep-warm stroke is in flight. -/
theorem State.keepWarm_granted {s : State} {a : Nat} (h : (s.strokeTokens a true).2 = true) (e : Req × List Nat)
    (rest : List (Req × List Nat)) (v : BitVec 16) : ∃ t, s.keepWarm a (e :: rest, v) = t
      ∧ Aside { s with gov := (s.strokeTokens a true).1 } t ∧ (∀ b, b ≠ a → t.arr b = s.arr b)
      ∧ (t.arr a).lfsr = v ∧ (t.arr a).warm = rest ∧ (t.arr a).jobs = (s.arr a).jobs
      ∧ (t.arr a).shots = (s.arr a).shots
          ++ [⟨a, noRef, 0, 0, e.1, (s.arr a).ground, true, e.2, s.kEff a, s.cfg.kc, [], none⟩] := by
  let u := { s with gov := (s.strokeTokens a true).1 }.modArr a (Arr.setWarm v rest)
  have own : u.arr a = (s.arr a).setWarm v rest := State.arr_modArr_same _ _ _
  have starts := u.startShot_starts a a noRef 0 0 e.1 true e.2 []
  have eff : u.kEff a = s.kEff a := State.kEff_congr rfl rfl rfl (congrArg Arr.kappa own :) (congrArg Arr.tWin own :)
  have begun : s.keepWarm a (e :: rest, v) = u.startShot a a noRef 0 0 e.1 true e.2 [] := by
    simp only [State.keepWarm, h, if_true]
    rfl
  refine ⟨_, begun, (Aside.modArr _ a _).trans starts.aside, fun b hb =>
    (starts.others b hb).trans (State.arr_modArr_other _ _ _ _ hb), ?_, ?_, ?_, ?_⟩
  · rw [(congrArg Arr.lfsr starts.own :), own]
    rfl
  · rw [(congrArg Arr.warm starts.own :), own]
    rfl
  · rw [(congrArg Arr.jobs starts.own :), own]
    rfl
  · rw [(congrArg Arr.shots starts.own :), own, eff]
    rfl

theorem State.slotFree_shots {s : State} {a : Nat} (h : s.slotFree a = true) : (s.arr a).shots.length < 2 := by
  simp only [State.slotFree, Bool.and_eq_true, decide_eq_true_eq] at h
  exact h.2

/-- Settles O49: a slot takes what is first in it, with its tokens; a signature of a clamped kappa_eff reaches nothing else. -/
theorem strokesTakeTheirSlot : Obligations.StrokesTakeTheirSlot := by
  unfold Obligations.StrokesTakeTheirSlot
  refine ⟨fun s k m still => ?_, fun s k m still => ?_, fun s k m => ?_, fun s a => State.slotFree_shots⟩
  · intro a
    refine ⟨exec_stroke_shut, fun j q rest free idle lim hj ht hr hx => ?_,
      fun j q q2 rest free idle lim hj ht hr h0 hx tok => ?_⟩
    · have step := stroke_first still free idle lim hj ht hr hx
      refine ⟨fun short => by rw [step, State.strokeNow_short short], fun tok => ?_⟩
      obtain ⟨strokes, gov, shots, jobs⟩ := State.strokeNow_granted tok q (q.codes j.eight (s.jobCodes a j))
      refine ⟨_, step, gov, shots, ?_, strokes.others, strokes.crews, strokes.cmds, strokes.ctxs, strokes.host, strokes.queues⟩
      rw [jobs, State.begun, ht]
      rfl
    · have cont := j.continues_skipped q (q2 :: rest)
      obtain ⟨t, stroke, strokes, gov, shots, jobs⟩ := State.strokeNow_skipped cont tok q2 (q2.codes j.eight (s.jobCodes a j))
      have step := stroke_second still free idle lim hj ht hr h0 hx rfl
      obtain ⟨left, sums⟩ := j.acc_skipped q (q2 :: rest)
      have todo : (j.skipped q (q2 :: rest)).todo = q2 :: rest := (congrArg Job.todo (j.skipped_frame q _) :)
      exact ⟨t, step.trans (congrArg _ stroke), gov, left, sums, shots, jobs.trans (s.map_begun_continues a cont todo _),
        strokes.others, strokes.parts, strokes.cmds, strokes.ctxs, strokes.host⟩
  · intro a
    refine ⟨fun shut => ?_, fun p ps hp free ready => ⟨fun check => ?_, fun fold => ?_, fun j hj hx => ?_⟩⟩
    · obtain nil | taken | ⟨p, ps, hp, notReady⟩ := shut
      · exact exec_replay_nil nil
      · cases hp : (s.arr a).replays with
        | nil => exact exec_replay_nil hp
        | cons p ps => exact exec_replay_shut hp (.inl taken)
      · exact exec_replay_shut hp (.inr notReady)
    · simp [exec_foldReplay hp, check]
    · simp [exec_checkReplay hp, fold]
    · obtain ⟨t, replay, spec⟩ := State.startReplay_counted (k := k.val) hp hj hx
      exact ⟨t, (exec_replay_starts still hp free ready hj hx).trans (congrArg _ replay), spec⟩
  · intro a r groups g
    refine ⟨exec_keepWarm_shut, fun ho hf hw => ⟨fun idle none => ?_, fun e rest v next => ?_⟩⟩
    · rw [exec_keepWarm_open ho hf hw, Arr.nextWarm_new idle, show warmGroups _ _ = [] from none, State.keepWarm_nil]
    · have now : (s.arr a).nextWarm = (e :: rest, v) := Arr.nextWarm_cons next
      have step := exec_keepWarm_open ho hf hw
      rw [now] at step
      refine ⟨fun short => step.trans (congrArg _ (State.keepWarm_short short e rest v)), fun tok => ?_⟩
      obtain ⟨t, warm, aside, others, lfsr, left, jobs, shots⟩ := State.keepWarm_granted tok e rest v
      exact ⟨t, step.trans (congrArg _ warm), aside.gov, lfsr, left, shots, jobs, others, aside.crews, aside.cmds, aside.ctxs,
        aside.host⟩

end Sys2Proof.Machine
end

/-! ## Tracking at the end of a scan (R86, R88, R111) -/
section
namespace Sys2Proof.Machine

/-- From `x` to `y` lantern codes and tracking reads have been taken: no window has ended. -/
structure Arr.Reads (x y : Arr) : Prop where
  rest : y = { x with win := y.win, lmseSum := y.lmseSum, lmseCount := y.lmseCount, cols := y.cols, fits := y.fits }
  strokes : y.win.strokes = x.win.strokes

theorem Arr.Reads.trans {x y z : Arr} (h : Arr.Reads x y) (k : Arr.Reads y z) : Arr.Reads x z := by
  refine ⟨k.rest.trans ?_, k.strokes.trans h.strokes⟩
  rw [h.rest]

theorem Arr.Reads.foldl {α : Type} {f : Arr → α → Arr} (hf : ∀ x e, Arr.Reads x (f x e)) :
    ∀ (l : List α) (x : Arr), Arr.Reads x (l.foldl f x)
  | [], _ => ⟨rfl, rfl⟩
  | e :: l, x => (hf x e).trans (Arr.Reads.foldl hf l (f x e))

theorem Arr.reads_lanternCode (plane : Bool) (sumx : Nat) (kap : Rat) (x : Arr) (e : Nat × Nat) :
    Arr.Reads x (x.lanternCode plane sumx kap e) := by
  simp only [Arr.lanternCode]
  generalize f16Q _ / 2 * _ * 2 / 125 = ex
  split
  · exact ⟨rfl, rfl⟩
  · exact ⟨rfl, rfl⟩

theorem Arr.reads_trackRead (x : Arr) (e : Nat × Nat × Nat) : Arr.Reads x (x.trackRead e) := by
  simp only [Arr.trackRead]
  split
  · exact ⟨rfl, rfl⟩
  · exact ⟨rfl, rfl⟩

theorem Arr.atSlot_frame (sh : Shot) (x : Arr) :
    x.atSlot sh = { x with fTrim := (x.atSlot sh).fTrim, tTrim := (x.atSlot sh).tTrim } := by
  unfold Arr.atSlot
  split <;> rfl

/-- The scan of a stroke has been taken by tracking: one stroke more in the window, which the 256th closes. -/
structure Arr.Tracked (x y : Arr) : Prop where
  rest : y = { x with
    win := y.win, wins := y.wins, lmseSum := y.lmseSum, lmseCount := y.lmseCount, cols := y.cols, fits := y.fits
    ptr := (x.ptr + 56) % 512 }
  strokes : y.win.strokes = if x.win.strokes + 1 < 256 then x.win.strokes + 1 else 0
  wins : y.wins.length = x.wins.length + if x.win.strokes + 1 < 256 then 0 else 1

theorem Arr.tracked_track (t : Int) (sh : Shot) (raw lan trk : List Nat) (x : Arr) :
    Arr.Tracked x (Arr.track t sh raw lan trk x) := by
  have lantern := Arr.Reads.foldl (Arr.reads_lanternCode sh.plane (sumNat sh.codes) sh.kap) lan.zipIdx (x.atSlot sh)
  have reads := lantern.trans (Arr.Reads.foldl Arr.reads_trackRead
    (trk.zipIdx.map (fun (r, i) => ((x.ptr + i) % 512, raw.getD ((x.ptr + i) % 512) 0, r))) _)
  unfold Arr.track
  dsimp only
  generalize List.foldl Arr.trackRead _ _ = y at reads ⊢
  have rest := reads.rest
  rw [x.atSlot_frame sh] at rest
  have strokes : y.win.strokes = x.win.strokes := by rw [reads.strokes, x.atSlot_frame sh]
  rw [rest]
  simp only [Arr.windowStroke, strokes]
  split
  · next h => exact ⟨rfl, (if_pos h).symm, by rw [if_pos h]; rfl⟩
  · next h => exact ⟨rfl, (if_neg h).symm, by rw [if_neg h]; exact List.length_append⟩

end Sys2Proof.Machine
end

/-! ## Saturation at the end of a scan (R107 to R109, R204) -/
section
namespace Sys2Proof.Machine

theorem Aside.raiseCtx (s : State) (c k : Nat) : Aside s (s.raiseCtx c k) := by
  unfold State.raiseCtx
  split
  · obtain e | ⟨x, e⟩ | e := s.raiseVf_cases (c + 1) k <;> rw [e] <;> exact ⟨rfl⟩
  · obtain e | ⟨x, e⟩ | e := s.raisePf_cases (2 + 16 * k + c) <;> rw [e] <;> exact ⟨rfl⟩

theorem Aside.satcalEvent (s : State) (c : Nat) : Aside s (s.satcalEvent c) := by
  unfold State.satcalEvent
  split
  · dsimp only
    split
    · exact Aside.refl s
    · exact (Aside.modQueue s _ _).trans (Aside.raiseCtx _ _ _)
  · exact Aside.refl s

/-- What raising a context's event leaves of arrays and signatures: all of them. -/
theorem State.satcalEvent_frame (s : State) (c : Nat) :
    (s.satcalEvent c).sig = s.sig ∧ ∀ b, (s.satcalEvent c).arr b = s.arr b := by
  have raise (u : State) (c k : Nat) : (u.raiseCtx c k).sig = u.sig ∧ (u.raiseCtx c k).arrs = u.arrs := by
    unfold State.raiseCtx
    split
    · obtain e | ⟨x, e⟩ | e := u.raiseVf_cases (c + 1) k <;> rw [e] <;> exact ⟨rfl, rfl⟩
    · obtain e | ⟨x, e⟩ | e := u.raisePf_cases (2 + 16 * k + c) <;> rw [e] <;> exact ⟨rfl, rfl⟩
  unfold State.satcalEvent
  split
  · dsimp only
    split
    · exact ⟨rfl, fun _ => rfl⟩
    · obtain ⟨sig, arrs⟩ := raise (s.modQueue (.ctx ⟨c, by assumption⟩) (fun x => { x with evt1 := true })) c 2
      exact ⟨sig, fun b => by rw [State.arr, arrs]; rfl⟩
  · exact ⟨rfl, fun _ => rfl⟩

/-- The saturation of a stroke has been counted on array `a`, and its event raised where it was due. -/
structure CountsSat (s t : State) (a n : Nat) : Prop where
  aside : Aside s t
  seq : s.sig.seq ≤ t.sig.seq
  others : ∀ b, b ≠ a → t.arr b = s.arr b
  own : t.arr a = { (s.arr a).countSat n with satCal := (t.arr a).satCal, satArmed := (t.arr a).satArmed }

theorem State.saturation_counts (s : State) (a n : Nat) : CountsSat s (s.saturation a n) a n := by
  have counted (f : Arr → Arr) (hf : ∀ x, f x = { x with satCal := (f x).satCal, satArmed := (f x).satArmed }) :
      CountsSat s ((s.modArr a (Arr.countSat n)).modArr a f) a n := by
    refine ⟨(Aside.modArr s a _).trans (Aside.modArr _ a f), Nat.le_refl _, fun b hb => ?_, ?_⟩
    · rw [State.arr_modArr_other _ _ _ _ hb, State.arr_modArr_other _ _ _ _ hb]
    · rw [State.arr_modArr_same, State.arr_modArr_same]
      exact hf _
  unfold State.saturation
  dsimp only
  split
  · exact counted _ fun _ => rfl
  · split
    · have marked := counted (fun x => { x with satCal := true, satArmed := false }) fun _ => rfl
      obtain ⟨sig, arr⟩ := State.satcalEvent_frame (State.emit _ 0x12 _) _
      refine ⟨marked.aside.trans ((Aside.emit _ _ _).trans (Aside.satcalEvent _ _)), ?_, fun b hb => ?_, ?_⟩
      · rw [sig, State.sig_seq_emit]
        exact Nat.le_succ _
      · rw [arr, State.arr_emit, marked.others b hb]
      · rw [arr, State.arr_emit]
        exact marked.own
    · exact ⟨Aside.modArr s a _, Nat.le_refl _, fun b hb => State.arr_modArr_other _ _ _ _ hb, by rw [State.arr_modArr_same]⟩

end Sys2Proof.Machine
end

/-! ## The scan of the oldest stroke (R21, R29) -/
section
namespace Sys2Proof.Machine

/-- The raw data codes of a scan. -/
def State.rawCodes (s : State) (a : Nat) (sh : Shot) (dev : List Int) : List Nat :=
  (List.range 512).map (fun c => rawCode (s.idealCode a sh.plane sh.codes c) (dev.getD c 0))

/-- The saturated ones among them. -/
def saturated (raw : List Nat) : Nat := (raw.filter (· == 1023)).length

theorem saturated_eq_zero {raw : List Nat} (h : ∀ v ∈ raw, v ≠ 1023) : saturated raw = 0 := by
  simpa [saturated] using h

theorem saturated_ne_zero {raw : List Nat} (h : 1023 ∈ raw) : saturated raw ≠ 0 := by
  simpa [saturated] using h

theorem exec_strokeScanEnd_nil {s : State} {k : Fin 256} {m : Fin 17} {dev : List Int} (hd : dev.length = 576)
    (h : (s.arr (arrIdx k.val m.val)).shots = []) (dup : Option Nat) : exec (.strokeScanEnd k m dev dup) s = .next s := by
  show execStrokeScanEnd k m dev dup s = _
  simp only [execStrokeScanEnd, hd, h, ne_eq, not_true_eq_false, if_false]

theorem exec_strokeScanEnd_cons {s : State} {k : Fin 256} {m : Fin 17} {dev : List Int} (hd : dev.length = 576) {sh : Shot}
    {rest : List Shot} (h : (s.arr (arrIdx k.val m.val)).shots = sh :: rest) (dup : Option Nat) :
    exec (.strokeScanEnd k m dev dup) s = .next (s.scanEnd (arrIdx k.val m.val) sh dev dup).settle := by
  show execStrokeScanEnd k m dev dup s = _
  simp only [execStrokeScanEnd, hd, h, ne_eq, not_true_eq_false, if_false]

/-- The oldest stroke leaves its array. -/
def Arr.popShot (x : Arr) : Arr := { x with shots := x.shots.drop 1 }

theorem State.scanEnd_warm (s : State) (a : Nat) {sh : Shot} (dev : List Int) (dup : Option Nat) (h : sh.warm = true) :
    ∃ f : Arr → Arr, (∀ x, Arr.Tracked x.popShot (f x)) ∧ s.scanEnd a sh dev dup = s.modArr a f := by
  unfold State.scanEnd
  dsimp only
  rw [if_pos h]
  exact ⟨_, fun x => Arr.tracked_track _ _ _ _ _ x.popShot, rfl⟩

/-- The scan of a command's stroke has been taken: the stroke has left its array, tracking has its reads, and its saturation is
counted. -/
structure Scans (s u : State) (a n : Nat) : Prop where
  aside : Aside s u
  seq : s.sig.seq ≤ u.sig.seq
  others : ∀ b, b ≠ a → u.arr b = s.arr b
  own : u.arr a = { s.arr a with
    shots := (s.arr a).shots.drop 1, ptr := (u.arr a).ptr, win := (u.arr a).win, wins := (u.arr a).wins
    lmseSum := (u.arr a).lmseSum, lmseCount := (u.arr a).lmseCount, cols := (u.arr a).cols, fits := (u.arr a).fits
    satStrokes := if n = 0 then (s.arr a).satStrokes else word (satAdd 32 (s.arr a).satStrokes.toNat 1)
    satCols := (u.arr a).satCols, satHist := (u.arr a).satHist, satCal := (u.arr a).satCal, satArmed := (u.arr a).satArmed }

theorem CountsSat.scans {s u : State} {a n : Nat} {f : Arr → Arr} (hf : ∀ x, Arr.Tracked x.popShot (f x))
    (h : CountsSat (s.modArr a f) u a n) : Scans s u a n := by
  refine ⟨(Aside.modArr s a f).trans h.aside, h.seq, fun b hb => (h.others b hb).trans (State.arr_modArr_other _ _ _ _ hb), ?_⟩
  have own := h.own
  rw [State.arr_modArr_same, (hf (s.arr a)).rest] at own
  rw [own]
  dsimp only [Arr.countSat, Arr.popShot]

/-- The end of the scan of a command's stroke: its outcome, or the mismatch of the duplicated arithmetic (R223). -/
theorem State.scanEnd_cold (s : State) (a : Nat) {sh : Shot} (dev : List Int) (h : sh.warm = false) :
    ∃ u, Scans s u a (saturated (s.rawCodes a sh dev)) ∧ s.scanEnd a sh dev none = u.strokeOutcome a sh (s.rawCodes a sh dev)
      ∧ ∀ col j, u.job? sh.home sh.ref sh.vec sh.split = some j → s.scanEnd a sh dev (some col)
        = u.assemblyError sh.ref (a / 17) ⟨BitVec.ofNat 16 (0x8000 + a / 17), BitVec.ofNat 64 col⟩ := by
  have cold : ¬ sh.warm = true := by simp [h]
  have counts (f : Arr → Arr) := (s.modArr a f).saturation_counts a (saturated (s.rawCodes a sh dev))
  unfold State.scanEnd
  dsimp only
  simp only [if_neg cold]
  refine ⟨_, ?_, rfl, fun col j hj => by rw [hj]⟩
  exact (counts _).scans fun x => Arr.tracked_track _ _ _ _ _ x.popShot

namespace Scans
variable {s u : State} {a n : Nat} (h : Scans s u a n)
include h

theorem jobs (b : Nat) : (u.arr b).jobs = (s.arr b).jobs := by
  by_cases hb : b = a
  · rw [hb]
    exact (congrArg Arr.jobs h.own :)
  · rw [h.others b hb]

theorem replays (b : Nat) : (u.arr b).replays = (s.arr b).replays := by
  by_cases hb : b = a
  · rw [hb]
    exact (congrArg Arr.replays h.own :)
  · rw [h.others b hb]

theorem ground (b : Nat) : (u.arr b).ground = (s.arr b).ground := by
  by_cases hb : b = a
  · rw [hb]
    exact (congrArg Arr.ground h.own :)
  · rw [h.others b hb]

theorem satStrokes (hn : n ≠ 0) : (u.arr a).satStrokes = word (satAdd 32 (s.arr a).satStrokes.toNat 1) := by
  have own : (u.arr a).satStrokes = if n = 0 then (s.arr a).satStrokes else word (satAdd 32 (s.arr a).satStrokes.toNat 1) :=
    (congrArg Arr.satStrokes h.own :)
  rw [own, if_neg hn]
theorem auto : (u.arr a).auto = (s.arr a).auto := (congrArg Arr.auto h.own :)
theorem ctx (c : Nat) : u.ctx c = s.ctx c := State.ctx_of_ctxs h.aside.ctxs c
theorem cmd? (r : CmdRef) : u.cmd? r = s.cmd? r := by simp only [State.cmd?, h.aside.cmds]
theorem job? (b : Nat) (r : CmdRef) (v sp : Nat) : u.job? b r v sp = s.job? b r v sp := by simp only [State.job?, h.jobs]
theorem logicalArr (b : Nat) : u.logicalArr b = s.logicalArr b := by simp only [State.logicalArr, h.aside.crew]
theorem physArr (k l : Nat) : u.physArr k l = s.physArr k l := by simp only [State.physArr, h.aside.crew]
theorem placeOf (b : Nat) (p : Bool) : u.placeOf b p = s.placeOf b p := by
  unfold State.placeOf
  rw [h.aside.crew, h.logicalArr]
  simp only [h.ctx]
theorem replayArr (b : Nat) : u.replayArr b = s.replayArr b := by
  simp only [State.replayArr, h.aside.crew, h.placeOf, h.ground, h.physArr]
theorem effSigma : u.effSigma a = s.effSigma a := by
  have sigma : (u.arr a).sigma = (s.arr a).sigma := (congrArg Arr.sigma h.own :)
  have conv : (u.arr a).conv = (s.arr a).conv := (congrArg Arr.conv h.own :)
  have subst : u.sigmaSubst a = s.sigmaSubst a := by simp only [State.sigmaSubst, h.aside.cfg, sigma, conv]
  simp only [State.effSigma, subst, sigma]
theorem correct (sh : Shot) (col raw : Nat) (kap : Rat) :
    ((u.arr a).atSlot sh).correct col raw kap = ((s.arr a).atSlot sh).correct col raw kap := by
  have fTrim : (u.arr a).fTrim = (s.arr a).fTrim := (congrArg Arr.fTrim h.own :)
  have tTrim : (u.arr a).tTrim = (s.arr a).tTrim := (congrArg Arr.tTrim h.own :)
  cases old : sh.old <;> simp only [Arr.correct, Arr.atSlot, old, fTrim, tTrim]

end Scans

end Sys2Proof.Machine
end

/-! ## The outcome of a command's stroke -/
section
namespace Sys2Proof.Machine

/-- The corrected codes of a scan, in 1/64 code (R78). -/
def State.shotCols (s : State) (a : Nat) (sh : Shot) (raw : List Nat) : List Int :=
  raw.zipIdx.map (fun e => ((s.arr a).atSlot sh).correct e.2 e.1 sh.kap)

/-- The patch terms of a stroke (R105). -/
def Job.shotTerms (j : Job) (a : Nat) (sh : Shot) (ly : Layer) : List (Nat × Rat) :=
  (j.shotPatches a sh).map (fun e => (peCol e, ((sh.codes.getD (peRow e) 0 : Nat) : Rat) * peDelta ly.cb4 e))

/-- The predicted sum of a stroke (R225). -/
def State.shotPredicted (s : State) (a : Nat) (sh : Shot) (y : Assign) (ly : Layer) : Rat :=
  predicted ly sh.codes ((List.range 512).map (fun i =>
    field (Memory.readBytes (s.crew (a / 17)).sram (0x400 * y.rowsPage + 2 * i) 2) 0 2))

/-- The check window of a stroke (R226). -/
def State.shotWindow (s : State) (a : Nat) (sh : Shot) (y : Assign) (ly : Layer) : F32 :=
  checkWindow ly sh.kc (s.effSigma a) (s.shotPredicted a sh y ly) (sumNat sh.codes)

/-- The measured sum of a stroke (R225). -/
def State.shotMeasured (s : State) (a : Nat) (sh : Shot) (raw : List Nat) (j : Job) (ly : Layer) : Rat :=
  measured ly (s.shotCols a sh raw) (sumQ ((j.shotTerms a sh ly).map (·.2)))

/-- The measured sum of a stroke is within its check window (R226). -/
abbrev State.Passes (s : State) (a : Nat) (sh : Shot) (raw : List Nat) (j : Job) (y : Assign) (ly : Layer) : Prop :=
  absQ (s.shotMeasured a sh raw j ly - s.shotPredicted a sh y ly) ≤ f32Q (s.shotWindow a sh y ly)

/-- M, P and W of a stroke as its check keeps them. -/
def State.shotChk (s : State) (a : Nat) (sh : Shot) (raw : List Nat) (j : Job) (y : Assign) (ly : Layer) : List F32 :=
  [f32Rat (s.shotMeasured a sh raw j ly), f32Rat (s.shotPredicted a sh y ly), s.shotWindow a sh y ly]

/-- The stroke of a command that runs, of a job that waits for it, on a plane that is placed. -/
structure Judged (s : State) (a : Nat) (sh : Shot) (x : Cmd) (j : Job) (y : Assign) (ly : Layer) : Prop where
  cmd : s.cmd? sh.ref = some x
  runs : x.ended = false
  job : s.job? sh.home sh.ref sh.vec sh.split = some j
  place : ∃ pl g, s.placeOf a sh.plane = some (pl, g, y, ly)
  fold : (j.acc sh.req.high).fold = sh.req.fold

/-- The vector of a twin has spent its one replay (R37, R230). -/
def State.twinSpent (s : State) (a : Nat) (sh : Shot) (x : Cmd) (j : Job) : Bool :=
  (s.crew (a / 17)).resv.isSome && x.spent sh.vec j.second

section
variable {s u : State} {a n : Nat} {sh : Shot} {x : Cmd} {j : Job} {y : Assign} {ly : Layer} {raw : List Nat}

theorem Scans.judged (h : Scans s u a n) (k : Judged s a sh x j y ly) : Judged u a sh x j y ly := by
  obtain ⟨pl, g, place⟩ := k.place
  exact ⟨(h.cmd? _).trans k.cmd, k.runs, (h.job? _ _ _ _).trans k.job, ⟨pl, g, (h.placeOf _ _).trans place⟩, k.fold⟩

theorem Scans.shotCols (h : Scans s u a n) : u.shotCols a sh raw = s.shotCols a sh raw := by
  simp only [State.shotCols, h.correct]

theorem Scans.shotWindow (h : Scans s u a n) : u.shotWindow a sh y ly = s.shotWindow a sh y ly := by
  simp only [State.shotWindow, State.shotPredicted, h.effSigma, h.aside.crew]

theorem Scans.shotPredicted (h : Scans s u a n) : u.shotPredicted a sh y ly = s.shotPredicted a sh y ly := by
  simp only [State.shotPredicted, h.aside.crew]

theorem Scans.shotMeasured (h : Scans s u a n) : u.shotMeasured a sh raw j ly = s.shotMeasured a sh raw j ly := by
  simp only [State.shotMeasured, h.shotCols]

theorem Scans.passes (h : Scans s u a n) : u.Passes a sh raw j y ly ↔ s.Passes a sh raw j y ly := by
  simp only [State.Passes, h.shotMeasured, h.shotPredicted, h.shotWindow]

theorem Scans.shotChk (h : Scans s u a n) : u.shotChk a sh raw j y ly = s.shotChk a sh raw j y ly := by
  simp only [State.shotChk, h.shotMeasured, h.shotPredicted, h.shotWindow]

theorem Scans.twinSpent (h : Scans s u a n) : u.twinSpent a sh x j = s.twinSpent a sh x j := by
  simp only [State.twinSpent, h.aside.crew]

/-- A saturated stroke is replayed at twice the fold, or accepted as it is (R36). -/
theorem State.strokeOutcome_saturated (k : Judged s a sh x j y ly) (sat : 1023 ∈ raw) : s.strokeOutcome a sh raw
    = if (s.arr a).auto && !sh.req.isFold && !sh.req.isCheck && decide (sh.req.fold < 4) && !s.twinSpent a sh x j then
        s.askFold sh j
      else s.acceptStroke a sh j (s.shotCols a sh raw) (j.shotTerms a sh ly) true := by
  obtain ⟨pl, g, place⟩ := k.place
  have any : raw.any (· == 1023) = true := List.any_eq_true.2 ⟨1023, sat, rfl⟩
  unfold State.strokeOutcome
  rw [k.cmd, k.job, place]
  simp only [k.runs, k.fold, any, bne_self_eq_false, Bool.or_self, Bool.false_eq_true, if_false, Bool.true_and, if_true]
  rfl

/-- A stroke without saturated codes is accepted within its check window; else it is replayed, or the check has failed (R225 to
R230). -/
theorem State.strokeOutcome_checked (k : Judged s a sh x j y ly) (sat : ∀ v ∈ raw, v ≠ 1023) : s.strokeOutcome a sh raw
    = if s.Passes a sh raw j y ly then
        s.acceptStroke a sh j (s.shotCols a sh raw) (j.shotTerms a sh ly) false
      else if sh.req.isCheck || ((s.crew (a / 17)).resv.isSome && (x.spent sh.vec j.second || sh.req.isFold)) then
        s.checkFailed a sh (s.shotChk a sh raw j y ly)
      else s.askCheck sh j (s.shotChk a sh raw j y ly) := by
  obtain ⟨pl, g, place⟩ := k.place
  have any : raw.any (· == 1023) = false := by simpa using sat
  unfold State.strokeOutcome
  rw [k.cmd, k.job, place]
  simp only [k.runs, k.fold, any, bne_self_eq_false, Bool.or_self, Bool.false_eq_true, if_false, Bool.false_and]
  rfl

end

end Sys2Proof.Machine
end


/-! ## A change of one command -/
section
namespace Sys2Proof.Machine

theorem State.arr_updCmd (s : State) (r : CmdRef) (f : Cmd → Cmd) (b : Nat) : (s.updCmd r f).arr b = s.arr b := rfl
theorem State.crew_updCmd (s : State) (r : CmdRef) (f : Cmd → Cmd) (n : Nat) : (s.updCmd r f).crew n = s.crew n := rfl
theorem State.ctx_updCmd (s : State) (r : CmdRef) (f : Cmd → Cmd) (c : Nat) : (s.updCmd r f).ctx c = s.ctx c := rfl
theorem State.ctxs_updCmd (s : State) (r : CmdRef) (f : Cmd → Cmd) : (s.updCmd r f).ctxs = s.ctxs := rfl
theorem State.host_updCmd (s : State) (r : CmdRef) (f : Cmd → Cmd) : (s.updCmd r f).host = s.host := rfl
theorem State.crews_updCmd (s : State) (r : CmdRef) (f : Cmd → Cmd) : (s.updCmd r f).crews = s.crews := rfl
theorem State.censusQ_updCmd (s : State) (r : CmdRef) (f : Cmd → Cmd) : (s.updCmd r f).censusQ = s.censusQ := rfl
theorem State.arr_updRun (s : State) (r : CmdRef) (f : RunWork → RunWork) (b : Nat) : (s.updRun r f).arr b = s.arr b := rfl
theorem State.ctxs_updRun (s : State) (r : CmdRef) (f : RunWork → RunWork) : (s.updRun r f).ctxs = s.ctxs := rfl
theorem State.host_updRun (s : State) (r : CmdRef) (f : RunWork → RunWork) : (s.updRun r f).host = s.host := rfl
theorem State.crews_updRun (s : State) (r : CmdRef) (f : RunWork → RunWork) : (s.updRun r f).crews = s.crews := rfl

/-- The commands after a change of one of them follow from the commands before. -/
theorem State.cmds_updCmd_congr {s t : State} (h : t.cmds = s.cmds) (r : CmdRef) (f : Cmd → Cmd) :
    (t.updCmd r f).cmds = (s.updCmd r f).cmds := by simp only [State.updCmd, h]

theorem State.cmds_updRun_congr {s t : State} (h : t.cmds = s.cmds) (r : CmdRef) (f : RunWork → RunWork) :
    (t.updRun r f).cmds = (s.updRun r f).cmds := State.cmds_updCmd_congr h r _

/-- A command that keeps its name is found again after its change. -/
theorem State.cmd?_updCmd {s : State} {r : CmdRef} {x : Cmd} {f : Cmd → Cmd} (h : s.cmd? r = some x)
    (hf : ∀ z, (f z).ref = z.ref) : (s.updCmd r f).cmd? r = some (f x) := by
  have key : ((fun c : Cmd => decide (c.ref = r)) ∘ fun c => if c.ref = r then f c else c) = fun c => decide (c.ref = r) := by
    funext c
    by_cases hc : c.ref = r <;> simp [hc, hf]
  have hx : x.ref = r := by simpa using List.find?_some h
  unfold State.cmd? at h
  show (s.cmds.map (fun c => if c.ref = r then f c else c)).find? (fun c => decide (c.ref = r)) = _
  rw [List.find?_map, key, h, Option.map_some, if_pos hx]

end Sys2Proof.Machine
end

/-! ## A fold replay and a check replay are asked for (R36, R229) -/
section
namespace Sys2Proof.Machine

/-- A nibble that strokes again at twice the fold: its requests and its codes are discarded. -/
def Job.refold (sh : Shot) (j : Job) : Job :=
  ({ j with todo := j.todo.filter (fun q => q.high != sh.req.high) } : Job).setAcc sh.req.high
    ⟨2 * sh.req.fold, 2 * sh.req.fold, [], []⟩

theorem Job.second_refold (sh : Shot) (j : Job) : (j.refold sh).second = j.second := by
  unfold Job.refold Job.setAcc
  split <;> rfl

/-- The fold replays of a stroke's nibble take the place of the replays that waited for it. -/
def Arr.foldReplays (sh : Shot) (x : Arr) : Arr :=
  { x with replays := x.replays.filter (fun p => !(p.home == sh.home && decide (p.ref = sh.ref) && p.vec == sh.vec
        && p.split == sh.split && p.req.high == sh.req.high))
      ++ (nibReqs sh.req.high (2 * sh.req.fold) true).map (fun q => ⟨sh.home, sh.ref, sh.vec, sh.split, q, []⟩) }

/-- A check replay of a stroke. -/
def Arr.checkReplay (sh : Shot) (chk : List F32) (x : Arr) : Arr :=
  { x with replays := x.replays ++ [⟨sh.home, sh.ref, sh.vec, sh.split, { sh.req with isCheck := true }, chk⟩] }

/-- What a fold replay marks on its command. -/
def Cmd.folds (c : Cmd) : Cmd := { c with folded := true, replays := c.replays + 1, outcome := worse c.outcome .okReplayed }

theorem State.askFold_eq (s : State) (sh : Shot) (j : Job) : s.askFold sh j
    = (((s.setJob sh.home (j.refold sh)).updRun sh.ref (RunWork.spend sh.vec j.second)).modArr (s.replayArr sh.home)
        (Arr.foldReplays sh)).updCmd sh.ref Cmd.folds := by
  rw [← Job.second_refold sh j]
  rfl

/-- Replacing a job touches the jobs of its array alone. -/
theorem State.setJob_keeps {β : Type} (g : Arr → β) (hg : ∀ (x : Arr) l, g { x with jobs := l } = g x) (s : State) (a b : Nat)
    (j : Job) : g ((s.setJob a j).arr b) = g (s.arr b) := by
  by_cases hb : b = a
  · rw [hb, State.arr_setJob_same, hg]
  · rw [State.arr_setJob_other _ _ hb]

theorem State.replays_askFold (s : State) (sh : Shot) (j : Job) :
    ((s.askFold sh j).arr (s.replayArr sh.home)).replays = ((s.arr (s.replayArr sh.home)).foldReplays sh).replays := by
  rw [State.askFold_eq, State.arr_updCmd, State.arr_modArr_same, State.arr_updRun]
  simp only [Arr.foldReplays, State.setJob_keeps Arr.replays fun _ _ => rfl]

theorem State.satStrokes_askFold (s : State) (sh : Shot) (j : Job) (b : Nat) :
    ((s.askFold sh j).arr b).satStrokes = (s.arr b).satStrokes := by
  rw [State.askFold_eq, State.arr_updCmd]
  by_cases hb : b = s.replayArr sh.home
  · rw [hb, State.arr_modArr_same, State.arr_updRun]
    exact State.setJob_keeps Arr.satStrokes (fun _ _ => rfl) s sh.home _ _
  · rw [State.arr_modArr_other _ _ _ _ hb, State.arr_updRun]
    exact State.setJob_keeps Arr.satStrokes (fun _ _ => rfl) s sh.home _ _

theorem State.cmds_askFold (s : State) (sh : Shot) (j : Job) : (s.askFold sh j).cmds
    = ((s.updRun sh.ref (RunWork.spend sh.vec j.second)).updCmd sh.ref Cmd.folds).cmds := by
  rw [State.askFold_eq]
  refine State.cmds_updCmd_congr ?_ _ _
  rw [State.cmds_modArr]
  exact State.cmds_updRun_congr (State.cmds_modArr _ _ _) _ _

theorem State.ctxs_askFold (s : State) (sh : Shot) (j : Job) : (s.askFold sh j).ctxs = s.ctxs := by
  rw [State.askFold_eq, State.ctxs_updCmd, State.ctxs_modArr, State.ctxs_updRun, State.setJob, State.ctxs_modArr]

theorem State.host_askFold (s : State) (sh : Shot) (j : Job) : (s.askFold sh j).host = s.host := by
  rw [State.askFold_eq, State.host_updCmd, State.host_modArr, State.host_updRun, State.setJob, State.host_modArr]

theorem State.replays_askCheck (s : State) (sh : Shot) (j : Job) (chk : List F32) :
    ((s.askCheck sh j chk).arr (s.replayArr sh.home)).replays = ((s.arr (s.replayArr sh.home)).checkReplay sh chk).replays := by
  unfold State.askCheck
  dsimp only
  rw [State.arr_updCmd, State.arr_modArr_same, State.arr_updRun]
  rfl

/-- What a check replay marks on its command. -/
def Cmd.checks (c : Cmd) : Cmd := { c with replays := c.replays + 1 }

theorem State.askCheck_frame (s : State) (sh : Shot) (j : Job) (chk : List F32) :
    s.askCheck sh j chk = { s with
      arrs := (s.askCheck sh j chk).arrs
      cmds := ((s.updRun sh.ref (RunWork.spend sh.vec j.second)).updCmd sh.ref Cmd.checks).cmds } :=
  rfl

end Sys2Proof.Machine
end

/-! ## A command ends for its check or its parity (R223, R229) -/
section
namespace Sys2Proof.Machine

/-- The work of a command has been freed (R140): arrays, VEs and partials, and of the crews their tiles and combiners. -/
structure Purged (s t : State) : Prop where
  rest : t = { s with arrs := t.arrs, crews := t.crews, ves := t.ves, parts := t.parts }
  crew : ∀ n, t.crew n = { s.crew n with
    tiles := (t.crew n).tiles, comb := (t.crew n).comb, combVecs := (t.crew n).combVecs }

theorem Purged.dropCrew {s t : State} (h : Purged s t) (r : CmdRef) (k : Nat) : Purged s (t.modCrew k (Crew.dropWork r)) := by
  refine ⟨?_, fun n => ?_⟩
  · rw [h.rest]
    rfl
  · by_cases hn : n = k
    · rw [hn, State.crew_modCrew_same, h.crew k]
      rfl
    · rw [State.crew_modCrew_other _ _ _ _ hn]
      exact h.crew n

theorem Purged.modArr {s t : State} (h : Purged s t) (a : Nat) (f : Arr → Arr) : Purged s (t.modArr a f) :=
  ⟨by rw [h.rest]; rfl, h.crew⟩

theorem Purged.modVe {s t : State} (h : Purged s t) (v : Nat) (f : Ve → Ve) : Purged s (t.modVe v f) :=
  ⟨by rw [h.rest]; rfl, h.crew⟩

theorem Purged.purge (s : State) (r : CmdRef) : Purged s (s.purge r) := by
  have arrs : Purged s (s.eachArr (Arr.dropWork r)) := State.each_keeps _ ⟨rfl, fun _ => rfl⟩ fun t x h => h.modArr x _
  have crews : Purged s ((s.eachArr (Arr.dropWork r)).eachCrew (Crew.dropWork r)) :=
    State.each_keeps _ arrs fun t x h => h.dropCrew r x
  have ves : Purged s (((s.eachArr (Arr.dropWork r)).eachCrew (Crew.dropWork r)).eachVe (Ve.dropWork r)) :=
    State.each_keeps _ crews fun t x h => h.modVe x _
  unfold State.purge
  dsimp only
  generalize State.eachVe _ _ = t at ves ⊢
  refine ⟨?_, ves.crew⟩
  rw [ves.rest]

/-- A failed command is marked, and its work freed. -/
theorem State.failCmd_purged (s : State) (r : CmdRef) (st : Status) :
    Purged (s.updCmd r (fun z => { z with outcome := worse z.outcome st, ended := true })) (s.failCmd r st) := Purged.purge _ _

/-- A failed check in a crew is counted (R229). -/
def Crew.countFail (x : Crew) : Crew := { x with chkFails := BitVec.ofNat 16 (satAdd 16 x.chkFails.toNat 1) }

theorem State.checkFailed_eq (s : State) (a : Nat) (sh : Shot) (chk : List F32) : ∃ i, s.checkFailed a sh chk
    = (((s.modCrew (a / 17) Crew.countFail).emit 0x03 i).failCmd sh.ref .checkFail).urgentCensus a := ⟨_, rfl⟩

/-- What a failed check leaves: its command has ended, CRW_CHECK has counted it, an urgent census of the array is first. -/
theorem State.checkFailed_spec (s : State) (a : Nat) (sh : Shot) (chk : List F32) :
    (s.checkFailed a sh chk).cmds
        = (s.updCmd sh.ref (fun z => { z with outcome := worse z.outcome .checkFail, ended := true })).cmds
      ∧ ((s.checkFailed a sh chk).crew (a / 17)).chkFails = BitVec.ofNat 16 (satAdd 16 (s.crew (a / 17)).chkFails.toNat 1)
      ∧ (s.checkFailed a sh chk).censusQ = a :: s.censusQ.filter (· ≠ a)
      ∧ (s.checkFailed a sh chk).ctxs = s.ctxs ∧ (s.checkFailed a sh chk).host = s.host := by
  obtain ⟨i, eq⟩ := s.checkFailed_eq a sh chk
  rw [eq]
  have counted := State.crew_modCrew_same s (a / 17) Crew.countFail
  have frame : s.modCrew (a / 17) Crew.countFail = { s with crews := (s.modCrew (a / 17) Crew.countFail).crews } := rfl
  generalize s.modCrew _ _ = u at counted frame ⊢
  have noted := Aside.emit u 0x03 i
  generalize State.emit _ _ _ = v at noted ⊢
  have failed := v.failCmd_purged sh.ref .checkFail
  generalize State.failCmd _ _ _ = t at failed ⊢
  refine ⟨?_, ?_, ?_, ?_, ?_⟩
  · have cmds : v.cmds = s.cmds := by rw [noted.cmds, frame]
    exact (congrArg State.cmds failed.rest :).trans (State.cmds_updCmd_congr cmds _ _)
  · have kept : (t.crew (a / 17)).chkFails = (v.crew (a / 17)).chkFails := (congrArg Crew.chkFails (failed.crew (a / 17)) :)
    show (t.crew (a / 17)).chkFails = _
    rw [kept, noted.crew, counted]
    rfl
  · have queue : t.censusQ = s.censusQ := (congrArg State.censusQ failed.rest :).trans (by rw [State.updCmd, noted.censusQ, frame])
    show a :: t.censusQ.filter (· ≠ a) = _
    rw [queue]
  · exact (congrArg State.ctxs failed.rest :).trans (by rw [State.updCmd, noted.ctxs, frame])
  · exact (congrArg State.host failed.rest :).trans (by rw [State.updCmd, noted.host, frame])

/-- A parity error in a word leaves crews and contexts alone, and has its signature. -/
theorem State.parityNote_spec (s : State) (ctx tag : Option Nat) (e : ParityErr) :
    (s.parityNote ctx tag e).crews = s.crews ∧ (s.parityNote ctx tag e).ctxs = s.ctxs
      ∧ (s.parityNote ctx tag e).sig.seq = s.sig.seq + 1 := by
  have counted (u : State) (kind : Nat) (i : SigInfo) (h : u.crews = s.crews ∧ u.ctxs = s.ctxs ∧ u.sig.seq = s.sig.seq) :
      (u.emit kind i).crews = s.crews ∧ (u.emit kind i).ctxs = s.ctxs ∧ (u.emit kind i).sig.seq = s.sig.seq + 1 := by
    obtain ⟨crews, ctxs, seq⟩ := h
    exact ⟨(Aside.emit u kind i).crews.trans crews, (Aside.emit u kind i).ctxs.trans ctxs, by rw [State.sig_seq_emit, seq]⟩
  unfold State.parityNote
  dsimp only
  refine counted _ _ _ ?_
  split <;> exact ⟨rfl, rfl, rfl⟩

/-- A mismatch of the duplicated arithmetic ends its command, with a signature, and benches no crew. -/
theorem State.assemblyError_spec (s : State) (r : CmdRef) (n : Nat) (e : ParityErr) :
    (s.assemblyError r n e).ctxs = s.ctxs ∧ (s.assemblyError r n e).sig.seq = s.sig.seq + 1
      ∧ (∀ k, ((s.assemblyError r n e).crew k).benched = (s.crew k).benched)
      ∧ ∀ z ∈ (s.assemblyError r n e).cmds, z.ref = r → z.ended = true := by
  unfold State.assemblyError
  obtain ⟨crews, ctxs, seq⟩ := s.parityNote_spec (qCtx r.q) (some r.tag.toNat) e
  generalize State.parityNote _ _ _ _ = u at crews ctxs seq ⊢
  have failed := u.failCmd_purged r .parity
  generalize State.failCmd _ _ _ = t at failed ⊢
  refine ⟨(congrArg State.ctxs failed.rest :).trans ctxs, ?_, fun k => ?_, fun z hz hr => ?_⟩
  · exact (congrArg (fun w => w.sig.seq) failed.rest :).trans seq
  · have kept : (t.crew k).benched = (s.crew k).benched := by
      have same : u.crew k = s.crew k := by rw [State.crew, crews, State.crew]
      have own : (t.crew k).benched = (u.crew k).benched := (congrArg Crew.benched (failed.crew k) :)
      rw [own, same]
    by_cases hk : k = n
    · rw [hk] at kept ⊢
      rw [State.crew_modCrew_same]
      exact kept
    · rw [State.crew_modCrew_other _ _ _ _ hk]
      exact kept
  · have cmds : t.cmds = (u.updCmd r (fun z => { z with outcome := worse z.outcome .parity, ended := true })).cmds :=
      (congrArg State.cmds failed.rest :)
    change z ∈ t.cmds at hz
    rw [cmds] at hz
    obtain ⟨c, -, rfl⟩ := List.mem_map.1 hz
    by_cases hc : c.ref = r
    · rw [if_pos hc]
    · rw [if_neg hc] at hr
      exact absurd hr hc

end Sys2Proof.Machine
end

/-! ## The codes of a stroke are accepted (R29, R62, R129) -/
section
namespace Sys2Proof.Machine

/-- A patch entry applied to an output of an accepted stroke: its command is marked (R64). -/
def Cmd.patches (c : Cmd) (j : Job) (terms : List (Nat × Rat)) : Cmd :=
  { c with patched := c.patched || c.patchedBy j.slice terms }

theorem State.acceptStroke_plain (s : State) (a : Nat) {sh : Shot} (j : Job) (cols : List Int) (terms : List (Nat × Rat))
    (h : sh.req.isCheck = false) : s.acceptStroke a sh j cols terms false
      = (s.updCmd sh.ref (Cmd.patches · j terms)).putJob sh.home (j.accept sh.req cols terms) := by
  simp only [State.acceptStroke, h, Bool.false_and, Bool.false_eq_true, if_false, Bool.or_false]
  rfl

theorem State.acceptStroke_sat (s : State) (a : Nat) (sh : Shot) (j : Job) (cols : List Int) (terms : List (Nat × Rat)) :
    s.acceptStroke a sh j cols terms true
      = ((s.updRun sh.ref (RunWork.leaveOut sh.vec)).updCmd sh.ref (fun z => { z with
          sat := true, patched := z.patched || z.patchedBy j.slice terms
          outcome := if sh.req.isCheck then worse z.outcome .okReplayed else z.outcome })).putJob sh.home
          (j.accept sh.req cols terms) := by
  simp only [State.acceptStroke, Bool.not_true, Bool.and_false, Bool.false_eq_true, if_false, if_true, Bool.or_true]

theorem State.job?_key {s : State} {home vec split : Nat} {r : CmdRef} {j : Job} (h : s.job? home r vec split = some j) :
    j.ref = r ∧ j.vec = vec ∧ j.split = split := by
  unfold State.job? at h
  have key := List.find?_some h
  exact Job.is_iff.1 key

/-- The job of a key, with one row group more settled, takes its own place. -/
theorem State.jobs_setJob_accept {s t : State} {home vec split : Nat} {r : CmdRef} {j : Job} (h : s.job? home r vec split = some j)
    (ht : t.arr home = s.arr home) (q : Req) (cols : List Int) (terms : List (Nat × Rat)) :
    ((t.setJob home (j.accept q cols terms)).arr home).jobs
      = (s.arr home).jobs.map (fun z => if z.is r vec split then j.accept q cols terms else z) := by
  obtain ⟨rfl, rfl, rfl⟩ := State.job?_key h
  have same := j.continues_accept q cols terms
  rw [State.arr_setJob_same, ht]
  refine List.map_congr_left fun z _ => ?_
  rw [Job.replaces, same.ref, same.vec, same.split]

/-- A job that leaves its array leaves no trace of what took its place. -/
theorem Job.filter_replaces (j : Job) (l : List Job) :
    (l.map j.replaces).filter (fun q => !q.is j.ref j.vec j.split) = l.filter (fun q => !q.is j.ref j.vec j.split) := by
  induction l with
  | nil => rfl
  | cons x l ih =>
    rw [List.map_cons, List.filter_cons, List.filter_cons, ih, Job.replaces]
    by_cases hx : x.is j.ref j.vec j.split = true
    · rw [if_pos hx]
      simp [j.is_self, hx]
    · rw [if_neg hx]

/-- The words of a finished vector on its array (R62). -/
def State.jobWords (s : State) (home : Nat) (j : Job) (w : RunWork) (y : Assign) : List Nat :=
  partWords w.layer (w.layer.sliceCols j.slice)
    (Memory.readBytes (s.crew (home / 17)).sram (0x400 * y.sumsPage) (12 * w.layer.cols)) j (s.jobCodes home j)

/-- A finished job leaves its array, and its tile is settled there. -/
def State.jobLeaves (s : State) (home : Nat) (j : Job) : State :=
  (s.modArr home (fun x => { x with jobs := x.jobs.filter (fun k => !k.is j.ref j.vec j.split) })).modCrew (home / 17)
    (Crew.settleTile j (home % 17))

theorem State.finishJob_eq {s : State} {home : Nat} {j : Job} {x : Cmd} {w : RunWork} {g : Generation} {y : Assign}
    (hx : s.cmd? j.ref = some x) (hw : x.work = .run w) (hg : s.runGen x = some g) (hy : s.assignOf g home = some y) :
    s.finishJob home j = (s.jobLeaves home j).putPart x w
      { j.part with words := s.jobWords home j w y, crew := home / 17 } := by
  unfold State.finishJob
  rw [hx]
  simp only [hw, hg, hy, Option.bind_some]
  rfl

/-- A partial goes to its combiner at once where that is the crew that made it, and for CB4 (R129). -/
theorem State.putPart_near {s : State} {x : Cmd} {w : RunWork} {g : Generation} {z : Assign} {p : Part}
    (hg : s.runGen x = some g) (hz : combAssign g w.idx p.slice p.rep p.second = some z) (many : w.layer.splits ≠ 1)
    (near : z.crew = p.crew ∨ w.layer.cb4 = true) :
    s.putPart x w p = { s with parts := s.parts ++ [{ p with crew := z.crew }] } := by
  unfold State.putPart
  rw [hg]
  simp only [hz, if_neg many, State.crewPart]
  refine if_pos ?_
  obtain h | h := near <;> simp [h]

theorem State.runGen_congr {s t : State} (h : t.ctxs = s.ctxs) {x z : Cmd} (hz : z.ref = x.ref ∧ z.pkt = x.pkt ∧ z.gen = x.gen) :
    t.runGen z = s.runGen x := by
  obtain ⟨href, hpkt, hgen⟩ := hz
  rw [State.runGen, href, hpkt, hgen, State.ctx_of_ctxs h, State.runGen]

theorem State.assignOf_congr {s t : State} (h : t.crews = s.crews) (g : Generation) (a : Nat) :
    t.assignOf g a = s.assignOf g a := by
  simp only [State.assignOf, State.logicalArr, State.crew, h]

/-- The last stroke of a vector sends its partial to the combiner, and its job leaves the array. -/
theorem State.putJob_done {t : State} {home : Nat} {j : Job} {x : Cmd} {w : RunWork} {g : Generation} {y z : Assign}
    (done : j.complete = true) (hx : t.cmd? j.ref = some x) (hw : x.work = .run w) (hg : t.runGen x = some g)
    (hy : t.assignOf g home = some y) (hz : combAssign g w.idx j.slice j.rep j.second = some z) (many : w.layer.splits ≠ 1)
    (near : z.crew = home / 17 ∨ w.layer.cb4 = true) :
    (t.putJob home j).parts = t.parts ++ [{ j.part with words := t.jobWords home j w y, crew := z.crew }]
      ∧ ((t.putJob home j).arr home).jobs = (t.arr home).jobs.filter (fun q => !q.is j.ref j.vec j.split)
      ∧ (t.putJob home j).host = t.host ∧ (t.putJob home j).ctxs = t.ctxs := by
  have found : (t.setJob home j).cmd? j.ref = some x := by rw [← hx, State.cmd?, State.cmd?, State.setJob, State.cmds_modArr]
  have gen : (t.setJob home j).runGen x = some g := (State.runGen_congr (State.ctxs_modArr _ _ _) ⟨rfl, rfl, rfl⟩).trans hg
  have placed : (t.setJob home j).assignOf g home = some y := (State.assignOf_congr (State.crews_modArr _ _ _) _ _).trans hy
  have gone : ((t.setJob home j).jobLeaves home j).runGen x = some g :=
    (State.runGen_congr (t := (t.setJob home j).jobLeaves home j) (s := t.setJob home j)
      ((State.ctxs_modCrew _ _ _).trans (State.ctxs_modArr _ _ _)) ⟨rfl, rfl, rfl⟩).trans gen
  have words : (t.setJob home j).jobWords home j w y = t.jobWords home j w y := by
    simp only [State.jobWords, State.jobCodes, State.setJob, State.crew_modArr]
  have eq : t.putJob home j = _ := (if_pos done : t.putJob home j = (t.setJob home j).finishJob home j)
  rw [eq, State.finishJob_eq found hw gen placed, State.putPart_near gone hz many near, words]
  refine ⟨?_, ?_, ?_, ?_⟩
  · show ((t.setJob home j).jobLeaves home j).parts ++ _ = _
    rw [State.jobLeaves, State.parts_modCrew, State.parts_modArr, State.setJob, State.parts_modArr]
  · show (((t.setJob home j).jobLeaves home j).arr home).jobs = _
    rw [State.jobLeaves, State.arr_modCrew, State.arr_modArr_same, State.arr_setJob_same]
    exact j.filter_replaces _
  · show ((t.setJob home j).jobLeaves home j).host = _
    rw [State.jobLeaves, State.host_modCrew, State.host_modArr, State.setJob, State.host_modArr]
  · show ((t.setJob home j).jobLeaves home j).ctxs = _
    rw [State.jobLeaves, State.ctxs_modCrew, State.ctxs_modArr, State.setJob, State.ctxs_modArr]

/-- The word of an output column of an integer layer (R62 to R64). -/
theorem getElem?_partWords {ly : Layer} {n c : Nat} {sums : List Byte} {j : Job} {codes : List Nat} {v : Int}
    (int : ly.cb4 = false) (hc : c < n) (hv : (j.recombine ly)[c]? = some v) :
    (partWords ly n sums j codes)[c]?
      = some (intWord ly v (sumNat codes : Nat) (slice sums (12 * c) 12) (roundEven (j.patchTerm c))) := by
  simp [partWords, List.getElem?_zipIdx, hc, hv, int]

end Sys2Proof.Machine
end

/-! ## The end of the scan of a command's stroke (R29, R36, R225 to R230) -/
section
namespace Sys2Proof.Machine

section
variable {s : State} {a : Nat} {sh : Shot} {dev : List Int} {x : Cmd} {j : Job} {y : Assign} {ly : Layer}

/-- The scan has been taken, and its outcome is that of the same stroke of the same command. -/
theorem State.scanEnd_outcome (cold : sh.warm = false) (k : Judged s a sh x j y ly) :
    ∃ u, Scans s u a (saturated (s.rawCodes a sh dev)) ∧ Judged u a sh x j y ly
      ∧ s.scanEnd a sh dev none = u.strokeOutcome a sh (s.rawCodes a sh dev) := by
  obtain ⟨u, scans, outcome, -⟩ := s.scanEnd_cold a dev cold
  exact ⟨u, scans, scans.judged k, outcome⟩

/-- A check passed: the row group is accepted. -/
theorem State.scanEnd_within (cold : sh.warm = false) (k : Judged s a sh x j y ly) (sat : ∀ v ∈ s.rawCodes a sh dev, v ≠ 1023)
    (within : s.Passes a sh (s.rawCodes a sh dev) j y ly)
    (first : sh.req.isCheck = false) : ∃ u, Scans s u a 0 ∧ s.scanEnd a sh dev none
      = (u.updCmd sh.ref (Cmd.patches · j (j.shotTerms a sh ly))).putJob sh.home
          (j.accept sh.req (s.shotCols a sh (s.rawCodes a sh dev)) (j.shotTerms a sh ly)) := by
  obtain ⟨u, scans, judged, outcome⟩ := State.scanEnd_outcome (dev := dev) cold k
  rw [saturated_eq_zero sat] at scans
  refine ⟨u, scans, ?_⟩
  rw [outcome, State.strokeOutcome_checked judged sat, if_pos (scans.passes.2 within), State.acceptStroke_plain _ _ _ _ _ first, scans.shotCols]

/-- A row group within its check, and not the last of its vector, joins its nibble. -/
theorem State.scanEnd_accepts (cold : sh.warm = false) (k : Judged s a sh x j y ly) (sat : ∀ v ∈ s.rawCodes a sh dev, v ≠ 1023)
    (within : s.Passes a sh (s.rawCodes a sh dev) j y ly)
    (first : sh.req.isCheck = false)
    (more : (j.accept sh.req (s.shotCols a sh (s.rawCodes a sh dev)) (j.shotTerms a sh ly)).complete = false) :
    ((s.scanEnd a sh dev none).arr sh.home).jobs = (s.arr sh.home).jobs.map (fun z => if z.is sh.ref sh.vec sh.split then
          j.accept sh.req (s.shotCols a sh (s.rawCodes a sh dev)) (j.shotTerms a sh ly) else z)
      ∧ (s.scanEnd a sh dev none).cmds = (s.updCmd sh.ref (Cmd.patches · j (j.shotTerms a sh ly))).cmds
      ∧ (s.scanEnd a sh dev none).crews = s.crews ∧ (s.scanEnd a sh dev none).ctxs = s.ctxs
      ∧ (s.scanEnd a sh dev none).host = s.host
      ∧ ∀ b, b ≠ a → b ≠ sh.home → (s.scanEnd a sh dev none).arr b = s.arr b := by
  obtain ⟨u, scans, eq⟩ := State.scanEnd_within cold k sat within first
  rw [eq, State.putJob_open _ _ more]
  refine ⟨?_, ?_, ?_, ?_, ?_, fun b hb hh => ?_⟩
  · rw [State.jobs_setJob_accept ((scans.job? _ _ _ _).trans k.job) (State.arr_updCmd _ _ _ _), scans.jobs]
  · rw [State.setJob, State.cmds_modArr]
    exact State.cmds_updCmd_congr scans.aside.cmds _ _
  · rw [State.setJob, State.crews_modArr, State.crews_updCmd, scans.aside.crews]
  · rw [State.setJob, State.ctxs_modArr, State.ctxs_updCmd, scans.aside.ctxs]
  · rw [State.setJob, State.host_modArr, State.host_updCmd, scans.aside.host]
  · rw [State.arr_setJob_other _ _ hh, State.arr_updCmd, scans.others b hb]

/-- The last row group of a vector within its check: the partial leaves for its combiner. -/
theorem State.scanEnd_finishes {w : RunWork} {g : Generation} {p z : Assign} (cold : sh.warm = false) (k : Judged s a sh x j y ly)
    (sat : ∀ v ∈ s.rawCodes a sh dev, v ≠ 1023)
    (within : s.Passes a sh (s.rawCodes a sh dev) j y ly)
    (first : sh.req.isCheck = false)
    (last : (j.accept sh.req (s.shotCols a sh (s.rawCodes a sh dev)) (j.shotTerms a sh ly)).complete = true)
    (hw : x.work = .run w) (hg : s.runGen x = some g) (hp : s.assignOf g sh.home = some p)
    (hz : combAssign g w.idx j.slice j.rep j.second = some z) (many : w.layer.splits ≠ 1)
    (near : z.crew = sh.home / 17 ∨ w.layer.cb4 = true) :
    (s.scanEnd a sh dev none).parts = s.parts ++ [{ j.part with
          crew := z.crew
          words := partWords w.layer (w.layer.sliceCols j.slice)
            (Memory.readBytes (s.crew (sh.home / 17)).sram (0x400 * p.sumsPage) (12 * w.layer.cols))
            (j.accept sh.req (s.shotCols a sh (s.rawCodes a sh dev)) (j.shotTerms a sh ly)) (s.jobCodes sh.home j) }]
      ∧ ((s.scanEnd a sh dev none).arr sh.home).jobs = (s.arr sh.home).jobs.filter (fun q => !q.is sh.ref sh.vec sh.split)
      ∧ (s.scanEnd a sh dev none).host = s.host ∧ (s.scanEnd a sh dev none).ctxs = s.ctxs := by
  obtain ⟨u, scans, eq⟩ := State.scanEnd_within cold k sat within first
  rw [eq]
  obtain ⟨hr, hv, hs⟩ := State.job?_key k.job
  generalize s.shotCols a sh (s.rawCodes a sh dev) = cols at last ⊢
  generalize j.shotTerms a sh ly = terms at last ⊢
  have same := j.continues_accept sh.req cols terms
  have found := State.cmd?_updCmd (f := (Cmd.patches · j terms)) ((scans.cmd? _).trans k.cmd) fun _ => rfl
  have ctxs := (State.ctxs_updCmd u sh.ref (Cmd.patches · j terms)).trans scans.aside.ctxs
  have crews := (State.crews_updCmd u sh.ref (Cmd.patches · j terms)).trans scans.aside.crews
  have crew (n : Nat) : (u.updCmd sh.ref (Cmd.patches · j terms)).crew n = s.crew n := scans.aside.crew n
  obtain ⟨parts, jobs, host, kept⟩ := State.putJob_done (x := x.patches j terms) (home := sh.home) last
    (by rw [same.ref, hr]; exact found) hw
    ((State.runGen_congr ctxs ⟨rfl, rfl, rfl⟩).trans hg) ((State.assignOf_congr crews _ _).trans hp)
    (by rw [same.slice, same.rep, same.second]; exact hz) many near
  rw [State.jobWords, same.jobCodes, State.jobCodes, crew, same.slice, same.part] at parts
  rw [same.ref, same.vec, same.split, hr, hv, hs] at jobs
  exact ⟨parts.trans (congrArg (· ++ _) scans.aside.parts), jobs.trans (congrArg _ (scans.jobs sh.home)),
    host.trans scans.aside.host, kept.trans ctxs⟩

/-- A saturated row group that has no fold replay is accepted as it is (R36 rule 2). -/
theorem State.scanEnd_saturates (cold : sh.warm = false) (k : Judged s a sh x j y ly) (sat : 1023 ∈ s.rawCodes a sh dev)
    (hold : (s.arr a).auto = false ∨ sh.req.isFold = true ∨ sh.req.isCheck = true ∨ 4 ≤ sh.req.fold ∨ s.twinSpent a sh x j = true)
    (more : (j.accept sh.req (s.shotCols a sh (s.rawCodes a sh dev)) (j.shotTerms a sh ly)).complete = false) :
    ((s.scanEnd a sh dev none).arr sh.home).jobs = (s.arr sh.home).jobs.map (fun z => if z.is sh.ref sh.vec sh.split then
          j.accept sh.req (s.shotCols a sh (s.rawCodes a sh dev)) (j.shotTerms a sh ly) else z)
      ∧ (s.scanEnd a sh dev none).cmds = ((s.updRun sh.ref (RunWork.leaveOut sh.vec)).updCmd sh.ref (fun z => { z with
          sat := true, patched := z.patched || z.patchedBy j.slice (j.shotTerms a sh ly)
          outcome := if sh.req.isCheck then worse z.outcome .okReplayed else z.outcome })).cmds
      ∧ ((s.scanEnd a sh dev none).arr a).satStrokes = word (satAdd 32 (s.arr a).satStrokes.toNat 1)
      ∧ (s.scanEnd a sh dev none).crews = s.crews ∧ (s.scanEnd a sh dev none).host = s.host
      ∧ (s.scanEnd a sh dev none).ctxs = s.ctxs := by
  obtain ⟨u, scans, judged, outcome⟩ := State.scanEnd_outcome (dev := dev) cold k
  have none_asked : ((u.arr a).auto && !sh.req.isFold && !sh.req.isCheck && decide (sh.req.fold < 4) && !u.twinSpent a sh x j)
      = false := by
    rw [scans.auto, scans.twinSpent]
    obtain h | h | h | h | h := hold <;> simp [h]
  rw [outcome, State.strokeOutcome_saturated judged sat, none_asked, if_neg Bool.false_ne_true, State.acceptStroke_sat,
    scans.shotCols, State.putJob_open _ _ more]
  refine ⟨?_, ?_, ?_, ?_, ?_, ?_⟩
  · rw [State.jobs_setJob_accept judged.job ((State.arr_updCmd _ _ _ _).trans (State.arr_updRun _ _ _ _)), scans.jobs]
  · rw [State.setJob, State.cmds_modArr]
    exact State.cmds_updCmd_congr (State.cmds_updRun_congr scans.aside.cmds _ _) _ _
  · rw [State.setJob_keeps Arr.satStrokes fun _ _ => rfl, State.arr_updCmd, State.arr_updRun]
    exact scans.satStrokes (saturated_ne_zero sat)
  · rw [State.setJob, State.crews_modArr, State.crews_updCmd, State.crews_updRun, scans.aside.crews]
  · rw [State.setJob, State.host_modArr, State.host_updCmd, State.host_updRun, scans.aside.host]
  · rw [State.setJob, State.ctxs_modArr, State.ctxs_updCmd, State.ctxs_updRun, scans.aside.ctxs]

/-- A saturated row group asks for a replay of its nibble at twice the fold (R36 rule 1). -/
theorem State.scanEnd_folds (cold : sh.warm = false) (k : Judged s a sh x j y ly) (sat : 1023 ∈ s.rawCodes a sh dev)
    (auto : (s.arr a).auto = true) (unfolded : sh.req.isFold = false) (first : sh.req.isCheck = false) (fold : sh.req.fold < 4)
    (unspent : s.twinSpent a sh x j = false) :
    ((s.scanEnd a sh dev none).arr (s.replayArr sh.home)).replays = ((s.arr (s.replayArr sh.home)).foldReplays sh).replays
      ∧ (s.scanEnd a sh dev none).cmds = ((s.updRun sh.ref (RunWork.spend sh.vec j.second)).updCmd sh.ref Cmd.folds).cmds
      ∧ ((s.scanEnd a sh dev none).arr a).satStrokes = word (satAdd 32 (s.arr a).satStrokes.toNat 1)
      ∧ (s.scanEnd a sh dev none).host = s.host ∧ (s.scanEnd a sh dev none).ctxs = s.ctxs := by
  obtain ⟨u, scans, judged, outcome⟩ := State.scanEnd_outcome (dev := dev) cold k
  have asked : ((u.arr a).auto && !sh.req.isFold && !sh.req.isCheck && decide (sh.req.fold < 4) && !u.twinSpent a sh x j)
      = true := by
    rw [scans.auto, scans.twinSpent, auto, unfolded, first, unspent, decide_eq_true fold]
    rfl
  rw [outcome, State.strokeOutcome_saturated judged sat, if_pos asked, ← scans.replayArr]
  refine ⟨?_, ?_, ?_, ?_, ?_⟩
  · rw [State.replays_askFold]
    simp only [Arr.foldReplays, scans.replays]
  · rw [State.cmds_askFold]
    exact State.cmds_updCmd_congr (State.cmds_updRun_congr scans.aside.cmds _ _) _ _
  · rw [State.satStrokes_askFold]
    exact scans.satStrokes (saturated_ne_zero sat)
  · rw [State.host_askFold, scans.aside.host]
  · rw [State.ctxs_askFold, scans.aside.ctxs]

/-- A sum outside the window asks for a check replay (R229). -/
theorem State.scanEnd_asksCheck (cold : sh.warm = false) (k : Judged s a sh x j y ly) (sat : ∀ v ∈ s.rawCodes a sh dev, v ≠ 1023)
    (outside : ¬ s.Passes a sh (s.rawCodes a sh dev) j y ly)
    (left : (sh.req.isCheck || ((s.crew (a / 17)).resv.isSome && (x.spent sh.vec j.second || sh.req.isFold))) = false) :
    ((s.scanEnd a sh dev none).arr (s.replayArr sh.home)).replays
        = ((s.arr (s.replayArr sh.home)).checkReplay sh (s.shotChk a sh (s.rawCodes a sh dev) j y ly)).replays
      ∧ (s.scanEnd a sh dev none).cmds = ((s.updRun sh.ref (RunWork.spend sh.vec j.second)).updCmd sh.ref Cmd.checks).cmds
      ∧ (s.scanEnd a sh dev none).host = s.host ∧ (s.scanEnd a sh dev none).ctxs = s.ctxs := by
  obtain ⟨u, scans, judged, outcome⟩ := State.scanEnd_outcome (dev := dev) cold k
  rw [outcome, State.strokeOutcome_checked judged sat, if_neg (mt scans.passes.1 outside), scans.aside.crew, left, if_neg Bool.false_ne_true,
    scans.shotChk, ← scans.replayArr]
  refine ⟨?_, ?_, ?_, ?_⟩
  · rw [State.replays_askCheck]
    simp only [Arr.checkReplay, scans.replays]
  · rw [State.askCheck_frame]
    exact State.cmds_updCmd_congr (State.cmds_updRun_congr scans.aside.cmds _ _) _ _
  · rw [State.askCheck_frame, scans.aside.host]
  · rw [State.askCheck_frame, scans.aside.ctxs]

/-- A sum outside the window with no replay left ends the command (R229, R230, R103). -/
theorem State.scanEnd_checkFails (cold : sh.warm = false) (k : Judged s a sh x j y ly) (sat : ∀ v ∈ s.rawCodes a sh dev, v ≠ 1023)
    (outside : ¬ s.Passes a sh (s.rawCodes a sh dev) j y ly)
    (spent : (sh.req.isCheck || ((s.crew (a / 17)).resv.isSome && (x.spent sh.vec j.second || sh.req.isFold))) = true) :
    (s.scanEnd a sh dev none).cmds
        = (s.updCmd sh.ref (fun z => { z with outcome := worse z.outcome .checkFail, ended := true })).cmds
      ∧ ((s.scanEnd a sh dev none).crew (a / 17)).chkFails
        = BitVec.ofNat 16 (satAdd 16 (s.crew (a / 17)).chkFails.toNat 1)
      ∧ (s.scanEnd a sh dev none).censusQ = a :: s.censusQ.filter (· ≠ a)
      ∧ (s.scanEnd a sh dev none).host = s.host ∧ (s.scanEnd a sh dev none).ctxs = s.ctxs := by
  obtain ⟨u, scans, judged, outcome⟩ := State.scanEnd_outcome (dev := dev) cold k
  rw [outcome, State.strokeOutcome_checked judged sat, if_neg (mt scans.passes.1 outside), scans.aside.crew, if_pos spent]
  obtain ⟨cmds, fails, census, ctxs, host⟩ := u.checkFailed_spec a sh (u.shotChk a sh (s.rawCodes a sh dev) j y ly)
  rw [scans.aside.crew] at fails
  rw [scans.aside.censusQ] at census
  exact ⟨cmds.trans (State.cmds_updCmd_congr scans.aside.cmds _ _), fails, census, host.trans scans.aside.host,
    ctxs.trans scans.aside.ctxs⟩

/-- A mismatch of the duplicated arithmetic ends the command, and benches no crew (R223). -/
theorem State.scanEnd_mismatch (cold : sh.warm = false) (k : Judged s a sh x j y ly) (col : Nat) :
    s.sig.seq < (s.scanEnd a sh dev (some col)).sig.seq
      ∧ (∀ n, ((s.scanEnd a sh dev (some col)).crew n).benched = (s.crew n).benched)
      ∧ (∀ z ∈ (s.scanEnd a sh dev (some col)).cmds, z.ref = sh.ref → z.ended = true)
      ∧ (s.scanEnd a sh dev (some col)).ctxs = s.ctxs := by
  obtain ⟨u, scans, -, mismatch⟩ := s.scanEnd_cold a dev cold
  rw [mismatch col j (scans.judged k).job]
  obtain ⟨ctxs, seq, benched, ended⟩ := u.assemblyError_spec sh.ref (a / 17)
    ⟨BitVec.ofNat 16 (0x8000 + a / 17), BitVec.ofNat 64 col⟩
  refine ⟨?_, fun n => ?_, ended, ctxs.trans scans.aside.ctxs⟩
  · rw [seq]
    exact Nat.lt_succ_of_le scans.seq
  · rw [benched, scans.aside.crew]

end

/-- A keep-warm stroke leaves its array, and its tracking reads are taken (R28, R86, R111). -/
theorem State.scanEnd_keepWarm (s : State) (a : Nat) {sh : Shot} (dev : List Int) (dup : Option Nat) (warm : sh.warm = true) :
    s.scanEnd a sh dev dup = { s with arrs := (s.scanEnd a sh dev dup).arrs }
      ∧ (∀ b, b ≠ a → (s.scanEnd a sh dev dup).arr b = s.arr b)
      ∧ Arr.Tracked (s.arr a).popShot ((s.scanEnd a sh dev dup).arr a) := by
  obtain ⟨f, tracked, eq⟩ := s.scanEnd_warm a dev dup warm
  rw [eq]
  exact ⟨rfl, fun b hb => State.arr_modArr_other _ _ _ _ hb, by rw [State.arr_modArr_same]; exact tracked _⟩

/-- Settles O50, outcome by outcome. -/
theorem scanEndsSettleTheirStroke : Obligations.ScanEndsSettleTheirStroke := by
  unfold Obligations.ScanEndsSettleTheirStroke
  intro s k m dev hd still a
  have still_end {t : State} (h : t.ctxs = s.ctxs) : t.settle = t := State.settle_still_of_ctxs still h
  refine ⟨fun h dup => exec_strokeScanEnd_nil hd h dup, fun sh rest shots => ⟨fun warm dup => ?_, ?_⟩⟩
  · obtain ⟨frame, others, tracked⟩ := s.scanEnd_keepWarm a dev dup warm
    have ends : exec (.strokeScanEnd k m dev dup) s = .next (s.scanEnd a sh dev dup) := by
      rw [exec_strokeScanEnd_cons hd shots dup, still_end (congrArg State.ctxs frame :)]
    have own := tracked.rest
    refine ⟨_, ends, frame, others, ?_, (congrArg Arr.jobs own :), (congrArg Arr.ptr own :), (congrArg Arr.satStrokes own :),
      (congrArg Arr.satCols own :), tracked.strokes, tracked.wins⟩
    have left : ((s.scanEnd a sh dev dup).arr a).shots = (s.arr a).shots.drop 1 := (congrArg Arr.shots own :)
    rw [left, shots, List.drop_one, List.tail_cons]
  · intro x j pl g y ly cold cmd runs job place fold bow raw cols terms mea pre lim
    have judged : Judged s a sh x j y ly := ⟨cmd, runs, job, ⟨pl, g, place⟩, fold⟩
    have ends (h : (s.scanEnd a sh dev none).ctxs = s.ctxs) :
        exec (.strokeScanEnd k m dev none) s = .next (s.scanEnd a sh dev none) := by
      rw [exec_strokeScanEnd_cons hd shots none, still_end h]
    refine ⟨?_, ?_, ?_, ?_, ?_, ?_, ?_⟩
    · intro sat within first more
      obtain ⟨jobs, cmds, crews, ctxs, host, others⟩ := State.scanEnd_accepts cold judged sat within first more
      exact ⟨_, ends ctxs, jobs, cmds, crews, ctxs, host, others⟩
    · intro w g' y' z sat within first last hw hg hy hz many near
      obtain ⟨parts, jobs, host, ctxs⟩ := State.scanEnd_finishes cold judged sat within first last hw hg hy hz many near
      exact ⟨_, _, ends ctxs, parts, jobs, host, ctxs, fun int c v hc hv => getElem?_partWords int hc hv⟩
    · intro sat hold more
      have hold' : (s.arr a).auto = false ∨ sh.req.isFold = true ∨ sh.req.isCheck = true ∨ 4 ≤ sh.req.fold
          ∨ s.twinSpent a sh x j = true := by simpa [State.twinSpent] using hold
      obtain ⟨jobs, cmds, sats, crews, host, ctxs⟩ := State.scanEnd_saturates cold judged sat hold' more
      exact ⟨_, ends ctxs, jobs, cmds, sats, crews, host⟩
    · intro sat outside first left
      obtain ⟨replays, cmds, host, ctxs⟩ := State.scanEnd_asksCheck cold judged sat outside (by simpa [first] using left)
      exact ⟨_, ends ctxs, replays, cmds, host⟩
    · intro sat outside spent
      obtain ⟨cmds, fails, census, host, ctxs⟩ := State.scanEnd_checkFails cold judged sat outside (by simpa using spent)
      exact ⟨_, ends ctxs, cmds, fails, census, host⟩
    · intro sat auto unfolded first four unspent
      obtain ⟨replays, cmds, sats, host, ctxs⟩ := State.scanEnd_folds cold judged sat auto unfolded first four
        (by simpa [State.twinSpent] using unspent)
      exact ⟨_, ends ctxs, replays, cmds, sats, host⟩
    · intro col
      obtain ⟨seq, benched, ended, ctxs⟩ := State.scanEnd_mismatch (dev := dev) cold judged col
      refine ⟨_, ?_, seq, benched, ended⟩
      rw [exec_strokeScanEnd_cons hd shots (some col), still_end ctxs]

end Sys2Proof.Machine
end

/-! PROOFS for the family 03_numerics_and_output_assembly: the tiles of a RUN reach their crew. -/

/-! ## A signature, and nothing else (R239 to R242) -/
section
namespace Sys2Proof.Machine

theorem pushMirror_eq (m : List (List Byte)) (b : List Byte) :
    pushMirror m b = (if m.length < 16 then m else m.drop 1) ++ [b] := by
  unfold pushMirror
  split <;> rfl

theorem State.sig_raisePf (s : State) (v : Nat) : (s.raisePf v).sig = s.sig := by
  obtain e | ⟨x, e⟩ | e := s.raisePf_cases v <;> rw [e]

/-- A message sent is held or on its way, and nothing else changes. -/
theorem State.send_frame (s : State) (m : Msg) : ∃ g o, s.send m = { s with group := g, outs := o } := by
  have held : ∃ g, (if m.kind = 5 ∨ m.kind = 6 then s
      else { s with group := { s.group with held := s.group.held ++ [m] } }) = { s with group := g } := by
    split <;> exact ⟨_, rfl⟩
  obtain ⟨g, e⟩ := held
  unfold State.send
  dsimp only
  rw [e]
  split
  · exact ⟨g, _, rfl⟩
  · split <;> exact ⟨g, _, rfl⟩

/-- A full store counts a signature as discarded; another one takes it. -/
theorem State.sig_storeSig (s : State) (b : List Byte) : (s.storeSig b).sig = { s.sig with
    store := if s.sig.store.length < 1024 then s.sig.store ++ [b] else s.sig.store
    lost := if s.sig.store.length < 1024 then 0 else s.sig.lost + 1 } := by
  unfold State.storeSig
  by_cases full : 1024 ≤ s.sig.store.length
  · rw [if_pos full, if_neg (Nat.not_lt.2 full), if_neg (Nat.not_lt.2 full)]
  · rw [if_neg full, if_pos (Nat.lt_of_not_le full), if_pos (Nat.lt_of_not_le full)]
    dsimp only
    split
    · rw [State.sig_raisePf]
    · rfl

theorem State.signed_emit (s : State) (kind : Nat) (i : SigInfo) : Signed s (s.emit kind i) kind i := by
  have stored : ({ s with sig := { s.sig with
        seq := s.sig.seq + 1, mirror := pushMirror s.sig.mirror (s.sigBytes kind i) } }.storeSig (s.sigBytes kind i)).sig
      = { s.sig with
          seq := s.sig.seq + 1
          mirror := (if s.sig.mirror.length < 16 then s.sig.mirror else s.sig.mirror.drop 1) ++ [s.sigBytes kind i]
          store := if s.sig.store.length < 1024 then s.sig.store ++ [s.sigBytes kind i] else s.sig.store
          lost := if s.sig.store.length < 1024 then 0 else s.sig.lost + 1 } := by
    rw [State.sig_storeSig, pushMirror_eq]
  unfold Signed State.emit
  dsimp only
  split
  · obtain ⟨g, o, e⟩ := State.send_frame _ _
    rw [e]
    exact stored
  · exact stored

/-- A signature asks for the store, the time and the position of the device alone. -/
theorem State.sigBytes_congr {s u : State} (sig : u.sig = s.sig) (dev : u.dev = s.dev) (env : u.env = s.env) (kind : Nat)
    (i : SigInfo) : u.sigBytes kind i = s.sigBytes kind i := by simp only [State.sigBytes, sig, dev, env]

theorem Signed.congr {s u t : State} {kind : Nat} {i : SigInfo} (h : Signed u t kind i) (sig : u.sig = s.sig)
    (dev : u.dev = s.dev) (env : u.env = s.env) : Signed s t kind i := by
  unfold Signed at h ⊢
  rwa [sig, State.sigBytes_congr sig dev env] at h

theorem Found.congr {s u t : State} {r : CmdRef} {e : ParityErr} (h : Found u t r e) (sig : u.sig = s.sig)
    (dev : u.dev = s.dev) (env : u.env = s.env) : Found s t r e := by
  obtain ⟨seq, sole⟩ := h
  exact ⟨sig ▸ seq, fun hop => (sole hop).congr sig dev env⟩

end Sys2Proof.Machine
end

/-! ## What has ended stays so while a crew is benched (R233 to R235) -/
section
namespace Sys2Proof.Machine

theorem Ctx.swingCmd_advance (op : Nat) (x : Ctx) : (Ctx.advance op x).swingCmd = x.swingCmd := by
  unfold Ctx.advance
  dsimp only
  split
  · rfl
  · split
    · rfl
    · split <;> rfl

theorem Cmd.missArray_keeps (a : Nat) (z : Cmd) :
    (Cmd.missArray a z).ref = z.ref ∧ (z.ended = true → (Cmd.missArray a z).ended = true) := by
  unfold Cmd.missArray
  split
  · split <;> exact ⟨rfl, id⟩
  · exact ⟨rfl, id⟩

/-- No swing is in progress, signatures have been made since number `n`, and the command `r` has ended. -/
structure Over (r : CmdRef) (n : Nat) (t : State) : Prop where
  still : ∀ c, c < 16 → (t.ctx c).swingCmd = none
  signed : n < t.sig.seq
  ended : ∀ z ∈ t.cmds, z.ref = r → z.ended = true

namespace Over
variable {r : CmdRef} {n : Nat} {s t : State}

theorem congr (h : Over r n s) (ctxs : t.ctxs = s.ctxs) (sig : t.sig = s.sig) (cmds : t.cmds = s.cmds) : Over r n t :=
  ⟨fun c hc => by rw [State.ctx_of_ctxs ctxs, h.still c hc], by rw [sig]; exact h.signed, by rw [cmds]; exact h.ended⟩

theorem modCrew (h : Over r n s) (k : Nat) (f : Crew → Crew) : Over r n (s.modCrew k f) := h.congr rfl rfl rfl
theorem modArr (h : Over r n s) (a : Nat) (f : Arr → Arr) : Over r n (s.modArr a f) := h.congr rfl rfl rfl
theorem setQueue (h : Over r n s) (q : QueueId) (x : Queue) : Over r n (s.setQueue q x) := h.congr rfl rfl rfl
theorem writeHost (h : Over r n s) (a : Nat) (bs : List Byte) : Over r n (s.writeHost a bs) := h.congr rfl rfl rfl
theorem releaseHeld (h : Over r n s) (c : Cmd) : Over r n (s.releaseHeld c) := h.congr rfl rfl rfl

theorem setCtx (h : Over r n s) (c : Nat) {x : Ctx} (hx : x.swingCmd = none) : Over r n (s.setCtx c x) := by
  refine ⟨fun d hd => ?_, h.signed, h.ended⟩
  by_cases e : d = c
  · rw [e, State.ctx_setCtx_same, hx]
  · rw [State.ctx_setCtx_other _ _ _ _ e, h.still d hd]

/-- A change of a context that starts no swing. -/
theorem modCtx (h : Over r n s) (c : Nat) {f : Ctx → Ctx} (hf : ∀ x, x.swingCmd = none → (f x).swingCmd = none) :
    Over r n (s.modCtx c f) := by
  refine ⟨fun d hd => ?_, h.signed, h.ended⟩
  by_cases e : d = c
  · rw [← e, State.ctx_modCtx_same, hf _ (h.still d hd)]
  · rw [State.ctx_modCtx_other _ _ _ _ e, h.still d hd]

/-- A change of the commands under which each keeps its name, and what has ended stays ended. -/
theorem mapCmds (h : Over r n s) {f : Cmd → Cmd} (hf : ∀ z, (f z).ref = z.ref ∧ (z.ended = true → (f z).ended = true)) :
    Over r n { s with cmds := s.cmds.map f } := by
  refine ⟨h.still, h.signed, fun z hz hr => ?_⟩
  obtain ⟨c, hc, rfl⟩ := List.mem_map.1 hz
  obtain ⟨name, keeps⟩ := hf c
  exact keeps (h.ended c hc (name ▸ hr))

theorem updCmd (h : Over r n s) (q : CmdRef) {f : Cmd → Cmd} (hf : ∀ z, (f z).ref = z.ref ∧ (z.ended = true → (f z).ended = true)) :
    Over r n (s.updCmd q f) := by
  refine h.mapCmds fun z => ?_
  by_cases e : z.ref = q
  · rw [if_pos e]
    exact hf z
  · rw [if_neg e]
    exact ⟨rfl, id⟩

theorem dropCmd (h : Over r n s) (q : CmdRef) : Over r n (s.dropCmd q) :=
  ⟨h.still, h.signed, fun z hz => h.ended z (List.mem_filter.1 hz).1⟩

theorem emit (h : Over r n s) (kind : Nat) (i : SigInfo) : Over r n (s.emit kind i) := by
  have noted := Aside.emit s kind i
  refine ⟨fun c hc => by rw [State.ctx_of_ctxs noted.ctxs, h.still c hc], ?_, by rw [noted.cmds]; exact h.ended⟩
  rw [State.sig_seq_emit]
  exact Nat.lt_succ_of_lt h.signed

theorem failCmd (h : Over r n s) (q : CmdRef) (st : Status) : Over r n (s.failCmd q st) := by
  have purged := s.failCmd_purged q st
  have marked := h.updCmd q (f := fun z => { z with outcome := worse z.outcome st, ended := true }) fun z => ⟨rfl, fun _ => rfl⟩
  exact marked.congr (congrArg State.ctxs purged.rest :) (congrArg State.sig purged.rest :) (congrArg State.cmds purged.rest :)

/-! Completion (R177) -/

theorem send (h : Over r n s) (m : Msg) : Over r n (s.send m) := by
  obtain ⟨g, o, e⟩ := s.send_frame m
  rw [e]
  exact h.congr rfl rfl rfl

theorem raiseQueue (h : Over r n s) (q : QueueId) : Over r n (s.raiseQueue q) := by
  obtain ⟨o, x, y, e⟩ := s.raiseQueue_frame q
  rw [e]
  exact h.congr rfl rfl rfl

theorem writeStatus (h : Over r n s) (q : QueueId) (p : Packet) (st : Status) (mod r0 r1 : Nat) :
    Over r n (s.writeStatus q p st mod r0 r1) := by
  unfold State.writeStatus
  dsimp only
  split
  · exact ((h.writeHost _ _).setQueue _ _).raiseQueue _
  · exact (h.writeHost _ _).setQueue _ _

theorem replyGen (h : Over r n s) (gen : Nat) (q : QueueId) (p : Packet) (st : Status) (mod r0 r1 : Nat) :
    Over r n (s.replyGen gen q p st mod r0 r1) := by
  unfold State.replyGen
  split
  · exact h.send _
  · exact h.writeStatus _ _ _ _ _ _

theorem writeAt (h : Over r n s) (c : Nat) (a : Addr) (bs : List Byte) : Over r n (s.writeAt c a bs) := by
  cases a with
  | host x => exact h.congr rfl rfl rfl
  | work x => exact h.modCtx c (f := fun y => { y with
      work := Memory.writeBytes y.work x bs, bad := y.bad.filter (fun e => !(x ≤ e.1 && e.1 + 4 ≤ x + bs.length)) }) fun _ => id
  | window sl x => exact h

theorem spoil (h : Over r n s) (c : Cmd) (st : Status) : Over r n (s.spoil c st) := by
  unfold State.spoil
  split
  · exact h
  · split
    · exact h
    · next a m _ => exact (h.writeAt (ctxOf c.ref.q c.pkt) a _).congr rfl rfl rfl

theorem takeHold (h : Over r n s) (op c : Nat) : Over r n (s.takeHold op c) := by
  unfold State.takeHold
  split
  · exact (h.setCtx c (x := { Ctx.reset with st := .opened }) rfl).congr rfl rfl rfl
  · split
    · exact (h.modCtx c (f := fun x => { Ctx.reset with slots := x.slots }) fun _ _ => rfl).congr rfl rfl rfl
    · split
      · exact h.modCtx c fun x hx => (Ctx.swingCmd_advance op x).trans hx
      · exact h

theorem complete (h : Over r n s) (c : Cmd) (st : Status) (r0 r1 : Nat) : Over r n (s.complete c st r0 r1) := by
  unfold State.complete
  split
  · exact h.updCmd _ fun z => ⟨rfl, id⟩
  · dsimp only
    have spoiled : Over r n (if c.merged = [] then s
        else { (if spoils st then s else s.spoil c (s.outcomeOf c st).1) with free := s.free + 1 }) := by
      split
      · exact h
      · split
        · exact h.congr rfl rfl rfl
        · exact (h.spoil c _).congr rfl rfl rfl
    refine Over.replyGen (Over.releaseHeld (Over.dropCmd ?_ _) _) _ _ _ _ _ _ _
    split
    · exact spoiled.takeHold _ _
    · exact spoiled

theorem endPitchCmds (h : Over r n s) (c : Nat) (p : Pitch) (a b d : Status) : Over r n (s.endPitchCmds c p a b d) := by
  unfold State.endPitchCmds
  extract_lets u v
  have shard : Over r n u := by
    dsimp only [u]
    split
    · exact h.complete _ _ _ _
    · exact h
  have commit : Over r n v := by
    dsimp only [v]
    split
    · exact shard.complete _ _ _ _
    · exact shard
  exact State.each_keeps _ (State.each_keeps _ commit fun _ x hx => hx.complete x _ _ _) fun _ x hx => hx.complete x _ _ _

/-! Benching (R233, R234) -/

theorem arrayOut (h : Over r n s) (op : Nat) (f : Work → Work) : Over r n (s.arrayOut op f) := by
  unfold State.arrayOut
  refine State.each_keeps _ (h.mapCmds fun z => ?_) fun t c ht => ?_
  · split <;> exact ⟨rfl, id⟩
  · split
    · exact ht.complete _ _ _ _
    · exact ht

theorem untreat (h : Over r n s) (a : Nat) : Over r n (s.untreat a) :=
  (Over.arrayOut (h.congr (t := { s with
    censusQ := s.censusQ.filter (· ≠ a), refreshQ := s.refreshQ.filter (· ≠ a) }) rfl rfl rfl) _ _).arrayOut _ _

theorem freePages (h : Over r n s) (c gen : Nat) (ys : List Assign) (too : Bool) : Over r n (s.freePages c gen ys too) :=
  State.each_keeps _ (State.each_keeps _ h fun _ k hk => hk.modCrew k _) fun _ y hy => hy.modCrew y.crew _

theorem dropRoles (h : Over r n s) (ys : List Assign) : Over r n (s.dropRoles ys) := by
  refine State.each_keeps _ h fun t y ht => ?_
  split
  · exact ht
  · exact ht.modCrew _ _

theorem abortPitch (h : Over r n s) (c : Nat) (mark : Bool) : Over r n (s.abortPitch c mark) := by
  unfold State.abortPitch
  split
  · exact h
  · next p _ =>
    have stopped := State.each_keeps p.g.assigns (h.freePages c p.g.gen p.g.assigns true)
      (f := fun s y => s.modArr (s.physArr y.crew y.l) (Arr.unpitch y.plane)) fun _ y hy => hy.modArr _ _
    exact (stopped.modCtx c (f := Ctx.abort p mark) fun _ => id).dropRoles _

theorem bench (h : Over r n s) (k cause : Nat) : Over r n (s.bench k cause) := by
  unfold State.bench
  split
  · exact h
  · refine State.each_keeps _ (State.each_keeps _ (State.each_keeps _ ((h.modCrew k _).emit _ _)
      fun t c ht => ?_) fun t m ht => ?_) fun t c ht => ?_
    · split
      · exact ht.failCmd _ _
      · exact ht
    · exact Over.untreat (Over.modArr (ht.mapCmds fun z => Cmd.missArray_keeps _ z) _ _) _
    · split
      · split
        · exact (ht.abortPitch c true).endPitchCmds _ _ _ _ _
        · exact ht
      · exact ht

theorem crewParity (h : Over r n s) (k : Nat) : Over r n (s.crewParity k) := by
  unfold State.crewParity
  dsimp only
  split
  · split
    · exact (h.modCrew k _).bench _ _
    · exact h.modCrew k _
  · exact h.modCrew k _

theorem parityCrew (h : Over r n s) (e : ParityErr) : Over r n (s.parityCrew e) := by
  unfold State.parityCrew
  split
  · exact h.crewParity _
  · exact h

/-- A failed command has ended. -/
theorem of_failCmd {u : State} (still : ∀ c, c < 16 → (u.ctx c).swingCmd = none) (signed : n < u.sig.seq) (st : Status) :
    Over r n (u.failCmd r st) := by
  have marked : Over r n (u.updCmd r (fun z => { z with outcome := worse z.outcome st, ended := true })) := by
    refine ⟨still, signed, fun z hz hr => ?_⟩
    obtain ⟨c, -, rfl⟩ := List.mem_map.1 hz
    by_cases hc : c.ref = r
    · rw [if_pos hc]
    · rw [if_neg hc] at hr
      exact absurd hr hc
  have purged := u.failCmd_purged r st
  exact marked.congr (congrArg State.ctxs purged.rest :) (congrArg State.sig purged.rest :) (congrArg State.cmds purged.rest :)

theorem settle (h : Over r n s) : s.settle = s := State.settle_still h.still

end Over

/-- A parity error has its signature. -/
theorem State.signed_parityNote (s : State) (ctx tag : Option Nat) (e : ParityErr) :
    Signed s (s.parityNote ctx tag e) 0x01 (parityInfo e ctx tag) := by
  unfold State.parityNote
  dsimp only
  refine (State.signed_emit _ _ _).congr ?_ ?_ ?_ <;> split <;> rfl

/-- A parity error ends its command, with a signature, whatever the benching of a crew does besides. -/
theorem State.parityError_found {s : State} (still : ∀ c, c < 16 → (s.ctx c).swingCmd = none) (r : CmdRef) (e : ParityErr) :
    Found s (s.parityError r e) r e ∧ Over r s.sig.seq (s.parityError r e) := by
  unfold State.parityError
  obtain ⟨-, ctxs, seq⟩ := s.parityNote_spec (qCtx r.q) (some r.tag.toNat) e
  have note := s.signed_parityNote (qCtx r.q) (some r.tag.toNat) e
  generalize State.parityNote _ _ _ _ = u at ctxs seq note ⊢
  have ended : Over r s.sig.seq (u.failCmd r .parity) :=
    Over.of_failCmd (fun c hc => by rw [State.ctx_of_ctxs ctxs, still c hc]) (by omega) _
  have sig : (u.failCmd r .parity).sig = u.sig := (congrArg State.sig (u.failCmd_purged r .parity).rest :)
  refine ⟨⟨(ended.parityCrew e).signed, fun hop => ?_⟩, ended.parityCrew e⟩
  unfold State.parityCrew
  rw [hop, if_neg Bool.false_ne_true]
  exact sig.trans note

end Sys2Proof.Machine
end

/-! ## The work of a RUN, and how it ends (R176) -/
section
namespace Sys2Proof.Machine

/-- What a command shows of its end: its name, whether it has ended, and its outcome. -/
def Cmd.verdict (z : Cmd) : CmdRef × Bool × Status := (z.ref, z.ended, z.outcome)

/-- What it shows once the command `r` has ended with a status. -/
def Cmd.verdictAfter (r : CmdRef) (st : Status) (z : Cmd) : CmdRef × Bool × Status :=
  if z.ref = r then (z.ref, true, worse z.outcome st) else (z.ref, z.ended, z.outcome)

/-- Progress of a RUN ends no command. -/
theorem State.verdicts_updRun (s : State) (r : CmdRef) (f : RunWork → RunWork) :
    (s.updRun r f).cmds.map Cmd.verdict = s.cmds.map Cmd.verdict := by
  show (s.cmds.map _).map Cmd.verdict = _
  rw [List.map_map]
  refine List.map_congr_left fun z _ => ?_
  show Cmd.verdict (if z.ref = r then _ else z) = _
  split
  · dsimp only
    split <;> rfl
  · rfl

/-- From `s` to `t` the command `r` has ended with a status, no other command has, and the host's memory and the contexts
stay. -/
structure Fails (s t : State) (r : CmdRef) (st : Status) : Prop where
  verdicts : t.cmds.map Cmd.verdict = s.cmds.map (Cmd.verdictAfter r st)
  host : t.host = s.host
  ctxs : t.ctxs = s.ctxs

theorem Fails.failCmd {s u : State} (verdicts : u.cmds.map Cmd.verdict = s.cmds.map Cmd.verdict) (host : u.host = s.host)
    (ctxs : u.ctxs = s.ctxs) (r : CmdRef) (st : Status) : Fails s (u.failCmd r st) r st := by
  have purged := u.failCmd_purged r st
  have cmds : (u.failCmd r st).cmds
      = (u.updCmd r (fun z => { z with outcome := worse z.outcome st, ended := true })).cmds := (congrArg State.cmds purged.rest :)
  refine ⟨?_, (congrArg State.host purged.rest :).trans host, (congrArg State.ctxs purged.rest :).trans ctxs⟩
  have after (z : Cmd) : Cmd.verdict (if z.ref = r then { z with outcome := worse z.outcome st, ended := true } else z)
      = (fun v : CmdRef × Bool × Status => if v.1 = r then (v.1, true, worse v.2.2 st) else v) z.verdict := by
    show _ = if z.ref = r then _ else _
    split <;> rfl
  calc (u.failCmd r st).cmds.map Cmd.verdict
      = (u.cmds.map Cmd.verdict).map (fun v => if v.1 = r then (v.1, true, worse v.2.2 st) else v) := by
        rw [cmds, State.updCmd, List.map_map, List.map_map]
        exact List.map_congr_left fun z _ => after z
    _ = s.cmds.map (Cmd.verdictAfter r st) := by
        rw [verdicts, List.map_map]
        rfl

theorem Fails.updRun {s t : State} {r : CmdRef} {st : Status} (h : Fails s t r st) (q : CmdRef) (f : RunWork → RunWork) :
    Fails s (t.updRun q f) r st := ⟨(t.verdicts_updRun q f).trans h.verdicts, h.host, h.ctxs⟩

theorem State.sig_failCmd (u : State) (r : CmdRef) (st : Status) : (u.failCmd r st).sig = u.sig :=
  (congrArg State.sig (u.failCmd_purged r st).rest :)

/-- The commands of `t` are those of `s`, but for the progress `v` of the RUN `r`. -/
def Runs (s t : State) (r : CmdRef) (v : RunWork) : Prop := t.cmds = (s.updRun r (fun _ => v)).cmds

theorem Runs.updRun {s t : State} {r : CmdRef} {v : RunWork} (h : Runs s t r v) (f : RunWork → RunWork) :
    Runs s (t.updRun r f) r (f v) := by
  show (t.updRun r f).cmds = _
  rw [State.cmds_updRun_congr h]
  show (s.cmds.map _).map _ = s.cmds.map _
  rw [List.map_map]
  refine List.map_congr_left fun z _ => ?_
  by_cases hr : z.ref = r
  · cases work : z.work <;> simp [hr, work]
  · simp [hr]

theorem Runs.cmd? {s t : State} {r : CmdRef} {v w : RunWork} {x : Cmd} (h : Runs s t r v) (found : s.cmd? r = some x)
    (runs : x.work = .run w) : t.cmd? r = some { x with work := .run v } := by
  have key := State.cmd?_updCmd (f := fun c => match c.work with | .run _ => { c with work := .run v } | _ => c) found
    fun z => by split <;> rfl
  have same : t.cmd? r = (s.updRun r (fun _ => v)).cmd? r := by rw [State.cmd?, h, State.cmd?]
  rw [same]
  refine key.trans ?_
  rw [runs]

/-- The progress of a RUN once the block headers of a tile are compared (R66). -/
def RunWork.compared (t : TileId) (w : RunWork) : RunWork := { w with unchecked := w.unchecked.filter (· ≠ (t.first, t.split)) }

/-- A tile's headers are compared: where no output waits for that, only the progress of the RUN has changed. -/
theorem Runs.headersPassed {s u : State} {r : CmdRef} {v w : RunWork} {x : Cmd} (h : Runs s u r v) (found : s.cmd? r = some x)
    (runs : x.work = .run w) (idle : v.outWait = []) (t : TileId) :
    Runs s (u.headersPassed r t) r (v.compared t)
      ∧ u.headersPassed r t = { u with cmds := (u.headersPassed r t).cmds } := by
  have compared := h.updRun (RunWork.compared t)
  have now := compared.cmd? found runs
  have eq : u.headersPassed r t = if (v.compared t).unchecked.isEmpty
      then (u.updRun r (RunWork.compared t)).updRun r (fun w => { w with outWait := [] }) else u.updRun r (RunWork.compared t) := by
    show (u.updRun r (RunWork.compared t)).flushOut r = _
    unfold State.flushOut
    rw [now]
    dsimp only
    rw [show (v.compared t).outWait = [] from idle]
    rfl
  have emptied : { v.compared t with outWait := [] } = v.compared t := by
    have same : (v.compared t).outWait = [] := idle
    rw [← same]
  rw [eq]
  split
  · have flushed := compared.updRun (fun w => { w with outWait := [] })
    rw [emptied] at flushed
    exact ⟨flushed, rfl⟩
  · exact ⟨compared, rfl⟩

end Sys2Proof.Machine
end

/-! ## A tile enters crew SRAM (R118, R119) -/
section
namespace Sys2Proof.Machine

/-- A vector's slice of a tile, as the crew holds it. -/
def State.tileVec (s : State) (c : Cmd) (w : RunWork) (t : TileId) (ys : List Assign) (v : Nat) : TileVec :=
  { ref := c.ref, gen := c.gen, second := t.second, split := t.split, first := t.first, vec := v, rep := t.rep
    codes := (((s.splitBlocks c w t.split v).flatMap (fun b : Nat × Nat × List Nat => b.2.2)).take (w.layer.rows t.split)
      ++ List.replicate 512 0).take 512
    left := ys.map (fun y => s.physArr y.crew y.l % 17) }

/-- The job that a vector of a tile has on the array of an assignment. -/
def tileJob (c : Cmd) (w : RunWork) (g : Generation) (t : TileId) (v : Nat) (y : Assign) : Job :=
  jobFor c w.layer v (plSlice (g.man.place y.entry)) t

def Crew.addTile (v : TileVec) (x : Crew) : Crew := { x with tiles := x.tiles ++ [v] }
def Arr.addJobs (js : List Job) (x : Arr) : Arr := { x with jobs := x.jobs ++ js }

theorem Arr.addJobs_nil (x : Arr) : x.addJobs [] = x := by rw [Arr.addJobs, List.append_nil]

theorem Arr.addJobs_addJobs (js ks : List Job) (x : Arr) : (x.addJobs js).addJobs ks = x.addJobs (js ++ ks) := by
  simp only [Arr.addJobs, List.append_assoc]

/-- The assignments, of those of a tile, that lie on an array. -/
def State.onArr (s : State) (ys : List Assign) (a : Nat) : List Assign := ys.filter (fun y => s.physArr y.crew y.l == a)

/-- Every array that shares a tile gets a job for a vector. -/
def State.giveJobs (s : State) (ys : List Assign) (f : Assign → Job) : State :=
  s.each ys (fun s y => s.modArr (s.physArr y.crew y.l) (Arr.addJobs [f y]))

theorem State.giveJobs_frame (s : State) (ys : List Assign) (f : Assign → Job) :
    s.giveJobs ys f = { s with arrs := (s.giveJobs ys f).arrs } :=
  State.each_keeps (P := fun t => t = { s with arrs := t.arrs }) ys rfl fun t y h => by
    rw [h]
    rfl

theorem State.arr_giveJobs (s : State) (ys : List Assign) (f : Assign → Job) (a : Nat) :
    (s.giveJobs ys f).arr a = (s.arr a).addJobs ((s.onArr ys a).map f) := by
  induction ys generalizing s with
  | nil => exact (Arr.addJobs_nil _).symm
  | cons y ys ih =>
    have step := ih (s.modArr (s.physArr y.crew y.l) (Arr.addJobs [f y]))
    refine step.trans ?_
    show Arr.addJobs ((s.onArr ys a).map f) _ = _
    by_cases ha : s.physArr y.crew y.l = a
    · have on : s.onArr (y :: ys) a = y :: s.onArr ys a := List.filter_cons_of_pos (by simpa using ha)
      rw [on, ← ha, State.arr_modArr_same, Arr.addJobs_addJobs]
      rfl
    · have off : s.onArr (y :: ys) a = s.onArr ys a := List.filter_cons_of_neg (by simpa using ha)
      rw [off, State.arr_modArr_other _ _ _ _ (Ne.symm ha)]

/-- From `s` to `u` the vectors `vs` of a tile have entered crew SRAM, in their order, with a job on every array that shares
it. -/
structure Placed (s u : State) (c : Cmd) (w : RunWork) (g : Generation) (t : TileId) (ys : List Assign) (vs : List Nat) : Prop where
  rest : u = { s with crews := u.crews, arrs := u.arrs }
  crew : ∀ n, u.crew n = { s.crew n with tiles := (u.crew n).tiles }
  others : ∀ n, n ≠ t.crew → u.crew n = s.crew n
  tiles : (u.crew t.crew).tiles = (s.crew t.crew).tiles ++ vs.map (s.tileVec c w t ys)
  jobs : ∀ a, u.arr a = (s.arr a).addJobs (vs.flatMap (fun v => (s.onArr ys a).map (tileJob c w g t v)))

section
variable {s u v : State} {c : Cmd} {w : RunWork} {g : Generation} {t : TileId} {ys : List Assign} {ms ns : List Nat}

theorem Placed.refl : Placed s s c w g t ys [] :=
  ⟨rfl, fun _ => rfl, fun _ _ => rfl, (List.append_nil _).symm, fun _ => (Arr.addJobs_nil _).symm⟩

theorem Placed.physArr (h : Placed s u c w g t ys ms) (k l : Nat) : u.physArr k l = s.physArr k l := by
  have spare : (u.crew k).spare = (s.crew k).spare := (congrArg Crew.spare (h.crew k) :)
  simp only [State.physArr, spare]

theorem Placed.tileVec (h : Placed s u c w g t ys ms) (n : Nat) : u.tileVec c w t ys n = s.tileVec c w t ys n := by
  have blocks : u.splitBlocks c w t.split n = s.splitBlocks c w t.split n := by
    rw [h.rest]
    rfl
  simp only [State.tileVec, blocks, h.physArr]

theorem Placed.onArr (h : Placed s u c w g t ys ms) (a : Nat) : u.onArr ys a = s.onArr ys a := by
  simp only [State.onArr, h.physArr]

theorem Placed.trans (h : Placed s u c w g t ys ms) (k : Placed u v c w g t ys ns) : Placed s v c w g t ys (ms ++ ns) := by
  refine ⟨?_, fun n => ?_, fun n hn => (k.others n hn).trans (h.others n hn), ?_, fun a => ?_⟩
  · rw [k.rest, h.rest]
  · rw [k.crew n, h.crew n]
  · rw [k.tiles, h.tiles, List.map_append, List.append_assoc, funext h.tileVec]
  · rw [k.jobs, h.jobs, Arr.addJobs_addJobs, List.flatMap_append, h.onArr]

theorem Placed.placeVector (n : Nat) : Placed s (s.placeVector c w g t ys n) c w g t ys [n] := by
  have eq : s.placeVector c w g t ys n
      = (s.modCrew t.crew (Crew.addTile (s.tileVec c w t ys n))).giveJobs ys (tileJob c w g t n) := rfl
  have frame := State.giveJobs_frame (s.modCrew t.crew (Crew.addTile (s.tileVec c w t ys n))) ys (tileJob c w g t n)
  have jobs := State.arr_giveJobs (s.modCrew t.crew (Crew.addTile (s.tileVec c w t ys n))) ys (tileJob c w g t n)
  rw [← eq] at frame jobs
  generalize s.placeVector c w g t ys n = u at frame jobs ⊢
  have crews (m : Nat) : u.crew m = (s.modCrew t.crew (Crew.addTile (s.tileVec c w t ys n))).crew m := by
    rw [frame]
    rfl
  have others (m : Nat) (hm : m ≠ t.crew) : u.crew m = s.crew m := by rw [crews, State.crew_modCrew_other _ _ _ _ hm]
  have own : u.crew t.crew = (s.crew t.crew).addTile (s.tileVec c w t ys n) := by rw [crews, State.crew_modCrew_same]
  have spare (m : Nat) : ((s.modCrew t.crew (Crew.addTile (s.tileVec c w t ys n))).crew m).spare = (s.crew m).spare := by
    rw [← crews]
    by_cases hm : m = t.crew
    · rw [hm, own]
      rfl
    · rw [others m hm]
  refine ⟨by rw [frame]; rfl, fun m => ?_, others, by rw [own]; rfl, fun a => ?_⟩
  · by_cases hm : m = t.crew
    · rw [hm, own]
      rfl
    · rw [others m hm]
  · rw [jobs a, List.flatMap_singleton]
    simp only [State.onArr, State.physArr, spare]
    rfl

theorem Placed.each (ns : List Nat) :
    Placed s (s.each ns (fun s n => s.placeVector c w g t ys n)) c w g t ys ns := by
  induction ns generalizing s with
  | nil => exact Placed.refl
  | cons n ns ih => exact (Placed.placeVector n).trans ih

end

end Sys2Proof.Machine
end

/-! ## A tile leaves the die buffer: taken, or the end of its command (R66, R118, R124) -/
section
namespace Sys2Proof.Machine

section
variable {s : State} {c : Cmd} {w : RunWork} {g : Generation} {t : TileId}

/-- No assignment of a tile meets `b` at its array: the search for one finds none. -/
theorem find?_boundTo_none {ys : List Assign} {b : Bound} (h : ∀ y ∈ ys, s.boundTo c y ≠ b) :
    ys.find? (fun y => s.boundTo c y = b) = none := List.find?_eq_none.2 fun y hy => by simpa using h y hy

/-- Where an assignment of a tile meets `b`, the search finds one that does. -/
theorem find?_boundTo_some {ys : List Assign} {b : Bound} (h : ∃ y ∈ ys, s.boundTo c y = b) :
    ∃ y ∈ ys, ys.find? (fun y => s.boundTo c y = b) = some y := by
  obtain ⟨y, hy, met⟩ := h
  obtain ⟨z, hz⟩ := Option.isSome_iff_exists.1 (List.find?_isSome (p := fun y => decide (s.boundTo c y = b)).2
    ⟨y, hy, by simpa using met⟩)
  exact ⟨z, List.mem_of_find?_eq_some hz, hz⟩

theorem State.takeTile_unbound (h : ∃ y ∈ s.strokeArrs w g t.crew t.split t.rep, s.boundTo c y = .mismatch) :
    ∃ y, s.takeTile c w g t = s.unboundTile c y := by
  obtain ⟨y, -, found⟩ := find?_boundTo_some h
  refine ⟨y, ?_⟩
  unfold State.takeTile
  dsimp only
  rw [found]

theorem State.takeTile_stale (bound : ∀ y ∈ s.strokeArrs w g t.crew t.split t.rep, s.boundTo c y ≠ .mismatch)
    (h : ∃ y ∈ s.strokeArrs w g t.crew t.split t.rep, s.boundTo c y = .stale) :
    ∃ y ∈ s.strokeArrs w g t.crew t.split t.rep, s.takeTile c w g t = s.staleTile c y := by
  obtain ⟨y, hy, found⟩ := find?_boundTo_some h
  refine ⟨y, hy, ?_⟩
  unfold State.takeTile
  dsimp only
  rw [find?_boundTo_none bound, found]

theorem State.takeTile_bound {ys : List Assign} (shared : s.strokeArrs w g t.crew t.split t.rep = ys)
    (bound : ∀ y ∈ ys, s.boundTo c y = .ok) :
    s.takeTile c w g t = if !s.headersOk c w t then s.failCmd c.ref .badParam
      else (s.each ((List.range t.count).map (· + t.first)) (fun u n => u.placeVector c w g t ys n)).headersPassed c.ref t := by
  have met (b : Bound) (hb : b ≠ .ok) : ∀ y ∈ ys, s.boundTo c y ≠ b := fun y hy e => hb (e.symm.trans (bound y hy))
  unfold State.takeTile
  dsimp only
  rw [shared, find?_boundTo_none (met .mismatch (by decide)), find?_boundTo_none (met .stale (by decide))]

/-- The progress of a RUN when a tile has left the die buffer, with the T3 tile that it was cut from (R119). -/
def State.sentTile (s : State) (c : Cmd) (w : RunWork) (g : Generation) (t : TileId) : RunWork :=
  { s.stageT3 c w g t with toSend := w.toSend.erase t }

/-- A tile has left the die buffer, and has not reached its crew. -/
def State.sendTile (s : State) (c : Cmd) (w : RunWork) (g : Generation) (t : TileId) : State :=
  s.updRun c.ref (fun _ => s.sentTile c w g t)

/-- A T3 tile is the bytes of the input vector. -/
theorem State.mem_stageT3 {e : Nat × List Byte} (h : e ∈ (s.stageT3 c w g t).t3) : e ∈ w.t3 ∨ e.2 = s.vectorBytes c w e.1 := by
  obtain h | h := List.mem_append.1 h
  · exact .inl h
  · obtain ⟨v, -, rfl⟩ := List.mem_map.1 h
    exact .inr rfl

/-- The tile has been sent, and the crew has what it took of it; then T3 tiles are released. -/
theorem State.deliverTile_eq : s.deliverTile c w g t
    = ((s.sendTile c w g t).takeTile c (s.sentTile c w g t) g t).dropT3 c.ref
      (s.claimNext (s.sentTile c w g t)) := rfl

/-- A command that fails as its tile arrives: no other has ended, and the signatures are those of the failure. -/
theorem Fails.dropT3 {u v : State} {st : Status} (cmds : u.cmds = (s.updRun c.ref (fun _ => w)).cmds) (host : u.host = s.host)
    (ctxs : u.ctxs = s.ctxs) (eq : v = u.failCmd c.ref st) (n : Nat) :
    Fails s (v.dropT3 c.ref n) c.ref st ∧ (v.dropT3 c.ref n).sig = u.sig := by
  rw [eq]
  refine ⟨Fails.updRun (Fails.failCmd ?_ host ctxs _ _) _ _, State.sig_failCmd u c.ref st⟩
  rw [cmds, State.verdicts_updRun]

theorem State.deliverTile_unbound (h : ∃ y ∈ s.strokeArrs w g t.crew t.split t.rep, s.boundTo c y = .mismatch) :
    Fails s (s.deliverTile c w g t) c.ref .parity ∧ ∃ loc hdr, hdr.length = 32 ∧ Signed s (s.deliverTile c w g t) 0x05 {
      ctx := qCtx c.ref.q, tag := some c.ref.tag.toNat, status := some (statusCode .parity), loc := loc, data := hdr } := by
  obtain ⟨y, eq⟩ := State.takeTile_unbound
    (s := s.sendTile c w g t) (c := c) (w := s.sentTile c w g t) (g := g) (t := t) h
  rw [State.deliverTile_eq, eq]
  unfold State.unboundTile
  dsimp only
  generalize hi : SigInfo.mk _ _ _ _ _ = i
  have noted := Aside.emit { s.sendTile c w g t with free := s.free + 1 } 0x05 i
  obtain ⟨fails, sig⟩ := Fails.dropT3 (s := s) noted.cmds noted.host noted.ctxs rfl (s.claimNext (s.sentTile c w g t)) (st := .parity)
  refine ⟨fails, [crewDie y.crew, y.crew, y.l], (List.range 32).map (fun i => Config.freeByte i s.free), by simp, ?_⟩
  refine sig.trans (Eq.trans (State.signed_emit _ 0x05 i) ?_)
  rw [← hi]
  rfl

theorem State.deliverTile_stale (bound : ∀ y ∈ s.strokeArrs w g t.crew t.split t.rep, s.boundTo c y ≠ .mismatch)
    (h : ∃ y ∈ s.strokeArrs w g t.crew t.split t.rep, s.boundTo c y = .stale) :
    Fails s (s.deliverTile c w g t) c.ref .checkFail
      ∧ ∃ y ∈ s.strokeArrs w g t.crew t.split t.rep, Signed s (s.deliverTile c w g t) 0x06 {
          ctx := qCtx c.ref.q, tag := some c.ref.tag.toNat, status := some (statusCode .checkFail)
          loc := [crewDie y.crew, y.crew, y.l]
          data := leBytes 2 c.gen ++ leBytes 2 (bndGen (s.groundBinding (s.physArr y.crew y.l))) } := by
  obtain ⟨y, hy, eq⟩ := State.takeTile_stale
    (s := s.sendTile c w g t) (c := c) (w := s.sentTile c w g t) (g := g) (t := t) bound h
  rw [State.deliverTile_eq, eq]
  unfold State.staleTile
  dsimp only
  generalize hi : SigInfo.mk _ _ _ _ _ = i
  have noted := Aside.emit (s.sendTile c w g t) 0x06 i
  obtain ⟨fails, sig⟩ := Fails.dropT3 (s := s) noted.cmds noted.host noted.ctxs rfl (s.claimNext (s.sentTile c w g t)) (st := .checkFail)
  refine ⟨fails, y, hy, sig.trans (Eq.trans (State.signed_emit _ 0x06 i) ?_)⟩
  rw [← hi]
  rfl

theorem State.deliverTile_misheaded (bound : ∀ y ∈ s.strokeArrs w g t.crew t.split t.rep, s.boundTo c y = .ok)
    (wrong : s.headersOk c (s.sentTile c w g t) t = false) :
    Fails s (s.deliverTile c w g t) c.ref .badParam ∧ (s.deliverTile c w g t).sig = s.sig := by
  have eq := State.takeTile_bound
    (s := s.sendTile c w g t) (c := c) (w := s.sentTile c w g t) (g := g) (t := t) rfl bound
  rw [show (s.sendTile c w g t).headersOk c (s.sentTile c w g t) t = false from wrong, Bool.not_false, if_pos rfl] at eq
  rw [State.deliverTile_eq]
  exact Fails.dropT3 rfl rfl rfl eq _

/-- How the vectors of a tile enter a crew asks nothing of the commands. -/
theorem Placed.setCmds {u v : State} {ys : List Assign} {vs : List Nat} {l : List Cmd}
    (h : Placed { s with cmds := l } u c w g t ys vs) (frame : v = { u with cmds := v.cmds }) :
    Placed s { v with cmds := s.cmds } c w g t ys vs := by
  generalize v.cmds = m at frame
  subst frame
  exact ⟨by rw [h.rest], h.crew, h.others, h.tiles, h.jobs⟩

/-- A tile whose bindings and headers are right is taken: its vectors enter the crew with their jobs, and of the command only
the progress of the RUN changes. -/
theorem State.deliverTile_placed (found : s.cmd? c.ref = some c) (runs : c.work = .run w)
    (bound : ∀ y ∈ s.strokeArrs w g t.crew t.split t.rep, s.boundTo c y = .ok)
    (right : s.headersOk c (s.sentTile c w g t) t = true) (idle : w.outWait = []) :
    Placed s { s.deliverTile c w g t with cmds := s.cmds } c (s.sentTile c w g t) g t
        (s.strokeArrs w g t.crew t.split t.rep) ((List.range t.count).map (· + t.first))
      ∧ ∃ t3, Runs s (s.deliverTile c w g t) c.ref { (s.sentTile c w g t).compared t with t3 := t3 }
        ∧ ∀ e ∈ t3, e ∈ (s.stageT3 c w g t).t3 := by
  have eq := State.takeTile_bound
    (s := s.sendTile c w g t) (c := c) (w := s.sentTile c w g t) (g := g) (t := t)
    (ys := s.strokeArrs w g t.crew t.split t.rep) rfl bound
  rw [show (s.sendTile c w g t).headersOk c (s.sentTile c w g t) t = true from right, Bool.not_true, if_neg Bool.false_ne_true] at eq
  rw [State.deliverTile_eq, eq]
  have placed := Placed.each (s := s.sendTile c w g t) (c := c) (w := s.sentTile c w g t) (g := g)
    (t := t) (ys := s.strokeArrs w g t.crew t.split t.rep) ((List.range t.count).map (· + t.first))
  generalize State.each _ _ _ = u at placed ⊢
  have cmds : Runs s u c.ref (s.sentTile c w g t) := (congrArg State.cmds placed.rest :)
  obtain ⟨compared, frame⟩ := cmds.headersPassed found runs idle t
  have taken : Placed s { u.headersPassed c.ref t with cmds := s.cmds } c (s.sentTile c w g t) g t
      (s.strokeArrs w g t.crew t.split t.rep) ((List.range t.count).map (· + t.first)) := placed.setCmds frame
  exact ⟨taken, _, compared.updRun _, fun e he => (List.mem_filter.1 he).1⟩

end

end Sys2Proof.Machine
end

/-! ## The arrival of a tile (R119, R120, R223, R302, R304) -/
section
namespace Sys2Proof.Machine

section
variable {s : State} {r : CmdRef} {k : Fin 256} {x : Cmd} {w : RunWork} {g : Generation} {t : TileId}

/-- A RUN of a generation is in flight, and has a tile to send to crew `k`. -/
structure Sends (s : State) (r : CmdRef) (k : Fin 256) (x : Cmd) (w : RunWork) (g : Generation) (t : TileId) : Prop where
  found : s.cmd? r = some x
  runs : x.work = .run w
  gen : s.runGen x = some g
  next : w.toSend.find? (fun t => t.crew == k.val) = some t

theorem exec_tileArrival_none (found : s.cmd? r = some x) (runs : x.work = .run w) (gen : s.runGen x = some g)
    (none : w.toSend.find? (fun t => t.crew == k.val) = none) (err : Option ParityErr) :
    exec (.tileArrival r k err) s = .next s := by
  show execTileArrival r k err s = _
  unfold execTileArrival
  simp only [found, runs, gen, none]

namespace Sends
variable (h : Sends s r k x w g t)
include h

theorem ref : x.ref = r := by simpa using List.find?_some h.found
theorem crew : t.crew = k.val := by simpa using List.find?_some h.next

/-- A tile that cannot come yet changes nothing. -/
theorem exec_shut (shut : x.ended = true ∨ (s.crew k.val).benched = true ∨ s.dev.st ≠ .active ∨ w.hasInputs t = false
      ∨ s.tileRoom x w g t = false ∨ s.t3Room x w g (t3Need g w t) = false) (err : Option ParityErr) :
    exec (.tileArrival r k err) s = .next s := by
  show execTileArrival r k err s = _
  unfold execTileArrival
  simp only [h.found, h.runs, h.gen, h.next]
  exact if_pos (by simpa [or_assoc] using shut)

end Sends

/-- The tile that a RUN sends can come. -/
structure Comes (s : State) (r : CmdRef) (k : Fin 256) (x : Cmd) (w : RunWork) (g : Generation) (t : TileId) : Prop
    extends Sends s r k x w g t where
  going : x.ended = false
  serves : (s.crew k.val).benched = false
  active : s.dev.st = .active
  inputs : w.hasInputs t = true
  room : s.tileRoom x w g t = true
  room3 : s.t3Room x w g (t3Need g w t) = true

/-- The tokens of the reads of a tile: drawn, or waited for. -/
def State.drawTile (s : State) (x : Cmd) (w : RunWork) (g : Generation) (t : TileId) : State × Bool :=
  s.drawHbm (x.pkt.cls == 2) (sumNat ((s.tileReads x w g t).map (·.2)))

/-- An error found in a read lasts where it was found, and nothing else of the state is changed by that. -/
theorem State.noteReads_cases (s : State) (c : Nat) (rs : List (Nat × Nat)) (e : ParityErr) : s.noteReads c rs e = s
    ∨ ∃ f : Ctx → Ctx, s.noteReads c rs e = s.modCtx c f ∧ ∀ x, (f x).swingCmd = x.swingCmd := by
  unfold State.noteReads
  split
  · exact .inl rfl
  · dsimp only
    cases rangeAt rs _ with
    | none => exact .inl rfl
    | some q =>
      show s.noteWork c q.1 q.2 e = s ∨ ∃ f : Ctx → Ctx, s.noteWork c q.1 q.2 e = s.modCtx c f ∧ ∀ x, (f x).swingCmd = x.swingCmd
      unfold State.noteWork
      split
      · exact .inl rfl
      · exact .inr ⟨_, rfl, fun _ => rfl⟩

theorem State.drawTile_frame (s : State) (x : Cmd) (w : RunWork) (g : Generation) (t : TileId) :
    ∃ gov tel, (s.drawTile x w g t).1 = { s with gov := gov, tel := tel } := by
  unfold State.drawTile
  obtain ⟨gov, tel, e⟩ | ⟨-, gov, e⟩ := s.drawHbm_cases (x.pkt.cls == 2) (sumNat ((s.tileReads x w g t).map (·.2)))
  · exact ⟨gov, tel, by rw [e]⟩
  · exact ⟨gov, s.tel, by rw [e]⟩

/-- An error that the reads of a tile met before does not depend on the tokens. -/
theorem State.readErr_drawTile (s : State) (x : Cmd) (w : RunWork) (g : Generation) (t : TileId) (c : Nat) (rs : List (Nat × Nat)) :
    (s.drawTile x w g t).1.readErr c rs = s.readErr c rs := by
  obtain ⟨gov, tel, e⟩ := s.drawTile_frame x w g t
  rw [e]
  rfl

namespace Comes
variable (h : Comes s r k x w g t)
include h

/-- A tile that can come: its tokens, then the errors met in HBM or in its flits, then the crew. -/
theorem exec_eq (err : Option ParityErr) : exec (.tileArrival r k err) s
    = if !(s.drawTile x w g t).2 then .next (s.drawTile x w g t).1
      else match s.readErr (ctxOf x.ref.q x.pkt) (s.tileReads x w g t), err with
        | some e, _ => .next ((s.drawTile x w g t).1.parityError r e).settle
        | none, some e => .next (((s.drawTile x w g t).1.noteReads (ctxOf x.ref.q x.pkt) (s.tileReads x w g t) e).parityError r e).settle
        | none, none => .next ((s.drawTile x w g t).1.deliverTile x w g t).settle := by
  rw [← s.readErr_drawTile x w g t]
  show execTileArrival r k err s = _
  unfold execTileArrival
  simp only [h.found, h.runs, h.gen, h.next]
  exact if_neg (by simp [h.going, h.serves, h.active, h.inputs, h.room, h.room3])

theorem exec_short (short : (s.drawTile x w g t).2 = false) (err : Option ParityErr) :
    exec (.tileArrival r k err) s = .next (s.drawTile x w g t).1 := by
  rw [h.exec_eq, short]
  rfl

theorem exec_clean (made : (s.drawTile x w g t).2 = true)
    (clean : s.readErr (ctxOf x.ref.q x.pkt) (s.tileReads x w g t) = none) :
    exec (.tileArrival r k none) s = .next ((s.drawTile x w g t).1.deliverTile x w g t).settle := by
  rw [h.exec_eq, made, clean]
  rfl

/-- An error met ends the command: one met before in HBM, else one met now, which may last in HBM. -/
theorem exec_error (still : ∀ c, c < 16 → (s.ctx c).swingCmd = none) (made : (s.drawTile x w g t).2 = true) {e : ParityErr}
    {err : Option ParityErr} (met : (s.readErr (ctxOf x.ref.q x.pkt) (s.tileReads x w g t)).or err = some e) :
    ∃ u : State, exec (.tileArrival r k err) s = .next (u.parityError r e).settle
      ∧ u.sig = s.sig ∧ u.dev = s.dev ∧ u.env = s.env ∧ ∀ c, c < 16 → (u.ctx c).swingCmd = none := by
  obtain ⟨gov, tel, drawn⟩ := s.drawTile_frame x w g t
  rw [h.exec_eq, made, drawn]
  cases before : s.readErr (ctxOf x.ref.q x.pkt) (s.tileReads x w g t) with
  | some e' =>
    rw [before, Option.some_or, Option.some.injEq] at met
    subst met
    exact ⟨_, rfl, rfl, rfl, rfl, still⟩
  | none =>
    rw [before, Option.none_or] at met
    subst met
    refine ⟨_, rfl, ?_⟩
    obtain eq | ⟨f, eq, keeps⟩ := State.noteReads_cases { s with gov := gov, tel := tel } (ctxOf x.ref.q x.pkt) (s.tileReads x w g t) e
    · rw [eq]
      exact ⟨rfl, rfl, rfl, still⟩
    · rw [eq]
      refine ⟨rfl, rfl, rfl, fun c hc => ?_⟩
      by_cases own : c = ctxOf x.ref.q x.pkt
      · rw [← own, State.ctx_modCtx_same, keeps]
        exact still c hc
      · rw [State.ctx_modCtx_other _ _ _ _ own]
        exact still c hc

end Comes

end

/-- Settles O52, outcome by outcome. -/
theorem tilesReachTheirCrew : Obligations.TilesReachTheirCrew := by
  unfold Obligations.TilesReachTheirCrew
  intro s r k x w g still found runs gen
  refine ⟨exec_tileArrival_none found runs gen, fun tl next => ?_⟩
  have sends : Sends s r k x w g tl := ⟨found, runs, gen, next⟩
  refine ⟨sends.exec_shut, fun going serves active inputs room room3 => ?_⟩
  have comes : Comes s r k x w g tl := ⟨sends, going, serves, active, inputs, room, room3⟩
  obtain ⟨gov, tel, drawn⟩ := s.drawTile_frame x w g tl
  obtain rfl := sends.ref
  rw [← sends.crew]
  intro rs d bad v ys codes
  refine ⟨comes.exec_short, fun made clean => ?_, fun made e err met => ?_⟩
  · have ends (same : (State.deliverTile { s with gov := gov, tel := tel } x w g tl).ctxs = s.ctxs) :
        exec (.tileArrival x.ref k none) s = .next (State.deliverTile { s with gov := gov, tel := tel } x w g tl) := by
      rw [comes.exec_clean made clean, drawn, State.settle_still_of_ctxs still same]
    refine ⟨fun bound right idle => ?_, fun mismatch => ?_, fun bound stale => ?_, fun bound wrong => ?_⟩
    · obtain ⟨placed, t3, progress, cut⟩ := State.deliverTile_placed (s := { s with gov := gov, tel := tel }) (g := g)
        found runs bound right idle
      have own : d.1 = { s with gov := gov, tel := tel } := drawn
      refine ⟨_, _, ends (congrArg State.ctxs placed.rest :), progress, rfl, fun e he => State.mem_stageT3 (cut e he),
        placed.tiles, placed.jobs, placed.others, ?_⟩
      rw [own]
      exact congrArg (fun u : State => { u with cmds := (State.deliverTile { s with gov := gov, tel := tel } x w g tl).cmds }) placed.rest
    · obtain ⟨fails, loc, hdr, length, signed⟩ :=
        State.deliverTile_unbound (s := { s with gov := gov, tel := tel }) (c := x) (w := w) (g := g) (t := tl) mismatch
      exact ⟨_, ends fails.ctxs, fails.verdicts, (congrArg Sig.seq signed :), ⟨loc, hdr, length, signed⟩, fails.host⟩
    · obtain ⟨fails, signed⟩ :=
        State.deliverTile_stale (s := { s with gov := gov, tel := tel }) (c := x) (w := w) (g := g) (t := tl) bound stale
      exact ⟨_, ends fails.ctxs, fails.verdicts, signed, fails.host⟩
    · obtain ⟨fails, unsigned⟩ :=
        State.deliverTile_misheaded (s := { s with gov := gov, tel := tel }) (c := x) (w := w) (g := g) (t := tl) bound wrong
      exact ⟨_, ends fails.ctxs, fails.verdicts, unsigned, fails.host⟩
  · obtain ⟨u, step, sig, dev, env, quiet⟩ := comes.exec_error still made met
    obtain ⟨sign, ended⟩ := State.parityError_found quiet x.ref e
    rw [ended.settle] at step
    exact ⟨_, step, sign.congr sig dev env, ended.ended⟩

end Sys2Proof.Machine
end

/-! PROOFS for the family 04_accuracy_drift_calibration: tracking, the trim record, refresh, census and the verify slots. -/

/-! ## A change of many units, each of them once -/
section
namespace Sys2Proof.Machine

/-- Arrays changed one after the other, each of them once and by a step that changes it alone. -/
theorem State.arr_each_own {P : State → Prop} {f : State → Nat → State} {g : Nat → Arr → Arr} (kept : ∀ s a, P s → P (f s a))
    (own : ∀ s a, P s → (f s a).arr a = g a (s.arr a)) (others : ∀ s a b, b ≠ a → (f s a).arr b = s.arr b)
    {l : List Nat} (once : l.Nodup) {s : State} (start : P s) (a : Nat) :
    (s.each l f).arr a = if a ∈ l then g a (s.arr a) else s.arr a := by
  induction l generalizing s with
  | nil => rfl
  | cons k l ih =>
    obtain ⟨new, once⟩ := List.nodup_cons.1 once
    rw [State.each_cons, ih once (kept s k start)]
    by_cases ha : a = k
    · rw [ha, if_neg new, if_pos List.mem_cons_self, own s k start]
    · simp only [others s k a ha, List.mem_cons, ha, false_or]

theorem State.arr_each_modArr (s : State) {l : List Nat} (once : l.Nodup) (f : Nat → Arr → Arr) (a : Nat) :
    (s.each l (fun s k => s.modArr k (f k))).arr a = if a ∈ l then f a (s.arr a) else s.arr a :=
  State.arr_each_own (P := fun _ => True) (f := fun s k => s.modArr k (f k)) (g := f) (fun _ _ => id) (fun _ _ _ => State.arr_modArr_same _ _ _)
    (fun _ _ _ hb => State.arr_modArr_other _ _ _ _ hb) once trivial a

theorem State.crew_each_modCrew (s : State) {l : List Nat} (once : l.Nodup) (f : Nat → Crew → Crew) (n : Nat) :
    (s.each l (fun s k => s.modCrew k (f k))).crew n = if n ∈ l then f n (s.crew n) else s.crew n := by
  induction l generalizing s with
  | nil => rfl
  | cons k l ih =>
    obtain ⟨new, once⟩ := List.nodup_cons.1 once
    rw [State.each_cons, ih _ once]
    by_cases hn : n = k
    · rw [hn, if_neg new, if_pos List.mem_cons_self, State.crew_modCrew_same]
    · simp only [State.crew_modCrew_other _ _ _ _ hn, List.mem_cons, hn, false_or]

theorem State.each_modArr_frame {α : Type} (s : State) (l : List α) (k : α → Nat) (f : α → Arr → Arr) :
    s.each l (fun s x => s.modArr (k x) (f x)) = { s with arrs := (s.each l (fun s x => s.modArr (k x) (f x))).arrs } :=
  State.each_keeps (P := fun t => t = { s with arrs := t.arrs }) l rfl fun t x h => by
    rw [h]
    rfl

theorem State.each_modCrew_frame {α : Type} (s : State) (l : List α) (k : α → Nat) (f : α → Crew → Crew) :
    s.each l (fun s x => s.modCrew (k x) (f x)) = { s with crews := (s.each l (fun s x => s.modCrew (k x) (f x))).crews } :=
  State.each_keeps (P := fun t => t = { s with crews := t.crews }) l rfl fun t x h => by
    rw [h]
    rfl

/-- The keys of a table in its canonical form are distinct. -/
theorem Tbl.keys_nodup {α : Type} [DecidableEq α] {d : Nat → α} {t : Tbl α} (h : Tbl.wf d t) : (t.map (·.1)).Nodup :=
  List.pairwise_map.2 (h.1.imp Nat.ne_of_lt)

theorem Tbl.find?_eq_none_iff {α : Type} {t : Tbl α} {k : Nat} : Tbl.find? t k = none ↔ k ∉ t.map (·.1) := by
  induction t with
  | nil => simp
  | cons e t ih =>
    obtain ⟨j, v⟩ := e
    by_cases h : j = k
    · simp [Tbl.find?, h]
    · simp [Tbl.find?, h, ih, Ne.symm h]

/-- A change of every listed array reaches every array, where it leaves an array after reset as it is. -/
theorem State.arr_eachArr {s : State} (c : Tbl.wf Arr.reset s.arrs) {f : Arr → Arr} {a : Nat}
    (fixed : f (Arr.reset a) = Arr.reset a) : (s.eachArr f).arr a = f (s.arr a) := by
  refine (s.arr_each_modArr (Tbl.keys_nodup c) (fun _ => f) a).trans ?_
  split
  · rfl
  · next unlisted =>
    have blank : s.arr a = Arr.reset a := by rw [State.arr, Tbl.get, Tbl.find?_eq_none_iff.2 unlisted, Option.getD_none]
    rw [blank, fixed]

theorem State.eachArr_frame (s : State) (f : Arr → Arr) : s.eachArr f = { s with arrs := (s.eachArr f).arrs } :=
  s.each_modArr_frame _ id (fun _ => f)

end Sys2Proof.Machine
end

/-! ## A tracking reset (R92, R93, R226) -/
section
namespace Sys2Proof.Machine

/-- From `s` to `t` nothing has changed but the agreement windows of the bow table. -/
def Rewindowed (s t : State) : Prop := t = { s with bowW := t.bowW }

theorem Rewindowed.arrs {s t : State} (h : Rewindowed s t) : t.arrs = s.arrs := (congrArg State.arrs h :)
theorem Rewindowed.arr {s t : State} (h : Rewindowed s t) (a : Nat) : t.arr a = s.arr a := by rw [State.arr, h.arrs, State.arr]

theorem State.bowUpdate_frame (s : State) (touched : Nat → Bool) : Rewindowed s (s.bowUpdate touched) := by
  unfold State.bowUpdate
  refine State.each_keeps (P := Rewindowed s) _ rfl fun t c ht => ?_
  refine State.each_keeps (P := Rewindowed s) _ ht fun t g ht => ?_
  refine State.each_keeps (P := Rewindowed s) _ ht fun t e ht => ?_
  dsimp only
  split
  · rw [Rewindowed, ht]
  · exact ht

theorem State.bowFollow_frame (s old : State) : Rewindowed s (s.bowFollow old) := s.bowUpdate_frame _

/-- A tracking reset of all arrays is one of each. -/
theorem State.arr_trackReset {s : State} (c : Canonical s) (a : Nat) : (s.eachArr Arr.trackReset).arr a = (s.arr a).trackReset :=
  State.arr_eachArr c.arrs rfl

/-- A write of TRK_CTL reaches the configuration, with RESET the arrays, and the agreement windows. -/
theorem State.writeTrkCtl_frame (s : State) (v : Nat) : s.writeTrkCtl v = { s with
    cfg := s.cfg.writeTrkCtl v, arrs := (s.writeTrkCtl v).arrs, bowW := (s.writeTrkCtl v).bowW } := by
  simp only [State.writeTrkCtl]
  split
  · rw [State.bowFollow_frame, State.eachArr_frame]
  · rw [State.bowFollow_frame]

theorem State.arrs_writeTrkCtl (s : State) {v : Nat} (h : bitOf v 2 = false) : (s.writeTrkCtl v).arrs = s.arrs := by
  simp only [State.writeTrkCtl, h, Bool.false_eq_true, if_false]
  rw [State.bowFollow_frame]

theorem State.arr_writeTrkCtl {s : State} (c : Canonical s) {v : Nat} (h : bitOf v 2 = true) (a : Nat) :
    (s.writeTrkCtl v).arr a = (s.arr a).trackReset := by
  simp only [State.writeTrkCtl, h, if_true]
  rw [(State.bowFollow_frame _ _).arr]
  exact State.arr_trackReset (s := { s with cfg := s.cfg.writeTrkCtl v })
    ⟨c.host, c.queues, c.ctxs, c.crews, c.arrs, c.ves, c.ports, c.counters⟩ a

/-- What TRACK_CTL with legal fields does before it is answered. -/
def State.trackCtl (s : State) (p : Packet) : State :=
  let s := if bitOf (p.param 40 1) 0 then s.writeTrkCtl (p.param 32 4) else s
  if bitOf (p.param 40 1) 1 then { s with cfg := s.cfg.writePolicy (p.param 36 4) } else s

/-- TRACK_CTL writes the registers that SEL names, and changes arrays and agreement windows only where it writes TRK_CTL. -/
theorem State.trackCtl_frame (s : State) (p : Packet) :
    (s.trackCtl p).cfg = (let c := if bitOf (p.param 40 1) 0 then s.cfg.writeTrkCtl (p.param 32 4) else s.cfg
      if bitOf (p.param 40 1) 1 then c.writePolicy (p.param 36 4) else c)
    ∧ (bitOf (p.param 40 1) 0 = false → s.trackCtl p = { s with cfg := (s.trackCtl p).cfg })
    ∧ (s.trackCtl p).arrs = (if bitOf (p.param 40 1) 0 then s.writeTrkCtl (p.param 32 4) else s).arrs
    ∧ s.trackCtl p = { s with cfg := (s.trackCtl p).cfg, arrs := (s.trackCtl p).arrs, bowW := (s.trackCtl p).bowW } := by
  have wrote : (if bitOf (p.param 40 1) 0 then s.writeTrkCtl (p.param 32 4) else s) = { s with
      cfg := if bitOf (p.param 40 1) 0 then s.cfg.writeTrkCtl (p.param 32 4) else s.cfg
      arrs := (if bitOf (p.param 40 1) 0 then s.writeTrkCtl (p.param 32 4) else s).arrs
      bowW := (if bitOf (p.param 40 1) 0 then s.writeTrkCtl (p.param 32 4) else s).bowW } := by
    split
    · exact s.writeTrkCtl_frame _
    · rfl
  have unwritten (h : bitOf (p.param 40 1) 0 = false) : (if bitOf (p.param 40 1) 0 then s.writeTrkCtl (p.param 32 4) else s) = s := by
    rw [h]
    rfl
  unfold State.trackCtl
  generalize (if bitOf (p.param 40 1) 0 then s.writeTrkCtl (p.param 32 4) else s) = u at wrote unwritten ⊢
  dsimp only
  by_cases policy : bitOf (p.param 40 1) 1 = true
  · rw [if_pos policy, if_pos policy]
    exact ⟨by rw [wrote], fun h => by rw [unwritten h], rfl, by rw [wrote]⟩
  · rw [if_neg policy, if_neg policy]
    exact ⟨by rw [wrote], fun h => by rw [unwritten h], rfl, by rw [wrote]⟩

theorem effTrackCtl_legal (q : QueueId) {p : Packet} (bare : p.noAddrs = true) (sel : p.param 40 1 < 4)
    (policy : bitOf (p.param 40 1) 1 = true → policyOk (p.param 36 4) = true) (s : State) :
    effTrackCtl q p s = (s.trackCtl p).done q p .ok 0 0 := by
  unfold effTrackCtl
  dsimp only
  rw [if_neg]
  · rfl
  · simpa [bare, sel] using policy

theorem effTrackCtl_illegal (q : QueueId) {p : Packet} (sel : bitOf (p.param 40 1) 1 = true)
    (policy : policyOk (p.param 36 4) = false) (s : State) : effTrackCtl q p s = s.reply q p .badParam 0 0 0 := by
  unfold effTrackCtl
  dsimp only
  rw [if_pos]
  simp [sel, policy]

theorem Canonical.popFetched {s : State} (c : Canonical s) (q : QueueId) : Canonical (s.popFetched q) :=
  (K.modQueue (Keeps.refl s) q _).canonical c

theorem bitOf_or_four (v : Dword) : bitOf (v ||| 4#32).toNat 2 = true := by
  have bit : (v ||| 4#32).getLsbD 2 = true := by simp
  simpa [BitVec.getLsbD, Nat.testBit_eq_decide_div_mod_eq, bitOf] using bit

theorem exec_trackingReset (s : State) (v : Dword) (h : s.barLive = true) :
    exec (.trackingReset v) s = .next (s.writeTrkCtl (v ||| 4#32).toNat) :=
  congrArg Host.Outcome.next (State.barWrite_pf h 0x680000 _)

/-- Settles O12: both ways to a tracking reset write TRK_CTL. -/
theorem trackControlAndReset : Obligations.TrackControlAndReset := by
  unfold Obligations.TrackControlAndReset
  refine ⟨fun s q p present bare sel => ⟨fun policy => ?_, fun hsel policy => ?_⟩, fun s v c live => ?_, fun x => ?_⟩
  · obtain ⟨host, ring, offers⟩ := present
    obtain ⟨cfg, kept, arrs, rest⟩ := (s.popFetched q).trackCtl_frame p
    have host : Memory.wf ((s.popFetched q).trackCtl p).host := by
      rw [rest]
      exact host
    refine ⟨_, (s.popFetched q).trackCtl p,
      congrArg Host.Outcome.next ((State.packetRow_offers offers effTrackCtl).trans (effTrackCtl_legal q bare sel policy _)),
      Answered.done host ring p .ok 0 0, cfg, kept, fun h => ?_, fun h0 h2 a c => ?_, rest⟩
    · rw [arrs]
      split
      · exact State.arrs_writeTrkCtl _ h
      · rfl
    · rw [if_pos h0] at arrs
      rw [State.arr, arrs]
      exact State.arr_writeTrkCtl (c.popFetched q) h2 a
  · obtain ⟨host, ring, offers⟩ := present
    exact ⟨_, congrArg Host.Outcome.next ((State.packetRow_offers offers effTrackCtl).trans (effTrackCtl_illegal q hsel policy _)),
      Answered.reply (m := s.popFetched q) host ring p .badParam 0 0 0⟩
  · have frame := s.writeTrkCtl_frame (v ||| 4#32).toNat
    refine ⟨_, exec_trackingReset s v live, by rw [frame], State.arr_writeTrkCtl c (bitOf_or_four v), ?_⟩
    exact frame.trans (by rw [frame])
  · refine ⟨rfl, rfl, ?_, rfl, rfl, rfl, rfl, rfl, rfl, rfl⟩
    show ((400 : Int) : Rat) / (16 * ((1 : Nat) : Rat)) = 25
    norm_num

end Sys2Proof.Machine
end


/-! ## Arrays queue for refresh or census (R100, R103, R234) -/
section
namespace Sys2Proof.Machine

/-- From `s` to `t` the arrays of a list have joined a queue, but those in treatment already, and no array has left it. -/
structure Queued (queue : State → List Nat) (busy : Arr → Bool) (s t : State) (l : List Nat) : Prop where
  kept : ∀ a ∈ queue s, a ∈ queue t
  all : ∀ a ∈ l, a ∈ queue t ∨ busy (s.arr a) = true
  only : ∀ a ∈ queue t, a ∈ queue s ∨ a ∈ l
  arrs : t.arrs = s.arrs

namespace Queued
variable {queue : State → List Nat} {busy : Arr → Bool} {s t u : State}

theorem trans {l m : List Nat} (h : Queued queue busy s t l) (k : Queued queue busy t u m) :
    Queued queue busy s u (l ++ m) := by
  have same (a : Nat) : t.arr a = s.arr a := by rw [State.arr, h.arrs, State.arr]
  refine ⟨fun a ha => k.kept a (h.kept a ha), fun a ha => ?_, fun a ha => ?_, k.arrs.trans h.arrs⟩
  · obtain ha | ha := List.mem_append.1 ha
    · exact (h.all a ha).imp_left (k.kept a)
    · exact same a ▸ k.all a ha
  · obtain ha | ha := k.only a ha
    · exact (h.only a ha).imp_right (List.mem_append_left m)
    · exact .inr (List.mem_append_right l ha)

theorem each {f : State → Nat → State} (one : ∀ s a, Queued queue busy s (f s a) [a]) (s : State) (l : List Nat) :
    Queued queue busy s (s.each l f) l := by
  induction l generalizing s with
  | nil => exact ⟨fun _ => id, fun a ha => absurd ha List.not_mem_nil, fun _ => .inl, rfl⟩
  | cons a l ih => exact (one s a).trans (ih _)

/-- An array joins the end of its queue where it is neither queued nor in treatment. -/
theorem one {a : Nat} (arrs : t.arrs = s.arrs)
    (joins : queue t = if busy (s.arr a) || (queue s).contains a then queue s else queue s ++ [a]) :
    Queued queue busy s t [a] := by
  by_cases h : busy (s.arr a) = true ∨ a ∈ queue s
  · rw [if_pos (by simpa using h)] at joins
    rw [← joins] at h
    exact ⟨fun b hb => joins ▸ hb, fun b hb => List.mem_singleton.1 hb ▸ h.symm, fun b hb => .inl (joins ▸ hb), arrs⟩
  · rw [if_neg (by simpa using h)] at joins
    refine ⟨fun b hb => ?_, fun b hb => .inl ?_, fun b hb => ?_, arrs⟩
    · rw [joins]
      exact List.mem_append_left _ hb
    · rw [joins]
      exact List.mem_append_right _ hb
    · rw [joins] at hb
      exact List.mem_append.1 hb

end Queued

theorem State.queueRefresh_frame (s : State) (a : Nat) : s.queueRefresh a = { s with
    refreshQ := if (s.arr a).refresh || s.refreshQ.contains a then s.refreshQ else s.refreshQ ++ [a] } := by
  unfold State.queueRefresh
  split <;> rfl

theorem State.queueCensus_frame (s : State) (a : Nat) : s.queueCensus a = { s with
    censusQ := if (s.arr a).census || s.censusQ.contains a then s.censusQ else s.censusQ ++ [a] } := by
  unfold State.queueCensus
  split <;> rfl

theorem State.queued_refresh (s : State) (l : List Nat) : Queued State.refreshQ Arr.refresh s (s.each l State.queueRefresh) l :=
  Queued.each (fun s a => Queued.one (by rw [s.queueRefresh_frame]) (by rw [s.queueRefresh_frame])) s l

theorem State.queued_census (s : State) (l : List Nat) : Queued State.censusQ Arr.census s (s.each l State.queueCensus) l :=
  Queued.each (fun s a => Queued.one (by rw [s.queueCensus_frame]) (by rw [s.queueCensus_frame])) s l

theorem State.each_queueRefresh_frame (s : State) (l : List Nat) :
    s.each l State.queueRefresh = { s with refreshQ := (s.each l State.queueRefresh).refreshQ } :=
  State.each_keeps (P := fun t => t = { s with refreshQ := t.refreshQ }) l rfl fun t a h => by
    rw [t.queueRefresh_frame, h]

theorem State.each_queueCensus_frame (s : State) (l : List Nat) :
    s.each l State.queueCensus = { s with censusQ := (s.each l State.queueCensus).censusQ } :=
  State.each_keeps (P := fun t => t = { s with censusQ := t.censusQ }) l rfl fun t a h => by
    rw [t.queueCensus_frame, h]

theorem State.enrol_each_queueRefresh (s : State) (l : List Nat) (c : Cmd) : (s.each l State.queueRefresh).enrol c
    = { s with cmds := s.cmds ++ [c], seq := s.seq + 1, refreshQ := (s.each l State.queueRefresh).refreshQ } := by
  rw [s.each_queueRefresh_frame l]
  rfl

theorem State.enrol_each_queueCensus (s : State) (l : List Nat) (c : Cmd) : (s.each l State.queueCensus).enrol c
    = { s with cmds := s.cmds ++ [c], seq := s.seq + 1, censusQ := (s.each l State.queueCensus).censusQ } := by
  rw [s.each_queueCensus_frame l]
  rfl

/-- A REFRESH or CENSUS with no array to treat is answered; another one is in flight with those on crews in service. -/
theorem State.treat_spec {s : State} (host : Memory.wf s.host) {q : QueueId} (ring : q.isRing = true) {p : Packet}
    (bare : p.noAddrs = true) (queue : State → Nat → State) :
    let up := (s.treatArrs q p).filter (fun a => s.crewUp (a / 17))
    let st : Status := if up.length = (s.treatArrs q p).length then .ok else .checkFail
    (up = [] → Answered s (s.treat q p queue) q p st 0 0 0)
    ∧ (up ≠ [] → s.treat q p queue
        = (s.each up queue).enrol { mkCmd s q p false (.arrays up up.length) with outcome := st }) := by
  intro up st
  have eq : s.treat q p queue = if up.isEmpty then s.done q p st 0 0
      else (s.each up queue).enrol { mkCmd s q p false (.arrays up up.length) with outcome := st } := by
    unfold State.treat
    rw [bare]
    rfl
  rw [eq]
  refine ⟨fun empty => ?_, fun treats => ?_⟩
  · rw [empty]
    exact Answered.done host ring p st 0 0
  · rw [if_neg (by simpa using treats)]

/-- The arrays that a scheduled census queues (R103). -/
def State.censusDue (s : State) : List Nat :=
  ((List.range 16).filter (fun c => (s.ctx c).st.inService)).flatMap
    (fun c => (s.groundArrs c).filter (fun a => s.crewUp (a / 17)))

theorem State.mem_censusDue {s : State} {a : Nat} : a ∈ s.censusDue ↔
    s.crewUp (a / 17) = true ∧ ∃ c, c < 16 ∧ (s.ctx c).st.inService = true ∧ a ∈ s.groundArrs c := by
  simp only [State.censusDue, List.mem_flatMap, List.mem_filter, List.mem_range]
  constructor
  · rintro ⟨c, ⟨hc, serves⟩, ha, up⟩
    exact ⟨up, c, hc, serves, ha⟩
  · rintro ⟨up, c, hc, serves, ha⟩
    exact ⟨c, ⟨hc, serves⟩, ha, up⟩

/-- Queueing context by context queues what the contexts held at the start: no queue decides what a context holds. -/
theorem State.each_ground_queueCensus (s : State) (cs : List Nat) :
    s.each cs (fun s c => s.each ((s.groundArrs c).filter (fun a => s.crewUp (a / 17))) State.queueCensus)
      = s.each (cs.flatMap (fun c => (s.groundArrs c).filter (fun a => s.crewUp (a / 17)))) State.queueCensus := by
  induction cs generalizing s with
  | nil => rfl
  | cons c cs ih =>
    have frame := s.each_queueCensus_frame ((s.groundArrs c).filter (fun a => s.crewUp (a / 17)))
    have first : s.each (((s.groundArrs c).filter (fun a => s.crewUp (a / 17)))
          ++ cs.flatMap (fun c => (s.groundArrs c).filter (fun a => s.crewUp (a / 17)))) State.queueCensus
        = (s.each ((s.groundArrs c).filter (fun a => s.crewUp (a / 17))) State.queueCensus).each
          (cs.flatMap (fun c => (s.groundArrs c).filter (fun a => s.crewUp (a / 17)))) State.queueCensus := List.foldl_append
    rw [State.each_cons, ih, List.flatMap_cons, first]
    generalize s.each ((s.groundArrs c).filter (fun a => s.crewUp (a / 17))) State.queueCensus = u at frame ⊢
    have same (d : Nat) : (u.groundArrs d).filter (fun a => u.crewUp (a / 17))
        = (s.groundArrs d).filter (fun a => s.crewUp (a / 17)) := by
      rw [frame]
      rfl
    simp only [same]

theorem exec_scheduledCensusDue_idle {s : State} (h : s.cfg.censusH = 0 ∨ s.env.envSet = false ∨ s.dev.st ≠ .active) :
    exec .scheduledCensusDue s = .next s := if_pos h

theorem exec_scheduledCensusDue_due {s : State} (hours : s.cfg.censusH ≠ 0) (env : s.env.envSet = true)
    (active : s.dev.st = .active) :
    exec .scheduledCensusDue s = .next (s.each s.censusDue State.queueCensus) := by
  refine (if_neg (not_or.2 ⟨hours, by simp [env, active]⟩)).trans ?_
  rw [State.each_ground_queueCensus]
  rfl

theorem CtxState.inService_iff {x : CtxState} : x.inService = true ↔ x = .opened ∨ x = .live := by
  simp [CtxState.inService]

/-- Settles O31: both commands treat alike, each with its queue. -/
theorem refreshAndCensusAreQueued : Obligations.RefreshAndCensusAreQueued := by
  unfold Obligations.RefreshAndCensusAreQueued
  refine ⟨fun s q p ⟨host, ring, offers⟩ bare => ?_, fun s q p ⟨host, ring, offers⟩ bare => ?_, fun s => ⟨?_, fun hours env active => ?_⟩⟩
  · obtain ⟨empty, treats⟩ := State.treat_spec (s := s.popFetched q) host ring bare State.queueRefresh
    have row : exec (.refresh q) s = .next ((s.popFetched q).treat q p State.queueRefresh) :=
      congrArg Host.Outcome.next (State.packetRow_offers offers effRefresh)
    have queued := (s.popFetched q).queued_refresh ((s.treatArrs q p).filter (fun a => s.crewUp (a / 17)))
    exact ⟨fun h => ⟨_, row, empty h⟩, fun h => ⟨_,
      row.trans (congrArg Host.Outcome.next ((treats h).trans (State.enrol_each_queueRefresh _ _ _))), rfl, queued.all, queued.kept, rfl⟩⟩
  · obtain ⟨empty, treats⟩ := State.treat_spec (s := s.popFetched q) host ring bare State.queueCensus
    have row : exec (.census q) s = .next ((s.popFetched q).treat q p State.queueCensus) :=
      congrArg Host.Outcome.next (State.packetRow_offers offers effCensus)
    have queued := (s.popFetched q).queued_census ((s.treatArrs q p).filter (fun a => s.crewUp (a / 17)))
    exact ⟨fun h => ⟨_, row, empty h⟩, fun h => ⟨_,
      row.trans (congrArg Host.Outcome.next ((treats h).trans (State.enrol_each_queueCensus _ _ _))), rfl, queued.all, queued.kept, rfl⟩⟩
  · exact exec_scheduledCensusDue_idle
  · have queued := s.queued_census s.censusDue
    refine ⟨_, exec_scheduledCensusDue_due hours env active, fun c a hc serves ha up => ?_, fun a ha => ?_,
      s.each_queueCensus_frame _⟩
    · exact queued.all a (State.mem_censusDue.2 ⟨up, c, hc, CtxState.inService_iff.2 serves, ha⟩)
    · exact (queued.only a ha).imp_right State.mem_censusDue.1

end Sys2Proof.Machine
end


/-! ## Refresh and census start and end (R97, R100, R102, R103, R106) -/
section
namespace Sys2Proof.Machine

theorem State.arrs_replyGen (s : State) (gen : Nat) (q : QueueId) (p : Packet) (st : Status) (mod r0 r1 : Nat) :
    (s.replyGen gen q p st mod r0 r1).arrs = s.arrs := by
  unfold State.replyGen
  split
  · obtain ⟨g, o, e⟩ := s.send_frame (mkMsg 2 p.ctxcls p.tag.toNat p.epoch.toNat gen s.topAddr s.self 0 0 0 s.self
      (statusEntry p st mod 0 r0 r1 false))
    rw [e]
  · unfold State.writeStatus
    dsimp only
    split
    · obtain ⟨o, x, y, e⟩ := State.raiseQueue_frame _ q
      rw [e]
      rfl
    · rfl

theorem State.arrs_spoil (s : State) (c : Cmd) (st : Status) : (s.spoil c st).arrs = s.arrs := by
  unfold State.spoil
  split
  · rfl
  · split
    · rfl
    · next a n _ => cases a <;> rfl

/-- The completion of a command changes no array. -/
theorem State.arrs_complete (s : State) (c : Cmd) (st : Status) (r0 r1 : Nat) : (s.complete c st r0 r1).arrs = s.arrs := by
  unfold State.complete
  split
  · rfl
  · dsimp only
    rw [State.arrs_replyGen]
    show State.arrs (if _ then State.takeHold _ _ _ else _) = _
    have spoiled : (if c.merged = [] then s
        else { (if spoils st then s else s.spoil c (s.outcomeOf c st).1) with free := s.free + 1 }).arrs = s.arrs := by
      split
      · rfl
      · split
        · rfl
        · exact s.arrs_spoil c _
    split
    · obtain ⟨⟨x, y, e⟩, -⟩ := State.takeHold_frame (if c.merged = [] then s
        else { (if spoils st then s else s.spoil c (s.outcomeOf c st).1) with free := s.free + 1 }) c.pkt.opcode
          (ctxOf c.ref.q c.pkt)
      rw [e]
      exact spoiled
    · exact spoiled

theorem State.arrs_arrayDone (s : State) (op a : Nat) : (s.arrayDone op a).arrs = s.arrs := by
  unfold State.arrayDone State.arrayOut
  refine State.each_keeps (P := fun t => t.arrs = s.arrs) _ rfl fun t c ht => ?_
  split
  · exact (t.arrs_complete _ _ _ _).trans ht
  · exact ht

theorem State.arr_arrayDone (s : State) (op a b : Nat) : (s.arrayDone op a).arr b = s.arr b := by
  rw [State.arr, s.arrs_arrayDone, State.arr]

/-- A REFRESH or CENSUS that has treated all its arrays. -/
def Cmd.treated (n : Nat) (x : Cmd) : Cmd := { x with work := .arrays [] n }

theorem State.releaseHeld_congr (s : State) {x y : Cmd} (ref : y.ref = x.ref) (pkt : y.pkt = x.pkt)
    (report : y.work.isReport = x.work.isReport) : s.releaseHeld y = s.releaseHeld x := by
  simp only [State.releaseHeld, Msg.serves, ref, pkt, report]

/-- A REFRESH or CENSUS that is alone in flight and waits for one array completes once that array is treated. -/
theorem State.arrayDone_ends {s : State} (host : Memory.wf s.host) {x : Cmd} (cmds : s.cmds = [x]) (lone : x.lone) {op : Nat}
    (opcode : x.pkt.opcode = op) {a n : Nat} (work : x.work = .arrays [a] n) : Ends s (s.arrayDone op a) x x.outcome n 0 := by
  have left : Work.without a x.work = .arrays [] n := by simp [work, Work.without]
  have last : s.arrayDone op a = { s with cmds := [x.treated n] }.complete (x.treated n) x.outcome n 0 := by
    simp only [State.arrayDone, State.arrayOut, cmds, List.map_cons, List.map_nil, opcode, if_true, left]
    rw [List.filter_cons_of_pos (by simpa using opcode)]
    rfl
  have gone : (State.dropCmd { s with cmds := [x.treated n] } (x.treated n).ref).releaseHeld (x.treated n)
      = (s.dropCmd x.ref).releaseHeld x := by
    have dropped : State.dropCmd { s with cmds := [x.treated n] } (x.treated n).ref = s.dropCmd x.ref := by
      simp [State.dropCmd, cmds, Cmd.treated]
    rw [dropped]
    exact State.releaseHeld_congr _ rfl rfl (by rw [work]; rfl)
  have now : (x.treated n).lone := lone
  rw [last, State.complete_lone now, gone]
  exact Answered.reply (m := (s.dropCmd x.ref).releaseHeld x) host lone.1.1 x.pkt x.outcome _ n 0

/-- From `s` to `t` nothing has changed but the crews, array `a`, and what a failure signature reaches. -/
structure Relisted (s t : State) (a : Nat) : Prop where
  rest : t = { s with
    crews := t.crews, arrs := t.arrs, queues := t.queues, sig := t.sig, group := t.group, outs := t.outs, dev := t.dev }
  others : ∀ b, b ≠ a → t.arr b = s.arr b

theorem Relisted.refl (s : State) (a : Nat) : Relisted s s a := ⟨rfl, fun _ _ => rfl⟩

theorem Relisted.trans {s t u : State} {a : Nat} (h : Relisted s t a) (k : Relisted t u a) : Relisted s u a :=
  ⟨by rw [k.rest, h.rest], fun b hb => (k.others b hb).trans (h.others b hb)⟩

theorem Relisted.modCrew (s : State) (n : Nat) (f : Crew → Crew) (a : Nat) : Relisted s (s.modCrew n f) a := ⟨rfl, fun _ _ => rfl⟩

/-- An array is marked, and a signature tells of it. -/
theorem Relisted.mark (s : State) (a : Nat) (f : Arr → Arr) (kind : Nat) (i : SigInfo) :
    Relisted s ((s.modArr a f).emit kind i) a := by
  have aside := (Aside.modArr s a f).trans (Aside.emit (s.modArr a f) kind i)
  refine ⟨aside.rest.trans ?_, fun b hb => ?_⟩
  · rw [aside.crews]
  · rw [State.arr_emit, State.arr_modArr_other _ _ _ _ hb]

theorem Relisted.addPatches (s : State) (a : Nat) (plane cb4 keep : Bool) (new : List (List Byte)) :
    Relisted s (s.addPatches a plane cb4 keep new) a := by
  unfold State.addPatches
  split
  · exact Relisted.refl s a
  · dsimp only
    split
    · exact (Relisted.modCrew s _ _ a).trans (Relisted.mark _ a _ _ _)
    · exact Relisted.modCrew s _ _ a

/-- The result of a census is a patch list, or the mark of an ambiguous one (R102, R106). -/
theorem Relisted.censusResult (s : State) (a : Nat) : Relisted s (s.censusResult a) a := by
  unfold State.censusResult
  dsimp only
  split
  · exact Relisted.refl s a
  · split
    · exact Relisted.addPatches s a _ _ _ _
    · exact Relisted.mark s a _ _ _

theorem Arr.rows_startRefresh (x : Arr) : x.startRefresh.maint.rows = List.range 1024 := by
  simp only [Arr.startRefresh, refreshRows]

def Arr.endRefresh (x : Arr) : Arr := { x with refresh := false }
def Arr.endCensus (x : Arr) : Arr := { x with census := false, maint := { x.maint with censusRow := 0, levels := [] } }

section
variable {s : State} {crew : Fin 256} {slot : Fin 17}

theorem exec_refreshStart_starts (may : s.mayTreat (arrIdx crew.val slot.val) = true)
    (idle : (s.arr (arrIdx crew.val slot.val)).refresh = false)
    (due : s.driftAtThr (arrIdx crew.val slot.val) = true ∨ arrIdx crew.val slot.val ∈ s.refreshQ) :
    exec (.refreshStart crew slot) s = .next ({ s with refreshQ := s.refreshQ.filter (· ≠ arrIdx crew.val slot.val) }.modArr
      (arrIdx crew.val slot.val) Arr.startRefresh) := if_pos (by simpa [may, idle] using due)

theorem exec_refreshStart_idle (not : s.mayTreat (arrIdx crew.val slot.val) = false
      ∨ (s.arr (arrIdx crew.val slot.val)).refresh = true
      ∨ (s.driftAtThr (arrIdx crew.val slot.val) = false ∧ arrIdx crew.val slot.val ∉ s.refreshQ)) :
    exec (.refreshStart crew slot) s = .next s := by
  refine if_neg ?_
  obtain no | busy | ⟨low, unqueued⟩ := not
  · simp [no]
  · simp [busy]
  · simp [low, unqueued]

theorem exec_censusStart_starts (may : s.mayTreat (arrIdx crew.val slot.val) = true)
    (turn : s.nextCensus crew.val = some (arrIdx crew.val slot.val)) :
    exec (.censusStart crew slot) s = .next ({ s with censusQ := s.censusQ.filter (· ≠ arrIdx crew.val slot.val) }.modArr
      (arrIdx crew.val slot.val) Arr.startCensus) := if_pos (by simp [may, turn])

theorem exec_censusStart_idle (not : s.mayTreat (arrIdx crew.val slot.val) = false
      ∨ s.nextCensus crew.val ≠ some (arrIdx crew.val slot.val)) : exec (.censusStart crew slot) s = .next s := by
  refine if_neg ?_
  obtain no | other := not
  · simp [no]
  · simp [other]

theorem exec_refreshComplete_ends (busy : (s.arr (arrIdx crew.val slot.val)).refresh = true)
    (last : (s.arr (arrIdx crew.val slot.val)).maint.rows = []) : exec (.refreshComplete crew slot) s
      = .next ((s.modArr (arrIdx crew.val slot.val) Arr.endRefresh).arrayDone 0x33 (arrIdx crew.val slot.val)) :=
  if_pos (by simp [busy, last])

theorem exec_refreshComplete_open (not : (s.arr (arrIdx crew.val slot.val)).refresh = false
      ∨ (s.arr (arrIdx crew.val slot.val)).maint.rows ≠ []) : exec (.refreshComplete crew slot) s = .next s := by
  refine if_neg ?_
  obtain idle | rows := not
  · simp [idle]
  · simp [rows]

theorem exec_censusComplete_ends (busy : (s.arr (arrIdx crew.val slot.val)).census = true)
    (last : 512 ≤ (s.arr (arrIdx crew.val slot.val)).maint.censusRow)
    (between : (s.arr (arrIdx crew.val slot.val)).midVector = false) : exec (.censusComplete crew slot) s
      = .next (((s.censusResult (arrIdx crew.val slot.val)).modArr (arrIdx crew.val slot.val) Arr.endCensus).arrayDone 0x34
          (arrIdx crew.val slot.val)) := if_pos (by simp [busy, last, between])

theorem exec_censusComplete_open (not : (s.arr (arrIdx crew.val slot.val)).census = false
      ∨ (s.arr (arrIdx crew.val slot.val)).maint.censusRow < 512
      ∨ (s.arr (arrIdx crew.val slot.val)).midVector = true) : exec (.censusComplete crew slot) s = .next s := by
  refine if_neg ?_
  obtain idle | rows | inside := not
  · simp [idle]
  · simp [rows]
  · simp [inside]

end

/-- Settles O32, row by row: starts and ends, each where it may and where it may not. -/
theorem maintenanceStartsAndEnds : Obligations.MaintenanceStartsAndEnds := by
  unfold Obligations.MaintenanceStartsAndEnds
  intro s crew slot a
  refine ⟨fun may idle due => ?_, exec_refreshStart_idle, fun may turn => ?_, exec_censusStart_idle, fun busy last => ?_,
    exec_refreshComplete_open, fun busy last between => ?_, exec_censusComplete_open⟩
  · refine ⟨_, exec_refreshStart_starts may idle due, ?_, ?_, rfl, fun b hb => State.arr_modArr_other _ _ _ _ hb, rfl⟩
    · rw [State.arr_modArr_same]
      rfl
    · rw [State.arr_modArr_same, Arr.rows_startRefresh]
  · refine ⟨_, exec_censusStart_starts may turn, ?_, ?_, rfl, fun b hb => State.arr_modArr_other _ _ _ _ hb, rfl⟩
    · rw [State.arr_modArr_same]
      rfl
    · rw [State.arr_modArr_same]
      rfl
  · refine ⟨_, exec_refreshComplete_ends busy last, ?_, fun b hb => ?_, fun x n host cmds lone opcode work =>
      State.arrayDone_ends (s := s.modArr a Arr.endRefresh) host cmds lone opcode work⟩
    · rw [State.arr_arrayDone, State.arr_modArr_same]
      rfl
    · rw [State.arr_arrayDone, State.arr_modArr_other _ _ _ _ hb]
  · have found := Relisted.censusResult s a
    refine ⟨_, exec_censusComplete_ends busy last between, ?_, ?_, fun b hb => ?_, fun x n c cmds lone opcode work =>
      ⟨(s.censusResult a).modArr a Arr.endCensus, ?_, (congrArg State.host found.rest :), (congrArg State.ctxs found.rest :)⟩⟩
    · rw [State.arr_arrayDone, State.arr_modArr_same]
      rfl
    · rw [State.arr_arrayDone, State.arr_modArr_same]
      rfl
    · rw [State.arr_arrayDone, State.arr_modArr_other _ _ _ _ hb, found.others b hb]
    · have alone : (s.censusResult a).cmds = [x] := (congrArg State.cmds found.rest :).trans cmds
      have host : Memory.wf (s.censusResult a).host := by
        rw [found.rest]
        exact c.host
      exact State.arrayDone_ends (s := (s.censusResult a).modArr a Arr.endCensus) host alone lone opcode work

end Sys2Proof.Machine
end


/-! ## Tracking windows and column fits (R77, R86 to R90, R96) -/
section
namespace Sys2Proof.Machine

/-- From `s` to `t` nothing has changed but array `a`, the agreement windows, and what a failure signature reaches. -/
structure Retracks (s t : State) (a : Nat) : Prop where
  rest : t = { s with arrs := t.arrs, bowW := t.bowW, sig := t.sig, group := t.group, outs := t.outs, dev := t.dev }
  others : ∀ b, b ≠ a → t.arr b = s.arr b

namespace Retracks
variable {s t u : State} {a : Nat}

theorem refl : Retracks s s a := ⟨rfl, fun _ _ => rfl⟩

theorem trans (h : Retracks s t a) (k : Retracks t u a) : Retracks s u a :=
  ⟨by rw [k.rest, h.rest], fun b hb => (k.others b hb).trans (h.others b hb)⟩

theorem setArr (s : State) (a : Nat) (x : Arr) : Retracks s (s.setArr a x) a :=
  ⟨rfl, fun _ hb => State.arr_setArr_other _ _ _ _ hb⟩

theorem modArr (s : State) (a : Nat) (f : Arr → Arr) : Retracks s (s.modArr a f) a := setArr s a _

theorem emit (s : State) (kind : Nat) (i : SigInfo) (a : Nat) : Retracks s (s.emit kind i) a := by
  obtain ⟨x, g, o, d, e, -⟩ := s.emit_frame kind i
  rw [e]
  exact ⟨rfl, fun _ _ => rfl⟩

theorem rewindowed (h : Rewindowed s t) (a : Nat) : Retracks s t a := ⟨by rw [h], fun b _ => h.arr b⟩

variable (h : Retracks s t a)
include h

theorem tNow (b : Nat) : t.tNow b = s.tNow b := by rw [h.rest]; rfl
theorem updating : t.updating = s.updating := by rw [h.rest]; rfl
theorem pFactor (b : Nat) (q : Rat) : t.pFactor b q = s.pFactor b q := by rw [h.rest]; rfl
theorem cmds : t.cmds = s.cmds := (congrArg State.cmds h.rest :)
theorem crews : t.crews = s.crews := (congrArg State.crews h.rest :)
theorem ctxs : t.ctxs = s.ctxs := (congrArg State.ctxs h.rest :)
theorem host : t.host = s.host := (congrArg State.host h.rest :)
theorem queues : t.queues = s.queues := (congrArg State.queues h.rest :)

end Retracks

/-- A coefficient out of range marks its array (R89), and changes nothing else of it. -/
theorem State.trkOut_if (s : State) (a coef : Nat) (v : F32) (col : List Nat) (c : Prop) [Decidable c] :
    Retracks s (if c then s.trkOut a coef v col else s) a
    ∧ (if c then s.trkOut a coef v col else s).arr a = { s.arr a with trkOut := (s.arr a).trkOut || decide c } := by
  by_cases out : c
  · rw [if_pos out, decide_eq_true out, Bool.or_true]
    refine ⟨(Retracks.modArr s a _).trans (Retracks.emit _ _ _ a), ?_⟩
    rw [State.trkOut, State.arr_emit, State.arr_modArr_same]
  · rw [if_neg out, decide_eq_false out, Bool.or_false]
    exact ⟨Retracks.refl, rfl⟩

/-- TRK_DRIFT and LIMIT are written, of the array nothing else. -/
theorem State.setDrift_spec (s : State) (a : Nat) (pct : Rat) : Retracks s (s.setDrift a pct) a
    ∧ (s.setDrift a pct).arr a
      = { s.arr a with drift := BitVec.ofInt 32 (roundEven (pct * 1000)), limit := decide (19 / 10 ≤ absQ pct) } := by
  unfold State.setDrift
  dsimp only
  split
  · refine ⟨(Retracks.modArr s a _).trans (Retracks.emit _ _ _ a), ?_⟩
    rw [State.arr_emit, State.arr_modArr_same]
  · exact ⟨Retracks.modArr s a _, State.arr_modArr_same _ _ _⟩

/-- What the windows joined in `j` do to kappa, DRIFT and the windows carried on (R86, R96). -/
def State.refit (s : State) (a : Nat) (j : Window) : State :=
  if !s.updating then s.modArr a (fun x => { x with carry := Window.reset })
  else if 512 ≤ j.valid ∧ j.sumEE ≠ 0 then
    let fit := j.sumDE / j.sumEE
    let out : Bool := fit < kLo || kHi < fit
    let s := if out then s.trkOut a 0 (f32Rat fit) [] else s
    let k := f32Rat (clampQ kLo kHi fit)
    let s := s.modArr a (fun x => { x with
      kappa := k, tWinSum := j.tSum, tWinCnt := max 1 j.tCnt, carry := Window.reset, kUpdates := x.kUpdates + 1 })
    (s.setDrift a ((f32Q k / s.pFactor a (s.arr a).tWin - 1) * 100)).modArr a Arr.checkConv
  else s.modArr a (fun x => { x with carry := if 4 ≤ j.joined then Window.reset else j })

/-- TRK_SIGMA by the error model (R77). -/
def Arr.resigma (t : Rat) (x : Arr) : Arr := { x with sigma := f32Rat (sqrtQ (sigmaSq t x.driftPct)) }

/-- The oldest window leaves the complete ones. -/
def State.popWindow (s : State) (a : Nat) (rest : List Window) : State := s.setArr a { s.arr a with wins := rest }

theorem State.refit_frozen {s : State} (h : s.updating = false) (a : Nat) (j : Window) :
    s.refit a j = s.modArr a (fun x => { x with carry := Window.reset }) := if_pos (by simp [h])

theorem State.refit_few {s : State} (h : s.updating = true) (a : Nat) {j : Window} (few : j.valid < 512 ∨ j.sumEE = 0) :
    s.refit a j = s.modArr a (fun x => { x with carry := if 4 ≤ j.joined then Window.reset else j }) := by
  have no : ¬ (512 ≤ j.valid ∧ j.sumEE ≠ 0) := fun ⟨enough, moved⟩ => few.elim (Nat.not_lt.2 enough) moved
  exact (if_neg (by simp [h])).trans (if_neg no)

/-- DRIFT in percent after a fit of kappa (R96). -/
def State.fitPct (s : State) (a : Nat) (j : Window) : Rat :=
  (f32Q (f32Rat (clampQ kLo kHi (j.sumDE / j.sumEE)))
    / s.pFactor a ((j.tSum : Rat) / (16 * ((max 1 j.tCnt : Nat) : Rat))) - 1) * 100

/-- Array `x` after a fit of kappa (R86, R89, R90, R96). -/
def Arr.refitted (j : Window) (pct : Rat) (x : Arr) : Arr := Arr.checkConv { x with
  kappa := f32Rat (clampQ kLo kHi (j.sumDE / j.sumEE)), tWinSum := j.tSum, tWinCnt := max 1 j.tCnt
  carry := Window.reset, kUpdates := x.kUpdates + 1
  drift := BitVec.ofInt 32 (roundEven (pct * 1000)), limit := decide (19 / 10 ≤ absQ pct)
  trkOut := x.trkOut || decide (j.sumDE / j.sumEE < kLo ∨ kHi < j.sumDE / j.sumEE) }

theorem State.refit_fit {s : State} (h : s.updating = true) (a : Nat) {j : Window} (enough : 512 ≤ j.valid) (moved : j.sumEE ≠ 0) :
    Retracks s (s.refit a j) a ∧ (s.refit a j).arr a = (s.arr a).refitted j (s.fitPct a j) := by
  unfold State.refit
  rw [if_neg (by simp [h]), if_pos ⟨enough, moved⟩]
  extract_lets fit out u k v
  obtain ⟨marked, own⟩ := s.trkOut_if a 0 (f32Rat fit) [] (out = true)
  change Retracks s u a at marked
  change u.arr a = _ at own
  have fitted : v.arr a = { u.arr a with
      kappa := k, tWinSum := j.tSum, tWinCnt := max 1 j.tCnt, carry := Window.reset, kUpdates := (u.arr a).kUpdates + 1 } :=
    State.arr_modArr_same _ _ _
  have changed : Retracks s v a := marked.trans (Retracks.modArr u a _)
  have pct : (f32Q k / v.pFactor a (v.arr a).tWin - 1) * 100 = s.fitPct a j := by
    rw [changed.pFactor, fitted]
    rfl
  obtain ⟨drifted, drift⟩ := v.setDrift_spec a (s.fitPct a j)
  rw [pct]
  refine ⟨(changed.trans drifted).trans (Retracks.modArr _ a _), ?_⟩
  rw [State.arr_modArr_same, drift, fitted, own]
  simp only [Arr.refitted, out, Bool.or_eq_true, decide_eq_true_eq]
  rfl

/-- Whatever a window does, jobs, strokes, column coefficients and the other windows of its array stay. -/
theorem State.refit_spec (s : State) (a : Nat) (j : Window) : Retracks s (s.refit a j) a
    ∧ ((s.refit a j).arr a).wins = (s.arr a).wins ∧ ((s.refit a j).arr a).jobs = (s.arr a).jobs
    ∧ ((s.refit a j).arr a).shots = (s.arr a).shots ∧ ((s.refit a j).arr a).tTrim = (s.arr a).tTrim := by
  have kept (f : Arr → Arr) (h : s.refit a j = s.modArr a f) (hf : (f (s.arr a)).wins = (s.arr a).wins
      ∧ (f (s.arr a)).jobs = (s.arr a).jobs ∧ (f (s.arr a)).shots = (s.arr a).shots ∧ (f (s.arr a)).tTrim = (s.arr a).tTrim) :
      Retracks s (s.refit a j) a
      ∧ ((s.refit a j).arr a).wins = (s.arr a).wins ∧ ((s.refit a j).arr a).jobs = (s.arr a).jobs
      ∧ ((s.refit a j).arr a).shots = (s.arr a).shots ∧ ((s.refit a j).arr a).tTrim = (s.arr a).tTrim := by
    rw [h, State.arr_modArr_same]
    exact ⟨Retracks.modArr s a f, hf⟩
  cases on : s.updating with
  | false => exact kept _ (State.refit_frozen on a j) ⟨rfl, rfl, rfl, rfl⟩
  | true =>
    by_cases few : j.valid < 512 ∨ j.sumEE = 0
    · exact kept _ (State.refit_few on a few) ⟨rfl, rfl, rfl, rfl⟩
    · obtain ⟨enough, moved⟩ := not_or.1 few
      obtain ⟨changed, own⟩ := State.refit_fit on a (Nat.not_lt.1 enough) moved
      rw [own]
      exact ⟨changed, rfl, rfl, rfl, rfl⟩

/-- A window ends: it leaves the complete ones, kappa is fitted or not, and TRK_SIGMA follows (R77, R86). -/
theorem State.windowEnd_spec {s : State} {a : Nat} {w : Window} {rest : List Window} (h : (s.arr a).wins = w :: rest) :
    Retracks s (s.windowEnd a) a ∧ (s.windowEnd a).arr a
      = (((s.popWindow a rest).refit a ((s.arr a).carry.join w)).arr a).resigma (s.tNow a) := by
  obtain ⟨touched, eq⟩ : ∃ touched, s.windowEnd a = (((s.popWindow a rest).refit a ((s.arr a).carry.join w)).modArr a
      (Arr.resigma (((s.popWindow a rest).refit a ((s.arr a).carry.join w)).tNow a))).bowUpdate touched := by
    unfold State.windowEnd
    dsimp only
    rw [h]
    exact ⟨_, rfl⟩
  obtain ⟨fitted, -⟩ := (s.popWindow a rest).refit_spec a ((s.arr a).carry.join w)
  have changed : Retracks s ((s.popWindow a rest).refit a ((s.arr a).carry.join w)) a := (Retracks.setArr s a _).trans fitted
  rw [eq, changed.tNow]
  generalize (s.popWindow a rest).refit a ((s.arr a).carry.join w) = u at changed ⊢
  have windows := State.bowUpdate_frame (u.modArr a (Arr.resigma (s.tNow a))) touched
  exact ⟨(changed.trans (Retracks.modArr u a _)).trans (Retracks.rewindowed windows a), by rw [windows.arr, State.arr_modArr_same]⟩

theorem exec_kappaUpdate_idle {s : State} {k : Fin 256} {m : Fin 17}
    (h : (s.arr (arrIdx k.val m.val)).wins = [] ∨ s.dev.st = .safe) : exec (.kappaUpdate k m) s = .next s := by
  refine congrArg Host.Outcome.next ?_
  split
  · rfl
  · next up =>
    have empty : (s.arr (arrIdx k.val m.val)).wins = [] := h.resolve_right up
    unfold State.windowEnd
    dsimp only
    rw [empty]

theorem exec_kappaUpdate_up {s : State} (k : Fin 256) (m : Fin 17) (up : s.dev.st ≠ .safe) :
    exec (.kappaUpdate k m) s = .next (s.windowEnd (arrIdx k.val m.val)) := congrArg Host.Outcome.next (if_neg up)

/-- The gain and the offset of a fit (R88). -/
def ColSet.den (c : ColSet) : Rat := (c.n : Rat) * c.sdd - c.sd * c.sd
def ColSet.gain (c : ColSet) : Rat := ((c.n : Rat) * c.sdl - c.sd * c.sl) / c.den
def ColSet.ofs (c : ColSet) : Rat := c.sd / (c.n : Rat) - c.sl / ((c.n : Rat) * c.gain)

/-- Array `x` with column `col` fitted, each coefficient held within its range (R88, R89, R90). -/
def Arr.fitCol (col : Nat) (c : ColSet) (x : Arr) : Arr := Arr.checkConv { x with
  tTrim := x.tTrim.set trimDflt col (BitVec.ofInt 16 (clampInt (-128) 128 (roundEven (c.ofs * 16))),
    BitVec.ofInt 16 (clampInt 31458 34078 (roundEven (c.gain * 32768))))
  cols := x.cols.set colDflt col { (x.cols.get colDflt col) with fitted := true } }

/-- What the 64 reads `c` of a column do to it (R88, R89), and to CONV. -/
def State.refitColumn (s : State) (a col : Nat) (c : ColSet) : State :=
  if !s.updating || c.bad || c.lmax - c.lmin < 64 || c.den = 0 then s
  else if c.gain = 0 then s
  else
    let s := if c.gain < 96 / 100 ∨ 104 / 100 < c.gain then s.trkOut a 1 (f32Rat c.gain) [col] else s
    let s := if c.ofs < -8 ∨ 8 < c.ofs then s.trkOut a 2 (f32Rat c.ofs) [col] else s
    (s.modArr a (Arr.fitCol col c)).bowFollow s

/-- The fit of a column takes its reads out of those that wait. -/
def Arr.popFit (col : Nat) (x : Arr) : Arr := { x with fits := x.fits.eraseP (fun e => e.1 == col) }

theorem State.columnFit_eq {s : State} {a col n : Nat} {c : ColSet}
    (h : (s.arr a).fits.find? (fun e => e.1 == col) = some (n, c)) :
    s.columnFit a col = (s.modArr a (Arr.popFit col)).refitColumn a col c := by
  unfold State.columnFit
  dsimp only
  rw [h]
  rfl

theorem State.refitColumn_idle {s : State} {c : ColSet}
    (h : s.updating = false ∨ c.bad = true ∨ c.lmax - c.lmin < 64 ∨ c.den = 0) (a col : Nat) : s.refitColumn a col c = s := by
  refine if_pos ?_
  obtain h | h | h | h := h <;> simp [h]

theorem State.refitColumn_level {s : State} {c : ColSet} (level : c.gain = 0) (a col : Nat) : s.refitColumn a col c = s := by
  unfold State.refitColumn
  rw [if_pos level, ite_self]

theorem State.refitColumn_fit {s : State} (on : s.updating = true) {c : ColSet} (good : c.bad = false)
    (range : ¬ c.lmax - c.lmin < 64) (line : c.den ≠ 0) (slope : c.gain ≠ 0) (a col : Nat) :
    Retracks s (s.refitColumn a col c) a
    ∧ (s.refitColumn a col c).arr a = Arr.fitCol col c { s.arr a with
        trkOut := ((s.arr a).trkOut || decide (c.gain < 96 / 100 ∨ 104 / 100 < c.gain)) || decide (c.ofs < -8 ∨ 8 < c.ofs) } := by
  have fits : ¬ (!s.updating || c.bad || decide (c.lmax - c.lmin < 64) || decide (c.den = 0)) = true := by
    simp [on, good, range, line]
  unfold State.refitColumn
  rw [if_neg fits, if_neg slope]
  extract_lets u v
  obtain ⟨marked, own⟩ := s.trkOut_if a 1 (f32Rat c.gain) [col] (c.gain < 96 / 100 ∨ 104 / 100 < c.gain)
  obtain ⟨marked2, own2⟩ := u.trkOut_if a 2 (f32Rat c.ofs) [col] (c.ofs < -8 ∨ 8 < c.ofs)
  change Retracks s u a at marked
  change u.arr a = _ at own
  change Retracks u v a at marked2
  change v.arr a = _ at own2
  have windows := State.bowFollow_frame (v.modArr a (Arr.fitCol col c)) v
  refine ⟨((marked.trans marked2).trans (Retracks.modArr v a _)).trans (Retracks.rewindowed windows a), ?_⟩
  rw [windows.arr, State.arr_modArr_same, own2, own]

/-- Whatever the reads of a column do, jobs, kappa, the fits that wait and the other columns of its array stay. -/
theorem State.refitColumn_spec (s : State) (a col : Nat) (c : ColSet) : Retracks s (s.refitColumn a col c) a
    ∧ ((s.refitColumn a col c).arr a).fits = (s.arr a).fits ∧ ((s.refitColumn a col c).arr a).kappa = (s.arr a).kappa
    ∧ ((s.refitColumn a col c).arr a).jobs = (s.arr a).jobs
    ∧ ∀ j, j ≠ col → ((s.refitColumn a col c).arr a).tTrim.get trimDflt j = (s.arr a).tTrim.get trimDflt j := by
  by_cases idle : s.updating = false ∨ c.bad = true ∨ c.lmax - c.lmin < 64 ∨ c.den = 0
  · rw [State.refitColumn_idle idle]
    exact ⟨Retracks.refl, rfl, rfl, rfl, fun _ _ => rfl⟩
  · by_cases level : c.gain = 0
    · rw [State.refitColumn_level level]
      exact ⟨Retracks.refl, rfl, rfl, rfl, fun _ _ => rfl⟩
    · simp only [not_or, Bool.not_eq_false, Bool.not_eq_true] at idle
      obtain ⟨on, good, range, line⟩ := idle
      obtain ⟨changed, own⟩ := State.refitColumn_fit on good range line level a col
      rw [own]
      exact ⟨changed, rfl, rfl, rfl, fun j hj => Tbl.get_set_other _ _ _ _ _ hj⟩

theorem exec_columnTrackFit_idle {s : State} {k : Fin 256} {m : Fin 17} {col : Fin 512}
    (h : (s.arr (arrIdx k.val m.val)).fits.find? (fun e => e.1 == col.val) = none ∨ s.dev.st = .safe) :
    exec (.columnTrackFit k m col) s = .next s := by
  refine congrArg Host.Outcome.next ?_
  split
  · rfl
  · next up =>
    have empty := h.resolve_right up
    unfold State.columnFit
    dsimp only
    rw [empty]

theorem exec_columnTrackFit_fit {s : State} (k : Fin 256) (m : Fin 17) (col : Fin 512) (up : s.dev.st ≠ .safe) :
    exec (.columnTrackFit k m col) s = .next (s.columnFit (arrIdx k.val m.val) col.val) := congrArg Host.Outcome.next (if_neg up)

/-- Settles O51: a window by its refit of kappa, a column by its own. -/
theorem trackingWindowsUpdateKappa : Obligations.TrackingWindowsUpdateKappa := by
  unfold Obligations.TrackingWindowsUpdateKappa
  refine ⟨fun s k m => ⟨exec_kappaUpdate_idle, fun w rest wins up => ?_⟩,
    fun s k m col => ⟨exec_columnTrackFit_idle, fun n c found up => ?_⟩⟩
  · have row := exec_kappaUpdate_up k m up
    generalize arrIdx k.val m.val = a at wins row ⊢
    intro j
    obtain ⟨changed, own⟩ := State.windowEnd_spec wins
    obtain ⟨-, rest', jobs, shots, tTrim⟩ := (s.popWindow a rest).refit_spec a j
    have popped : (s.popWindow a rest).arr a = { s.arr a with wins := rest } := State.arr_setArr_same _ _ _
    rw [popped] at rest' jobs shots tTrim
    refine ⟨_, row, ?_⟩
    rw [own]
    refine ⟨rest', rfl, jobs, shots, tTrim, changed.others, changed.cmds, changed.crews, changed.ctxs, changed.host,
      changed.queues, fun off => ?_, fun on few => ?_, fun on enough moved => ?_⟩
    · rw [State.refit_frozen (s := s.popWindow a rest) off, State.arr_modArr_same, popped]
      exact ⟨rfl, rfl, rfl⟩
    · rw [State.refit_few (s := s.popWindow a rest) on a few, State.arr_modArr_same, popped]
      exact ⟨rfl, rfl, rfl⟩
    · obtain ⟨-, fitted⟩ := State.refit_fit (s := s.popWindow a rest) on a enough moved
      rw [fitted, popped]
      exact ⟨rfl, rfl, rfl, rfl, rfl, rfl, rfl, rfl⟩
  · have row := exec_columnTrackFit_fit (s := s) k m col up
    generalize arrIdx k.val m.val = a at found row ⊢
    rw [State.columnFit_eq found] at row
    intro den gain ofs
    obtain ⟨fitted, fits, kappa, jobs, columns⟩ := (s.modArr a (Arr.popFit col.val)).refitColumn_spec a col.val c
    have changed := (Retracks.modArr s a (Arr.popFit col.val)).trans fitted
    have popped : (s.modArr a (Arr.popFit col.val)).arr a = (s.arr a).popFit col.val := State.arr_modArr_same _ _ _
    rw [popped] at fits kappa jobs columns
    refine ⟨_, row, fits, kappa, jobs, changed.others, columns, changed.cmds, changed.crews, changed.ctxs, changed.host,
      changed.queues, fun idle => ?_, fun on good range line slope => ?_⟩
    · rw [State.refitColumn_idle (s := s.modArr a (Arr.popFit col.val)) idle, popped]
      rfl
    · obtain ⟨-, own⟩ := State.refitColumn_fit (s := s.modArr a (Arr.popFit col.val)) on good range line slope a col.val
      rw [own, popped]
      refine ⟨Tbl.get_set_same _ _ _ _, ?_, rfl⟩
      exact congrArg ColSet.fitted (Tbl.get_set_same _ _ _ _)

end Sys2Proof.Machine
end


/-! ## The trim record reaches crews and arrays (R82, R357) -/
section
namespace Sys2Proof.Machine

theorem arrIdx_slot {k m : Nat} (hm : m < 17) : arrIdx k m / 17 = k ∧ arrIdx k m % 17 = m := by
  unfold arrIdx
  omega

/-- The crews, and the arrays, of the dies that `on` names. -/
def crewsOn (on : Nat → Bool) : List Nat := (List.range 256).filter (fun c => on (crewDie c))
def arrsOn (on : Nat → Bool) : List Nat := (List.range 4352).filter (fun a => on (crewDie (a / 17)))

theorem mem_crewsOn {on : Nat → Bool} {k : Nat} : k ∈ crewsOn on ↔ k < 256 ∧ on (crewDie k) = true := by
  simp only [crewsOn, List.mem_filter, List.mem_range]

theorem mem_arrsOn {on : Nat → Bool} {a : Nat} : a ∈ arrsOn on ↔ a < 4352 ∧ on (crewDie (a / 17)) = true := by
  simp only [arrsOn, List.mem_filter, List.mem_range]

theorem nodup_crewsOn (on : Nat → Bool) : (crewsOn on).Nodup := List.nodup_range.filter _
theorem nodup_arrsOn (on : Nat → Bool) : (arrsOn on).Nodup := List.nodup_range.filter _

/-- Those arrays, crew by crew. -/
def slotsOn (on : Nat → Bool) : List Nat := (crewsOn on).flatMap (fun c => (List.range 17).map (arrIdx c))

theorem mem_slotsOn {on : Nat → Bool} {a : Nat} : a ∈ slotsOn on ↔ a < 4352 ∧ on (crewDie (a / 17)) = true := by
  simp only [slotsOn, List.mem_flatMap, List.mem_map, List.mem_range, mem_crewsOn]
  constructor
  · rintro ⟨c, ⟨hc, die⟩, m, hm, rfl⟩
    obtain ⟨crew, -⟩ := arrIdx_slot (k := c) hm
    rw [crew]
    exact ⟨by unfold arrIdx; omega, die⟩
  · rintro ⟨ha, die⟩
    exact ⟨a / 17, ⟨by omega, die⟩, a % 17, by omega, by unfold arrIdx; omega⟩

theorem nodup_slotsOn (on : Nat → Bool) : (slotsOn on).Nodup := by
  refine List.nodup_flatMap.2 ⟨fun c _ => ?_, ?_⟩
  · exact List.nodup_range.map fun m n h => by unfold arrIdx at h; omega
  · refine (List.nodup_range.filter _).imp fun hne => ?_
    intro a ha hb
    obtain ⟨m, hm, rfl⟩ := List.mem_map.1 ha
    obtain ⟨n, hn, h⟩ := List.mem_map.1 hb
    rw [List.mem_range] at hm hn
    unfold arrIdx at h
    omega

/-- Array `a` with column and DAC trims of a record, and its tracking reset. -/
def Arr.loadTrim (r : List Byte) (a : Nat) (x : Arr) : Arr := { x.trackReset with fTrim := trimCols r a, dac := trimDac r a }

theorem State.loadTrim_eq (s : State) (r : List Byte) (on : Nat → Bool) : s.loadTrim r on
    = (s.each (crewsOn on) (fun s c => s.modCrew c (Crew.setSpare (trimSpare r c)))).each (slotsOn on)
        (fun s a => s.modArr a (Arr.loadTrim r a)) := by
  have flat (u : State) : u.each (slotsOn on) (fun s a => s.modArr a (Arr.loadTrim r a))
      = u.each (crewsOn on) (fun s c => s.each (List.range 17) (fun s m => s.modArr (arrIdx c m) (Arr.loadTrim r (arrIdx c m)))) := by
    simp only [State.each, slotsOn, List.foldl_flatMap, List.foldl_map]
  rw [flat]
  rfl

/-- A record loaded changes crews and arrays of the dies named, and those alone. -/
structure TrimLoaded (s t : State) (r : List Byte) (on : Nat → Bool) : Prop where
  rest : t = { s with crews := t.crews, arrs := t.arrs }
  crewOn : ∀ k, k < 256 → on (crewDie k) = true → t.crew k = (s.crew k).setSpare (trimSpare r k)
  crewOff : ∀ k, on (crewDie k) = false → t.crew k = s.crew k
  arrOn : ∀ a, a < 4352 → on (crewDie (a / 17)) = true → t.arr a = (s.arr a).loadTrim r a
  arrOff : ∀ a, on (crewDie (a / 17)) = false → t.arr a = s.arr a

theorem State.loadTrim_spec (s : State) (r : List Byte) (on : Nat → Bool) : TrimLoaded s (s.loadTrim r on) r on := by
  rw [State.loadTrim_eq]
  have spared := s.each_modCrew_frame (crewsOn on) id (fun c => Crew.setSpare (trimSpare r c))
  have spare := s.crew_each_modCrew (nodup_crewsOn on) (fun c => Crew.setSpare (trimSpare r c))
  generalize crews : s.each (crewsOn on) (fun s c => s.modCrew c (Crew.setSpare (trimSpare r c))) = u at spare ⊢
  rw [show s.each (crewsOn on) (fun s c => s.modCrew (id c) (Crew.setSpare (trimSpare r c))) = u from crews] at spared
  have trimmed := u.each_modArr_frame (slotsOn on) id (fun a => Arr.loadTrim r a)
  have trim := u.arr_each_modArr (nodup_slotsOn on) (fun a => Arr.loadTrim r a)
  generalize arrs : u.each (slotsOn on) (fun s a => s.modArr a (Arr.loadTrim r a)) = t at trim ⊢
  rw [show u.each (slotsOn on) (fun s a => s.modArr (id a) (Arr.loadTrim r a)) = t from arrs] at trimmed
  have crew (n : Nat) : t.crew n = u.crew n := by rw [trimmed]; rfl
  have arr (a : Nat) : u.arr a = s.arr a := by rw [spared]; rfl
  refine ⟨by rw [trimmed, spared], fun k hk die => ?_, fun k die => ?_, fun a ha die => ?_, fun a die => ?_⟩
  · rw [crew, spare, if_pos (mem_crewsOn.2 ⟨hk, die⟩)]
  · rw [crew, spare, if_neg fun h => by simp [(mem_crewsOn.1 h).2] at die]
  · rw [trim, if_pos (mem_slotsOn.2 ⟨ha, die⟩), arr]
  · rw [trim, if_neg fun h => by simp [(mem_slotsOn.1 h).2] at die, arr]

end Sys2Proof.Machine
end

/-! ## Lantern conductances (R82, R83) -/
section
namespace Sys2Proof.Machine

/-- Array `x` with a live conductance of the lantern cell `pk`, whose factory value is `f`. -/
def Arr.takeLantern (pk : Nat) (f live : F16) (x : Arr) : Arr :=
  if f16Finite live = true ∧ absQ (f16Q live - f16Q f) ≤ 1 then { x with lan := x.lan.set zero16 pk live }
  else { x with lan := x.lan.set zero16 pk f, lanBad := true }

theorem Arr.takeLantern_frame (pk : Nat) (f live : F16) (x : Arr) : x.takeLantern pk f live
    = { x with lan := (x.takeLantern pk f live).lan, lanBad := (x.takeLantern pk f live).lanBad } := by
  unfold Arr.takeLantern
  split <;> rfl

theorem Arr.takesLantern (pk : Nat) (f live : F16) (x : Arr) : TakesLantern (x.takeLantern pk f live) pk f live := by
  unfold TakesLantern Arr.takeLantern
  split
  · exact Tbl.get_set_same _ _ _ _
  · exact ⟨Tbl.get_set_same _ _ _ _, rfl⟩

/-- A cell keeps what it took when another cell takes its own. -/
theorem TakesLantern.other {x : Arr} {pk k : Nat} {f live : F16} (h : TakesLantern x pk f live) (hk : pk ≠ k) (f' live' : F16) :
    TakesLantern (x.takeLantern k f' live') pk f live := by
  have cell : (x.takeLantern k f' live').lan.get zero16 pk = x.lan.get zero16 pk := by
    unfold Arr.takeLantern
    split <;> exact Tbl.get_set_other _ _ _ _ _ hk
  have bad : x.lanBad = true → (x.takeLantern k f' live').lanBad = true := by
    unfold Arr.takeLantern
    split
    · exact id
    · exact fun _ => rfl
  unfold TakesLantern at h ⊢
  split at h
  · next ok => rw [if_pos ok, cell, h]
  · next ok => rw [if_neg ok, cell]; exact ⟨h.1, bad h.2⟩

/-- Array `x` with live conductances of the cells listed. -/
def Arr.takeLanterns (f live : Nat → F16) (cells : List Nat) (x : Arr) : Arr :=
  cells.foldl (fun x pk => x.takeLantern pk (f pk) (live pk)) x

theorem Arr.takeLanterns_frame (f live : Nat → F16) (cells : List Nat) (x : Arr) : x.takeLanterns f live cells
    = { x with lan := (x.takeLanterns f live cells).lan, lanBad := (x.takeLanterns f live cells).lanBad } := by
  induction cells generalizing x with
  | nil => rfl
  | cons k cells ih =>
    change (x.takeLantern k (f k) (live k)).takeLanterns f live cells = { x with
      lan := ((x.takeLantern k (f k) (live k)).takeLanterns f live cells).lan
      lanBad := ((x.takeLantern k (f k) (live k)).takeLanterns f live cells).lanBad }
    rw [ih]
    generalize Arr.takeLanterns f live cells _ = y
    rw [Arr.takeLantern_frame]

theorem Arr.takesLanterns (f live : Nat → F16) {cells : List Nat} {pk : Nat} (h : pk ∈ cells) (x : Arr) :
    TakesLantern (x.takeLanterns f live cells) pk (f pk) (live pk) := by
  have kept (cells : List Nat) {y : Arr} (h : TakesLantern y pk (f pk) (live pk)) :
      TakesLantern (y.takeLanterns f live cells) pk (f pk) (live pk) :=
    List.foldlRecOn (motive := fun y => TakesLantern y pk (f pk) (live pk)) cells _ h fun y hy k _ => by
      by_cases e : pk = k
      · rw [e]
        exact Arr.takesLantern _ _ _ _
      · exact hy.other e _ _
  obtain ⟨before, after, rfl⟩ := List.append_of_mem h
  unfold Arr.takeLanterns at kept ⊢
  rw [List.foldl_append, List.foldl_cons]
  exact kept after (Arr.takesLantern _ _ _ _)

theorem Arr.lanBad_takeLanterns {f live : Nat → F16} {cells : List Nat}
    (plausible : ∀ pk ∈ cells, f16Finite (live pk) = true ∧ absQ (f16Q (live pk) - f16Q (f pk)) ≤ 1) (x : Arr) :
    (x.takeLanterns f live cells).lanBad = x.lanBad :=
  List.foldlRecOn (motive := fun y : Arr => y.lanBad = x.lanBad) cells _ rfl fun y hy pk hpk => by
    rw [Arr.takeLantern, if_pos (plausible pk hpk), ← hy]

section
variable {s : State} {r : List Byte} {a pk : Nat} {live : F16}

theorem State.setLantern_plausible (finite : f16Finite live = true)
    (near : absQ (f16Q live - f16Q (trimLantern r a (pk / 8) (pk % 8))) ≤ 1) :
    s.setLantern r a pk live = s.modArr a (fun x => { x with lan := x.lan.set zero16 pk live }) :=
  if_pos (by simp [finite, near])

theorem State.setLantern_implausible
    (off : f16Finite live = false ∨ 1 < absQ (f16Q live - f16Q (trimLantern r a (pk / 8) (pk % 8)))) :
    s.setLantern r a pk live = (s.modArr a (fun x => { x with
        lan := x.lan.set zero16 pk (trimLantern r a (pk / 8) (pk % 8)), lanBad := true })).emit 0x0C
      { loc := s.arrLoc a []
        data := leBytes 1 (pk / 8) ++ leBytes 1 (pk % 8) ++ leBytes 2 live.toNat
          ++ leBytes 2 (trimLantern r a (pk / 8) (pk % 8)).toNat } := by
  refine if_neg ?_
  obtain infinite | far := off
  · simp [infinite]
  · simp [far]

theorem State.setLantern_cases (s : State) (r : List Byte) (a pk : Nat) (live : F16) : s.setLantern r a pk live
      = s.modArr a (Arr.takeLantern pk (trimLantern r a (pk / 8) (pk % 8)) live)
    ∨ ∃ i, s.setLantern r a pk live = (s.modArr a (Arr.takeLantern pk (trimLantern r a (pk / 8) (pk % 8)) live)).emit 0x0C i := by
  by_cases ok : f16Finite live = true ∧ absQ (f16Q live - f16Q (trimLantern r a (pk / 8) (pk % 8))) ≤ 1
  · left
    rw [State.setLantern_plausible ok.1 ok.2]
    unfold Arr.takeLantern
    simp only [if_pos ok]
  · right
    have off : f16Finite live = false ∨ 1 < absQ (f16Q live - f16Q (trimLantern r a (pk / 8) (pk % 8))) := by
      rw [not_and_or, Bool.not_eq_true, not_le] at ok
      exact ok
    rw [State.setLantern_implausible off]
    unfold Arr.takeLantern
    simp only [if_neg ok]
    exact ⟨_, rfl⟩

theorem State.arr_setLantern_same : (s.setLantern r a pk live).arr a
    = (s.arr a).takeLantern pk (trimLantern r a (pk / 8) (pk % 8)) live := by
  obtain e | ⟨i, e⟩ := s.setLantern_cases r a pk live
  · rw [e, State.arr_modArr_same]
  · rw [e, State.arr_emit, State.arr_modArr_same]

theorem State.arr_setLantern_other {b : Nat} (hb : b ≠ a) : (s.setLantern r a pk live).arr b = s.arr b := by
  obtain e | ⟨i, e⟩ := s.setLantern_cases r a pk live
  · rw [e, State.arr_modArr_other _ _ _ _ hb]
  · rw [e, State.arr_emit, State.arr_modArr_other _ _ _ _ hb]

theorem State.setLantern_aside : Aside s (s.setLantern r a pk live) ∧ s.sig.seq ≤ (s.setLantern r a pk live).sig.seq := by
  obtain e | ⟨i, e⟩ := s.setLantern_cases r a pk live
  · rw [e]
    exact ⟨Aside.modArr _ _ _, le_rfl⟩
  · rw [e]
    exact ⟨(Aside.modArr _ _ _).trans (Aside.emit _ _ _), by rw [State.sig_seq_emit]; exact Nat.le_succ _⟩

end

theorem State.lanterns_eq (s : State) (r : List Byte) (on : Nat → Bool) (live : Nat → Nat → F16) : s.lanterns r on live
    = s.each (arrsOn on) (fun s a => s.each (List.range 16) (fun s pk => s.setLantern r a pk (live a pk))) := rfl

/-- The lantern results reach the arrays of the dies named. -/
theorem State.arr_lanterns (s : State) (r : List Byte) (on : Nat → Bool) (live : Nat → Nat → F16) (a : Nat) :
    (s.lanterns r on live).arr a = if a ∈ arrsOn on
      then (s.arr a).takeLanterns (fun pk => trimLantern r a (pk / 8) (pk % 8)) (live a) (List.range 16) else s.arr a := by
  rw [State.lanterns_eq]
  refine State.arr_each_own (P := fun _ => True) (f := fun s a => s.each (List.range 16) (fun s pk => s.setLantern r a pk (live a pk)))
    (g := fun a x => x.takeLanterns (fun pk => trimLantern r a (pk / 8) (pk % 8)) (live a) (List.range 16))
    (fun _ _ => id) (fun s a _ => ?_) (fun s a b hb => ?_) (nodup_arrsOn on) trivial a
  · generalize List.range 16 = cells
    induction cells generalizing s with
    | nil => rfl
    | cons pk cells ih =>
      rw [State.each_cons, ih, State.arr_setLantern_same]
      rfl
  · exact State.each_keeps (P := fun t => t.arr b = s.arr b) _ rfl fun t pk ht => (State.arr_setLantern_other hb).trans ht

theorem State.lanterns_aside (s : State) (r : List Byte) (on : Nat → Bool) (live : Nat → Nat → F16) :
    Aside s (s.lanterns r on live) ∧ s.sig.seq ≤ (s.lanterns r on live).sig.seq := by
  rw [State.lanterns_eq]
  refine State.each_keeps (P := fun t => Aside s t ∧ s.sig.seq ≤ t.sig.seq) _ ⟨Aside.refl s, le_rfl⟩ fun t a ht => ?_
  refine State.each_keeps (P := fun t => Aside s t ∧ s.sig.seq ≤ t.sig.seq) _ ht fun t pk ⟨aside, seq⟩ => ?_
  obtain ⟨aside', seq'⟩ := State.setLantern_aside (s := t) (r := r) (a := a) (pk := pk) (live := live a pk)
  exact ⟨aside.trans aside', seq.trans seq'⟩

/-- Lantern results that are all plausible change arrays alone. -/
theorem State.lanterns_plausible (s : State) {r : List Byte} {on : Nat → Bool} {live : Nat → Nat → F16}
    (plausible : ∀ a pk, a < 4352 → pk < 16 → f16Finite (live a pk) = true
      ∧ absQ (f16Q (live a pk) - f16Q (trimLantern r a (pk / 8) (pk % 8))) ≤ 1) :
    s.lanterns r on live = { s with arrs := (s.lanterns r on live).arrs } := by
  rw [State.lanterns_eq]
  unfold State.each
  refine List.foldlRecOn (motive := fun t : State => t = { s with arrs := t.arrs }) (arrsOn on) _ rfl fun t ht a ha => ?_
  refine List.foldlRecOn (motive := fun t : State => t = { s with arrs := t.arrs }) (List.range 16) _ ht fun t ht pk hpk => ?_
  obtain ⟨finite, near⟩ := plausible a pk (mem_arrsOn.1 ha).1 (List.mem_range.1 hpk)
  rw [State.setLantern_plausible finite near, ht]
  rfl

end Sys2Proof.Machine
end

/-! ## The field appendix, and the end of TRIM_LOAD (R84, R85) -/
section
namespace Sys2Proof.Machine

/-- A table that lists entries where they differ from their defaults. -/
theorem Tbl.get_listed {α : Type} [DecidableEq α] (d v : Nat → α) {n j : Nat} (h : j < n) :
    Tbl.get d ((List.range n).filterMap (fun k => if v k = d k then none else some (k, v k))) j = v j := by
  by_cases dflt : v j = d j
  · rw [Tbl.get, Tbl.find?_none, Option.getD_none, dflt]
    simp only [List.mem_filterMap]
    rintro e ⟨k, -, he⟩ rfl
    split at he
    · cases he
    · next differs => cases he; exact differs dflt
  · have found (l : List Nat) (hj : j ∈ l) :
        Tbl.find? (l.filterMap (fun k => if v k = d k then none else some (k, v k))) j = some (v j) := by
      induction l with
      | nil => simp at hj
      | cons k l ih =>
        by_cases e : k = j
        · subst e
          rw [List.filterMap_cons_some (b := (k, v k)) (by rw [if_neg dflt])]
          exact if_pos rfl
        · have ih := ih (by simpa [Ne.symm e] using hj)
          by_cases hk : v k = d k
          · rwa [List.filterMap_cons_none (by rw [if_pos hk])]
          · rw [List.filterMap_cons_some (b := (k, v k)) (by rw [if_neg hk])]
            exact (if_neg e).trans ih
    rw [Tbl.get, found _ (List.mem_range.2 h), Option.getD_some]

/-- The kappa that an appendix gives, held within its range (R79, R85). -/
def appendixKappa (k : F32) : F32 :=
  match f32Val k with
  | .fin _ q => if q < kLo then f32Rat kLo else if kHi < q then f32Rat kHi else k
  | .inf neg => f32Rat (if neg then kLo else kHi)
  | .nan => 0x3F800000

/-- Offset and gain of a column that an appendix gives, held within their ranges (R79, R85). -/
def appendixColumn (e : List Byte) (j : Nat) : BitVec 16 × BitVec 16 :=
  (BitVec.ofInt 16 (clampInt (-128) 128 (signedOf 16 (field e (38 + 4 * j) 2))),
    BitVec.ofInt 16 (clampInt 31458 34078 (field e (36 + 4 * j) 2)))

/-- Array `a` with the starting values of an appendix, at a temperature in 1/16 degC. -/
def Arr.takeAppendix (ap : List Byte) (a : Nat) (t : Int) (x : Arr) : Arr :=
  { x with
    kappa := appendixKappa (BitVec.ofNat 32 (field (slice ap (80 + 2116 * a) 2116) 0 4))
    tTrim := (List.range 512).filterMap (fun j =>
      if appendixColumn (slice ap (80 + 2116 * a) 2116) j = trimDflt j then none
      else some (j, appendixColumn (slice ap (80 + 2116 * a) 2116) j))
    tWinSum := t, tWinCnt := 1, conv := false }

theorem State.takeAppendix_eq (s : State) (ap : List Byte) (a : Nat) :
    s.takeAppendix ap a = s.modArr a (Arr.takeAppendix ap a (s.tNow a * 16).floor) := rfl

/-- The latest sample of an array's die, in 1/16 degC. -/
def State.sampleOf (s : State) (a : Nat) : Int := (s.tel.temps.getD (1 + crewDie (a / 17)) 0).toInt

theorem State.floor_tNow (s : State) (a : Nat) : (s.tNow a * 16).floor = s.sampleOf a := by
  rw [State.tNow, div_mul_cancel₀ _ (by norm_num)]
  exact Rat.floor_intCast _

theorem takesAppendix {s : State} {ap : List Byte} {a : Nat} {x : Arr} (h : s.arr a = x.takeAppendix ap a (s.sampleOf a)) :
    TakesAppendix s ap a := by
  unfold TakesAppendix
  rw [h]
  refine ⟨fun n q value => ?_, fun j hj => ?_, ?_, rfl⟩
  · show appendixKappa _ = _
    unfold appendixKappa
    rw [value]
    rfl
  · rw [Arr.takeAppendix, Tbl.get_listed trimDflt (appendixColumn (slice ap (80 + 2116 * a) 2116)) hj]
    rfl
  · show ((s.sampleOf a : Int) : Rat) / (16 * ((1 : Nat) : Rat)) = _
    rw [Nat.cast_one, mul_one]
    rfl

/-- What the end of a TRIM_LOAD makes of array `a` of a die that is on. -/
def Arr.finishTrim (r ap : List Byte) (live : Nat → F16) (a : Nat) (t : Int) (good : Bool) (x : Arr) : Arr :=
  let y := x.takeLanterns (fun pk => trimLantern r a (pk / 8) (pk % 8)) live (List.range 16)
  if good then y.takeAppendix ap a t else y

/-- The record in use. -/
def State.keepTrim (s : State) (r : List Byte) : State := { s with env := { s.env with trimLoaded := true, trim := r } }

/-- The record in use, its transfer charged to the pool. -/
def State.holdTrim (s : State) (r : List Byte) : State := (s.keepTrim r).chargeHbm false r.length

theorem State.sampleOf_holdTrim (s : State) (r : List Byte) (a : Nat) : (s.holdTrim r).sampleOf a = s.sampleOf a := by
  unfold State.sampleOf State.holdTrim
  rw [State.chargeHbm_frame]
  rfl

/-- An appendix is there, and passes its check. -/
def appendixGood (r ap : List Byte) : Bool := !ap.isEmpty && appendixOk r ap

theorem appendixGood_iff {r ap : List Byte} : appendixGood r ap = true ↔ ap ≠ [] ∧ appendixOk r ap = true := by
  simp [appendixGood]

/-- The conductances that the end of a TRIM_LOAD takes. -/
def State.lanternSource (s : State) (r ap : List Byte) (live : Nat → Nat → F16) : Nat → Nat → F16 :=
  if appendixGood r ap && s.dev.st ≠ .boathouse then appendixLantern ap else live

/-- The end of a TRIM_LOAD: what an appendix does after the lantern results. -/
def State.appendixStep (s : State) (r ap : List Byte) (on : Nat → Bool) : State :=
  if ap.isEmpty then s else if appendixGood r ap then s.each (arrsOn on) (fun s a => s.takeAppendix ap a) else s.emit 0x0D {}

theorem State.finishTrim_eq (s : State) (r ap : List Byte) (live : Nat → Nat → F16) : s.finishTrim r ap live
    = ((s.holdTrim r).lanterns r (diePowered s.env.env) (s.lanternSource r ap live)).appendixStep r ap (diePowered s.env.env) := rfl

/-- An appendix that passes its check changes each array of the dies on; any other changes none, and one that fails is signed. -/
theorem State.arr_appendixStep (s : State) (r ap : List Byte) (on : Nat → Bool) (a : Nat) : (s.appendixStep r ap on).arr a
    = if a ∈ arrsOn on ∧ appendixGood r ap then (s.arr a).takeAppendix ap a (s.sampleOf a) else s.arr a := by
  unfold State.appendixStep
  split
  · next empty => rw [if_neg (by simp [appendixGood, empty])]
  · split
    · next good =>
      have own := State.arr_each_own (P := fun t : State => t.tel = s.tel) (f := fun s a => s.takeAppendix ap a)
        (g := fun a x => x.takeAppendix ap a (s.sampleOf a)) (fun _ _ h => h)
        (fun t a h => by rw [State.takeAppendix_eq, State.arr_modArr_same, State.floor_tNow, State.sampleOf, h]; rfl)
        (fun _ _ _ hb => State.arr_modArr_other _ _ _ _ hb) (nodup_arrsOn on) (s := s) rfl a
      simp only [good, and_true]
      exact own
    · next bad => rw [if_neg (by simp [bad]), State.arr_emit]

theorem State.appendixStep_aside (s : State) (r ap : List Byte) (on : Nat → Bool) : Aside s (s.appendixStep r ap on) := by
  unfold State.appendixStep
  split
  · exact Aside.refl s
  · split
    · exact State.each_keeps (P := Aside s) _ (Aside.refl s) fun t a ht => ht.trans ⟨rfl⟩
    · exact Aside.emit _ _ _

theorem State.appendixStep_signs {s : State} {r ap : List Byte} {on : Nat → Bool} (there : ap ≠ [])
    (bad : appendixOk r ap = false) : s.appendixStep r ap on = s.emit 0x0D {} := by
  rw [State.appendixStep, if_neg (by simpa using there), if_neg (by simp [appendixGood, bad])]

theorem State.appendixStep_unsigned {s : State} {r ap : List Byte} {on : Nat → Bool} (ok : ap = [] ∨ appendixOk r ap = true) :
    s.appendixStep r ap on = { s with arrs := (s.appendixStep r ap on).arrs } := by
  unfold State.appendixStep
  split
  · rfl
  · next there =>
    have good : appendixGood r ap = true := appendixGood_iff.2 ⟨by simpa using there, ok.resolve_left (by simpa using there)⟩
    rw [if_pos good]
    exact State.each_keeps (P := fun t => t = { s with arrs := t.arrs }) _ rfl fun t a ht => by rw [ht]; rfl

/-- The end of a TRIM_LOAD changes the arrays of the dies on, by record, conductances and appendix, and aside from them what
signatures and the transfer of the record touch. -/
structure TrimFinished (s m : State) (r ap : List Byte) (live : Nat → Nat → F16) : Prop where
  aside : Aside (s.holdTrim r) m
  arrOn : ∀ a, a < 4352 → diePowered s.env.env (crewDie (a / 17)) = true →
    m.arr a = (s.arr a).finishTrim r ap (s.lanternSource r ap live a) a (s.sampleOf a) (appendixGood r ap)
  arrOff : ∀ a, diePowered s.env.env (crewDie (a / 17)) = false → m.arr a = s.arr a
  sample : ∀ a, m.sampleOf a = s.sampleOf a
  signs : ap ≠ [] → appendixOk r ap = false → s.sig.seq < m.sig.seq

theorem Aside.sampleOf {s t : State} (h : Aside s t) (a : Nat) : t.sampleOf a = s.sampleOf a := by
  rw [State.sampleOf, h.rest]
  rfl

theorem State.finishTrim_spec (s : State) (r ap : List Byte) (live : Nat → Nat → F16) :
    TrimFinished s (s.finishTrim r ap live) r ap live := by
  rw [State.finishTrim_eq]
  obtain ⟨lit, seq⟩ := (s.holdTrim r).lanterns_aside r (diePowered s.env.env) (s.lanternSource r ap live)
  have arr (a : Nat) := (s.holdTrim r).arr_lanterns r (diePowered s.env.env) (s.lanternSource r ap live) a
  generalize (s.holdTrim r).lanterns r (diePowered s.env.env) (s.lanternSource r ap live) = u at lit seq arr ⊢
  have aside := lit.trans (u.appendixStep_aside r ap (diePowered s.env.env))
  refine ⟨aside, fun a ha on => ?_, fun a off => ?_, fun a => ?_, fun there bad => ?_⟩
  · have listed := mem_arrsOn.2 ⟨ha, on⟩
    rw [State.arr_appendixStep, arr, if_pos listed, lit.sampleOf, State.sampleOf_holdTrim]
    simp only [listed, true_and]
    rfl
  · have unlisted : a ∉ arrsOn (diePowered s.env.env) := fun h => by simp [(mem_arrsOn.1 h).2] at off
    rw [State.arr_appendixStep, if_neg fun h => unlisted h.1, arr, if_neg unlisted]
    rfl
  · rw [aside.sampleOf, State.sampleOf_holdTrim]
  · rw [State.appendixStep_signs there bad, State.sig_seq_emit]
    exact Nat.lt_succ_of_le seq

end Sys2Proof.Machine
end


/-! ## TRIM_LOAD, the lantern pass and TRIM_READ (R82 to R85) -/
section
namespace Sys2Proof.Machine

section
variable {r ap : List Byte} {live : Nat → F16} {a : Nat} {t : Int} {x : Arr}

theorem Arr.takesLantern_finishTrim {pk : Nat} (hpk : pk < 16) (good : Bool) :
    TakesLantern (x.finishTrim r ap live a t good) pk (trimLantern r a (pk / 8) (pk % 8)) (live pk) := by
  have taken := Arr.takesLanterns (fun pk => trimLantern r a (pk / 8) (pk % 8)) live (List.mem_range.2 hpk) x
  cases good with
  | false => exact taken
  | true => exact taken

theorem Arr.lanBad_finishTrim (plausible : ∀ pk, pk < 16 → f16Finite (live pk) = true
      ∧ absQ (f16Q (live pk) - f16Q (trimLantern r a (pk / 8) (pk % 8))) ≤ 1) (good : Bool) :
    (x.finishTrim r ap live a t good).lanBad = x.lanBad := by
  have kept := Arr.lanBad_takeLanterns (f := fun pk => trimLantern r a (pk / 8) (pk % 8)) (cells := List.range 16)
    (fun pk hpk => plausible pk (List.mem_range.1 hpk)) x
  cases good with
  | false => exact kept
  | true => exact kept

theorem Arr.finishTrim_false : x.finishTrim r ap live a t false = { x with
    lan := (x.finishTrim r ap live a t false).lan, lanBad := (x.finishTrim r ap live a t false).lanBad } :=
  Arr.takeLanterns_frame _ _ _ _

theorem Arr.finishTrim_true : x.finishTrim r ap live a t true = (x.finishTrim r ap live a t false).takeAppendix ap a t := by
  simp only [Arr.finishTrim, if_true, Bool.false_eq_true, if_false]

theorem Arr.takeAppendix_frame (ap : List Byte) (a : Nat) (t : Int) (x : Arr) : x.takeAppendix ap a t = { x with
    kappa := (x.takeAppendix ap a t).kappa, tTrim := (x.takeAppendix ap a t).tTrim
    tWinSum := (x.takeAppendix ap a t).tWinSum, tWinCnt := (x.takeAppendix ap a t).tWinCnt, conv := false } := by
  simp only [Arr.takeAppendix]

theorem Arr.finishTrim_true_frame : x.finishTrim r ap live a t true = { x with
    lan := (x.finishTrim r ap live a t true).lan, lanBad := (x.finishTrim r ap live a t true).lanBad
    kappa := (x.finishTrim r ap live a t true).kappa, tTrim := (x.finishTrim r ap live a t true).tTrim
    tWinSum := (x.finishTrim r ap live a t true).tWinSum, tWinCnt := (x.finishTrim r ap live a t true).tWinCnt
    conv := false } := by
  rw [Arr.finishTrim_true]
  have lit := Arr.finishTrim_false (x := x) (r := r) (ap := ap) (live := live) (a := a) (t := t)
  generalize x.finishTrim r ap live a t false = y at lit
  have tracked := Arr.takeAppendix_frame ap a t y
  generalize y.takeAppendix ap a t = z at tracked
  rw [tracked, lit]

end

section
variable {s : State} {r ap : List Byte} {live : Nat → Nat → F16}

theorem State.lanternSource_appendix (good : ap ≠ [] ∧ appendixOk r ap = true) (st : s.dev.st ≠ .boathouse) :
    s.lanternSource r ap live = appendixLantern ap := if_pos (by simp [appendixGood_iff.2 good, st])

theorem State.lanternSource_live (other : ¬(ap ≠ [] ∧ appendixOk r ap = true) ∨ s.dev.st = .boathouse) :
    s.lanternSource r ap live = live := by
  refine if_neg ?_
  rw [← appendixGood_iff] at other
  obtain bad | st := other
  · simp [bad]
  · simp [st]

end

/-- The lantern conductances that a pass measures: the mean referred to 25 degC, for a cell not listed the factory value. -/
def State.passMeans (s : State) (r : List Byte) (means : List (Nat × F16)) (a pk : Nat) : F16 :=
  match means.find? (fun e => e.1 == 16 * a + pk) with
  | some (_, m) => s.referred a m
  | none => trimLantern r a (pk / 8) (pk % 8)

theorem State.passMeans_listed {s : State} {r : List Byte} {means : List (Nat × F16)} {a pk n : Nat} {v : F16}
    (h : means.find? (fun e => e.1 == 16 * a + pk) = some (n, v)) : s.passMeans r means a pk = s.referred a v := by
  rw [State.passMeans, h]

theorem State.passMeans_unlisted {s : State} {r : List Byte} {means : List (Nat × F16)} {a pk : Nat}
    (h : means.find? (fun e => e.1 == 16 * a + pk) = none) : s.passMeans r means a pk = trimLantern r a (pk / 8) (pk % 8) := by
  rw [State.passMeans, h]

theorem TakesLantern.lan_factory {x : Arr} {pk : Nat} {f : F16} (h : TakesLantern x pk f f) : x.lan.get zero16 pk = f := by
  unfold TakesLantern at h
  split at h
  · exact h
  · exact h.1

/-- The end of the lantern pass, by the checks in their order. -/
theorem exec_lanternPassComplete {s : State} (means : List (Nat × F16)) {x : Cmd} {r ap : List Byte}
    (found : s.cmds.find? (fun c => match c.work with | .trim _ _ => true | _ => false) = some x) (work : x.work = .trim r ap) :
    exec (.lanternPassComplete means) s = if s.gov.owedWr ≠ 0 then .next s else if !s.hbmOpen false then .next (s.hbmWait false)
      else .next (((s.keepTrim r).finishTrim r ap ((s.keepTrim r).passMeans r means)).complete x .ok 0 0) := by
  show execLanternPassComplete means s = _
  unfold execLanternPassComplete
  split
  · next h => cases h.symm.trans found
  · next c h =>
    cases Option.some.inj (h.symm.trans found)
    rw [work]
    rfl

theorem exec_lanternPassComplete_idle {s : State} (means : List (Nat × F16)) (idle : ∀ c ∈ s.cmds, ∀ r ap, c.work ≠ .trim r ap) :
    exec (.lanternPassComplete means) s = .next s := by
  show execLanternPassComplete means s = _
  unfold execLanternPassComplete
  split
  · rfl
  · next c h =>
    have found := List.find?_some h
    split at found
    · next r ap work => exact absurd work (idle c (List.mem_of_find?_eq_some h) r ap)
    · cases found

theorem effTrimRead_short (q : QueueId) {p : Packet} {a : Nat} {s : State} (host : p.hostResult = some a)
    (short : p.length < trimLen + appendixLen) : effTrimRead q p s = s.reply q p .badParam 0 0 0 := by
  unfold effTrimRead
  rw [host]
  exact if_pos short

theorem effTrimRead_unloaded (q : QueueId) {p : Packet} {a : Nat} {s : State} (host : p.hostResult = some a)
    (room : trimLen + appendixLen ≤ p.length) (unloaded : s.env.trimLoaded = false) :
    effTrimRead q p s = s.reply q p .state 0 0 0 := by
  unfold effTrimRead
  rw [host]
  exact (if_neg (Nat.not_lt.2 room)).trans (if_pos (by rw [unloaded]; rfl))

theorem effTrimRead_loaded (q : QueueId) {p : Packet} {a : Nat} {s : State} (host : p.hostResult = some a)
    (room : trimLen + appendixLen ≤ p.length) (loaded : s.env.trimLoaded = true) :
    effTrimRead q p s = ((s.chargeHbm false s.env.trim.length).writeHost a (s.env.trim ++ s.appendix s.env.trim)).done q p .ok
      (s.env.trim ++ s.appendix s.env.trim).length 0 := by
  unfold effTrimRead
  rw [host]
  exact (if_neg (Nat.not_lt.2 room)).trans (if_neg (by rw [loaded]; exact Bool.false_ne_true))

/-- Settles O30: what each cell takes is a fact of its array alone. -/
theorem lanternPassAndTrimRead : Obligations.LanternPassAndTrimRead := by
  unfold Obligations.LanternPassAndTrimRead
  refine ⟨fun s means x r ap c lone work found => ?_, fun s means idle => exec_lanternPassComplete_idle means idle,
    fun s r a pk live => ⟨fun finite near => ?_, fun off => ?_, fun b hb => State.arr_setLantern_other hb⟩,
    fun s q p a present result => ?_⟩
  · have row := exec_lanternPassComplete means found work
    refine ⟨fun owed => row.trans (if_pos owed), fun paid full => ?_, fun paid room => ?_⟩
    · rw [row, if_neg (not_not.2 paid), full]
      rfl
    · rw [row, if_neg (not_not.2 paid), room]
      obtain ⟨aside, arrOn, arrOff, sample, signs⟩ :=
        (s.keepTrim r).finishTrim_spec r ap ((s.keepTrim r).passMeans r means)
      generalize State.finishTrim _ r ap _ = m at aside arrOn arrOff sample signs
      have kept := aside.rest
      have env : m.env = { s.env with trimLoaded := true, trim := r } := (congrArg State.env kept :)
      have host : m.host = s.host := (congrArg State.host kept :)
      refine ⟨_, m, rfl, Ends.complete (by rw [host]; exact c.host) lone .ok 0 0, env, (congrArg State.cmds kept :),
        (congrArg State.ctxs kept :), (congrArg State.crews kept :), host, (congrArg State.cfg kept :), fun a ha on => ?_, arrOff, signs⟩
      have arr := arrOn a ha on
      have lit (pk : Nat) (hpk : pk < 16) := Arr.takesLantern_finishTrim (x := s.arr a) (r := r) (ap := ap) (a := a)
        (live := (s.keepTrim r).lanternSource r ap ((s.keepTrim r).passMeans r means) a)
        (t := s.sampleOf a) hpk (appendixGood r ap)
      refine ⟨fun pk hpk => ⟨fun good st => ?_, fun other => ⟨fun v listed => ?_, fun unlisted => ?_⟩⟩, fun bad => ?_, fun good => ⟨?_, ?_⟩⟩
      · rw [State.lanternSource_appendix (s := s.keepTrim r) good st] at lit arr
        rw [arr]
        exact lit pk hpk
      · rw [State.lanternSource_live (s := s.keepTrim r) other] at lit arr
        have took := lit pk hpk
        rw [State.passMeans_listed listed] at took
        rw [env, arr]
        exact took
      · rw [State.lanternSource_live (s := s.keepTrim r) other] at lit arr
        have took := lit pk hpk
        rw [State.passMeans_unlisted unlisted] at took
        rw [arr]
        exact took.lan_factory
      · rw [arr, Bool.eq_false_iff.2 (mt appendixGood_iff.1 bad)]
        exact Arr.finishTrim_false
      · rw [appendixGood_iff.2 good, Arr.finishTrim_true, ← sample] at arr
        exact takesAppendix arr
      · rw [arr, appendixGood_iff.2 good]
        exact Arr.finishTrim_true_frame
  · have own := State.arr_setLantern_same (s := s) (r := r) (a := a) (pk := pk) (live := live)
    rw [own, Arr.takeLantern, if_pos ⟨finite, near⟩, State.setLantern_plausible finite near]
    exact ⟨Tbl.get_set_same _ _ _ _, rfl, rfl⟩
  · have own := State.arr_setLantern_same (s := s) (r := r) (a := a) (pk := pk) (live := live)
    have out : ¬(f16Finite live = true ∧ absQ (f16Q live - f16Q (trimLantern r a (pk / 8) (pk % 8))) ≤ 1) := by
      rwa [not_and_or, Bool.not_eq_true, not_le]
    rw [own, Arr.takeLantern, if_neg out, State.setLantern_implausible off]
    exact ⟨Tbl.get_set_same _ _ _ _, rfl, Signed.congr (State.signed_emit _ _ _) rfl rfl rfl⟩
  · obtain ⟨host, ring, offers⟩ := present
    have row : exec (.trimRead q) s = .next (effTrimRead q p (s.popFetched q)) :=
      congrArg Host.Outcome.next (State.packetRow_offers offers effTrimRead)
    refine ⟨fun short => ⟨_, row.trans (congrArg _ (effTrimRead_short q result short)), ?_⟩,
      fun room unloaded => ⟨_, row.trans (congrArg _ (effTrimRead_unloaded q result room unloaded)), ?_⟩,
      fun room loaded => ⟨_, ((s.popFetched q).chargeHbm false s.env.trim.length).writeHost a
          (s.env.trim ++ s.appendix s.env.trim), row.trans (congrArg _ (effTrimRead_loaded q result room loaded)), ?_, rfl⟩⟩
    · exact Answered.reply (m := s.popFetched q) host ring p .badParam 0 0 0
    · exact Answered.reply (m := s.popFetched q) host ring p .state 0 0 0
    · exact Answered.done (Memory.wf_writeBytes _ _ host) ring p .ok _ 0

end Sys2Proof.Machine
end


/-! ## TRIM_LOAD: the checks, then the load (R80, R82, R359) -/
section
namespace Sys2Proof.Machine

/-- The first check of a record that fails, and its status (R82, R359, R43). -/
def State.trimRefusal (s : State) (r : List Byte) : Option Status :=
  if !trimForm r then some .badParam
  else if !signedOk Config.factoryKey r then some .sigBad
  else if field r 8 8 ≠ Config.serial.toNat ∨ field r 6 1 ≠ stepping then some .badParam
  else if !trimValues r then some .badParam
  else if s.spareClash r then some .state else none

section
variable {s : State} {r : List Byte}

theorem State.trimRefusal_form (h : trimForm r = false) : s.trimRefusal r = some .badParam := if_pos (by rw [h]; rfl)

theorem State.trimRefusal_signature (form : trimForm r = true) (h : signedOk Config.factoryKey r = false) :
    s.trimRefusal r = some .sigBad := by
  simp only [State.trimRefusal, form, h, Bool.not_true, Bool.not_false, Bool.false_eq_true, if_true, if_false]

/-- The record passes the checks of form and signature. -/
def trimGenuine (r : List Byte) : Prop := trimForm r = true ∧ signedOk Config.factoryKey r = true

theorem State.trimRefusal_genuine (h : trimGenuine r) : s.trimRefusal r
    = if field r 8 8 ≠ Config.serial.toNat ∨ field r 6 1 ≠ stepping then some .badParam
      else if !trimValues r then some .badParam else if s.spareClash r then some .state else none := by
  simp only [State.trimRefusal, h.1, h.2, Bool.not_true, Bool.false_eq_true, if_false]

theorem State.trimRefusal_values (h : trimGenuine r)
    (foreign : field r 8 8 ≠ Config.serial.toNat ∨ field r 6 1 ≠ stepping ∨ trimValues r = false) :
    s.trimRefusal r = some .badParam := by
  rw [State.trimRefusal_genuine h]
  split
  · rfl
  · next own => exact if_pos (by rw [(or_assoc.2 foreign).resolve_left own]; rfl)

theorem State.trimRefusal_own (h : trimGenuine r) (serial : field r 8 8 = Config.serial.toNat)
    (step : field r 6 1 = stepping) (values : trimValues r = true) :
    s.trimRefusal r = if s.spareClash r then some .state else none := by
  rw [State.trimRefusal_genuine h, if_neg (by simp [serial, step]), values]
  rfl

end

/-- A record loaded, with LANBAD clear and the agreement windows that follow it (R82, R226). -/
def State.trimLoaded (s : State) (r : List Byte) : State :=
  ((s.loadTrim r (diePowered s.env.env)).eachArr (fun x => { x with lanBad := false })).bowFollow s

/-- Array `a` with a record loaded, LANBAD of the last load cleared (R82; log entry 104). -/
def Arr.loadRecord (r : List Byte) (a : Nat) (x : Arr) : Arr := { x.loadTrim r a with lanBad := false }

section
variable (r : List Byte) (a : Nat) (x : Arr)

@[simp] theorem Arr.fTrim_loadRecord : (x.loadRecord r a).fTrim = trimCols r a := by simp only [Arr.loadRecord, Arr.loadTrim]
@[simp] theorem Arr.dac_loadRecord : (x.loadRecord r a).dac = trimDac r a := by simp only [Arr.loadRecord, Arr.loadTrim]
@[simp] theorem Arr.tTrim_loadRecord : (x.loadRecord r a).tTrim = [] := rfl
@[simp] theorem Arr.kappa_loadRecord : (x.loadRecord r a).kappa = 0x3F800000#32 := rfl
@[simp] theorem Arr.conv_loadRecord : (x.loadRecord r a).conv = false := rfl
@[simp] theorem Arr.lanBad_loadRecord : (x.loadRecord r a).lanBad = false := rfl
@[simp] theorem Arr.tWin_loadRecord : (x.loadRecord r a).tWin = 25 := by
  show ((400 : Int) : Rat) / (16 * ((1 : Nat) : Rat)) = 25
  norm_num

end

/-- A record has been loaded into the crews and arrays of the dies on. -/
structure RecordLoaded (s t : State) (r : List Byte) : Prop where
  rest : t = { s with crews := t.crews, arrs := t.arrs, bowW := t.bowW }
  crewOn : ∀ k, k < 256 → diePowered s.env.env (crewDie k) = true → t.crew k = (s.crew k).setSpare (trimSpare r k)
  crewOff : ∀ k, diePowered s.env.env (crewDie k) = false → t.crew k = s.crew k
  arrOn : ∀ a, a < 4352 → diePowered s.env.env (crewDie (a / 17)) = true →
    t.arr a = (s.arr a).loadRecord r a

theorem State.trimLoaded_spec {s : State} (c : Canonical s) (r : List Byte) : RecordLoaded s (s.trimLoaded r) r := by
  obtain ⟨rest, crewOn, crewOff, arrOn, -⟩ := s.loadTrim_spec r (diePowered s.env.env)
  have arrs := ((K.loadTrim (Keeps.refl s) r (diePowered s.env.env)).canonical c).arrs
  unfold State.trimLoaded
  generalize s.loadTrim r (diePowered s.env.env) = u at rest crewOn crewOff arrOn arrs ⊢
  have lit := u.eachArr_frame (fun x => { x with lanBad := false })
  have lantern (a : Nat) := State.arr_eachArr arrs (f := fun x : Arr => { x with lanBad := false }) (a := a) rfl
  generalize u.eachArr (fun x => { x with lanBad := false }) = v at lit lantern ⊢
  have follows := v.bowFollow_frame s
  generalize v.bowFollow s = t at follows ⊢
  have crew (k : Nat) : t.crew k = u.crew k := by rw [follows, lit]; rfl
  refine ⟨by rw [follows, lit, rest], fun k hk on => (crew k).trans (crewOn k hk on), fun k off => (crew k).trans (crewOff k off),
    fun a ha on => ?_⟩
  rw [follows.arr, lantern, arrOn a ha on]
  rfl

/-- What TRIM_LOAD does with a record that passes the checks. -/
def State.trimStart (s : State) (q : QueueId) (p : Packet) (r ap : List Byte) : State :=
  if (s.trimLoaded r).dev.st = .boathouse then
    ((s.trimLoaded r).finishTrim r ap (fun a pk => trimLantern r a (pk / 8) (pk % 8))).done q p .ok 0 0
  else ((s.trimLoaded r).drawPass (diePowered (s.trimLoaded r).env.env)).enrol (mkCmd (s.trimLoaded r) q p true (.trim r ap))

/-- TRIM_LOAD of a right length, by the check that refuses it. -/
def State.trimAnswer (s : State) (q : QueueId) (p : Packet) (r ap : List Byte) : Option Status → State
  | some st => s.reply q p st 0 0 0
  | none => s.trimStart q p r ap

section
variable {q : QueueId} {p : Packet} {a n : Nat} {s : State} (data : p.hostData = some a)
  (length : n = field (Memory.readBytes s.host a 20) 16 4)
include data length

theorem effTrimLoad_length (h : p.length ≠ n) (h' : p.length ≠ n + appendixLen) :
    effTrimLoad q p s = s.reply q p .badParam 0 0 0 := by
  unfold effTrimLoad
  rw [data]
  dsimp only
  rw [← length]
  exact if_pos (by simp [h, h'])

theorem effTrimLoad_checked (h : p.length = n ∨ p.length = n + appendixLen) : effTrimLoad q p s
    = s.trimAnswer q p (Memory.readBytes s.host a n) (Memory.readBytes s.host (a + n) (p.length - n))
        (s.trimRefusal (Memory.readBytes s.host a n)) := by
  unfold effTrimLoad State.trimRefusal
  rw [data]
  dsimp only
  rw [← length, if_neg (by simpa [imp_iff_not_or] using h)]
  generalize Memory.readBytes s.host a n = r
  generalize Memory.readBytes s.host (a + n) (p.length - n) = ap
  iterate 5 rw [apply_ite (s.trimAnswer q p r ap)]
  refine if_congr Iff.rfl rfl (if_congr Iff.rfl rfl (if_congr Iff.rfl rfl (if_congr Iff.rfl rfl (if_congr Iff.rfl rfl ?_))))
  unfold State.trimAnswer State.trimStart State.trimLoaded
  with_reducible rfl

end

theorem Signed.congr_position {s u t : State} {kind : Nat} {i : SigInfo} (h : Signed u t kind i) (sig : u.sig = s.sig)
    (dev : u.dev = s.dev) (position : u.env.position = s.env.position) : Signed s t kind i := by
  unfold Signed State.sigBytes at h ⊢
  rwa [sig, dev, position] at h

/-- The factory conductances of a record that passes its checks are finite. -/
theorem trimLantern_finite {r : List Byte} (values : trimValues r = true) {a pk : Nat} (ha : a < 4352) (hpk : pk < 16) :
    f16Finite (trimLantern r a (pk / 8) (pk % 8)) = true := by
  simp only [trimValues, Bool.and_eq_true, List.all_eq_true, List.mem_range] at values
  obtain ⟨⟨⟨-, lanterns⟩, -⟩, -⟩ := values
  have cell := lanterns (16 * a + pk) (by omega)
  unfold lanternOk at cell
  rw [Bool.and_eq_true] at cell
  unfold trimLantern
  rw [show sectOff r 4 + 32 * a + 16 * (pk / 8) + 2 * (pk % 8) = sectOff r 4 + 2 * (16 * a + pk) by omega]
  exact cell.1

theorem absQ_self (x : Rat) : absQ (x - x) ≤ 1 := by
  rw [sub_self]
  decide

/-- Where every conductance taken is plausible, the end of a TRIM_LOAD makes no signature but that of an appendix. -/
theorem State.finishTrim_plausible {s : State} {r ap : List Byte} {live : Nat → Nat → F16}
    (plausible : ∀ a pk, a < 4352 → pk < 16 → f16Finite (s.lanternSource r ap live a pk) = true
      ∧ absQ (f16Q (s.lanternSource r ap live a pk) - f16Q (trimLantern r a (pk / 8) (pk % 8))) ≤ 1) :
    (ap = [] ∨ appendixOk r ap = true → (s.finishTrim r ap live).sig = s.sig)
    ∧ (ap ≠ [] → appendixOk r ap = false → Signed s (s.finishTrim r ap live) 0x0D {}) := by
  rw [State.finishTrim_eq]
  have lit := (s.holdTrim r).lanterns_plausible (on := diePowered s.env.env) plausible
  generalize (s.holdTrim r).lanterns r (diePowered s.env.env) (s.lanternSource r ap live) = u at lit ⊢
  have sig : u.sig = s.sig := (congrArg State.sig lit :)
  refine ⟨fun ok => ?_, fun there bad => ?_⟩
  · rw [State.appendixStep_unsigned ok]
    exact sig
  · rw [State.appendixStep_signs there bad]
    exact (State.signed_emit u _ _).congr_position sig (congrArg State.dev lit :) (congrArg (fun t : State => t.env.position) lit :)

section
variable {r ap : List Byte} {live : Nat → F16} {a : Nat} {t : Int} {x : Arr}

theorem Arr.lan_finishTrim {pk : Nat} (hpk : pk < 16) (factory : live pk = trimLantern r a (pk / 8) (pk % 8)) (good : Bool) :
    (x.finishTrim r ap live a t good).lan.get zero16 pk = trimLantern r a (pk / 8) (pk % 8) := by
  have took := Arr.takesLantern_finishTrim (x := x) (r := r) (ap := ap) (live := live) (a := a) (t := t) hpk good
  rw [factory] at took
  exact took.lan_factory

theorem Arr.fTrim_finishTrim (good : Bool) : (x.finishTrim r ap live a t good).fTrim = x.fTrim := by
  cases good with
  | false => rw [Arr.finishTrim_false]
  | true => rw [Arr.finishTrim_true_frame]

theorem Arr.dac_finishTrim (good : Bool) : (x.finishTrim r ap live a t good).dac = x.dac := by
  cases good with
  | false => rw [Arr.finishTrim_false]
  | true => rw [Arr.finishTrim_true_frame]

theorem Arr.conv_finishTrim (h : x.conv = false) (good : Bool) : (x.finishTrim r ap live a t good).conv = false := by
  cases good with
  | false => rw [Arr.finishTrim_false, h]
  | true => rw [Arr.finishTrim_true_frame]

/-- Without an appendix the tracking values stay. -/
theorem Arr.track_finishTrim : (x.finishTrim r ap live a t false).kappa = x.kappa
    ∧ (x.finishTrim r ap live a t false).tTrim = x.tTrim ∧ (x.finishTrim r ap live a t false).tWin = x.tWin := by
  rw [Arr.finishTrim_false]
  exact ⟨rfl, rfl, rfl⟩

end

/-- A record loaded in BOATHOUSE holds factory conductances everywhere, and all that an appendix gives (R357). -/
theorem RecordLoaded.finishes {s u m : State} {r ap : List Byte} (loaded : RecordLoaded s u r)
    (done : TrimFinished u m r ap (fun a pk => trimLantern r a (pk / 8) (pk % 8))) (st : u.dev.st = .boathouse)
    (values : trimValues r = true) {a : Nat} (ha : a < 4352) (on : diePowered s.env.env (crewDie (a / 17)) = true) :
    (m.crew (a / 17)).spare = BitVec.ofNat 5 (trimSpare r (a / 17)) ∧ (m.crew (a / 17)).spareValid = true
    ∧ (m.arr a).fTrim = trimCols r a ∧ (m.arr a).dac = trimDac r a ∧ (m.arr a).lanBad = false ∧ (m.arr a).conv = false
    ∧ (∀ pk, pk < 16 → (m.arr a).lan.get zero16 pk = trimLantern r a (pk / 8) (pk % 8))
    ∧ (ap = [] ∨ appendixOk r ap = false → Trimmed m r a) ∧ (ap ≠ [] → appendixOk r ap = true → TakesAppendix m ap a) := by
  have crew : m.crew (a / 17) = (s.crew (a / 17)).setSpare (trimSpare r (a / 17)) := by
    rw [← loaded.crewOn _ (by omega) on, State.crew, congrArg State.crews done.aside.rest]
    rfl
  have env : u.env = s.env := (congrArg State.env loaded.rest :)
  have arr : m.arr a = Arr.finishTrim r ap (fun pk => trimLantern r a (pk / 8) (pk % 8)) a (m.sampleOf a) (appendixGood r ap)
      ((s.arr a).loadRecord r a) := by
    have arr := done.arrOn a ha (by rw [env]; exact on)
    rwa [State.lanternSource_live (.inr st), loaded.arrOn a ha on, ← done.sample] at arr
  have spare : (m.crew (a / 17)).spare = BitVec.ofNat 5 (trimSpare r (a / 17)) ∧ (m.crew (a / 17)).spareValid = true := by
    rw [crew]
    exact ⟨rfl, rfl⟩
  have trim : (m.arr a).fTrim = trimCols r a ∧ (m.arr a).dac = trimDac r a := by
    rw [arr, Arr.fTrim_finishTrim, Arr.dac_finishTrim, Arr.fTrim_loadRecord, Arr.dac_loadRecord]
    exact ⟨rfl, rfl⟩
  have conv : (m.arr a).conv = false := by
    rw [arr]
    exact Arr.conv_finishTrim (Arr.conv_loadRecord r a _) _
  refine ⟨spare.1, spare.2, trim.1, trim.2, ?_, conv, fun pk hpk => ?_, fun no => ⟨spare, trim, ?_⟩, fun there ok => ?_⟩
  · have kept := Arr.lanBad_finishTrim (x := (s.arr a).loadRecord r a) (r := r) (ap := ap) (a := a) (t := m.sampleOf a)
      (live := fun pk => trimLantern r a (pk / 8) (pk % 8)) (fun pk hpk => ⟨trimLantern_finite values ha hpk, absQ_self _⟩)
    rw [arr, kept]
    exact Arr.lanBad_loadRecord r a _
  · rw [arr]
    exact Arr.lan_finishTrim hpk rfl _
  · have bad : appendixGood r ap = false := by
      obtain empty | bad := no
      · simp [appendixGood, empty]
      · simp [appendixGood, bad]
    rw [bad] at arr
    obtain ⟨kappa, tTrim, tWin⟩ := Arr.track_finishTrim (x := (s.arr a).loadRecord r a) (r := r) (ap := ap) (a := a)
      (live := fun pk => trimLantern r a (pk / 8) (pk % 8)) (t := m.sampleOf a)
    rw [← arr] at kappa tTrim tWin
    exact ⟨kappa, tTrim, tWin.trans (Arr.tWin_loadRecord r a _), conv⟩
  · rw [appendixGood_iff.2 ⟨there, ok⟩] at arr
    exact takesAppendix (arr.trans Arr.finishTrim_true)

/-- Settles O29: the refusals by the first check that fails; the load by what it makes of crews and arrays. -/
theorem trimLoadChecksThenLoads : Obligations.TrimLoadChecksThenLoads := by
  unfold Obligations.TrimLoadChecksThenLoads
  intro s q p a c present data n r ap
  obtain ⟨host, ring, offers⟩ := present
  have row : exec (.trimLoad q) s = .next (effTrimLoad q p (s.popFetched q)) :=
    congrArg Host.Outcome.next (State.packetRow_offers offers effTrimLoad)
  have answered (st : Status) := Answered.reply (m := s.popFetched q) host ring p st 0 0 0
  refine ⟨fun h h' => ⟨_, row, ?_⟩, fun length => ⟨_, row, ?_⟩⟩
  · rw [effTrimLoad_length (s := s.popFetched q) data rfl h h']
    exact answered .badParam
  have checked : effTrimLoad q p (s.popFetched q) = (s.popFetched q).trimAnswer q p r ap ((s.popFetched q).trimRefusal r) :=
    effTrimLoad_checked (s := s.popFetched q) data rfl length
  clear_value r ap
  have refused (st : Status) (h : (s.popFetched q).trimRefusal r = some st) :
      Answered (s.popFetched q) (effTrimLoad q p (s.popFetched q)) q p st 0 0 0 := by
    rw [checked, h]
    exact answered st
  refine ⟨fun form => refused _ (State.trimRefusal_form form), fun form sig => refused _ (State.trimRefusal_signature form sig),
    fun form sig => ⟨fun foreign => refused _ (State.trimRefusal_values ⟨form, sig⟩ foreign), fun serial step values => ?_⟩⟩
  have own := State.trimRefusal_own (s := s.popFetched q) ⟨form, sig⟩ serial step values
  have clash : (s.popFetched q).spareClash r = s.spareClash r := rfl
  rw [clash] at own
  have loaded := State.trimLoaded_spec (c.popFetched q) r
  refine ⟨fun held => refused _ (own.trans (if_pos held)), fun clear away => ?_, fun clear home => ?_⟩
  · have away : ((s.popFetched q).trimLoaded r).dev.st ≠ .boathouse := by
      rw [loaded.rest]
      exact away
    rw [checked, own, if_neg (by simp [clear]), State.trimAnswer, State.trimStart, if_neg away]
    generalize (s.popFetched q).trimLoaded r = u at loaded
    have env : u.env = s.env := (congrArg State.env loaded.rest :)
    have cmds : u.cmds = s.cmds := (congrArg State.cmds loaded.rest :)
    have seq : u.seq = s.seq := (congrArg State.seq loaded.rest :)
    have gov : u.gov = s.gov := (congrArg State.gov loaded.rest :)
    refine ⟨?_, env, fun k hk on => ?_, fun k hk off => loaded.crewOff k off, ?_, ?_⟩
    · show u.cmds ++ [mkCmd u q p true (.trim r ap)] = _
      rw [cmds, mkCmd, mkCmd, seq]
    · have crew : u.crew k = (s.crew k).setSpare (trimSpare r k) := loaded.crewOn k hk on
      refine ⟨congrArg Crew.spare crew, congrArg Crew.spareValid crew, fun m hm => ?_⟩
      obtain ⟨hk', -⟩ := arrIdx_slot (k := k) hm
      have arr : u.arr (arrIdx k m) = (s.arr (arrIdx k m)).loadRecord r (arrIdx k m) :=
        loaded.arrOn (arrIdx k m) (by unfold arrIdx; omega) (by rw [hk']; exact on)
      show (u.arr (arrIdx k m)).fTrim = _ ∧ (u.arr (arrIdx k m)).dac = _ ∧ (u.arr (arrIdx k m)).tTrim = _
        ∧ (u.arr (arrIdx k m)).kappa = _ ∧ (u.arr (arrIdx k m)).conv = _ ∧ (u.arr (arrIdx k m)).lanBad = _
      simp only [arr, Arr.fTrim_loadRecord, Arr.dac_loadRecord, Arr.tTrim_loadRecord, Arr.kappa_loadRecord,
        Arr.conv_loadRecord, Arr.lanBad_loadRecord, and_self]
    · show u.gov.chargeWrite _ = _
      rw [gov, env]
    · rw [loaded.rest]
      rfl
  · have home : ((s.popFetched q).trimLoaded r).dev.st = .boathouse := by
      rw [loaded.rest]
      exact home
    rw [checked, own, if_neg (by simp [clear]), State.trimAnswer, State.trimStart, if_pos home]
    have done := ((s.popFetched q).trimLoaded r).finishTrim_spec r ap (fun a pk => trimLantern r a (pk / 8) (pk % 8))
    have signs := State.finishTrim_plausible (s := (s.popFetched q).trimLoaded r) (r := r) (ap := ap)
      (live := fun a pk => trimLantern r a (pk / 8) (pk % 8)) (fun a pk ha hpk => ?_)
    · generalize (s.popFetched q).trimLoaded r = u at loaded done signs home
      generalize u.finishTrim r ap _ = m at done signs
      have kept := done.aside.rest
      have env : u.env = s.env := (congrArg State.env loaded.rest :)
      have sig : u.sig = s.sig := (congrArg State.sig loaded.rest :)
      have host' : m.host = s.host := (congrArg State.host kept :).trans (congrArg State.host loaded.rest :)
      refine ⟨m, Answered.done (by rw [host']; exact host) ring p .ok 0 0, ?_, fun a ha on => loaded.finishes done home values ha on,
        fun ok => (signs.1 ok).trans sig, fun there bad => (signs.2 there bad).congr_position sig (congrArg State.dev loaded.rest :)
          (congrArg Env.position env), (congrArg State.cmds kept :).trans (congrArg State.cmds loaded.rest :),
        (congrArg State.ctxs kept :).trans (congrArg State.ctxs loaded.rest :), host',
        (congrArg State.cfg kept :).trans (congrArg State.cfg loaded.rest :)⟩
      rw [← env]
      exact (congrArg State.env kept :)
    · rw [State.lanternSource_live (.inr home)]
      exact ⟨trimLantern_finite values ha hpk, absQ_self _⟩

end Sys2Proof.Machine
end


/-! ## Tables filled, tokens drawn, readings of a row -/
section
namespace Sys2Proof.Machine

theorem Tbl.find?_listed (lo : Nat) (vs : List Nat) (n i : Nat) :
    (Tbl.find? ((vs.zipIdx n).filterMap (fun (v, k) => if v = 0 then none else some (lo + k, v))) (lo + (n + i))).getD 0
      = vs.getD i 0 := by
  induction vs generalizing n i with
  | nil => rfl
  | cons v vs ih =>
    rw [List.zipIdx_cons]
    cases i with
    | zero =>
      by_cases hv : v = 0
      · rw [List.filterMap_cons_none (by simp [hv]), Tbl.find?_none, hv]
        · rfl
        · simp only [List.mem_filterMap]
          rintro e ⟨⟨w, k⟩, listed, he⟩
          have late := List.le_snd_of_mem_zipIdx listed
          split at he
          · cases he
          · cases he
            exact fun same => absurd (Nat.add_left_cancel same) (by omega)
      · rw [List.filterMap_cons_some (b := (lo + n, v)) (by simp [hv])]
        simp [Tbl.find?]
    | succ i =>
      have ih := ih (n + 1) i
      rw [show n + 1 + i = n + (i + 1) by omega] at ih
      by_cases hv : v = 0
      · rw [List.filterMap_cons_none (by simp [hv]), ih, List.getD_cons_succ]
      · rw [List.filterMap_cons_some (b := (lo + n, v)) (by simp [hv]), Tbl.find?, if_neg (by omega), ih, List.getD_cons_succ]

/-- A run of values written into a table of numbers reads back. -/
theorem Tbl.get_fill (t : Tbl Nat) (lo : Nat) {vs : List Nat} {i : Nat} (h : i < vs.length) :
    Tbl.get zeroNat (t.fill lo vs) (lo + i) = vs.getD i 0 := by
  have before : decide (lo + i < lo) = false := by simp
  have behind : decide (lo + vs.length ≤ lo + i) = false := by simp [h]
  have listed := Tbl.find?_listed lo vs 0 i
  rw [Nat.zero_add] at listed
  rw [Tbl.get, Tbl.fill, Tbl.find?_append, Tbl.find?_append, Tbl.find?_filter_drop t (fun k => decide (k < lo)) _ before,
    Tbl.find?_filter_drop t (fun k => decide (lo + vs.length ≤ k)) _ behind, Option.none_or, Option.or_none]
  exact listed

theorem Gov.drawWrite_short {g : Gov} {n : Nat} (h : g.wrAllow < n) : g.drawWrite n = ((g.drawWrite n).1, false) := by
  rw [Gov.drawWrite, if_neg (Nat.not_le.2 h)]

theorem Gov.drawWrite_paid {g : Gov} {n : Nat} (h : n ≤ g.wrAllow) : g.drawWrite n = ((g.drawWrite n).1, true) := by
  rw [Gov.drawWrite, if_pos h]

theorem zipIdx_eq_map_range {reads : List Nat} {n : Nat} (length : reads.length = n) :
    reads.zipIdx = (List.range n).map (fun c => (reads.getD c 0, c)) := by
  refine List.ext_getElem (by simp [length]) fun i h _ => ?_
  have h : i < reads.length := by simpa using h
  simp [h]

/-- The columns whose reading has a property, in their order. -/
theorem zipIdx_filter_snd {reads : List Nat} {n : Nat} (length : reads.length = n) (f : Nat × Nat → Bool) :
    (reads.zipIdx.filter f).map (·.2) = (List.range n).filter (fun c => f (reads.getD c 0, c)) := by
  rw [zipIdx_eq_map_range length, List.filter_map, List.map_map]
  exact List.map_id _

@[simp] theorem Arr.plane_setPlane_same (x : Arr) (b : Bool) (y : Plane) : (x.setPlane b y).plane b = y := by
  cases b <;> rfl

theorem Arr.plane_setPlane_other (x : Arr) {b c : Bool} (y : Plane) (h : c ≠ b) : (x.setPlane b y).plane c = x.plane c := by
  obtain rfl : c = !b := Bool.eq_not.2 h
  cases b <;> rfl

@[simp] theorem Arr.sinceMaint_setPlane (x : Arr) (b : Bool) (y : Plane) : (x.setPlane b y).sinceMaint = x.sinceMaint := by
  cases b <;> rfl

@[simp] theorem Arr.verify_setPlane (x : Arr) (b : Bool) (y : Plane) : (x.setPlane b y).verify = x.verify := by
  cases b <;> rfl

theorem Tbl.get_del_same {α : Type} (d : Nat → α) (t : Tbl α) (k : Nat) : Tbl.get d (t.del k) k = d k := by
  rw [Tbl.get, Tbl.del, Tbl.find?_none, Option.getD_none]
  intro e he
  exact of_decide_eq_true (List.mem_filter.1 he).2

end Sys2Proof.Machine
end

/-! ## Maintenance slots (R98, R99, R102) -/
section
namespace Sys2Proof.Machine

/-- The array after a census slot has read its next row. -/
def Arr.readCensus (reads : List Nat) (x : Arr) : Arr :=
  { (x.setPlane x.ground { (x.plane x.ground) with
      cells := (x.plane x.ground).cells.fill (x.maint.censusRow * 520) (reads.map (· + 1)) }) with
    sinceMaint := 0, verify := verifySlot, writing := false
    maint := { x.maint with
      censusRow := x.maint.censusRow + 1
      levels := x.maint.levels.fill (x.maint.censusRow * 512) ((reads.take 512).map (x.plane x.ground).levelOf) } }

/-- The cells that a refresh slot pulses, on the fly plane among the lantern cells alone. -/
def Plane.refreshHits (p : Plane) (row : Nat) (reads : List Nat) : List Nat :=
  (List.range 520).filter (fun c =>
    (!decide (512 ≤ row) || decide (512 ≤ c)) && outside (p.cellTarget (row % 512) c) (reads.getD c 0))

/-- The plane that a refresh row lies on: the ground plane, then the lantern cells of the fly plane. -/
def Arr.refreshPlane (x : Arr) (row : Nat) : Bool := if 512 ≤ row then !x.ground else x.ground

/-- A cell that a refresh waits for, as a pulse can bring it back (log entry 42). -/
def State.comesBack (s : State) (a row c : Nat) : Bool :=
  if 512 ≤ row then !((s.arr a).plane ((s.arr a).refreshPlane row)).stuck.contains (row % 512 * 520 + c)
  else !s.leftAlone a (row % 512) c

/-- The array after a refresh slot has read and pulsed a row. -/
def Arr.refreshRow (row : Nat) (reads : List Nat) (again : Bool) (x : Arr) : Arr :=
  { (x.setPlane (x.refreshPlane row) { (x.plane (x.refreshPlane row)) with
      cells := if 512 ≤ row then (x.plane (x.refreshPlane row)).cells.fill (row % 512 * 520 + 512) ((reads.drop 512).map (· + 1))
        else (x.plane (x.refreshPlane row)).cells.fill (row % 512 * 520) (reads.map (· + 1)) }) with
    sinceMaint := 0, verify := verifySlot, writing := x.limit
    maint := { x.maint with rows := x.maint.rows.drop 1 ++ (if again then [row] else []) } }

section
variable {s : State} {a row : Nat} {reads : List Nat}

theorem State.censusSlot_short (h : s.gov.wrAllow < 4) : s.censusSlot a reads = { s with gov := (s.gov.drawWrite 4).1 } := by
  rw [State.censusSlot, Gov.drawWrite_short h]
  rfl

theorem State.censusSlot_reads (h : 4 ≤ s.gov.wrAllow) : s.censusSlot a reads
    = ({ s with gov := (s.gov.drawWrite 4).1 } : State).modArr a (Arr.readCensus reads) := by
  rw [State.censusSlot, Gov.drawWrite_paid h]
  rfl

theorem Plane.refreshHits_eq (length : reads.length = 520) (p : Plane) :
    (reads.zipIdx.filter (fun e => (!decide (512 ≤ row) || decide (512 ≤ e.2)) && outside (p.cellTarget (row % 512) e.2) e.1)).map (·.2)
      = p.refreshHits row reads := zipIdx_filter_snd length _

theorem State.refreshSlot_eq (length : reads.length = 520) {n : Nat} {hits : List Nat}
    (hits_eq : ((s.arr a).plane ((s.arr a).refreshPlane row)).refreshHits row reads = hits) (count : n = 4 + hits.length) :
    s.refreshSlot a row reads = if n ≤ s.gov.wrAllow
      then ({ s with gov := (s.gov.drawWrite n).1 } : State).modArr a (Arr.refreshRow row reads (hits.any (s.comesBack a row)))
      else { s with gov := (s.gov.drawWrite n).1 } := by
  rw [← Plane.refreshHits_eq length, Arr.refreshPlane] at hits_eq
  unfold State.refreshSlot
  simp only [hits_eq]
  rw [← count]
  by_cases paid : n ≤ s.gov.wrAllow
  · rw [Gov.drawWrite_paid paid, if_pos paid]
    rfl
  · rw [Gov.drawWrite_short (Nat.not_le.1 paid), if_neg paid]
    rfl

end

end Sys2Proof.Machine
end


/-! ## Patch lists (R104) -/
section
namespace Sys2Proof.Machine

/-- Part of a run of bytes written reads back. -/
theorem Memory.readBytes_writeBytes_part {m : Memory} (h : Memory.wf m) (a : Nat) (bs : List (BitVec 8)) {o n : Nat}
    (inside : o + n ≤ bs.length) : Memory.readBytes (Memory.writeBytes m a bs) (a + o) n = (bs.drop o).take n := by
  rw [Memory.readBytes_eq (Memory.wf_writeBytes a bs h)]
  refine List.ext_getElem (by simp; omega) fun i hi _ => ?_
  have hi : i < n := by simpa using hi
  have cell := Memory.read_writeBytes_in m a bs (o + i) (by omega)
  rw [← Nat.add_assoc] at cell
  simp [cell, List.getD_eq_getElem?_getD, List.getElem?_eq_getElem (show o + i < bs.length by omega)]

theorem length_flatten_size {n : Nat} {l : List (List Byte)} (size : ∀ e ∈ l, e.length = n) : l.flatten.length = l.length * n := by
  rw [List.length_flatten, List.map_congr_left size, List.map_const', List.sum_replicate, smul_eq_mul]

/-- A list of pieces of one size, cut again at its multiples. -/
theorem flatten_part {n : Nat} {es : List (List Byte)} (size : ∀ e ∈ es, e.length = n) {i : Nat} (hi : i < es.length) :
    (es.flatten.drop (n * i)).take n = es[i] := by
  induction es generalizing i with
  | nil => simp at hi
  | cons e es ih =>
    have he : e.length = n := size e List.mem_cons_self
    cases i with
    | zero => simp [← he]
    | succ i =>
      rw [List.flatten_cons, Nat.mul_succ, Nat.add_comm, ← List.drop_drop, List.drop_left' he]
      exact ih (fun e he => size e (List.mem_cons_of_mem _ he)) (by simpa using hi)

theorem leNat_leBytes (n : Nat) {v : Nat} (h : v < 256 ^ n) : leNat (leBytes n v) = v := by
  induction n generalizing v with
  | zero =>
    rw [Nat.pow_zero, Nat.lt_one_iff] at h
    rw [h]
    rfl
  | succ n ih =>
    rw [leBytes, leNat, ih (Nat.div_lt_of_lt_mul (by rwa [Nat.pow_succ, Nat.mul_comm] at h)), BitVec.toNat_ofNat]
    exact Nat.mod_add_div v 256

/-- A patch entry: 8 bytes, VALID set (R104). -/
def isPatch (e : List Byte) : Prop := e.length = 8 ∧ bitOf (field e 2 2) 15 = true

theorem Crew.isPatch_patches {c : Crew} {l : Nat} {plane : Bool} {e : List Byte} (h : e ∈ c.patches l plane) : isPatch e := by
  obtain ⟨read, valid⟩ := List.mem_filter.1 h
  obtain ⟨i, -, rfl⟩ := List.mem_map.1 read
  exact ⟨Memory.length_readBytes _ _ _, valid⟩

theorem isPatch_patchEntry {row col delta : Nat} (h : col < 2 ^ 15) : isPatch (patchEntry row col delta) := by
  have shape : patchEntry row col delta = leBytes 2 row ++ (leBytes 2 (col + 2 ^ 15) ++ (leBytes 2 delta ++ [0, 0])) := by
    simp [patchEntry, List.append_assoc]
  refine ⟨by simp [patchEntry], ?_⟩
  rw [shape, field, List.drop_left' (length_leBytes _ _), List.take_left' (length_leBytes _ _), leNat_leBytes 2 (by omega)]
  unfold bitOf
  rw [beq_iff_eq]
  omega

/-- A patch list as it is written: the entries, then blanks. -/
def patchBlock (es : List (List Byte)) : List (List Byte) := es ++ List.replicate (64 - es.length) (List.replicate 8 0)

section
variable {es : List (List Byte)} (room : es.length ≤ 64) (valid : ∀ e ∈ es, isPatch e)

theorem length_patchBlock (room : es.length ≤ 64) : (patchBlock es).length = 64 := by
  simp [patchBlock]
  omega

include valid

theorem size_patchBlock : ∀ e ∈ patchBlock es, e.length = 8 := by
  intro e he
  obtain he | he := List.mem_append.1 he
  · exact (valid e he).1
  · rw [List.eq_of_mem_replicate he, List.length_replicate]

theorem filter_patchBlock : (patchBlock es).filter (fun e => bitOf (field e 2 2) 15) = es := by
  have blank : ¬bitOf (field (List.replicate 8 (0 : Byte)) 2 2) 15 = true := by decide
  rw [patchBlock, List.filter_append, List.filter_eq_self.2 fun e he => (valid e he).2, List.filter_eq_nil_iff.2 fun e he => by rwa [List.eq_of_mem_replicate he],
    List.append_nil]

include room

theorem flatten_patchBlock : (es.flatten ++ List.replicate 512 0).take 512 = (patchBlock es).flatten := by
  have full : es.flatten.length = es.length * 8 := length_flatten_size fun e he => (valid e he).1
  rw [patchBlock, List.flatten_append, List.take_append, List.take_of_length_le (by omega), List.take_replicate,
    List.flatten_replicate_replicate]
  congr 2
  omega

/-- A patch list written reads back. -/
theorem Crew.patches_setPatches {c : Crew} (wf : Memory.wf c.sram) (l : Nat) (plane : Bool) :
    (c.setPatches l plane es).patches l plane = es := by
  have size := size_patchBlock valid
  have length := length_patchBlock room
  have reads : ((List.range 64).map (fun i => Memory.readBytes (c.setPatches l plane es).sram
      (0x400 * (1 + l) + (if plane then 0x200 else 0) + 8 * i) 8)) = patchBlock es := by
    refine List.ext_getElem (by simp [length]) fun i hi hi' => ?_
    have block : (patchBlock es).flatten.length = 512 := by rw [length_flatten_size size, length]
    rw [List.getElem_map, List.getElem_range, Crew.setPatches, flatten_patchBlock room valid,
      Memory.readBytes_writeBytes_part wf _ _ (by omega), flatten_part size hi']
  rw [Crew.patches, reads, filter_patchBlock valid]

end

theorem State.addPatches_nil (s : State) (a : Nat) (plane cb4 keep : Bool) : s.addPatches a plane cb4 keep [] = s := rfl

theorem State.addPatches_fits {s : State} {a : Nat} {plane : Bool} {e : List Byte} (cb4 keep : Bool)
    (room : ((s.crew (a / 17)).patches (s.logicalArr a) plane).length < 64) : s.addPatches a plane cb4 keep [e]
      = s.modCrew (a / 17) (fun x =>
          x.setPatches (s.logicalArr a) plane ((s.crew (a / 17)).patches (s.logicalArr a) plane ++ [e])) := by
  have merged : mergePatches cb4 keep ((s.crew (a / 17)).patches (s.logicalArr a) plane) [e]
      = ((s.crew (a / 17)).patches (s.logicalArr a) plane ++ [e], false) := if_pos room
  simp only [State.addPatches, merged]
  rfl

end Sys2Proof.Machine
end


/-! ## Pitch slots (R157, R158, R101) -/
section
namespace Sys2Proof.Machine

/-- The columns outside their window and not stuck, in their order. -/
def Plane.cellsOut (p : Plane) (g : Prog) (row : Nat) (reads : List Nat) : List Nat :=
  (List.range 520).filter (fun c => outside (p.cellTarget row c) (reads.getD c 0) && !g.stuck.any (fun e => e.1 == c))

/-- The pulses of a slot. -/
def Prog.pulse (g : Prog) (hit : List Nat) : Prog :=
  { g with pulses := hit.foldl (fun t c => t.set zeroNat c (t.get zeroNat c + 1)) g.pulses }

/-- A pitch slot that starts, its tokens drawn. -/
def State.slotTaken (s : State) (a n : Nat) : State :=
  ({ s with gov := (s.gov.drawWrite n).1 } : State).modArr a (fun x => { x with sinceMaint := 0, verify := verifySlot, writing := true })

/-- A pitch slot after the stuck cells are known: it waits, ends the row, or pulses the cells outside but those of `fresh`. -/
def State.pulseRow (s : State) (a : Nat) (ly : Layer) (p : Plane) (g : Prog) (fresh : List Nat) (row : Nat) (reads : List Nat) : State :=
  let hit := (p.cellsOut g row reads).filter (fun c => !fresh.contains c)
  if 4 + hit.length ≤ s.gov.wrAllow then
    if (p.cellsOut g row reads).isEmpty || g.lastSlot then
      (s.slotTaken a (4 + hit.length)).endRow a ly (!(s.arr a).ground) p g row reads
    else (s.slotTaken a (4 + hit.length)).modArr a (fun x => { (x.setPlane (!(s.arr a).ground) p) with prog := some (g.pulse hit) })
  else { s with gov := (s.gov.drawWrite (4 + hit.length)).1 }

section
variable {reads : List Nat} (length : reads.length = 520)
include length

theorem Plane.cellsOut_eq (p : Plane) (g : Prog) (row : Nat) :
    (reads.zipIdx.filter (fun e => outside (p.cellTarget row e.2) e.1 && !g.stuck.any (fun y => y.1 == e.2))).map (·.2)
      = p.cellsOut g row reads := zipIdx_filter_snd length _

/-- New stuck cells are cells outside, after their 24 pulses or in the last slot. -/
theorem newStuck_eq (p : Plane) (g : Prog) (row : Nat) (last : Bool) : newStuck p g row last reads
    = ((p.cellsOut g row reads).filter (fun c => decide (24 ≤ g.pulses.get zeroNat c) || last)).map (fun c => (c, reads.getD c 0)) := by
  unfold newStuck Plane.cellsOut
  rw [List.filter_filter, zipIdx_eq_map_range length, List.filterMap_map]
  generalize List.range 520 = l
  induction l with
  | nil => rfl
  | cons c l ih =>
    by_cases stuck : (decide (24 ≤ g.pulses.get zeroNat c) || last) && (outside (p.cellTarget row c) (reads.getD c 0)
        && !g.stuck.any (fun e => e.1 == c))
    · rw [List.filter_cons_of_pos (by exact stuck), List.map_cons, ← ih]
      exact List.filterMap_cons_some (if_pos (by simpa [and_comm, and_assoc] using stuck))
    · rw [List.filter_cons_of_neg (by exact stuck), ← ih]
      exact List.filterMap_cons_none (if_neg (by simpa [and_comm, and_assoc] using stuck))

/-- A pitch slot whose last read finds no further cell stuck. -/
theorem State.pitchSlot_eq {s : State} {a : Nat} {g h : Prog} {row : Nat} {p : Plane} {fresh : List Nat}
    (retargeted : (if (s.progLayer g).w8 && decide (g.slots + 1 < 50) then
        (newStuck ((s.arr a).plane (!(s.arr a).ground)) g row false reads).foldl (retarget row) ((s.arr a).plane (!(s.arr a).ground),
          { g with stuck := g.stuck ++ newStuck ((s.arr a).plane (!(s.arr a).ground)) g row false reads, slots := g.slots + 1 }, [])
      else ((s.arr a).plane (!(s.arr a).ground),
        { g with stuck := g.stuck ++ newStuck ((s.arr a).plane (!(s.arr a).ground)) g row false reads, slots := g.slots + 1 }, []))
        = (p, h, fresh))
    (last : h.lastSlot = true → newStuck p h row true reads = []) :
    s.pitchSlot a g row reads = s.pulseRow a (s.progLayer g) p h fresh row reads := by
  have ended : (if h.lastSlot then newStuck p h row true reads else []) = [] := by
    split
    · next e => exact last e
    · rfl
  unfold State.pitchSlot State.pulseRow
  dsimp only
  rw [retargeted]
  dsimp only
  rw [ended]
  simp only [List.append_nil]
  rw [Plane.cellsOut_eq length]
  generalize p.cellsOut h row reads = out
  generalize 4 + (out.filter (fun c => !fresh.contains c)).length = n
  by_cases paid : n ≤ s.gov.wrAllow
  · rw [Gov.drawWrite_paid paid, if_pos paid]
    rfl
  · rw [Gov.drawWrite_short (Nat.not_le.1 paid), if_neg paid]
    rfl

end

theorem Plane.nodup_cellsOut (p : Plane) (g : Prog) (row : Nat) (reads : List Nat) : (p.cellsOut g row reads).Nodup :=
  List.nodup_range.filter _

/-- The pulses given to a cell grow by one in a slot that pulses it. -/
theorem Prog.get_pulse (g : Prog) {hit : List Nat} (once : hit.Nodup) (c : Nat) :
    (g.pulse hit).pulses.get zeroNat c = g.pulses.get zeroNat c + (if c ∈ hit then 1 else 0) := by
  unfold Prog.pulse
  dsimp only
  generalize g.pulses = t
  induction hit generalizing t with
  | nil => rfl
  | cons k hit ih =>
    obtain ⟨new, once⟩ := List.nodup_cons.1 once
    rw [List.foldl_cons, ih once]
    by_cases hk : c = k
    · rw [hk, Tbl.get_set_same, if_neg new, if_pos List.mem_cons_self]
    · rw [Tbl.get_set_other _ _ _ _ _ hk]
      simp only [List.mem_cons, hk, false_or]

section
variable {s : State} {a : Nat} {ly : Layer} {p : Plane} {g : Prog} {fresh hit : List Nat} {row : Nat} {reads : List Nat}

theorem State.pulseRow_waits (hits : (p.cellsOut g row reads).filter (fun c => !fresh.contains c) = hit)
    (short : s.gov.wrAllow < 4 + hit.length) :
    s.pulseRow a ly p g fresh row reads = { s with gov := (s.gov.drawWrite (4 + hit.length)).1 } := by
  rw [State.pulseRow, hits]
  exact if_neg (Nat.not_le.2 short)

theorem State.pulseRow_ends (quiet : p.cellsOut g row reads = []) (paid : 4 ≤ s.gov.wrAllow) :
    s.pulseRow a ly p g fresh row reads = (s.slotTaken a 4).endRow a ly (!(s.arr a).ground) p g row reads := by
  rw [State.pulseRow, quiet]
  exact (if_pos paid).trans (if_pos rfl)

theorem State.pulseRow_pulses (hits : (p.cellsOut g row reads).filter (fun c => !fresh.contains c) = hit)
    (given : p.cellsOut g row reads ≠ []) (more : g.lastSlot = false) (paid : 4 + hit.length ≤ s.gov.wrAllow) :
    s.pulseRow a ly p g fresh row reads = (s.slotTaken a (4 + hit.length)).modArr a
      (fun x => { (x.setPlane (!(s.arr a).ground) p) with prog := some (g.pulse hit) }) := by
  rw [State.pulseRow, hits]
  exact (if_pos paid).trans (if_neg (by simp [given, more]))

/-- Array and state after a change in a slot that has started. -/
theorem State.arr_slotTaken_modArr (n : Nat) (f : Arr → Arr) : ((s.slotTaken a n).modArr a f).arr a
    = f { s.arr a with sinceMaint := 0, verify := verifySlot, writing := true } := by
  rw [State.arr_modArr_same, State.slotTaken, State.arr_modArr_same]
  rfl

theorem State.arr_slotTaken_other (n : Nat) (f : Arr → Arr) {b : Nat} (hb : b ≠ a) :
    ((s.slotTaken a n).modArr a f).arr b = s.arr b := by
  rw [State.arr_modArr_other _ _ _ _ hb, State.slotTaken, State.arr_modArr_other _ _ _ _ hb]
  rfl

end

/-! ## The end of a row (R101) -/

/-- The patch entries that a row ends with. -/
def rowEntries (ly : Layer) (p : Plane) (g : Prog) (row : Nat) : List (List Byte) :=
  (((g.stuck.filter (fun e => e.1 < 512)).map (fun e => if ly.w8 then e.1 / 2 else e.1)).eraseDups).filterMap (fun j =>
    let d := residual ly p g row (if ly.w8 then 2 * j else j)
    if d = 0 then none else some (patchEntry row j (deltaBits ly.cb4 d)))

/-- The array after the end of a row: its cells as read, its stuck cells recorded, the next row in programming. -/
def Arr.endRow (plane : Bool) (p : Plane) (g : Prog) (row : Nat) (reads : List Nat) (x : Arr) : Arr :=
  { (x.setPlane plane { p with
      cells := p.cells.fill (row * 520) (reads.map (· + 1)), stuck := p.stuck ++ g.stuck.map (fun e => row * 520 + e.1) }) with
    prog := some { g with rows := g.rows.drop 1, left := g.left - 1, slots := 0, pulses := [], stuck := [], intend := [] } }

section
variable (plane : Bool) (p : Plane) (g : Prog) (row : Nat) (reads : List Nat) (x : Arr)

@[simp] theorem Arr.prog_endRow : (x.endRow plane p g row reads).prog
    = some { g with rows := g.rows.drop 1, left := g.left - 1, slots := 0, pulses := [], stuck := [], intend := [] } := rfl

@[simp] theorem Arr.plane_endRow_same : (x.endRow plane p g row reads).plane plane = { p with
    cells := p.cells.fill (row * 520) (reads.map (· + 1)), stuck := p.stuck ++ g.stuck.map (fun e => row * 520 + e.1) } :=
  Arr.plane_setPlane_same x plane _

theorem Arr.plane_endRow_other {b : Bool} (h : b ≠ plane) : (x.endRow plane p g row reads).plane b = x.plane b :=
  Arr.plane_setPlane_other x _ h

@[simp] theorem Arr.sinceMaint_endRow : (x.endRow plane p g row reads).sinceMaint = x.sinceMaint := Arr.sinceMaint_setPlane x plane _
@[simp] theorem Arr.verify_endRow : (x.endRow plane p g row reads).verify = x.verify := Arr.verify_setPlane x plane _

end

/-- The signature of a stuck cell. -/
def State.signStuck (s : State) (a : Nat) (ly : Layer) (p : Plane) (g : Prog) (row : Nat) (e : Nat × Nat) : State :=
  s.emit 0x0B {
    loc := s.arrLoc a [e.1]
    data := leBytes 2 row ++ leBytes 2 e.1 ++ leBytes 2 (if e.1 < 512 then deltaBits ly.cb4 (residual ly p g row e.1) else 0) }

theorem State.endRow_eq (s : State) (a : Nat) (ly : Layer) (plane : Bool) (p : Plane) (g : Prog) (row : Nat) (reads : List Nat) :
    s.endRow a ly plane p g row reads = ((s.modArr a (Arr.endRow plane p g row reads)).each g.stuck
      (fun s e => s.signStuck a ly p g row e)).addPatches a plane ly.cb4 false (rowEntries ly p g row) := rfl

section
variable {ly : Layer} {p : Plane} {g : Prog} {row : Nat}

/-- A row without stuck cells ends alone. -/
theorem State.endRow_clean {s : State} {a : Nat} {plane : Bool} {reads : List Nat} (clean : g.stuck = []) :
    s.endRow a ly plane p g row reads = s.modArr a (Arr.endRow plane p g row reads) := by
  have entries : rowEntries ly p g row = [] := by rw [rowEntries, clean]; rfl
  rw [State.endRow_eq, entries, clean]
  rfl

/-- The residual is that of the weight, whichever of its columns is named. -/
theorem residual_weight (c : Nat) : residual ly p g row (if ly.w8 then 2 * (c / 2) else c) = residual ly p g row c := by
  split
  · next w8 =>
    simp only [residual, w8, if_true]
    rw [Nat.mul_div_cancel_left _ (by decide : 0 < 2)]
  · rfl

variable {c v : Nat}

theorem rowEntries_one (only : g.stuck = [(c, v)]) (hc : c < 512) : rowEntries ly p g row
    = if residual ly p g row c = 0 then []
      else [patchEntry row (if ly.w8 then c / 2 else c) (deltaBits ly.cb4 (residual ly p g row c))] := by
  have weight : residual ly p g row (if ly.w8 then 2 * (if ly.w8 then c / 2 else c) else if ly.w8 then c / 2 else c)
      = residual ly p g row c := by
    rw [← residual_weight c]
    split <;> rfl
  rw [rowEntries, only, List.filter_cons_of_pos (by simpa using hc), List.filter_nil, List.map_cons, List.map_nil]
  change List.filterMap _ [if ly.w8 then c / 2 else c] = _
  simp only [List.filterMap_cons, List.filterMap_nil, weight]
  by_cases whole : residual ly p g row c = 0
  · simp only [whole, if_true]
  · simp only [whole, if_false]

end

end Sys2Proof.Machine
end


/-! ## The rows of the verify slots, and O33 -/
section
namespace Sys2Proof.Machine

section
variable {s : State} {crew : Fin 256} {slot : Fin 17} {reads : List Nat} (length : reads.length = 520)
include length

theorem exec_maintenanceSlot : exec (.maintenanceSlot crew slot reads) s
    = (let a := arrIdx crew.val slot.val
      let x := s.arr a
      if !s.slotOpen a then .next s
      else if x.limitRefresh then .next (if s.writerFree a then s.refreshSlot a (x.maint.rows.headD 0) reads else s)
      else if x.pitchWaits || !x.spaced s.cfg.space.toNat then .next s
      else if x.census && x.maint.censusRow < 512 then .next (s.censusSlot a reads)
      else if x.refresh && !x.maint.rows.isEmpty then .next (s.refreshSlot a (x.maint.rows.headD 0) reads)
      else .next s) := if_neg (not_not.2 length)

theorem exec_maintenanceSlot_closed (closed : s.slotOpen (arrIdx crew.val slot.val) = false) :
    exec (.maintenanceSlot crew slot reads) s = .next s := by
  rw [exec_maintenanceSlot length]
  exact if_pos (by rw [closed]; rfl)

theorem exec_maintenanceSlot_busy (limit : (s.arr (arrIdx crew.val slot.val)).limitRefresh = true)
    (busy : s.writerFree (arrIdx crew.val slot.val) = false) : exec (.maintenanceSlot crew slot reads) s = .next s := by
  rw [exec_maintenanceSlot length]
  simp only [limit, busy, if_true, Bool.false_eq_true, if_false, ite_self]

theorem exec_maintenanceSlot_limit (free : s.slotOpen (arrIdx crew.val slot.val) = true)
    (limit : (s.arr (arrIdx crew.val slot.val)).limitRefresh = true) (writer : s.writerFree (arrIdx crew.val slot.val) = true) :
    exec (.maintenanceSlot crew slot reads) s = .next (s.refreshSlot (arrIdx crew.val slot.val)
      ((s.arr (arrIdx crew.val slot.val)).maint.rows.headD 0) reads) := by
  rw [exec_maintenanceSlot length]
  simp only [free, limit, writer, if_true, Bool.not_true, Bool.false_eq_true, if_false]

section
variable (below : (s.arr (arrIdx crew.val slot.val)).limitRefresh = false)
include below

/-- Below the drift limit, in a slot that no pitch slot goes before. -/
theorem exec_maintenanceSlot_turn (free : s.slotOpen (arrIdx crew.val slot.val) = true)
    (waits : (s.arr (arrIdx crew.val slot.val)).pitchWaits = false)
    (spaced : (s.arr (arrIdx crew.val slot.val)).spaced s.cfg.space.toNat = true) : exec (.maintenanceSlot crew slot reads) s
    = (let x := s.arr (arrIdx crew.val slot.val)
      if x.census && x.maint.censusRow < 512 then .next (s.censusSlot (arrIdx crew.val slot.val) reads)
      else if x.refresh && !x.maint.rows.isEmpty then .next (s.refreshSlot (arrIdx crew.val slot.val) (x.maint.rows.headD 0) reads)
      else .next s) := by
  rw [exec_maintenanceSlot length]
  simp only [free, below, waits, spaced, Bool.not_true, Bool.or_self, Bool.false_eq_true, if_false]

theorem exec_maintenanceSlot_noTurn (no : ¬((s.arr (arrIdx crew.val slot.val)).pitchWaits = false
      ∧ (s.arr (arrIdx crew.val slot.val)).spaced s.cfg.space.toNat = true)) :
    exec (.maintenanceSlot crew slot reads) s = .next s := by
  have no : ((s.arr (arrIdx crew.val slot.val)).pitchWaits || !(s.arr (arrIdx crew.val slot.val)).spaced s.cfg.space.toNat) = true := by
    simpa [imp_iff_not_or] using no
  rw [exec_maintenanceSlot length]
  simp only [below, no, if_true, Bool.false_eq_true, if_false, ite_self]

end

theorem exec_pitchSlot : exec (.pitchSlot crew slot reads) s
    = (let a := arrIdx crew.val slot.val
      let x := s.arr a
      if !s.slotOpen a || x.limitRefresh || !x.spaced s.cfg.space.toNat || !s.writerFree a then .next s
      else match x.prog with
        | none => .next s
        | some g => match g.rows with
          | [] => .next s
          | row :: _ => .next (if s.pitchTurn g then s.pitchSlot a g row reads else s)) := (if_neg (not_not.2 length)).trans rfl

theorem exec_pitchSlot_closed (closed : s.slotOpen (arrIdx crew.val slot.val) = false
      ∨ (s.arr (arrIdx crew.val slot.val)).limitRefresh = true ∨ (s.arr (arrIdx crew.val slot.val)).spaced s.cfg.space.toNat = false
      ∨ s.writerFree (arrIdx crew.val slot.val) = false) : exec (.pitchSlot crew slot reads) s = .next s := by
  rw [exec_pitchSlot length]
  refine if_pos ?_
  obtain h | h | h | h := closed <;> simp [h]

theorem exec_pitchSlot_idle (idle : (s.arr (arrIdx crew.val slot.val)).prog = none) :
    exec (.pitchSlot crew slot reads) s = .next s := by
  rw [exec_pitchSlot length]
  simp only [idle, ite_self]

theorem exec_pitchSlot_row (free : s.slotOpen (arrIdx crew.val slot.val) = true)
    (below : (s.arr (arrIdx crew.val slot.val)).limitRefresh = false)
    (spaced : (s.arr (arrIdx crew.val slot.val)).spaced s.cfg.space.toNat = true)
    (writer : s.writerFree (arrIdx crew.val slot.val) = true) {g : Prog} (prog : (s.arr (arrIdx crew.val slot.val)).prog = some g)
    {row : Nat} {rest : List Nat} (rows : g.rows = row :: rest) : exec (.pitchSlot crew slot reads) s
      = .next (if s.pitchTurn g then s.pitchSlot (arrIdx crew.val slot.val) g row reads else s) := by
  rw [exec_pitchSlot length]
  simp only [free, below, spaced, writer, prog, rows, Bool.not_true, Bool.or_self, Bool.false_eq_true, if_false]

end

section
variable {s : State} {a row : Nat} {g : Prog} {reads : List Nat} (length : reads.length = 520)

/-- A slot counted for the row in programming. -/
def Prog.tick (g : Prog) : Prog := { g with slots := g.slots + 1 }

/-- A row goes on before its 25th slot, and where a low cell has another level before its 50th. -/
theorem Prog.lastSlot_early {g : Prog} (slots : g.slots < 50) (late : g.intend ≠ [] ∨ g.slots < 25) : g.lastSlot = false := by
  rw [Prog.lastSlot, decide_eq_false (Nat.not_le.2 slots), Bool.or_false]
  obtain given | early := late
  · rw [List.isEmpty_eq_false_iff.2 given, Bool.false_and]
  · rw [decide_eq_false (Nat.not_le.2 early), Bool.and_false]

theorem filter_fresh_nil (l : List Nat) : l.filter (fun c => !([] : List Nat).contains c) = l :=
  List.filter_eq_self.2 fun _ _ => rfl

include length

/-- A slot whose cells outside have pulses left, and which is not the last one while there are any, finds no cell stuck. -/
theorem State.pitchSlot_unstuck (young : ∀ c ∈ ((s.arr a).plane (!(s.arr a).ground)).cellsOut g row reads, g.pulses.get zeroNat c < 24)
    (more : ((s.arr a).plane (!(s.arr a).ground)).cellsOut g row reads = [] ∨ g.tick.lastSlot = false) : s.pitchSlot a g row reads
      = s.pulseRow a (s.progLayer g) ((s.arr a).plane (!(s.arr a).ground)) g.tick [] row reads := by
  have found : newStuck ((s.arr a).plane (!(s.arr a).ground)) g row false reads = [] := by
    rw [newStuck_eq length, List.filter_eq_nil_iff.2 fun c hc => by simpa using young c hc, List.map_nil]
  refine State.pitchSlot_eq length ?_ fun last => ?_
  · rw [found, List.append_nil, List.foldl_nil, ite_self]
    rfl
  · rw [newStuck_eq length]
    obtain quiet | more := more
    · rw [show ((s.arr a).plane (!(s.arr a).ground)).cellsOut g.tick row reads = [] from quiet]
      rfl
    · rw [more] at last
      cases last

end

/-- The level that the low cell of an 8-bit weight gets for a high cell stuck at conductance `v` (R101). -/
def Plane.missing (p : Plane) (row c v : Nat) : Nat :=
  (clampInt 0 15 ((16 * p.target.get zeroNat (row * 512 + c) + p.target.get zeroNat (row * 512 + c + 1) : Nat)
    - 16 * (p.levelOf v : Int))).toNat

/-- The plane with that level. -/
def Plane.retargeted (p : Plane) (row c v : Nat) : Plane :=
  { p with target := p.target.set zeroNat (row * 512 + c + 1) (p.missing row c v) }

theorem retarget_high {row c v : Nat} {p : Plane} {g : Prog} {fresh : List Nat} (hc : c < 512) (even : c % 2 = 0)
    (new : p.missing row c v ≠ p.target.get zeroNat (row * 512 + c + 1)) (first : g.intend = []) :
    retarget row (p, g, fresh) (c, v) = (p.retargeted row c v,
      { g with
        pulses := g.pulses.del (c + 1), stuck := g.stuck.filter (fun x => x.1 ≠ c + 1)
        intend := [(c / 2, 16 * p.target.get zeroNat (row * 512 + c) + p.target.get zeroNat (row * 512 + c + 1))] },
      (c + 1) :: fresh) := by
  have usable : ¬(512 ≤ c ∨ c % 2 = 1 ∨ p.missing row c v = p.target.get zeroNat (row * 512 + c + 1)) := by
    rintro (h | h | h)
    · omega
    · omega
    · exact new h
  refine (if_neg usable).trans ?_
  rw [first]
  rfl

/-- Only the cell that was retargeted has another target. -/
theorem Plane.cellTarget_retargeted_other {p : Plane} {row c v k : Nat} (hk : k ≠ c + 1) :
    (p.retargeted row c v).cellTarget row k = p.cellTarget row k := by
  unfold Plane.cellTarget Plane.retargeted
  dsimp only
  rw [Tbl.get_set_other _ _ _ _ _ (by omega)]
  rfl

theorem Plane.cellTarget_retargeted {p : Plane} {row c v : Nat} (hc : c + 1 < 512) :
    (p.retargeted row c v).cellTarget row (c + 1) = p.levelTarget (p.missing row c v) := by
  unfold Plane.cellTarget Plane.retargeted
  dsimp only
  rw [if_pos hc, ← Nat.add_assoc, Tbl.get_set_same]
  rfl

theorem filter_range_single {n c : Nat} {f : Nat → Bool} (hc : c < n) (here : f c = true) (alone : ∀ k, k < n → k ≠ c → f k = false) :
    (List.range n).filter f = [c] := by
  have same : (List.range n).filter f = (List.range n).filter (· == c) := List.filter_congr fun k hk => by
    by_cases e : k = c
    · rw [e, here, beq_self_eq_true]
    · rw [alone k (List.mem_range.1 hk) e, beq_false_of_ne e]
  rw [same, List.filter_beq, List.count_eq_one_of_mem List.nodup_range (List.mem_range.2 hc)]
  rfl

section
variable {p : Plane} {g : Prog} {row c : Nat} {reads : List Nat}

theorem Plane.cellsOut_eq_nil (inside : ∀ k, k < 520 → g.stuck.any (fun e => e.1 == k) = false →
    outside (p.cellTarget row k) (reads.getD k 0) = false) : p.cellsOut g row reads = [] := by
  refine List.filter_eq_nil_iff.2 fun k hk => ?_
  rw [List.mem_range] at hk
  cases stuck : g.stuck.any (fun e => e.1 == k)
  · rw [inside k hk stuck]
    exact Bool.false_ne_true
  · simp

theorem Plane.cellsOut_single (hc : c < 520) (here : outside (p.cellTarget row c) (reads.getD c 0) = true)
    (free : g.stuck.any (fun e => e.1 == c) = false) (inside : ∀ k, k < 520 → k ≠ c → g.stuck.any (fun e => e.1 == k) = false →
      outside (p.cellTarget row k) (reads.getD k 0) = false) : p.cellsOut g row reads = [c] := by
  refine filter_range_single hc (by simp only [here, free]; rfl) fun k hk ne => ?_
  cases stuck : g.stuck.any (fun e => e.1 == k)
  · rw [inside k hk ne stuck]
    rfl
  · simp

end

/-- The programming record after the high cell `c` of an 8-bit weight has been found stuck at conductance `v`. -/
def Prog.retargeted (g : Prog) (p : Plane) (row c v : Nat) : Prog :=
  { g with
    slots := g.slots + 1, pulses := g.pulses.del (c + 1), stuck := [(c, v)]
    intend := [(c / 2, 16 * p.target.get zeroNat (row * 512 + c) + p.target.get zeroNat (row * 512 + c + 1))] }

section
variable {s : State} {a row c v : Nat} {g : Prog} {reads : List Nat} {p : Plane}

/-- A slot that finds one high cell stuck, after 24 pulses, gives its low cell another level. -/
theorem State.pitchSlot_retargets (length : reads.length = 520) (w8 : (s.progLayer g).w8 = true) (clean : g.stuck = [])
    (first : g.intend = []) (slots : g.slots + 1 < 50) (hc : c < 512) (even : c % 2 = 0)
    (plane : (s.arr a).plane (!(s.arr a).ground) = p) (reading : reads.getD c 0 = v)
    (here : outside (p.cellTarget row c) v = true) (old : 24 ≤ g.pulses.get zeroNat c)
    (inside : ∀ k, k < 520 → k ≠ c → outside (p.cellTarget row k) (reads.getD k 0) = false)
    (new : p.missing row c v ≠ p.target.get zeroNat (row * 512 + c + 1)) : s.pitchSlot a g row reads
      = s.pulseRow a (s.progLayer g) (p.retargeted row c v) (g.retargeted p row c v) [c + 1] row reads := by
  have out : p.cellsOut g row reads = [c] := Plane.cellsOut_single (by omega) (by rw [reading]; exact here) (by rw [clean]; rfl)
    fun k hk ne _ => inside k hk ne
  have found : newStuck p g row false reads = [(c, v)] := by
    rw [newStuck_eq length, out, List.filter_cons_of_pos (by simpa using old), List.filter_nil, List.map_cons, List.map_nil, reading]
  refine State.pitchSlot_eq length ?_ fun last => ?_
  · rw [plane, found, clean, if_pos (by simp [w8, slots]), List.nil_append, List.foldl_cons, List.foldl_nil]
    rw [retarget_high (g := { g with slots := g.slots + 1, stuck := [(c, v)] }) hc even new first, List.filter_cons_of_pos (by simp)]
    rfl
  · have more : (g.retargeted p row c v).lastSlot = false := Prog.lastSlot_early slots (.inl (List.cons_ne_nil _ _))
    rw [more] at last
    cases last

/-- That low cell is then the only one outside, and takes no pulse yet. -/
theorem Plane.cellsOut_retargeted (hc : c < 512) (even : c % 2 = 0)
    (low : outside (p.levelTarget (p.missing row c v)) (reads.getD (c + 1) 0) = true)
    (inside : ∀ k, k < 520 → k ≠ c → outside (p.cellTarget row k) (reads.getD k 0) = false) :
    (p.retargeted row c v).cellsOut (g.retargeted p row c v) row reads = [c + 1] := by
  refine Plane.cellsOut_single (by omega) ?_ (by simp [Prog.retargeted]) fun k hk ne stuck => ?_
  · rw [Plane.cellTarget_retargeted (by omega)]
    exact low
  · rw [Plane.cellTarget_retargeted_other ne]
    exact inside k hk (by rintro rfl; simp [Prog.retargeted] at stuck)

end

/-! ## Residuals (R101) -/

section
variable {p : Plane} {g : Prog} {row c v : Nat} (only : g.stuck = [(c, v)])
include only

theorem storedLevel_stuck : storedLevel p g row c = p.levelOf v := by
  simp [storedLevel, only]

theorem storedLevel_other {k : Nat} (hk : k ≠ c) : storedLevel p g row k = p.target.get zeroNat (row * 512 + k) := by
  simp [storedLevel, only, Ne.symm hk]

variable {ly : Layer}

theorem residual_integer (w8 : ly.w8 = false) (cb4 : ly.cb4 = false) :
    residual ly p g row c = ((((p.target.get zeroNat (row * 512 + c) : Nat) : Int) - (p.levelOf v : Int) : Int) : Rat) := by
  simp only [residual, w8, cb4, Bool.false_eq_true, if_false, storedLevel_stuck only]

theorem residual_codebook (w8 : ly.w8 = false) (cb4 : ly.cb4 = true) : residual ly p g row c
    = f16Q (ly.codebook (p.target.get zeroNat (row * 512 + c))) - f16Q (ly.codebook (p.levelOf v)) := by
  simp only [residual, w8, cb4, Bool.false_eq_true, if_true, if_false, storedLevel_stuck only]

theorem residual_low (w8 : ly.w8 = true) (first : g.intend = []) {j : Nat} (odd : c = 2 * j + 1) : residual ly p g row (2 * j)
    = ((((p.target.get zeroNat (row * 512 + c) : Nat) : Int) - (p.levelOf v : Int) : Int) : Rat) := by
  subst odd
  simp only [residual, w8, if_true, first, List.find?_nil, Option.map_none, Option.getD_none,
    Nat.mul_div_cancel_left j (by decide : 0 < 2), storedLevel_stuck only, storedLevel_other only (show 2 * j ≠ 2 * j + 1 by omega)]
  congr 1
  omega

theorem residual_high (w8 : ly.w8 = true) {j u : Nat} (even : c = 2 * j) (intend : g.intend = [(j, u)]) : residual ly p g row (2 * j)
    = (((u : Int) - (16 * p.levelOf v + p.target.get zeroNat (row * 512 + (c + 1)) : Nat) : Int) : Rat) := by
  subst even
  simp only [residual, w8, if_true, intend, Nat.mul_div_cancel_left j (by decide : 0 < 2), List.find?_cons, beq_self_eq_true,
    Option.map_some, Option.getD_some, storedLevel_stuck only, storedLevel_other only (show 2 * j + 1 ≠ 2 * j by omega)]

end

/-! ## A row that ends with one stuck cell (R101, R104) -/

/-- From `s` to `t` a row of array `a` has ended with cell `c` stuck, whose weight has the residual `d`. -/
structure EndsStuck (s t : State) (a : Nat) (ly : Layer) (plane : Bool) (row c : Nat) (d : Rat) (f : Arr → Arr) : Prop where
  arr : t.arr a = f (s.arr a)
  others : ∀ b, b ≠ a → t.arr b = s.arr b
  signed : Signed s t 0x0B {
    loc := [crewDie (a / 17), a / 17, s.logicalArr a, c]
    data := leBytes 2 row ++ leBytes 2 c ++ leBytes 2 (deltaBits ly.cb4 d) }
  whole : d = 0 → t.crews = s.crews
  patched : d ≠ 0 → (t.crew (a / 17)).patches (s.logicalArr a) plane
    = (s.crew (a / 17)).patches (s.logicalArr a) plane ++ [patchEntry row (if ly.w8 then c / 2 else c) (deltaBits ly.cb4 d)]
  crews : ∀ n, n ≠ a / 17 → t.crew n = s.crew n
  cmds : t.cmds = s.cmds

/-- The array changed and the signature made; the patch list is still as it was. -/
theorem State.signStuck_spec {s : State} {a : Nat} {ly : Layer} {p : Plane} {g : Prog} {row c v : Nat} (f : Arr → Arr) (hc : c < 512) :
    Aside s ((s.modArr a f).signStuck a ly p g row (c, v))
    ∧ ((s.modArr a f).signStuck a ly p g row (c, v)).arr a = f (s.arr a)
    ∧ (∀ b, b ≠ a → ((s.modArr a f).signStuck a ly p g row (c, v)).arr b = s.arr b)
    ∧ Signed s ((s.modArr a f).signStuck a ly p g row (c, v)) 0x0B {
        loc := [crewDie (a / 17), a / 17, s.logicalArr a, c]
        data := leBytes 2 row ++ leBytes 2 c ++ leBytes 2 (deltaBits ly.cb4 (residual ly p g row c)) } := by
  have info : (s.modArr a f).signStuck a ly p g row (c, v) = (s.modArr a f).emit 0x0B {
      loc := [crewDie (a / 17), a / 17, s.logicalArr a, c]
      data := leBytes 2 row ++ leBytes 2 c ++ leBytes 2 (deltaBits ly.cb4 (residual ly p g row c)) } := by
    rw [State.signStuck, if_pos hc]
    rfl
  rw [info]
  refine ⟨(Aside.modArr _ _ _).trans (Aside.emit _ _ _), ?_, fun b hb => ?_, Signed.congr (State.signed_emit _ _ _) rfl rfl rfl⟩
  · rw [State.arr_emit, State.arr_modArr_same]
  · rw [State.arr_emit, State.arr_modArr_other _ _ _ _ hb]

theorem State.endRow_stuck {s : State} {a : Nat} (ly : Layer) (plane : Bool) (p : Plane) {g : Prog} (row : Nat) (reads : List Nat)
    {c v : Nat} (only : g.stuck = [(c, v)]) (hc : c < 512) (wf : Memory.wf (s.crew (a / 17)).sram)
    (room : ((s.crew (a / 17)).patches (s.logicalArr a) plane).length < 64) :
    EndsStuck s (s.endRow a ly plane p g row reads) a ly plane row c (residual ly p g row c) (Arr.endRow plane p g row reads) := by
  have ended : s.endRow a ly plane p g row reads = ((s.modArr a (Arr.endRow plane p g row reads)).signStuck a ly p g row (c, v)).addPatches
      a plane ly.cb4 false (rowEntries ly p g row) := by
    rw [State.endRow_eq, only]
    rfl
  obtain ⟨aside, arr, others, signed⟩ := State.signStuck_spec (s := s) (a := a) (ly := ly) (p := p) (g := g) (row := row) (v := v)
    (Arr.endRow plane p g row reads) hc
  rw [ended, rowEntries_one only hc]
  generalize (s.modArr a (Arr.endRow plane p g row reads)).signStuck a ly p g row (c, v) = w at aside arr others signed
  have crew (n : Nat) : w.crew n = s.crew n := by
    rw [aside.rest]
    rfl
  have logical : w.logicalArr a = s.logicalArr a := by rw [State.logicalArr, State.logicalArr, crew]
  split
  · next zero =>
    rw [State.addPatches_nil]
    exact ⟨arr, others, signed, fun _ => (congrArg State.crews aside.rest :), fun given => absurd zero given, fun n _ => crew n,
      (congrArg State.cmds aside.rest :)⟩
  · next given =>
    rw [State.addPatches_fits ly.cb4 false (by rwa [crew, logical]), crew, logical]
    refine ⟨arr, others, signed, fun zero => absurd zero given, fun _ => ?_, fun n hn => ?_, (congrArg State.cmds aside.rest :)⟩
    · rw [State.crew_modCrew_same, crew]
      refine Crew.patches_setPatches ?_ ?_ wf _ _
      · rw [List.length_append, List.length_singleton]
        omega
      · intro e he
        obtain he | he := List.mem_append.1 he
        · exact Crew.isPatch_patches he
        · rw [List.mem_singleton.1 he]
          refine isPatch_patchEntry ?_
          split <;> omega
    · rw [State.crew_modCrew_other _ _ _ _ hn, crew]

end Sys2Proof.Machine
end


/-! ## The outcomes of a pitch slot (R101, R157, R158) -/
section
namespace Sys2Proof.Machine

theorem getD_of_getElem? {l : List Nat} {i v : Nat} (h : l[i]? = some v) : l.getD i 0 = v := by
  rw [List.getD_eq_getElem?_getD, h, Option.getD_some]

theorem getElem?_of_length {l : List Nat} {n i : Nat} (length : l.length = n) (h : i < n) : l[i]? = some (l.getD i 0) := by
  rw [List.getD_eq_getElem?_getD, List.getElem?_eq_getElem (by omega), Option.getD_some]

section
variable {s : State} {a row : Nat} {g : Prog} {reads rest : List Nat} (length : reads.length = 520)
include length

/-- A row with no cell outside its window ends, once its tokens are there. -/
theorem State.pitchSlot_clean (rows : g.rows = row :: rest) (clean : g.stuck = [])
    (inside : ∀ k, k < 520 → outside (((s.arr a).plane (!(s.arr a).ground)).cellTarget row k) (reads.getD k 0) = false) :
    (s.gov.wrAllow < 4 → s.pitchSlot a g row reads = { s with gov := (s.gov.drawWrite 4).1 })
    ∧ (4 ≤ s.gov.wrAllow →
      (∃ h, ((s.pitchSlot a g row reads).arr a).prog = some h ∧ h.rows = rest ∧ h.left = g.left - 1 ∧ h.slots = 0)
      ∧ (∀ c v, c < 520 → reads[c]? = some v →
          (((s.pitchSlot a g row reads).arr a).plane (!(s.arr a).ground)).cells.get zeroNat (row * 520 + c) = v + 1)
      ∧ ((s.pitchSlot a g row reads).arr a).plane (s.arr a).ground = (s.arr a).plane (s.arr a).ground
      ∧ ((s.pitchSlot a g row reads).arr a).sinceMaint = 0 ∧ ((s.pitchSlot a g row reads).arr a).verify = verifySlot
      ∧ (∀ b, b ≠ a → (s.pitchSlot a g row reads).arr b = s.arr b)
      ∧ s.pitchSlot a g row reads = { s with gov := (s.gov.drawWrite 4).1, arrs := (s.pitchSlot a g row reads).arrs }) := by
  have quiet (h : Prog) : ((s.arr a).plane (!(s.arr a).ground)).cellsOut h row reads = [] := Plane.cellsOut_eq_nil fun k hk _ => inside k hk
  rw [State.pitchSlot_unstuck length (fun c hc => by rw [quiet] at hc; cases hc) (.inl (quiet g))]
  refine ⟨fun short => State.pulseRow_waits (hit := []) (by rw [quiet]; rfl) short, fun paid => ?_⟩
  rw [State.pulseRow_ends (quiet _) paid, State.endRow_clean (g := g.tick) clean, State.arr_slotTaken_modArr]
  refine ⟨⟨_, Arr.prog_endRow _ _ _ _ _ _, ?_, rfl, rfl⟩, fun c v hc reading => ?_, Arr.plane_endRow_other _ _ _ _ _ _ ?_,
    Arr.sinceMaint_endRow _ _ _ _ _ _, Arr.verify_endRow _ _ _ _ _ _, fun b hb => State.arr_slotTaken_other _ _ hb, rfl⟩
  · show g.rows.drop 1 = rest
    rw [rows]
    rfl
  · have added : (reads.map (· + 1))[c]? = some (v + 1) := by
      rw [List.getElem?_map, reading]
      rfl
    obtain ⟨inside, -⟩ := List.getElem?_eq_some_iff.1 added
    rw [Arr.plane_endRow_same]
    exact (Tbl.get_fill _ _ inside).trans (getD_of_getElem? added)
  · exact (Bool.not_ne_self _).symm

/-- Cells outside that have pulses left take one each, once the tokens are there. -/
theorem State.pitchSlot_pulses {out : List Nat} (outs : ((s.arr a).plane (!(s.arr a).ground)).cellsOut g row reads = out) (given : out ≠ [])
    (young : ∀ c ∈ out, g.pulses.get zeroNat c < 24) (slots : g.slots + 1 < 50) (last : g.intend ≠ [] ∨ g.slots + 1 < 25) :
    (s.gov.wrAllow < 4 + out.length → s.pitchSlot a g row reads = { s with gov := (s.gov.drawWrite (4 + out.length)).1 })
    ∧ (4 + out.length ≤ s.gov.wrAllow →
      (∃ h, ((s.pitchSlot a g row reads).arr a).prog = some h ∧ h = { g with slots := g.slots + 1, pulses := h.pulses }
        ∧ ∀ c, h.pulses.get zeroNat c = g.pulses.get zeroNat c + (if c ∈ out then 1 else 0))
      ∧ ((s.pitchSlot a g row reads).arr a).plane (!(s.arr a).ground) = (s.arr a).plane (!(s.arr a).ground)
      ∧ ((s.pitchSlot a g row reads).arr a).verify = verifySlot ∧ (∀ b, b ≠ a → (s.pitchSlot a g row reads).arr b = s.arr b)
      ∧ s.pitchSlot a g row reads = { s with
          gov := (s.gov.drawWrite (4 + out.length)).1, arrs := (s.pitchSlot a g row reads).arrs }) := by
  have more : g.tick.lastSlot = false := Prog.lastSlot_early slots last
  have once : out.Nodup := outs ▸ Plane.nodup_cellsOut _ g _ _
  have outs' : ((s.arr a).plane (!(s.arr a).ground)).cellsOut g.tick row reads = out := outs
  have hits := (filter_fresh_nil _).trans outs'
  rw [State.pitchSlot_unstuck length (by rw [outs]; exact young) (.inr more)]
  refine ⟨State.pulseRow_waits hits, fun paid => ?_⟩
  rw [State.pulseRow_pulses hits (by rw [outs']; exact given) more paid, State.arr_slotTaken_modArr]
  exact ⟨⟨_, rfl, rfl, Prog.get_pulse g.tick once⟩, Arr.plane_setPlane_same _ _ _, Arr.verify_setPlane _ _ _,
    fun b hb => State.arr_slotTaken_other _ _ hb, rfl⟩

variable {c v : Nat} {p : Plane}

/-- A high cell found stuck: its low cell gets another level and a fresh allowance of pulses. -/
theorem State.pitchSlot_stuckHigh (w8 : (s.progLayer g).w8 = true) (clean : g.stuck = []) (first : g.intend = [])
    (slots : g.slots + 1 < 50) (paid : 4 ≤ s.gov.wrAllow) (hc : c < 512) (even : c % 2 = 0)
    (plane : (s.arr a).plane (!(s.arr a).ground) = p) (reading : reads.getD c 0 = v)
    (here : outside (p.cellTarget row c) v = true) (old : 24 ≤ g.pulses.get zeroNat c)
    (inside : ∀ k, k < 520 → k ≠ c → outside (p.cellTarget row k) (reads.getD k 0) = false)
    (new : p.missing row c v ≠ p.target.get zeroNat (row * 512 + c + 1))
    (low : outside (p.levelTarget (p.missing row c v)) (reads.getD (c + 1) 0) = true) :
    (∃ y, ((s.pitchSlot a g row reads).arr a).prog = some y ∧ y.stuck = [(c, v)]
      ∧ y.intend = [(c / 2, 16 * p.target.get zeroNat (row * 512 + c) + p.target.get zeroNat (row * 512 + c + 1))]
      ∧ y.pulses.get zeroNat (c + 1) = 0
      ∧ y = { g with slots := g.slots + 1, pulses := y.pulses, stuck := y.stuck, intend := y.intend })
    ∧ (((s.pitchSlot a g row reads).arr a).plane (!(s.arr a).ground)).target.get zeroNat (row * 512 + c + 1) = p.missing row c v
    ∧ (∀ k, k ≠ row * 512 + c + 1 →
        (((s.pitchSlot a g row reads).arr a).plane (!(s.arr a).ground)).target.get zeroNat k = p.target.get zeroNat k)
    ∧ (∀ b, b ≠ a → (s.pitchSlot a g row reads).arr b = s.arr b)
    ∧ s.pitchSlot a g row reads = { s with gov := (s.gov.drawWrite 4).1, arrs := (s.pitchSlot a g row reads).arrs } := by
  have outs := Plane.cellsOut_retargeted (g := g) hc even low inside
  have more : (g.retargeted p row c v).lastSlot = false := Prog.lastSlot_early slots (.inl (List.cons_ne_nil _ _))
  have hits : ((p.retargeted row c v).cellsOut (g.retargeted p row c v) row reads).filter (fun k => !(([c + 1] : List Nat).contains k)) = [] := by
    rw [outs]
    simp
  rw [State.pitchSlot_retargets length w8 clean first slots hc even plane reading here old inside new,
    State.pulseRow_pulses hits (by rw [outs]; exact List.cons_ne_nil _ _) more paid, State.arr_slotTaken_modArr]
  have fly (x : Arr) (b : Bool) (y : Option Prog) : ({ (x.setPlane b (p.retargeted row c v)) with prog := y } : Arr).plane b
      = p.retargeted row c v := Arr.plane_setPlane_same x b _
  rw [fly]
  exact ⟨⟨_, rfl, rfl, rfl, Tbl.get_del_same _ _ _, rfl⟩, Tbl.get_set_same _ _ _ _, fun k hk => Tbl.get_set_other _ _ _ _ _ hk,
    fun b hb => State.arr_slotTaken_other _ _ hb, rfl⟩

/-- A row whose only cell outside is stuck ends; the cell is recorded, signed, and patched where a residual is left. -/
theorem State.pitchSlot_stuckEnds (rows : g.rows = row :: rest) (only : g.stuck = [(c, v)]) (hc : c < 512) (paid : 4 ≤ s.gov.wrAllow)
    (inside : ∀ k, k < 520 → k ≠ c → outside (((s.arr a).plane (!(s.arr a).ground)).cellTarget row k) (reads.getD k 0) = false)
    (wf : Memory.wf (s.crew (a / 17)).sram)
    (room : ((s.crew (a / 17)).patches (s.logicalArr a) (!(s.arr a).ground)).length < 64) :
    let ly := s.progLayer g
    let d := residual ly ((s.arr a).plane (!(s.arr a).ground)) g row (if ly.w8 then 2 * (c / 2) else c)
    let t := s.pitchSlot a g row reads
    (∃ y, (t.arr a).prog = some y ∧ y.rows = rest ∧ y.left = g.left - 1 ∧ y.stuck = [])
    ∧ ((t.arr a).plane (!(s.arr a).ground)).stuck = ((s.arr a).plane (!(s.arr a).ground)).stuck ++ [row * 520 + c]
    ∧ Signed s t 0x0B {
        loc := [crewDie (a / 17), a / 17, s.logicalArr a, c]
        data := leBytes 2 row ++ leBytes 2 c ++ leBytes 2 (deltaBits ly.cb4 d) }
    ∧ (d = 0 → t.crews = s.crews)
    ∧ (d ≠ 0 → (t.crew (a / 17)).patches (s.logicalArr a) (!(s.arr a).ground)
        = (s.crew (a / 17)).patches (s.logicalArr a) (!(s.arr a).ground) ++ [patchEntry row (if ly.w8 then c / 2 else c) (deltaBits ly.cb4 d)])
    ∧ (∀ b, b ≠ a → t.arr b = s.arr b) ∧ (∀ n, n ≠ a / 17 → t.crew n = s.crew n) ∧ t.cmds = s.cmds := by
  intro ly d t
  have quiet (h : Prog) (hs : h.stuck = g.stuck) : ((s.arr a).plane (!(s.arr a).ground)).cellsOut h row reads = [] :=
    Plane.cellsOut_eq_nil fun k hk free => inside k hk (by rintro rfl; simp [hs, only] at free)
  have ended : t = (s.slotTaken a 4).endRow a ly (!(s.arr a).ground) ((s.arr a).plane (!(s.arr a).ground)) g.tick row reads :=
    (State.pitchSlot_unstuck length (fun c hc => by rw [quiet g rfl] at hc; cases hc) (.inl (quiet g rfl))).trans
      (State.pulseRow_ends (quiet g.tick rfl) paid)
  have weight : d = residual ly ((s.arr a).plane (!(s.arr a).ground)) g.tick row c := residual_weight c
  obtain ⟨arr, others, signed, whole, patched, crews, cmds⟩ := State.endRow_stuck (s := s.slotTaken a 4) ly (!(s.arr a).ground)
    ((s.arr a).plane (!(s.arr a).ground)) (g := g.tick) row reads only hc wf room
  rw [← ended, ← weight] at *
  refine ⟨?_, ?_, Signed.congr signed rfl rfl rfl, whole, patched, fun b hb => ?_, crews, cmds⟩
  · rw [arr]
    refine ⟨_, Arr.prog_endRow _ _ _ _ _ _, ?_, rfl, rfl⟩
    show g.rows.drop 1 = rest
    rw [rows]
    rfl
  · rw [arr, Arr.plane_endRow_same]
    show _ ++ g.stuck.map _ = _
    rw [only]
    rfl
  · rw [others b hb]
    exact State.arr_modArr_other _ _ _ _ hb

end

end Sys2Proof.Machine
end


/-! ## O33 -/
section
namespace Sys2Proof.Machine

theorem State.arr_charged_modArr (s : State) (g : Gov) (a : Nat) (f : Arr → Arr) :
    (({ s with gov := g } : State).modArr a f).arr a = f (s.arr a) := State.arr_modArr_same _ _ _

theorem State.arr_charged_other (s : State) (g : Gov) (a : Nat) (f : Arr → Arr) {b : Nat} (hb : b ≠ a) :
    (({ s with gov := g } : State).modArr a f).arr b = s.arr b := State.arr_modArr_other _ _ _ _ hb

/-- A census row read gives the levels of its data cells. -/
theorem Arr.levels_readCensus {x : Arr} {reads : List Nat} {c v : Nat} (hc : c < 512) (reading : reads[c]? = some v) :
    (x.readCensus reads).maint.levels.get zeroNat (x.maint.censusRow * 512 + c) = (x.plane x.ground).levelOf v := by
  have taken : ((reads.take 512).map (x.plane x.ground).levelOf)[c]? = some ((x.plane x.ground).levelOf v) := by
    rw [List.getElem?_map, List.getElem?_take_of_lt hc, reading]
    rfl
  obtain ⟨inside, -⟩ := List.getElem?_eq_some_iff.1 taken
  exact (Tbl.get_fill _ _ inside).trans (getD_of_getElem? taken)

/-- What a refresh slot of a row of array `a` does, its tokens short or there. -/
theorem State.refreshSlot_spec {s : State} {a row : Nat} {reads rest hit : List Nat} (length : reads.length = 520)
    (rows : (s.arr a).maint.rows = row :: rest)
    (hits : ((s.arr a).plane ((s.arr a).refreshPlane row)).refreshHits row reads = hit) :
    (s.gov.wrAllow < 4 + hit.length → s.refreshSlot a row reads = { s with gov := (s.gov.drawWrite (4 + hit.length)).1 })
    ∧ (4 + hit.length ≤ s.gov.wrAllow →
        ((s.refreshSlot a row reads).arr a).maint.rows = rest ++ (if hit.any (s.comesBack a row) then [row] else [])
        ∧ ((s.refreshSlot a row reads).arr a).sinceMaint = 0 ∧ ((s.refreshSlot a row reads).arr a).verify = verifySlot
        ∧ (∀ b, b ≠ a → (s.refreshSlot a row reads).arr b = s.arr b)
        ∧ s.refreshSlot a row reads = { s with
            gov := (s.gov.drawWrite (4 + hit.length)).1, arrs := (s.refreshSlot a row reads).arrs }) := by
  rw [State.refreshSlot_eq length hits rfl]
  refine ⟨fun short => if_neg (Nat.not_le.2 short), fun paid => ?_⟩
  rw [if_pos paid]
  refine ⟨?_, ?_, ?_, fun b hb => State.arr_charged_other _ _ _ _ hb, rfl⟩
  · rw [State.arr_charged_modArr]
    show (s.arr a).maint.rows.drop 1 ++ _ = _
    rw [rows]
    rfl
  · rw [State.arr_charged_modArr]
    rfl
  · rw [State.arr_charged_modArr]
    rfl

/-- A refresh takes its first row: at its limit at once, else in its turn, where no census goes before it. -/
theorem exec_maintenanceSlot_renews {s : State} {crew : Fin 256} {slot : Fin 17} {reads : List Nat} (length : reads.length = 520)
    (free : s.slotOpen (arrIdx crew.val slot.val) = true)
    (turn : (s.arr (arrIdx crew.val slot.val)).limitRefresh = true ∨ (s.arr (arrIdx crew.val slot.val)).pitchWaits = false
      ∧ (s.arr (arrIdx crew.val slot.val)).spaced s.cfg.space.toNat = true
      ∧ ((s.arr (arrIdx crew.val slot.val)).census = false ∨ 512 ≤ (s.arr (arrIdx crew.val slot.val)).maint.censusRow))
    (writer : (s.arr (arrIdx crew.val slot.val)).limitRefresh = true → s.writerFree (arrIdx crew.val slot.val) = true)
    (refresh : (s.arr (arrIdx crew.val slot.val)).refresh = true) {row : Nat} {rest : List Nat}
    (rows : (s.arr (arrIdx crew.val slot.val)).maint.rows = row :: rest) :
    exec (.maintenanceSlot crew slot reads) s = .next (s.refreshSlot (arrIdx crew.val slot.val) row reads) := by
  cases limit : (s.arr (arrIdx crew.val slot.val)).limitRefresh with
  | true => rw [exec_maintenanceSlot_limit length free limit (writer limit), rows, List.headD_cons]
  | false =>
    obtain h | ⟨waits, spaced, past⟩ := turn
    · rw [limit] at h
      cases h
    · rw [exec_maintenanceSlot_turn length limit free waits spaced]
      dsimp only
      rw [if_neg, if_pos, rows, List.headD_cons]
      · simp [refresh, rows]
      · obtain idle | past := past
        · simp [idle]
        · simp [past]

/-- Settles O33, row by row. -/
theorem verifySlotsReadTopUpAndCount : Obligations.VerifySlotsReadTopUpAndCount := by
  unfold Obligations.VerifySlotsReadTopUpAndCount
  intro s crew slot reads length a x reading renewing
  refine ⟨fun closed => ⟨exec_maintenanceSlot_closed length closed, exec_pitchSlot_closed length (.inl closed)⟩,
    fun free below turn => ?_, exec_maintenanceSlot_busy length, fun free turn writer refresh row rest rows => ?_,
    fun below census idle => ?_, fun closed => ?_, fun free below spaced writer g row rest prog rows => ?_,
    fun ly p g row c v only => ⟨residual_integer only, residual_codebook only, fun w8 first j => residual_low only w8 first,
      fun w8 j u => residual_high only w8⟩⟩
  · obtain ⟨waits, spaced, busy, more⟩ := turn
    have row : exec (.maintenanceSlot crew slot reads) s = .next (s.censusSlot a reads) :=
      (exec_maintenanceSlot_turn length below free waits spaced).trans (if_pos (by rw [Bool.and_eq_true]; exact ⟨busy, decide_eq_true more⟩))
    refine ⟨fun short => by rw [row, State.censusSlot_short short], fun paid => ⟨_, row, ?_⟩⟩
    rw [State.censusSlot_reads paid, State.arr_charged_modArr]
    exact ⟨rfl, rfl, rfl, fun c v hc reading => Arr.levels_readCensus hc reading, rfl,
      fun b hb => State.arr_charged_other _ _ _ _ hb, rfl⟩
  · intro fly p hit back
    have slot : exec (.maintenanceSlot crew slot reads) s = .next (s.refreshSlot a row reads) :=
      exec_maintenanceSlot_renews length free turn writer refresh rows
    have hits : ((s.arr a).plane ((s.arr a).refreshPlane row)).refreshHits row reads = hit := by
      simp only [hit, p, fly, Arr.refreshPlane, Plane.refreshHits, decide_eq_true_eq]
      rfl
    have comes (c : Nat) : s.comesBack a row c = true ↔ back c := by
      simp only [back, p, fly, State.comesBack, Arr.refreshPlane, decide_eq_true_eq]
      split <;> simp [x]
    obtain ⟨short, reads⟩ := State.refreshSlot_spec length rows hits
    refine ⟨fun few => slot.trans (congrArg _ (short few)), fun paid => ⟨_, slot, ?_⟩⟩
    obtain ⟨rows, since, verify, others, rest⟩ := reads paid
    refine ⟨fun waited => ?_, fun left => ?_, since, verify, others, rest⟩
    · obtain ⟨c, hc, hback⟩ := waited
      rw [rows, if_pos (List.any_eq_true.2 ⟨c, hc, (comes c).2 hback⟩)]
    · rw [rows, if_neg, List.append_nil]
      rw [List.any_eq_true]
      rintro ⟨c, hc, hback⟩
      exact left c hc ((comes c).1 hback)
  · by_cases turn : x.pitchWaits = false ∧ x.spaced s.cfg.space.toNat = true
    · cases free : s.slotOpen a
      · exact exec_maintenanceSlot_closed length free
      · obtain ⟨waits, spaced⟩ := turn
        have past : x.census = false ∨ 512 ≤ x.maint.censusRow := by
          by_contra h
          rw [not_or, Bool.not_eq_false, Nat.not_le] at h
          exact census ⟨waits, spaced, h⟩
        refine (exec_maintenanceSlot_turn length below free waits spaced).trans ((if_neg ?_).trans (if_neg ?_))
        · rw [Bool.and_eq_true, decide_eq_true_eq]
          exact fun h => census ⟨waits, spaced, h⟩
        · rw [Bool.and_eq_true, Bool.not_eq_true', List.isEmpty_eq_false_iff]
          rintro ⟨refresh, given⟩
          obtain off | done | no := idle
          · exact absurd refresh (by rw [show (s.arr (arrIdx crew.val slot.val)).refresh = false from off]; exact Bool.false_ne_true)
          · exact given done
          · exact no (.inr ⟨waits, spaced, past⟩)
    · exact exec_maintenanceSlot_noTurn length below turn
  · obtain limit | space | idle | writer := closed
    · exact exec_pitchSlot_closed length (.inr (.inl limit))
    · exact exec_pitchSlot_closed length (.inr (.inr (.inl space)))
    · exact exec_pitchSlot_idle length idle
    · exact exec_pitchSlot_closed length (.inr (.inr (.inr writer)))
  · intro fly read inside out ly
    have row' : exec (.pitchSlot crew slot reads) s = .next (if s.pitchTurn g then s.pitchSlot a g row reads else s) :=
      exec_pitchSlot_row length free below spaced writer prog rows
    have taken (turn : s.pitchTurn g = true) : exec (.pitchSlot crew slot reads) s = .next (s.pitchSlot a g row reads) := by
      rw [row', if_pos turn]
    refine ⟨fun later => ?_, fun turn clean within => ?_, fun turn given young slots last => ?_,
      fun turn w8 clean first slots paid c hc even here old inside' => ?_,
      fun turn paid wf c v hc only inside' => ?_⟩
    · rw [row', later]
      rfl
    · obtain ⟨short, ends⟩ := State.pitchSlot_clean (s := s) (a := a) length rows clean
        fun k hk => within k _ hk (getElem?_of_length length hk)
      exact ⟨fun few => (taken turn).trans (congrArg _ (short few)), fun paid => ⟨_, taken turn, ends paid⟩⟩
    · have outs : fly.cellsOut g row reads = out := rfl
      obtain ⟨short, pulses⟩ := State.pitchSlot_pulses (s := s) (a := a) length outs given young slots last
      exact ⟨fun few => (taken turn).trans (congrArg _ (short few)), fun paid => ⟨_, taken turn, pulses paid⟩⟩
    · intro h l l' new low
      exact ⟨_, taken turn, State.pitchSlot_stuckHigh (p := fly) (v := read c) length w8 clean first slots paid hc even rfl rfl
        (Bool.not_eq_false _ ▸ here) old inside' new low⟩
    · intro d old room
      obtain ⟨here, -⟩ := arrIdx_slot (k := crew.val) slot.isLt
      have ends := State.pitchSlot_stuckEnds (s := s) (a := a) length rows only hc paid inside' (by rw [here]; exact wf)
        (by rw [here]; exact room)
      rw [here] at ends
      exact ⟨_, taken turn, ends⟩

end Sys2Proof.Machine
end

/-! PROOFS for the family 06_pitching_weights: keys, the pitch window, admission, shards, commit, abort and swing. -/

/-! ## Key operations (R148 to R150) -/
section
namespace Sys2Proof.Machine

/-- A write of SEC_KEY_CMD reaches the security island alone. -/
theorem State.barWrite_keyCmd {s : State} (h : s.barLive = true) (w : Dword) :
    s.barWrite 0 false 0x600000 w = { s with sec := s.sec.command w.toNat } := State.barWrite_pf h _ _

/-- The fields of a GO write of SEC_KEY_CMD: GO, the operation and the slot (R149). -/
theorem keyCmd_fields (n : Fin 8) :
    (bitOf (word (2 ^ 31 + 0x10 + n.val)).toNat 31 = true ∧ bitsOf (word (2 ^ 31 + 0x10 + n.val)).toNat 4 2 = 1
      ∧ bitsOf (word (2 ^ 31 + 0x10 + n.val)).toNat 0 3 = n.val)
    ∧ bitOf (word (2 ^ 31 + 0x20 + n.val)).toNat 31 = true ∧ bitsOf (word (2 ^ 31 + 0x20 + n.val)).toNat 4 2 = 2
      ∧ bitsOf (word (2 ^ 31 + 0x20 + n.val)).toNat 0 3 = n.val := by
  revert n
  decide

/-- A command while an operation runs is ignored. -/
theorem Sec.command_busy {x : Sec} (busy : x.busy = true) (v : Nat) : x.command v = x := by
  rw [Sec.command, if_pos (by simp [busy])]

theorem Sec.command_install {x : Sec} (idle : x.busy = false) (n : Fin 8) :
    x.command (word (2 ^ 31 + 0x10 + n.val)).toNat
      = { x with busy := true, op := some (n.val, some (Memory.readBytes x.data 0 97)) } := by
  obtain ⟨⟨go, op, slot⟩, -⟩ := keyCmd_fields n
  rw [Sec.command, go, idle, op, slot]
  rfl

theorem Sec.command_revoke {x : Sec} (idle : x.busy = false) (n : Fin 8) :
    x.command (word (2 ^ 31 + 0x20 + n.val)).toNat = { x with busy := true, op := some (n.val, none) } := by
  obtain ⟨-, go, op, slot⟩ := keyCmd_fields n
  rw [Sec.command, go, idle, op, slot]
  rfl

theorem Sec.finish_idle {x : Sec} (h : x.op = none) : x.finish = x := by
  rw [Sec.finish, h]

/-- An install into a revoked slot, or of bytes that are no point, fails. -/
theorem Sec.finish_refused {x : Sec} {n : Nat} {pt : List Byte} (h : x.op = some (n, some pt))
    (bad : x.revoked.getLsbD n = true ∨ pointOf pt = none) : x.finish = { x with busy := false, op := none, err := true } := by
  simp only [Sec.finish, h]
  rw [if_pos]
  simpa using bad

theorem Sec.finish_install {x : Sec} {n : Nat} {pt : List Byte} (h : x.op = some (n, some pt))
    (open' : x.revoked.getLsbD n = false) (point : pointOf pt ≠ none) : x.finish = { x with
      busy := false, op := none, keys := x.keys.set (fun _ => none) n (some ⟨pt, keyIdOf pt⟩) } := by
  simp only [Sec.finish, h]
  rw [if_neg]
  simpa [open', Option.isSome_iff_ne_none] using point

theorem Sec.finish_revoke {x : Sec} {n : Nat} (h : x.op = some (n, none)) : x.finish = { x with
    busy := false, op := none, keys := x.keys.set (fun _ => none) n none, revoked := x.revoked ||| BitVec.ofNat 8 (2 ^ n) } := by
  simp only [Sec.finish, h]

theorem Sec.get_keys_set_same (keys : Tbl (Option Key)) (n : Nat) (v : Option Key) :
    (keys.set (fun _ => none) n v).get (fun _ => none) n = v := Tbl.get_set_same _ _ _ _

/-- A slot written leaves the keys of the other slots. -/
theorem Sec.get_keys_set_other (keys : Tbl (Option Key)) {n k : Nat} (v : Option Key) (hk : k ≠ n) :
    (keys.set (fun _ => none) n v).get (fun _ => none) k = keys.get (fun _ => none) k := Tbl.get_set_other _ _ _ _ _ hk

/-- Setting bit `n` of a byte sets that bit alone. -/
theorem getLsbD_or_bit (v : Byte) {n : Nat} (hn : n < 8) (k : Nat) :
    (v ||| BitVec.ofNat 8 (2 ^ n)).getLsbD k = (v.getLsbD k || decide (k = n)) := by
  rw [BitVec.getLsbD_or, BitVec.getLsbD_ofNat, Nat.testBit_two_pow]
  by_cases h : n = k
  · subst h
    simp [hn]
  · simp [h, Ne.symm h]

/-- Settles O39: a command by its fields, the end of an operation by what it was. -/
theorem keysAreInstalledAndRevoked : Obligations.KeysAreInstalledAndRevoked := by
  unfold Obligations.KeysAreInstalledAndRevoked
  refine ⟨fun s n live => ?_, fun s n pt op => ⟨_, rfl, ?_⟩, fun s n op hn => ⟨_, rfl, ?_⟩, fun s op => ?_⟩
  · have install : exec (.secKeyInstall n) s = .next { s with sec := s.sec.command (word (2 ^ 31 + 0x10 + n.val)).toNat } :=
      congrArg Host.Outcome.next (State.barWrite_keyCmd live _)
    have revoke : exec (.secKeyRevoke n) s = .next { s with sec := s.sec.command (word (2 ^ 31 + 0x20 + n.val)).toNat } :=
      congrArg Host.Outcome.next (State.barWrite_keyCmd live _)
    rw [install, revoke]
    refine ⟨fun idle => ?_, fun busy => ?_⟩
    · rw [Sec.command_install idle, Sec.command_revoke idle]
      exact ⟨rfl, rfl⟩
    · rw [Sec.command_busy busy, Sec.command_busy busy]
      exact ⟨rfl, rfl⟩
  · by_cases bad : s.sec.revoked.getLsbD n = true ∨ pointOf pt = none
    · rw [Sec.finish_refused op bad]
      refine ⟨rfl, rfl, rfl, fun _ => ⟨rfl, rfl⟩, fun open' point => ?_⟩
      rw [open'] at bad
      exact absurd bad (by simp [point])
    · obtain ⟨open', point⟩ := not_or.1 bad
      rw [Sec.finish_install op (Bool.eq_false_iff.2 open') point]
      exact ⟨rfl, rfl, rfl, fun h => absurd h bad, fun _ _ => ⟨rfl, Sec.get_keys_set_same s.sec.keys n (some ⟨pt, keyIdOf pt⟩),
        fun k hk => Sec.get_keys_set_other s.sec.keys (some ⟨pt, keyIdOf pt⟩) hk⟩⟩
  · rw [Sec.finish_revoke op]
    refine ⟨rfl, rfl, Sec.get_keys_set_same s.sec.keys n none, ?_, fun k hk => ⟨Sec.get_keys_set_other s.sec.keys none hk, ?_⟩, rfl⟩
    · exact (getLsbD_or_bit _ hn _).trans (by simp)
    · exact (getLsbD_or_bit _ hn _).trans (by simp [hk])
  · show Host.Outcome.next { s with sec := s.sec.finish } = _
    rw [Sec.finish_idle op]

end Sys2Proof.Machine
end

/-! ## Writes into the pitch window (R155, R297) -/
section
namespace Sys2Proof.Machine

/-- The window offset that a function addresses: the physical function's own, or inside the window of the context of a virtual one. -/
def windowOffset (fn : Fin 17) (off : Nat) : Nat :=
  if fn.val = 0 then off % 2 ^ 32 else off % 2 ^ 28 + (fn.val - 1) * 2 ^ 28

/-- A slot takes a write: it is backed, the write lies within it, and no shard is being read from it. -/
def Pitch.takes (pt : Pitch) (sl x n : Nat) : Prop := sl < pt.nstage ∧ x + n ≤ 2 ^ 24 ∧ pt.busySlot ≠ some sl

section
variable {s : State} {fn : Fin 17} {off : Nat} {data : List Byte} (live : s.busLive = true) (given : data ≠ [])
  (enabled : fn.val ≠ 0 → s.dev.vfEn.getLsbD (fn.val - 1) = true)
include live given enabled

/-- A write of a function whose window is open lands or is dropped. -/
theorem exec_pitchWindowWrite : exec (.pitchWindowWrite fn off data) s
    = (let o := windowOffset fn off
      match (s.ctx (o / 2 ^ 28)).pitch with
      | some p =>
        if (s.ctx (o / 2 ^ 28)).st.inPitch && o / 2 ^ 24 % 16 < p.nstage && o % 2 ^ 24 + data.length ≤ 2 ^ 24
            && decide (p.busySlot ≠ some (o / 2 ^ 24 % 16)) then
          .next ((s.chargeHbm false data.length).modCtx (o / 2 ^ 28) (fun y => { y with
            pitch := some { p with stage := Memory.writeBytes p.stage (windowKey (o / 2 ^ 24 % 16) (o % 2 ^ 24)) data } }))
        else .next (s.dropWrite o)
      | none => .next (s.dropWrite o)) := by
  have served : (!s.busLive || data.isEmpty || (decide (fn.val ≠ 0) && !s.dev.vfEn.getLsbD (fn.val - 1))) = false := by
    by_cases h : fn.val = 0
    · simp [live, given, h]
    · simp [live, given, enabled h]
  show execPitchWindowWrite fn off data s = _
  unfold execPitchWindowWrite
  dsimp only
  rw [if_neg (by rw [served]; exact Bool.false_ne_true)]
  rfl

variable {pt : Pitch} (pitch : (s.ctx (windowOffset fn off / 2 ^ 28)).pitch = some pt)
include pitch

theorem exec_pitchWindowWrite_lands (inPitch : (s.ctx (windowOffset fn off / 2 ^ 28)).st.inPitch = true)
    (takes : pt.takes (windowOffset fn off / 2 ^ 24 % 16) (windowOffset fn off % 2 ^ 24) data.length) :
    exec (.pitchWindowWrite fn off data) s = .next ((s.chargeHbm false data.length).modCtx (windowOffset fn off / 2 ^ 28)
      (fun y => { y with pitch := some { pt with
        stage := Memory.writeBytes pt.stage (windowKey (windowOffset fn off / 2 ^ 24 % 16) (windowOffset fn off % 2 ^ 24)) data } })) := by
  obtain ⟨backed, within, free⟩ := takes
  rw [exec_pitchWindowWrite live given enabled]
  simp only [pitch]
  exact if_pos (by simp only [inPitch, backed, within, free, decide_true, Bool.and_self, ne_eq, not_false_eq_true])

theorem exec_pitchWindowWrite_misses (no : (s.ctx (windowOffset fn off / 2 ^ 28)).st.inPitch = false
      ∨ ¬pt.takes (windowOffset fn off / 2 ^ 24 % 16) (windowOffset fn off % 2 ^ 24) data.length) :
    exec (.pitchWindowWrite fn off data) s = .next (s.dropWrite (windowOffset fn off)) := by
  rw [exec_pitchWindowWrite live given enabled]
  simp only [pitch]
  refine if_neg fun h => ?_
  simp only [Bool.and_eq_true, decide_eq_true_eq] at h
  obtain ⟨⟨⟨inPitch, backed⟩, within⟩, free⟩ := h
  obtain out | full := no
  · rw [inPitch] at out
    cases out
  · exact full ⟨backed, within, free⟩

end

theorem exec_pitchWindowWrite_idle {s : State} {fn : Fin 17} {off : Nat} {data : List Byte} (live : s.busLive = true)
    (given : data ≠ []) (enabled : fn.val ≠ 0 → s.dev.vfEn.getLsbD (fn.val - 1) = true)
    (idle : (s.ctx (windowOffset fn off / 2 ^ 28)).pitch = none) :
    exec (.pitchWindowWrite fn off data) s = .next (s.dropWrite (windowOffset fn off)) := by
  rw [exec_pitchWindowWrite live given enabled]
  simp only [idle]

/-- A dropped write is counted, makes one signature, and reaches nothing else. -/
theorem State.dropWrite_spec (s : State) (o : Nat) :
    (s.dropWrite o).env.p2pDrop = BitVec.ofNat 32 (satAdd 32 s.env.p2pDrop.toNat 1)
    ∧ Signed s (s.dropWrite o) 0x13 { ctx := some (o / 2 ^ 28), data := leBytes 8 o }
    ∧ (s.dropWrite o).ctxs = s.ctxs ∧ (s.dropWrite o).host = s.host ∧ (s.dropWrite o).cmds = s.cmds
    ∧ (s.dropWrite o).queues = s.queues ∧ (s.dropWrite o).arrs = s.arrs ∧ (s.dropWrite o).crews = s.crews := by
  unfold State.dropWrite
  dsimp only
  obtain ⟨x, g, u, d, e, -⟩ := State.emit_frame { s with
    env := { s.env with p2pDrop := BitVec.ofNat 32 (satAdd 32 s.env.p2pDrop.toNat 1) } } 0x13
    { ctx := some (o / 2 ^ 28), data := leBytes 8 o }
  refine ⟨?_, (State.signed_emit _ _ _).congr_position rfl rfl rfl, ?_⟩
  · rw [e]
  · rw [e]
    exact ⟨rfl, rfl, rfl, rfl, rfl, rfl⟩

/-- Settles O20: a write lands where its slot takes it, and is dropped elsewhere. -/
theorem pitchWindowWriteLandsOrIsDropped : Obligations.PitchWindowWriteLandsOrIsDropped := by
  unfold Obligations.PitchWindowWriteLandsOrIsDropped
  intro s fn off data live given enabled o c sl x
  refine ⟨fun pt pitch inPitch backed within free wf => ?_, fun no => ?_, fun n => rfl⟩
  · have writes := Memory.read_writeBytes_out pt.stage (windowKey sl x) data
    refine ⟨_, _, exec_pitchWindowWrite_lands live given enabled pitch inPitch ⟨backed, within, free⟩, State.ctx_modCtx_same _ _ _,
      rfl, Memory.readBytes_writeBytes wf _ _, fun y hy => writes y hy, fun k hk => State.ctx_modCtx_other _ _ _ _ hk, rfl⟩
  · refine ⟨s.dropWrite o, ?_, s.dropWrite_spec o⟩
    obtain idle | out | ⟨pt, pitch, full⟩ := no
    · exact exec_pitchWindowWrite_idle live given enabled idle
    · cases pitch : (s.ctx c).pitch with
      | none => exact exec_pitchWindowWrite_idle live given enabled pitch
      | some pt => exact exec_pitchWindowWrite_misses live given enabled pitch (.inl out)
    · refine exec_pitchWindowWrite_misses live given enabled pitch (.inr ?_)
      rintro ⟨backed, within, free⟩
      obtain h | h | h := full
      · exact absurd backed (Nat.not_lt.2 h)
      · exact absurd within (Nat.not_le.2 h)
      · exact free h

end Sys2Proof.Machine
end


/-! ## Bytes cleared in aligned records (R104, R116, R117) -/
section
namespace Sys2Proof.Machine

/-- From `m` to `n` bytes have been cleared in whole aligned groups of 8; every other group reads as before. -/
structure Wipes (m n : Memory) : Prop where
  canon : Memory.wf m → Memory.wf n
  groups : ∀ k, (∀ i, i < 8 → Memory.read n (8 * k + i) = 0)
    ∨ ∀ i, i < 8 → Memory.read n (8 * k + i) = Memory.read m (8 * k + i)

theorem Wipes.refl (m : Memory) : Wipes m m := ⟨id, fun _ => .inr fun _ _ => rfl⟩

theorem Wipes.trans {l m n : Memory} (h : Wipes l m) (g : Wipes m n) : Wipes l n := by
  refine ⟨fun w => g.canon (h.canon w), fun k => ?_⟩
  obtain blank | same := g.groups k
  · exact .inl blank
  · obtain blank | same' := h.groups k
    · exact .inl fun i hi => (same i hi).trans (blank i hi)
    · exact .inr fun i hi => (same i hi).trans (same' i hi)

theorem Memory.read_zeros_in (m : Memory) {a n x : Nat} (inside : a ≤ x ∧ x < a + n) :
    Memory.read (Memory.writeBytes m a (List.replicate n 0)) x = 0 := by
  have cell := Memory.read_writeBytes_in m a (List.replicate n 0) (x - a) (by simp; omega)
  rw [Nat.add_sub_cancel' inside.1] at cell
  rw [cell, List.getD_eq_getElem?_getD, List.getElem?_replicate]
  split <;> rfl

theorem Memory.read_zeros_out (m : Memory) {a n x : Nat} (outside : x < a ∨ a + n ≤ x) :
    Memory.read (Memory.writeBytes m a (List.replicate n 0)) x = Memory.read m x :=
  Memory.read_writeBytes_out m a _ x (by rwa [List.length_replicate])

/-- Zeros written over whole groups. -/
theorem Wipes.zeros (m : Memory) (a n : Nat) : Wipes m (Memory.writeBytes m (8 * a) (List.replicate (8 * n) 0)) := by
  refine ⟨Memory.wf_writeBytes _ _, fun k => ?_⟩
  by_cases inside : a ≤ k ∧ k < a + n
  · exact .inl fun i hi => Memory.read_zeros_in m (by omega)
  · exact .inr fun i hi => Memory.read_zeros_out m (by omega)

/-- What is clear stays clear. -/
theorem Wipes.read_zero {m n : Memory} (h : Wipes m n) {x : Nat} (zero : Memory.read m x = 0) : Memory.read n x = 0 := by
  have at' : 8 * (x / 8) + x % 8 = x := by omega
  obtain blank | same := h.groups (x / 8)
  · rw [← at', blank _ (by omega)]
  · rw [← at', same _ (by omega), at', zero]

/-- A run of bytes that is clear. -/
theorem Memory.readBytes_zero {m : Memory} (w : Memory.wf m) {a n : Nat} (zero : ∀ i, i < n → Memory.read m (a + i) = 0) :
    Memory.readBytes m a n = List.replicate n 0 := by
  rw [Memory.readBytes_eq w, List.eq_replicate_iff]
  refine ⟨by simp, fun b hb => ?_⟩
  obtain ⟨i, hi, rfl⟩ := List.mem_map.1 hb
  exact zero i (List.mem_range.1 hi)

/-- An aligned record of 8 bytes is clear or reads as before. -/
theorem Wipes.record {m n : Memory} (h : Wipes m n) (w : Memory.wf m) (k : Nat) :
    Memory.readBytes n (8 * k) 8 = List.replicate 8 0 ∨ Memory.readBytes n (8 * k) 8 = Memory.readBytes m (8 * k) 8 := by
  obtain blank | same := h.groups k
  · exact .inl (Memory.readBytes_zero (h.canon w) blank)
  · refine .inr ?_
    rw [Memory.readBytes_eq (h.canon w), Memory.readBytes_eq w]
    exact List.map_congr_left fun i hi => same i (List.mem_range.1 hi)

end Sys2Proof.Machine
end

/-! ## What an abort clears in one crew (R116, R117, R161) -/
section
namespace Sys2Proof.Machine

/-- The group of 8 bytes that holds the binding record of an assignment, and the first of its patch list. -/
def Assign.bindingGroup (y : Assign) : Nat := 2 * y.l + (if y.plane then 1 else 0)
def Assign.patchGroup (y : Assign) : Nat := 128 * (1 + y.l) + (if y.plane then 64 else 0)

theorem Assign.patchGroup_eq (y : Assign) : 0x400 * (1 + y.l) + (if y.plane then 0x200 else 0) = 8 * y.patchGroup := by
  unfold Assign.patchGroup
  split <;> omega

theorem Crew.binding_eq (x : Crew) (y : Assign) : x.binding y.l y.plane = Memory.readBytes x.sram (8 * y.bindingGroup) 8 := by
  rw [Nat.mul_comm]
  rfl

/-- The binding record of assignment `y` names a generation of context `c`. -/
def Crew.bound (c gen : Nat) (y : Assign) (x : Crew) : Prop :=
  bndValid (x.binding y.l y.plane) = true ∧ bndGen (x.binding y.l y.plane) = gen ∧ bndCtx (x.binding y.l y.plane) = c

/-- Nothing is left in crew `x` of assignment `y` to a generation of context `c`. -/
def Crew.unbound (c gen : Nat) (y : Assign) (x : Crew) : Prop := ¬x.bound c gen y ∧ x.patches y.l y.plane = []

/-- A clear binding record names nothing, and a clear patch entry is not valid. -/
theorem blank_record : bndValid (List.replicate 8 0) = false ∧ bitOf (field (List.replicate 8 (0 : Byte)) 2 2) 15 = false := by decide

theorem Crew.patches_eq_nil_iff (x : Crew) (y : Assign) : x.patches y.l y.plane = []
    ↔ ∀ i, i < 64 → bitOf (field (Memory.readBytes x.sram (8 * (y.patchGroup + i)) 8) 2 2) 15 = false := by
  simp only [Crew.patches, List.filter_eq_nil_iff, List.mem_map, List.mem_range, Bool.not_eq_true, y.patchGroup_eq, ← Nat.mul_add]
  exact ⟨fun h i hi => h _ ⟨i, hi, rfl⟩, fun h e ⟨i, hi, he⟩ => he ▸ h i hi⟩

/-- Clearing whole records binds nothing anew and makes no patch entry. -/
theorem Crew.unbound.wipes {c gen : Nat} {y : Assign} {x z : Crew} (h : x.unbound c gen y) (wf : Memory.wf x.sram)
    (w : Wipes x.sram z.sram) : z.unbound c gen y := by
  obtain ⟨free, empty⟩ := h
  refine ⟨?_, (z.patches_eq_nil_iff y).2 fun i hi => ?_⟩
  · unfold Crew.bound at free ⊢
    rw [Crew.binding_eq] at free ⊢
    obtain blank | same := w.record wf y.bindingGroup
    · rw [blank, blank_record.1]
      exact fun h => Bool.false_ne_true h.1
    · rwa [same]
  · obtain blank | same := w.record wf (y.patchGroup + i)
    · rw [blank, blank_record.2]
    · rw [same, (x.patches_eq_nil_iff y).1 empty i hi]

section
variable (c gen : Nat) (y : Assign) (x : Crew)

theorem Crew.sram_setBinding_blank : (x.setBinding y.l y.plane (List.replicate 8 0)).sram
    = Memory.writeBytes x.sram (8 * y.bindingGroup) (List.replicate (8 * 1) 0) := by
  rw [Nat.mul_comm]
  rfl

theorem Crew.sram_setPatches_nil : (x.setPatches y.l y.plane []).sram
    = Memory.writeBytes x.sram (8 * y.patchGroup) (List.replicate (8 * 64) 0) := by
  rw [← y.patchGroup_eq]
  simp only [Crew.setPatches, List.flatten_nil, List.nil_append, List.take_replicate]
  rfl

/-- The first half of an unbinding: the binding record, where it is of the generation. -/
def Crew.clearBinding : Crew :=
  if bndGen (x.binding y.l y.plane) = gen ∧ bndCtx (x.binding y.l y.plane) = c then x.setBinding y.l y.plane (List.replicate 8 0) else x

theorem Crew.unbind_eq : Crew.unbind c gen true y x = (x.clearBinding c gen y).setPatches y.l y.plane [] := rfl

theorem Crew.clearBinding_frame : x.clearBinding c gen y = { x with sram := (x.clearBinding c gen y).sram } := by
  unfold Crew.clearBinding
  split <;> rfl

theorem Crew.wipes_clearBinding : Wipes x.sram (x.clearBinding c gen y).sram := by
  unfold Crew.clearBinding
  split
  · rw [Crew.sram_setBinding_blank]
    exact Wipes.zeros _ _ _
  · exact Wipes.refl _

theorem Crew.unbind_frame : Crew.unbind c gen true y x = { x with sram := (Crew.unbind c gen true y x).sram } := by
  rw [Crew.unbind_eq, Crew.setPatches, Crew.clearBinding_frame]

theorem Crew.wipes_unbind : Wipes x.sram (Crew.unbind c gen true y x).sram := by
  rw [Crew.unbind_eq, Crew.sram_setPatches_nil]
  exact (x.wipes_clearBinding c gen y).trans (Wipes.zeros _ _ _)

/-- An unbinding reaches the binding record and the patch list alone. -/
theorem Crew.read_unbind {a : Nat} (record : a < 8 * y.bindingGroup ∨ 8 * y.bindingGroup + 8 ≤ a)
    (list : a < 8 * y.patchGroup ∨ 8 * y.patchGroup + 512 ≤ a) :
    Memory.read (Crew.unbind c gen true y x).sram a = Memory.read x.sram a := by
  rw [Crew.unbind_eq, Crew.sram_setPatches_nil, Memory.read_zeros_out _ (by omega)]
  unfold Crew.clearBinding
  split
  · rw [Crew.sram_setBinding_blank, Memory.read_zeros_out _ (by omega)]
  · rfl

theorem Crew.unbound_unbind (wf : Memory.wf x.sram) : (Crew.unbind c gen true y x).unbound c gen y := by
  have freed : ¬(x.clearBinding c gen y).bound c gen y := by
    unfold Crew.clearBinding
    split
    · intro h
      have valid := h.1
      rw [Crew.binding_eq, Crew.sram_setBinding_blank, Memory.readBytes_zero (Memory.wf_writeBytes _ _ wf)
        (fun i hi => Memory.read_zeros_in _ (by omega)), blank_record.1] at valid
      exact Bool.false_ne_true valid
    · next other => exact fun h => other h.2
  have wf' := (x.wipes_clearBinding c gen y).canon wf
  refine ⟨fun h => ?_, ?_⟩
  · have wiped : Wipes (x.clearBinding c gen y).sram (Crew.unbind c gen true y x).sram := by
      rw [Crew.unbind_eq, Crew.sram_setPatches_nil]
      exact Wipes.zeros _ _ _
    unfold Crew.bound at freed h
    rw [Crew.binding_eq] at freed h
    obtain blank | same := wiped.record wf' y.bindingGroup
    · rw [blank, blank_record.1] at h
      exact Bool.false_ne_true h.1
    · rw [same] at h
      exact freed h
  · rw [Crew.unbind_eq]
    exact Crew.patches_setPatches (by simp) (by simp) wf' _ _

end

theorem Crew.sram_frame_trans {x y z : Crew} (h : y = { x with sram := y.sram }) (g : z = { y with sram := z.sram }) :
    z = { x with sram := z.sram } := g.trans (by rw [h])

/-- The unbindings of a list of assignments in one crew. -/
def Crew.unbindAll (c gen : Nat) (ys : List Assign) (x : Crew) : Crew := ys.foldl (fun x y => Crew.unbind c gen true y x) x

section
variable (c gen : Nat)

theorem Crew.unbindAll_cons (y : Assign) (ys : List Assign) (x : Crew) :
    x.unbindAll c gen (y :: ys) = (Crew.unbind c gen true y x).unbindAll c gen ys := rfl

theorem Crew.unbindAll_frame (ys : List Assign) (x : Crew) :
    x.unbindAll c gen ys = { x with sram := (x.unbindAll c gen ys).sram } := by
  induction ys generalizing x with
  | nil => rfl
  | cons y ys ih =>
    exact Crew.sram_frame_trans (x.unbind_frame c gen y) (ih _)

theorem Crew.wipes_unbindAll (ys : List Assign) (x : Crew) : Wipes x.sram (x.unbindAll c gen ys).sram := by
  induction ys generalizing x with
  | nil => exact Wipes.refl _
  | cons y ys ih => exact (x.wipes_unbind c gen y).trans (ih _)

theorem Crew.read_unbindAll {ys : List Assign} {a : Nat} (outside : ∀ y ∈ ys,
    (a < 8 * y.bindingGroup ∨ 8 * y.bindingGroup + 8 ≤ a) ∧ (a < 8 * y.patchGroup ∨ 8 * y.patchGroup + 512 ≤ a)) (x : Crew) :
    Memory.read (x.unbindAll c gen ys).sram a = Memory.read x.sram a := by
  induction ys generalizing x with
  | nil => rfl
  | cons y ys ih =>
    obtain ⟨record, list⟩ := outside y List.mem_cons_self
    rw [Crew.unbindAll_cons, ih fun z hz => outside z (List.mem_cons_of_mem _ hz), Crew.read_unbind c gen y x record list]

theorem Crew.unbound_unbindAll {ys : List Assign} {y : Assign} (hy : y ∈ ys) {x : Crew} (wf : Memory.wf x.sram) :
    (x.unbindAll c gen ys).unbound c gen y := by
  induction ys generalizing x with
  | nil => cases hy
  | cons z ys ih =>
    have wf' := (x.wipes_unbind c gen z).canon wf
    obtain rfl | hy := List.mem_cons.1 hy
    · exact (x.unbound_unbind c gen y wf).wipes wf' (Crew.wipes_unbindAll c gen ys _)
    · exact ih hy wf'

end

/-! The pool pages (R116) -/

/-- Pages cleared one after the other. -/
def clearPages (es : List (Nat × Nat × Nat)) (m : Memory) : Memory :=
  es.foldl (fun m e => Memory.writeBytes m (0x400 * e.1) (List.replicate 1024 0)) m

theorem wipes_clearPage (m : Memory) (e : Nat × Nat × Nat) :
    Wipes m (Memory.writeBytes m (0x400 * e.1) (List.replicate 1024 0)) := by
  have at' : 0x400 * e.1 = 8 * (128 * e.1) := by omega
  rw [at']
  exact Wipes.zeros m (128 * e.1) 128

theorem wipes_clearPages (es : List (Nat × Nat × Nat)) (m : Memory) : Wipes m (clearPages es m) := by
  induction es generalizing m with
  | nil => exact Wipes.refl _
  | cons e es ih => exact (wipes_clearPage m e).trans (ih _)

theorem read_clearPages_out {es : List (Nat × Nat × Nat)} {a : Nat} (outside : ∀ e ∈ es, a < 0x400 * e.1 ∨ 0x400 * e.1 + 1024 ≤ a)
    (m : Memory) : Memory.read (clearPages es m) a = Memory.read m a := by
  induction es generalizing m with
  | nil => rfl
  | cons e es ih =>
    refine (ih (fun d hd => outside d (List.mem_cons_of_mem _ hd)) _).trans ?_
    exact Memory.read_zeros_out m (outside e List.mem_cons_self)

theorem read_clearPages_in {es : List (Nat × Nat × Nat)} {e : Nat × Nat × Nat} (he : e ∈ es) {a : Nat}
    (inside : 0x400 * e.1 ≤ a ∧ a < 0x400 * e.1 + 1024) (m : Memory) : Memory.read (clearPages es m) a = 0 := by
  induction es generalizing m with
  | nil => cases he
  | cons d es ih =>
    obtain rfl | he := List.mem_cons.1 he
    · exact (wipes_clearPages es _).read_zero (Memory.read_zeros_in m inside)
    · exact ih he _

/-- The pages of a crew that a generation of a context has. -/
def Crew.pagesOf (c gen : Nat) (x : Crew) : List (Nat × Nat × Nat) := x.pages.filter (fun e => e.2.1 = c ∧ e.2.2 = gen)

theorem Crew.dropPages_eq (c gen : Nat) (x : Crew) : Crew.dropPages c gen x = { x with
    pages := x.pages.filter (fun e => !decide (e.2.1 = c ∧ e.2.2 = gen)), sram := clearPages (x.pagesOf c gen) x.sram } := rfl

/-- A generation that has no pages left gives none back. -/
theorem Crew.dropPages_dropPages (c gen : Nat) (x : Crew) : Crew.dropPages c gen (Crew.dropPages c gen x) = Crew.dropPages c gen x := by
  have none : (Crew.dropPages c gen x).pagesOf c gen = [] := by
    simp only [Crew.pagesOf, Crew.dropPages_eq, List.filter_filter, Bool.and_not_self, List.filter_false]
  have kept : (Crew.dropPages c gen x).pages.filter (fun e => !decide (e.2.1 = c ∧ e.2.2 = gen)) = (Crew.dropPages c gen x).pages := by
    simp only [Crew.dropPages_eq, List.filter_filter, Bool.and_self]
  rw [Crew.dropPages_eq c gen (Crew.dropPages c gen x), none, kept]
  rfl

theorem Crew.dropPages_reset (c gen : Nat) : Crew.dropPages c gen Crew.reset = Crew.reset := rfl

end Sys2Proof.Machine
end


/-! ## Folds over crews and arrays, unit by unit -/
section
namespace Sys2Proof.Machine

theorem State.crew_each_foldl {α : Type} (k : α → Nat) (f : α → Crew → Crew) (l : List α) (s : State) (n : Nat) :
    (s.each l (fun s y => s.modCrew (k y) (f y))).crew n = (l.filter (fun y => k y == n)).foldl (fun x y => f y x) (s.crew n) := by
  induction l generalizing s with
  | nil => rfl
  | cons y l ih =>
    rw [State.each_cons, ih]
    by_cases here : k y = n
    · subst here
      rw [List.filter_cons_of_pos (by simp), List.foldl_cons, State.crew_modCrew_same]
    · rw [List.filter_cons_of_neg (by simpa using here), State.crew_modCrew_other _ _ _ _ (Ne.symm here)]

theorem State.arr_each_foldl {α : Type} (k : α → Nat) (f : α → Arr → Arr) (l : List α) (s : State) (n : Nat) :
    (s.each l (fun s y => s.modArr (k y) (f y))).arr n = (l.filter (fun y => k y == n)).foldl (fun x y => f y x) (s.arr n) := by
  induction l generalizing s with
  | nil => rfl
  | cons y l ih =>
    rw [State.each_cons, ih]
    by_cases here : k y = n
    · subst here
      rw [List.filter_cons_of_pos (by simp), List.foldl_cons, State.arr_modArr_same]
    · rw [List.filter_cons_of_neg (by simpa using here), State.arr_modArr_other _ _ _ _ (Ne.symm here)]

/-- A change that does nothing the second time, and nothing to a crew that is not listed, reaches every crew once. -/
theorem State.crew_eachCrew {f : Crew → Crew} (twice : ∀ x, f (f x) = f x) (blank : f Crew.reset = Crew.reset) (s : State) (n : Nat) :
    (s.eachCrew f).crew n = f (s.crew n) := by
  have again (l : List Nat) (x : Crew) : l.foldl (fun x _ => f x) (f x) = f x := by
    induction l with
    | nil => rfl
    | cons k l ih => rw [List.foldl_cons, twice, ih]
  refine (State.crew_each_foldl id (fun _ => f) _ s n).trans ?_
  cases listed : (s.crews.map (·.1)).filter (fun k => id k == n) with
  | cons k l => exact again l _
  | nil =>
    have absent : s.crew n = Crew.reset := by
      rw [State.crew, Tbl.get, Tbl.find?_none, Option.getD_none, Crew.dflt]
      intro e he same
      have := List.filter_eq_nil_iff.1 listed e.1 (List.mem_map_of_mem he)
      exact this (beq_iff_eq.2 same)
    rw [absent, blank]
    rfl

theorem State.eachCrew_frame (s : State) (f : Crew → Crew) : s.eachCrew f = { s with crews := (s.eachCrew f).crews } :=
  s.each_modCrew_frame _ id (fun _ => f)

end Sys2Proof.Machine
end

/-! ## What an abort does to crews, arrays and contexts (R161) -/
section
namespace Sys2Proof.Machine

/-- A crew after the abort, but for its standby roles. -/
def Crew.aborted (c gen : Nat) (ys : List Assign) (x : Crew) : Crew := (Crew.dropPages c gen x).unbindAll c gen ys

theorem State.crew_freePages (s : State) (c gen : Nat) (ys : List Assign) (n : Nat) :
    (s.freePages c gen ys true).crew n = (s.crew n).aborted c gen (ys.filter (fun y => y.crew == n)) := by
  rw [State.freePages, State.crew_each_foldl Assign.crew (fun y => Crew.unbind c gen true y),
    State.crew_eachCrew (Crew.dropPages_dropPages c gen) (Crew.dropPages_reset c gen)]
  rfl

theorem State.freePages_frame (s : State) (c gen : Nat) (ys : List Assign) (too : Bool) :
    s.freePages c gen ys too = { s with crews := (s.freePages c gen ys too).crews } := by
  rw [State.freePages, State.each_modCrew_frame _ ys Assign.crew (fun y => Crew.unbind c gen too y), State.eachCrew_frame]

theorem Crew.aborted_frame (c gen : Nat) (ys : List Assign) (x : Crew) : x.aborted c gen ys = { x with
    pages := x.pages.filter (fun e => !decide (e.2.1 = c ∧ e.2.2 = gen)), sram := (x.aborted c gen ys).sram } := by
  conv_lhs => rw [Crew.aborted, Crew.unbindAll_frame, Crew.dropPages_eq]
  rfl

section
variable {c gen : Nat} {ys : List Assign} {x : Crew}

/-- The pages that the generation had read as zero. -/
theorem Crew.page_aborted (wf : Memory.wf x.sram) {e : Nat × Nat × Nat} (he : e ∈ x.pages) (mine : e.2.1 = c ∧ e.2.2 = gen) :
    Memory.readBytes (x.aborted c gen ys).sram (0x400 * e.1) 1024 = List.replicate 1024 0 := by
  have he' : e ∈ x.pagesOf c gen := List.mem_filter.2 ⟨he, decide_eq_true mine⟩
  have wiped := Crew.wipes_unbindAll c gen ys (Crew.dropPages c gen x)
  refine Memory.readBytes_zero (wiped.canon ((wipes_clearPages _ _).canon wf)) fun i hi => wiped.read_zero ?_
  exact read_clearPages_in he' (by omega) x.sram

/-- A byte outside the pages, the binding records and the patch lists reads as before. -/
theorem Crew.read_aborted {a : Nat} (page : ∀ e ∈ x.pages, (e.2.1 = c ∧ e.2.2 = gen) → a < 0x400 * e.1 ∨ 0x400 * e.1 + 1024 ≤ a)
    (record : ∀ y ∈ ys,
      (a < 8 * y.bindingGroup ∨ 8 * y.bindingGroup + 8 ≤ a) ∧ (a < 8 * y.patchGroup ∨ 8 * y.patchGroup + 512 ≤ a)) :
    Memory.read (x.aborted c gen ys).sram a = Memory.read x.sram a := by
  rw [Crew.aborted, Crew.read_unbindAll c gen record, Crew.dropPages_eq]
  refine read_clearPages_out (fun e he => ?_) _
  obtain ⟨he, mine⟩ := List.mem_filter.1 he
  exact page e he (of_decide_eq_true mine)

theorem Crew.unbound_aborted (wf : Memory.wf x.sram) {y : Assign} (hy : y ∈ ys) : (x.aborted c gen ys).unbound c gen y :=
  Crew.unbound_unbindAll c gen hy ((wipes_clearPages _ _).canon wf)

end

/-! The standby roles -/

/-- From `s` to `t` crews of the assignments `ys` may have lost standby roles; nothing else has changed. -/
structure Relieved (ys : List Assign) (s t : State) : Prop where
  frame : t = { s with crews := t.crews }
  crew : ∀ n, t.crew n = { s.crew n with resv := (t.crew n).resv }
  roles : ∀ n, (t.crew n).resv.map (fun r => { r with standby := 0 }) = (s.crew n).resv.map (fun r => { r with standby := 0 })
  others : ∀ n, (∀ y ∈ ys, y.crew ≠ n) → (t.crew n).resv = (s.crew n).resv

theorem Relieved.refl (ys : List Assign) (s : State) : Relieved ys s s := ⟨rfl, fun _ => rfl, fun _ => rfl, fun _ _ => rfl⟩

theorem Relieved.dropRole {ys : List Assign} {s t : State} (h : Relieved ys s t) {y : Assign} (hy : y ∈ ys) :
    Relieved ys s (t.modCrew y.crew (Crew.dropRole y.l)) := by
  obtain ⟨frame, crew, roles, others⟩ := h
  refine ⟨?_, fun n => ?_, fun n => ?_, fun n away => ?_⟩
  · rw [frame]
    rfl
  · by_cases here : n = y.crew
    · subst here
      rw [State.crew_modCrew_same, Crew.dropRole]
      conv_lhs => rw [crew]
    · rw [State.crew_modCrew_other _ _ _ _ here]
      exact crew n
  · by_cases here : n = y.crew
    · subst here
      rw [State.crew_modCrew_same, ← roles, Crew.dropRole, Option.map_map]
      rfl
    · rw [State.crew_modCrew_other _ _ _ _ here, roles]
  · rw [State.crew_modCrew_other _ _ _ _ (Ne.symm (away y hy)), others n away]

theorem State.relieved_dropRoles (s : State) (ys : List Assign) : Relieved ys s (s.dropRoles ys) := by
  have upTo (l : List Assign) (t : State) (hl : ∀ y ∈ l, y ∈ ys) (h : Relieved ys s t) : Relieved ys s (t.dropRoles l) := by
    induction l generalizing t with
    | nil => exact h
    | cons y l ih =>
      rw [State.dropRoles, State.each_cons]
      refine ih _ (fun z hz => hl z (List.mem_cons_of_mem _ hz)) ?_
      split
      · exact h
      · exact h.dropRole (hl y List.mem_cons_self)
  exact upTo ys s (fun _ hy => hy) (.refl ys s)

/-! The planes -/

/-- An array whose planes are given up for the assignments `zs`. -/
def Arr.unpitchAll (zs : List Assign) (x : Arr) : Arr := zs.foldl (fun x y => Arr.unpitch y.plane x) x

theorem Arr.unpitch_frame (b : Bool) (x : Arr) :
    Arr.unpitch b x = { x with p0 := (Arr.unpitch b x).p0, p1 := (Arr.unpitch b x).p1, prog := none, verify := 0 } := by
  cases b <;> rfl

theorem Arr.plane_unpitch_same (b : Bool) (x : Arr) : (Arr.unpitch b x).plane b = Plane.reset := by
  cases b <;> rfl

theorem Arr.plane_unpitch_other (b : Bool) (x : Arr) : (Arr.unpitch b x).plane (!b) = x.plane (!b) := by
  cases b <;> rfl

theorem Arr.unpitch_frame_trans {x y z : Arr} (h : y = { x with p0 := y.p0, p1 := y.p1, prog := none, verify := 0 })
    (g : z = { y with p0 := z.p0, p1 := z.p1, prog := none, verify := 0 }) :
    z = { x with p0 := z.p0, p1 := z.p1, prog := none, verify := 0 } := g.trans (by rw [h])

theorem Arr.unpitchAll_frame {zs : List Assign} (some' : zs ≠ []) (x : Arr) : x.unpitchAll zs
    = { x with p0 := (x.unpitchAll zs).p0, p1 := (x.unpitchAll zs).p1, prog := none, verify := 0 } := by
  induction zs generalizing x with
  | nil => exact absurd rfl some'
  | cons z zs ih =>
    by_cases last : zs = []
    · subst last
      exact Arr.unpitch_frame z.plane x
    · exact Arr.unpitch_frame_trans (Arr.unpitch_frame z.plane x) (ih last _)

theorem Arr.plane_unpitchAll_keeps_reset {b : Bool} {x : Arr} (zs : List Assign) (h : x.plane b = Plane.reset) :
    (x.unpitchAll zs).plane b = Plane.reset := by
  induction zs generalizing x with
  | nil => exact h
  | cons z zs ih =>
    refine ih ?_
    by_cases same : z.plane = b
    · rw [← same, Arr.plane_unpitch_same]
    · obtain rfl : b = !z.plane := Bool.eq_not.2 (Ne.symm same)
      rw [Arr.plane_unpitch_other, h]

theorem Arr.plane_unpitchAll_same {zs : List Assign} {y : Assign} (hy : y ∈ zs) (x : Arr) :
    (x.unpitchAll zs).plane y.plane = Plane.reset := by
  induction zs generalizing x with
  | nil => cases hy
  | cons z zs ih =>
    obtain rfl | hy := List.mem_cons.1 hy
    · exact Arr.plane_unpitchAll_keeps_reset zs (Arr.plane_unpitch_same y.plane x)
    · exact ih hy _

theorem Arr.plane_unpitchAll_other {zs : List Assign} {b : Bool} (same : ∀ z ∈ zs, z.plane = b) (x : Arr) :
    (x.unpitchAll zs).plane (!b) = x.plane (!b) := by
  induction zs generalizing x with
  | nil => rfl
  | cons z zs ih =>
    refine (ih (fun w hw => same w (List.mem_cons_of_mem _ hw)) _).trans ?_
    rw [← same z List.mem_cons_self, Arr.plane_unpitch_other]

/-- The planes of the assignments given up. -/
def State.unpitchAll (s : State) (ys : List Assign) : State :=
  s.each ys (fun s y => s.modArr (s.physArr y.crew y.l) (Arr.unpitch y.plane))

/-- Giving up planes moves no spare: the arrays are those of the state before. -/
theorem State.unpitchAll_eq (s : State) (ys : List Assign) :
    s.unpitchAll ys = s.each ys (fun t y => t.modArr (s.physArr y.crew y.l) (Arr.unpitch y.plane)) := by
  have upTo (l : List Assign) (t : State) (crews : t.crews = s.crews) :
      t.unpitchAll l = t.each l (fun t y => t.modArr (s.physArr y.crew y.l) (Arr.unpitch y.plane)) := by
    induction l generalizing t with
    | nil => rfl
    | cons y l ih =>
      have at' : t.physArr y.crew y.l = s.physArr y.crew y.l := by simp only [State.physArr, State.crew, crews]
      rw [State.unpitchAll, State.each_cons, State.each_cons, at']
      exact ih _ crews
  exact upTo ys s rfl

theorem State.unpitchAll_frame (s : State) (ys : List Assign) : s.unpitchAll ys = { s with arrs := (s.unpitchAll ys).arrs } := by
  rw [State.unpitchAll_eq]
  exact s.each_modArr_frame ys (fun y => s.physArr y.crew y.l) (fun y => Arr.unpitch y.plane)

theorem State.arr_unpitchAll (s : State) (ys : List Assign) (a : Nat) :
    (s.unpitchAll ys).arr a = (s.arr a).unpitchAll (ys.filter (fun y => s.physArr y.crew y.l == a)) := by
  have folded := State.arr_each_foldl (fun y : Assign => s.physArr y.crew y.l) (fun y => Arr.unpitch y.plane) ys s a
  rwa [← State.unpitchAll_eq] at folded

/-! The abort as a whole -/

section
variable {s : State} {c : Nat} {pt : Pitch} (mark : Bool)

theorem State.abortPitch_eq (h : (s.ctx c).pitch = some pt) : s.abortPitch c mark
    = (((s.freePages c pt.g.gen pt.g.assigns true).unpitchAll pt.g.assigns).modCtx c (Ctx.abort pt mark)).dropRoles pt.g.assigns := by
  simp only [State.abortPitch, h]
  rfl

theorem State.abortPitch_none (h : (s.ctx c).pitch = none) : s.abortPitch c mark = s := by
  simp only [State.abortPitch, h]

theorem State.abortPitch_frame (s : State) (c : Nat) : s.abortPitch c mark = { s with
    ctxs := (s.abortPitch c mark).ctxs, crews := (s.abortPitch c mark).crews, arrs := (s.abortPitch c mark).arrs } := by
  cases h : (s.ctx c).pitch with
  | none => rw [State.abortPitch_none mark h]
  | some pt =>
    rw [State.abortPitch_eq mark h, (State.relieved_dropRoles _ _).frame, State.unpitchAll_frame, State.freePages_frame]
    rfl

theorem State.ctxs_abortPitch (h : (s.ctx c).pitch = some pt) : (s.abortPitch c mark).ctxs = (s.modCtx c (Ctx.abort pt mark)).ctxs := by
  rw [State.abortPitch_eq mark h, (State.relieved_dropRoles _ _).frame, State.unpitchAll_frame, State.freePages_frame]
  rfl

theorem State.ctx_abortPitch_same (h : (s.ctx c).pitch = some pt) : (s.abortPitch c mark).ctx c = (s.ctx c).abort pt mark := by
  rw [State.ctx_of_ctxs (State.ctxs_abortPitch mark h), State.ctx_modCtx_same]

theorem State.ctx_abortPitch_other (h : (s.ctx c).pitch = some pt) {k : Nat} (away : k ≠ c) :
    (s.abortPitch c mark).ctx k = s.ctx k := by
  rw [State.ctx_of_ctxs (State.ctxs_abortPitch mark h), State.ctx_modCtx_other _ _ _ _ away]

/-- A crew after an abort: pages, binding records and patch lists freed, and perhaps a standby role lost. -/
theorem State.crew_abortPitch (h : (s.ctx c).pitch = some pt) (n : Nat) :
    (s.abortPitch c mark).crew n = { (s.crew n).aborted c pt.g.gen (pt.g.assigns.filter (fun y => y.crew == n)) with
      resv := ((s.abortPitch c mark).crew n).resv }
    ∧ ((s.abortPitch c mark).crew n).resv.map (fun r => { r with standby := 0 })
        = (s.crew n).resv.map (fun r => { r with standby := 0 })
    ∧ ((∀ y ∈ pt.g.assigns, y.crew ≠ n) → ((s.abortPitch c mark).crew n).resv = (s.crew n).resv) := by
  rw [State.abortPitch_eq mark h]
  obtain ⟨-, crew, roles, others⟩ := State.relieved_dropRoles
    (((s.freePages c pt.g.gen pt.g.assigns true).unpitchAll pt.g.assigns).modCtx c (Ctx.abort pt mark)) pt.g.assigns
  have before : (((s.freePages c pt.g.gen pt.g.assigns true).unpitchAll pt.g.assigns).modCtx c (Ctx.abort pt mark)).crew n
      = (s.crew n).aborted c pt.g.gen (pt.g.assigns.filter (fun y => y.crew == n)) := by
    rw [← State.crew_freePages, State.unpitchAll_frame]
    rfl
  have resv : ((s.crew n).aborted c pt.g.gen (pt.g.assigns.filter (fun y => y.crew == n))).resv = (s.crew n).resv := by
    rw [Crew.aborted_frame]
  have crew := crew n
  have roles := roles n
  have others := others n
  rw [before] at crew roles others
  rw [resv] at roles others
  exact ⟨crew, roles, others⟩

theorem State.sram_abortPitch (h : (s.ctx c).pitch = some pt) (n : Nat) : ((s.abortPitch c mark).crew n).sram
    = ((s.crew n).aborted c pt.g.gen (pt.g.assigns.filter (fun y => y.crew == n))).sram :=
  (congrArg Crew.sram (State.crew_abortPitch mark h n).1).trans rfl

theorem State.pages_abortPitch (h : (s.ctx c).pitch = some pt) (n : Nat) : ((s.abortPitch c mark).crew n).pages
    = (s.crew n).pages.filter (fun e => !decide (e.2.1 = c ∧ e.2.2 = pt.g.gen)) :=
  ((congrArg Crew.pages (State.crew_abortPitch mark h n).1).trans rfl).trans (congrArg Crew.pages (Crew.aborted_frame _ _ _ _))

theorem State.crew_abortPitch_frame (h : (s.ctx c).pitch = some pt) (n : Nat) : (s.abortPitch c mark).crew n = { s.crew n with
    sram := ((s.abortPitch c mark).crew n).sram, pages := ((s.abortPitch c mark).crew n).pages
    resv := ((s.abortPitch c mark).crew n).resv } := by
  rw [State.sram_abortPitch mark h, State.pages_abortPitch mark h]
  refine (State.crew_abortPitch mark h n).1.trans ?_
  rw [Crew.aborted_frame]

/-- A byte of a crew outside what the pitch held there reads as before. -/
theorem State.read_abortPitch (h : (s.ctx c).pitch = some pt) (n : Nat) {a : Nat}
    (page : ∀ e ∈ (s.crew n).pages, (e.2.1 = c ∧ e.2.2 = pt.g.gen) → a < 0x400 * e.1 ∨ 0x400 * e.1 + 1024 ≤ a)
    (record : ∀ y ∈ pt.g.assigns, y.crew = n →
      (a < 8 * y.bindingGroup ∨ 8 * y.bindingGroup + 8 ≤ a) ∧ (a < 8 * y.patchGroup ∨ 8 * y.patchGroup + 512 ≤ a)) :
    Memory.read ((s.abortPitch c mark).crew n).sram a = Memory.read (s.crew n).sram a := by
  rw [State.sram_abortPitch mark h]
  refine Crew.read_aborted page fun y hy => ?_
  obtain ⟨hy, here⟩ := List.mem_filter.1 hy
  exact record y hy (beq_iff_eq.1 here)

/-- Nothing of an assignment of the pitch is left in its crew. -/
theorem State.unbound_abortPitch (h : (s.ctx c).pitch = some pt) {y : Assign} (hy : y ∈ pt.g.assigns)
    (wf : Memory.wf (s.crew y.crew).sram) : ((s.abortPitch c mark).crew y.crew).unbound c pt.g.gen y := by
  rw [(State.crew_abortPitch mark h y.crew).1]
  exact Crew.unbound_aborted wf (List.mem_filter.2 ⟨hy, beq_self_eq_true _⟩)

theorem State.arr_abortPitch (h : (s.ctx c).pitch = some pt) (a : Nat) : (s.abortPitch c mark).arr a
    = (s.arr a).unpitchAll (pt.g.assigns.filter (fun y => s.physArr y.crew y.l == a)) := by
  have spare (n : Nat) : ((s.freePages c pt.g.gen pt.g.assigns true).crew n).spare = (s.crew n).spare := by
    rw [State.crew_freePages, Crew.aborted_frame]
  have at' (y : Assign) : (s.freePages c pt.g.gen pt.g.assigns true).physArr y.crew y.l = s.physArr y.crew y.l := by
    rw [State.physArr, spare, State.physArr]
  have arr : (s.abortPitch c mark).arr a = ((s.freePages c pt.g.gen pt.g.assigns true).unpitchAll pt.g.assigns).arr a := by
    rw [State.abortPitch_eq mark h, (State.relieved_dropRoles _ _).frame]
    rfl
  have kept : (s.freePages c pt.g.gen pt.g.assigns true).arr a = s.arr a := by
    rw [State.freePages_frame]
    rfl
  simp only [arr, State.arr_unpitchAll, at', kept]

end

end Sys2Proof.Machine
end


/-! ## PITCH_ABORT and the pitch timeout (R152, R160, R161) -/
section
namespace Sys2Proof.Machine

/-- Two states have the same contexts, crews and arrays. -/
structure SameUnits (s t : State) : Prop where
  ctxs : t.ctxs = s.ctxs
  crews : t.crews = s.crews
  arrs : t.arrs = s.arrs

namespace SameUnits
variable {s t : State}

theorem modCtx (h : SameUnits s t) (c : Nat) (f : Ctx → Ctx) : SameUnits (s.modCtx c f) (t.modCtx c f) := by
  obtain ⟨ctxs, crews, arrs⟩ := h
  refine ⟨?_, crews, arrs⟩
  show t.ctxs.set Ctx.dflt c (f (t.ctxs.get Ctx.dflt c)) = s.ctxs.set Ctx.dflt c (f (s.ctxs.get Ctx.dflt c))
  rw [ctxs]

theorem modCrew (h : SameUnits s t) (n : Nat) (f : Crew → Crew) : SameUnits (s.modCrew n f) (t.modCrew n f) := by
  obtain ⟨ctxs, crews, arrs⟩ := h
  refine ⟨ctxs, ?_, arrs⟩
  show t.crews.set Crew.dflt n (f (t.crews.get Crew.dflt n)) = s.crews.set Crew.dflt n (f (s.crews.get Crew.dflt n))
  rw [crews]

theorem modArr (h : SameUnits s t) (a : Nat) (f : Arr → Arr) : SameUnits (s.modArr a f) (t.modArr a f) := by
  obtain ⟨ctxs, crews, arrs⟩ := h
  refine ⟨ctxs, crews, ?_⟩
  show t.arrs.set _ a (f (t.arrs.get _ a)) = s.arrs.set _ a (f (s.arrs.get _ a))
  rw [arrs]

theorem ctx (h : SameUnits s t) (c : Nat) : t.ctx c = s.ctx c := State.ctx_of_ctxs h.ctxs c
theorem crew (h : SameUnits s t) (n : Nat) : t.crew n = s.crew n := by rw [State.crew, h.crews, State.crew]

theorem each {α : Type} {f : State → α → State} (h : SameUnits s t) (step : ∀ s t x, SameUnits s t → SameUnits (f s x) (f t x))
    (l : List α) : SameUnits (s.each l f) (t.each l f) := by
  induction l generalizing s t with
  | nil => exact h
  | cons x l ih => exact ih (step s t x h)

theorem inEntry (h : SameUnits s t) (n l : Nat) : t.inEntry n l = s.inEntry n l := by
  simp only [State.inEntry, h.crew, h.ctx]

theorem freePages (h : SameUnits s t) (c gen : Nat) (ys : List Assign) (too : Bool) :
    SameUnits (s.freePages c gen ys too) (t.freePages c gen ys too) := by
  have dropped : SameUnits (s.eachCrew (Crew.dropPages c gen)) (t.eachCrew (Crew.dropPages c gen)) := by
    rw [State.eachCrew, State.eachCrew, h.crews]
    exact h.each (fun s t k h => h.modCrew k (Crew.dropPages c gen)) _
  exact dropped.each (fun s t y h => h.modCrew y.crew (Crew.unbind c gen too y)) ys

theorem unpitchAll (h : SameUnits s t) (ys : List Assign) : SameUnits (s.unpitchAll ys) (t.unpitchAll ys) := by
  refine h.each (fun s t y h => ?_) ys
  rw [State.physArr, State.physArr, h.crew]
  exact h.modArr _ _

theorem dropRoles (h : SameUnits s t) (ys : List Assign) : SameUnits (s.dropRoles ys) (t.dropRoles ys) := by
  refine h.each (fun s t y h => ?_) ys
  rw [h.inEntry]
  split
  · exact h
  · exact h.modCrew _ _

/-- An abort asks for contexts, crews and arrays alone. -/
theorem abortPitch (h : SameUnits s t) (c : Nat) (mark : Bool) : SameUnits (s.abortPitch c mark) (t.abortPitch c mark) := by
  cases pitch : (s.ctx c).pitch with
  | none => rwa [State.abortPitch_none mark pitch, State.abortPitch_none mark ((h.ctx c).symm ▸ pitch)]
  | some pt =>
    rw [State.abortPitch_eq mark pitch, State.abortPitch_eq mark ((h.ctx c).symm ▸ pitch)]
    exact (((h.freePages _ _ _ _).unpitchAll _).modCtx _ _).dropRoles _

end SameUnits

/-- With no command of the pitch in flight an abort completes none. -/
theorem State.abortWith_idle {s : State} {c : Nat} {pt : Pitch} (h : (s.ctx c).pitch = some pt) (exec : pt.exec = none)
    (commit : pt.commit = none) (cmds : ∀ x ∈ s.cmds, x.isShard c = false ∧ (x.inContext c = false ∨ x.pkt.opcode ≠ 0x10))
    (mark : Bool) (a b d : Status) :
    s.abortWith c mark a b d = s.abortPitch c mark := by
  have same : (s.abortPitch c mark).cmds = s.cmds := by rw [State.abortPitch_frame]
  have begins : s.cmds.filter (fun x => x.inContext c && x.pkt.opcode == 0x10) = [] :=
    List.filter_eq_nil_iff.2 fun x hx => by
      obtain out | other := (cmds x hx).2 <;> simp [*]
  have shards : s.cmds.filter (Cmd.isShard c) = [] := List.filter_eq_nil_iff.2 fun x hx => by simp [(cmds x hx).1]
  simp only [State.abortWith, h, State.endPitchCmds, exec, commit, Option.bind_none, same, begins, State.each_nil, shards]

/-- A command that waits for no member is done and answered. -/
theorem State.finish_alone {s : State} {q : QueueId} {o : Op} (alone : s.parties q o = []) (p : Packet) (blocks : Bool) (r0 : Nat)
    (extra : Nat → List Byte) : s.finish o q p blocks r0 extra = (s.takeHold o.code (ctxOf q p)).done q p .ok r0 0 := by
  rw [State.finish, if_pos alone]

/-- Which members get a command depends on the device's place in its group. -/
theorem State.parties_congr {s t : State} (group : t.group = s.group) (env : t.env = s.env) (q : QueueId) (o : Op) :
    t.parties q o = s.parties q o := by
  have top : t.top = s.top := by rw [State.top, group, env, State.top]
  have others : t.others = s.others := by rw [State.others, group, State.others]
  cases q <;> simp only [State.parties, top, others]

theorem execPitchAbort_answers {s : State} {q : QueueId} {p : Packet} {pt : Pitch} (h : Presents s q .pitchAbort p)
    (pitch : (s.ctx (ctxOf q p)).pitch = some pt) (addrs : p.noAddrs = true) (gen : p.param 32 2 = pt.g.gen)
    (alone : s.parties q .pitchAbort = []) (exec : pt.exec = none) (commit : pt.commit = none)
    (cmds : ∀ x ∈ s.cmds, x.isShard (ctxOf q p) = false ∧ x.pkt.opcode ≠ 0x10) :
    ∃ t, execPitchAbort q s = .next t ∧ Answered ((s.popFetched q).abortPitch (ctxOf q p) false) t q p .ok 0 0 0 := by
  obtain ⟨wf, ring, offers⟩ := h
  have frame := State.abortPitch_frame false (s.popFetched q) (ctxOf q p)
  have parties : ((s.popFetched q).abortPitch (ctxOf q p) false).parties q .pitchAbort = [] := by
    rw [← alone]
    refine State.parties_congr ?_ ?_ q .pitchAbort <;> rw [frame] <;> rfl
  have host : Memory.wf ((s.popFetched q).abortPitch (ctxOf q p) false).host := by rwa [frame]
  have effect : effPitchAbort q p (s.popFetched q) = ((s.popFetched q).abortPitch (ctxOf q p) false).done q p .ok 0 0 := by
    have pitch' : ((s.popFetched q).ctx (ctxOf q p)).pitch = some pt := pitch
    have idle := State.abortWith_idle pitch' exec commit (fun x hx => (cmds x hx).imp_right .inr) false .state .shardMissing .state
    simp only [effPitchAbort, pitch', addrs, gen, idle, State.finish_alone parties]
    rw [State.takeHold_none _ (by decide)]
    simp
  rw [execPitchAbort, State.packetRow_offers offers, effect]
  exact ⟨_, rfl, Answered.done host ring p .ok 0 0⟩

/-- What the event of a timeout reaches. -/
theorem State.ptimeoutEvent_aside (s : State) (c : Fin 16) : Aside s (s.ptimeoutEvent c) := by
  unfold State.ptimeoutEvent
  split
  · exact Aside.refl s
  · exact (Aside.modQueue s _ _).trans (Aside.raiseCtx _ _ _)

theorem State.ptimeoutEvent_spec (s : State) (c : Fin 16) :
    ((s.ptimeoutEvent c).queue (.ctx c)).evt0 = true
      ∧ (s.ptimeoutEvent c).sig = s.sig ∧ (s.ptimeoutEvent c).group = s.group ∧ (s.ptimeoutEvent c).arrs = s.arrs := by
  have raise (u : State) (c k : Nat) : (u.raiseCtx c k).queues = u.queues
      ∧ (u.raiseCtx c k).sig = u.sig ∧ (u.raiseCtx c k).group = u.group ∧ (u.raiseCtx c k).arrs = u.arrs := by
    unfold State.raiseCtx
    split
    · obtain e | ⟨x, e⟩ | e := u.raiseVf_cases (c + 1) k <;> rw [e] <;> exact ⟨rfl, rfl, rfl, rfl⟩
    · obtain e | ⟨x, e⟩ | e := u.raisePf_cases (2 + 16 * k + c) <;> rw [e] <;> exact ⟨rfl, rfl, rfl, rfl⟩
  unfold State.ptimeoutEvent
  split
  · next set => exact ⟨set, rfl, rfl, rfl⟩
  · obtain ⟨queues, same⟩ := raise (s.modQueue (.ctx c) (fun x => { x with evt0 := true })) c.val 2
    refine ⟨?_, same⟩
    rw [State.queue, queues, ← State.queue, State.queue_modQueue_same]

theorem State.group_storeSig (s : State) (b : List Byte) : (s.storeSig b).group = s.group := by
  have raise (u : State) (v : Nat) : (u.raisePf v).group = u.group := by
    obtain e | ⟨x, e⟩ | e := u.raisePf_cases v <;> rw [e]
  unfold State.storeSig
  dsimp only
  split
  · rfl
  · split
    · exact raise _ 1
    · rfl

theorem State.arrs_emit (s : State) (kind : Nat) (i : SigInfo) : (s.emit kind i).arrs = s.arrs := by
  obtain ⟨x, g, o, d, e, -⟩ := s.emit_frame kind i
  rw [e]

/-- A device that is in no group sends its signatures nowhere. -/
theorem State.group_emit_lone {s : State} (lone : s.member = false) (kind : Nat) (i : SigInfo) : (s.emit kind i).group = s.group := by
  have lone' (u : State) (b : List Byte) (h : u.group = s.group) : (u.storeSig b).member = false := by
    rw [State.member, State.group_storeSig, h, ← State.member, lone]
  unfold State.emit
  dsimp only
  rw [if_neg (by simp [lone'])]
  exact State.group_storeSig _ _

/-- What the signature of a pitch timeout says (R160, R240). -/
def timeoutInfo (c : Fin 16) (gen : Nat) : SigInfo :=
  { ctx := some c.val, status := some (statusCode .shardMissing), data := leBytes 2 gen }

theorem execPitchTimeout_lone {s : State} {c : Fin 16} {pt : Pitch} (pitch : (s.ctx c.val).pitch = some pt) (lone : s.member = false)
    (on : pt.timerOn = true) (exec : pt.exec = none) (commit : pt.commit = none)
    (cmds : ∀ x ∈ s.cmds, x.isShard c.val = false ∧ x.pkt.opcode ≠ 0x10) :
    execPitchTimeout c s = .next (((s.abortPitch c.val true).emit 0x14 (timeoutInfo c pt.g.gen)).ptimeoutEvent c) := by
  have timeout : s.pitchTimeout c pt.g.gen = ((s.abortPitch c.val true).emit 0x14 (timeoutInfo c pt.g.gen)).ptimeoutEvent c := by
    rw [State.pitchTimeout, State.abortWith_idle pitch exec commit fun x hx => (cmds x hx).imp_right .inr]
    rfl
  have lone' : (s.pitchTimeout c pt.g.gen).member = false := by
    have kept : (s.abortPitch c.val true).member = false := by
      rw [State.abortPitch_frame]
      exact lone
    rw [timeout, State.member, (State.ptimeoutEvent_spec _ c).2.2.1, State.group_emit_lone kept]
    exact kept
  have notTop : (s.pitchTimeout c pt.g.gen).top = false := by
    rw [State.top, ← State.member, lone', Bool.false_and]
  simp only [execPitchTimeout, pitch, on, notTop, lone', ← timeout]
  rfl

/-- Settles O19: an abort is a fold over crews, contexts and arrays, each unit changed on its own. -/
theorem pitchAbortAndTimeout : Obligations.PitchAbortAndTimeout := by
  refine ⟨fun s q p pt h pitch addrs gen alone exec commit begun cmds => ?_, fun x pt mark => ?_,
    fun s c pt pitch member => ⟨fun off => ?_, fun on exec commit cmds => ?_⟩, fun s c pt mark pitch wf => ?_⟩
  · obtain ⟨t, ht, answered⟩ := execPitchAbort_answers h pitch addrs gen alone exec commit cmds
    have frame := State.abortPitch_frame false (s.popFetched q) (ctxOf q p)
    have pitch' : ((s.popFetched q).ctx (ctxOf q p)).pitch = some pt := pitch
    have units : SameUnits s (s.popFetched q) := ⟨rfl, rfl, rfl⟩
    obtain ⟨-, crews, arrs⟩ := units.abortPitch (ctxOf q p) false
    refine ⟨t, _, ht, answered, State.ctx_abortPitch_same false pitch', fun k away => State.ctx_abortPitch_other false pitch' away,
      ?_, ?_, crews, arrs, frame⟩ <;> rw [frame] <;> rfl
  · refine ⟨rfl, fun begun => ?_, fun begun => ?_, rfl, rfl, rfl, fun open' => ?_⟩
    · simp [Ctx.abort, begun]
    · simp [Ctx.abort, begun]
    · simp [Ctx.abort, open']
  · show execPitchTimeout c s = _
    simp [execPitchTimeout, pitch, off]
  · have frame := State.abortPitch_frame true s c.val
    have still := (Aside.emit (s.abortPitch c.val true) 0x14 (timeoutInfo c pt.g.gen)).trans
      (State.ptimeoutEvent_aside _ c)
    obtain ⟨set, sig, -, arrs⟩ := State.ptimeoutEvent_spec ((s.abortPitch c.val true).emit 0x14 (timeoutInfo c pt.g.gen)) c
    have signed := (State.signed_emit (s.abortPitch c.val true) 0x14 (timeoutInfo c pt.g.gen)).congr (s := s)
      (by rw [frame]) (by rw [frame]) (by rw [frame])
    refine ⟨_, execPitchTimeout_lone pitch member on exec commit cmds, ?_, fun k away => ?_, set, ?_, ?_, ?_, ?_, ?_⟩
    · rw [State.ctx_of_ctxs still.ctxs, State.ctx_abortPitch_same true pitch]
    · rw [State.ctx_of_ctxs still.ctxs, State.ctx_abortPitch_other true pitch away]
    · rw [Signed, sig]
      exact signed
    · rw [still.rest, frame]
    · rw [still.rest, frame]
    · rw [still.crews]
    · rw [arrs, State.arrs_emit]
  · intro t at' mine
    refine ⟨State.abortPitch_frame mark s c, fun n => ?_, fun y hy => ?_, fun a away => ?_⟩
    · obtain ⟨-, roles, others⟩ := State.crew_abortPitch mark pitch n
      refine ⟨State.crew_abortPitch_frame mark pitch n, State.pages_abortPitch mark pitch n, fun e he me => ?_,
        fun a page record => State.read_abortPitch mark pitch n page fun y hy here => ?_, others, roles⟩
      · rw [State.sram_abortPitch mark pitch]
        exact Crew.page_aborted (wf n) he me
      · have outside := record y hy here
        simp only [y.patchGroup_eq, Nat.mul_comm _ 8] at outside
        exact outside
    · have free := State.unbound_abortPitch mark pitch hy (wf y.crew)
      have arr : t.arr (at' y) = (s.arr (at' y)).unpitchAll (pt.g.assigns.filter (fun z => at' z == at' y)) :=
        State.arr_abortPitch mark pitch (at' y)
      have mine' : y ∈ pt.g.assigns.filter (fun z => at' z == at' y) := List.mem_filter.2 ⟨hy, beq_self_eq_true _⟩
      have frame := Arr.unpitchAll_frame (List.ne_nil_of_mem mine') (s.arr (at' y))
      rw [arr]
      refine ⟨free.1, free.2, Arr.plane_unpitchAll_same mine' _, ?_, ?_, frame, fun one => ?_⟩
      · rw [frame]
      · rw [frame]
      · refine Arr.plane_unpitchAll_other (fun z hz => ?_) _
        obtain ⟨hz, here⟩ := List.mem_filter.1 hz
        exact one z hz (beq_iff_eq.1 here)
    · rw [State.arr_abortPitch mark pitch, List.filter_eq_nil_iff.2 fun y hy => by simpa using away y hy]
      rfl

end Sys2Proof.Machine
end


/-! ## The completion of a command whose only part is this device's (R176, R177) -/
section
namespace Sys2Proof.Machine

/-- The effect that a command has at its completion: with OK alone. -/
def State.heldFor (m : State) (c : Cmd) (st : Status) : State :=
  if st = .ok then m.takeHold c.pkt.opcode (ctxOf c.ref.q c.pkt) else m

theorem State.heldFor_failed {m : State} {c : Cmd} {st : Status} (failed : st ≠ .ok) : m.heldFor c st = m := if_neg failed

theorem State.heldFor_ok (m : State) (c : Cmd) : m.heldFor c .ok = m.takeHold c.pkt.opcode (ctxOf c.ref.q c.pkt) := rfl

/-- What takes hold at a completion concerns contexts and the device state. -/
theorem State.heldFor_frame (m : State) (c : Cmd) (st : Status) : m.heldFor c st = { m with
    ctxs := (m.heldFor c st).ctxs, dev := (m.heldFor c st).dev } := by
  unfold State.heldFor State.takeHold
  split
  · split
    · rfl
    · split
      · rfl
      · split <;> rfl
  · rfl

/-- A command that waits for no member is answered and gone, once what it does at completion has taken hold. -/
theorem State.complete_alone {m : State} {c : Cmd} (hc : c.alone) (st : Status) (r0 r1 : Nat) :
    m.complete c st r0 r1 = (((m.heldFor c st).dropCmd c.ref).releaseHeld c).reply c.ref.q c.pkt st
      (if statusRank st = 0 ∨ st = .okEmpty then 0 else modBits c.sat c.folded c.patched) r0 r1 := by
  obtain ⟨ring, parts, merged⟩ := hc
  have e : m.outcomeOf c st = (st, (m.outcomeOf c st).2) := Prod.ext (m.outcomeOf_alone merged st) rfl
  unfold State.complete
  rw [if_neg (not_not.2 parts), e, merged]
  dsimp only [List.foldl_nil]
  rw [if_pos rfl, State.replyGen_ring ring]
  rfl

theorem Ends.complete_alone {m : State} (host : Memory.wf m.host) {c : Cmd} (hc : c.alone) (st : Status) (r0 r1 : Nat) :
    Ends (m.heldFor c st) (m.complete c st r0 r1) c st r0 r1 := by
  have host' : Memory.wf (m.heldFor c st).host := by rwa [State.heldFor_frame]
  unfold Ends
  rw [State.complete_alone hc]
  exact Answered.reply (m := ((m.heldFor c st).dropCmd c.ref).releaseHeld c) host' hc.1 c.pkt st _ r0 r1

theorem State.host_reply_wf {m : State} (host : Memory.wf m.host) {q : QueueId} (ring : q.isRing = true) (p : Packet) (st : Status)
    (mod r0 r1 : Nat) : Memory.wf (m.reply q p st mod r0 r1).host := by
  have e : m.reply q p st mod r0 r1 = m.writeStatus q p st mod r0 r1 := by
    cases q <;> simp only [State.reply, State.replyGen, QueueId.isRing, Bool.false_eq_true] at *
  have raised (u : State) : (u.raiseQueue q).host = u.host := by
    obtain ⟨o, x, y, e⟩ := u.raiseQueue_frame q
    rw [e]
  rw [e]
  unfold State.writeStatus
  dsimp only
  split
  · rw [raised]
    exact Memory.wf_writeBytes _ _ host
  · exact Memory.wf_writeBytes _ _ host

end Sys2Proof.Machine
end

/-! ## The completions that an abort brings (R161, R191) -/
section
namespace Sys2Proof.Machine

/-- From `m` to `n` commands other than `r` have completed without an effect: contexts, crews and arrays are as before. -/
structure Quiets (r : CmdRef) (m n : State) : Prop where
  units : SameUnits m n
  host : Memory.wf m.host → Memory.wf n.host
  kept : n.cmd? r = m.cmd? r
  fewer : ∀ x ∈ n.cmds, x ∈ m.cmds

theorem Quiets.refl (r : CmdRef) (m : State) : Quiets r m m := ⟨⟨rfl, rfl, rfl⟩, id, rfl, fun _ h => h⟩

theorem Quiets.trans {r : CmdRef} {l m n : State} (h : Quiets r l m) (g : Quiets r m n) : Quiets r l n :=
  ⟨⟨g.units.ctxs.trans h.units.ctxs, g.units.crews.trans h.units.crews, g.units.arrs.trans h.units.arrs⟩,
    fun w => g.host (h.host w), g.kept.trans h.kept, fun x hx => h.fewer x (g.fewer x hx)⟩

/-- Dropping one command keeps every other one. -/
theorem State.cmd?_dropCmd_other (s : State) {r k : CmdRef} (other : k ≠ r) : (s.dropCmd k).cmd? r = s.cmd? r := by
  unfold State.cmd? State.dropCmd
  rw [List.find?_filter]
  congr 1
  funext x
  by_cases hx : x.ref = r
  · simp [hx, Ne.symm other]
  · simp [hx]

/-- A failed completion of a command that waits for no member. -/
theorem Quiets.complete (m : State) {c : Cmd} (hc : c.alone) {r : CmdRef} (other : c.ref ≠ r) {st : Status} (failed : st ≠ .ok)
    (r0 r1 : Nat) (host : Memory.wf m.host) : Quiets r m (m.complete c st r0 r1) := by
  have ends := Ends.complete_alone host hc st r0 r1
  rw [State.heldFor_failed failed] at ends
  have rest := ends.rest
  refine ⟨⟨?_, ?_, ?_⟩, fun w => ?_, ?_, fun x hx => ?_⟩
  · rw [rest]; rfl
  · rw [rest]; rfl
  · rw [rest]; rfl
  · rw [State.complete_alone hc, State.heldFor_failed failed]
    exact State.host_reply_wf (m := (m.dropCmd c.ref).releaseHeld c) w hc.1 _ _ _ _ _
  · rw [← m.cmd?_dropCmd_other other, rest]
    rfl
  · rw [rest] at hx
    exact (List.mem_filter.1 hx).1

theorem Quiets.each {r : CmdRef} {st : Status} (failed : st ≠ .ok) (r0 : Cmd → Nat) {l : List Cmd}
    (hl : ∀ x ∈ l, x.alone ∧ x.ref ≠ r) {m : State} (host : Memory.wf m.host) :
    Quiets r m (m.each l (fun s x => s.complete x st (r0 x) 0)) := by
  induction l generalizing m with
  | nil => exact .refl r m
  | cons x l ih =>
    obtain ⟨alone, other⟩ := hl x List.mem_cons_self
    have first := Quiets.complete m alone other failed (r0 x) 0 host
    exact first.trans (ih (fun y hy => hl y (List.mem_cons_of_mem _ hy)) (first.host host))

/-- The commands of a pitch that end with it, none of them `r`, complete without an effect. -/
theorem State.quiets_endPitchCmds {s : State} {c : Nat} {p : Pitch} {r : CmdRef} (host : Memory.wf s.host) (commit : p.commit = none)
    (exec : p.exec ≠ some r) (begins : ∀ x ∈ s.cmds, x.inContext c = false ∨ x.pkt.opcode ≠ 0x10)
    (alone : ∀ x ∈ s.cmds, x.isShard c = true ∨ p.exec = some x.ref → x.alone)
    (shards : ∀ x ∈ s.cmds, x.isShard c = true → x.ref ≠ r) {shardSt commitSt waitSt : Status} (failed : shardSt ≠ .ok)
    (failed' : waitSt ≠ .ok) : Quiets r s (s.endPitchCmds c p shardSt commitSt waitSt) := by
  have tail (t : State) (h : Quiets r s t) : Quiets r s
      ((t.each (t.cmds.filter (fun x => x.inContext c && x.pkt.opcode == 0x10)) (fun s x => s.complete x shardSt 0 0)).each
        ((t.each (t.cmds.filter (fun x => x.inContext c && x.pkt.opcode == 0x10)) (fun s x => s.complete x shardSt 0 0)).cmds.filter
          (Cmd.isShard c)) (fun s x => s.complete x waitSt x.results.1 0)) := by
    have none : t.cmds.filter (fun x => x.inContext c && x.pkt.opcode == 0x10) = [] :=
      List.filter_eq_nil_iff.2 fun x hx => by
        obtain out | other := begins x (h.fewer x hx) <;> simp [*]
    rw [none, State.each_nil]
    refine h.trans (Quiets.each failed' (fun x => x.results.1) (fun x hx => ?_) (h.host host))
    obtain ⟨hx, shard⟩ := List.mem_filter.1 hx
    exact ⟨alone x (h.fewer x hx) (.inl shard), shards x (h.fewer x hx) shard⟩
  cases found : p.exec.bind s.cmd? with
  | none =>
    simp only [State.endPitchCmds, found, commit, Option.bind_none]
    exact tail s (.refl r s)
  | some x =>
    obtain ⟨k, hk, hx⟩ := Option.bind_eq_some_iff.1 found
    have ref : x.ref = k := by simpa using List.find?_some hx
    have other : x.ref ≠ r := fun same => exec (same ▸ ref ▸ hk)
    simp only [State.endPitchCmds, found, commit, Option.bind_none]
    exact tail _ (Quiets.complete s (alone x (List.mem_of_find?_eq_some hx) (.inr (ref ▸ hk))) other failed _ _ host)

end Sys2Proof.Machine
end

/-! ## PITCH_COMMIT (R117, R155, R159) -/
section
namespace Sys2Proof.Machine

theorem State.commitCheck_missing {s : State} {pt : Pitch} {i : Nat} {rest : List Nat} (h : missingShards pt = i :: rest) :
    s.commitCheck pt = some (.shardMissing, (missingShards pt).length, i) := by
  simp only [State.commitCheck, h]

theorem State.commitCheck_incomplete {s : State} {pt : Pitch} (h : missingShards pt = []) {e : Nat × Nat}
    (he : pt.g.man.entries.find? (fun e => !entryComplete pt e.2 e.1) = some e) : s.commitCheck pt = some (.badParam, 0, e.1) := by
  simp only [State.commitCheck, h, he]

theorem State.commitCheck_key {s : State} {pt : Pitch} (h : missingShards pt = [])
    (whole : pt.g.man.entries.find? (fun e => !entryComplete pt e.2 e.1) = none) :
    s.commitCheck pt = if (s.keyFor pt.g.man).isNone then some (.sigBad, 0, 0) else none := by
  simp only [State.commitCheck, h, whole]

/-- No check of a PITCH_COMMIT answers OK. -/
theorem State.commitCheck_failed {s : State} {pt : Pitch} {st : Status} {r0 r1 : Nat} (h : s.commitCheck pt = some (st, r0, r1)) :
    st ≠ .ok := by
  cases missing : missingShards pt with
  | cons i rest =>
    rw [State.commitCheck_missing missing] at h
    cases h
    decide
  | nil =>
    cases whole : pt.g.man.entries.find? (fun e => !entryComplete pt e.2 e.1) with
    | some e =>
      rw [State.commitCheck_incomplete missing whole] at h
      cases h
      decide
    | none =>
      rw [State.commitCheck_key missing whole] at h
      split at h
      · cases h
        decide
      · cases h

/-- A command that is forwarded to no member joins the commands in flight. -/
theorem State.launch_alone {s : State} {o : Op} {c : Cmd} (alone : s.parties c.ref.q o = []) (parts : c.parts = [])
    (extra : Nat → List Byte) : s.launch o c extra = s.enrol c := by
  rw [State.launch, alone, State.launchTo, State.sendCmds, State.each_nil, ← parts]

/-- The record of a PITCH_COMMIT. -/
def commitCmd (s : State) (q : QueueId) (p : Packet) (pt : Pitch) : Cmd := { mkCmd s q p false .commit with gen := pt.g.gen }

theorem effPitchCommit_passes {s : State} {q : QueueId} {p : Packet} {pt : Pitch} (pitch : (s.ctx (ctxOf q p)).pitch = some pt)
    (addrs : p.noAddrs = true) (gen : p.param 32 2 = pt.g.gen) (alone : s.parties q .pitchCommit = []) (check : s.commitCheck pt = none) :
    effPitchCommit q p s = (s.enrol (commitCmd s q p pt)).modCtx (ctxOf q p) (fun y => { y with
      st := .committing, pitch := some { pt with commit := some ⟨q, p.tag⟩, timerOn := false } }) := by
  have launched : s.launch .pitchCommit (commitCmd s q p pt) noExtra = s.enrol (commitCmd s q p pt) := State.launch_alone alone rfl _
  unfold commitCmd at launched ⊢
  simp only [effPitchCommit, pitch, addrs, gen, launched, check]
  simp [mkCmd]

theorem effPitchCommit_fails {s : State} {q : QueueId} {p : Packet} {pt : Pitch} (pitch : (s.ctx (ctxOf q p)).pitch = some pt)
    (addrs : p.noAddrs = true) (gen : p.param 32 2 = pt.g.gen) (alone : s.parties q .pitchCommit = []) {st : Status} {r0 r1 : Nat}
    (check : s.commitCheck pt = some (st, r0, r1)) {x : Cmd}
    (found : ((s.enrol (commitCmd s q p pt)).abortWith (ctxOf q p) false .state .shardMissing .state).cmd? ⟨q, p.tag⟩ = some x) :
    effPitchCommit q p s
      = ((s.enrol (commitCmd s q p pt)).abortWith (ctxOf q p) false .state .shardMissing .state).complete x st r0 r1 := by
  have launched : s.launch .pitchCommit (commitCmd s q p pt) noExtra = s.enrol (commitCmd s q p pt) := State.launch_alone alone rfl _
  have found' : ((s.enrol (commitCmd s q p pt)).abortWith (ctxOf q p) false .state .shardMissing .state).cmd?
      (commitCmd s q p pt).ref = some x := found
  unfold commitCmd at launched found' ⊢
  simp only [effPitchCommit, pitch, addrs, gen, launched, check, found']
  simp

/-- A newcomer is found by its reference, where no other command has it. -/
theorem State.cmd?_enrol {s : State} {c : Cmd} (new : ∀ x ∈ s.cmds, x.ref ≠ c.ref) : (s.enrol c).cmd? c.ref = some c := by
  have before : s.cmds.find? (fun x => decide (x.ref = c.ref)) = none := List.find?_eq_none.2 fun x hx => by simpa using new x hx
  rw [State.cmd?, State.enrol]
  dsimp only
  rw [List.find?_append, before]
  simp

theorem State.abortWith_eq {s : State} {c : Nat} {pt : Pitch} (h : (s.ctx c).pitch = some pt) (mark : Bool) (a b d : Status) :
    s.abortWith c mark a b d = (s.abortPitch c mark).endPitchCmds c pt a b d := by
  simp only [State.abortWith, h]

/-- A PITCH_COMMIT is no shard and no PITCH_BEGIN. -/
theorem commitCmd_apart {s : State} {q : QueueId} {p : Packet} {pt : Pitch} (opcode : p.opcode = 0x12) (c : Nat) :
    (commitCmd s q p pt).isShard c = false ∧ (commitCmd s q p pt).pkt.opcode ≠ 0x10 := by
  refine ⟨Bool.and_false _, ?_⟩
  show p.opcode ≠ 0x10
  rw [opcode]
  decide

/-- The other commands of the pitch end first, without an effect; the PITCH_COMMIT is still in flight then. -/
theorem commit_abort_quiets {s : State} {q : QueueId} {p : Packet} {pt : Pitch} (host : Memory.wf s.host) (opcode : p.opcode = 0x12)
    (commit : pt.commit = none) (exec : pt.exec ≠ some ⟨q, p.tag⟩)
    (cmds : ∀ x ∈ s.cmds, x.ref ≠ ⟨q, p.tag⟩ ∧ (x.inContext (ctxOf q p) = false ∨ x.pkt.opcode ≠ 0x10))
    (alone : ∀ x ∈ s.cmds, x.isShard (ctxOf q p) = true ∨ pt.exec = some x.ref → x.alone) :
    Quiets ⟨q, p.tag⟩ ((s.enrol (commitCmd s q p pt)).abortPitch (ctxOf q p) false)
      (((s.enrol (commitCmd s q p pt)).abortPitch (ctxOf q p) false).endPitchCmds (ctxOf q p) pt .state .shardMissing .state) := by
  obtain ⟨shard, begin'⟩ := commitCmd_apart (s := s) (q := q) (pt := pt) opcode (ctxOf q p)
  have frame := State.abortPitch_frame false (s.enrol (commitCmd s q p pt)) (ctxOf q p)
  have split' (x : Cmd) (hx : x ∈ ((s.enrol (commitCmd s q p pt)).abortPitch (ctxOf q p) false).cmds) :
      x ∈ s.cmds ∨ x = commitCmd s q p pt := by
    rw [frame] at hx
    simpa [State.enrol] using hx
  refine State.quiets_endPitchCmds (by rwa [frame]) commit exec (fun x hx => ?_) (fun x hx work => ?_) (fun x hx is => ?_)
    (by decide) (by decide)
  · obtain old | rfl := split' x hx
    · exact (cmds x old).2
    · exact .inr begin'
  · obtain old | rfl := split' x hx
    · exact alone x old work
    · obtain is | running := work
      · exact absurd (shard.symm.trans is) Bool.false_ne_true
      · exact absurd running exec
  · obtain old | rfl := split' x hx
    · exact (cmds x old).1
    · exact absurd (shard.symm.trans is) Bool.false_ne_true

theorem State.bindAll_frame (s : State) (c : Nat) (g : Generation) :
    s.bindAll c g = { s with crews := (s.bindAll c g).crews, arrs := (s.bindAll c g).arrs } :=
  State.each_keeps (P := fun t => t = { s with crews := t.crews, arrs := t.arrs }) g.assigns rfl fun t y h => by
    rw [h]
    rfl

/-- What PITCH_COMMIT does when it completes with OK (R159). -/
theorem State.takeHold_commit (s : State) (c : Nat) : s.takeHold 0x12 c = s.modCtx c (Ctx.advance 0x12) := rfl

/-- A PITCH_COMMIT that fails a check ends the pitch, its other commands first, and then itself. -/
theorem execPitchCommit_aborts {s : State} {q : QueueId} {p : Packet} {pt : Pitch} (h : Presents s q .pitchCommit p)
    (pitch : (s.ctx (ctxOf q p)).pitch = some pt) (addrs : p.noAddrs = true) (gen : p.param 32 2 = pt.g.gen)
    (alone : s.parties q .pitchCommit = []) {st : Status} {r0 r1 : Nat} (check : s.commitCheck pt = some (st, r0, r1))
    (commit : pt.commit = none) (exec : pt.exec ≠ some ⟨q, p.tag⟩)
    (cmds : ∀ x ∈ s.cmds, x.ref ≠ ⟨q, p.tag⟩ ∧ (x.inContext (ctxOf q p) = false ∨ x.pkt.opcode ≠ 0x10))
    (busy : ∀ x ∈ s.cmds, x.isShard (ctxOf q p) = true ∨ pt.exec = some x.ref → x.alone) :
    ∃ t, execPitchCommit q s = .next t
      ∧ Ends (((s.popFetched q).enrol (commitCmd s q p pt)).abortWith (ctxOf q p) false .state .shardMissing .state) t
        (commitCmd s q p pt) st r0 r1
      ∧ Quiets ⟨q, p.tag⟩ (((s.popFetched q).enrol (commitCmd s q p pt)).abortPitch (ctxOf q p) false)
        (((s.popFetched q).enrol (commitCmd s q p pt)).abortWith (ctxOf q p) false .state .shardMissing .state) := by
  obtain ⟨host, ring, offers⟩ := h
  have pitch' : (((s.popFetched q).enrol (commitCmd s q p pt)).ctx (ctxOf q p)).pitch = some pt := pitch
  have quiets : Quiets ⟨q, p.tag⟩ (((s.popFetched q).enrol (commitCmd s q p pt)).abortPitch (ctxOf q p) false)
      (((s.popFetched q).enrol (commitCmd s q p pt)).abortWith (ctxOf q p) false .state .shardMissing .state) := by
    rw [State.abortWith_eq pitch']
    exact commit_abort_quiets (s := s.popFetched q) host offers.2.1 commit exec cmds busy
  have frame := State.abortPitch_frame false ((s.popFetched q).enrol (commitCmd s q p pt)) (ctxOf q p)
  have found : (((s.popFetched q).enrol (commitCmd s q p pt)).abortWith (ctxOf q p) false .state .shardMissing .state).cmd? ⟨q, p.tag⟩
      = some (commitCmd s q p pt) := by
    refine quiets.kept.trans ?_
    rw [frame]
    exact State.cmd?_enrol (s := s.popFetched q) (c := commitCmd s q p pt) fun x hx => (cmds x hx).1
  have ends := Ends.complete_alone (quiets.host (by rwa [frame])) (c := commitCmd s q p pt) ⟨ring, rfl, rfl⟩ st r0 r1
  rw [State.heldFor_failed (State.commitCheck_failed check)] at ends
  exact ⟨_, congrArg Host.Outcome.next ((State.packetRow_offers offers _).trans
    (effPitchCommit_fails (s := s.popFetched q) pitch addrs gen alone check found)), ends, quiets⟩

/-- A context after its commit: the staging slots have lost their backing. -/
def Ctx.committed (pt : Pitch) (x : Ctx) : Ctx :=
  { x with pitch := some { pt with commit := none, nstage := 0, stage := [], s0 := 0, s1 := 0, accepted := [] } }

theorem execPitchCommitComplete_commits {s : State} (host : Memory.wf s.host) {c : Fin 16} {pt : Pitch}
    (pitch : (s.ctx c.val).pitch = some pt) {r : CmdRef} (commit : pt.commit = some r) {x : Cmd} (found : s.cmd? r = some x)
    (alone : x.alone) (opcode : x.pkt.opcode = 0x12) (here : ctxOf r.q x.pkt = c.val) (idle : pt.exec = none)
    (programmed : s.programmed c.val pt.g = true) : ∃ t n, execPitchCommitComplete c s = .next t ∧ Ends n t x .ok 0 0
      ∧ n = ((s.bindAll c.val pt.g).modCtx c.val (Ctx.committed pt)).modCtx c.val (Ctx.advance 0x12) := by
  have ref : x.ref = r := by simpa using List.find?_some found
  have host' : Memory.wf ((s.bindAll c.val pt.g).modCtx c.val (Ctx.committed pt)).host := by
    rw [State.bindAll_frame]
    exact host
  have ends := Ends.complete_alone host' alone .ok 0 0
  rw [State.heldFor_ok, opcode, ref, here, State.takeHold_commit] at ends
  have ready : (pt.exec.isSome || !s.programmed c.val pt.g) = false := by simp [idle, programmed]
  refine ⟨_, _, ?_, ends, rfl⟩
  simp only [execPitchCommitComplete, pitch, commit, Option.bind_some, found, ready]
  rfl

/-- Settles O18: the checks by their order; an abort changes units, and the completions it brings change none. -/
theorem pitchCommitCommits : Obligations.PitchCommitCommits := by
  refine ⟨fun s q p pt h pitch addrs gen alone check => ?_, fun s q p pt h pitch addrs gen alone st r0 r1 check => ?_,
    fun s pt => ⟨fun i rest h => State.commitCheck_missing h, fun h e he => State.commitCheck_incomplete h he,
      fun h whole => State.commitCheck_key h whole⟩, fun s c pt r x host pitch commit found alone opcode here =>
      ⟨fun idle programmed => ?_, fun busy => ?_⟩⟩
  · obtain ⟨-, -, offers⟩ := h
    refine ⟨_, congrArg Host.Outcome.next ((State.packetRow_offers offers _).trans
      (effPitchCommit_passes (s := s.popFetched q) pitch addrs gen alone check)), ?_, fun k away => ?_, rfl⟩
    · rw [State.ctx_modCtx_same]
      rfl
    · rw [State.ctx_modCtx_other _ _ _ _ away]
      rfl
  · intro c cmd commit exec cmds busy
    obtain ⟨t, ht, ends, quiets⟩ := execPitchCommit_aborts h pitch addrs gen alone check commit exec cmds busy
    obtain ⟨-, -, -, opcode, -⟩ := h
    have pitch' : (((s.popFetched q).enrol cmd).ctx c).pitch = some pt := pitch
    have units : SameUnits s ((s.popFetched q).enrol cmd) := ⟨rfl, rfl, rfl⟩
    have aborted := units.abortPitch c false
    refine ⟨t, _, ht, ends, ?_, fun k away => ?_, ?_, ?_, fun idle shards => ?_⟩
    · exact (quiets.units.ctx c).trans (State.ctx_abortPitch_same false pitch')
    · exact (quiets.units.ctx k).trans (State.ctx_abortPitch_other false pitch' away)
    · exact quiets.units.crews.trans aborted.crews
    · exact quiets.units.arrs.trans aborted.arrs
    · have lone (x : Cmd) (hx : x ∈ ((s.popFetched q).enrol cmd).cmds) :
          x.isShard c = false ∧ (x.inContext c = false ∨ x.pkt.opcode ≠ 0x10) := by
        obtain old | rfl : x ∈ s.cmds ∨ x = cmd := by simpa [State.enrol, State.popFetched] using hx
        · exact ⟨shards x old, (cmds x old).2⟩
        · exact (commitCmd_apart (s := s) (q := q) (pt := pt) opcode c).imp_right .inr
      have only : ((s.popFetched q).enrol (commitCmd s q p pt)).abortWith (ctxOf q p) false .state .shardMissing .state
          = ((s.popFetched q).enrol cmd).abortPitch c false := State.abortWith_idle pitch' idle commit lone _ _ _ _
      rw [only]
      exact State.abortPitch_frame false ((s.popFetched q).enrol cmd) c
  · obtain ⟨t, n, ht, ends, hn⟩ := execPitchCommitComplete_commits host pitch commit found alone opcode here idle programmed
    have frame := State.bindAll_frame s c.val pt.g
    subst hn
    refine ⟨t, _, ht, ends, ?_, fun k away => ?_, rfl, rfl, ?_⟩
    · rw [State.ctx_modCtx_same, State.ctx_modCtx_same, frame]
      rfl
    · rw [State.ctx_modCtx_other _ _ _ _ away, State.ctx_modCtx_other _ _ _ _ away, frame]
      rfl
    · rw [frame]
      rfl
  · show execPitchCommitComplete c s = _
    have waits : (pt.exec.isSome || !s.programmed c.val pt.g) = true := by
      obtain running | blank := busy <;> simp [*]
    simp only [execPitchCommitComplete, pitch, commit, Option.bind_some, found, waits, if_true]

end Sys2Proof.Machine
end


/-! ## PITCH_SHARD: the turn of a shard and its checks (R156) -/
section
namespace Sys2Proof.Machine

theorem State.shardLane_none {s : State} {c : Nat} (h : ∀ x ∈ s.cmds, x.isShard c = false) : s.shardLane c = s := by
  rw [State.shardLane, List.filter_eq_nil_iff.2 fun x hx => by simp [h x hx]]
  rfl

/-- While a shard executes no other one starts. -/
theorem State.shardLane_busy {s : State} {c : Nat} {pt : Pitch} (pitch : (s.ctx c).pitch = some pt) (busy : pt.exec.isSome = true) :
    s.shardLane c = s := by
  unfold State.shardLane
  cases s.cmds.filter (Cmd.isShard c) with
  | nil => rfl
  | cons x xs => simp only [State.nextShards, pitch, busy, if_true]

/-- The turn of the only shard in flight. -/
theorem State.shardLane_single {s : State} {c : Nat} {pt : Pitch} {x : Cmd} (pitch : (s.ctx c).pitch = some pt) (idle : pt.exec = none)
    (only : s.cmds.filter (Cmd.isShard c) = [x]) (found : s.cmd? x.ref = some x) :
    s.shardLane c = if s.shardWaits x then s.hbmWait false else s.startShard x := by
  rw [State.shardLane, only]
  simp only [State.nextShards, pitch, idle, found, Option.isSome_none, Bool.false_eq_true, if_false]

/-- A source that is taken is the one that the packet names. -/
theorem addrOf_of_shardSource {s : State} {c : Nat} {pt : Pitch} {p : Packet} {a : Addr} (h : shardSource s c pt p = some a) :
    addrOf p.dataAddr = some a := by
  unfold shardSource at h
  split at h
  · cases h
  · next b hb =>
    split at h
    · cases h
    · split at h
      · split at h
        · rw [hb, h]
        · cases h
      · rw [hb, h]

/-- The state in which the checks read a shard's source: what is read from HBM has its tokens. -/
def State.shardRead (s : State) (x : Cmd) (a : Addr) : State := if a.isHost then s else s.chargeHbm false x.pkt.length

theorem State.shardRead_frame (s : State) (x : Cmd) (a : Addr) :
    s.shardRead x a = { s with gov := (s.shardRead x a).gov, tel := (s.shardRead x a).tel } := by
  unfold State.shardRead
  split <;> rfl

section
variable {s : State} {x : Cmd} {c : Nat} {pt : Pitch} {a : Addr}
  (here : ctxOf x.ref.q x.pkt = c) (pitch : (s.ctx c).pitch = some pt) (waits : pt.commit = none) (st : (s.ctx c).st ≠ .committed)
  (source : shardSource s c pt x.pkt = some a) (index : x.pkt.param 36 4 < pt.g.man.nshard)
include here pitch waits st source index

theorem State.startShard_again (again : pt.accepted.any (fun e => e.1 == x.pkt.param 36 4) = true) :
    s.startShard x = s.complete x .ok (x.pkt.param 36 4) 0 := by
  simp [State.startShard, here, pitch, waits, st, source, Nat.not_le.2 index, again]

variable (new : pt.accepted.any (fun e => e.1 == x.pkt.param 36 4) = false)
include new

theorem State.startShard_parity {e : ParityErr} (met : s.sourceErr c a x.pkt.length = some e) :
    s.startShard x = ((s.shardRead x a).parityError x.ref e).completeIf x.ref .parity (x.pkt.param 36 4) 0 := by
  have met' : (s.shardRead x a).sourceErr c a x.pkt.length = some e := by
    rw [State.shardRead_frame]
    exact met
  unfold State.shardRead at met' ⊢
  simp only [State.startShard, here, pitch, waits, st, source, Nat.not_le.2 index, new, met']
  simp

variable (clean : s.sourceErr c a x.pkt.length = none)
include clean

theorem State.startShard_wrong (wrong : x.pkt.length ≠ stLen (pt.g.man.shards.getD (x.pkt.param 36 4) [])
      ∨ sha384 (s.readAt c a x.pkt.length) ≠ stDigest (pt.g.man.shards.getD (x.pkt.param 36 4) [])) :
    s.startShard x = (s.shardRead x a).complete x .shardBad (x.pkt.param 36 4) 0 := by
  have clean' : (s.shardRead x a).sourceErr c a x.pkt.length = none := by
    rw [State.shardRead_frame]
    exact clean
  unfold State.shardRead at clean' ⊢
  simp only [State.startShard, here, pitch, waits, st, source, Nat.not_le.2 index, new, clean', wrong]
  simp

variable (right : ¬(x.pkt.length ≠ stLen (pt.g.man.shards.getD (x.pkt.param 36 4) [])
  ∨ sha384 (s.readAt c a x.pkt.length) ≠ stDigest (pt.g.man.shards.getD (x.pkt.param 36 4) [])))
include right

theorem State.startShard_foreign
    (content : (s.shardRead x a).shardContent c pt (x.pkt.param 36 4) (s.readAt c a x.pkt.length) = none) : s.startShard x
    = (((s.shardRead x a).dropCmd x.ref).abortWith c false .badParam .shardMissing .state).complete x .badParam (x.pkt.param 36 4) 0 := by
  have clean' : (s.shardRead x a).sourceErr c a x.pkt.length = none := by
    rw [State.shardRead_frame]
    exact clean
  unfold State.shardRead at clean' content ⊢
  simp only [State.startShard, here, pitch, waits, st, source, Nat.not_le.2 index, new, clean', right, content]
  simp

theorem State.startShard_accepts {sh : List Byte} {r : Option (Nat × Nat)}
    (content : (s.shardRead x a).shardContent c pt (x.pkt.param 36 4) (s.readAt c a x.pkt.length) = some (sh, r)) : ∃ pn,
    s.startShard x = (s.shardRead x a).modCtx c (fun y => { y with pitch := some pn })
    ∧ pn.accepted = pt.accepted ++ [(x.pkt.param 36 4, sh)] ∧ pn.exec = some x.ref ∧ pn.timerOn = false ∧ pn.stage = pt.stage
    ∧ pn.g.assigns = pt.g.assigns := by
  have clean' : (s.shardRead x a).sourceErr c a x.pkt.length = none := by
    rw [State.shardRead_frame]
    exact clean
  unfold State.shardRead at clean' content ⊢
  simp only [State.startShard, here, pitch, waits, st, source, Nat.not_le.2 index, new, clean', right, content]
  simp only [Option.isSome_none, decide_false, Bool.or_self, Bool.false_eq_true, if_false]
  exact ⟨_, rfl, rfl, rfl, rfl, rfl, rfl⟩

end

end Sys2Proof.Machine
end

/-! ## A command that a parity error ends (R223) -/
section
namespace Sys2Proof.Machine

/-- A record that failed early completes as the record would have: its status entry is about the packet. -/
theorem Ends.of_failed {m t : State} {x y : Cmd} {st : Status} {r0 r1 : Nat} (h : Ends m t y st r0 r1)
    (same : y = { x with outcome := y.outcome, ended := y.ended }) : Ends m t x st r0 r1 := by
  rw [same] at h
  exact h

theorem Ends.cmds {m t : State} {x : Cmd} {st : Status} {r0 r1 : Nat} (h : Ends m t x st r0 r1) :
    t.cmds = m.cmds.filter (fun c => c.ref ≠ x.ref) := (congrArg State.cmds h.rest).trans rfl

/-- A parity note reaches counters, and what a signature reaches. -/
theorem State.parityNote_frame (s : State) (ctx tag : Option Nat) (e : ParityErr) : s.parityNote ctx tag e = { s with
    tel := (s.parityNote ctx tag e).tel, ves := (s.parityNote ctx tag e).ves, sig := (s.parityNote ctx tag e).sig
    group := (s.parityNote ctx tag e).group, outs := (s.parityNote ctx tag e).outs, dev := (s.parityNote ctx tag e).dev } := by
  unfold State.parityNote
  dsimp only
  generalize SigInfo.mk _ _ _ _ _ = i
  have counted (u : State) (hu : u = { s with tel := u.tel, ves := u.ves }) : u.emit 0x01 i = { s with
      tel := (u.emit 0x01 i).tel, ves := (u.emit 0x01 i).ves, sig := (u.emit 0x01 i).sig
      group := (u.emit 0x01 i).group, outs := (u.emit 0x01 i).outs, dev := (u.emit 0x01 i).dev } := by
    obtain ⟨x, g, o, d, emitted, -⟩ := u.emit_frame 0x01 i
    rw [emitted, hu]
  refine counted _ ?_
  split <;> rfl

/-- What a parity error found outside the crews does: it ends its command, and makes a signature. -/
structure ParityEnds (s t : State) (r : CmdRef) (e : ParityErr) : Prop where
  signed : Signed s t 0x01 (parityInfo e (qCtx r.q) (some r.tag.toNat))
  host : t.host = s.host
  ctxs : t.ctxs = s.ctxs
  cmds : t.cmds = (s.updCmd r (fun c => { c with outcome := worse c.outcome .parity, ended := true })).cmds

theorem State.parityError_ends (s : State) (r : CmdRef) {e : ParityErr} (apart : crewHop (bitsOf e.hop.toNat 12 4) = false) :
    ParityEnds s (s.parityError r e) r e := by
  have note := s.parityNote_frame (qCtx r.q) (some r.tag.toNat) e
  have signed := s.signed_parityNote (qCtx r.q) (some r.tag.toNat) e
  have eq : s.parityError r e = (s.parityNote (qCtx r.q) (some r.tag.toNat) e).failCmd r .parity := by
    rw [State.parityError, State.parityCrew, apart, if_neg Bool.false_ne_true]
  rw [eq]
  generalize s.parityNote (qCtx r.q) (some r.tag.toNat) e = u at note signed ⊢
  have failed := (u.failCmd_purged r .parity).rest
  refine ⟨?_, ?_, ?_, ?_⟩
  · exact (congrArg State.sig failed :).trans signed
  · exact (congrArg State.host failed :).trans (congrArg State.host note :)
  · exact (congrArg State.ctxs failed :).trans (congrArg State.ctxs note :)
  · refine (congrArg State.cmds failed :).trans ?_
    rw [note]
    rfl

/-- The command of the error is still in flight, ended. -/
theorem ParityEnds.found {s t : State} {r : CmdRef} {e : ParityErr} (h : ParityEnds s t r e) {x : Cmd} (found : s.cmd? r = some x) :
    t.cmd? r = some { x with outcome := worse x.outcome .parity, ended := true } := by
  have upd := State.cmd?_updCmd found (f := fun c => { c with outcome := worse c.outcome .parity, ended := true }) fun z => rfl
  rwa [State.cmd?, ← h.cmds] at upd

/-- The end of a command in flight that waits for no member and may have failed early. -/
theorem Ends.completeIf {m : State} (host : Memory.wf m.host) {x y : Cmd} (lone : x.lone) (found : m.cmd? x.ref = some y)
    (same : y = { x with outcome := y.outcome, ended := y.ended }) (st : Status) (r0 r1 : Nat) :
    Ends m (m.completeIf x.ref st r0 r1) x st r0 r1 := by
  have lone' : y.lone := by
    rw [same]
    exact lone
  simp only [State.completeIf, found]
  exact (Ends.complete host lone' st r0 r1).of_failed same

end Sys2Proof.Machine
end


/-! ## PITCH_SHARD and PITCH_SHARD_COMPLETE (R156, R160, R223) -/
section
namespace Sys2Proof.Machine

/-- The record of a PITCH_SHARD. -/
def shardCmd (s : State) (q : QueueId) (p : Packet) : Cmd := mkCmd s q p false (.shard (p.param 36 4))

section
variable {s : State} {q : QueueId} {p : Packet} {pt : Pitch} {a : Addr} (pitch : (s.ctx (ctxOf q p)).pitch = some pt)
  (source : shardSource s (ctxOf q p) pt p = some a)
include pitch source

/-- A PITCH_SHARD that is admitted joins the lane of its context. -/
theorem execPitchShard_admits (offers : Offers s q .pitchShard p) (gen : p.param 32 2 = pt.g.gen)
    (index : p.param 36 4 < pt.g.man.nshard) (result : p.resultAddr = 0) :
    execPitchShard q s = .next (((s.popFetched q).enrol (shardCmd s q p)).shardLane (ctxOf q p)) := by
  have pitch' : ((s.popFetched q).ctx (ctxOf q p)).pitch = some pt := pitch
  have source' : shardSource (s.popFetched q) (ctxOf q p) pt p = some a := source
  have legal : ¬(p.param 32 2 ≠ pt.g.gen ∨ pt.g.man.nshard ≤ p.param 36 4 ∨ p.resultAddr ≠ 0
      ∨ (shardSource (s.popFetched q) (ctxOf q p) pt p).isNone = true) := by
    simp [gen, Nat.not_le.2 index, result, source']
  rw [execPitchShard, State.packetRow_offers offers]
  simp only [effPitchShard, pitch', if_neg legal]
  rfl

variable (idle : pt.exec = none) (lane : ∀ x ∈ s.cmds, x.isShard (ctxOf q p) = false ∧ x.ref ≠ ⟨q, p.tag⟩)
  (queue : qCtx q = some (ctxOf q p))
include idle lane queue

/-- With no other shard in flight a PITCH_SHARD has its turn at once. -/
theorem shardLane_newcomer : ((s.popFetched q).enrol (shardCmd s q p)).shardLane (ctxOf q p)
    = if !a.isHost && !s.hbmOpen false then ((s.popFetched q).enrol (shardCmd s q p)).hbmWait false
      else ((s.popFetched q).enrol (shardCmd s q p)).startShard (shardCmd s q p) := by
  have found := State.cmd?_enrol (s := s.popFetched q) (c := shardCmd s q p) fun x hx => (lane x hx).2
  have own : (shardCmd s q p).isShard (ctxOf q p) = true := by
    show (decide (qCtx q = some (ctxOf q p)) && true) = true
    simp [queue]
  have only : ((s.popFetched q).enrol (shardCmd s q p)).cmds.filter (Cmd.isShard (ctxOf q p)) = [shardCmd s q p] := by
    have others : s.cmds.filter (Cmd.isShard (ctxOf q p)) = [] :=
      List.filter_eq_nil_iff.2 fun x hx => by simp [(lane x hx).1]
    show (s.cmds ++ [shardCmd s q p]).filter _ = _
    rw [List.filter_append, others, List.filter_cons_of_pos own]
    rfl
  have pitch' : (((s.popFetched q).enrol (shardCmd s q p)).ctx (ctxOf q p)).pitch = some pt := pitch
  have waits : ((s.popFetched q).enrol (shardCmd s q p)).shardWaits (shardCmd s q p) = (!a.isHost && !s.hbmOpen false) := by
    show ((addrOf p.dataAddr).any (fun a => !a.isHost) && !s.hbmOpen false) = _
    rw [addrOf_of_shardSource source]
    rfl
  rw [State.shardLane_single pitch' idle only found, waits]

end

/-! What its turn brings -/

section
variable {s : State} {q : QueueId} {p : Packet} {pt : Pitch} {a : Addr} (h : Presents s q .pitchShard p)
  (pitch : (s.ctx (ctxOf q p)).pitch = some pt) (gen : p.param 32 2 = pt.g.gen) (index : p.param 36 4 < pt.g.man.nshard)
  (result : p.resultAddr = 0) (source : shardSource s (ctxOf q p) pt p = some a) (idle : pt.exec = none) (waits : pt.commit = none)
  (st : (s.ctx (ctxOf q p)).st ≠ .committed) (lane : ∀ x ∈ s.cmds, x.isShard (ctxOf q p) = false ∧ x.ref ≠ ⟨q, p.tag⟩)
  (queue : qCtx q = some (ctxOf q p)) (ready : a.isHost = true ∨ s.hbmOpen false = true)

include h in
/-- A PITCH_SHARD waits for no member, and nothing takes hold when it completes. -/
theorem shardCmd_lone : (shardCmd s q p).lone := by
  obtain ⟨-, ring, offers⟩ := h
  have opcode : p.opcode = 0x11 := offers.2.1
  refine ⟨⟨ring, rfl, rfl⟩, ?_⟩
  show p.opcode ∉ _
  rw [opcode]
  decide

include h in
theorem host_shardRead : Memory.wf (((s.popFetched q).enrol (shardCmd s q p)).shardRead (shardCmd s q p) a).host := by
  rw [State.shardRead_frame]
  exact h.1

include h pitch gen index result source idle lane queue ready in
theorem execPitchShard_turn :
    execPitchShard q s = .next (((s.popFetched q).enrol (shardCmd s q p)).startShard (shardCmd s q p)) := by
  have now : (!a.isHost && !s.hbmOpen false) = false := by
    obtain host | opened := ready <;> simp [*]
  rw [execPitchShard_admits pitch source h.2.2 gen index result, shardLane_newcomer pitch source idle lane queue, now]
  rfl

include h pitch gen index result source idle waits st lane queue ready

theorem execPitchShard_again (again : pt.accepted.any (fun e => e.1 == p.param 36 4) = true) : ∃ t, execPitchShard q s = .next t
    ∧ Ends ((s.popFetched q).enrol (shardCmd s q p)) t (shardCmd s q p) .ok (p.param 36 4) 0 := by
  have start := State.startShard_again (s := (s.popFetched q).enrol (shardCmd s q p)) (x := shardCmd s q p) rfl pitch waits st source
    index again
  rw [execPitchShard_turn h pitch gen index result source idle lane queue ready, start]
  exact ⟨_, rfl, Ends.complete (m := (s.popFetched q).enrol (shardCmd s q p)) h.1 (shardCmd_lone h) _ _ _⟩

variable (new : pt.accepted.any (fun e => e.1 == p.param 36 4) = false)
include new

theorem execPitchShard_parity {e : ParityErr} (met : s.sourceErr (ctxOf q p) a p.length = some e)
    (apart : crewHop (bitsOf e.hop.toNat 12 4) = false) : ∃ t m, execPitchShard q s = .next t
      ∧ Ends m t (shardCmd s q p) .parity (p.param 36 4) 0
      ∧ Signed s m 0x01 (parityInfo e (qCtx q) (some p.tag.toNat)) ∧ m.host = s.host ∧ m.ctxs = s.ctxs := by
  have start := State.startShard_parity (s := (s.popFetched q).enrol (shardCmd s q p)) (x := shardCmd s q p) rfl pitch waits st source
    index new met
  have frame := State.shardRead_frame ((s.popFetched q).enrol (shardCmd s q p)) (shardCmd s q p) a
  have ends := (((s.popFetched q).enrol (shardCmd s q p)).shardRead (shardCmd s q p) a).parityError_ends ⟨q, p.tag⟩ apart
  have found : (((s.popFetched q).enrol (shardCmd s q p)).shardRead (shardCmd s q p) a).cmd? ⟨q, p.tag⟩ = some (shardCmd s q p) := by
    rw [frame]
    exact State.cmd?_enrol (s := s.popFetched q) (c := shardCmd s q p) fun x hx => (lane x hx).2
  rw [execPitchShard_turn h pitch gen index result source idle lane queue ready, start]
  refine ⟨_, _, rfl, Ends.completeIf ?_ (shardCmd_lone h) (ends.found found) rfl _ _ _, ends.signed.congr ?_ ?_ ?_, ?_, ?_⟩
  · exact ends.host ▸ host_shardRead h
  · rw [frame]; rfl
  · rw [frame]; rfl
  · rw [frame]; rfl
  · exact ends.host.trans (by rw [frame]; rfl)
  · exact ends.ctxs.trans (by rw [frame]; rfl)

variable (clean : s.sourceErr (ctxOf q p) a p.length = none)
include clean

theorem execPitchShard_wrong (wrong : p.length ≠ stLen (pt.g.man.shards.getD (p.param 36 4) [])
      ∨ sha384 (s.readAt (ctxOf q p) a p.length) ≠ stDigest (pt.g.man.shards.getD (p.param 36 4) [])) :
    ∃ t, execPitchShard q s = .next t ∧ Ends (((s.popFetched q).enrol (shardCmd s q p)).shardRead (shardCmd s q p) a) t
      (shardCmd s q p) .shardBad (p.param 36 4) 0 := by
  have start := State.startShard_wrong (s := (s.popFetched q).enrol (shardCmd s q p)) (x := shardCmd s q p) rfl pitch waits st source
    index new clean wrong
  rw [execPitchShard_turn h pitch gen index result source idle lane queue ready, start]
  exact ⟨_, rfl, Ends.complete (host_shardRead h) (shardCmd_lone h) _ _ _⟩

variable (right : ¬(p.length ≠ stLen (pt.g.man.shards.getD (p.param 36 4) [])
  ∨ sha384 (s.readAt (ctxOf q p) a p.length) ≠ stDigest (pt.g.man.shards.getD (p.param 36 4) [])))
include right

/-- Contents of another index abort the pitch; no command of it is in flight besides. -/
theorem execPitchShard_foreign (content : (((s.popFetched q).enrol (shardCmd s q p)).shardRead (shardCmd s q p) a).shardContent
      (ctxOf q p) pt (p.param 36 4) (s.readAt (ctxOf q p) a p.length) = none)
    (begins : ∀ x ∈ s.cmds, x.inContext (ctxOf q p) = false ∨ x.pkt.opcode ≠ 0x10) :
    ∃ t m, execPitchShard q s = .next t ∧ Ends m t (shardCmd s q p) .badParam (p.param 36 4) 0
      ∧ m.ctx (ctxOf q p) = (s.ctx (ctxOf q p)).abort pt false ∧ (∀ k, k ≠ ctxOf q p → m.ctx k = s.ctx k)
      ∧ m.crews = (s.abortPitch (ctxOf q p) false).crews ∧ m.arrs = (s.abortPitch (ctxOf q p) false).arrs
      ∧ m = { ((s.popFetched q).enrol (shardCmd s q p)).shardRead (shardCmd s q p) a with
          cmds := s.cmds, ctxs := m.ctxs, crews := m.crews, arrs := m.arrs } := by
  have start := State.startShard_foreign (s := (s.popFetched q).enrol (shardCmd s q p)) (x := shardCmd s q p) rfl pitch waits st source
    index new clean right content
  have read := State.shardRead_frame ((s.popFetched q).enrol (shardCmd s q p)) (shardCmd s q p) a
  have host := host_shardRead (a := a) h
  rw [execPitchShard_turn h pitch gen index result source idle lane queue ready, start]
  generalize ((s.popFetched q).enrol (shardCmd s q p)).shardRead (shardCmd s q p) a = v at read host ⊢
  have cmds : (v.dropCmd ⟨q, p.tag⟩).cmds = s.cmds := by
    rw [read]
    show (s.cmds ++ [shardCmd s q p]).filter (fun x => decide (x.ref ≠ ⟨q, p.tag⟩)) = s.cmds
    rw [List.filter_append, List.filter_eq_self.2 fun x hx => decide_eq_true (lane x hx).2, List.filter_cons_of_neg (by simp [shardCmd, mkCmd])]
    exact List.append_nil _
  have units : SameUnits s (v.dropCmd ⟨q, p.tag⟩) := by
    rw [read]
    exact ⟨rfl, rfl, rfl⟩
  have pitch' : ((v.dropCmd ⟨q, p.tag⟩).ctx (ctxOf q p)).pitch = some pt := units.ctx (ctxOf q p) ▸ pitch
  have idle' := State.abortWith_idle pitch' idle waits (fun x hx => ⟨(lane x (cmds ▸ hx)).1, begins x (cmds ▸ hx)⟩) false .badParam
    .shardMissing .state
  have frame := State.abortPitch_frame false (v.dropCmd ⟨q, p.tag⟩) (ctxOf q p)
  have aborted := units.abortPitch (ctxOf q p) false
  refine ⟨_, (v.dropCmd ⟨q, p.tag⟩).abortPitch (ctxOf q p) false, congrArg Host.Outcome.next (congrArg (fun u => State.complete u
    (shardCmd s q p) .badParam (p.param 36 4) 0) idle'), Ends.complete ?_ (shardCmd_lone h) _ _ _,
    ?_, fun k away => ?_, aborted.crews, aborted.arrs, ?_⟩
  · rw [frame]
    exact host
  · rw [State.ctx_abortPitch_same false pitch', units.ctx]
  · rw [State.ctx_abortPitch_other false pitch' away, units.ctx]
  · refine frame.trans ?_
    rw [← cmds]
    rfl

/-- A shard that passes is accepted; the timer of the pitch stops. -/
theorem execPitchShard_accepts {sh : List Byte} {r : Option (Nat × Nat)}
    (content : (((s.popFetched q).enrol (shardCmd s q p)).shardRead (shardCmd s q p) a).shardContent
      (ctxOf q p) pt (p.param 36 4) (s.readAt (ctxOf q p) a p.length) = some (sh, r)) : ∃ t, execPitchShard q s = .next t
      ∧ t = { (s.popFetched q).enrol (shardCmd s q p) with ctxs := t.ctxs, gov := t.gov, tel := t.tel }
      ∧ (∀ k, k ≠ ctxOf q p → t.ctx k = s.ctx k)
      ∧ ∃ pn, t.ctx (ctxOf q p) = { s.ctx (ctxOf q p) with pitch := some pn } ∧ pn.accepted = pt.accepted ++ [(p.param 36 4, sh)]
        ∧ pn.exec = some ⟨q, p.tag⟩ ∧ pn.timerOn = false ∧ pn.stage = pt.stage ∧ pn.g.assigns = pt.g.assigns := by
  obtain ⟨pn, start, spec⟩ := State.startShard_accepts (s := (s.popFetched q).enrol (shardCmd s q p)) (x := shardCmd s q p)
    (c := ctxOf q p) rfl pitch waits st source index new clean right content
  have read := State.shardRead_frame ((s.popFetched q).enrol (shardCmd s q p)) (shardCmd s q p) a
  rw [execPitchShard_turn h pitch gen index result source idle lane queue ready, start]
  have same (k : Nat) : (((s.popFetched q).enrol (shardCmd s q p)).shardRead (shardCmd s q p) a).ctx k = s.ctx k := by
    rw [read]
    rfl
  refine ⟨_, rfl, ?_, fun k away => ?_, pn, ?_, spec⟩
  · rw [read]
    rfl
  · rw [State.ctx_modCtx_other _ _ _ _ away, same]
  · rw [State.ctx_modCtx_same, same]

end

/-- Delivery reaches contexts, crews, arrays and the counts of a transfer to HBM. -/
theorem State.deliver_frame (s : State) (c : Nat) (g : Generation) (sh : List Byte) : s.deliver c g sh = { s with
    ctxs := (s.deliver c g sh).ctxs, crews := (s.deliver c g sh).crews, arrs := (s.deliver c g sh).arrs
    gov := (s.deliver c g sh).gov, tel := (s.deliver c g sh).tel } := by
  have pages (ys : List Assign) (page : Assign → Nat) (bs : List Byte) := s.each_modCrew_frame ys Assign.crew
    (fun y x => { x with sram := Memory.writeBytes x.sram (0x400 * page y) bs })
  have codes (entry row0 : Nat) (vs : List Nat) : s.deliverCodes c g entry row0 vs
      = { s with arrs := (s.deliverCodes c g entry row0 vs).arrs } :=
    State.each_keeps (P := fun t => t = { s with arrs := t.arrs }) _ rfl fun t y h => by
      rw [h]
      rfl
  unfold State.deliver
  dsimp only
  split
  · rw [codes]
  · rw [State.deliverPages, pages]
  · rw [State.deliverPages, pages]
  · rfl
  · rfl
  · rfl

/-! The end of a transfer -/

/-- The pitch of a context changed. -/
def Ctx.onPitch (f : Pitch → Pitch) (x : Ctx) : Ctx := { x with pitch := x.pitch.map f }

/-- The lasting error that a stack notes with a failed source reaches the context alone, and not its pitch. -/
theorem State.noteSource_spec (s : State) (c : Nat) (p : Packet) (e : ParityErr) :
    s.noteSource c p e = { s with ctxs := (s.noteSource c p e).ctxs } ∧ ((s.noteSource c p e).ctx c).pitch = (s.ctx c).pitch := by
  unfold State.noteSource
  split
  · unfold State.noteWork
    split
    · exact ⟨rfl, rfl⟩
    · exact ⟨rfl, by rw [State.ctx_modCtx_same]⟩
  · exact ⟨rfl, rfl⟩

section
variable {s : State} {c : Fin 16} {pt : Pitch} {r : CmdRef} {x : Cmd} (host : Memory.wf s.host)
  (pitch : (s.ctx c.val).pitch = some pt) (exec : pt.exec = some r) (found : s.cmd? r = some x) (lone : x.lone)
  (lane : ∀ y ∈ s.cmds, y.isShard c.val = true → y.ref = r)

include lane in
/-- Once the shard in execution has ended no other one is in flight. -/
theorem shardLane_ended {m t : State} {st : Status} {r0 r1 : Nat} (ref : x.ref = r) (h : Ends m t x st r0 r1)
    (cmds : ∀ y ∈ m.cmds, ∃ z ∈ s.cmds, y.ref = z.ref ∧ y.isShard c.val = z.isShard c.val) : t.shardLane c.val = t := by
  refine State.shardLane_none fun y hy => ?_
  rw [h.cmds] at hy
  obtain ⟨hy, other⟩ := List.mem_filter.1 hy
  obtain ⟨z, hz, same, shard⟩ := cmds y hy
  rw [shard, Bool.eq_false_iff]
  exact fun is => of_decide_eq_true other (same.trans ((lane z hz is).trans ref.symm))

include pitch exec found

theorem execPitchShardComplete_waits {sh : List Byte}
    (hsh : sh = ((pt.accepted.find? (fun e => e.1 == x.pkt.param 36 4)).map (·.2)).getD []) (toHbm : shardToHbm sh = true)
    (closed : s.hbmOpen false = false) : execPitchShardComplete ⟨c, none⟩ s = .next (s.hbmWait false) := by
  subst hsh
  simp [execPitchShardComplete, pitch, exec, found, toHbm, closed]

include host lone lane

theorem execPitchShardComplete_delivers {sh : List Byte}
    (hsh : sh = ((pt.accepted.find? (fun e => e.1 == x.pkt.param 36 4)).map (·.2)).getD [])
    (ready : shardToHbm sh = false ∨ s.hbmOpen false = true) : ∃ t, execPitchShardComplete ⟨c, none⟩ s = .next t
      ∧ Ends ((s.deliver c.val pt.g sh).modCtx c.val (Ctx.onPitch Pitch.shardDone)) t x .ok (x.pkt.param 36 4) 0 := by
  have ref : x.ref = r := by simpa using List.find?_some found
  have frame := s.deliver_frame c.val pt.g sh
  have host' : Memory.wf ((s.deliver c.val pt.g sh).modCtx c.val (Ctx.onPitch Pitch.shardDone)).host := by
    rw [frame]
    exact host
  have ends := Ends.complete host' lone .ok (x.pkt.param 36 4) 0
  have now : (shardToHbm sh && !s.hbmOpen false) = false := by
    obtain stays | opened := ready
    · rw [stays, Bool.false_and]
    · rw [opened, Bool.not_true, Bool.and_false]
  have last := shardLane_ended lane ref ends fun y hy => ⟨y, by rw [frame] at hy; exact hy, rfl, rfl⟩
  refine ⟨_, ?_, ends⟩
  rw [← last]
  subst hsh
  simp only [execPitchShardComplete, pitch, exec, Option.bind_some, found, now]
  rfl

theorem execPitchShardComplete_fails {e : ParityErr} (apart : crewHop (bitsOf e.hop.toNat 12 4) = false) :
    ∃ t m, execPitchShardComplete ⟨c, some e⟩ s = .next t ∧ Ends m t x .parity (x.pkt.param 36 4) 0
      ∧ Signed s m 0x01 (parityInfo e (qCtx r.q) (some r.tag.toNat)) ∧ m.host = s.host
      ∧ (m.ctx c.val).pitch = some (Pitch.shardDone (Pitch.unaccept (x.pkt.param 36 4) pt)) := by
  have ref : x.ref = r := by simpa using List.find?_some found
  obtain ⟨noted, kept⟩ := s.noteSource_spec c.val x.pkt e
  have unaccepted : (((s.noteSource c.val x.pkt e).modCtx c.val (Ctx.onPitch (Pitch.unaccept (x.pkt.param 36 4)))).ctx c.val).pitch
      = some (Pitch.unaccept (x.pkt.param 36 4) pt) := by
    rw [State.ctx_modCtx_same, Ctx.onPitch, kept, pitch]
    rfl
  have frame : (s.noteSource c.val x.pkt e).modCtx c.val (Ctx.onPitch (Pitch.unaccept (x.pkt.param 36 4))) = { s with
      ctxs := ((s.noteSource c.val x.pkt e).modCtx c.val (Ctx.onPitch (Pitch.unaccept (x.pkt.param 36 4)))).ctxs } := by
    rw [noted]
    rfl
  have row : execPitchShardComplete ⟨c, some e⟩ s = .next (((((((s.noteSource c.val x.pkt e).modCtx c.val
      (Ctx.onPitch (Pitch.unaccept (x.pkt.param 36 4)))).parityError x.ref e).modCtx c.val (Ctx.onPitch Pitch.shardDone)).completeIf
      x.ref .parity (x.pkt.param 36 4) 0)).shardLane c.val) := by
    simp only [execPitchShardComplete, pitch, exec, Option.bind_some, found]
    rfl
  generalize (s.noteSource c.val x.pkt e).modCtx c.val (Ctx.onPitch (Pitch.unaccept (x.pkt.param 36 4))) = n at unaccepted frame row
  have parity := n.parityError_ends x.ref apart
  have failed := parity.found (x := x) (by rw [frame, ref]; exact found)
  have hosts : (n.parityError x.ref e).host = s.host := parity.host.trans (by rw [frame])
  have host' : Memory.wf ((n.parityError x.ref e).modCtx c.val (Ctx.onPitch Pitch.shardDone)).host :=
    (hosts ▸ host : Memory.wf (n.parityError x.ref e).host)
  have ends := Ends.completeIf host' lone failed rfl .parity (x.pkt.param 36 4) 0
  have last := shardLane_ended lane ref ends fun y hy => by
    have listed : y ∈ (n.parityError x.ref e).cmds := hy
    rw [parity.cmds, frame] at listed
    obtain ⟨z, hz, rfl⟩ := List.mem_map.1 listed
    exact ⟨z, hz, by split <;> exact ⟨rfl, rfl⟩⟩
  rw [last] at row
  refine ⟨_, _, row, ends, ?_, hosts, ?_⟩
  · rw [← ref]
    exact parity.signed.congr (by rw [frame]) (by rw [frame]) (by rw [frame])
  · rw [State.ctx_modCtx_same, Ctx.onPitch, State.ctx_of_ctxs parity.ctxs, unaccepted]
    rfl

end

end Sys2Proof.Machine
end

/-! ## The pack converter (R145, R146, R223) -/
section
namespace Sys2Proof.Machine

section
variable {s : State} {c : Fin 16} {entry j : Nat} {pt : Pitch} (pitch : (s.ctx c.val).pitch = some pt)
include pitch

theorem execPackConversion_foreign (foreign : pt.g.man.entries.find? (fun e => e.1 == entry) = none) (err : Option ParityErr) :
    execPackConversion ⟨c, err⟩ entry s = .next s := by
  simp only [execPackConversion, pitch, foreign]

variable (listed : pt.g.man.entries.find? (fun e => e.1 == entry) = some (entry, j))
include listed

theorem execPackConversion_idle
    (idle : pt.g.man.portable = false ∨ pt.packed.contains entry = true ∨ portableReady pt j entry = false) (err : Option ParityErr) :
    execPackConversion ⟨c, err⟩ entry s = .next s := by
  have stays : (!pt.g.man.portable || pt.packed.contains entry || !portableReady pt j entry) = true := by
    obtain native | packed | early := idle
    · rw [native]
      rfl
    · rw [packed, Bool.or_true, Bool.true_or]
    · rw [early, Bool.not_false, Bool.or_true]
  simp only [execPackConversion, pitch, listed, stays, if_true]

variable (portable : pt.g.man.portable = true) (open' : pt.packed.contains entry = false) (ready : portableReady pt j entry = true)
include portable open' ready

theorem execPackConversion_due (err : Option ParityErr) : execPackConversion ⟨c, err⟩ entry s = match err with
    | some e => .next (s.packError c.val pt entry e)
    | none => .next ((s.packEntry c.val pt entry j ((scaleBias pt j (plSlice (pt.g.man.place entry))).getD [])).modCtx c.val
        (fun y => { y with pitch := y.pitch.map (fun p => { p with packed := entry :: p.packed }) })) := by
  have due : (!pt.g.man.portable || pt.packed.contains entry || !portableReady pt j entry) = false := by
    rw [portable, open', ready]
    rfl
  cases err <;> simp only [execPackConversion, pitch, listed, due, Bool.false_eq_true, if_false]

end

/-- The pitch without the accepted shards whose words an entry is packed from. -/
def Pitch.unpack (entry : Nat) (p : Pitch) : Pitch :=
  { p with accepted := p.accepted.filter (fun a => !(shType a.2 == 6 && shPlace a.2 == entry)) }

/-- Before a PITCH_COMMIT an error of the converter is noted, and its entry is to be sent again. -/
theorem State.packError_early {s : State} {c : Nat} {pt : Pitch} (waits : pt.commit = none) (entry : Nat) {e : ParityErr}
    (apart : crewHop (bitsOf e.hop.toNat 12 4) = false) :
    s.packError c pt entry e = (s.parityNote (some c) none e).modCtx c (Ctx.onPitch (Pitch.unpack entry)) := by
  simp only [State.packError, State.parityCrew, apart, waits, Option.isSome_none, Bool.false_eq_true, if_false]
  rfl

/-- Settles O17: a shard by the checks of its turn, the end of its transfer by what its data met. -/
theorem pitchShardsAreAcceptedInOrder : Obligations.PitchShardsAreAcceptedInOrder := by
  refine ⟨⟨fun s q p pt h pitch gen index result => ?_, fun s c pt r x canonical pitch exec found lone lane => ?_,
    fun s c pitch err => ?_⟩, fun s c entry j pt pitch listed => ⟨fun portable open' ready => ?_,
      fun portable open' ready waits e apart => ?_, fun idle err => execPackConversion_idle pitch listed idle err⟩,
    fun s c entry pitch err => ?_, fun s c pt entry pitch foreign err => execPackConversion_foreign pitch foreign err⟩
  · intro c cmd u a source v bs
    refine ⟨fun busy => ?_, fun idle waits st lane queue => ⟨fun hbm closed => ?_, fun ready => ⟨fun again => ?_, fun new =>
      ⟨fun e met apart => ?_, fun clean => ⟨fun wrong => ?_, fun length digest content begins => ?_,
        fun length digest sh r content => ?_⟩⟩⟩⟩⟩
    · refine (execPitchShard_admits pitch source h.2.2 gen index result).trans ?_
      rw [State.shardLane_busy (s := (s.popFetched q).enrol (shardCmd s q p)) pitch busy]
      rfl
    · refine (execPitchShard_admits pitch source h.2.2 gen index result).trans ?_
      rw [shardLane_newcomer pitch source idle lane queue, hbm, closed]
      rfl
    · exact execPitchShard_again h pitch gen index result source idle waits st lane queue ready again
    · exact execPitchShard_parity h pitch gen index result source idle waits st lane queue ready new met apart
    · exact execPitchShard_wrong h pitch gen index result source idle waits st lane queue ready new clean wrong
    · exact execPitchShard_foreign h pitch gen index result source idle waits st lane queue ready new clean
        (fun wrong => wrong.elim (fun h => h length) (fun h => h digest)) content begins
    · exact execPitchShard_accepts h pitch gen index result source idle waits st lane queue ready new clean
        (fun wrong => wrong.elim (fun h => h length) (fun h => h digest)) content
  · intro sh
    refine ⟨fun toHbm closed => execPitchShardComplete_waits pitch exec found rfl toHbm closed, fun ready => ?_, fun e apart => ?_⟩
    · obtain ⟨t, ht, ends⟩ := execPitchShardComplete_delivers canonical.host pitch exec found lone lane rfl ready
      exact ⟨t, _, ht, ends, rfl⟩
    · obtain ⟨t, m, ht, ends, signed, hosts, left⟩ := execPitchShardComplete_fails canonical.host pitch exec found lone lane apart
      exact ⟨t, m, ht, ends, signed, hosts, _, left, rfl, rfl, rfl⟩
  · show execPitchShardComplete ⟨c, err⟩ s = _
    simp only [execPitchShardComplete, pitch]
  · exact execPackConversion_due pitch listed portable open' ready none
  · have note := s.parityNote_frame (some c.val) none e
    have ctxs : (s.parityNote (some c.val) none e).ctxs = s.ctxs := (congrArg State.ctxs note :)
    have row := execPackConversion_due pitch listed portable open' ready (some e)
    dsimp only at row
    rw [State.packError_early waits entry apart] at row
    refine ⟨_, row, s.signed_parityNote (some c.val) none e, ?_, ?_, ?_, ?_, fun k away => ?_, ?_⟩
    · exact (congrArg State.host note :)
    · exact (congrArg State.cmds note :)
    · exact (congrArg State.crews note :)
    · exact (congrArg State.arrs note :)
    · rw [State.ctx_modCtx_other _ _ _ _ away, State.ctx_of_ctxs ctxs]
    · rw [State.ctx_modCtx_same, State.ctx_of_ctxs ctxs, Ctx.onPitch, pitch]
      rfl
  · show execPackConversion ⟨c, err⟩ entry s = _
    simp only [execPackConversion, pitch]

end Sys2Proof.Machine
end


/-! ## SWING and ARRAY_SWING (R35, R39, R162 to R164, R211) -/
section
namespace Sys2Proof.Machine

/-- The record of a SWING. -/
def swingCmdOf (s : State) (q : QueueId) (p : Packet) (pt : Pitch) : Cmd := { mkCmd s q p false .swing with gen := pt.g.gen }

/-- A context that a SWING of the generation in pitch has set draining. -/
def Ctx.drainTo (pt : Pitch) (r : CmdRef) (x : Ctx) : Ctx :=
  { x with st := .draining, adm := pt.g.gen, gens := x.gens ++ [pt.g], pitch := none, swingCmd := some r }

/-- From `s` to `m` a SWING has been accepted, and its context drains. -/
structure Drains (s m : State) (q : QueueId) (p : Packet) (pt : Pitch) : Prop where
  frame : m = { s with ctxs := m.ctxs, cmds := s.cmds ++ [swingCmdOf s q p pt], seq := s.seq + 1, bowW := m.bowW }
  own : m.ctx (ctxOf q p) = (s.ctx (ctxOf q p)).drainTo pt ⟨q, p.tag⟩
  others : ∀ k, k ≠ ctxOf q p → m.ctx k = s.ctx k

theorem Rewindowed.ctxs {s t : State} (h : Rewindowed s t) : t.ctxs = s.ctxs := (congrArg State.ctxs h :)

theorem Drains.of_rewindowed {s m : State} {q : QueueId} {p : Packet} {pt : Pitch}
    (h : Rewindowed ((s.enrol (swingCmdOf s q p pt)).modCtx (ctxOf q p) (Ctx.drainTo pt ⟨q, p.tag⟩)) m) : Drains s m q p pt := by
  refine ⟨?_, ?_, fun k away => ?_⟩
  · refine h.trans ?_
    rw [h.ctxs]
    rfl
  · rw [State.ctx_of_ctxs h.ctxs, State.ctx_modCtx_same]
    rfl
  · rw [State.ctx_of_ctxs h.ctxs, State.ctx_modCtx_other _ _ _ _ away]
    rfl

theorem effSwing_accepts {s : State} {q : QueueId} {p : Packet} {pt : Pitch} (pitch : (s.ctx (ctxOf q p)).pitch = some pt)
    (addrs : p.noAddrs = true) (gen : p.param 32 2 = pt.g.gen) (alone : s.parties q .swing = []) :
    ∃ m, effSwing q p s = State.swingCheck m (ctxOf q p) ∧ Drains s m q p pt := by
  have launched : s.launch .swing (swingCmdOf s q p pt) noExtra = s.enrol (swingCmdOf s q p pt) := State.launch_alone alone rfl _
  have legal : (!p.noAddrs || decide (p.param 32 2 ≠ pt.g.gen)) = false := by simp [addrs, gen]
  unfold swingCmdOf at launched
  refine ⟨_, ?_, Drains.of_rewindowed (State.bowUpdate_frame _ (fun a => pt.g.assigns.any (fun y => s.physArr y.crew y.l == a)))⟩
  simp only [effSwing, pitch, legal, launched, Bool.false_eq_true, if_false]
  rfl

/-- What a swing in progress answers when it is checked: its command is found, and its generation is the admission generation. -/
theorem State.swingCheck_of {s : State} {c : Nat} {r : CmdRef} {g : Generation} {x : Cmd} (command : (s.ctx c).swingCmd = some r)
    (generation : (s.ctx c).generation (s.ctx c).adm = some g) (found : s.cmd? r = some x) :
    s.swingCheck c = if g.assigns.all s.swung && s.bivouacReady c
      then (s.modCtx c (fun x => { x with live := x.adm, swingCmd := none })).complete x .ok 0 0 else s := by
  have found' : (s.modCtx c (fun x => { x with live := x.adm, swingCmd := none })).cmd? r = some x := found
  simp only [State.swingCheck, command, generation, found']

/-- A generation that is new to the context is found once it has joined. -/
theorem Ctx.generation_drainTo {x : Ctx} {pt : Pitch} (new : x.generation pt.g.gen = none) (r : CmdRef) :
    (x.drainTo pt r).generation pt.g.gen = some pt.g := by
  unfold Ctx.generation at new ⊢
  rw [Ctx.drainTo, List.find?_append, new]
  simp

namespace Drains
variable {s m : State} {q : QueueId} {p : Packet} {pt : Pitch} (h : Drains s m q p pt)
include h

theorem check (new : (s.ctx (ctxOf q p)).generation pt.g.gen = none) (refs : ∀ x ∈ s.cmds, x.ref ≠ ⟨q, p.tag⟩) :
    m.swingCheck (ctxOf q p) = if pt.g.assigns.all s.swung && m.bivouacReady (ctxOf q p)
      then (m.modCtx (ctxOf q p) (fun x => { x with live := x.adm, swingCmd := none })).complete (swingCmdOf s q p pt) .ok 0 0
      else m := by
  have cmds : m.cmds = (s.enrol (swingCmdOf s q p pt)).cmds := (congrArg State.cmds h.frame :)
  have found : m.cmd? ⟨q, p.tag⟩ = some (swingCmdOf s q p pt) := by
    rw [State.cmd?, cmds]
    exact State.cmd?_enrol (s := s) (c := swingCmdOf s q p pt) refs
  have swung : m.swung = s.swung := by
    rw [h.frame]
    rfl
  have command : (m.ctx (ctxOf q p)).swingCmd = some ⟨q, p.tag⟩ := by rw [h.own, Ctx.drainTo]
  have generation : (m.ctx (ctxOf q p)).generation (m.ctx (ctxOf q p)).adm = some pt.g := by
    rw [h.own]
    exact Ctx.generation_drainTo new _
  rw [State.swingCheck_of command generation found, swung]

/-- With the last array swung the SWING completes, and its context is LIVE. -/
theorem completes (host : Memory.wf s.host) (ring : q.isRing = true) (opcode : p.opcode = 0x14) : ∃ n : State,
    Ends n ((m.modCtx (ctxOf q p) (fun x => { x with live := x.adm, swingCmd := none })).complete (swingCmdOf s q p pt) .ok 0 0)
      (swingCmdOf s q p pt) .ok 0 0
    ∧ n.ctx (ctxOf q p) = { m.ctx (ctxOf q p) with live := pt.g.gen, swingCmd := none, st := .live }
    ∧ (∀ k, k ≠ ctxOf q p → n.ctx k = m.ctx k) ∧ n = { m with ctxs := n.ctxs } := by
  have hosts : m.host = s.host := (congrArg State.host h.frame :)
  have host' : Memory.wf (m.modCtx (ctxOf q p) (fun x => { x with live := x.adm, swingCmd := none })).host :=
    (hosts ▸ host : Memory.wf m.host)
  have opcode' : (swingCmdOf s q p pt).pkt.opcode = 0x14 := opcode
  have held (n : State) : n.takeHold 0x14 (ctxOf q p) = n.modCtx (ctxOf q p) (Ctx.advance 0x14) := rfl
  have ends := Ends.complete_alone host' (c := swingCmdOf s q p pt) ⟨ring, rfl, rfl⟩ .ok 0 0
  rw [State.heldFor_ok, opcode'] at ends
  refine ⟨_, ends, ?_, fun k away => ?_, rfl⟩
  · refine (congrArg (fun n => State.ctx n (ctxOf q p)) (held _)).trans ?_
    rw [State.ctx_modCtx_same, State.ctx_modCtx_same, h.own]
    rfl
  · refine (congrArg (fun n => State.ctx n k) (held _)).trans ?_
    rw [State.ctx_modCtx_other _ _ _ _ away, State.ctx_modCtx_other _ _ _ _ away]

end Drains

/-! The swing of one array -/

section
variable {s : State} {crew : Fin 256} {slot : Fin 17}

theorem execArraySwing_stays (h : s.isSpare (arrIdx crew.val slot.val) = true ∨ (s.crew crew.val).benched = true ∨ s.dev.st ≠ .active
      ∨ s.swingTarget crew.val (s.logicalArr (arrIdx crew.val slot.val)) = none
      ∨ (∃ c g y, s.swingTarget crew.val (s.logicalArr (arrIdx crew.val slot.val)) = some (c, g, y)
          ∧ s.swingReady c crew.val y.l = false)) : execArraySwing crew slot s = .next s := by
  unfold execArraySwing
  dsimp only
  split
  · rfl
  · next fit =>
    simp only [Bool.or_eq_true, decide_eq_true_eq, not_or] at fit
    obtain ⟨⟨whole, served⟩, active⟩ := fit
    obtain spare | benched | other | none | ⟨c, g, y, target, early⟩ := h
    · exact absurd spare whole
    · exact absurd benched served
    · exact absurd other active
    · rw [none]
    · rw [target]
      dsimp only
      rw [early]
      rfl

theorem execArraySwing_swings (whole : s.isSpare (arrIdx crew.val slot.val) = false) (served : (s.crew crew.val).benched = false)
    (active : s.dev.st = .active) {c : Nat} {g : Generation} {y : Assign}
    (target : s.swingTarget crew.val (s.logicalArr (arrIdx crew.val slot.val)) = some (c, g, y))
    (ready : s.swingReady c crew.val y.l = true) : ∃ u, execArraySwing crew slot s
        = .next ((if (s.arr (arrIdx crew.val slot.val)).refresh then State.arrayDone u 0x33 (arrIdx crew.val slot.val) else u).swingCheck c)
      ∧ u = s.modArr (arrIdx crew.val slot.val) (Arr.swing (g.man.layer y.layer) (s.pFactor (arrIdx crew.val slot.val)
          (s.tNow (arrIdx crew.val slot.val))) ((s.tel.temps.getD (1 + crewDie crew.val) 0).toInt)) := by
  refine ⟨_, ?_, rfl⟩
  simp only [execArraySwing, whole, served, active, target, ready]
  rfl

end

/-- T_win of an array that has just swung is the present temperature (R87). -/
theorem tWin_swing (s : State) (crew : Fin 256) (slot : Fin 17) (ly : Layer) (f : Rat) (x : Arr) :
    (Arr.swing ly f ((s.tel.temps.getD (1 + crewDie crew.val) 0).toInt) x).tWin = s.tNow (arrIdx crew.val slot.val) := by
  rw [State.tNow, arrIdx_div, Arr.tWin, Arr.swing]
  simp

/-- Settles O21: a SWING by what its check finds, an array by what R163 asks of it. -/
theorem swingAndArraySwing : Obligations.SwingAndArraySwing := by
  refine ⟨fun s q p pt canonical h pitch addrs gen alone new refs => ?_, fun s crew slot => ⟨execArraySwing_stays,
    fun c g y whole served active target ready => ?_⟩⟩
  · intro c cmd
    obtain ⟨host, ring, offers⟩ := h
    obtain ⟨m, effect, drains⟩ := effSwing_accepts (s := s.popFetched q) pitch addrs gen alone
    have check := drains.check new refs
    refine ⟨_, m, congrArg Host.Outcome.next ((State.packetRow_offers offers _).trans effect), drains.own, drains.others, drains.frame,
      fun waits => ?_, fun swung ready => ?_⟩
    · have early : (pt.g.assigns.all (s.popFetched q).swung && m.bivouacReady (ctxOf q p)) = false := by
        obtain ⟨y, hy, still⟩ | pending := waits
        · have some' : pt.g.assigns.all (s.popFetched q).swung = false := List.all_eq_false.2 ⟨y, hy, Bool.eq_false_iff.1 still⟩
          rw [some', Bool.false_and]
        · rw [pending, Bool.and_false]
      rw [check, early]
      rfl
    · have done : (pt.g.assigns.all (s.popFetched q).swung && m.bivouacReady (ctxOf q p)) = true := by
        have all : pt.g.assigns.all (s.popFetched q).swung = true := List.all_eq_true.2 swung
        rw [all, ready]
        rfl
      rw [check, done]
      exact drains.completes host ring offers.2.1
  · intro a
    obtain ⟨u, row, hu⟩ := execArraySwing_swings whole served active target ready
    have swung : u.arr a = (s.arr a).swing (g.man.layer y.layer) (s.pFactor a (s.tNow a))
        ((s.tel.temps.getD (1 + crewDie crew.val) 0).toInt) := by
      rw [hu]
      exact State.arr_modArr_same _ _ _
    have others (b : Nat) (away : b ≠ a) : u.arr b = s.arr b := by
      rw [hu]
      exact State.arr_modArr_other _ _ _ _ away
    have frame : u = { s with arrs := u.arrs } := by
      rw [hu]
      rfl
    refine ⟨_, u, row, rfl, ?_⟩
    rw [swung]
    exact ⟨rfl, rfl, rfl, rfl, rfl, rfl, rfl, tWin_swing s crew slot _ _ _, rfl, rfl, rfl, rfl, rfl, rfl, rfl, others, frame⟩

end Sys2Proof.Machine
end


/-! ## What an admission leaves of the device and its contexts (R154, R205) -/
section
namespace Sys2Proof.Machine

/-- From `s` to `t` the device has stayed where it stands, and every context in its state, on its live generation. -/
structure Stays (s t : State) : Prop where
  env : t.env = s.env
  configured : t.group.configured = s.group.configured
  ctx : ∀ k, (t.ctx k).live = (s.ctx k).live ∧ (t.ctx k).st = (s.ctx k).st

namespace Stays

theorem refl (s : State) : Stays s s := ⟨rfl, rfl, fun _ => ⟨rfl, rfl⟩⟩

theorem trans {s t u : State} (h : Stays s t) (g : Stays t u) : Stays s u :=
  ⟨g.env.trans h.env, g.configured.trans h.configured, fun k => ⟨(g.ctx k).1.trans (h.ctx k).1, (g.ctx k).2.trans (h.ctx k).2⟩⟩

/-- What touches neither environment, group nor contexts. -/
theorem of_eq {s t : State} (env : t.env = s.env) (group : t.group = s.group) (ctxs : t.ctxs = s.ctxs) : Stays s t :=
  ⟨env, by rw [group], fun k => by rw [State.ctx_of_ctxs ctxs]; exact ⟨rfl, rfl⟩⟩

theorem modCtx (s : State) (c : Nat) {f : Ctx → Ctx} (hf : ∀ x, (f x).live = x.live ∧ (f x).st = x.st) : Stays s (s.modCtx c f) := by
  refine ⟨rfl, rfl, fun k => ?_⟩
  by_cases here : k = c
  · rw [here, State.ctx_modCtx_same]
    exact hf _
  · rw [State.ctx_modCtx_other _ _ _ _ here]
    exact ⟨rfl, rfl⟩

theorem writeWork (s : State) (c off : Nat) (bs : List Byte) : Stays s (s.writeWork c off bs) := by
  refine modCtx s c ?_
  exact fun _ => ⟨rfl, rfl⟩

theorem each {α : Type} {f : State → α → State} (s : State) (l : List α) (step : ∀ t, ∀ x ∈ l, Stays t (f t x)) :
    Stays s (s.each l f) := by
  induction l generalizing s with
  | nil => exact refl s
  | cons x l ih => exact (step s x List.mem_cons_self).trans (ih _ fun t y hy => step t y (List.mem_cons_of_mem _ hy))

theorem freePages (s : State) (c gen : Nat) (ys : List Assign) (too : Bool) : Stays s (s.freePages c gen ys too) := by
  rw [State.freePages_frame]
  exact of_eq rfl rfl rfl

theorem dropRoles (s : State) (ys : List Assign) : Stays s (s.dropRoles ys) := by
  rw [(s.relieved_dropRoles ys).frame]
  exact of_eq rfl rfl rfl

/-! Completions of REFRESH and CENSUS, which an array that leaves may bring -/

theorem spoil (s : State) (c : Cmd) (st : Status) : Stays s (s.spoil c st) := by
  unfold State.spoil
  split
  · exact refl s
  · split
    · exact refl s
    · next a n _ =>
      cases a with
      | host x => exact of_eq rfl rfl rfl
      | work x => exact (writeWork s _ x _).trans (of_eq rfl rfl rfl)
      | window sl x => exact of_eq rfl rfl rfl

theorem send (s : State) (m : Msg) : Stays s (s.send m) := by
  have held : Stays s (if m.kind = 5 ∨ m.kind = 6 then s
      else { s with group := { s.group with held := s.group.held ++ [m] } }) := by
    split
    · exact refl s
    · exact ⟨rfl, rfl, fun _ => ⟨rfl, rfl⟩⟩
  unfold State.send
  dsimp only
  generalize (if m.kind = 5 ∨ m.kind = 6 then s
      else { s with group := { s.group with held := s.group.held ++ [m] } }) = u at held ⊢
  split
  · exact held
  · split
    · exact held.trans (of_eq rfl rfl rfl)
    · exact held

theorem writeStatus (s : State) (q : QueueId) (p : Packet) (st : Status) (mod r0 r1 : Nat) :
    Stays s (s.writeStatus q p st mod r0 r1) := by
  unfold State.writeStatus
  dsimp only
  split
  · obtain ⟨o, x, y, e⟩ := State.raiseQueue_frame _ q
    rw [e]
    exact of_eq rfl rfl rfl
  · exact of_eq rfl rfl rfl

theorem replyGen (s : State) (g : Nat) (q : QueueId) (p : Packet) (st : Status) (mod r0 r1 : Nat) :
    Stays s (s.replyGen g q p st mod r0 r1) := by
  unfold State.replyGen
  split
  · exact send _ _
  · exact writeStatus _ _ _ _ _ _ _

/-- A command that has no effect on its context when it completes. -/
theorem complete (s : State) {c : Cmd} (plain : c.pkt.opcode ∉ [0x08, 0x09, 0x10, 0x12, 0x14]) (st : Status) (r0 r1 : Nat) :
    Stays s (s.complete c st r0 r1) := by
  unfold State.complete
  split
  · exact of_eq rfl rfl rfl
  · dsimp only
    rw [State.takeHold_none _ plain, ite_self]
    have spoiled : Stays s (if c.merged = [] then s
        else { (if spoils st then s else s.spoil c (s.outcomeOf c st).1) with free := s.free + 1 }) := by
      split
      · exact refl s
      · split
        · exact of_eq rfl rfl rfl
        · exact (spoil s c _).trans (of_eq rfl rfl rfl)
    refine spoiled.trans (Stays.trans ?_ (replyGen _ _ _ _ _ _ _ _))
    exact ⟨rfl, rfl, fun _ => ⟨rfl, rfl⟩⟩

theorem arrayOut (s : State) {op : Nat} (plain : op ∉ [0x08, 0x09, 0x10, 0x12, 0x14]) (f : Work → Work) : Stays s (s.arrayOut op f) := by
  unfold State.arrayOut
  dsimp only
  refine (of_eq rfl rfl rfl : Stays s { s with
    cmds := s.cmds.map (fun (c : Cmd) => if c.pkt.opcode = op then { c with work := f c.work } else c) }).trans ?_
  refine each _ _ fun t x hx => ?_
  have opcode : x.pkt.opcode = op := of_decide_eq_true (List.mem_filter.1 hx).2
  split
  · exact complete t (opcode ▸ plain) _ _ _
  · exact refl t

theorem untreat (s : State) (a : Nat) : Stays s (s.untreat a) := by
  unfold State.untreat
  dsimp only
  refine Stays.trans (Stays.trans ?_ (arrayOut (op := 0x33) _ (by decide) _)) (arrayOut (op := 0x34) _ (by decide) _)
  exact of_eq rfl rfl rfl

/-! Admission -/

theorem leaveArr (s : State) (live : List Assign) (y : Assign) : Stays s (s.leaveArr live y) := by
  unfold State.leaveArr
  split
  · exact refl s
  · exact (of_eq rfl rfl rfl : Stays s (s.modArr _ _)).trans (untreat _ _)

theorem leaveArrs (s : State) (live ys : List Assign) : Stays s (s.each ys (fun s y => s.leaveArr live y)) :=
  each s ys fun t y _ => leaveArr t live y

theorem retire (s : State) (c : Nat) : Stays s (s.retire c) := by
  unfold State.retire
  dsimp only
  refine Stays.trans (Stays.trans (each s _ fun t g _ => ?_) (modCtx _ c ?_)) (dropRoles _ _)
  · have left := (freePages t c g.gen g.assigns true).trans (leaveArrs _
      (((s.ctx c).gens.filter (fun g => g.gen == (s.ctx c).live)).flatMap (·.assigns)) g.assigns)
    exact ⟨left.env, left.configured, left.ctx⟩
  · exact fun _ => ⟨rfl, rfl⟩

theorem takeTables {c gen : Nat} {m : Manifest} {ys zs : List Assign} {s t : State}
    (h : State.takeTables c gen m ys s = some (t, zs)) : Stays s t := by
  induction ys generalizing s t zs with
  | nil =>
    cases h
    exact refl s
  | cons y ys ih =>
    unfold State.takeTables at h
    split at h
    · cases h
    · split at h
      · cases h
      · split at h
        · cases h
        · next taken =>
          cases h
          exact (of_eq rfl rfl rfl : Stays s (s.setCrew _ _)).trans (ih taken)

theorem takeTiles {c gen : Nat} {m : Manifest} {ys : List Assign} {l maps : List (Nat × Nat)} {s t : State}
    (h : State.takeTiles c gen m ys l s = some (t, maps)) : Stays s t := by
  induction l generalizing s t maps with
  | nil =>
    cases h
    exact refl s
  | cons e l ih =>
    obtain ⟨j, k⟩ := e
    unfold State.takeTiles at h
    split at h
    · cases h
    · split at h
      · cases h
      · next taken =>
        have rest := (of_eq rfl rfl rfl : Stays s (s.setCrew _ _)).trans (ih taken)
        split at h <;> cases h <;> exact rest

theorem giveRoles (ys : List Assign) (s : State) : Stays s (State.giveRoles ys s) := by
  fun_induction State.giveRoles ys s with
  | case1 a b t s standby ih => exact (of_eq rfl rfl rfl : Stays s (s.modCrew _ _)).trans ih
  | case2 a b t s standby ih => exact ih
  | case3 ys s other => exact refl s

end Stays

/-- The pitch that an admission of manifest `m` as generation `gen` makes: not begun, nothing accepted. -/
structure Pitch.Fresh (pt : Pitch) (gen : Nat) (m : Manifest) (nstage timeoutMs : Nat) : Prop where
  gen : pt.g.gen = gen
  man : pt.g.man = m
  accepted : pt.accepted = []
  nstage : pt.nstage = nstage
  timeout : pt.timeoutMs = timeoutMs
  exec : pt.exec = none
  commit : pt.commit = none

theorem State.admitPackage_spec {s u : State} {c gen : Nat} {m : Manifest} {nstage timeoutMs : Nat}
    (h : s.admitPackage c gen m nstage timeoutMs = some u) :
    Stays s u ∧ ∃ pt, (u.ctx c).pitch = some pt ∧ pt.Fresh gen m nstage timeoutMs := by
  unfold State.admitPackage at h
  dsimp only at h
  split at h
  · cases h
  · split at h
    · cases h
    · next tables =>
      split at h
      · cases h
      · next tiles =>
        split at h
        · cases h
        · cases h
          refine ⟨?_, _, by rw [State.ctx_modCtx_same], ⟨rfl, rfl, rfl, rfl, rfl, rfl, rfl⟩⟩
          have pages := ((Stays.retire s c).trans (Stays.takeTables tables)).trans (Stays.takeTiles tiles)
          refine Stays.trans (pages.trans ?_) (Stays.modCtx _ c ?_)
          · refine Stays.trans (Stays.trans (Stays.trans ?_ (.each _ _ ?_)) (.each _ _ ?_)) (.giveRoles _ _)
            · exact .of_eq rfl rfl rfl
            · exact fun t p _ => .of_eq rfl rfl rfl
            · exact fun t y _ => .of_eq rfl rfl rfl
          · exact fun _ => ⟨rfl, rfl⟩

end Sys2Proof.Machine
end


/-! ## The checks of PITCH_BEGIN, one after the other (R153) -/
section
namespace Sys2Proof.Machine

/-- The answer of a PITCH_BEGIN that fails on this device: at a member RESULT1 is its address (R269). -/
def State.failBegin (s : State) (q : QueueId) (p : Packet) (st : Status) : State :=
  s.reply q p st 0 0 (if s.member then s.self else 0)

/-- The error that the read at DATA_ADDR meets. -/
def State.beginErr (s : State) (q : QueueId) (p : Packet) : Option ParityErr :=
  (s.pitchRead q p).bind (fun x => (s.readAtBegin q p).sourceErr (ctxOf q p) x.addr x.len)

theorem State.readAtBegin_frame (s : State) (q : QueueId) (p : Packet) :
    s.readAtBegin q p = { s with gov := (s.readAtBegin q p).gov, tel := (s.readAtBegin q p).tel } := by
  unfold State.readAtBegin State.readManifest
  split
  · split <;> rfl
  · rfl

section
variable {s r : State} {q : QueueId} {p : Packet} (read : s.readAtBegin q p = r)

theorem effPitchBegin_illegal (illegal : 16 < p.param 32 1 ∨ p.resultAddr ≠ 0) :
    effPitchBegin 0 q p s = s.failBegin q p .badParam := by
  simp only [effPitchBegin, if_pos illegal]
  rfl

variable (legal : ¬(16 < p.param 32 1 ∨ p.resultAddr ≠ 0))
include read legal

theorem effPitchBegin_parity {e : ParityErr} (met : s.beginErr q p = some e) : effPitchBegin 0 q p s
    = (r.parityNote (qCtx q) (some p.tag.toNat) e).reply q p .parity 0 0 (if r.member then r.self else 0) := by
  unfold State.beginErr at met
  rw [read] at met
  simp only [effPitchBegin, if_neg legal, read, met]

variable (clean : s.beginErr q p = none)
include clean

theorem effPitchBegin_sourceless (none' : pitchSource r q p = none) : effPitchBegin 0 q p s = r.failBegin q p .badParam := by
  unfold State.beginErr at clean
  rw [read] at clean
  simp only [effPitchBegin, if_neg legal, read, clean, none']
  rfl

variable {src : Source} (source : pitchSource r q p = some src)
include source

theorem effPitchBegin_formless (none' : manifestOf (r.readAt (ctxOf q p) src.addr (min src.len (2 ^ 24))) src.len = none) :
    effPitchBegin 0 q p s = r.failBegin q p .badParam := by
  unfold State.beginErr at clean
  rw [read] at clean
  simp only [effPitchBegin, if_neg legal, read, clean, source, none']
  rfl

variable {m : Manifest} (form : manifestOf (r.readAt (ctxOf q p) src.addr (min src.len (2 ^ 24))) src.len = some m)
include form

theorem effPitchBegin_keyless (none' : r.keyFor m = none) : effPitchBegin 0 q p s = r.failBegin q p .sigBad := by
  unfold State.beginErr at clean
  rw [read] at clean
  simp only [effPitchBegin, if_neg legal, read, clean, source, form, none']
  rfl

variable {k : Key} (key : r.keyFor m = some k)
include key

theorem effPitchBegin_unsigned (forged : signedOk k.point (r.readAt (ctxOf q p) src.addr src.len) = false) :
    effPitchBegin 0 q p s = r.failBegin q p .sigBad := by
  unfold State.beginErr at clean
  rw [read] at clean
  simp only [effPitchBegin, if_neg legal, read, clean, source, form, key, forged]
  rfl

variable (signed : signedOk k.point (r.readAt (ctxOf q p) src.addr src.len) = true)
include signed

theorem effPitchBegin_refused (refused : field m.hdr 16 2 ≠ 0x09A4 ∨ stepping < field m.hdr 18 1 ∨ m.limitsOk r.member = false
      ∨ (r.member = true ∧ r.top = false ∧ m.layers.any (fun l => l.isBow && l.placeCount != 0) = true)) :
    effPitchBegin 0 q p s = r.failBegin q p .badParam := by
  unfold State.beginErr at clean
  rw [read] at clean
  simp only [effPitchBegin, if_neg legal, read, clean, source, form, key, signed, Bool.not_true, Bool.false_eq_true, if_false]
  by_cases part : field m.hdr 16 2 ≠ 0x09A4 ∨ stepping < field m.hdr 18 1
  · rw [if_pos part]
    rfl
  · have limits : (!m.limitsOk r.member || r.member && !r.top && m.layers.any (fun l => l.isBow && l.placeCount != 0)) = true := by
      obtain other | later | limit | ⟨member, lower, bows⟩ := refused
      · exact absurd (.inl other) part
      · exact absurd (.inr later) part
      · rw [limit]
        rfl
      · rw [member, lower, bows, Bool.or_eq_true]
        exact .inr rfl
    rw [if_neg part, if_pos limits]
    rfl

variable (part : ¬(field m.hdr 16 2 ≠ 0x09A4 ∨ stepping < field m.hdr 18 1))
  (limits : (!m.limitsOk r.member || r.member && !r.top && m.layers.any (fun l => l.isBow && l.placeCount != 0)) = false)
include part limits

theorem effPitchBegin_differs {a : Nat} (differs : r.differs q p m = some a) : effPitchBegin 0 q p s = r.reply q p .badParam 0 0 a := by
  unfold State.beginErr at clean
  rw [read] at clean
  simp only [effPitchBegin, if_neg legal, read, clean, source, form, key, signed, if_neg part, limits, differs, Bool.not_true,
    Bool.false_eq_true, if_false]

variable (same : r.differs q p m = none)
include same

/-- The package goes to admission, as the next generation, with four staging slots and ten seconds where the command names none. -/
theorem effPitchBegin_admission : effPitchBegin 0 q p s
    = (r.admitPackage (ctxOf q p) (pitchGen (r.ctx (ctxOf q p)).live (r.ctx (ctxOf q p)).aborted) m
        (if p.param 32 1 = 0 then 4 else p.param 32 1) (if p.param 34 2 = 0 then 10000 else p.param 34 2)).elim
      (r.failBegin q p .noFit)
      (fun u => u.beginPitch q p (pitchGen (r.ctx (ctxOf q p)).live (r.ctx (ctxOf q p)).aborted) src) := by
  unfold State.beginErr at clean
  rw [read] at clean
  simp only [effPitchBegin, if_neg legal, read, clean, source, form, key, signed, if_neg part, limits, same, Bool.not_true,
    Bool.false_eq_true, if_false, if_true]
  cases r.admitPackage (ctxOf q p) (pitchGen (r.ctx (ctxOf q p)).live (r.ctx (ctxOf q p)).aborted) m
    (if p.param 32 1 = 0 then 4 else p.param 32 1) (if p.param 34 2 = 0 then 10000 else p.param 34 2) <;> rfl

end

/-! ## The start of an admitted pitch (R158, R160, R288) -/

/-- With no RETRIM_STEP in flight none ends. -/
theorem State.endRetrim_none {s : State} (none' : ∀ x ∈ s.cmds, x.trim? = none) (c : Nat) (r : CmdRef) : s.endRetrim c r = s := by
  have still (l : List Cmd) (hl : ∀ x ∈ l, x.trim? = none) (t : State) : t.each l (fun s x =>
      match x.trim? with
      | some k => if x.training then s.updCmd x.ref (Cmd.setTrim { k with stop := some r })
        else (s.purge x.ref).complete x x.outcome k.done 0
      | none => s) = t := by
    induction l generalizing t with
    | nil => rfl
    | cons x l ih =>
      rw [State.each_cons, ih fun y hy => hl y (List.mem_cons_of_mem _ hy), hl x List.mem_cons_self]
  exact still _ (fun x hx => none' x (List.mem_filter.1 hx).1) s

theorem State.training_none {s : State} (none' : ∀ x ∈ s.cmds, x.trim? = none) (c : Nat) : s.training c = false := by
  refine List.any_eq_false.2 fun x hx => ?_
  have untrained := none' x hx
  unfold Cmd.trim? at untrained
  unfold Cmd.training
  split at untrained
  · simp [untrained]
  · simp

theorem State.beginPitch_alone {u : State} {q : QueueId} {p : Packet} (alone : u.parties q .pitchBegin = [])
    (none' : ∀ x ∈ u.cmds, x.trim? = none) (gen : Nat) (src : Source) : u.beginPitch q p gen src
    = ((u.chargeHbm false src.len).modCtx (ctxOf q p) (Ctx.advance 0x10)).done q p .ok gen 0 := by
  have still : (u.chargeHbm false src.len).endRetrim (ctxOf q p) ⟨q, p.tag⟩ = u.chargeHbm false src.len :=
    State.endRetrim_none (s := u.chargeHbm false src.len) none' _ _
  have quiet : (u.chargeHbm false src.len).training (ctxOf q p) = false := State.training_none none' _
  have alone' : (u.chargeHbm false src.len).parties q .pitchBegin = [] := alone
  unfold State.beginPitch
  dsimp only
  rw [still, quiet, alone']
  rfl

end Sys2Proof.Machine
end

/-! ## PITCH_BEGIN (R151, R153, R160, R223, R269) -/
section
namespace Sys2Proof.Machine

theorem none_of_ite {α : Type} {c : Prop} [Decidable c] {x : α} {y : Option α} (h : (if c then some x else y) = none) : y = none := by
  split at h
  · cases h
  · exact h

/-- What passes admission passes the check of its context. -/
theorem State.ctxCheck_of_admission {s : State} {q : QueueId} {o : Op} {p : Packet} (h : s.admission q o p = none) :
    s.ctxCheck q o p = none :=
  none_of_ite (none_of_ite (none_of_ite (none_of_ite (none_of_ite h))))

/-- A PITCH_BEGIN asks for a context that is OPEN or LIVE: never for a closing one. -/
theorem Offers.ctx_pitchBegin {s : State} {q : QueueId} {p : Packet} (h : Offers s q .pitchBegin p) :
    (s.ctx (ctxOf q p)).st ≠ .closing := by
  obtain ⟨-, -, -, admitted, -⟩ := h
  have need := State.ctxCheck_of_admission admitted
  intro closing
  simp [State.ctxCheck, closing] at need

/-- The state of a PITCH_BEGIN whose read at DATA_ADDR has been made. -/
def State.manifestRead (s : State) (q : QueueId) (p : Packet) : State := (s.popFetched q).readAtBegin q p

theorem State.manifestRead_frame (s : State) (q : QueueId) (p : Packet) : s.manifestRead q p = { s.popFetched q with
    gov := (s.manifestRead q p).gov, tel := (s.manifestRead q p).tel } := (s.popFetched q).readAtBegin_frame q p

/-! The read changes nothing that a check asks for. -/

section
variable (s : State) (q : QueueId) (p : Packet)

theorem State.beginErr_popFetched :
    (s.popFetched q).beginErr q p = (s.pitchRead q p).bind (fun x => s.sourceErr (ctxOf q p) x.addr x.len) := by
  show (s.pitchRead q p).bind (fun x => (s.manifestRead q p).sourceErr (ctxOf q p) x.addr x.len) = _
  rw [State.manifestRead_frame]
  rfl

theorem State.pitchSource_manifestRead : pitchSource (s.manifestRead q p) q p = pitchSource s q p := by
  rw [State.manifestRead_frame]
  rfl

theorem State.readAt_manifestRead (c : Nat) (a : Addr) (n : Nat) : (s.manifestRead q p).readAt c a n = s.readAt c a n := by
  rw [State.manifestRead_frame]
  rfl

theorem State.keyFor_manifestRead (m : Manifest) : (s.manifestRead q p).keyFor m = s.keyFor m := by
  rw [State.manifestRead_frame]
  rfl

theorem State.member_manifestRead : (s.manifestRead q p).member = s.member := by
  rw [State.manifestRead_frame]
  rfl

theorem State.top_manifestRead : (s.manifestRead q p).top = s.top := by
  rw [State.manifestRead_frame]
  rfl

theorem State.self_manifestRead : (s.manifestRead q p).self = s.self := by
  rw [State.manifestRead_frame]
  rfl

theorem State.differs_manifestRead (m : Manifest) : (s.manifestRead q p).differs q p m = s.differs q p m := by
  rw [State.manifestRead_frame]
  rfl

theorem State.ctx_manifestRead (k : Nat) : (s.manifestRead q p).ctx k = s.ctx k :=
  State.ctx_of_ctxs (congrArg State.ctxs (s.manifestRead_frame q p) :) k

end

section
variable {s : State} {q : QueueId} {p : Packet} (h : Presents s q .pitchBegin p)
include h

/-- A failure is answered with its status, and this device's address at a member. -/
theorem execPitchBegin_fails {st : Status} (fails : effPitchBegin 0 q p (s.popFetched q) = (s.manifestRead q p).failBegin q p st) :
    ∃ t, execPitchBegin q s = .next t ∧ Answered (s.manifestRead q p) t q p st 0 0 (if s.member = true then s.self else 0) := by
  obtain ⟨host, ring, offers⟩ := h
  have frame := s.manifestRead_frame q p
  have host' : Memory.wf (s.manifestRead q p).host := by
    rw [frame]
    exact host
  have own : (if (s.manifestRead q p).member then (s.manifestRead q p).self else 0) = if s.member = true then s.self else 0 := by
    rw [State.member_manifestRead, State.self_manifestRead]
  have answered := Answered.reply host' ring p st 0 0 (if (s.manifestRead q p).member then (s.manifestRead q p).self else 0)
  rw [own] at answered
  refine ⟨_, ?_, answered⟩
  rw [execPitchBegin, State.packetRow_offers offers, fails, State.failBegin, own]

theorem execPitchBegin_parity (legal : ¬(16 < p.param 32 1 ∨ p.resultAddr ≠ 0)) {e : ParityErr}
    (met : (s.popFetched q).beginErr q p = some e) : ∃ t m, execPitchBegin q s = .next t
      ∧ Answered m t q p .parity 0 0 (if s.member = true then s.self else 0)
      ∧ Signed s m 0x01 (parityInfo e (qCtx q) (some p.tag.toNat))
      ∧ m.host = s.host ∧ m.cmds = s.cmds ∧ m.ctxs = s.ctxs ∧ m.crews = s.crews ∧ m.arrs = s.arrs := by
  obtain ⟨host, ring, offers⟩ := h
  have frame := s.manifestRead_frame q p
  have effect := effPitchBegin_parity (r := s.manifestRead q p) rfl legal met
  have note := (s.manifestRead q p).parityNote_frame (qCtx q) (some p.tag.toNat) e
  have signed := (s.manifestRead q p).signed_parityNote (qCtx q) (some p.tag.toNat) e
  have own : (if (s.manifestRead q p).member then (s.manifestRead q p).self else 0) = if s.member = true then s.self else 0 := by
    rw [State.member_manifestRead, State.self_manifestRead]
  rw [own] at effect
  have hosts : ((s.manifestRead q p).parityNote (qCtx q) (some p.tag.toNat) e).host = s.host :=
    (congrArg State.host note :).trans (congrArg State.host frame :)
  refine ⟨_, _, congrArg Host.Outcome.next ((State.packetRow_offers offers _).trans effect),
    Answered.reply (hosts ▸ host) ring p .parity 0 0 _, signed.congr ?_ ?_ ?_, hosts, ?_, ?_, ?_, ?_⟩
  · exact (congrArg State.sig frame :)
  · exact (congrArg State.dev frame :)
  · exact (congrArg State.env frame :)
  · exact (congrArg State.cmds note :).trans (congrArg State.cmds frame :)
  · exact (congrArg State.ctxs note :).trans (congrArg State.ctxs frame :)
  · exact (congrArg State.crews note :).trans (congrArg State.crews frame :)
  · exact (congrArg State.arrs note :).trans (congrArg State.arrs frame :)

/-- An admitted package of a device in no group is in pitch at once. -/
theorem execPitchBegin_begins (canonical : Canonical s) (lone : s.member = false) {gen nst tmo : Nat} {m : Manifest} {src : Source}
    {u : State} (effect : effPitchBegin 0 q p (s.popFetched q) = u.beginPitch q p gen src)
    (admitted : (s.manifestRead q p).admitPackage (ctxOf q p) gen m nst tmo = some u) (untrained : ∀ x ∈ u.cmds, x.trim? = none) :
    ∃ t n, execPitchBegin q s = .next t ∧ Answered n t q p .ok 0 gen 0
      ∧ n = { u.chargeHbm false src.len with ctxs := n.ctxs } ∧ (∀ k, k ≠ ctxOf q p → n.ctx k = u.ctx k)
      ∧ (n.ctx (ctxOf q p)).st = .pitching ∧ (n.ctx (ctxOf q p)).live = (s.ctx (ctxOf q p)).live
      ∧ (n.ctx (ctxOf q p)).abortMark = false
      ∧ ∃ pt, (n.ctx (ctxOf q p)).pitch = some pt ∧ pt.g.gen = gen ∧ pt.g.man = m ∧ pt.accepted = [] ∧ pt.nstage = nst
        ∧ pt.timeoutMs = tmo ∧ pt.timerOn = true ∧ pt.begun = true ∧ pt.exec = none ∧ pt.commit = none := by
  obtain ⟨-, ring, offers⟩ := h
  obtain ⟨stays, pt, pitch, fresh⟩ := State.admitPackage_spec admitted
  have host : Memory.wf u.host :=
    ((K.admitPackage admitted (K.readAtBegin (Keeps.refl (s.popFetched q)) q p)).canonical (canonical.popFetched q)).host
  have alone : u.parties q .pitchBegin = [] := by
    have lower : u.top = false := by
      have out : (s.manifestRead q p).group.configured = false := (s.member_manifestRead q p).trans lone
      rw [State.top, stays.configured, out]
      rfl
    unfold State.parties
    split
    · rfl
    · rw [lower]
      rfl
  have same := stays.ctx (ctxOf q p)
  rw [State.ctx_manifestRead] at same
  have open' : (u.ctx (ctxOf q p)).st ≠ .closing := same.2 ▸ offers.ctx_pitchBegin
  have own : ((u.chargeHbm false src.len).modCtx (ctxOf q p) (Ctx.advance 0x10)).ctx (ctxOf q p)
      = (u.ctx (ctxOf q p)).advance 0x10 := State.ctx_modCtx_same _ _ _
  refine ⟨_, (u.chargeHbm false src.len).modCtx (ctxOf q p) (Ctx.advance 0x10),
    congrArg Host.Outcome.next ((State.packetRow_offers offers _).trans (effect.trans (State.beginPitch_alone alone untrained gen src))),
    Answered.done (m := (u.chargeHbm false src.len).modCtx (ctxOf q p) (Ctx.advance 0x10)) host ring p .ok gen 0, rfl,
    fun k away => ?_, ?_, ?_, ?_, ?_⟩
  · exact State.ctx_modCtx_other _ _ _ _ away
  · rw [own]
    exact if_neg open'
  · rw [own]
    exact same.1
  · rw [own]
    rfl
  · rw [own]
    refine ⟨{ pt with begun := true, timerOn := true }, ?_, fresh.gen, fresh.man, fresh.accepted, fresh.nstage, fresh.timeout, rfl, rfl,
      fresh.exec, fresh.commit⟩
    show (u.ctx (ctxOf q p)).pitch.map _ = _
    rw [pitch]
    rfl

end

/-- Settles O16: the checks in their order, then the admission, of which the context keeps the pitch. -/
theorem pitchBeginAdmits : Obligations.PitchBeginAdmits := by
  intro s q p canonical h who c r
  have err := s.beginErr_popFetched q p
  refine ⟨fun illegal => ?_, fun slots result => ?_⟩
  · have reply := Answered.reply (m := s.popFetched q) h.1 h.2.1 p .badParam 0 0 who
    exact ⟨_, congrArg Host.Outcome.next ((State.packetRow_offers h.2.2 _).trans (effPitchBegin_illegal illegal)), reply⟩
  have legal : ¬(16 < p.param 32 1 ∨ p.resultAddr ≠ 0) := fun bad => bad.elim (Nat.not_lt.2 slots) (fun other => other result)
  refine ⟨fun x e hx met => execPitchBegin_parity h legal (by rw [err, hx]; exact met), fun clean => ?_⟩
  have clean' : (s.popFetched q).beginErr q p = none := by
    rw [err]
    cases hx : s.pitchRead q p with
    | none => rfl
    | some x => exact clean x hx
  have sources : pitchSource r q p = pitchSource s q p := s.pitchSource_manifestRead q p
  have reads : ∀ a n, r.readAt c a n = s.readAt c a n := s.readAt_manifestRead q p c
  have keys : ∀ m, r.keyFor m = s.keyFor m := s.keyFor_manifestRead q p
  have member : r.member = s.member := s.member_manifestRead q p
  have top : r.top = s.top := s.top_manifestRead q p
  refine ⟨fun none' => execPitchBegin_fails h (effPitchBegin_sourceless rfl legal clean' (sources.trans none')), fun src source => ?_⟩
  replace source := sources.trans source
  have forms : manifestOf (r.readAt c src.addr (min src.len (2 ^ 24))) src.len
      = manifestOf (s.readAt c src.addr (min src.len (2 ^ 24))) src.len := by rw [reads]
  refine ⟨fun none' => execPitchBegin_fails h (effPitchBegin_formless rfl legal clean' source (forms.trans none')), fun m form => ?_⟩
  replace form := forms.trans form
  refine ⟨fun none' => execPitchBegin_fails h (effPitchBegin_keyless rfl legal clean' source form ((keys m).trans none')),
    fun k key => ?_⟩
  replace key := (keys m).trans key
  intro bs
  have bytes : r.readAt c src.addr src.len = bs := reads _ _
  refine ⟨fun forged => execPitchBegin_fails h (effPitchBegin_unsigned rfl legal clean' source form key (bytes ▸ forged)),
    fun signed refused => ?_, fun signed id' step limits lead a differs => ?_, fun signed id' step limits lone untrained => ?_⟩
  · rw [← member, ← top] at refused
    exact execPitchBegin_fails h (effPitchBegin_refused rfl legal clean' source form key (bytes ▸ signed) refused)
  · have part : ¬(field m.hdr 16 2 ≠ 0x09A4 ∨ stepping < field m.hdr 18 1) := fun bad =>
      bad.elim (fun other => other id') (Nat.not_lt.2 step)
    have fits : (!m.limitsOk r.member || r.member && !r.top && m.layers.any (fun l => l.isBow && l.placeCount != 0)) = false := by
      rw [member, top, limits, lead, Bool.not_true, Bool.and_false, Bool.false_and]
      rfl
    have effect := effPitchBegin_differs (r := r) rfl legal clean' source form key (bytes ▸ signed) part fits
      ((s.differs_manifestRead q p m).trans differs)
    have hosts : r.host = s.host := (congrArg State.host (s.manifestRead_frame q p) :)
    have host' : Memory.wf r.host := hosts ▸ h.1
    exact ⟨_, congrArg Host.Outcome.next ((State.packetRow_offers h.2.2 _).trans effect), Answered.reply host' h.2.1 p .badParam 0 0 a⟩
  · intro gen nst tmo
    have part : ¬(field m.hdr 16 2 ≠ 0x09A4 ∨ stepping < field m.hdr 18 1) := fun bad =>
      bad.elim (fun other => other id') (Nat.not_lt.2 step)
    have fits : (!m.limitsOk r.member || r.member && !r.top && m.layers.any (fun l => l.isBow && l.placeCount != 0)) = false := by
      rw [member, limits, lone, Bool.false_and, Bool.false_and]
      rfl
    have lower : s.top = false := by
      rw [State.top, ← State.member, lone, Bool.false_and]
    have same : r.differs q p m = none := by
      refine (s.differs_manifestRead q p m).trans ?_
      rw [State.differs, lower]
      rfl
    have effect := effPitchBegin_admission (r := r) rfl legal clean' source form key (bytes ▸ signed) part fits same
    have number : pitchGen (r.ctx (ctxOf q p)).live (r.ctx (ctxOf q p)).aborted = gen :=
      congrArg (fun x : Ctx => pitchGen x.live x.aborted) (s.ctx_manifestRead q p c)
    rw [number] at effect
    refine ⟨fun crowded => ?_, fun u admitted none' => ?_⟩
    · have answered := execPitchBegin_fails h (st := .noFit) (effect.trans (by rw [crowded]; rfl))
      rwa [lone] at answered
    · exact execPitchBegin_begins h canonical lone (effect.trans (by rw [admitted]; rfl)) admitted none'

end Sys2Proof.Machine
end

/-! PROOFS for the family 07_commands_queues_states: rings, packets and their checks, the plain commands, contexts, resets. -/

/-! ## A step on a queue that is not empty -/
section
namespace Sys2Proof.Machine

/-- Settles O1: the definition of a step, on a queue with a front. -/
theorem stepTakesTheFront : Obligations.StepTakesTheFront := by
  intro c rest s waiting
  unfold step
  rw [waiting]

end Sys2Proof.Machine
end

/-! ## The row of an opcode, and the packet that it takes (R177, R181) -/
section
namespace Sys2Proof.Machine

/-- The row of an opcode examines the next entry of its queue, with one effect on whatever queue and state. -/
theorem Op.exec_row (o : Op) : ∃ f, ∀ q s, exec (o.row q) s = .next (s.packetRow q o f) := by
  cases o <;> exact ⟨_, fun _ _ => rfl⟩

/-- A packet that fails a check is answered with that status, with no effect of its opcode. -/
theorem State.packetRow_refused {s : State} {q : QueueId} {o : Op} {p : Packet} {st : Status}
    (front : (s.queue q).fetched.head? = some p) (code : p.opcode = o.code) (turn : s.examinable q = true)
    (refused : s.admission q o p = some st) (f : QueueId → Packet → State → State) :
    s.packetRow q o f = (s.popFetched q).replyGen 0 q p st 0 0 0 := by
  obtain ⟨rest, hrest⟩ := List.head?_eq_some_iff.1 front
  have ready : s.waitsHbm q o p = false := by
    rw [State.waitsHbm, refused, Option.isNone_some, Bool.and_false]
  unfold State.packetRow
  rw [hrest]
  simp only [code, turn, ready, and_self, if_true, Bool.false_eq_true, if_false]
  rw [State.examine, State.admission_popFetched, refused]

/-- A row whose opcode is not that of the next entry, or whose entry may not be examined, leaves the state as it is. -/
theorem State.packetRow_other {s : State} {q : QueueId} {o : Op}
    (other : ∀ p, (s.queue q).fetched.head? = some p → p.opcode ≠ o.code ∨ s.examinable q = false)
    (f : QueueId → Packet → State → State) : s.packetRow q o f = s := by
  unfold State.packetRow
  split
  · rfl
  · next p rest front =>
    rw [if_neg]
    rintro ⟨code, turn⟩
    obtain wrong | closed := other p (by rw [front]; rfl)
    · exact wrong code
    · simp [closed] at turn

/-- Settles O7: every row examines by the same checks, and answers a failed one before any effect. -/
theorem failedCheckIsAnsweredAlone : Obligations.FailedCheckIsAnsweredAlone := by
  intro o q s host ring
  obtain ⟨f, row⟩ := o.exec_row
  refine ⟨fun p st front code turn refused => ?_, fun other => ?_⟩
  · refine ⟨_, row q s, ?_⟩
    rw [State.packetRow_refused front code turn refused f, State.replyGen_ring ring]
    exact Answered.reply (m := s.popFetched q) host ring p st 0 0 0
  · rw [row q s, State.packetRow_other other f]

end Sys2Proof.Machine
end

/-! ## Checks 1 to 6 of R181 -/
section
namespace Sys2Proof.Machine

/-- The opcodes that SAFE serves (R183). -/
theorem Op.devOk_safe_iff (o : Op) :
    o.devOk .safe = true ↔ o ∈ [Op.nop, .identify, .fence, .statsRead, .signatureDrain, .groupStatus] := by
  cases o <;> decide

theorem ne_fault_of_ite {c : Prop} [Decidable c] {x y : Option Status} (h : x ≠ some .fault) (k : y ≠ some .fault) :
    (if c then x else y) ≠ some .fault := by
  split
  · exact h
  · exact k

/-- No state of a context makes a check fail with FAULT. -/
theorem State.ctxCheck_ne_fault (s : State) (q : QueueId) (o : Op) (p : Packet) : s.ctxCheck q o p ≠ some .fault := by
  cases o
  case pitchShard | pitchCommit => exact ne_fault_of_ite nofun (ne_fault_of_ite nofun nofun)
  case statsRead | ctxOpen | ctxClose | pitchBegin | pitchAbort | swing | run | runBow | collective | refresh | census | retrimStep
      | retrimApply => exact ne_fault_of_ite nofun nofun
  all_goals exact nofun

/-- FAULT is the answer of check 1 alone: in SAFE, to an opcode that SAFE does not serve. -/
theorem State.admission_fault_iff {s : State} {q : QueueId} {o : Op} {p : Packet} :
    s.admission q o p = some .fault ↔ s.dev.st = .safe ∧ o.devOk .safe = false := by
  unfold State.admission
  split
  · next safe => simpa using safe
  · next safe =>
    have later := ne_fault_of_ite (c := (!o.devOk s.dev.st || !s.groupAllows q o) = true) (x := some .state) nofun
      (s.ctxCheck_ne_fault q o p)
    refine iff_of_false ?_ (by simpa using safe)
    exact ne_fault_of_ite nofun (ne_fault_of_ite nofun (ne_fault_of_ite nofun later))

/-- A context that is CLOSING allows NOP, IDENTIFY and FENCE alone, of the opcodes of its queues (R185). -/
theorem State.ctxCheck_closing {s : State} {c : Fin 16} {q : QueueId} {o : Op} (p : Packet) (own : q = .ctx c ∨ q = .bow c)
    (closing : (s.ctx c.val).st = .closing) (takes : o.queueOk q = true) (other : o ∉ [Op.nop, .identify, .fence]) :
    s.ctxCheck q o p = some .state := by
  have st : (s.ctx (ctxOf q p)).st = .closing := by obtain rfl | rfl := own <;> exact closing
  have ring : q ≠ .admin := by obtain rfl | rfl := own <;> exact QueueId.noConfusion
  have served : o ∈ [Op.statsRead, .pitchBegin, .pitchShard, .pitchCommit, .pitchAbort, .swing, .run, .runBow, .collective, .refresh,
      .census, .retrimStep, .retrimApply] := by
    obtain rfl | rfl := own <;> revert o <;> intro o <;> cases o <;> simp [Op.queueOk]
  simp only [List.mem_cons, List.not_mem_nil, or_false] at served
  obtain rfl | rfl | rfl | rfl | rfl | rfl | rfl | rfl | rfl | rfl | rfl | rfl | rfl := served <;>
    simp [State.ctxCheck, CtxState.inPitch, st, ring]

theorem State.queueOk_of_admission {s : State} {q : QueueId} {o : Op} {p : Packet} (h : s.admission q o p = none) :
    o.queueOk q = true := by
  have passes := none_of_ite h
  by_contra wrong
  rw [if_pos (by simpa using wrong)] at passes
  exact nomatch passes

/-- Outside SAFE, a packet of its context that passes the first five checks is left to the states of device, group and context. -/
theorem State.admission_of_header {s : State} {q : QueueId} {o : Op} {p : Packet} (up : s.dev.st ≠ .safe)
    (takes : o.queueOk q = true) (cls : o.classOk p.cls = true) (header : p.headerRsvOk = true) (param : p.paramRsvOk o = true)
    (batch : p.batchFieldsOk o = true) (data : addrRsvOk p.dataAddr = true) (result : addrRsvOk p.resultAddr = true)
    (new : s.cmds.any (fun x => decide (x.ref = ⟨q, p.tag⟩)) = false) (own : ∀ c, qCtx q = some c → p.ctx = c) :
    s.admission q o p = if !o.devOk s.dev.st || !s.groupAllows q o then some .state else s.ctxCheck q o p := by
  unfold State.admission
  simp only [up, takes, cls, header, param, batch, data, result, new, false_and, if_false, Bool.not_true, Bool.or_false,
    Bool.false_eq_true]
  refine if_neg ?_
  cases h : qCtx q with
  | none => simp
  | some c => simp [own c h]

/-- Settles O8: FAULT is check 1 alone, and what a CLOSING context refuses is check 6 at the latest. -/
theorem safeServesSixCommands : Obligations.SafeServesSixCommands := by
  refine ⟨fun s q o p safe => ⟨fun other => ?_, fun served => ?_⟩, fun s c q o p own closing other ctx => ⟨fun passes => ?_, ?_⟩⟩
  · exact State.admission_fault_iff.2 ⟨safe, Bool.eq_false_iff.2 fun h => other (o.devOk_safe_iff.1 h)⟩
  · intro fault
    have refused := (State.admission_fault_iff.1 fault).2
    rw [o.devOk_safe_iff.2 served] at refused
    exact nomatch refused
  · have check := State.ctxCheck_of_admission passes
    rw [State.ctxCheck_closing p own closing (State.queueOk_of_admission passes) other] at check
    exact nomatch check
  · intro up takes cls header param batch data result new
    have mine : ∀ k, qCtx q = some k → p.ctx = k := by
      intro k hk
      obtain rfl | rfl := own <;> exact ctx.trans (Option.some.inj hk)
    rw [State.admission_of_header up takes cls header param batch data result new mine,
      State.ctxCheck_closing p own closing takes other, ite_self]

end Sys2Proof.Machine
end

/-! ## How a packet that passes the checks is answered -/
section
namespace Sys2Proof.Machine

variable {s m : State} {q : QueueId} {o : Op} {p : Packet} {f : QueueId → Packet → State → State} {st : Status} {r0 r1 : Nat}

/-- An effect that only replies: one status entry on the ring, and nothing else. -/
theorem Presents.replies (h : Presents s q o p)
    (effect : f q p (s.popFetched q) = (s.popFetched q).reply q p st 0 r0 r1) :
    ∃ t, Host.Outcome.next (s.packetRow q o f) = (.next t : Host.Outcome State Fault Refusal)
      ∧ Answered (s.popFetched q) t q p st 0 r0 r1 := by
  obtain ⟨host, ring, offers⟩ := h
  refine ⟨_, congrArg Host.Outcome.next ((State.packetRow_offers offers f).trans effect), ?_⟩
  exact Answered.reply (m := s.popFetched q) host ring p st 0 r0 r1

/-- An effect that is accepted and complete at once. -/
theorem Presents.completes (h : Presents s q o p) (effect : f q p (s.popFetched q) = m.done q p st r0 r1)
    (host : Memory.wf m.host) :
    ∃ t, Host.Outcome.next (s.packetRow q o f) = (.next t : Host.Outcome State Fault Refusal) ∧ Answered m t q p st 0 r0 r1 :=
  ⟨_, congrArg Host.Outcome.next ((State.packetRow_offers h.2.2 f).trans effect), Answered.done host h.2.1 p st r0 r1⟩

end Sys2Proof.Machine
end

/-! ## NOP and IDENTIFY (R190 to R192) -/
section
namespace Sys2Proof.Machine

theorem effNop_bare {p : Packet} (bare : p.noAddrs = true) (q : QueueId) (s : State) : effNop q p s = s.done q p .ok 0 0 := if_pos bare
theorem effNop_addressed {p : Packet} (addressed : ¬p.noAddrs = true) (q : QueueId) (s : State) :
    effNop q p s = s.reply q p .badParam 0 0 0 := if_neg addressed

theorem effIdentify_fits {p : Packet} {a : Nat} (result : p.hostResult = some a) (fits : 4096 ≤ p.length) (q : QueueId) (s : State) :
    effIdentify q p s = (s.writeHost a (s.identify q)).done q p .ok 4096 0 := by
  rw [effIdentify, result]
  exact if_pos fits
theorem effIdentify_short {p : Packet} {a : Nat} (result : p.hostResult = some a) (short : p.length < 4096) (q : QueueId) (s : State) :
    effIdentify q p s = s.reply q p .badParam 0 0 0 := by
  rw [effIdentify, result]
  exact if_neg (Nat.not_le.2 short)

/-- A field behind a number that stands in front of it. -/
theorem field_skip {n v off size : Nat} (rest : List Byte) (h : n ≤ off) :
    field (leBytes n v ++ rest) off size = field rest (off - n) size := by
  rw [field, List.drop_append, List.drop_eq_nil_of_le (by simpa using h), List.nil_append, length_leBytes, field]

/-- The number at the front of a structure, as its field says it. -/
theorem field_front (n v : Nat) (rest : List Byte) : field (leBytes n v ++ rest) 0 n = v % 256 ^ n := by
  have low : leBytes n v = leBytes n (v % 256 ^ n) := by
    induction n generalizing v with
    | zero => rfl
    | succ n ih =>
      have byte : (BitVec.ofNat 8 (v % 256 ^ (n + 1)) : Byte) = BitVec.ofNat 8 v := by
        apply BitVec.eq_of_toNat_eq
        simp only [BitVec.toNat_ofNat, pow_succ']
        exact Nat.mod_mul_right_mod v 256 (256 ^ n)
      have high : v % 256 ^ (n + 1) / 256 = v / 256 % 256 ^ n := by
        rw [pow_succ', Nat.mod_mul_right_div_self]
      rw [leBytes, leBytes, byte, high, ih]
  rw [field, List.drop_zero, List.take_left' (length_leBytes n v), low, leNat_leBytes]
  exact Nat.mod_lt _ (Nat.pow_pos (by decide))

/-- A number in nibbles stays below the next nibble, and each nibble is read at its place. -/
theorem sum_nibbles_lt (f : Nat → Nat) (small : ∀ c, f c < 16) (n : Nat) : ((List.range n).map (fun c => f c * 16 ^ c)).sum < 16 ^ n := by
  induction n with
  | zero => simp
  | succ n ih =>
    rw [List.range_succ, List.map_append, List.sum_append, pow_succ]
    have := Nat.mul_le_mul_right (16 ^ n) (Nat.le_of_lt_succ (small n))
    simp only [List.map_cons, List.map_nil, List.sum_cons, List.sum_nil]
    omega

theorem nibble_of_sum (f : Nat → Nat) (small : ∀ c, f c < 16) {n c : Nat} (h : c < n) :
    ((List.range n).map (fun c => f c * 16 ^ c)).sum / 16 ^ c % 16 = f c := by
  induction n with
  | zero => omega
  | succ n ih =>
    have below := sum_nibbles_lt f small n
    rw [List.range_succ, List.map_append, List.sum_append]
    simp only [List.map_cons, List.map_nil, List.sum_cons, List.sum_nil, Nat.add_zero]
    obtain rfl | earlier := Nat.eq_or_lt_of_le (Nat.le_of_lt_succ h)
    · rw [Nat.add_mul_div_right _ _ (Nat.pow_pos (by decide)), Nat.div_eq_of_lt below, Nat.zero_add, Nat.mod_eq_of_lt (small c)]
    · have split : f n * 16 ^ n = f n * 16 ^ (n - c - 1) * 16 * 16 ^ c := by
        rw [Nat.mul_assoc, Nat.mul_assoc, ← pow_succ', ← pow_add]
        congr 2
        omega
      rw [split, Nat.add_mul_div_right _ _ (Nat.pow_pos (by decide)), Nat.add_mul_mod_self_right]
      exact ih earlier

theorem devCode_lt (d : DevState) : devCode d < 256 := by cases d <;> decide
theorem ctxCode_lt (x : CtxState) : ctxCode x < 16 := by cases x <;> decide

/-- The nibbles of the contexts as the admin queue sees them. -/
def State.ctxNibbles (s : State) : Nat := ((List.range 16).map (fun c => ctxCode (s.ctx c).st * 16 ^ c)).sum

theorem State.bitsOf_ctxNibbles (s : State) {c : Nat} (h : c < 16) :
    bitsOf (s.ctxNibbles % 256 ^ 8) (4 * c) 4 = ctxCode (s.ctx c).st := by
  have small := sum_nibbles_lt (fun c => ctxCode (s.ctx c).st) (fun c => ctxCode_lt _) 16
  rw [State.ctxNibbles, Nat.mod_eq_of_lt (Nat.lt_of_lt_of_le small (by decide)), bitsOf, pow_mul]
  exact nibble_of_sum (fun c => ctxCode (s.ctx c).st) (fun c => ctxCode_lt _) h

theorem State.length_identify (s : State) (q : QueueId) : (s.identify q).length = 4096 := by
  unfold State.identify
  extract_lets nib ctxs head
  have short : head.length = 56 := by simp only [head, List.length_append, length_leBytes]
  rw [List.length_append, List.length_replicate, short]

theorem State.identify_fields (s : State) (q : QueueId) : field (s.identify q) 0 4 = 0x09A41140
    ∧ field (s.identify q) 8 8 = Config.serial.toNat
    ∧ field (s.identify q) 16 8 = s.dev.fwVer.toNat ∧ field (s.identify q) 24 8 = s.dev.ucVer.toNat
    ∧ field (s.identify q) 32 1 = devCode s.dev.st ∧ field (s.identify q) 33 1 = s.env.env % 256
    ∧ field (s.identify q) 34 1 = bitAt s.env.trimLoaded 0 + bitAt s.env.envSet 1 + bitAt s.env.mode 2
    ∧ field (s.identify q) 44 4 = s.env.position.toNat ∧ field (s.identify q) 48 8 = s.dev.timeBase.toNat := by
  have flags : bitAt s.env.trimLoaded 0 + bitAt s.env.envSet 1 + bitAt s.env.mode 2 < 256 := by
    unfold bitAt
    split <;> split <;> split <;> decide
  unfold State.identify
  simp only [List.append_assoc]
  refine ⟨?_, ?_, ?_, ?_, ?_, ?_, ?_, ?_, ?_⟩ <;> simp only [field_skip, field_front, Nat.reduceLeDiff, Nat.reduceSub]
  · decide
  · exact Nat.mod_eq_of_lt (BitVec.isLt _)
  · exact Nat.mod_eq_of_lt (BitVec.isLt _)
  · exact Nat.mod_eq_of_lt (BitVec.isLt _)
  · exact Nat.mod_eq_of_lt (devCode_lt _)
  · rfl
  · exact Nat.mod_eq_of_lt flags
  · exact Nat.mod_eq_of_lt (BitVec.isLt _)
  · exact Nat.mod_eq_of_lt (BitVec.isLt _)

theorem State.identify_admin_contexts (s : State) : field (s.identify .admin) 36 8 = s.ctxNibbles % 256 ^ 8 := by
  unfold State.identify
  simp only [List.append_assoc, field_skip, field_front, Nat.reduceLeDiff, Nat.reduceSub, sumNat_eq_sum]
  rfl

/-- Settles O9: each answer by its address and length; the structure field by field. -/
theorem nopAndIdentifyAnswer : Obligations.NopAndIdentifyAnswer := by
  refine ⟨fun s q p h => ?_, fun s q p a h result => ⟨fun fits => ?_, fun short => ?_⟩, fun s q => ?_⟩
  · by_cases bare : p.noAddrs = true
    · rw [if_pos bare]
      exact h.completes (f := effNop) (effNop_bare bare q _) h.1
    · rw [if_neg bare]
      exact h.replies (f := effNop) (effNop_addressed bare q _)
  · obtain ⟨t, row, answered⟩ := h.completes (f := effIdentify) (effIdentify_fits result fits q _) (Memory.wf_writeBytes a _ h.1)
    exact ⟨t, _, row, answered, rfl⟩
  · exact h.replies (f := effIdentify) (effIdentify_short result short q _)
  · obtain ⟨chip, serial, fw, uc, st, env, flags, pos, time⟩ := s.identify_fields q
    refine ⟨s.length_identify q, chip, serial, fw, uc, st, env, flags, pos, time, fun c hc => ?_⟩
    rw [s.identify_admin_contexts, s.bitsOf_ctxNibbles hc]

end Sys2Proof.Machine
end

/-! ## FENCE (R177, R196) -/
section
namespace Sys2Proof.Machine

theorem effFence_bare {p : Packet} (bare : p.noAddrs = true) (q : QueueId) (s : State) :
    effFence q p s = s.enrol (mkCmd s q p true .fence) := if_pos bare

theorem State.unblocked_enrol (s : State) (c : Cmd) (k : QueueId) :
    (s.enrol c).unblocked k = (s.unblocked k && !(decide (c.ref.q = k) && c.blocks)) := by
  simp [State.unblocked, State.enrol]

theorem State.outstanding_enrol_other (s : State) {c : Cmd} {k : QueueId} (other : c.ref.q ≠ k) :
    (s.enrol c).outstanding k = s.outstanding k := by
  simp [State.outstanding, State.enrol, other]

/-- A queue waits for a command that is accepted at completion (R177). -/
theorem State.examinable_enrol_blocked (s : State) {c : Cmd} (blocks : c.blocks = true) : (s.enrol c).examinable c.ref.q = false := by
  rw [State.examinable, State.unblocked_enrol]
  simp [blocks]

/-- What waits on one queue holds back no other. -/
theorem State.examinable_enrol_other (s : State) {c : Cmd} {k : QueueId} (other : c.ref.q ≠ k) :
    (s.enrol c).examinable k = s.examinable k := by
  rw [State.examinable, State.unblocked_enrol, State.reserved, State.outstanding_enrol_other s other]
  simp only [other, decide_false, Bool.false_and, Bool.not_false, Bool.and_true]
  rfl

theorem State.examinable_popFetched_other (s : State) {q k : QueueId} (other : qIdx k ≠ qIdx q) :
    (s.popFetched q).examinable k = s.examinable k := by
  have same : (s.popFetched q).queue k = s.queue k := State.queue_modQueue_other _ _ _ _ other
  unfold State.examinable State.reserved
  rw [same]
  rfl

section
variable {s : State} {q : QueueId} {f : Cmd}
  (first : s.cmds.find? (fun c => decide (c.ref.q = q) && decide (c.work = .fence)) = some f)
include first

theorem execFenceComplete_due (earliest : ∀ c ∈ s.cmds, c.ref.q = q → f.seq ≤ c.seq) :
    execFenceComplete q s = .next (s.complete f .ok 0 0) := by
  unfold execFenceComplete
  rw [first]
  refine if_neg fun early => ?_
  obtain ⟨c, hc, hseq⟩ := List.any_eq_true.1 early
  simp only [Bool.and_eq_true, decide_eq_true_eq] at hseq
  exact absurd (earliest c hc hseq.1) (Nat.not_le.2 hseq.2)

theorem execFenceComplete_early (early : ∃ c ∈ s.cmds, c.ref.q = q ∧ c.seq < f.seq) : execFenceComplete q s = .next s := by
  obtain ⟨c, hc, hq, hseq⟩ := early
  unfold execFenceComplete
  rw [first]
  exact if_pos (List.any_eq_true.2 ⟨c, hc, by simp [hq, hseq]⟩)

end

theorem execFenceComplete_none {s : State} {q : QueueId} (none' : ∀ c ∈ s.cmds, c.ref.q = q → c.work ≠ .fence) :
    execFenceComplete q s = .next s := by
  have absent : s.cmds.find? (fun c => decide (c.ref.q = q) && decide (c.work = .fence)) = none :=
    List.find?_eq_none.2 fun c hc => by simpa using none' c hc
  unfold execFenceComplete
  rw [absent]

/-- Settles O27: a FENCE completes by the commands before it, and blocks its own queue alone. -/
theorem fenceWaitsForEarlierCommands : Obligations.FenceWaitsForEarlierCommands := by
  refine ⟨fun s q p h bare => ?_, fun s q f host lone own first => ⟨fun earliest => ?_, fun early => ?_⟩,
    fun s q none' => execFenceComplete_none none', fun s q p => ?_, fun s q k p hq hk other => ?_⟩
  · exact congrArg Host.Outcome.next ((State.packetRow_offers h.2.2 effFence).trans (effFence_bare bare q _))
  · exact ⟨_, execFenceComplete_due first earliest, Ends.complete host lone .ok 0 0⟩
  · exact execFenceComplete_early first early
  · exact (s.popFetched q).examinable_enrol_blocked (c := mkCmd s q p true .fence) rfl
  · rw [State.examinable_enrol_other _ (c := mkCmd s q p true .fence) (fun same => other same.symm)]
    exact s.examinable_popFetched_other fun same => other (qIdx_inj hk same)

end Sys2Proof.Machine
end

/-! ## STATS_READ (R107, R112, R155, R197) -/
section
namespace Sys2Proof.Machine

/-- A change of physical arrays that moves no spare reaches the arrays of the state before. -/
theorem State.each_modArr_phys {α : Type} (s : State) (l : List α) (crew i : α → Nat) (f : α → Arr → Arr) :
    s.each l (fun t x => t.modArr (t.physArr (crew x) (i x)) (f x)) = s.each l (fun t x => t.modArr (s.physArr (crew x) (i x)) (f x)) := by
  have upTo (l : List α) (t : State) (crews : t.crews = s.crews) :
      t.each l (fun t x => t.modArr (t.physArr (crew x) (i x)) (f x)) = t.each l (fun t x => t.modArr (s.physArr (crew x) (i x)) (f x)) := by
    induction l generalizing t with
    | nil => rfl
    | cons x l ih =>
      have at' : t.physArr (crew x) (i x) = s.physArr (crew x) (i x) := by simp only [State.physArr, State.crew, crews]
      rw [State.each_cons, State.each_cons, at']
      exact ih _ crews
  exact upTo l s rfl

/-- Clearing twice is clearing once. -/
theorem Arr.foldl_clearStats (l : List Nat) (x : Arr) :
    l.foldl (fun x _ => x.clearStats) x = if l = [] then x else x.clearStats := by
  have again (l : List Nat) : l.foldl (fun x _ => x.clearStats) x.clearStats = x.clearStats := by
    induction l with
    | nil => rfl
    | cons k l ih => exact ih
  cases l with
  | nil => rfl
  | cons k l => exact again l

theorem State.statClear_arrays (s : State) (c : Nat) :
    s.statClear c 1 = s.each (s.ctxArrays c) (fun t k => t.modArr (s.physArr (k / 16) (k % 16)) Arr.clearStats) :=
  s.each_modArr_phys (s.ctxArrays c) (· / 16) (· % 16) (fun _ => Arr.clearStats)

theorem State.arr_statClear (s : State) (c a : Nat) : (s.statClear c 1).arr a
    = if (s.ctxArrays c).filter (fun k => s.physArr (k / 16) (k % 16) == a) = [] then s.arr a else (s.arr a).clearStats := by
  rw [State.statClear_arrays, State.arr_each_foldl (fun k => s.physArr (k / 16) (k % 16)) (fun _ => Arr.clearStats),
    Arr.foldl_clearStats]

theorem State.arr_statClear_own (s : State) {c k : Nat} (hk : k ∈ s.ctxArrays c) :
    (s.statClear c 1).arr (s.physArr (k / 16) (k % 16)) = (s.arr (s.physArr (k / 16) (k % 16))).clearStats := by
  rw [State.arr_statClear, if_neg]
  exact List.ne_nil_of_mem (List.mem_filter.2 ⟨hk, beq_self_eq_true _⟩)

theorem State.arr_statClear_other (s : State) {c a : Nat} (other : ∀ k ∈ s.ctxArrays c, s.physArr (k / 16) (k % 16) ≠ a) :
    (s.statClear c 1).arr a = s.arr a := by
  rw [State.arr_statClear, if_pos]
  exact List.filter_eq_nil_iff.2 fun k hk => by simpa using other k hk

theorem State.statClear_arrays_frame (s : State) (c : Nat) : s.statClear c 1 = { s with arrs := (s.statClear c 1).arrs } := by
  rw [State.statClear_arrays]
  exact s.each_modArr_frame (s.ctxArrays c) (fun k => s.physArr (k / 16) (k % 16)) (fun _ => Arr.clearStats)

theorem State.statClear_slots (s : State) (c : Nat) : s.statClear c 2 = s.modCtx c (fun x => { x with slots := [] }) := rfl
theorem State.statClear_drops (s : State) (c : Nat) : s.statClear c 3 = { s with env := { s.env with p2pDrop := 0 } } := rfl

/-- STATS_READ before its answer: the statistics lie in host memory, and CLEAR has cleared them. -/
def State.statsRead (s : State) (p : Packet) (a c sel : Nat) : State :=
  let u := s.writeHost a (s.statBytes c sel)
  if p.clear then u.statClear c sel else u

theorem State.statsRead_kept (s : State) {p : Packet} (keep : p.clear = false) (a c sel : Nat) :
    s.statsRead p a c sel = s.writeHost a (s.statBytes c sel) := if_neg (Bool.eq_false_iff.1 keep)
theorem State.statsRead_cleared (s : State) {p : Packet} (clear : p.clear = true) (a c sel : Nat) :
    s.statsRead p a c sel = (s.writeHost a (s.statBytes c sel)).statClear c sel := if_pos clear

theorem State.host_statClear (s : State) (c : Nat) {sel : Nat} (legal : sel = 1 ∨ sel = 2 ∨ sel = 3) : (s.statClear c sel).host = s.host := by
  obtain rfl | rfl | rfl := legal
  · rw [State.statClear_arrays_frame]
  · rfl
  · rfl

theorem State.host_statsRead (s : State) (p : Packet) (a c : Nat) {sel : Nat} (legal : sel = 1 ∨ sel = 2 ∨ sel = 3) :
    (s.statsRead p a c sel).host = Memory.writeBytes s.host a (s.statBytes c sel) := by
  by_cases clear : p.clear = true
  · rw [State.statsRead_cleared s clear, State.host_statClear _ _ legal]
    rfl
  · rw [State.statsRead_kept s (Bool.eq_false_iff.2 clear)]
    rfl

section
variable {q : QueueId} {p : Packet} {a : Nat} (result : p.hostResult = some a) (s : State)
include result

theorem effStatsRead_fits (legal : p.param 32 1 = 1 ∨ p.param 32 1 = 2 ∨ (p.param 32 1 = 3 ∧ q = .admin))
    (fits : (s.statBytes (ctxOf q p) (p.param 32 1)).length ≤ p.length) : effStatsRead q p s =
      (s.statsRead p a (ctxOf q p) (p.param 32 1)).done q p .ok (s.statBytes (ctxOf q p) (p.param 32 1)).length 0 := by
  unfold effStatsRead
  rw [result]
  refine if_neg ?_
  obtain sel | sel | ⟨sel, rfl⟩ := legal <;> simpa [sel] using fits

theorem effStatsRead_short (short : p.length < (s.statBytes (ctxOf q p) (p.param 32 1)).length) :
    effStatsRead q p s = s.reply q p .badParam 0 0 0 := by
  unfold effStatsRead
  rw [result]
  exact if_pos (by simp [short])

end

theorem length_flatMap_size {α : Type} {n : Nat} {g : α → List Byte} (size : ∀ x, (g x).length = n) (l : List α) :
    (l.flatMap g).length = l.length * n := by
  rw [List.flatMap_def, length_flatten_size fun e he => ?_, List.length_map]
  obtain ⟨x, -, rfl⟩ := List.mem_map.1 he
  exact size x

theorem State.length_statRecord (s : State) (k : Nat) : (s.statRecord k).length = 24 := by simp [State.statRecord]
theorem Slot.length_bytes (x : Slot) : x.bytes.length = 16 := by simp [Slot.bytes]

theorem State.length_statBytes (s : State) (c : Nat) : (s.statBytes c 1).length = 24 * (s.ctxArrays c).length
    ∧ (s.statBytes c 2).length = 4096 ∧ (s.statBytes c 3).length = 4 := by
  refine ⟨?_, ?_, ?_⟩
  · exact (length_flatMap_size s.length_statRecord _).trans (Nat.mul_comm _ _)
  · exact (length_flatMap_size (fun i => Slot.length_bytes _) _).trans (by rw [List.length_range])
  · exact length_leBytes 4 _

/-- Settles O10: what is read by selection, what CLEAR clears by what it changes. -/
theorem statsReadReturnsAndClears : Obligations.StatsReadReturnsAndClears := by
  refine ⟨fun s q p a h result legal => ⟨fun fits => ?_, fun short => ?_⟩, State.length_statBytes⟩
  · have sel : p.param 32 1 = 1 ∨ p.param 32 1 = 2 ∨ p.param 32 1 = 3 := legal.imp_right (Or.imp_right And.left)
    have host := (s.popFetched q).host_statsRead p a (ctxOf q p) sel
    obtain ⟨t, row, answered⟩ := h.completes (f := effStatsRead) (effStatsRead_fits result (s.popFetched q) legal fits)
      (host ▸ Memory.wf_writeBytes a _ h.1)
    refine ⟨t, _, row, answered, host, fun keep => ?_, fun clear one => ?_, fun clear two => ?_, fun clear three => ?_⟩
    · rw [State.statsRead_kept _ keep]
      rfl
    · rw [State.statsRead_cleared _ clear, one]
      generalize hu : (s.popFetched q).writeHost a ((s.popFetched q).statBytes (ctxOf q p) 1) = u
      have arrays : u.ctxArrays (ctxOf q p) = s.ctxArrays (ctxOf q p) := by rw [← hu]; rfl
      have phys : ∀ k l, u.physArr k l = s.physArr k l := by rw [← hu]; exact fun _ _ => rfl
      have same : ∀ b, u.arr b = s.arr b := by rw [← hu]; exact fun _ => rfl
      refine ⟨fun k hk => ?_, fun b other => ?_, ?_⟩
      · rw [← phys, State.arr_statClear_own u (arrays ▸ hk), same]
        rfl
      · rw [State.arr_statClear_other u fun k hk => phys _ _ ▸ other k (arrays ▸ hk), same]
      · rw [u.host_statClear _ (.inl rfl)]
        subst hu
        exact State.statClear_arrays_frame _ _
    · rw [State.statsRead_cleared _ clear, two, State.statClear_slots]
      exact ⟨State.ctx_modCtx_same _ _ _, fun c other => State.ctx_modCtx_other _ _ _ _ other, rfl⟩
    · rw [State.statsRead_cleared _ clear, three, State.statClear_drops]
      rfl
  · exact h.replies (f := effStatsRead) (effStatsRead_short result (s.popFetched q) short)

end Sys2Proof.Machine
end

/-! ## SIGNATURE_DRAIN (R198, R241) -/
section
namespace Sys2Proof.Machine

theorem length_padSig (b : List Byte) : (padSig b).length = 256 := by
  rw [padSig, List.length_take, List.length_append, List.length_replicate]
  omega

/-- SIGNATURE_DRAIN before its answer: the `n` oldest signatures lie in their slots, and have left the store. -/
def State.drainSigs (s : State) (a n : Nat) : State :=
  { s with
    host := Memory.writeBytes s.host a ((s.sig.store.take n).flatMap padSig), sig := { s.sig with store := s.sig.store.drop n } }

section
variable {p : Packet} {a : Nat} (result : p.hostResult = some a) (q : QueueId) (s : State)
include result

theorem effSignatureDrain_slots (slots : p.length % 256 = 0) : effSignatureDrain q p s
    = (s.drainSigs a (p.length / 256)).done q p .ok (min (p.length / 256) s.sig.store.length)
        (s.sig.store.length - min (p.length / 256) s.sig.store.length) := by
  have taken : s.sig.store.take (min (p.length / 256) s.sig.store.length) = s.sig.store.take (p.length / 256) :=
    List.take_eq_take_iff.2 (by omega)
  have left : s.sig.store.drop (min (p.length / 256) s.sig.store.length) = s.sig.store.drop (p.length / 256) := by
    obtain few | many := Nat.le_total (p.length / 256) s.sig.store.length
    · rw [Nat.min_eq_left few]
    · rw [Nat.min_eq_right many, List.drop_length, List.drop_eq_nil_of_le many]
  unfold effSignatureDrain
  rw [result]
  dsimp only
  rw [if_neg (not_not.2 slots), State.sig_writeHost, taken, left]
  rfl

theorem effSignatureDrain_ragged (ragged : p.length % 256 ≠ 0) : effSignatureDrain q p s = s.reply q p .badParam 0 0 0 := by
  unfold effSignatureDrain
  rw [result]
  exact if_pos ragged

end

/-- Slot `i` of drained signatures. -/
theorem Memory.readBytes_slot {m : Memory} (h : Memory.wf m) (a : Nat) {l : List (List Byte)} {i : Nat} {b : List Byte}
    (hb : l[i]? = some b) : Memory.readBytes (Memory.writeBytes m a (l.flatMap padSig)) (a + 256 * i) 256 = padSig b := by
  obtain ⟨hi, rfl⟩ := List.getElem?_eq_some_iff.1 hb
  have size : ∀ e ∈ l.map padSig, e.length = 256 := by
    intro e he
    obtain ⟨b, -, rfl⟩ := List.mem_map.1 he
    exact length_padSig b
  have hi' : i < (l.map padSig).length := by simpa using hi
  have whole := length_flatten_size size
  rw [List.flatMap_def, Memory.readBytes_writeBytes_part h a _ (by rw [whole]; omega), flatten_part size hi', List.getElem_map]

/-- Settles O11: the slots by their place in what is written, the rest of memory by its bounds. -/
theorem signatureDrainTakesTheOldest : Obligations.SignatureDrainTakesTheOldest := by
  intro s q p a h result
  refine ⟨fun slots => ?_, fun ragged => h.replies (f := effSignatureDrain) (effSignatureDrain_ragged result q _ ragged)⟩
  obtain ⟨t, row, answered⟩ := h.completes (f := effSignatureDrain) (effSignatureDrain_slots result q _ slots)
    (Memory.wf_writeBytes a _ h.1)
  refine ⟨t, _, row, answered, rfl, fun i b hi hb => ?_, fun x outside => ?_⟩
  · exact Memory.readBytes_slot h.1 a (by rw [List.getElem?_take_of_lt hi]; exact hb)
  · refine Memory.read_writeBytes_out _ _ _ _ ?_
    have whole : ((s.sig.store.take (p.length / 256)).flatMap padSig).length = 256 * min (p.length / 256) s.sig.store.length := by
      rw [length_flatMap_size length_padSig, List.length_take, Nat.mul_comm]
    exact whole ▸ outside

end Sys2Proof.Machine
end

/-! ## CTX_OPEN (R182, R186) -/
section
namespace Sys2Proof.Machine

section
variable {p : Packet} (bare : p.noAddrs = true) (q : QueueId) (s : State)
include bare

theorem effCtxOpen_ready (env : s.env.envSet = true) (trim : s.env.trimLoaded = true) (alone : s.parties q .ctxOpen = []) :
    effCtxOpen q p s = (s.openCtx (ctxOf q p)).done q p .ok 0 0 := by
  unfold effCtxOpen
  rw [if_neg (by simp [bare]), if_neg (by simp [env, trim]), State.finish_alone alone]
  rfl

theorem effCtxOpen_early (early : s.env.envSet = false ∨ s.env.trimLoaded = false) : effCtxOpen q p s = s.reply q p .state 0 0 0 := by
  unfold effCtxOpen
  rw [if_neg (by simp [bare]), if_pos (by simpa using early)]

end

/-- Settles O14: the opened context is a new one, and no other has changed. -/
theorem ctxOpenOpens : Obligations.CtxOpenOpens := by
  intro s q p h bare
  refine ⟨fun env trim alone => ?_, fun early => h.replies (f := effCtxOpen) (effCtxOpen_early bare q _ early)⟩
  obtain ⟨t, row, answered⟩ := h.completes (f := effCtxOpen) (effCtxOpen_ready bare q (s.popFetched q) env trim alone) h.1
  obtain ⟨own, others, dev, rest⟩ := (s.popFetched q).openCtx_frame (ctxOf q p)
  exact ⟨t, _, row, answered, own, by rw [own]; rfl, by rw [own]; rfl, by rw [own]; rfl, fun i => by rw [own]; rfl, others, dev, rest⟩

end Sys2Proof.Machine
end

/-! ## CTX_CLOSE and its completion (R161, R182, R185, R187) -/
section
namespace Sys2Proof.Machine

/-- The context of a CTX_CLOSE that waits: CLOSING, its batch closed. -/
def Ctx.closing (r : CmdRef) (x : Ctx) : Ctx := { x with st := .closing, batch := none, closeCmd := some r }

/-- A CTX_CLOSE in flight, before the check of a swing whose drain waited for the batch. -/
def State.beginClose (s : State) (q : QueueId) (p : Packet) : State :=
  (s.modCtx (ctxOf q p) (Ctx.closing ⟨q, p.tag⟩)).enrol (mkCmd s q p false .close)

theorem effCtxClose_bare {q : QueueId} {p : Packet} (bare : p.noAddrs = true) {s : State} (alone : s.parties q .ctxClose = []) :
    effCtxClose q p s = (s.beginClose q p).swingCheck (ctxOf q p) := by
  have launched := State.launch_alone (s := s.modCtx (ctxOf q p) (Ctx.closing ⟨q, p.tag⟩)) (o := .ctxClose)
    (c := mkCmd s q p false .close) ((State.parties_congr rfl rfl q .ctxClose).trans alone) rfl noExtra
  unfold effCtxClose State.beginClose
  rw [if_neg (by simp [bare]), ← launched]
  rfl

/-- From `s` to `t` context `c` may have given up what it holds: crews, arrays and the bow table may have changed, and of the contexts
`c` alone, which has kept its state, its statistics slots and its CTX_CLOSE. -/
structure GivesUp (c : Nat) (s t : State) : Prop where
  rest : t = { s with
    ctxs := t.ctxs, crews := t.crews, arrs := t.arrs, bowW := t.bowW, censusQ := t.censusQ, refreshQ := t.refreshQ }
  own : (t.ctx c).freed = (s.ctx c).freed
  others : ∀ k, k ≠ c → t.ctx k = s.ctx k

namespace GivesUp

variable {c : Nat} {s t u : State}

theorem refl (c : Nat) (s : State) : GivesUp c s s := ⟨rfl, rfl, fun _ _ => rfl⟩

theorem trans (h : GivesUp c s t) (k : GivesUp c t u) : GivesUp c s u := by
  refine ⟨?_, k.own.trans h.own, fun n away => (k.others n away).trans (h.others n away)⟩
  rw [k.rest, h.rest]

theorem cmds (h : GivesUp c s t) : t.cmds = s.cmds := (congrArg State.cmds h.rest :)
theorem dev (h : GivesUp c s t) : t.dev = s.dev := (congrArg State.dev h.rest :)
theorem host (h : GivesUp c s t) : t.host = s.host := (congrArg State.host h.rest :)

/-- A change of units that are no contexts. -/
theorem units (h : t = { s with crews := t.crews, arrs := t.arrs, bowW := t.bowW, censusQ := t.censusQ, refreshQ := t.refreshQ }) :
    GivesUp c s t := by
  have same : t.ctxs = s.ctxs := (congrArg State.ctxs h :)
  refine ⟨h.trans (by rw [same]), ?_, fun k _ => State.ctx_of_ctxs same k⟩
  rw [State.ctx_of_ctxs same c]

theorem each {α : Type} {f : State → α → State} (h : GivesUp c s t) (l : List α)
    (step : ∀ u x, GivesUp c s u → GivesUp c s (f u x)) : GivesUp c s (t.each l f) := State.each_keeps l h step

end GivesUp

/-- No REFRESH and no CENSUS is in flight. -/
def State.untreating (s : State) : Prop := ∀ y ∈ s.cmds, y.pkt.opcode ≠ 0x33 ∧ y.pkt.opcode ≠ 0x34

theorem State.arrayOut_none {s : State} {op : Nat} (none' : ∀ y ∈ s.cmds, y.pkt.opcode ≠ op) (f : Work → Work) : s.arrayOut op f = s := by
  have same : s.cmds.map (fun (c : Cmd) => if c.pkt.opcode = op then { c with work := f c.work } else c) = s.cmds :=
    (List.map_congr_left fun y hy => if_neg (none' y hy)).trans (List.map_id' _)
  have none : s.cmds.filter (fun (c : Cmd) => c.pkt.opcode = op) = [] := List.filter_eq_nil_iff.2 fun y hy => by simpa using none' y hy
  unfold State.arrayOut
  dsimp only
  rw [same, none, State.each_nil]

/-- An array leaves the queues of its treatments; with no treatment in flight no command notices. -/
theorem State.untreat_idle {s : State} (idle : s.untreating) (a : Nat) : s.untreat a = { s with
    censusQ := s.censusQ.filter (· ≠ a), refreshQ := s.refreshQ.filter (· ≠ a) } := by
  have noRefresh := State.arrayOut_none (s := { s with
    censusQ := s.censusQ.filter (· ≠ a), refreshQ := s.refreshQ.filter (· ≠ a) }) (fun y hy => (idle y hy).1) (Work.skip a)
  have noCensus := State.arrayOut_none (s := { s with
    censusQ := s.censusQ.filter (· ≠ a), refreshQ := s.refreshQ.filter (· ≠ a) }) (fun y hy => (idle y hy).2) (Work.skip a)
  unfold State.untreat
  dsimp only
  rw [noRefresh, noCensus]

theorem GivesUp.freeGen {s : State} (idle : s.untreating) (c : Nat) (g : Generation) : GivesUp c s (s.freeGen c g) := by
  have pages : GivesUp c s (s.freePages c g.gen g.assigns true) := .units (by rw [State.freePages_frame])
  have arrays := pages.each (f := fun u y => (u.modArr (u.physArr y.crew y.l) Arr.release).untreat (u.physArr y.crew y.l)) g.assigns
    fun u y h => by
      have idle' : (u.modArr (u.physArr y.crew y.l) Arr.release).untreating := fun z hz => idle z (h.cmds ▸ hz)
      rw [State.untreat_idle idle']
      exact h.trans (.units rfl)
  exact arrays.trans (.units rfl)

/-- The abort of a pitch gives up what the pitch holds; a closing context stays CLOSING. -/
theorem GivesUp.abortPitch {s : State} {c : Nat} (closing : (s.ctx c).st = .closing) : GivesUp c s (s.abortPitch c false) := by
  refine ⟨by rw [State.abortPitch_frame], ?_, fun k away => ?_⟩
  · cases pitch : (s.ctx c).pitch with
    | none => rw [State.abortPitch_none false pitch]
    | some pt =>
      rw [State.ctx_abortPitch_same false pitch]
      simp [Ctx.freed, Ctx.abort, closing]
  · cases pitch : (s.ctx c).pitch with
    | none => rw [State.abortPitch_none false pitch]
    | some pt => exact State.ctx_abortPitch_other false pitch away

section
variable {s : State} {c : Nat}
  (pitch : ∀ pt, (s.ctx c).pitch = some pt → pt.exec = none ∧ pt.commit = none)
  (quiet : ∀ y ∈ s.cmds, y.isShard c = false ∧ y.pkt.opcode ≠ 0x33 ∧ y.pkt.opcode ≠ 0x34 ∧ y.pkt.opcode ≠ 0x10)
include pitch quiet

/-- With none of its commands in flight, a context that closes aborts its pitch, and completes none by it. -/
theorem State.closeCtx_eq : s.closeCtx c = ((((s.abortPitch c false).each (s.ctx c).gens (fun u g => u.freeGen c g)).each
    (s.ctx c).pairs (fun u p => (u.modCrew p.1 Crew.unreserve).modCrew p.2 Crew.unreserve)).modCtx c Ctx.freed) := by
  unfold State.closeCtx
  cases h : (s.ctx c).pitch with
  | none => simp only [h, State.abortPitch_none false h]
  | some pt =>
    obtain ⟨exec, commit⟩ := pitch pt h
    have aborts := State.abortWith_idle h exec commit (fun x hx => ⟨(quiet x hx).1, .inr (quiet x hx).2.2.2⟩) false .state
      .shardMissing .state
    rw [State.abortWith_eq h] at aborts
    simp only [h, aborts]

/-- Steps 2 and 3 of R187: the context keeps its state, its slots and its CTX_CLOSE, and nothing else. -/
theorem State.closeCtx_spec (closing : (s.ctx c).st = .closing) :
    GivesUp c s (s.closeCtx c) ∧ (s.closeCtx c).ctx c = (s.ctx c).freed := by
  have idle : s.untreating := fun y hy => ⟨(quiet y hy).2.1, (quiet y hy).2.2.1⟩
  have gens := (GivesUp.abortPitch closing).each (f := fun u g => u.freeGen c g) (s.ctx c).gens fun u g h =>
    h.trans (.freeGen (fun y hy => idle y (h.cmds ▸ hy)) c g)
  have pairs := gens.each (f := fun u p => (u.modCrew p.1 Crew.unreserve).modCrew p.2 Crew.unreserve) (s.ctx c).pairs fun u p h =>
    h.trans (.units rfl)
  rw [State.closeCtx_eq pitch quiet]
  refine ⟨pairs.trans ⟨rfl, ?_, fun k away => State.ctx_modCtx_other _ _ _ _ away⟩, ?_⟩
  · rw [State.ctx_modCtx_same]
    rfl
  · rw [State.ctx_modCtx_same, pairs.own]

end

/-- CTX_CLOSE taking hold: the context is CLOSED with its slots; an ACTIVE device with no other context open is READY. -/
theorem State.shutCtx_frame (s : State) (c : Nat) :
    (s.shutCtx c).ctx c = { Ctx.reset with slots := (s.ctx c).slots } ∧ (∀ k, k ≠ c → (s.shutCtx c).ctx k = s.ctx k)
      ∧ (s.shutCtx c).host = s.host :=
  ⟨State.ctx_modCtx_same s c (fun x => { Ctx.reset with slots := x.slots }),
    fun k away => State.ctx_modCtx_other s k c (fun x => { Ctx.reset with slots := x.slots }) away, rfl⟩

theorem State.dev_shutCtx (s : State) (c : Nat) : (s.shutCtx c).dev = { s.dev with
    st := if s.dev.st = .active && (List.range 16).all (fun k => ((s.shutCtx c).ctx k).st = .closed) then .ready else s.dev.st } := rfl

theorem State.dev_shutCtx_last {s : State} {c : Nat} (active : s.dev.st = .active)
    (last : ∀ k, k < 16 → k ≠ c → (s.ctx k).st = .closed) : (s.shutCtx c).dev = { s.dev with st := .ready } := by
  obtain ⟨own, others, -⟩ := s.shutCtx_frame c
  have all : (List.range 16).all (fun k => ((s.shutCtx c).ctx k).st = .closed) = true := by
    refine List.all_eq_true.2 fun k hk => decide_eq_true ?_
    by_cases here : k = c
    · rw [here, own]
      rfl
    · rw [others k here]
      exact last k (List.mem_range.1 hk) here
  rw [State.dev_shutCtx, all, active]
  rfl

theorem State.dev_shutCtx_other {s : State} {c k : Nat} (hk : k < 16) (away : k ≠ c) (held : (s.ctx k).st ≠ .closed) :
    (s.shutCtx c).dev = s.dev := by
  have some' : (List.range 16).all (fun k => ((s.shutCtx c).ctx k).st = .closed) = false := by
    refine List.all_eq_false.2 ⟨k, List.mem_range.2 hk, ?_⟩
    rw [(s.shutCtx_frame c).2.1 k away]
    simpa using held
  rw [State.dev_shutCtx, some', Bool.and_false]
  rfl

theorem execCtxCloseComplete_waits {s : State} {c : Fin 16} (waits : s.closeWaits c.val = true) :
    execCtxCloseComplete c s = .next s := if_pos (by simp [waits])

theorem execCtxCloseComplete_due {s : State} {c : Fin 16} {r : CmdRef} {x : Cmd} (closing : (s.ctx c.val).st = .closing)
    (up : s.dev.st ≠ .safe) (due : s.closeWaits c.val = false) (command : (s.ctx c.val).closeCmd = some r) (found : s.cmd? r = some x)
    (open' : x.localEnd = none) : execCtxCloseComplete c s = .next ((s.closeCtx c.val).complete x .ok 0 0) := by
  unfold execCtxCloseComplete
  rw [if_neg (by simp [closing, up, due]), command, Option.bind_some, found]
  simp [open']

/-- Settles O15: a CTX_CLOSE waits in its context; what completes it frees that context alone. -/
theorem ctxCloseClosesWhenItsCommandsAreDone : Obligations.CtxCloseClosesWhenItsCommandsAreDone := by
  refine ⟨fun s q p h bare alone => ?_, fun s c r x host closing up due command found alone opcode own open' pitch quiet => ?_,
    fun s c waits => execCtxCloseComplete_waits waits⟩
  · have effect := effCtxClose_bare bare (s := s.popFetched q) ((State.parties_congr rfl rfl q .ctxClose).trans alone)
    have ctx : ((s.popFetched q).beginClose q p).ctx (ctxOf q p) = (s.ctx (ctxOf q p)).closing ⟨q, p.tag⟩ :=
      State.ctx_modCtx_same (s.popFetched q) _ (Ctx.closing ⟨q, p.tag⟩)
    refine ⟨_, (s.popFetched q).beginClose q p, congrArg Host.Outcome.next ((State.packetRow_offers h.2.2 effCtxClose).trans effect), rfl, ctx,
      fun k away => State.ctx_modCtx_other (s.popFetched q) k _ (Ctx.closing ⟨q, p.tag⟩) away, rfl, fun still => State.swingCheck_still ?_⟩
    rw [ctx]
    exact still
  · obtain ⟨freed, own'⟩ := State.closeCtx_spec pitch quiet closing
    have held : (s.closeCtx c.val).heldFor x .ok = (s.closeCtx c.val).shutCtx c.val := by
      have ref : x.ref = r := by simpa using List.find?_some found
      rw [State.heldFor_ok, opcode, ref, own]
      rfl
    obtain ⟨closed, others, host'⟩ := (s.closeCtx c.val).shutCtx_frame c.val
    have slots : ((s.closeCtx c.val).ctx c.val).slots = (s.ctx c.val).slots := by rw [own']; rfl
    refine ⟨_, (s.closeCtx c.val).shutCtx c.val, execCtxCloseComplete_due closing up due command found open',
      held ▸ Ends.complete_alone (freed.host ▸ host) alone .ok 0 0, by rw [closed, slots], by rw [closed]; rfl,
      fun k away => (others k away).trans (freed.others k away), host'.trans freed.host, fun active last => ?_, fun active held => ?_⟩
    · rw [State.dev_shutCtx_last (freed.dev ▸ active) fun k hk away => by rw [freed.others k away]; exact last k hk away, freed.dev]
    · obtain ⟨k, hk, away, open'⟩ := held
      rw [State.dev_shutCtx_other hk away (by rw [freed.others k away]; exact open'), freed.dev]

end Sys2Proof.Machine
end

/-! ## A newcomer that needs a benched crew (R234) -/
section
namespace Sys2Proof.Machine

theorem State.ctxs_failCmd (s : State) (r : CmdRef) (st : Status) : (s.failCmd r st).ctxs = s.ctxs :=
  (congrArg State.ctxs (State.failCmd_purged s r st).rest :)

/-- A newcomer fails at once where it needs a benched crew, and is in flight where it does not. -/
theorem State.benchCheck_enrol {s : State} {c : Cmd} (new : ∀ x ∈ s.cmds, x.ref ≠ c.ref) :
    (s.enrol c).benchCheck c.ref = if (s.enrol c).benchedFor c then (s.enrol c).failCmd c.ref .checkFail else s.enrol c := by
  rw [State.benchCheck, State.cmd?_enrol new]

/-- With no swing in progress, the admission of a command ends there. -/
theorem State.settle_benchCheck_enrol {s : State} (still : ∀ k, k < 16 → (s.ctx k).swingCmd = none) {c : Cmd}
    (new : ∀ x ∈ s.cmds, x.ref ≠ c.ref) :
    ((s.enrol c).benchedFor c = false → ((s.enrol c).benchCheck c.ref).settle = s.enrol c)
    ∧ ((s.enrol c).benchedFor c = true → ((s.enrol c).benchCheck c.ref).settle = (s.enrol c).failCmd c.ref .checkFail) := by
  rw [State.benchCheck_enrol new]
  refine ⟨fun free => ?_, fun benched => ?_⟩
  · rw [if_neg (Bool.eq_false_iff.1 free)]
    exact State.settle_still_of_ctxs still rfl
  · rw [if_pos benched]
    exact State.settle_still_of_ctxs still (State.ctxs_failCmd _ _ _)

end Sys2Proof.Machine
end

/-! ## RUN (R126, R162, R188, R194) -/
section
namespace Sys2Proof.Machine

/-- The state of a RUN that has joined its batch. -/
def State.joinBatch (s : State) (c : Nat) (p : Packet) (gen : Nat) : State := s.modCtx c (fun x => { x with batch := batchAfter p gen })

theorem State.swingCmd_joinBatch (s : State) (c : Nat) (p : Packet) (gen k : Nat) :
    ((s.joinBatch c p gen).ctx k).swingCmd = (s.ctx k).swingCmd := by
  by_cases here : k = c
  · rw [here, State.joinBatch, State.ctx_modCtx_same]
  · rw [State.joinBatch, State.ctx_modCtx_other _ _ _ _ here]

/-- The command of an admitted RUN. -/
def runCmd (s : State) (q : QueueId) (p : Packet) (gen : Nat) (ly : Layer) : Cmd :=
  { mkCmd s q p false (.run (RunWork.start (p.param 32 2) ly (ly.vectors p) (ly.bucketsOf p))) with gen := gen }

section
variable {s : State} {q : QueueId} {p : Packet}

theorem effRun_unstamped (stamp : (s.ctx (ctxOf q p)).stamp p.epoch = none) : effRun none q p s = s.replyGen 0 q p .state 0 0 0 := by
  unfold effRun
  simp only [Option.none_or, stamp, Option.getD_none]

section
variable {gen : Nat} {g : Generation} (stamp : (s.ctx (ctxOf q p)).stamp p.epoch = some gen)
  (generation : (s.ctx (ctxOf q p)).generation gen = some g)
include stamp generation

theorem effRun_misshapen {st : Status} (shape : g.man.shapeCheck p = some st) : effRun none q p s = s.replyGen 0 q p st 0 0 0 := by
  unfold effRun
  simp only [Option.none_or, stamp, generation, shape, Option.getD_none]

variable (shape : g.man.shapeCheck p = none) (alone : s.parties q .run = [])
include shape alone

/-- A RUN of a good shape, on a device that forwards nothing. -/
theorem effRun_shaped : effRun none q p s =
    if (g.man.layer (p.param 32 2)).shapeEmpty p then (s.joinBatch (ctxOf q p) p gen).runEmpty q p gen []
    else if !s.rangeCheck (ctxOf q p) (g.man.layer (p.param 32 2)) p then s.replyGen 0 q p .badParam 0 0 0
    else (((s.joinBatch (ctxOf q p) p gen).enrol (runCmd s q p gen (g.man.layer (p.param 32 2)))).benchCheck ⟨q, p.tag⟩).settle := by
  have none' : ∀ all, s.runMembers q p gen all = [] := fun all => by rw [State.runMembers, alone, List.filter_nil]
  unfold effRun
  simp only [Option.none_or, stamp, generation, shape, none', Option.getD_none]
  rfl

end

/-- A RUN that has nothing to do is answered at once. -/
theorem State.runEmpty_alone (host : Memory.wf s.host) (ring : q.isRing = true) (still : ∀ k, k < 16 → (s.ctx k).swingCmd = none)
    (gen : Nat) : s.runEmpty q p gen [] = s.done q p .okEmpty 0 0 := by
  have answered := Answered.done host ring p .okEmpty 0 0
  unfold State.runEmpty
  rw [if_pos rfl, State.replyGen_ring ring]
  exact State.settle_still_of_ctxs still (congrArg State.ctxs answered.rest :)

end

/-- Settles O22: the stamp, the shape, the empty shape and the addresses in their order, then the admission. -/
theorem runIsAdmittedWithItsStamp : Obligations.RunIsAdmittedWithItsStamp := by
  intro s q p h alone c
  have alone' : (s.popFetched q).parties q .run = [] := (State.parties_congr rfl rfl q .run).trans alone
  have refused (st : Status) (effect : effRun none q p (s.popFetched q) = (s.popFetched q).replyGen 0 q p st 0 0 0) :
      ∃ t, exec (.run q) s = .next t ∧ Answered (s.popFetched q) t q p st 0 0 0 :=
    h.replies (f := effRun none) (effect.trans (State.replyGen_ring h.2.1 ..))
  refine ⟨fun stamp => refused .state (effRun_unstamped stamp), fun gen g stamp generation => ⟨fun st shape =>
    refused st (effRun_misshapen (s := s.popFetched q) stamp generation shape), fun shape still => ?_⟩⟩
  intro ly b cmd
  have still' : ∀ k, k < 16 → (b.ctx k).swingCmd = none := fun k hk =>
    ((s.popFetched q).swingCmd_joinBatch c p gen k).trans (still k hk)
  have effect := effRun_shaped (s := s.popFetched q) stamp generation shape alone'
  have row : exec (.run q) s = .next (effRun none q p (s.popFetched q)) :=
    congrArg Host.Outcome.next (State.packetRow_offers h.2.2 (effRun none))
  refine ⟨fun empty => ?_, fun real misplaced => ?_, fun real placed new => ?_⟩
  · rw [if_pos empty] at effect
    exact h.completes (f := effRun none) (effect.trans (State.runEmpty_alone (s := b) h.1 h.2.1 still' gen)) h.1
  · have fails : (!(s.popFetched q).rangeCheck c ly p) = true := congrArg not misplaced
    rw [if_neg (Bool.eq_false_iff.1 real), if_pos fails] at effect
    exact refused .badParam effect
  · have passes : (!(s.popFetched q).rangeCheck c ly p) = false := congrArg not placed
    rw [if_neg (Bool.eq_false_iff.1 real), if_neg (Bool.eq_false_iff.1 passes)] at effect
    rw [row, effect]
    have admitted := State.settle_benchCheck_enrol (s := b) still' (c := cmd) new
    exact ⟨fun free => congrArg Host.Outcome.next (admitted.1 free), fun benched => congrArg Host.Outcome.next (admitted.2 benched)⟩

end Sys2Proof.Machine
end

/-! ## RUN_BOW (R123, R162, R195, R211) -/
section
namespace Sys2Proof.Machine

/-- The work of a RUN_BOW that the front end has dispatched. -/
def bowWork (s : State) (c : Nat) (g : Generation) (p : Packet) (ly : Layer) : RunWork :=
  { RunWork.start (p.param 32 2) ly 1 [] with
    dispatched := true, b3 := 1, b2 := 1, toSend := bowTiles g (p.param 32 2) ly, due := bowBlocks ly
    inputs := [(0, p.ext.take p.length)], remote := true, winW := s.bowWin c g.gen (p.param 32 2) }

section
variable {s : State} {q : QueueId} {p : Packet} {g : Generation}
  (generation : (s.ctx (ctxOf q p)).generation (s.ctx (ctxOf q p)).adm = some g)
include generation

theorem effRunBow_misplaced (layer : s.bowLayer (ctxOf q p) g p = none) : effRunBow q p s = s.reply q p .badParam 0 0 0 := by
  unfold effRunBow
  simp only [generation, layer]

theorem effRunBow_layer {ly : Layer} (layer : s.bowLayer (ctxOf q p) g p = some ly) : effRunBow q p s
    = ((s.enrol { mkCmd s q p false (.run (bowWork s (ctxOf q p) g p ly)) with gen := g.gen }).benchCheck ⟨q, p.tag⟩).settle := by
  unfold effRunBow
  simp only [generation, layer]
  rfl

end

/-- Settles O25: the layer by the front end's check, then the admission. -/
theorem runBowIsAdmittedDispatched : Obligations.RunBowIsAdmittedDispatched := by
  intro s q p g h c generation
  refine ⟨fun misplaced => h.replies (f := effRunBow) (effRunBow_misplaced (s := s.popFetched q) generation misplaced),
    fun ly layer still new => ?_⟩
  have row : exec (.runBow q) s = .next (effRunBow q p (s.popFetched q)) :=
    congrArg Host.Outcome.next (State.packetRow_offers h.2.2 effRunBow)
  rw [row, effRunBow_layer (s := s.popFetched q) generation layer]
  refine ⟨bowWork s c g p ly, _, rfl, rfl, rfl, rfl, rfl, rfl, rfl, rfl, rfl, ?_⟩
  have admitted := State.settle_benchCheck_enrol (s := s.popFetched q) still
    (c := { mkCmd s q p false (.run (bowWork s c g p ly)) with gen := g.gen }) new
  exact ⟨fun free => congrArg Host.Outcome.next (admitted.1 free), fun benched => congrArg Host.Outcome.next (admitted.2 benched)⟩

end Sys2Proof.Machine
end

/-! ## The registers of a queue (R168 to R171) -/
section
namespace Sys2Proof.Machine

section
variable {x : Queue} {v : Nat}

theorem Queue.writeTail_taken (enabled : x.enable = true) (inRange : bitsOf v 0 12 < 2 ^ x.size.toNat) :
    x.writeTail v = { x with sqTail := BitVec.ofNat 12 (bitsOf v 0 12) } := by
  simp only [Queue.writeTail, enabled, Bool.not_true, Bool.false_or, decide_eq_true_eq, if_neg (Nat.not_le.2 inRange)]

theorem Queue.writeTail_refused (bad : x.enable = false ∨ 2 ^ x.size.toNat ≤ bitsOf v 0 12) :
    x.writeTail v = { x with dbErr := true } := by
  rw [Queue.writeTail, if_pos (by simpa using bad)]

theorem Queue.writeHead_taken (inRange : bitsOf v 0 12 < 2 ^ x.size.toNat)
    (written : (bitsOf v 0 12 + 2 ^ x.size.toNat - x.cqHead.toNat) % 2 ^ x.size.toNat ≤ x.unread) :
    x.writeHead v = { x with
      cqHead := BitVec.ofNat 12 (bitsOf v 0 12),
      unread := x.unread - (bitsOf v 0 12 + 2 ^ x.size.toNat - x.cqHead.toNat) % 2 ^ x.size.toNat } :=
  if_neg (not_or.2 ⟨Nat.not_le.2 inRange, Nat.not_lt.2 written⟩)

theorem Queue.writeHead_refused (bad : 2 ^ x.size.toNat ≤ bitsOf v 0 12
    ∨ x.unread < (bitsOf v 0 12 + 2 ^ x.size.toNat - x.cqHead.toNat) % 2 ^ x.size.toNat) :
    x.writeHead v = { x with dbErr := true } := if_pos bad

end

/-- A queue with nothing fetched has nothing to sweep. -/
theorem State.sweep_empty {s : State} {q : QueueId} (empty : (s.queue q).fetched = []) : s.sweep q = s := by
  rw [State.sweep, empty]
  rfl

theorem bitOf_eq_testBit (v i : Nat) : bitOf v i = v.testBit i := by
  simp only [bitOf, Nat.testBit_eq_decide_div_mod_eq, beq_eq_decide]

/-- Bits that a mask does not reach read the same. -/
theorem bitsOf_zero_congr {v w len : Nat} (same : ∀ i, i < len → v.testBit i = w.testBit i) : bitsOf v 0 len = bitsOf w 0 len := by
  refine Nat.eq_of_testBit_eq fun i => ?_
  simp only [bitsOf, Nat.pow_zero, Nat.div_one, Nat.testBit_mod_two_pow]
  by_cases h : i < len
  · rw [same i h]
  · simp only [h, decide_false, Bool.false_and]

theorem bitOf_or_enable (v : Dword) : bitOf (v ||| 0x80000000#32).toNat 31 = true := by
  rw [bitOf_eq_testBit, BitVec.toNat_or, Nat.testBit_or, Bool.or_eq_true]
  exact .inr (by decide)

theorem bitOf_and_disable (v : Dword) : bitOf (v &&& 0x7FFFFFFF#32).toNat 31 = false := by
  rw [bitOf_eq_testBit, BitVec.toNat_and, Nat.testBit_and, Bool.and_eq_false_iff]
  exact .inr (by decide)

theorem size_or_enable (v : Dword) : bitsOf (v ||| 0x80000000#32).toNat 0 4 = bitsOf v.toNat 0 4 := by
  refine bitsOf_zero_congr fun i low => ?_
  have clear : ∀ i < 4, Nat.testBit (0x80000000#32).toNat i = false := by decide
  rw [BitVec.toNat_or, Nat.testBit_or, clear i low, Bool.or_false]

theorem size_and_disable (v : Dword) : bitsOf (v &&& 0x7FFFFFFF#32).toNat 0 4 = bitsOf v.toNat 0 4 := by
  refine bitsOf_zero_congr fun i low => ?_
  have full : ∀ i < 4, Nat.testBit (0x7FFFFFFF#32).toNat i = true := by decide
  rw [BitVec.toNat_and, Nat.testBit_and, full i low, Bool.and_true]

/-- The queue with the SIZE that a write of PCI_QCFG takes. -/
def State.sizedQueue (s : State) (q : QueueId) (v : Nat) : Queue :=
  if s.idleQueue q && 6 ≤ bitsOf v 0 4 && bitsOf v 0 4 ≤ 12 then { s.queue q with size := BitVec.ofNat 4 (bitsOf v 0 4) } else s.queue q

section
variable (s : State) (q : QueueId) (v : Nat)

theorem State.sizedQueue_eq : s.sizedQueue q v = { s.queue q with size := (s.sizedQueue q v).size } := by
  unfold State.sizedQueue
  split <;> rfl

theorem State.size_sizedQueue :
    (s.sizedQueue q v).size = if s.idleQueue q = true ∧ 6 ≤ bitsOf v 0 4 ∧ bitsOf v 0 4 ≤ 12
      then BitVec.ofNat 4 (bitsOf v 0 4) else (s.queue q).size := by
  rw [State.sizedQueue, apply_ite Queue.size]
  simp only [Bool.and_eq_true, decide_eq_true_eq, and_assoc]

/-- An enabled queue is not idle: its SIZE stays. -/
theorem State.sizedQueue_enabled {s : State} {q : QueueId} (enabled : (s.queue q).enable = true) (v : Nat) :
    s.sizedQueue q v = s.queue q := by
  simp only [State.sizedQueue, State.idleQueue, enabled, Bool.not_true, Bool.false_and, Bool.false_eq_true, if_false]

theorem State.writeQcfg_on (on : bitOf v 31 = true) :
    s.writeQcfg q v = s.setQueue q (if (s.queue q).enable then s.sizedQueue q v else (s.sizedQueue q v).start) := by
  have enable : (s.sizedQueue q v).enable = (s.queue q).enable := by rw [State.sizedQueue_eq]
  rw [← enable, State.writeQcfg, if_pos on]
  rfl

theorem State.writeQcfg_off (off : bitOf v 31 = false) :
    s.writeQcfg q v = s.setQueue q { s.sizedQueue q v with enable := false } := by
  rw [State.writeQcfg, if_neg (Bool.eq_false_iff.1 off)]
  rfl

end

section
variable {s : State} {q : QueueId} (live : s.barLive = true) (ring : q.isRing = true) (v : Dword)
include live ring

theorem exec_sqDoorbell_live : exec (.sqDoorbell q v) s = .next (s.setQueue q ((s.queue q).writeTail v.toNat)) :=
  congrArg Host.Outcome.next (if_pos (by simp only [live, decide_eq_true (QueueId.isRing_iff ring), Bool.and_self]))

theorem exec_cqDoorbell_live : exec (.cqDoorbell q v) s = .next ((s.setQueue q ((s.queue q).writeHead v.toNat)).sweep q) :=
  congrArg Host.Outcome.next (if_pos (by simp only [live, decide_eq_true (QueueId.isRing_iff ring), Bool.and_self]))

theorem exec_queueEnable_live : exec (.queueEnable q v) s = .next (s.writeQcfg q (v ||| 0x80000000#32).toNat) :=
  congrArg Host.Outcome.next (if_pos (by simp only [live, decide_eq_true (QueueId.isRing_iff ring), Bool.and_self]))

theorem exec_queueDisable_live : exec (.queueDisable q v) s = .next (s.writeQcfg q (v &&& 0x7FFFFFFF#32).toNat) :=
  congrArg Host.Outcome.next (if_pos (by simp only [live, decide_eq_true (QueueId.isRing_iff ring), Bool.and_self]))

/-- With no entry fetched, a head write lets none be examined. -/
theorem exec_cqDoorbell_empty {y : Queue} (written : (s.queue q).writeHead v.toNat = y) (empty : y.fetched = []) :
    exec (.cqDoorbell q v) s = .next (s.setQueue q y) := by
  rw [exec_cqDoorbell_live live ring, written, State.sweep_empty (by rw [State.queue_setQueue_same, empty])]

end

/-- Settles O37: a register write is its queue's `writeTail`, `writeHead` or `writeQcfg`, each by its cases. -/
theorem queueRegistersFollowTheirWrites : Obligations.QueueRegistersFollowTheirWrites := by
  unfold Obligations.QueueRegistersFollowTheirWrites
  refine ⟨fun s q v ring live => ⟨fun enabled inRange => ?_, fun bad => ?_, fun empty inRange written => ?_, fun empty bad => ?_, ?_, ?_⟩,
    fun s q v dead => ?_⟩
  · rw [exec_sqDoorbell_live live ring, Queue.writeTail_taken enabled inRange]
  · rw [exec_sqDoorbell_live live ring, Queue.writeTail_refused bad]
  · exact exec_cqDoorbell_empty live ring v (Queue.writeHead_taken inRange written) empty
  · exact exec_cqDoorbell_empty live ring v (Queue.writeHead_refused bad) empty
  · have size := size_or_enable v ▸ s.size_sizedQueue q (v ||| 0x80000000#32).toNat
    refine ⟨_, _, exec_queueEnable_live live ring v, s.writeQcfg_on q _ (bitOf_or_enable v), ?_⟩
    rcases Bool.eq_false_or_eq_true (s.queue q).enable with enabled | disabled
    · rw [if_pos enabled, State.sizedQueue_enabled enabled] at *
      exact ⟨enabled, size, fun h => absurd enabled (Bool.eq_false_iff.1 h), fun _ => rfl, rfl, rfl, rfl⟩
    · rw [if_neg (Bool.eq_false_iff.1 disabled)]
      refine ⟨rfl, size, fun _ => ⟨rfl, rfl, rfl, rfl, rfl⟩, fun h => absurd h (Bool.eq_false_iff.1 disabled), ?_⟩
      rw [State.sizedQueue_eq]
      exact ⟨rfl, rfl, rfl⟩
  · refine ⟨_, _, exec_queueDisable_live live ring v, s.writeQcfg_off q _ (bitOf_and_disable v), ?_, ?_⟩
    · rw [State.sizedQueue_eq]
    · exact size_and_disable v ▸ s.size_sizedQueue q (v &&& 0x7FFFFFFF#32).toNat
  · have shut : ¬ (s.barLive && decide (qIdx q < 33)) = true := by simp only [dead, Bool.false_and, Bool.false_eq_true, not_false_eq_true]
    exact ⟨congrArg Host.Outcome.next (if_neg shut), congrArg Host.Outcome.next (if_neg shut), congrArg Host.Outcome.next (if_neg shut),
      congrArg Host.Outcome.next (if_neg shut)⟩

end Sys2Proof.Machine
end

/-! ## Fetching and sweeping (R170, R181, R222) -/
section
namespace Sys2Proof.Machine

theorem Raised.congr_source {m n t : State} {fn v : Nat} (h : Raised m t fn v) (dev : n.dev = m.dev) (outs : n.outs = m.outs) :
    Raised n t fn v := by
  obtain ⟨faulty, sent, pends⟩ := h
  refine ⟨?_, ?_, ?_⟩
  · rwa [dev, outs]
  · rwa [dev, outs, State.vectorMasked, dev]
  · rwa [dev, outs, State.vectorMasked, dev]

/-- A status entry asks of the rings what each holds, however their table is written. -/
theorem Answered.congr_queues {m n t : State} {q : QueueId} {p : Packet} {st : Status} {mod r0 r1 : Nat}
    (h : Answered m t q p st mod r0 r1) (same : n = { m with queues := n.queues }) (queues : ∀ k, n.queue k = m.queue k) :
    Answered n t q p st mod r0 r1 := by
  have host : n.host = m.host := by rw [same]
  have dev : n.dev = m.dev := by rw [same]
  have outs : n.outs = m.outs := by rw [same]
  have addr : n.statusAddr q = m.statusAddr q := by simp only [State.statusAddr, queues]
  have vector : n.vectorOf q = m.vectorOf q := by simp only [State.vectorOf, dev]
  obtain ⟨entry, others, ring, rest, quiet, loud, whole⟩ := h
  refine ⟨?_, ?_, ?_, fun k other => (rest k other).trans (queues k).symm, ?_, ?_, ?_⟩
  · rw [addr, queues, entry]
  · rw [addr, host]
    exact others
  · rw [queues, ring]
  · rw [outs, dev]
    exact quiet
  · rw [vector]
    exact fun h => (loud h).congr_source dev outs
  · rw [same]
    exact whole

theorem crewHop_parityCrew {s : State} {e : ParityErr} (hop : crewHop (bitsOf e.hop.toNat 12 4) = false) : s.parityCrew e = s :=
  if_neg (Bool.eq_false_iff.1 hop)

/-- A packet with an error in its words, found outside the crews: one signature, and its status. -/
theorem State.packetParity_spec {u : State} (host : Memory.wf u.host) (q : QueueId) (p : Packet) {e : ParityErr}
    (hop : crewHop (bitsOf e.hop.toNat 12 4) = false) :
    ∃ m : State, u.packetParity q p e = m.reply q p .parity 0 0 0 ∧ Memory.wf m.host ∧ m.queues = u.queues
      ∧ Signed u m 0x01 (parityInfo e (qCtx q) (some p.tag.toNat)) ∧ m.cmds = u.cmds ∧ m.ctxs = u.ctxs := by
  have noted (v : State) (wf : Memory.wf v.host) (same : v = { u with host := v.host, free := v.free }) :
      ∃ m : State, ((v.parityNote (qCtx q) (some p.tag.toNat) e).reply q p .parity 0 0 0).parityCrew e = m.reply q p .parity 0 0 0
        ∧ Memory.wf m.host ∧ m.queues = u.queues ∧ Signed u m 0x01 (parityInfo e (qCtx q) (some p.tag.toNat))
        ∧ m.cmds = u.cmds ∧ m.ctxs = u.ctxs := by
    have frame := v.parityNote_frame (qCtx q) (some p.tag.toNat) e
    refine ⟨_, crewHop_parityCrew hop, ?_, ?_, (v.signed_parityNote _ _ e).congr ?_ ?_ ?_, ?_, ?_⟩
    · rw [frame]
      exact wf
    · rw [frame, same]
    · rw [same]
    · rw [same]
    · rw [same]
    · rw [frame, same]
    · rw [frame, same]
  unfold State.packetParity
  cases p.hostResult with
  | none => exact noted u host rfl
  | some a =>
    by_cases egress : bitsOf e.hop.toNat 12 4 = 1
    · simp only [egress, if_true]
      exact noted _ (Memory.wf_writeBytes a _ host) rfl
    · simp only [egress, if_false]
      exact noted u host rfl

/-- Entries that have a row are left to it. -/
theorem State.sweep_known {s : State} {q : QueueId} (known : ∀ p ∈ (s.queue q).fetched, (opOf p.opcode).isSome = true) :
    s.sweep q = s := by
  rw [State.sweep]
  cases hn : (s.queue q).fetched with
  | nil => rfl
  | cons p l =>
    have front : (opOf p.opcode).isSome = true := known p (hn ▸ List.mem_cons_self)
    rw [List.length_cons, State.rejectUnknown, hn]
    simp only [Option.isNone_eq_false_iff.2 front, Bool.false_and, Bool.false_eq_true, if_false]

/-- The answer to the entry at the front of a queue that no row takes (R181 checks 1 and 2, R223). -/
def State.rejectFront (s : State) (q : QueueId) (p : Packet) : State :=
  match p.err with
  | some e => if s.dev.st = .safe ∧ !p.safeOp then (s.popFetched q).reply q p .fault 0 0 0 else (s.popFetched q).packetParity q p e
  | none => (s.popFetched q).reply q p (if s.dev.st = .safe then .fault else .badOpcode) 0 0 0

/-- A sole entry that no row takes is answered at its turn. -/
theorem State.sweep_unknown {s : State} {q : QueueId} {p : Packet} (sole : (s.queue q).fetched = [p]) (unknown : opOf p.opcode = none)
    (turn : s.examinable q = true) : s.sweep q = s.rejectFront q p := by
  have taken : ((opOf p.opcode).isNone && s.examinable q) = true := by rw [unknown, turn]; rfl
  rw [State.sweep, sole, List.length_singleton, State.rejectUnknown, sole]
  exact if_pos taken

/-- The entry at the head of a ring, with `n` extension entries behind it. -/
def State.headEntry (s : State) (q : QueueId) (n : Nat) (err : Option ParityErr) : Packet :=
  ⟨s.sqEntry (s.queue q) (s.queue q).sqHead.toNat,
    (List.range n).flatMap (fun i => s.sqEntry (s.queue q) ((s.queue q).sqHead.toNat + 1 + i)), err⟩

/-- A queue whose head has passed an entry with `n` extension entries. -/
def Queue.passed (x : Queue) (n : Nat) : Queue := { x with sqHead := BitVec.ofNat 12 ((x.sqHead.toNat + 1 + n) % 2 ^ x.size.toNat) }

/-- The state in which the head of a queue has passed such an entry, which is fetched. -/
def State.fetched (s : State) (q : QueueId) (n : Nat) (err : Option ParityErr) : State :=
  s.setQueue q { (s.queue q).passed n with fetched := (s.queue q).fetched ++ [s.headEntry q n err] }

section
variable {s : State} {q : QueueId}

theorem State.fetch_idle (idle : s.serving = false ∨ (s.queue q).enable = false ∨ (s.queue q).avail = 0) (err : Option ParityErr) :
    s.fetch q err = s := by
  rw [State.fetch, if_pos]
  simpa [or_assoc] using idle

section
variable (serving : s.serving = true) (enabled : (s.queue q).enable = true) (waiting : (s.queue q).avail ≠ 0)
  {n : Nat} (ext : extOf q (s.sqEntry (s.queue q) (s.queue q).sqHead.toNat) = n)
include serving enabled waiting ext

theorem State.fetch_uncovered (short : (s.queue q).avail < 1 + n) (err : Option ParityErr) : s.fetch q err = s := by
  subst ext
  rw [State.fetch, if_neg (by simp [serving, enabled, waiting])]
  exact if_pos short

theorem State.fetch_covered (covered : 1 + n ≤ (s.queue q).avail) (err : Option ParityErr) : s.fetch q err = s.fetched q n err := by
  subst ext
  rw [State.fetch, if_neg (by simp [serving, enabled, waiting])]
  exact if_neg (Nat.not_lt.2 covered)

end

theorem State.queue_fetched (s : State) (q : QueueId) (n : Nat) (err : Option ParityErr) :
    (s.fetched q n err).queue q = { (s.queue q).passed n with fetched := (s.queue q).fetched ++ [s.headEntry q n err] } :=
  State.queue_setQueue_same _ _ _

theorem State.examinable_fetched (s : State) (q : QueueId) (n : Nat) (err : Option ParityErr) :
    (s.fetched q n err).examinable q = s.examinable q := by
  unfold State.examinable State.reserved
  rw [State.queue_fetched]
  rfl

/-- A fetched entry that has a row waits for it. -/
theorem State.sweep_fetched {n : Nat} (known : ∀ p ∈ (s.queue q).fetched, (opOf p.opcode).isSome = true)
    (mine : (opOf (field (s.sqEntry (s.queue q) (s.queue q).sqHead.toNat) 0 1)).isSome = true) :
    (s.fetched q n none).sweep q = s.fetched q n none := by
  refine State.sweep_known fun p hp => ?_
  rw [State.queue_fetched] at hp
  obtain earlier | rfl := (List.mem_append.1 hp).imp_right List.mem_singleton.1
  · exact known p earlier
  · exact mine

/-- The fetched entry, taken again, leaves the head past it and no trace else. -/
theorem State.queue_popFetched_fetched (ring : q.isRing = true) (empty : (s.queue q).fetched = []) (n : Nat) (err : Option ParityErr)
    (k : QueueId) : ((s.fetched q n err).popFetched q).queue k = (s.setQueue q ((s.queue q).passed n)).queue k := by
  by_cases mine : k = q
  · subst mine
    rw [State.popFetched, State.queue_modQueue_same, State.queue_fetched, State.queue_setQueue_same, Queue.passed, empty]
    rfl
  · have other : qIdx k ≠ qIdx q := fun same => mine (qIdx_inj (QueueId.isRing_iff ring) same.symm).symm
    rw [State.popFetched, State.queue_modQueue_other _ _ _ _ other, State.fetched, State.queue_setQueue_other _ _ _ _ other,
      State.queue_setQueue_other _ _ _ _ other]

theorem State.setQueue_setQueue_rest (s : State) (q : QueueId) (x y : Queue) :
    s.setQueue q x = { (s.setQueue q y).popFetched q with queues := (s.setQueue q x).queues } := by
  simp only [State.popFetched, State.modQueue, State.setQueue]

/-- The answer to a sole fetched entry, seen from the state whose head has passed it. -/
theorem Answered.popFetched_fetched (host : Memory.wf s.host) (ring : q.isRing = true) (empty : (s.queue q).fetched = []) (n : Nat)
    (err : Option ParityErr) (p : Packet) (st : Status) :
    Answered (s.setQueue q ((s.queue q).passed n)) (((s.fetched q n err).popFetched q).reply q p st 0 0 0) q p st 0 0 0 :=
  (Answered.reply (m := (s.fetched q n err).popFetched q) host ring p st 0 0 0).congr_queues (State.setQueue_setQueue_rest _ _ _ _)
    fun k => (State.queue_popFetched_fetched ring empty n err k).symm

end

/-- No packet with an error in its words has an opcode of the table. -/
theorem opOf_opcode_err (e ext : List Byte) (r : ParityErr) : opOf (Packet.opcode ⟨e, ext, some r⟩) = none := by
  have code : Packet.opcode ⟨e, ext, some r⟩ = 0x100 := rfl
  rw [code]
  rfl

/-- An entry with extension entries is a RUN_BOW. -/
theorem opcode_of_extOf {q : QueueId} {e : List Byte} (h : 1 ≤ extOf q e) : field e 0 1 = 0x21 := by
  unfold extOf at h
  split at h
  · dsimp only at h
    split at h
    · next runBow => exact runBow.1
    · omega
  · omega

theorem State.queue_emit (s : State) (kind : Nat) (i : SigInfo) (k : QueueId) : (s.emit kind i).queue k = s.queue k := by
  rw [State.queue, State.queues_emit, State.queue]

theorem exec_ringReadError_idle {s : State} {q : QueueId}
    (idle : s.serving = false ∨ (s.queue q).enable = false ∨ (s.queue q).avail = 0) : exec (.ringReadError q) s = .next s := by
  refine congrArg Host.Outcome.next (if_neg ?_)
  simp only [Bool.and_eq_true, decide_eq_true_eq]
  rintro ⟨⟨serving, enabled⟩, waiting⟩
  obtain h | h | h := idle
  · rw [serving] at h
    exact nomatch h
  · rw [enabled] at h
    exact nomatch h
  · exact waiting h

end Sys2Proof.Machine
end

section
namespace Sys2Proof.Machine

/-- Settles O38: the fetch takes what the tail covers, and the sweep answers what no row takes. -/
theorem entriesAreFetchedFromTheRing : Obligations.EntriesAreFetchedFromTheRing := by
  unfold Obligations.EntriesAreFetchedFromTheRing
  refine ⟨fun s q canonical ring serving enabled waiting => ?_, fun s q empty idle => ⟨fun err => ?_, exec_ringReadError_idle idle⟩⟩
  · have host : Memory.wf s.host := canonical.host
    intro x e h
    have one : 1 + 0 ≤ (s.queue q).avail := Nat.one_le_iff_ne_zero.2 waiting
    have swept (err : Option ParityErr) (ext : extOf q e = 0) (empty : x.fetched = []) (turn : s.examinable q = true)
        (unknown : opOf (s.headEntry q 0 err).opcode = none) :=
      (congrArg (State.sweep · q) (State.fetch_covered serving enabled waiting ext one err)).trans
        (State.sweep_unknown ((congrArg Queue.fetched (s.queue_fetched q 0 err)).trans (congrArg (· ++ [s.headEntry q 0 err]) empty)) unknown
          ((s.examinable_fetched q 0 err).trans turn))
    refine ⟨fun ext known mine => ?_, fun ext empty unknown turn => ?_, fun n ext extended known => ⟨fun short => ?_, fun covered => ?_⟩,
      fun r ext empty turn safe closed => ?_, fun r ext empty turn hop served => ?_, ?_⟩
    · refine congrArg Host.Outcome.next ?_
      rw [State.fetch_covered serving enabled waiting ext one]
      exact State.sweep_fetched known mine
    · exact ⟨_, congrArg Host.Outcome.next (swept none ext empty turn unknown),
        Answered.popFetched_fetched host ring empty 0 none _ _⟩
    · refine congrArg Host.Outcome.next ?_
      rw [State.fetch_uncovered serving enabled waiting ext short]
      exact State.sweep_known known
    · refine congrArg Host.Outcome.next ?_
      rw [State.fetch_covered serving enabled waiting ext covered]
      refine State.sweep_fetched known ?_
      rw [opcode_of_extOf (q := q) (ext.symm ▸ extended)]
      rfl
    · have row := swept (some r) ext empty turn (opOf_opcode_err _ _ r)
      refine ⟨_, congrArg Host.Outcome.next (row.trans (if_pos ⟨safe, ?_⟩)),
        Answered.popFetched_fetched host ring empty 0 (some r) _ _⟩
      rw [Bool.not_eq_true']
      exact closed
    · have row := swept (some r) ext empty turn (opOf_opcode_err _ _ r)
      obtain ⟨m, answer, wf, queues, signed, cmds, ctxs⟩ := State.packetParity_spec
        (u := (s.fetched q 0 (some r)).popFetched q) host q (s.headEntry q 0 (some r)) hop
      refine ⟨_, m, congrArg Host.Outcome.next (row.trans ((if_neg ?_).trans answer)), Answered.reply wf ring _ _ 0 0 0, ?_,
        signed.congr rfl rfl rfl, cmds, ctxs⟩
      · rintro ⟨safe, closed⟩
        obtain up | passes := served
        · exact up safe
        · rw [Bool.not_eq_true'] at closed
          exact Bool.false_ne_true (closed.symm.trans passes)
      · have ofQueues : m.queue q = ((s.fetched q 0 (some r)).popFetched q).queue q := by rw [State.queue, queues, State.queue]
        rw [ofQueues, State.queue_popFetched_fetched ring empty, State.queue_setQueue_same]
        rfl
    · have ready : (s.serving && x.enable && decide (x.avail ≠ 0)) = true := by
        simp only [serving, show x.enable = true from enabled, decide_eq_true (show x.avail ≠ 0 from waiting), Bool.and_self]
      have signed := (s.setQueue q { x with enable := false, ringErr := true }).signed_emit 0x15
        { ctx := qCtx q, data := leBytes 1 (qKind q) ++ leBytes 1 ((qCtx q).getD 0) }
      have queues := State.queue_emit (s.setQueue q { x with enable := false, ringErr := true }) 0x15
        { ctx := qCtx q, data := leBytes 1 (qKind q) ++ leBytes 1 ((qCtx q).getD 0) }
      have frame := (s.setQueue q { x with enable := false, ringErr := true }).emit_frame 0x15
        { ctx := qCtx q, data := leBytes 1 (qKind q) ++ leBytes 1 ((qCtx q).getD 0) }
      refine ⟨_, congrArg Host.Outcome.next (if_pos ready), ?_, ?_, ?_, fun k _ other => ?_, signed.congr rfl rfl rfl, ?_, ?_, ?_⟩
      · rw [queues, State.queue_setQueue_same]
      · rw [queues, State.queue_setQueue_same]
      · rw [queues, State.queue_setQueue_same]
      · rw [queues]
        exact State.queue_setQueue_other _ _ _ _ fun same => other (qIdx_inj (QueueId.isRing_iff ring) same.symm).symm
      all_goals
        obtain ⟨sig, group, outs, dev, emitted, -⟩ := frame
        rw [emitted]
        rfl
  · refine congrArg Host.Outcome.next ?_
    rw [State.fetch_idle idle, State.sweep_empty empty]

end Sys2Proof.Machine
end

/-! ## Resets and their release (R295 to R299, R310) -/
section
namespace Sys2Proof.Machine

/-- What a reset of the device leaves (R295, R296, R247). -/
theorem State.resetAll_fields (s : State) (cfg link : Bool) : (s.resetAll cfg link).dev.st = .resetHold
    ∧ (s.resetAll cfg link).dev.faultN = true ∧ (s.resetAll cfg link).dev.released = false ∧ (s.resetAll cfg link).dev.strap = 0
    ∧ (s.resetAll cfg link).cmds = [] ∧ (∀ c, ((s.resetAll cfg link).ctx c).st = .closed) ∧ (s.resetAll cfg link).env.trimLoaded = false
    ∧ (s.resetAll cfg link).env.envSet = false ∧ (s.resetAll cfg link).host = s.host ∧ (s.resetAll cfg link).outs = s.outs
    ∧ (s.resetAll cfg link).dev.flash = s.dev.flash := ⟨rfl, rfl, rfl, rfl, rfl, fun _ => rfl, rfl, rfl, rfl, rfl, rfl⟩

/-- Settles O44: each row is `resetAll` of what it asserts, unless the device is OFF or the pulse short. -/
theorem resetsEnterResetHoldAndRelease : Obligations.ResetsEnterResetHoldAndRelease := by
  refine ⟨fun s ns powered => ⟨fun long => ?_, fun short => ?_, ⟨_, rfl, rfl, rfl, rfl, rfl, rfl⟩⟩, fun s ns off => ?_,
    fun s role sb => ⟨fun held safe => ?_, fun held other => ?_, fun released => ?_⟩⟩
  · have pulse : ¬ (decide (s.dev.st = .off) || decide (ns < 200)) = true := by simp [powered, long]
    refine ⟨_, _, _, _, congrArg Host.Outcome.next (if_neg pulse), congrArg Host.Outcome.next (if_neg pulse),
      congrArg Host.Outcome.next (if_neg powered), congrArg Host.Outcome.next (if_neg powered), rfl, rfl, ⟨rfl, rfl, rfl, rfl⟩, ?_⟩
    intro x hx
    simp only [List.mem_cons, List.not_mem_nil, or_false] at hx
    obtain rfl | rfl | rfl | rfl := hx <;> exact State.resetAll_fields _ _ _
  · have pulse : (decide (s.dev.st = .off) || decide (ns < 200)) = true := by simp [short]
    exact ⟨congrArg Host.Outcome.next (if_pos pulse), congrArg Host.Outcome.next (if_pos pulse)⟩
  · have pulse : (decide (s.dev.st = .off) || decide (ns < 200)) = true := by simp [off]
    exact ⟨congrArg Host.Outcome.next (if_pos pulse), congrArg Host.Outcome.next (if_pos pulse), congrArg Host.Outcome.next (if_pos off),
      congrArg Host.Outcome.next (if_pos off)⟩
  · have asserted : (!s.dev.released) = true := by rw [held]; rfl
    have here : (s.dev.st == .safe) = true := by rw [safe]; rfl
    refine ⟨_, if_pos asserted, if_pos here, if_pos here, rfl, rfl, rfl⟩
  · have asserted : (!s.dev.released) = true := by rw [held]; rfl
    have elsewhere : (s.dev.st == .safe) = false := beq_eq_false_iff_ne.2 other
    refine ⟨_, if_pos asserted, if_neg (Bool.eq_false_iff.1 elsewhere), rfl, rfl, rfl, rfl, elsewhere, rfl, rfl, rfl, rfl, rfl⟩
  · have done : ¬ (!s.dev.released) = true := by rw [released]; exact Bool.false_ne_true
    exact if_neg done

end Sys2Proof.Machine
end

/-! ## Virtual functions (R167, R202) -/
section
namespace Sys2Proof.Machine

/-- Setting or clearing bit `n` of 16 sets or clears that bit alone. -/
theorem getLsbD_writeBit (v : BitVec 16) {n : Nat} (hn : n < 16) (on : Bool) (k : Nat) :
    (if on then v ||| BitVec.ofNat 16 (2 ^ n) else v &&& ~~~BitVec.ofNat 16 (2 ^ n)).getLsbD k = if k = n then on else v.getLsbD k := by
  have bit : (BitVec.ofNat 16 (2 ^ n)).getLsbD k = decide (k = n) := by
    rw [BitVec.getLsbD_ofNat, Nat.testBit_two_pow]
    by_cases h : k = n
    · simp [h, hn]
    · simp [h, Ne.symm h]
  generalize BitVec.ofNat 16 (2 ^ n) = m at bit
  by_cases h : k = n
  · subst h
    cases on <;> simp [-BitVec.getLsbD_eq_getElem, bit, hn]
  · by_cases low : k < 16
    · cases on <;> simp [-BitVec.getLsbD_eq_getElem, bit, h, low]
    · rw [if_neg h, BitVec.getLsbD_of_ge _ k (Nat.not_lt.1 low), BitVec.getLsbD_of_ge _ k (Nat.not_lt.1 low)]

/-- Discard one command without a status. -/
def State.discardCmd (s : State) (c : Cmd) : State :=
  ((match c.work with | .run w => s.freeSlot w | _ => s).purge c.ref).dropCmd c.ref

theorem State.freeSlot_frame (s : State) (w : RunWork) : s.freeSlot w = { s with crews := (s.freeSlot w).crews } := by
  unfold State.freeSlot
  split <;> rfl

/-- Discarding a command reaches its work and its record. -/
theorem State.discardCmd_frame (s : State) (c : Cmd) : s.discardCmd c = { s with
    arrs := (s.discardCmd c).arrs, crews := (s.discardCmd c).crews, ves := (s.discardCmd c).ves, parts := (s.discardCmd c).parts
    cmds := s.cmds.filter (fun x => x.ref ≠ c.ref) } := by
  have purged (u : State) (freed : u = { s with crews := u.crews }) : (u.purge c.ref).dropCmd c.ref = { s with
      arrs := (u.purge c.ref).arrs, crews := (u.purge c.ref).crews, ves := (u.purge c.ref).ves, parts := (u.purge c.ref).parts
      cmds := s.cmds.filter (fun x => x.ref ≠ c.ref) } := by
    have frame := (Purged.purge u c.ref).rest
    rw [State.dropCmd, frame, freed]
  unfold State.discardCmd
  cases c.work with
  | run w => exact purged _ (s.freeSlot_frame w)
  | _ => exact purged s rfl

theorem State.discardCmds_frame (s : State) (l : List Cmd) : s.each l State.discardCmd = { s with
    arrs := (s.each l State.discardCmd).arrs, crews := (s.each l State.discardCmd).crews, ves := (s.each l State.discardCmd).ves
    parts := (s.each l State.discardCmd).parts, cmds := s.cmds.filter (fun x => l.all (fun c => x.ref ≠ c.ref)) } := by
  induction l generalizing s with
  | nil => simp only [State.each_nil, List.all_nil, List.filter_true]
  | cons c l ih =>
    rw [State.each_cons, ih, State.discardCmd_frame]
    simp only [List.filter_filter, List.all_cons, Bool.and_comm]

/-- A queue disabled, its entries gone. -/
def Queue.shut (x : Queue) : Queue := { x with enable := false, fetched := [] }

/-- Discarding the commands of a queue reaches their work, their records and their queue. -/
theorem State.discard_frame (s : State) (q : QueueId) : s.discard q = { s with
    arrs := (s.discard q).arrs, crews := (s.discard q).crews, ves := (s.discard q).ves, parts := (s.discard q).parts
    queues := (s.modQueue q Queue.shut).queues, cmds := s.cmds.filter (fun x => x.ref.q ≠ q) } := by
  have others : (s.cmds.filter fun x => (s.cmds.filter fun c => decide (c.ref.q = q)).all fun c => x.ref ≠ c.ref)
      = s.cmds.filter fun x => x.ref.q ≠ q := by
    refine List.filter_congr fun x hx => ?_
    by_cases mine : x.ref.q = q
    · have listed : x ∈ s.cmds.filter fun c => decide (c.ref.q = q) := List.mem_filter.2 ⟨hx, decide_eq_true mine⟩
      rw [decide_eq_false (not_not.2 mine), List.all_eq_false]
      exact ⟨x, listed, by simp only [ne_eq, not_true_eq_false, decide_false, Bool.false_eq_true, not_false_eq_true]⟩
    · rw [decide_eq_true mine, List.all_eq_true]
      intro c hc
      refine decide_eq_true fun same => mine ?_
      rw [same]
      exact of_decide_eq_true (List.mem_filter.1 hc).2
  have whole : s.discard q = (s.each (s.cmds.filter fun c => decide (c.ref.q = q)) State.discardCmd).modQueue q Queue.shut := rfl
  rw [whole, State.discardCmds_frame, others]
  rfl


/-- Discarding the commands of two queues. -/
theorem State.discard_discard_frame (s : State) (a b : QueueId) : ∃ arrs crews ves parts, (s.discard a).discard b = { s with
    arrs := arrs, crews := crews, ves := ves, parts := parts, queues := ((s.modQueue a Queue.shut).modQueue b Queue.shut).queues
    cmds := s.cmds.filter (fun x => decide (x.ref.q ≠ b) && decide (x.ref.q ≠ a)) } := by
  refine ⟨((s.discard a).discard b).arrs, ((s.discard a).discard b).crews, ((s.discard a).discard b).ves,
    ((s.discard a).discard b).parts, ((s.discard a).discard_frame b).trans ?_⟩
  have first := s.discard_frame a
  generalize s.discard a = u at first ⊢
  generalize (u.discard b).arrs = arrs, (u.discard b).crews = crews, (u.discard b).ves = ves, (u.discard b).parts = parts
  rw [first, ← List.filter_filter]
  rfl

/-- A context that its function's reset closes. -/
def Ctx.flr (x : Ctx) : Ctx := if x.st = .closed then x else { x with st := .closing, batch := none }

theorem exec_vfFlr_powered {s : State} (n : Fin 16) (powered : s.dev.st ≠ .off) :
    exec (.vfFlr n) s = .next (((s.discard (.ctx n)).discard (.bow n)).modCtx n.val Ctx.flr) := if_neg powered

/-- Settles O46: the enable bits by their masks, the reset by what discarding two queues reaches. -/
theorem virtualFunctionsAreEnabledAndReset : Obligations.VirtualFunctionsAreEnabledAndReset := by
  refine ⟨fun s n en msix powered => ⟨_, if_neg powered, ?_, ?_, fun k other => ⟨?_, ?_⟩, rfl⟩, fun s n powered => ?_,
    fun s n en msix off => ⟨if_pos off, if_pos off⟩⟩
  · exact (getLsbD_writeBit _ n.isLt en _).trans (if_pos rfl)
  · exact (getLsbD_writeBit _ n.isLt (en && msix) _).trans (if_pos rfl)
  · exact (getLsbD_writeBit _ n.isLt en _).trans (if_neg other)
  · exact (getLsbD_writeBit _ n.isLt (en && msix) _).trans (if_neg other)
  · obtain ⟨arrs, crews, ves, parts, discarded⟩ := s.discard_discard_frame (.ctx n) (.bow n)
    rw [exec_vfFlr_powered n powered, discarded]
    have apart : qIdx (.ctx n) ≠ qIdx (.bow n) := by simp only [qIdx]; omega
    have context : ((s.modQueue (.ctx n) Queue.shut).modQueue (.bow n) Queue.shut).queue (.ctx n) = (s.queue (.ctx n)).shut := by
      rw [State.queue_modQueue_other _ _ _ _ apart, State.queue_modQueue_same]
    have bow : ((s.modQueue (.ctx n) Queue.shut).modQueue (.bow n) Queue.shut).queue (.bow n) = (s.queue (.bow n)).shut := by
      rw [State.queue_modQueue_same, State.queue_modQueue_other _ _ _ _ apart.symm]
    refine ⟨_, rfl, congrArg Queue.enable context, congrArg Queue.enable bow, congrArg Queue.fetched context,
      congrArg Queue.fetched bow, fun x hx => ?_, fun x hx notCtx notBow => ?_, rfl, rfl, rfl, rfl, rfl, ?_, fun k other => ?_, rfl, rfl,
      fun q ring notCtx notBow => ?_⟩
    · have kept := (List.mem_filter.1 hx).2
      simp only [Bool.and_eq_true, decide_eq_true_eq] at kept
      exact kept.symm
    · exact List.mem_filter.2 ⟨hx, by simp only [notCtx, notBow, ne_eq, not_false_eq_true, decide_true, Bool.and_self]⟩
    · exact State.ctx_modCtx_same _ _ Ctx.flr
    · exact State.ctx_modCtx_other _ _ _ Ctx.flr other
    · refine (State.queue_modQueue_other _ _ _ _ fun same => notBow (qIdx_inj ring same)).trans ?_
      exact State.queue_modQueue_other _ _ _ _ fun same => notCtx (qIdx_inj ring same)

end Sys2Proof.Machine
end

/-! ## Firmware (R199, R317, R318) -/
section
namespace Sys2Proof.Machine

/-- The staging image that a FW_STAGE of TOTAL bytes adds to. -/
def Env.imageOf (e : Env) (total : Nat) : Env := if e.fwTotal = total then e else { e with fwTotal := total, fwBytes := [], fwCover := [] }

/-- Bytes staged at an offset of an image. -/
def Env.stage (e : Env) (off : Nat) (bs : List Byte) (len : Nat) : Env :=
  { e with fwBytes := Memory.writeBytes e.fwBytes off bs, fwCover := (off, off + len) :: e.fwCover }

section
variable (e : Env) (total : Nat)

theorem Env.imageOf_fwTotal : (e.imageOf total).fwTotal = total := by
  unfold Env.imageOf
  split
  · assumption
  · rfl

theorem Env.imageOf_fwBytes : (e.imageOf total).fwBytes = if e.fwTotal = total then e.fwBytes else [] := apply_ite Env.fwBytes _ _ _
theorem Env.imageOf_fwCover : (e.imageOf total).fwCover = if e.fwTotal = total then e.fwCover else [] := apply_ite Env.fwCover _ _ _

theorem Env.imageOf_wf (wf : Memory.wf e.fwBytes) : Memory.wf (e.imageOf total).fwBytes := by
  rw [Env.imageOf_fwBytes]
  split
  · exact wf
  · exact Memory.wf_nil

theorem Env.read_imageOf (x : Nat) :
    Memory.read (e.imageOf total).fwBytes x = if e.fwTotal = total then Memory.read e.fwBytes x else 0 := by
  rw [Env.imageOf_fwBytes, apply_ite (Memory.read · x)]
  rfl

theorem Env.stage_imageOf_rest (off len : Nat) (bs : List Byte) : (e.imageOf total).stage off bs len = { e with
    fwTotal := ((e.imageOf total).stage off bs len).fwTotal, fwBytes := ((e.imageOf total).stage off bs len).fwBytes
    fwCover := ((e.imageOf total).stage off bs len).fwCover } := by
  unfold Env.imageOf
  split <;> rfl

end

/-- The state with a staging image to which `n` bytes of host memory have been added. -/
def State.stageFw (s : State) (e : Env) (n : Nat) : State := { s with env := e }.chargeHbm false n

theorem State.stageFw_rest {s : State} {e : Env}
    (rest : e = { s.env with fwTotal := e.fwTotal, fwBytes := e.fwBytes, fwCover := e.fwCover }) (n : Nat) :
    s.stageFw e n = { s with
      env := { s.env with
        fwTotal := (s.stageFw e n).env.fwTotal, fwBytes := (s.stageFw e n).env.fwBytes, fwCover := (s.stageFw e n).env.fwCover }
      gov := (s.stageFw e n).gov, tel := (s.stageFw e n).tel } := by
  have env : (s.stageFw e n).env = e := rfl
  rw [env, ← rest]
  rfl

section
variable {p : Packet} {a : Nat} (data : p.hostData = some a)
include data

theorem effFwStage_legal (nonempty : 1 ≤ p.length) (small : p.length ≤ 1048576) (inside : p.param 32 4 + p.length ≤ p.param 36 4)
    (q : QueueId) (s : State) :
    effFwStage q p s = (s.stageFw ((s.env.imageOf (p.param 36 4)).stage (p.param 32 4) (Memory.readBytes s.host a p.length) p.length)
      p.length).done q p .ok p.length 0 := by
  have legal : ¬ (decide (p.length = 0) || decide (1048576 < p.length) || decide (p.param 36 4 < p.param 32 4 + p.length)) = true := by
    simp only [Bool.or_eq_true, decide_eq_true_eq]
    omega
  unfold effFwStage
  simp only [data]
  exact if_neg legal

theorem effFwStage_illegal (bad : p.length = 0 ∨ 1048576 < p.length ∨ p.param 36 4 < p.param 32 4 + p.length) (q : QueueId) (s : State) :
    effFwStage q p s = s.reply q p .badParam 0 0 0 := by
  unfold effFwStage
  simp only [data]
  refine if_pos ?_
  simpa only [Bool.or_eq_true, decide_eq_true_eq, or_assoc] using bad

end

section
variable {s : State} {p : Packet} (q : QueueId)

/-- The staged image. -/
def Env.image (e : Env) : List Byte := Memory.readBytes e.fwBytes 0 e.fwTotal

/-- The state in which the bank of an image has been erased. -/
def State.eraseBank (s : State) (b : List Byte) : State :=
  { s with dev := { s.dev with
    flash := s.dev.flash.filter (fun c => c.1 < flashSlot (imgType b) (s.dev.freeBank (imgType b))
      || flashSlot (imgType b) (s.dev.freeBank (imgType b)) + 0x1000000 ≤ c.1) } }

theorem effFwActivate_incomplete (gap : s.env.fwComplete = false) : effFwActivate q p s = s.reply q p .badParam 0 0 0 :=
  if_pos (by rw [gap, Bool.not_false, Bool.or_true])

section
variable (bare : p.noAddrs = true) (complete : s.env.fwComplete = true)
include bare complete

theorem effFwActivate_complete : effFwActivate q p s = if !signedOk Config.firmwareKey s.env.image then s.reply q p .sigBad 0 0 0
    else if !(imgType s.env.image == 1 || imgType s.env.image == 2) || 0x1000000 < s.env.image.length then s.reply q p .badParam 0 0 0
    else ((s.eraseBank s.env.image).chargeHbm false s.env.image.length).enrol (mkCmd s q p true (.flash s.env.image)) :=
  if_neg (by simp only [bare, complete, Bool.not_true, Bool.or_self, Bool.false_eq_true, not_false_eq_true])

theorem effFwActivate_unsigned (bad : signedOk Config.firmwareKey s.env.image = false) :
    effFwActivate q p s = s.reply q p .sigBad 0 0 0 := by
  rw [effFwActivate_complete q bare complete, if_pos (by rw [bad, Bool.not_false])]

variable (signed : signedOk Config.firmwareKey s.env.image = true)
include signed

theorem effFwActivate_homeless (bad : (imgType s.env.image ≠ 1 ∧ imgType s.env.image ≠ 2) ∨ 0x1000000 < s.env.image.length) :
    effFwActivate q p s = s.reply q p .badParam 0 0 0 := by
  rw [effFwActivate_complete q bare complete, if_neg (by rw [signed]; exact Bool.false_ne_true), if_pos]
  simpa [not_or] using bad

theorem effFwActivate_accepted (type : imgType s.env.image = 1 ∨ imgType s.env.image = 2) (small : s.env.image.length ≤ 0x1000000) :
    effFwActivate q p s
      = ((s.eraseBank s.env.image).chargeHbm false s.env.image.length).enrol (mkCmd s q p true (.flash s.env.image)) := by
  rw [effFwActivate_complete q bare complete, if_neg (by rw [signed]; exact Bool.false_ne_true), if_neg]
  simpa [small] using fun h : imgType s.env.image ≠ 1 => type.resolve_left h

end
end

/-- Programming an image. -/
def Cmd.programs (c : Cmd) : Bool := match c.work with | .flash _ => true | _ => false

/-- The image in the bank that was not running. -/
def State.programBank (s : State) (b : List Byte) : State :=
  { s with dev := { s.dev with flash := Memory.writeBytes s.dev.flash (flashSlot (imgType b) (s.dev.freeBank (imgType b))) b } }

theorem exec_flashProgrammingComplete_found {s : State} {x : Cmd} {b : List Byte} (found : s.cmds.find? Cmd.programs = some x)
    (work : x.work = .flash b) :
    exec .flashProgrammingComplete s = .next (((s.programBank b).complete x .ok 0 0).resetAll true true) := by
  have unfolded : exec .flashProgrammingComplete s = execFlashProgrammingComplete s := rfl
  rw [unfolded, execFlashProgrammingComplete]
  split
  · next absent => exact nomatch found.symm.trans absent
  · next c first =>
    obtain rfl : x = c := Option.some.inj (found.symm.trans first)
    rw [work]
    rfl

theorem exec_flashProgrammingComplete_none {s : State} (idle : s.cmds.find? Cmd.programs = none) :
    exec .flashProgrammingComplete s = .next s := by
  have unfolded : exec .flashProgrammingComplete s = execFlashProgrammingComplete s := rfl
  rw [unfolded, execFlashProgrammingComplete]
  split
  · rfl
  · next c first => exact nomatch idle.symm.trans first

/-- Settles O36: staging by what the image was, activation by its checks, the restart by the completion before it. -/
theorem firmwareIsStagedAndActivated : Obligations.FirmwareIsStagedAndActivated := by
  refine ⟨fun s q p a h data wf => ⟨fun nonempty small inside => ?_, fun bad => ?_⟩, fun s q p h bare => ?_,
    fun s x b host wf lone work found => ?_, fun s idle => ?_⟩
  · obtain ⟨t, row, answered⟩ := h.completes (f := effFwStage) (effFwStage_legal data nonempty small inside q _) h.1
    have image := s.env.imageOf_wf (p.param 36 4) wf
    refine ⟨t, _, row, answered, s.env.imageOf_fwTotal _, ?_, fun x out => ?_, ?_, ?_⟩
    · have whole := Memory.readBytes_writeBytes image (p.param 32 4) (Memory.readBytes s.host a p.length)
      rwa [Memory.length_readBytes] at whole
    · refine (Memory.read_writeBytes_out _ _ _ _ ?_).trans (s.env.read_imageOf _ x)
      rw [Memory.length_readBytes]
      exact out
    · exact congrArg (_ :: ·) (s.env.imageOf_fwCover _)
    · exact State.stageFw_rest (s := s.popFetched q) (s.env.stage_imageOf_rest _ _ _ _) p.length
  · exact h.replies (f := effFwStage) (effFwStage_illegal data bad q _)
  · refine ⟨_, congrArg Host.Outcome.next (State.packetRow_offers h.2.2 effFwActivate), fun gap => ?_, fun complete bad => ?_,
      fun complete signed => ⟨fun bad => ?_, fun type small => ?_⟩⟩
    · rw [effFwActivate_incomplete (s := s.popFetched q) q gap]
      exact Answered.reply (m := s.popFetched q) h.1 h.2.1 p _ 0 0 0
    · rw [effFwActivate_unsigned (s := s.popFetched q) q bare complete bad]
      exact Answered.reply (m := s.popFetched q) h.1 h.2.1 p _ 0 0 0
    · rw [effFwActivate_homeless (s := s.popFetched q) q bare complete signed bad]
      exact Answered.reply (m := s.popFetched q) h.1 h.2.1 p _ 0 0 0
    · rw [effFwActivate_accepted (s := s.popFetched q) q bare complete signed type small]
      exact ⟨rfl, rfl⟩
  · have ends := Ends.complete (m := s.programBank b) host lone .ok 0 0
    refine ⟨_, _, _, exec_flashProgrammingComplete_found found work, ends, rfl, rfl, rfl, rfl, rfl, rfl, fun _ => rfl, fun _ => rfl, ?_⟩
    have kept : ((s.programBank b).complete x .ok 0 0).dev.flash = (s.programBank b).dev.flash := by
      rw [ends.rest]
      rfl
    have flash : (((s.programBank b).complete x .ok 0 0).resetAll true true).dev.flash = (s.programBank b).dev.flash := kept
    rw [flash]
    exact Memory.readBytes_writeBytes wf _ b
  · refine exec_flashProgrammingComplete_none (List.find?_eq_none.2 fun c hc => ?_)
    have other := idle c hc
    unfold Cmd.programs
    cases work : c.work with
    | flash b => exact absurd work (other b)
    | _ => exact Bool.false_ne_true

end Sys2Proof.Machine
end

/-! ## Every row answers a next state (R177, R179) -/
section
namespace Sys2Proof.Machine

/-- The outcome is a next state. -/
def Goes (o : Host.Outcome State Fault Refusal) : Prop := ∃ t, o = .next t

theorem Goes.next (t : State) : Goes (.next t) := ⟨t, rfl⟩

/-- A row that asks for a number of readings, with that number. -/
theorem Goes.counted {n k : Nat} {o : Host.Outcome State Fault Refusal} (number : (n == k) = true) (rest : Goes o) :
    Goes (if n ≠ k then .fault .malformedEvent else o) := by
  rwa [if_neg (not_not.2 (beq_iff_eq.1 number))]

/-- Where a row asks for a number of readings, a well-formed event has it; every branch of every row ends in a next state. -/
theorem exec_goes (i : Instr) (s : State) (wf : i.wf = true) : Goes (exec i s) := by
  cases i
  case tempSample | railTelemetryAvs | railTelemetryPmbus | pitchSlot | maintenanceSlot | strokeScanEnd | sineTestStroke =>
    refine Goes.counted wf ?_
    repeat' (first | exact .next _ | split)
  all_goals
    dsimp only [exec, execTimeLatchRead, execTrngRead, execFenceComplete, execResetRelease, execPllLock,
      execBistStageComplete, execBootImageSelect,
      execPllUnlock, execSelftestComplete, execFlashProgrammingComplete, execSmbMirrorReadFirst, execSmbMirrorReadSecond,
      execJtagInstruction, execVirtualFunctionEnable, execVfFlr, execGovernorBudgetUpdate, execLanternPassComplete,
      execCtxCloseComplete, execPitchShardComplete, execPackConversion, execPitchCommitComplete, execPitchTimeout,
      execPitchWindowWrite, execArraySwing, execRefreshStart, execCensusStart, execScheduledCensusDue, execRefreshComplete,
      execCensusComplete, execPartialArrival, execStroke, execFoldReplay, execCheckReplay, execKeepWarmStroke, execVeFetchStart,
      execVeDescriptorExecute, execVeDescriptorComplete, execAeHbmWriteComplete, execRunDispatch, execTileArrival,
      execClaimFetchAdd, execClaimResultsArrival, execClaimRecovery, execClaimWatchdogExpiry, execRunComplete,
      execTwinBlockArrival, execRunBowComplete, execTwinRoleExchange, execTwinAbsentTimeout, execRetrimTrainingStep,
      execPortTrainingComplete, execLinkAck, execLinkResend, execMessageTimeout, execCollectiveComplete, execGroupPoll,
      execGroupPollTimeout, execGovernorEpoch]
    repeat' (first | exact .next _ | split)

/-- Settles O3: the rows by their branches, the malformed events by the number that their rows ask for first. -/
theorem wellFormedCommandsComplete : Obligations.WellFormedCommandsComplete :=
  ⟨exec_goes, fun _ _ _ => ⟨fun _ _ wrong => if_pos wrong, fun _ wrong => ⟨if_pos wrong, if_pos wrong⟩, fun _ wrong => if_pos wrong,
    fun _ wrong => if_pos wrong, fun _ wrong => if_pos wrong, fun _ wrong => if_pos wrong⟩⟩

end Sys2Proof.Machine
end

/-! ## Changes of every vector engine, and tables that lose entries -/
section
namespace Sys2Proof.Machine

theorem State.eachVe_frame (s : State) (f : Ve → Ve) : s.eachVe f = { s with ves := (s.eachVe f).ves } :=
  State.each_keeps (P := fun t => t = { s with ves := t.ves }) _ rfl fun t v h => by
    rw [h]
    rfl

/-- A property of a vector engine that a change keeps. -/
theorem State.ve_eachVe_keeps {Q : Ve → Prop} {f : Ve → Ve} (keeps : ∀ x, Q x → Q (f x)) {s : State} {v : Nat} (h : Q (s.ve v)) :
    Q ((s.eachVe f).ve v) :=
  State.each_keeps (P := fun t => Q (t.ve v)) _ h fun t k ht => by
    by_cases here : v = k
    · subst here
      rw [State.ve_modVe_same]
      exact keeps _ ht
    · rwa [State.ve_modVe_other _ _ _ _ here]

theorem State.ve_unlisted {s : State} {v : Nat} (h : v ∉ s.ves.map (·.1)) : s.ve v = Ve.reset := by
  rw [State.ve, Tbl.get, Tbl.find?_eq_none_iff.2 h]
  rfl

/-- A property of a vector engine that a change makes, and that one after reset has. -/
theorem State.ve_eachVe_makes {Q : Ve → Prop} {f : Ve → Ve} (makes : ∀ x, Q (f x)) (blank : Q Ve.reset) (s : State) (v : Nat) :
    Q ((s.eachVe f).ve v) := by
  have made (l : List Nat) (t : State) (h : v ∈ l ∨ Q (t.ve v)) : Q ((t.each l (fun s k => s.modVe k f)).ve v) := by
    induction l generalizing t with
    | nil => exact h.resolve_left (List.not_mem_nil)
    | cons k l ih =>
      rw [State.each_cons]
      refine ih _ ?_
      by_cases here : v = k
      · subst here
        exact .inr ((State.ve_modVe_same t v f).symm ▸ makes _)
      · rw [State.ve_modVe_other _ _ _ _ here]
        exact h.imp_left fun h => (List.mem_cons.1 h).resolve_left here
  refine made _ s ?_
  by_cases listed : v ∈ s.ves.map (·.1)
  · exact .inl listed
  · exact .inr ((State.ve_unlisted listed).symm ▸ blank)

theorem Tbl.get_filter {α : Type} (d : Nat → α) (t : Tbl α) (p : Nat → Bool) (k : Nat) :
    Tbl.get d (t.filter (fun e => p e.1)) k = if p k then Tbl.get d t k else d k := by
  unfold Tbl.get
  cases h : p k
  · rw [Tbl.find?_filter_drop t p k h]
    rfl
  · rw [Tbl.find?_filter_keep t p k h]
    rfl

/-- A change of crews that does nothing the second time reaches each crew listed once. -/
theorem State.crew_each_twice {f : Crew → Crew} (twice : ∀ x, f (f x) = f x) (l : List Nat) (s : State) (n : Nat) :
    (s.each l (fun s k => s.modCrew k f)).crew n = if n ∈ l then f (s.crew n) else s.crew n := by
  induction l generalizing s with
  | nil => rfl
  | cons k l ih =>
    rw [State.each_cons, ih]
    by_cases here : n = k
    · subst here
      rw [State.crew_modCrew_same, twice, ite_self, if_pos List.mem_cons_self]
    · rw [State.crew_modCrew_other _ _ _ _ here]
      exact if_congr (by simp [here]) rfl rfl

theorem length_setAt {α : Type} (l : List α) (i : Nat) (x : α) : (setAt l i x).length = l.length := by
  induction l generalizing i with
  | nil => rfl
  | cons y l ih =>
    cases i with
    | zero => rfl
    | succ i => exact congrArg (· + 1) (ih i)

theorem getD_setAt_same {α : Type} {l : List α} {i : Nat} (h : i < l.length) (x y : α) : (setAt l i x).getD i y = x := by
  induction l generalizing i with
  | nil => exact absurd h (Nat.not_lt_zero i)
  | cons z l ih =>
    cases i with
    | zero => rfl
    | succ i => exact ih (Nat.lt_of_succ_lt_succ h)

theorem getD_setAt_other {α : Type} {i j : Nat} (h : j ≠ i) (l : List α) (x y : α) : (setAt l i x).getD j y = l.getD j y := by
  induction l generalizing i j with
  | nil => rfl
  | cons z l ih =>
    cases i with
    | zero => cases j with
      | zero => exact absurd rfl h
      | succ j => rfl
    | succ i => cases j with
      | zero => rfl
      | succ j => exact ih fun e => h (congrArg (· + 1) e)

/-- A fold over rising numbers, one of which makes `P` of `H`. -/
theorem State.each_once {H P : State → Prop} {f : State → Nat → State} {l : List Nat} {d : Nat} (mem : d ∈ l) (rising : l.Pairwise (· < ·))
    {s : State} (start : H s) (before : ∀ t k, k ∈ l → k < d → H t → H (f t k)) (here : ∀ t, H t → P (f t d))
    (after : ∀ t k, k ∈ l → d < k → P t → P (f t k)) : P (s.each l f) := by
  induction l generalizing s with
  | nil => exact absurd mem List.not_mem_nil
  | cons k l ih =>
    obtain ⟨least, rising⟩ := List.pairwise_cons.1 rising
    rw [State.each_cons]
    obtain rfl | later := List.mem_cons.1 mem
    · exact List.foldlRecOn (motive := P) l f (here s start) fun t ht j hj => after t j (List.mem_cons_of_mem _ hj) (least j hj) ht
    · exact ih later rising (before s k List.mem_cons_self (least d later) start) (fun t j hj => before t j (List.mem_cons_of_mem _ hj))
        (fun t j hj => after t j (List.mem_cons_of_mem _ hj))

end Sys2Proof.Machine
end

/-! ## A die loses power (R14, R16, R327) -/
section
namespace Sys2Proof.Machine

/-- Of the descriptors of a command only those that have started are left in a ring. -/
def OnlyStarted (r : CmdRef) (x : Ve) : Prop := ∀ z ∈ x.ring, z.ref = r → z.started = true

theorem onlyStarted_reset (r : CmdRef) : OnlyStarted r Ve.reset := fun _ hz => absurd hz List.not_mem_nil

theorem Ve.mem_ring_dropWork {r : CmdRef} {x : Ve} {z : Desc} (h : z ∈ (x.dropWork r).ring) :
    ∃ y ∈ x.ring, (y.ref ≠ r ∨ y.started = true) ∧ z.ref = y.ref ∧ z.started = y.started := by
  obtain ⟨y, hy, rfl⟩ := List.mem_map.1 h
  obtain ⟨listed, kept⟩ := List.mem_filter.1 hy
  refine ⟨y, listed, by simpa using kept, ?_⟩
  split <;> exact ⟨rfl, rfl⟩

theorem onlyStarted_dropWork_same (r : CmdRef) (x : Ve) : OnlyStarted r (x.dropWork r) := fun z hz mine => by
  obtain ⟨y, -, kept, ref, started⟩ := Ve.mem_ring_dropWork hz
  rw [started]
  exact kept.resolve_left fun other => other (ref ▸ mine)

theorem OnlyStarted.dropWork {r : CmdRef} {x : Ve} (h : OnlyStarted r x) (r' : CmdRef) : OnlyStarted r (x.dropWork r') :=
  fun z hz mine => by
    obtain ⟨y, hy, -, ref, started⟩ := Ve.mem_ring_dropWork hz
    rw [started]
    exact h y hy (ref ▸ mine)

/-- The descriptors of a ring wait no more for a counter of die `d`. -/
def Ve.unwaitDie (d : Nat) (x : Ve) : Ve := { x with ring := x.ring.map (Desc.unwaitDie d) }

theorem OnlyStarted.unwaitDie {r : CmdRef} {x : Ve} (h : OnlyStarted r x) (d : Nat) : OnlyStarted r (x.unwaitDie d) :=
  fun z hz mine => by
    obtain ⟨y, hy, rfl⟩ := List.mem_map.1 hz
    have same : (y.unwaitDie d).ref = y.ref ∧ (y.unwaitDie d).started = y.started := by
      unfold Desc.unwaitDie
      split <;> exact ⟨rfl, rfl⟩
    rw [same.2]
    exact h y hy (same.1 ▸ mine)

/-- The commands that leave their vector engines when die `d` loses power. -/
def State.leavers (s : State) (d : Nat) : List CmdRef := (s.cmds.filter (s.leavesVes d)).map (·.ref)

/-- A command when die `d` loses power. -/
def Cmd.clearDie (rs : List CmdRef) (d : Nat) (c : Cmd) : Cmd :=
  match c.work with
  | .run w => { c with work := .run (if rs.contains c.ref then w.undispatch else w.unwaitDie d) }
  | _ => c

theorem State.clearDie_eq (s : State) (d : Nat) : s.clearDie d
    = ({ s.each (s.leavers d) (fun s r => s.eachVe (Ve.dropWork r)) with
      cmds := (s.each (s.leavers d) (fun s r => s.eachVe (Ve.dropWork r))).cmds.map (Cmd.clearDie (s.leavers d) d) } : State).eachVe
        (Ve.unwaitDie d) := rfl

theorem State.clearDie_frame (s : State) (d : Nat) : s.clearDie d = { s with
    ves := (s.clearDie d).ves, cmds := s.cmds.map (Cmd.clearDie (s.leavers d) d) } := by
  rw [State.clearDie_eq]
  have dropped : s.each (s.leavers d) (fun s r => s.eachVe (Ve.dropWork r))
      = { s with ves := (s.each (s.leavers d) (fun s r => s.eachVe (Ve.dropWork r))).ves } :=
    State.each_keeps (P := fun t => t = { s with ves := t.ves }) _ rfl fun t r h => by
      rw [State.eachVe_frame, h]
  generalize s.each (s.leavers d) (fun s r => s.eachVe (Ve.dropWork r)) = u at dropped ⊢
  rw [State.eachVe_frame, dropped]

/-- A property of a vector engine that losing work and waits keeps. -/
theorem State.ve_clearDie_keeps {Q : Ve → Prop} (drop : ∀ r x, Q x → Q (x.dropWork r)) (unwait : ∀ d x, Q x → Q (x.unwaitDie d))
    {s : State} {v : Nat} (h : Q (s.ve v)) (d : Nat) : Q ((s.clearDie d).ve v) := by
  rw [State.clearDie_eq]
  refine State.ve_eachVe_keeps (unwait d) ?_
  exact State.each_keeps (P := fun t => Q (t.ve v)) _ h fun t r ht => State.ve_eachVe_keeps (drop r) ht

theorem State.ve_clearDie_reset {s : State} {v : Nat} (h : s.ve v = Ve.reset) (d : Nat) : (s.clearDie d).ve v = Ve.reset :=
  State.ve_clearDie_keeps (Q := fun x => x = Ve.reset) (fun r x blank => by rw [blank]; rfl) (fun k x blank => by rw [blank]; rfl) h d

/-- A command is to be dispatched anew, and no descriptor of it but those that have started is left. -/
structure Resent (t : State) (r : CmdRef) : Prop where
  cmds : ∀ y ∈ t.cmds, y.ref = r → ∀ w, y.work = .run w → w.dispatched = false
  ves : ∀ v, OnlyStarted r (t.ve v)

theorem Cmd.mem_clearDie {rs : List CmdRef} {d : Nat} {l : List Cmd} {y : Cmd} (h : y ∈ l.map (Cmd.clearDie rs d)) {w : RunWork}
    (work : y.work = .run w) : ∃ c ∈ l, ∃ w', c.ref = y.ref ∧ c.work = .run w'
      ∧ (w.dispatched = false ∨ y.ref ∉ rs ∧ w.dispatched = w'.dispatched) := by
  obtain ⟨c, hc, rfl⟩ := List.mem_map.1 h
  unfold Cmd.clearDie at work ⊢
  cases run : c.work with
  | run w' =>
    simp only [run] at work ⊢
    refine ⟨c, hc, w', rfl, run, ?_⟩
    obtain rfl := Work.run.inj work
    by_cases leaves : c.ref ∈ rs
    · rw [if_pos (List.contains_iff_mem.2 leaves)]
      exact .inl rfl
    · rw [if_neg (fun h => leaves (List.contains_iff_mem.1 h))]
      refine .inr ⟨leaves, ?_⟩
      unfold RunWork.unwaitDie
      split <;> rfl
  | _ =>
    simp only [run] at work
    exact nomatch work

/-- A RUN that leaves its vector engines is sent again. -/
theorem State.resent_clearDie {s : State} {d : Nat} {r : CmdRef} (leaves : r ∈ s.leavers d) : Resent (s.clearDie d) r := by
  refine ⟨fun y hy mine w work => ?_, fun v => ?_⟩
  · rw [State.clearDie_frame] at hy
    obtain ⟨c, -, w', -, -, done⟩ := Cmd.mem_clearDie hy work
    exact done.resolve_right fun h => h.1 (mine ▸ leaves)
  · rw [State.clearDie_eq]
    refine State.ve_eachVe_keeps (fun x h => h.unwaitDie d) ?_
    have made (l : List CmdRef) (t : State) (h : r ∈ l ∨ OnlyStarted r (t.ve v)) :
        OnlyStarted r ((t.each l (fun s r => s.eachVe (Ve.dropWork r))).ve v) := by
      induction l generalizing t with
      | nil => exact h.resolve_left List.not_mem_nil
      | cons k l ih =>
        rw [State.each_cons]
        refine ih _ ?_
        by_cases here : r = k
        · subst here
          exact .inr (State.ve_eachVe_makes (onlyStarted_dropWork_same r) (onlyStarted_reset r) t v)
        · exact h.imp (fun h => (List.mem_cons.1 h).resolve_left here) fun h => State.ve_eachVe_keeps (fun x hx => hx.dropWork k) h
    exact made _ s (.inl leaves)

theorem Resent.clearDie {t : State} {r : CmdRef} (h : Resent t r) (d : Nat) : Resent (t.clearDie d) r := by
  refine ⟨fun y hy mine w work => ?_, fun v => State.ve_clearDie_keeps (fun k x hx => hx.dropWork k) (fun k x hx => hx.unwaitDie k) (h.ves v) d⟩
  rw [State.clearDie_frame] at hy
  obtain ⟨c, hc, w', ref, run, done⟩ := Cmd.mem_clearDie hy work
  obtain again | ⟨-, same⟩ := done
  · exact again
  · exact same.trans (h.cmds c hc (ref.trans mine) w' run)

/-- The registers of die `d` but those of its crews at their reset values. -/
def State.unpower (s : State) (d : Nat) : State :=
  { s with
    arrs := s.arrs.filter (fun e => crewDie (e.1 / 17) != d), ves := s.ves.filter (fun e => e.1 / 8 != d)
    counters := s.counters.filter (fun e => e.1 / 64 != d), tel := { s.tel with nocParErr := setAt s.tel.nocParErr (1 + d) 0 } }

section
variable (s : State) (d : Nat)

theorem State.powerDown_eq : s.powerDown d = ((s.clearDie d).unpower d).each
    (((s.clearDie d).crews.map (·.1)).filter (fun c => crewDie c == d)) (fun s c => s.modCrew c Crew.powerDown) := rfl

theorem State.powerDown_frame : s.powerDown d = { (s.clearDie d).unpower d with crews := (s.powerDown d).crews } :=
  ((s.clearDie d).unpower d).each_modCrew_frame _ id (fun _ => Crew.powerDown)

theorem State.arr_powerDown (a : Nat) : (s.powerDown d).arr a = if crewDie (a / 17) = d then Arr.reset a else s.arr a := by
  rw [State.powerDown_frame]
  have cleared : (s.clearDie d).arrs = s.arrs := by rw [State.clearDie_frame]
  refine (Tbl.get_filter Arr.reset (s.clearDie d).arrs (fun a => crewDie (a / 17) != d) a).trans ?_
  rw [cleared]
  by_cases mine : crewDie (a / 17) = d
  · simp [mine]
  · simp [mine, State.arr]

theorem State.ve_powerDown (v : Nat) : (s.powerDown d).ve v = if v / 8 = d then Ve.reset else (s.clearDie d).ve v := by
  rw [State.powerDown_frame]
  refine (Tbl.get_filter Ve.dflt (s.clearDie d).ves (fun v => v / 8 != d) v).trans ?_
  by_cases mine : v / 8 = d
  · simp [mine, Ve.dflt]
  · simp [mine, State.ve]

theorem State.counter_powerDown (j : Nat) : (s.powerDown d).counter j = if j / 64 = d then 0 else s.counter j := by
  rw [State.powerDown_frame]
  have cleared : (s.clearDie d).counters = s.counters := by rw [State.clearDie_frame]
  refine (Tbl.get_filter counterDflt (s.clearDie d).counters (fun j => j / 64 != d) j).trans ?_
  rw [cleared]
  by_cases mine : j / 64 = d
  · simp [mine, counterDflt]
  · simp [mine, State.counter]

theorem State.crew_powerDown (k : Nat) : (s.powerDown d).crew k = if crewDie k = d then (s.crew k).powerDown else s.crew k := by
  have cleared : (s.clearDie d).crews = s.crews := by rw [State.clearDie_frame]
  have before : ((s.clearDie d).unpower d).crew k = s.crew k := by
    rw [State.crew, State.unpower, cleared]
    rfl
  rw [State.powerDown_eq, State.crew_each_twice (f := Crew.powerDown) (fun _ => rfl), before, cleared]
  have mem : k ∈ (s.crews.map (·.1)).filter (fun c => crewDie c == d) ↔ k ∈ s.crews.map (·.1) ∧ crewDie k = d := by
    rw [List.mem_filter, beq_iff_eq]
  by_cases mine : crewDie k = d
  · rw [if_pos mine]
    by_cases listed : k ∈ s.crews.map (·.1)
    · rw [if_pos (mem.2 ⟨listed, mine⟩)]
    · have blank : s.crew k = Crew.reset := by
        rw [State.crew, Tbl.get, Tbl.find?_eq_none_iff.2 listed]
        rfl
      rw [if_neg fun h => listed (mem.1 h).1, blank]
      rfl
  · rw [if_neg mine, if_neg fun h => mine (mem.1 h).2]

theorem State.nocParErr_powerDown : (s.powerDown d).tel.nocParErr = setAt s.tel.nocParErr (1 + d) 0 := by
  rw [State.powerDown_frame, State.unpower, State.clearDie_frame]

theorem State.cmds_powerDown : (s.powerDown d).cmds = (s.clearDie d).cmds := by
  rw [State.powerDown_frame, State.unpower]

end

theorem Resent.powerDown {t : State} {d : Nat} {r : CmdRef} (h : Resent (t.clearDie d) r) : Resent (t.powerDown d) r := by
  refine ⟨?_, fun v => ?_⟩
  · rw [State.cmds_powerDown]
    exact h.cmds
  · rw [State.ve_powerDown]
    split
    · exact onlyStarted_reset r
    · exact h.ves v

/-- Die `d` has lost power: its registers are at their reset values, but for what lasts of its crews. -/
structure DieDown (s t : State) (d : Nat) : Prop where
  arrs : ∀ a, crewDie (a / 17) = d → t.arr a = Arr.reset a
  crews : ∀ k, crewDie k = d → t.crew k = (s.crew k).powerDown
  ves : ∀ v, v / 8 = d → t.ve v = Ve.reset
  counters : ∀ j, j / 64 = d → t.counter j = 0
  router : 1 + d < s.tel.nocParErr.length → t.tel.nocParErr.getD (1 + d) 0 = 0

/-- Die `d` has still power. -/
structure DieOn (s t : State) (d : Nat) : Prop where
  crews : ∀ k, crewDie k = d → t.crew k = s.crew k
  router : t.tel.nocParErr.length = s.tel.nocParErr.length

section
variable {s t : State} {d : Nat}

theorem DieOn.powerDown_other (h : DieOn s t d) {k : Nat} (other : d ≠ k) : DieOn s (t.powerDown k) d := by
  refine ⟨fun n die => ?_, ?_⟩
  · rw [State.crew_powerDown, if_neg (die ▸ other), h.crews n die]
  · rw [State.nocParErr_powerDown, length_setAt, h.router]

theorem DieOn.powerDown (h : DieOn s t d) : DieDown s (t.powerDown d) d := by
  refine ⟨fun a die => ?_, fun n die => ?_, fun v die => ?_, fun j die => ?_, fun long => ?_⟩
  · rw [State.arr_powerDown, if_pos die]
  · rw [State.crew_powerDown, if_pos die, h.crews n die]
  · rw [State.ve_powerDown, if_pos die]
  · rw [State.counter_powerDown, if_pos die]
  · rw [State.nocParErr_powerDown, getD_setAt_same (h.router ▸ long)]

theorem DieDown.powerDown_other (h : DieDown s t d) {k : Nat} (other : d ≠ k) : DieDown s (t.powerDown k) d := by
  refine ⟨fun a die => ?_, fun n die => ?_, fun v die => ?_, fun j die => ?_, fun long => ?_⟩
  · rw [State.arr_powerDown, if_neg (die ▸ other), h.arrs a die]
  · rw [State.crew_powerDown, if_neg (die ▸ other), h.crews n die]
  · rw [State.ve_powerDown, if_neg (die ▸ other), State.ve_clearDie_reset (h.ves v die)]
  · rw [State.counter_powerDown, if_neg (die ▸ other), h.counters j die]
  · rw [State.nocParErr_powerDown, getD_setAt_other (by omega), h.router long]

end

end Sys2Proof.Machine
end

/-! ## A die is powered again (R357) -/
section
namespace Sys2Proof.Machine

theorem State.st_emit (s : State) (kind : Nat) (i : SigInfo) : (s.emit kind i).dev.st = s.dev.st := by
  have raised (u : State) : (u.raisePf 1).dev.st = u.dev.st := by
    obtain e | ⟨x, e⟩ | e := u.raisePf_cases 1 <;> rw [e]
  have stored (u : State) (b : List Byte) : (u.storeSig b).dev.st = u.dev.st := by
    unfold State.storeSig
    split
    · rfl
    · dsimp only
      split
      · exact raised _
      · rfl
  unfold State.emit
  dsimp only
  split
  · obtain ⟨g, o, sent⟩ := State.send_frame (State.storeSig { s with sig := { s.sig with
      seq := s.sig.seq + 1, mirror := pushMirror s.sig.mirror (s.sigBytes kind i) } } (s.sigBytes kind i)) _
    rw [sent]
    exact stored _ _
  · exact stored _ _

/-- What lantern results reach: arrays, and what a signature reaches. -/
structure Lit (s t : State) : Prop where
  rest : t = { s with arrs := t.arrs, sig := t.sig, group := t.group, outs := t.outs, dev := t.dev }
  st : t.dev.st = s.dev.st

theorem State.lanterns_lit (s : State) (r : List Byte) (on : Nat → Bool) (live : Nat → Nat → F16) : Lit s (s.lanterns r on live) := by
  rw [State.lanterns_eq]
  refine State.each_keeps (P := Lit s) _ ⟨rfl, rfl⟩ fun t a ht => State.each_keeps (P := Lit s) _ ht fun t pk ⟨rest, st⟩ => ?_
  obtain e | ⟨i, e⟩ := t.setLantern_cases r a pk (live a pk)
  · refine ⟨?_, by rw [e]; exact st⟩
    rw [e, rest]
    rfl
  · refine ⟨?_, by rw [e, State.st_emit]; exact st⟩
    obtain ⟨x, g, o, d, emitted, -⟩ := State.emit_frame
      (t.modArr a (Arr.takeLantern pk (trimLantern r a (pk / 8) (pk % 8)) (live a pk))) 0x0C i
    rw [e, emitted, rest]
    rfl

/-- What powering a die reaches: its crews and arrays, and what its transfer and its signatures do. -/
structure PoweredUp (s t : State) (d : Nat) : Prop where
  rest : t = { s with
    arrs := t.arrs, crews := t.crews, sig := t.sig, group := t.group, outs := t.outs, dev := t.dev, gov := t.gov, tel := t.tel, free := t.free }
  st : t.dev.st = s.dev.st
  router : t.tel.nocParErr = s.tel.nocParErr
  crewOff : ∀ k, crewDie k ≠ d → t.crew k = s.crew k
  arrOff : ∀ a, crewDie (a / 17) ≠ d → t.arr a = s.arr a

/-- What a die that is powered again takes of a record (R357): spare map, trims and lantern cells. -/
def Restored (t : State) (r : List Byte) (home : Prop) (a : Nat) : Prop :=
  Trimmed t r a ∧ ∀ pk, pk < 16 → ∃ live, (home → live = trimLantern r a (pk / 8) (pk % 8))
    ∧ TakesLantern (t.arr a) pk (trimLantern r a (pk / 8) (pk % 8)) live

theorem Restored.congr {t u : State} {r : List Byte} {home : Prop} {a : Nat} (h : Restored t r home a) (arr : u.arr a = t.arr a)
    (crew : u.crew (a / 17) = t.crew (a / 17)) : Restored u r home a := by
  obtain ⟨⟨spare, trim, track⟩, cells⟩ := h
  refine ⟨⟨?_, ?_, ?_⟩, ?_⟩
  · rwa [crew]
  · rwa [arr]
  · rwa [arr]
  · rwa [arr]

/-- The lantern conductances that a die measures when it is powered; in BOATHOUSE those of the record. -/
def State.liveLantern (s : State) (r : List Byte) (a pk : Nat) : F16 :=
  if s.dev.st = .boathouse then trimLantern r a (pk / 8) (pk % 8) else Config.freeLantern a pk s.free

/-- A die that has its record again and draws the tokens of its lantern pass. -/
def State.retrimmed (s : State) (d : Nat) : State :=
  ((s.chargeHbm false s.env.trim.length).loadTrim s.env.trim (· == d)).drawPass (fun k => k == d && s.dev.st ≠ .boathouse)

theorem State.powerUp_blank {s : State} (blank : s.env.trimLoaded = false) (d : Nat) : s.powerUp d = s := if_pos (by rw [blank]; rfl)

theorem State.powerUp_loaded {s : State} (loaded : s.env.trimLoaded = true) (d : Nat) : s.powerUp d
    = { (s.retrimmed d).lanterns s.env.trim (· == d) ((s.retrimmed d).liveLantern s.env.trim) with free := (s.retrimmed d).free + 1 } :=
  if_neg (by rw [loaded]; exact Bool.false_ne_true)

theorem State.retrimmed_spec (s : State) (d : Nat) : s.retrimmed d = { s with
      crews := (s.retrimmed d).crews, arrs := (s.retrimmed d).arrs, gov := (s.retrimmed d).gov, tel := (s.retrimmed d).tel }
    ∧ (s.retrimmed d).tel.nocParErr = s.tel.nocParErr
    ∧ (∀ k, k < 256 → crewDie k = d → (s.retrimmed d).crew k = (s.crew k).setSpare (trimSpare s.env.trim k))
    ∧ (∀ k, crewDie k ≠ d → (s.retrimmed d).crew k = s.crew k)
    ∧ (∀ a, a < 4352 → crewDie (a / 17) = d → (s.retrimmed d).arr a = (s.arr a).loadTrim s.env.trim a)
    ∧ (∀ a, crewDie (a / 17) ≠ d → (s.retrimmed d).arr a = s.arr a) := by
  obtain ⟨rest, crewOn, crewOff, arrOn, arrOff⟩ := (s.chargeHbm false s.env.trim.length).loadTrim_spec s.env.trim (· == d)
  refine ⟨?_, ?_, fun k hk die => crewOn k hk (beq_iff_eq.2 die), fun k die => crewOff k (beq_eq_false_iff_ne.2 die),
    fun a ha die => arrOn a ha (beq_iff_eq.2 die), fun a die => arrOff a (beq_eq_false_iff_ne.2 die)⟩
  · rw [State.retrimmed, State.drawPass, rest, State.chargeHbm_frame]
  · rw [State.retrimmed, State.drawPass, rest]
    rfl

theorem State.poweredUp (s : State) (d : Nat) : PoweredUp s (s.powerUp d) d := by
  cases loaded : s.env.trimLoaded with
  | false =>
    rw [State.powerUp_blank loaded]
    exact ⟨rfl, rfl, rfl, fun _ _ => rfl, fun _ _ => rfl⟩
  | true =>
    rw [State.powerUp_loaded loaded]
    obtain ⟨rest, router, -, crewOff, -, arrOff⟩ := s.retrimmed_spec d
    generalize s.retrimmed d = u at rest router crewOff arrOff ⊢
    have lit := u.lanterns_lit s.env.trim (· == d) (u.liveLantern s.env.trim)
    have arrs := u.arr_lanterns s.env.trim (· == d) (u.liveLantern s.env.trim)
    generalize u.lanterns s.env.trim (· == d) (u.liveLantern s.env.trim) = t at lit arrs ⊢
    obtain ⟨lit, st⟩ := lit
    have crews : t.crews = u.crews := by rw [lit]
    have tel : t.tel = u.tel := by rw [lit]
    refine ⟨?_, ?_, ?_, fun k die => ?_, fun a die => ?_⟩
    · rw [lit, rest]
    · exact st.trans (by rw [rest])
    · exact (congrArg Tel.nocParErr tel).trans router
    · refine Eq.trans ?_ (crewOff k die)
      exact congrArg (Tbl.get Crew.dflt · k) crews
    · refine (arrs a).trans ((if_neg fun on => die ?_).trans (arrOff a die))
      exact beq_iff_eq.1 (mem_arrsOn.1 on).2

theorem Arr.fTrim_loadTrim (r : List Byte) (a : Nat) (x : Arr) : (x.loadTrim r a).fTrim = trimCols r a := by simp only [Arr.loadTrim]
theorem Arr.dac_loadTrim (r : List Byte) (a : Nat) (x : Arr) : (x.loadTrim r a).dac = trimDac r a := by simp only [Arr.loadTrim]

theorem Arr.trimmed_loadTrim (r : List Byte) (a : Nat) (x : Arr) : (x.loadTrim r a).kappa = 0x3F800000#32
    ∧ (x.loadTrim r a).tTrim = [] ∧ (x.loadTrim r a).tWin = 25 ∧ (x.loadTrim r a).conv = false := by
  refine ⟨rfl, rfl, ?_, rfl⟩
  show ((400 : Int) : Rat) / (16 * ((1 : Nat) : Rat)) = 25
  norm_num

/-- Lantern results reach no trim and no tracking of an array. -/
theorem Arr.trims_takeLanterns (f live : Nat → F16) (cells : List Nat) (x : Arr) :
    ((x.takeLanterns f live cells).fTrim = x.fTrim ∧ (x.takeLanterns f live cells).dac = x.dac)
    ∧ (x.takeLanterns f live cells).kappa = x.kappa ∧ (x.takeLanterns f live cells).tTrim = x.tTrim
    ∧ (x.takeLanterns f live cells).tWin = x.tWin ∧ (x.takeLanterns f live cells).conv = x.conv := by
  rw [Arr.takeLanterns_frame]
  exact ⟨⟨rfl, rfl⟩, rfl, rfl, rfl, rfl⟩

/-- A die that is powered again takes the kept record. -/
theorem State.restored_powerUp {s : State} (loaded : s.env.trimLoaded = true) {a : Nat} (ha : a < 4352) :
    Restored (s.powerUp (crewDie (a / 17))) s.env.trim (s.dev.st = .boathouse) a := by
  rw [State.powerUp_loaded loaded]
  obtain ⟨rest, -, crewOn, -, arrOn, -⟩ := s.retrimmed_spec (crewDie (a / 17))
  have crew := crewOn (a / 17) (by omega) rfl
  have arr := arrOn a ha rfl
  have st : (s.retrimmed (crewDie (a / 17))).dev.st = s.dev.st := by rw [rest]
  generalize s.retrimmed (crewDie (a / 17)) = u at crew arr st ⊢
  have lit := u.lanterns_lit s.env.trim (· == crewDie (a / 17)) (u.liveLantern s.env.trim)
  have arrs := u.arr_lanterns s.env.trim (· == crewDie (a / 17)) (u.liveLantern s.env.trim) a
  have on : a ∈ arrsOn (· == crewDie (a / 17)) := mem_arrsOn.2 ⟨ha, beq_self_eq_true _⟩
  rw [if_pos on, arr] at arrs
  generalize u.lanterns s.env.trim (· == crewDie (a / 17)) (u.liveLantern s.env.trim) = t at lit arrs ⊢
  have crews : t.crew (a / 17) = (s.crew (a / 17)).setSpare (trimSpare s.env.trim (a / 17)) := by
    rw [State.crew, congrArg State.crews lit.rest]
    exact crew
  refine Restored.congr (t := t) ?_ rfl rfl
  refine ⟨⟨?_, ?_, ?_⟩, fun pk hpk => ⟨u.liveLantern s.env.trim a pk, fun home => if_pos (st.trans home), ?_⟩⟩
  · rw [crews]
    exact ⟨rfl, rfl⟩
  · rw [arrs]
    obtain ⟨⟨fTrim, dac⟩, -⟩ := Arr.trims_takeLanterns (fun pk => trimLantern s.env.trim a (pk / 8) (pk % 8))
      (u.liveLantern s.env.trim a) (List.range 16) ((s.arr a).loadTrim s.env.trim a)
    exact ⟨fTrim.trans (Arr.fTrim_loadTrim _ _ _), dac.trans (Arr.dac_loadTrim _ _ _)⟩
  · rw [arrs]
    obtain ⟨-, kappa, tTrim, tWin, conv⟩ := Arr.trims_takeLanterns (fun pk => trimLantern s.env.trim a (pk / 8) (pk % 8))
      (u.liveLantern s.env.trim a) (List.range 16) ((s.arr a).loadTrim s.env.trim a)
    rw [kappa, tTrim, tWin, conv]
    exact Arr.trimmed_loadTrim _ _ _
  · rw [arrs]
    exact Arr.takesLanterns _ _ (List.mem_range.2 hpk) _

end Sys2Proof.Machine
end

/-! ## The envelope is set (R14 to R16) -/
section
namespace Sys2Proof.Machine

/-- The dies that lose power, and those that gain it. -/
def diesLost (old new : Nat) : List Nat := (List.range 4).filter (fun d => diePowered old d && !diePowered new d)
def diesGained (old new : Nat) : List Nat := (List.range 4).filter (fun d => !diePowered old d && diePowered new d)

theorem mem_diesLost {old new d : Nat} : d ∈ diesLost old new ↔ d < 4 ∧ diePowered old d = true ∧ diePowered new d = false := by
  simp [diesLost]

theorem mem_diesGained {old new d : Nat} : d ∈ diesGained old new ↔ d < 4 ∧ diePowered old d = false ∧ diePowered new d = true := by
  simp [diesGained]

theorem rising_diesLost (old new : Nat) : (diesLost old new).Pairwise (· < ·) := List.pairwise_lt_range.filter _
theorem rising_diesGained (old new : Nat) : (diesGained old new).Pairwise (· < ·) := List.pairwise_lt_range.filter _

/-- The state whose envelope register holds a new envelope. -/
def State.withEnvelope (s : State) (e : Nat) : State := { s with env := { s.env with env := e } }

theorem State.setEnvelope_eq (s : State) (e : Nat) : s.setEnvelope e
    = if e = 1 then (((s.withEnvelope e).each (diesLost s.env.env e) State.powerDown).each (diesGained s.env.env e) State.powerUp).closeBypasses
      else ((s.withEnvelope e).each (diesLost s.env.env e) State.powerDown).each (diesGained s.env.env e) State.powerUp := rfl

theorem State.closeBypasses_frame (s : State) : s.closeBypasses = { s with ports := s.closeBypasses.ports } :=
  State.each_keeps (P := fun t => t = { s with ports := t.ports }) _ rfl fun t p h => by
    rw [h]
    rfl

section
variable {P : State → Prop} {s : State} {e : Nat} (close : ∀ (t : State) (l : Tbl Port), P t → P { t with ports := l })
include close

/-- What holds when the dies have power, or none, holds when the envelope is set. -/
theorem State.setEnvelope_of_dies
    (dies : P (((s.withEnvelope e).each (diesLost s.env.env e) State.powerDown).each (diesGained s.env.env e) State.powerUp)) :
    P (s.setEnvelope e) := by
  rw [State.setEnvelope_eq]
  split
  · rw [State.closeBypasses_frame]
    exact close _ _ dies
  · exact dies

/-- What every step of an envelope change keeps. -/
theorem State.setEnvelope_keeps (start : P (s.withEnvelope e)) (down : ∀ t d, P t → P (t.powerDown d)) (up : ∀ t d, P t → P (t.powerUp d)) :
    P (s.setEnvelope e) :=
  State.setEnvelope_of_dies close (State.each_keeps _ (State.each_keeps _ start down) up)

variable {H : State → Prop} {d : Nat}

/-- What the loss of die `d` makes. -/
theorem State.setEnvelope_loses (lost : d ∈ diesLost s.env.env e) (start : H (s.withEnvelope e))
    (before : ∀ t k, k ∈ diesLost s.env.env e → k < d → H t → H (t.powerDown k)) (here : ∀ t, H t → P (t.powerDown d))
    (after : ∀ t k, d ≠ k → P t → P (t.powerDown k)) (up : ∀ t k, k ≠ d → P t → P (t.powerUp k)) : P (s.setEnvelope e) := by
  refine State.setEnvelope_of_dies close ?_
  refine List.foldlRecOn (motive := P) _ State.powerUp ?_ fun t ht k hk => up t k ?_ ht
  · exact State.each_once lost (rising_diesLost _ _) start before here fun t k _ later => after t k (Nat.ne_of_lt later)
  · rintro rfl
    have on := (mem_diesLost.1 lost).2.1
    rw [(mem_diesGained.1 hk).2.1] at on
    exact nomatch on

/-- What the gain of die `d` makes. -/
theorem State.setEnvelope_gains (gained : d ∈ diesGained s.env.env e) (start : H (s.withEnvelope e)) (down : ∀ t k, H t → H (t.powerDown k))
    (before : ∀ t k, H t → H (t.powerUp k)) (here : ∀ t, H t → P (t.powerUp d)) (after : ∀ t k, d ≠ k → P t → P (t.powerUp k)) :
    P (s.setEnvelope e) :=
  State.setEnvelope_of_dies close (State.each_once gained (rising_diesGained _ _) (State.each_keeps _ start down)
    (fun t k _ _ => before t k) here fun t k _ later => after t k (Nat.ne_of_lt later))

end

section
variable {s t : State} {d k : Nat}

theorem DieDown.powerUp_other (h : DieDown s t d) (other : k ≠ d) : DieDown s (t.powerUp k) d := by
  have up := t.poweredUp k
  obtain ⟨arrs, crews, ves, counters, router⟩ := h
  refine ⟨fun a die => ?_, fun n die => ?_, fun v die => ?_, fun j die => ?_, fun long => ?_⟩
  · rw [up.arrOff a (die ▸ other.symm), arrs a die]
  · rw [up.crewOff n (die ▸ other.symm), crews n die]
  · rw [up.rest]
    exact ves v die
  · rw [up.rest]
    exact counters j die
  · rw [up.router]
    exact router long

/-- A die that loses power is without it when the envelope is set. -/
theorem State.dieDown_setEnvelope {e : Nat} (lost : d ∈ diesLost s.env.env e) : DieDown s (s.setEnvelope e) d :=
  State.setEnvelope_loses (P := fun t => DieDown s t d) (H := fun t => DieOn s t d)
    (fun _ _ ⟨arrs, crews, ves, counters, router⟩ => ⟨arrs, crews, ves, counters, router⟩) lost ⟨fun _ _ => rfl, rfl⟩
    (fun _ _ _ later h => h.powerDown_other (Nat.ne_of_gt later)) (fun _ h => h.powerDown) (fun _ _ other h => h.powerDown_other other)
    fun _ _ other h => h.powerUp_other other

theorem Resent.powerUp {r : CmdRef} (h : Resent t r) (k : Nat) : Resent (t.powerUp k) r := by
  rw [(t.poweredUp k).rest]
  exact ⟨h.cmds, h.ves⟩

/-- The RUNs that leave the lowest die that loses power are sent again. -/
theorem State.resent_setEnvelope {e : Nat} (lost : d ∈ diesLost s.env.env e)
    (lowest : ∀ k, k < d → diePowered s.env.env k = true → diePowered e k = true) {x : Cmd} (mem : x ∈ s.cmds)
    (leaves : s.leavesVes d x = true) : Resent (s.setEnvelope e) x.ref := by
  refine State.setEnvelope_loses (P := fun t => Resent t x.ref) (H := fun t => t = s.withEnvelope e) (fun _ _ h => ⟨h.cmds, h.ves⟩) lost rfl
    (fun t k hk lower _ => ?_) (fun t h => ?_) (fun t k _ h => (h.clearDie k).powerDown) fun t k _ h => h.powerUp k
  · obtain ⟨-, on, off⟩ := mem_diesLost.1 hk
    rw [lowest k lower on] at off
    exact nomatch off
  · have leaves' : (s.withEnvelope e).leavesVes d x = true := leaves
    rw [h]
    exact (State.resent_clearDie (s := s.withEnvelope e) (List.mem_map_of_mem (List.mem_filter.2 ⟨mem, leaves'⟩))).powerDown

/-- What an envelope change leaves as it is. -/
structure EnvelopeSet (s t : State) (e : Nat) : Prop where
  env : t.env = { s.env with env := e }
  cfg : t.cfg = s.cfg
  ctxs : t.ctxs = s.ctxs
  host : t.host = s.host
  st : t.dev.st = s.dev.st

theorem EnvelopeSet.powerDown {e : Nat} (h : EnvelopeSet s t e) (d : Nat) : EnvelopeSet s (t.powerDown d) e := by
  obtain ⟨env, cfg, ctxs, host, st⟩ := h
  rw [State.powerDown_frame, State.unpower, State.clearDie_frame]
  exact ⟨env, cfg, ctxs, host, st⟩

theorem EnvelopeSet.powerUp {e : Nat} (h : EnvelopeSet s t e) (d : Nat) : EnvelopeSet s (t.powerUp d) e := by
  obtain ⟨env, cfg, ctxs, host, st⟩ := h
  have up := t.poweredUp d
  refine ⟨?_, ?_, ?_, ?_, up.st.trans st⟩ <;> rw [up.rest]
  · exact env
  · exact cfg
  · exact ctxs
  · exact host

theorem State.envelopeSet (s : State) (e : Nat) : EnvelopeSet s (s.setEnvelope e) e :=
  State.setEnvelope_keeps (P := fun t => EnvelopeSet s t e) (fun _ _ ⟨env, cfg, ctxs, host, st⟩ => ⟨env, cfg, ctxs, host, st⟩)
    ⟨rfl, rfl, rfl, rfl, rfl⟩ (fun _ d h => h.powerDown d) fun _ d h => h.powerUp d

/-- A die that gains power has taken the kept record when the envelope is set. -/
theorem State.restored_setEnvelope {e a : Nat} (ha : a < 4352) (gained : crewDie (a / 17) ∈ diesGained s.env.env e)
    (loaded : s.env.trimLoaded = true) : Restored (s.setEnvelope e) s.env.trim (s.dev.st = .boathouse) a := by
  refine State.setEnvelope_gains (P := fun t => Restored t s.env.trim (s.dev.st = .boathouse) a) (H := fun t => EnvelopeSet s t e)
    (fun _ _ h => h.congr rfl rfl) gained ⟨rfl, rfl, rfl, rfl, rfl⟩ (fun _ k h => h.powerDown k) (fun _ k h => h.powerUp k) (fun t h => ?_)
    fun t k other h => h.congr ((t.poweredUp k).arrOff a other) ((t.poweredUp k).crewOff _ other)
  have took := State.restored_powerUp (s := t) (by rw [h.env]; exact loaded) ha
  rwa [h.env, h.st] at took

end

end Sys2Proof.Machine
end

/-! ## SET_ENVELOPE and SET_ENVIRONMENT (R193) -/
section
namespace Sys2Proof.Machine

section
variable {p : Packet} {q : QueueId} {s : State}

theorem effSetEnvelope_illegal (bad : p.param 32 1 = 0 ∨ 4 < p.param 32 1) : effSetEnvelope q p s = s.reply q p .badParam 0 0 0 := by
  refine if_pos ?_
  simp only [Bool.or_eq_true, decide_eq_true_eq, or_assoc]
  exact .inr bad

section
variable (bare : p.noAddrs = true) (positive : 1 ≤ p.param 32 1) (named : p.param 32 1 ≤ 4)
include bare positive named

theorem effSetEnvelope_legal : effSetEnvelope q p s
    = if !s.envelopeOk (p.param 32 1) then s.reply q p .state 0 0 0 else (s.setEnvelope (p.param 32 1)).done q p .ok 0 0 := by
  refine if_neg ?_
  simp only [bare, Bool.not_true, Bool.false_or, Bool.or_eq_true, decide_eq_true_eq]
  omega

theorem effSetEnvelope_allowed (allowed : s.envelopeOk (p.param 32 1) = true) :
    effSetEnvelope q p s = (s.setEnvelope (p.param 32 1)).done q p .ok 0 0 := by
  rw [effSetEnvelope_legal bare positive named, allowed]
  rfl

theorem effSetEnvelope_forbidden (forbidden : s.envelopeOk (p.param 32 1) = false) :
    effSetEnvelope q p s = s.reply q p .state 0 0 0 := by
  rw [effSetEnvelope_legal bare positive named, forbidden]
  rfl

end

/-- The position that a SET_ENVIRONMENT names. -/
def Packet.position (p : Packet) : Dword := BitVec.ofNat 32 (p.param 44 4)

/-- The fields of a SET_ENVIRONMENT are legal (R193). -/
def Packet.environmentOk (p : Packet) : Prop :=
  1 ≤ p.param 42 1 ∧ p.param 42 1 ≤ 4 ∧ p.param 43 1 ≤ 1 ∧ posRole p.position ≠ 3 ∧ bitsOf p.position.toNat 29 3 = 0

/-- A state in which a SET_ENVIRONMENT has taken effect. -/
def State.setEnvironment (s : State) (p : Packet) : State :=
  let u := s.setEnvelope (p.param 42 1)
  { u with
    dev := { u.dev with timeBase := BitVec.ofNat 64 (p.param 32 8) }
    env := { u.env with envSet := true, mode := p.param 43 1 == 1, coolant := BitVec.ofNat 16 (p.param 40 2), position := p.position }
    cfg := u.cfg.writePolicy (policyDefault (p.param 43 1 == 1)) }

theorem effSetEnvironment_eq : effSetEnvironment q p s =
    if !p.noAddrs || p.param 42 1 = 0 || 4 < p.param 42 1 || 1 < p.param 43 1 || posRole p.position = 3 || bitsOf p.position.toNat 29 3 ≠ 0 then
      s.reply q p .badParam 0 0 0
    else if !s.envelopeOk (p.param 42 1) || (s.member && p.position ≠ s.env.position) then s.reply q p .state 0 0 0
    else (s.setEnvironment p).done q p .ok 0 0 := rfl

theorem Packet.bitsOf_position (p : Packet) : bitsOf p.position.toNat 29 3 = bitsOf (p.param 44 4) 29 3 := by
  rw [Packet.position, BitVec.toNat_ofNat, bitsOf, bitsOf]
  omega

theorem effSetEnvironment_illegal (bad : ¬p.environmentOk) : effSetEnvironment q p s = s.reply q p .badParam 0 0 0 := by
  rw [effSetEnvironment_eq, if_pos]
  simp only [Bool.or_eq_true, decide_eq_true_eq]
  unfold Packet.environmentOk at bad
  by_contra fine
  simp only [not_or] at fine
  exact bad ⟨by omega, by omega, by omega, fine.1.2, not_not.1 fine.2⟩

theorem effSetEnvironment_legal (bare : p.noAddrs = true) (legal : p.environmentOk) : effSetEnvironment q p s =
    if !s.envelopeOk (p.param 42 1) || (s.member && p.position ≠ s.env.position) then s.reply q p .state 0 0 0
    else (s.setEnvironment p).done q p .ok 0 0 := by
  obtain ⟨positive, named, mode, role, reserved⟩ := legal
  rw [effSetEnvironment_eq, if_neg]
  simp only [bare, Bool.not_true, Bool.false_or, Bool.or_eq_true, decide_eq_true_eq, role, reserved, ne_eq, not_true_eq_false,
    or_false]
  omega

end

/-- Settles O13: the checks of both commands in their order; a die by the step that takes its power or gives it. -/
theorem environmentAndEnvelopeAreSet : Obligations.EnvironmentAndEnvelopeAreSet := by
  refine ⟨fun s q p h bare => ⟨fun positive named allowed => ?_, fun positive named forbidden => ?_, fun bad => ?_⟩,
    fun s q p h bare positive named mode role reserved allowed alone => ?_,
    fun s q p h bare => ⟨fun bad => ?_, fun positive named mode role reserved barred => ?_⟩,
    fun s e d _ hd on off => ?_, fun s e a ha off on loaded => ?_⟩
  · have set := (s.popFetched q).envelopeSet (p.param 32 1)
    obtain ⟨t, row, answered⟩ := h.completes (f := effSetEnvelope) (effSetEnvelope_allowed (s := s.popFetched q) bare positive named allowed)
      (set.host ▸ h.1)
    exact ⟨t, _, row, answered, rfl⟩
  · exact h.replies (f := effSetEnvelope) (effSetEnvelope_forbidden (s := s.popFetched q) bare positive named forbidden)
  · exact h.replies (f := effSetEnvelope) (effSetEnvelope_illegal bad)
  · have set := (s.popFetched q).envelopeSet (p.param 42 1)
    have effect : effSetEnvironment q p (s.popFetched q) = ((s.popFetched q).setEnvironment p).done q p .ok 0 0 := by
      have allows : (!(s.popFetched q).envelopeOk (p.param 42 1)) = false := by
        rw [Bool.not_eq_false']
        exact allowed
      have leads : (s.popFetched q).member = false := alone
      rw [effSetEnvironment_legal bare ⟨positive, named, mode, role, p.bitsOf_position.trans reserved⟩, allows, leads]
      rfl
    obtain ⟨t, row, answered⟩ := h.completes (f := effSetEnvironment) effect (set.host ▸ h.1)
    refine ⟨t, _, row, answered, rfl, rfl, rfl, rfl, congrArg Env.env set.env, rfl,
      congrArg (Cfg.writePolicy · _) set.cfg, rfl, set.ctxs, set.host, rfl⟩
  · refine h.replies (f := effSetEnvironment) (effSetEnvironment_illegal fun ⟨positive, named, mode, role, reserved⟩ => ?_)
    rw [p.bitsOf_position] at reserved
    obtain h | h | h | h | h := bad
    · omega
    · omega
    · omega
    · exact role h
    · exact h reserved
  · refine h.replies (f := effSetEnvironment) ?_
    rw [effSetEnvironment_legal bare ⟨positive, named, mode, role, p.bitsOf_position.trans reserved⟩]
    refine if_pos (Bool.or_eq_true_iff.2 ?_)
    refine barred.imp (fun forbidden => ?_) fun ⟨member, moved⟩ => ?_
    · rw [Bool.not_eq_true']
      exact forbidden
    · rw [Bool.and_eq_true, decide_eq_true_eq]
      exact ⟨member, moved⟩
  · have lost : d ∈ diesLost s.env.env e := mem_diesLost.2 ⟨hd, on, off⟩
    obtain ⟨arrs, crews, ves, counters, router⟩ := State.dieDown_setEnvelope lost
    refine ⟨congrArg Env.env (s.envelopeSet e).env, arrs, crews, ves, counters, fun five => router (by omega), fun lowest x mem leaves => ?_⟩
    obtain ⟨cmds, rings⟩ := State.resent_setEnvelope lost lowest mem leaves
    exact ⟨cmds, rings⟩
  · exact State.restored_setEnvelope ha (mem_diesGained.2 ⟨by unfold crewDie; omega, off, on⟩) loaded

end Sys2Proof.Machine
end
